-- ==== Sys2Proof/Word.lean ====
section
/-!
DEFINITION. The word types of the machine (R182, R41: instructions and control registers are 32 bits wide, memory is
addressed in bytes) and the identifiers that name its parts (R12, R150, R317).
-/
namespace Sys2Proof

/-- A control register, scalar register or instruction word (R41, R181, R182). -/
abbrev Word := BitVec 32

/-- One byte of memory (R6). -/
abbrev Byte := BitVec 8

/-- A 16-byte segment descriptor image (R190). -/
abbrev SegImage := BitVec 128

/-- A hall of the module, 0 to 7 (R11). -/
abbrev HallId := Fin 8

/-- A logical core identifier, 0 to 1,151 (R12). -/
abbrev CoreId := Fin 1152

/-- A Yarlink port, 0 to 11 (R365). -/
abbrev PortId := Fin 12

/-- A hardware thread of a core, as a site of issue (R150). -/
structure Site where
  core : CoreId
  thread : Fin 4
deriving DecidableEq, Repr

/-- The hall of a logical core (R12: the core at local index `i` of hall `h` is `h * 144 + i`). -/
def CoreId.hall (c : CoreId) : HallId := ⟨c.val / 144, by have := c.isLt; omega⟩

/-- The local index of a core in its hall (R12). -/
def CoreId.index (c : CoreId) : Nat := c.val % 144

/-- The hall of a thread. -/
def Site.hall (x : Site) : HallId := x.core.hall

/-- The logical column of a core (R12). -/
def CoreId.column (c : CoreId) : Nat := c.index % 12

/-- The logical row of a core (R12). -/
def CoreId.row (c : CoreId) : Nat := c.index / 12

end Sys2Proof
end

