-- ==== Sys2Proof/Syntax.lean ====
section
/-!
DEFINITION. The commands of the module: the operand fields of every instruction (R88, R95, R101, R103, R115, R134, R170,
R172, R185), the operands of every event, and `Instr`, one constructor for each row of the table of operations and events.
Fields that the spec marks zero or reserved are operands too, because a non-zero one raises the emulation trap (R207).
-/
namespace Sys2Proof

/-- The operand fields of R185, format R, from the highest bit down. -/
structure FmtR where
  rd : BitVec 5
  ra : BitVec 5
  rb : BitVec 5
  func : BitVec 10
deriving DecidableEq, Repr

/-- The operand fields of R185, format I, from the highest bit down. -/
structure FmtI where
  rd : BitVec 5
  ra : BitVec 5
  imm : BitVec 15
deriving DecidableEq, Repr

/-- The operand fields of R185, format S, from the highest bit down. -/
structure FmtS where
  rd : BitVec 5
  ra : BitVec 5
  kind : BitVec 2
  zero : BitVec 8
  sh : BitVec 5
deriving DecidableEq, Repr

/-- The operand fields of R185, format U, from the highest bit down. -/
structure FmtU where
  rd : BitVec 5
  imm : BitVec 20
deriving DecidableEq, Repr

/-- The operand fields of R185, format M, from the highest bit down. -/
structure FmtM where
  rt : BitVec 5
  ra : BitVec 5
  seg : BitVec 3
  size : BitVec 2
  pi : BitVec 1
  u : BitVec 1
  disp : BitVec 8
deriving DecidableEq, Repr

/-- The operand fields of R185, format B, from the highest bit down. -/
structure FmtB where
  ra : BitVec 5
  rb : BitVec 5
  cond : BitVec 3
  off : BitVec 12
deriving DecidableEq, Repr

/-- The operand fields of R185, format J, from the highest bit down. -/
structure FmtJ where
  zero : BitVec 9
  target : BitVec 16
deriving DecidableEq, Repr

/-- The operand fields of R185, format K without FUNC, which the row fixes, from the highest bit down. -/
structure FmtK where
  zeroHi : BitVec 5
  ra : BitVec 5
  zeroLo : BitVec 12
deriving DecidableEq, Repr

/-- The operand fields of R185, format G, from the highest bit down. -/
structure FmtG where
  zero : BitVec 13
  gate : BitVec 12
deriving DecidableEq, Repr

/-- The operand fields of R185, format P, from the highest bit down. -/
structure FmtP where
  zeroHi : BitVec 5
  ra : BitVec 5
  zeroLo : BitVec 15
deriving DecidableEq, Repr

/-- The operand fields of R185, format L, from the highest bit down. -/
structure FmtL where
  zero : BitVec 18
  count : BitVec 7
deriving DecidableEq, Repr

/-- The operand fields of R185, format X without FUNC, which the row fixes, from the highest bit down. -/
structure FmtX where
  rd : BitVec 5
  ra : BitVec 5
  n : BitVec 5
deriving DecidableEq, Repr

/-- The operand fields of R185, format F without P, which the row fixes, from the highest bit down. -/
structure FmtF where
  src : BitVec 4
  dst : BitVec 4
  zero : BitVec 16
deriving DecidableEq, Repr

/-- The operand fields of R185, format C without FUNC, which the row fixes, from the highest bit down. -/
structure FmtC where
  rd : BitVec 5
  ra : BitVec 5
  rb : BitVec 5
  id : BitVec 7
deriving DecidableEq, Repr

/-- The operand fields of R134, opcode 0x50, from the highest bit down. -/
structure FmtVop where
  vd : BitVec 4
  va : BitVec 4
  vb : BitVec 4
  fmt : BitVec 4
  mask : BitVec 4
  func : BitVec 5
deriving DecidableEq, Repr

/-- The operand fields of R134, opcode 0x51, from the highest bit down. -/
structure FmtVfma where
  vd : BitVec 4
  va : BitVec 4
  vb : BitVec 4
  vc : BitVec 4
  fmt : BitVec 4
  mask : BitVec 4
  zero : BitVec 1
deriving DecidableEq, Repr

/-- The operand fields of R134, opcode 0x52, from the highest bit down. -/
structure FmtVcmp where
  md : BitVec 3
  zero : BitVec 1
  va : BitVec 4
  vb : BitVec 4
  fmt : BitVec 4
  mask : BitVec 4
  cond : BitVec 3
  mop : BitVec 2
deriving DecidableEq, Repr

/-- The operand fields of R134, opcode 0x53, from the highest bit down. -/
structure FmtVperm where
  vd : BitVec 4
  va : BitVec 4
  vb : BitVec 4
  w : BitVec 1
  mask : BitVec 4
  func : BitVec 4
  zero : BitVec 4
deriving DecidableEq, Repr

/-- The operand fields of R134, opcodes 0x54 and 0x55, from the highest bit down. -/
structure FmtVmac where
  vd : BitVec 4
  va : BitVec 4
  vb : BitVec 4
  rm : BitVec 1
  tally : BitVec 4
  mask : BitVec 4
  df : BitVec 2
  sf : BitVec 2
deriving DecidableEq, Repr

/-- The operand fields of R134, opcode 0x56, from the highest bit down. -/
structure FmtVred where
  vd : BitVec 4
  va : BitVec 4
  vb : BitVec 4
  sf : BitVec 4
  df : BitVec 2
  rop : BitVec 3
  mask : BitVec 4
deriving DecidableEq, Repr

/-- The operand fields of R134, opcode 0x57, from the highest bit down. -/
structure FmtVcvt where
  vd : BitVec 4
  va : BitVec 4
  sf : BitVec 4
  df : BitVec 4
  part : BitVec 2
  tally : BitVec 4
  zero : BitVec 3
deriving DecidableEq, Repr

/-- The operand fields of R134, opcode 0x58 without ST, which the row fixes, from the highest bit down. -/
structure FmtVls where
  vr : BitVec 4
  seg : BitVec 3
  sn : BitVec 4
  fmt : BitVec 4
  tally : BitVec 4
  mask : BitVec 4
  zero : BitVec 1
deriving DecidableEq, Repr

/-- The operand fields of R134, opcode 0x59 without DIR, which the row fixes, from the highest bit down. -/
structure FmtVmv where
  tile : BitVec 4
  vr : BitVec 4
  row : BitVec 5
  zero : BitVec 11
deriving DecidableEq, Repr

/-- The operand fields of R134, opcode 0x5A, from the highest bit down. -/
structure FmtVtr where
  vd : BitVec 4
  va : BitVec 4
  fn : BitVec 4
  fmt : BitVec 4
  mask : BitVec 4
  zero : BitVec 5
deriving DecidableEq, Repr

/-- The operand fields of R134, opcode 0x5B, from the highest bit down. -/
structure FmtVmask where
  md : BitVec 3
  ma : BitVec 3
  mb : BitVec 3
  mfunc : BitVec 4
  sn : BitVec 5
  word : BitVec 2
  zero : BitVec 5
deriving DecidableEq, Repr

/-- The operand fields of R88, opcode 0x60 without MINOR, from the highest bit down. -/
structure FmtTcfg where
  tile : BitVec 4
  rows : BitVec 6
  bpr : BitVec 4
  fmt : BitVec 4
  scaled : BitVec 1
  stile : BitVec 4
deriving DecidableEq, Repr

/-- The operand fields of R95, opcode 0x61 without ST, which the row fixes, from the highest bit down. -/
structure FmtTls where
  tile : BitVec 4
  seg : BitVec 3
  pair : BitVec 4
  t : BitVec 1
  mfmt : BitVec 4
  tally : BitVec 4
  zero : BitVec 4
deriving DecidableEq, Repr

/-- The operand fields of R101, opcode 0x62, from the highest bit down. -/
structure FmtTldx where
  tile : BitVec 4
  seg : BitVec 3
  vreg : BitVec 4
  masken : BitVec 1
  mreg : BitVec 3
  mfmt : BitVec 4
  tally : BitVec 4
  zm : BitVec 1
  zero : BitVec 1
deriving DecidableEq, Repr

/-- The operand fields of R103, opcode 0x63, from the highest bit down. -/
structure FmtTzero where
  zero : BitVec 9
  mask : BitVec 16
deriving DecidableEq, Repr

/-- The operand fields of R115, opcode 0x64, from the highest bit down. -/
structure FmtMma where
  ct : BitVec 4
  at_ : BitVec 4
  bt : BitVec 4
  rm : BitVec 1
  tally : BitVec 4
  shift : BitVec 4
  zero : BitVec 4
deriving DecidableEq, Repr

/-- The operand fields of R170, opcode 0x65, from the highest bit down. -/
structure FmtToken where
  q : BitVec 2
  evbit : BitVec 5
  zero : BitVec 18
deriving DecidableEq, Repr

/-- The operand fields of R172, opcode 0x66, from the highest bit down. -/
structure FmtDmaq where
  dseg : BitVec 3
  dreg : BitVec 4
  sseg : BitVec 3
  tseg : BitVec 3
  zero : BitVec 12
deriving DecidableEq, Repr

/-- The forms of TCFG: MINOR 0b00, 0b01 and the reserved 0b11 (R88); 0b10 is TSHR. -/
inductive TcfgForm where
  | imm | reg | reserved
deriving DecidableEq, Repr

/-- A control page number (R33). -/
abbrev PageNo := BitVec 14

/-- Who makes a control-page access (R40, R215, R422). A core's access carries the ring its thread is in. -/
inductive Agent where
  /-- the keeper -/
  | keeper
  /-- the host through PF BAR0 -/
  | pf
  /-- the host through the VF BAR0 of a hall, in the bound stream with T set, or not -/
  | vf (h : HallId) (t : Bool)
  /-- a thread -/
  | core (x : Site)
  /-- engine n of a hall (R317) -/
  | engine (h : HallId) (n : Fin 9)
deriving DecidableEq, Repr

/-- A memory bank (R238, R240). -/
inductive Bank where
  | chamber (c : CoreId) (b : Fin 16)
  | gallery (h : HallId) (b : Fin 64)
deriving DecidableEq, Repr

/-- The operation from which a bank's request comes, at whichever port it enters (R246). -/
inductive BankOp where
  | tileTransfer | coreDma | hallDma | engine | attachment | vectorMove | scalarMove | segmentMove | fetch | unknown
deriving DecidableEq, Repr

/-- One line access waiting at a bank (R246): the line address within the window, the operation that issued it, the bytes a
write stores at an offset in the line (none: a read), and the requester's number, to which the reply goes. -/
structure BankReq where
  line : Nat
  op : BankOp
  write : Option (Nat × List Byte)
  src : Nat
deriving DecidableEq, Repr

/-- What the check bits of a line or burst show when it is read (R249, R353). -/
inductive CheckBits where
  | good | correctable | uncorrectable
deriving DecidableEq, Repr

/-- The send channel that sent a message (R280): its module when it is another module's, its core and channel. -/
structure Sender where
  module : Option (BitVec 18)
  core : Nat
  ch : Fin 32
deriving DecidableEq, Repr

/-- A message or sump contribution on its way (R277, R287): the ring or sump it names, its sender (none: a doorbell message,
R396), its rank for a sump contribution, and its bytes. -/
structure Message where
  target : Fin 32
  sender : Option Sender
  rank : Nat
  data : List Byte
deriving DecidableEq, Repr

/-- Where a barrier arrival arrives in a hall (R302, R303): at a router of the tree, from the local root of a hall at the
root hall, or from another module. -/
inductive ArriveAt where
  | router (col : Fin 12) (row : Fin 13)
  | rootHall (src : HallId)
  | port (p : PortId) (round : BitVec 16)
deriving DecidableEq, Repr

/-- The units with a drip counter (R74). -/
inductive DripUnit where
  | matrix (c : CoreId)
  | vector (c : CoreId)
  | siphon (h : HallId)
  | sampler (h : HallId)
deriving DecidableEq, Repr

/-- The holders of tally slots (R76, R79). -/
inductive TallyUnit where
  | core (c : CoreId)
  | engine (h : HallId) (n : Fin 9)
deriving DecidableEq, Repr

/-- The table registers of a core (R215). -/
inductive TableReg where
  | vbase (r : Fin 3)
  | gtbl
  | emstack
  | inten (n : Fin 4)
deriving DecidableEq, Repr

/-- A request of a core or engine at a memory controller or a CXL port (R350, R363): who makes it, where in one burst, how
many bytes, and the bytes of a write (none: a read). -/
structure BurstReq where
  who : Agent
  addr : Nat
  len : Nat
  write : Option (List Byte)
deriving DecidableEq, Repr

/-- What a transfer of a burst met: what its check symbols show, and how often the link CRC made it be repeated; more than 8 repeats
are a transfer that has still failed after the 8 that are made (R352). -/
structure BurstCheck where
  bits : CheckBits
  retries : Nat
deriving DecidableEq, Repr

/-- A request at a memory controller with what its transfer meets (R350). -/
structure NearReq where
  req : BurstReq
  det : BurstCheck
deriving DecidableEq, Repr

/-- How a device of the tier answers (R363, R364): whether its read returns poison, and how many flits the link repeated. -/
structure CxlReply where
  poison : Bool
  retries : Nat
deriving DecidableEq, Repr

/-- A packet of the fabric (R376, R377). LEN of a read request is the number of bytes asked for. -/
structure Packet where
  kind : BitVec 4
  err : Bool
  len : Nat
  src : BitVec 18
  dst : BitVec 18
  target : BitVec 48
  tag : BitVec 12
  data : List Byte
deriving DecidableEq, Repr

/-- A flit that arrives at a port, after forward error correction: its 256 bytes, and for each codeword of RS(544,514) that brought
them the number of symbols found in error (R365, R370); more than 15 cannot be corrected. -/
structure RxFlit where
  bytes : List Byte
  errs : List Nat
deriving DecidableEq, Repr

/-- Who makes requests of another module (R381, R449): a hall DMA engine or a snapshot engine. -/
inductive Requester where
  | dma (h : HallId) (d : Fin 4)
  | snapshot (h : HallId)
deriving DecidableEq, Repr

/-- A request that the host sends through a window of a BAR (R389, R390): offset, bytes, and the bytes of a write. -/
structure HostReq where
  off : Nat
  len : Nat
  write : Option (List Byte)
  /-- flits that the link layer replayed before it came (R403) -/
  replays : Nat
deriving DecidableEq, Repr

/-- The BAR0 windows (R387): PF0's, or that of the VF of a hall, in the bound stream with T set, or not. -/
inductive BarWin where
  | pf
  | vf (h : HallId) (t : Bool)
deriving DecidableEq, Repr

/-- What a PCIe function may support (R386). -/
inductive PciCap where
  | flitMode | tenBitTags | sriov | msix | aer | doe | ide | tdisp
  | legacyInterrupt | msi | ats | pri | pasid | resizableBar
deriving DecidableEq, Repr

/-- A register of the configuration space (R386, R387): a dword of the BARs of the function, or of the VF BARs in PF0's SR-IOV capability,
the SR-IOV counts, the greatest payload and read request sizes in bytes, whether something is supported, or another offset. -/
inductive CfgReg where
  | bar (i : Fin 6)
  | vfBar (i : Fin 6)
  | totalVfs | firstVfOffset | vfStride
  | maxPayload | maxReadRequest
  | supports (c : PciCap)
  | other (off : BitVec 12)
deriving DecidableEq, Repr

/-- A configuration request of the host (R402): VF Enable of PF0, or a read or write of a function's configuration space. -/
inductive CfgReq where
  | vfEnable (on : Bool)
  | read (r : CfgReg)
  | write (r : CfgReg) (v : Word)
deriving DecidableEq, Repr

/-- What caused a PCIe reset (R480). -/
inductive PcieReset where
  | perst | hotReset | linkDown
deriving DecidableEq, Repr

/-- The causes of a core hard fault that a unit reports (R453, R455): core reset and internal check. -/
inductive HardFault where
  | coreReset | internalCheck
deriving DecidableEq, Repr

/-- Why a cairn fails (R448). -/
inductive CairnWhy where
  | slotWrite | poison | stopped
deriving DecidableEq, Repr

/-- A position of a hall: column and physical row (R13). -/
structure Position where
  col : Fin 12
  row : Fin 13
deriving DecidableEq, Repr

/-- The measurements of an interval (R467, R471, R475, R477): mean input power in milliwatts, energy in microjoules, input
voltage and current, and the temperatures of compute dies, base dies and memory stacks by hall. -/
structure Telemetry where
  mw : Nat
  uj : Nat
  vin : BitVec 16
  iin : BitVec 16
  cdie : List (BitVec 8)
  bdie : List (BitVec 8)
  mem : List (BitVec 8)
deriving DecidableEq, Repr

/-- Which of the responder's algorithms an SPDM request offers (R416). -/
structure SpdmAlgs where
  sm2Sign : Bool
  sm2Dhe : Bool
  sm3 : Bool
  sm4Gcm : Bool
  dmtf : Bool
deriving DecidableEq, Repr

/-- Why the keeper sees the tenancy of a hall end (R419): its TDI enters ERROR, or its bound IDE stream is torn down or fails. -/
inductive TdiEnd where
  | tdi (h : HallId)
  | stream (h : HallId)
deriving DecidableEq, Repr

/-- What IDE_KM messages do with a selective IDE stream (R420): key it, or stop it. -/
inductive IdeKm where
  | key (stream : Fin 8)
  | stop (stream : Fin 8)
deriving DecidableEq, Repr

/-- A key pair that the keepers of a port's two ends have agreed (R371): the flit counts of the two directions from which it holds. -/
structure KeyRoll where
  port : PortId
  txAt : Nat
  rxAt : Nat
deriving DecidableEq, Repr

/-- What ends a training of the PCIe link in the up state (R386): lanes and rate. -/
structure LinkUp where
  x16 : Bool
  rate : Fin 3
deriving DecidableEq, Repr

/-- The commands: one constructor for each row of the table of operations and events. -/
inductive Instr where
  /-- OP (R187): Computes an integer result into sD from sA and sB under the FUNC field. -/
  | op (x : Site) (f : FmtR)
  /-- ADDI (R188): Adds a 15-bit sign-extended immediate to sA. -/
  | addi (x : Site) (f : FmtI)
  /-- ANDI (R188): ANDs sA with a zero-extended immediate. -/
  | andi (x : Site) (f : FmtI)
  /-- ORI (R188): ORs sA with a zero-extended immediate. -/
  | ori (x : Site) (f : FmtI)
  /-- XORI (R188): XORs sA with a zero-extended immediate. -/
  | xori (x : Site) (f : FmtI)
  /-- SLTI (R188): Sets sD to 1 when sA is below the sign-extended immediate, compared signed. -/
  | slti (x : Site) (f : FmtI)
  /-- SLTIU (R188): Sets sD to 1 when sA is below the sign-extended immediate, compared unsigned. -/
  | sltiu (x : Site) (f : FmtI)
  /-- SHI (R188): Shifts sA by an immediate count, with the shift kind selected by KIND. -/
  | shi (x : Site) (f : FmtS)
  /-- LUI (R188): Sets sD to the immediate shifted left by 12. -/
  | lui (x : Site) (f : FmtU)
  /-- FOP (R189): Performs scalar BF16 or A16 arithmetic, comparison or conversion, rounding to nearest even. -/
  | fop (x : Site) (f : FmtR)
  /-- LD (R195): Checks a segment access and issues a load of 1, 2 or 4 bytes into RT, with optional post-increment. -/
  | ld (x : Site) (f : FmtM)
  /-- LOAD_DATA_ARRIVE (R196): Load data arrive, fill the pending destination register and release it. -/
  | loadDataArrive (x : Site) (k : Fin 8)
  /-- ST (R195): Checks a segment access and stores the low bytes of RT, with optional post-increment. -/
  | st (x : Site) (f : FmtM)
  /-- BR (R197): Branches relative to PC modulo 2^16 when the compare condition holds. -/
  | br (x : Site) (f : FmtB)
  /-- JMP (R197): Sets PC to an immediate target. -/
  | jmp (x : Site) (f : FmtJ)
  /-- CALL (R198): Pushes the return index on the return stack and jumps to the target. -/
  | call (x : Site) (f : FmtJ)
  /-- JMPR (R197): Jumps to the index held in sA. -/
  | jmpr (x : Site) (f : FmtK)
  /-- CALLR (R198): Pushes the return index and jumps to the index held in sA. -/
  | callr (x : Site) (f : FmtK)
  /-- RET (R198): Pops the return stack into PC. -/
  | ret (x : Site) (f : FmtK)
  /-- XRET (R233): Checks and pops an exception frame, restoring segments, PC, ring and INH and restarting the queues it names. -/
  | xret (x : Site) (f : FmtK)
  /-- RETG (R233): Checks and pops a gate frame, restoring the caller's segments, PC, ring and INH. -/
  | retg (x : Site) (f : FmtK)
  /-- GATE (R221): Checks gate n, pushes a gate frame with the captured arguments and enters the target ring. -/
  | gate (x : Site) (f : FmtG)
  /-- REP (R204): Repeats the following instruction the number of times held in sA, interruptibly between repetitions. -/
  | rep (x : Site) (f : FmtP)
  /-- REP_L (R205): Repeats the following instruction an immediate number of times with interrupts held off. -/
  | repL (x : Site) (f : FmtL)
  /-- CRD (R163): Reads a common register into sD. -/
  | crd (x : Site) (f : FmtX)
  /-- CWR (R163): Writes sA into a common register. -/
  | cwr (x : Site) (f : FmtX)
  /-- CSWAP (R163): Indivisibly swaps a common register with sA, returning the old value. -/
  | cswap (x : Site) (f : FmtX)
  /-- CADD (R163): Indivisibly adds sA to a common register, returning the old value. -/
  | cadd (x : Site) (f : FmtX)
  /-- SIGNAL (R164): Sets event bits in a thread of the same core. -/
  | signal (x : Site) (f : FmtX)
  /-- WAIT_ANY (R165): Waits until any masked event bit is set, then returns and clears the masked bits. -/
  | waitAny (x : Site) (f : FmtX)
  /-- WAIT_ALL (R165): Waits until all masked event bits are set, then returns and clears them. -/
  | waitAll (x : Site) (f : FmtX)
  /-- PARK (R152): Parks the issuing thread until the hall's next context switch. -/
  | park (x : Site) (f : FmtX)
  /-- SETPRI (R162): Changes the issuing thread's priority. -/
  | setpri (x : Site) (f : FmtX)
  /-- LSEG (R193): Loads a segment register with a checked descriptor from chamber memory. -/
  | lseg (x : Site) (f : FmtX)
  /-- SSEG (R194): Stores the 16-byte image of a segment register to memory. -/
  | sseg (x : Site) (f : FmtX)
  /-- RDCYC (R200): Reads the low half of the cycle counter and latches the high half. -/
  | rdcyc (x : Site) (f : FmtX)
  /-- RDCYCH (R200): Reads the latched high half of the cycle counter. -/
  | rdcych (x : Site) (f : FmtX)
  /-- SETTMR (R180): Sets the thread's 64-bit timer compare value. -/
  | settmr (x : Site) (f : FmtX)
  /-- TRD_ZERO (R80): Reads the ZERO counter of a tally slot. -/
  | trdZero (x : Site) (f : FmtX)
  /-- TRD_SAT (R80): Reads the SAT counter of a tally slot. -/
  | trdSat (x : Site) (f : FmtX)
  /-- TRD_NAN (R80): Reads the NAN counter of a tally slot. -/
  | trdNan (x : Site) (f : FmtX)
  /-- TCLR (R81): Clears the three counters of a tally slot. -/
  | tclr (x : Site) (f : FmtX)
  /-- QDISC (R171): Discards the stopped entry of a queue, or it and all entries behind it. -/
  | qdisc (x : Site) (f : FmtX)
  /-- RSRD (R199): Reads a return-stack entry or its control word. -/
  | rsrd (x : Site) (f : FmtX)
  /-- RSWR (R199): Writes a return-stack entry or its control word. -/
  | rswr (x : Site) (f : FmtX)
  /-- RDVER (R210): Reads CORE.ISAVER into sD. -/
  | rdver (x : Site) (f : FmtX)
  /-- RDFLT (R209): Reads a word of the thread's scalar fault record. -/
  | rdflt (x : Site) (f : FmtX)
  /-- BRK (R200): Raises the breakpoint exception, vector 12. -/
  | brk (x : Site) (f : FmtX)
  /-- FENCE (R262): Orders later accesses of DST observers after earlier accesses of SRC observers in the core. -/
  | fence (x : Site) (f : FmtF)
  /-- PUBLISH (R264): Holds later accesses until earlier SRC accesses are performed and visible to every agent. -/
  | publish (x : Site) (f : FmtF)
  /-- WRCH (R282): Writes a word into the thread's staging buffer, opening a message if needed. -/
  | wrch (x : Site) (f : FmtC)
  /-- WRCHB (R282): Copies bytes from a segment into the staging buffer, opening a message if needed. -/
  | wrchb (x : Site) (f : FmtC)
  /-- CLOSE (R283): Ends the open message and holds it for release as one message or token. -/
  | close (x : Site) (f : FmtC)
  /-- MESSAGE_DEPART (R266): A held message leaves the core once all its preceding accesses are performed; chimney channels emit one copy per member. -/
  | messageDepart (c : CoreId) (ch : Fin 32)
  /-- RECV (R279): Returns the next waiting ring entry and advances RX, blocking when none waits. -/
  | recv (x : Site) (f : FmtC)
  /-- RFREE (R280): Frees received ring entries and returns their credits after preceding accesses are performed. -/
  | rfree (x : Site) (f : FmtC)
  /-- SUMPARM (R287): Arms a sump round, or re-arms a complete round and returns its slot credits. -/
  | sumparm (x : Site) (f : FmtC)
  /-- ARRIVE (R307): Counts one barrier arrival, sends it to the tree when complete, and gives the thread a ticket. -/
  | arrive (x : Site) (f : FmtC)
  /-- WAITB (R308): Blocks until the ticket's barrier round is released, then acts as an acquire. -/
  | waitb (x : Site) (f : FmtC)
  /-- VOP (R135): Performs an element-wise vector function selected by FUNC, rounding to nearest even. -/
  | vop (x : Site) (f : FmtVop)
  /-- VFMA (R136): Performs an element-wise fused multiply-add rounded once to nearest even. -/
  | vfma (x : Site) (f : FmtVfma)
  /-- VCMP (R137): Compares lanes and writes or combines the results into a mask register. -/
  | vcmp (x : Site) (f : FmtVcmp)
  /-- VPERM (R138): Moves lanes between registers under the FUNC selected permutation. -/
  | vperm (x : Site) (f : FmtVperm)
  /-- VMAC (R139): Accumulates a lane-wise product into the destination with one stochastic or nearest rounding. -/
  | vmac (x : Site) (f : FmtVmac)
  /-- VADDAC (R139): Accumulates a lane-wise sum into the destination with one stochastic or nearest rounding. -/
  | vaddac (x : Site) (f : FmtVmac)
  /-- VRED (R140): Reduces the active lanes into one value written to every lane. -/
  | vred (x : Site) (f : FmtVred)
  /-- VCVT (R141): Converts a register between element formats with nearest rounding and tally counting. -/
  | vcvt (x : Site) (f : FmtVcvt)
  /-- VTR (R142): Applies a correctly rounded transcendental function to each active lane. -/
  | vtr (x : Site) (f : FmtVtr)
  /-- VLD (R143): Checks and loads one vector register through a segment. -/
  | vld (x : Site) (f : FmtVls)
  /-- VST (R143): Checks and stores one vector register through a segment, counting stored lanes. -/
  | vst (x : Site) (f : FmtVls)
  /-- VMVF (R144): Copies a tile row into a vector register. -/
  | vmvf (x : Site) (f : FmtVmv)
  /-- VMVT (R144): Copies the first bytes of a vector register into a tile row. -/
  | vmvt (x : Site) (f : FmtVmv)
  /-- VMASK (R146): Performs a mask-register operation selected by MFUNC. -/
  | vmask (x : Site) (f : FmtVmask)
  /-- TCFG (R86): Writes a tile's TSHAPE after earlier uses of the tile retire, checking the shape rules. -/
  | tcfg (x : Site) (form : TcfgForm) (f : FmtTcfg)
  /-- TSHR (R88): Returns a tile's TSHAPE into a scalar register once earlier matrix-queue entries retire. -/
  | tshr (x : Site) (f : FmtTcfg)
  /-- TLD (R96): Loads tile rows from memory through a segment, converting and scaling as needed. -/
  | tld (x : Site) (f : FmtTls)
  /-- TST (R96): Stores tile rows to memory through a segment, converting and counting elements. -/
  | tst (x : Site) (f : FmtTls)
  /-- TLDX (R102): Gathers tile rows from offsets held in a vector register under an optional mask. -/
  | tldx (x : Site) (f : FmtTldx)
  /-- TZERO (R103): Writes zero bits into every row of the selected tiles. -/
  | tzero (x : Site) (f : FmtTzero)
  /-- MMA (R119): Issues a matrix multiply-accumulate of A and B into C after its shape checks pass. -/
  | mma (x : Site) (f : FmtMma)
  /-- MMA_COMMIT (R123): Writes all elements of C, adds the tallies and advances the drip counter in one core cycle. -/
  | mmaCommit (c : CoreId)
  /-- MATRIX_REST (R127): A matrix unit becomes resting 2,048 core cycles after its last commit or abandonment. -/
  | matrixRest (c : CoreId)
  /-- ADMISSION_WINDOW_OPEN (R128): A module-wide admission window opens when a resting unit has an MMA ready and none is open. -/
  | admissionWindowOpen
  /-- ADMISSION_GROUP_SLOT (R128): At its slot in the window, a group's resting units with MMAs ready begin issue. -/
  | admissionGroupSlot (g : Fin 12)
  /-- TOKEN (R170): Places a completion token in an engine queue. -/
  | token (x : Site) (f : FmtToken)
  /-- TOKEN_COMPLETE (R265): A token completes once earlier queue entries have left, setting the issuer's event bit. -/
  | tokenComplete (c : CoreId) (q : Fin 3)
  /-- DMAQ (R172): Queues a core DMA descriptor with captured segments. -/
  | dmaq (x : Site) (f : FmtDmaq)
  /-- CORE_DMA_START (R172): The core DMA engine reads a descriptor and begins its rows. -/
  | coreDmaStart (c : CoreId)
  /-- CORE_DMA_COMPLETE (R173): A core DMA descriptor completes when all its writes are performed and sets its event bit. -/
  | coreDmaComplete (c : CoreId)
  /-- EXCEPTION_ENTRY (R226): Takes the chosen exception at an instruction boundary, pushing a frame and entering the handler. -/
  | exceptionEntry (x : Site)
  /-- DOUBLE_FAULT_ENTRY (R234): A failed entry is retried through ring 0 entry 15 onto the emergency stack, or the core resets. -/
  | doubleFaultEntry (x : Site)
  /-- CORE_RESET (R481): Resets one core, parking its threads and clearing queues, shapes and counters. -/
  | coreReset (c : CoreId)
  /-- BAD_AIR (R177): The detector count reaches 1,024 and raises vector 11. -/
  | badAir (c : CoreId)
  /-- CYCLE_TIMER_MATCH (R180): The cycle counter reaches a thread's compare value, making the timer interrupt pending. -/
  | cycleTimerMatch (x : Site)
  /-- BANK_ACCESS (R246): A chamber or gallery bank serves one chosen request, merging reads and handling check bits. -/
  | bankAccess (b : Bank) (arrivals : List BankReq) (det : CheckBits)
  /-- REQUEST_PROMOTE (R246): A request that has waited 192 bank cycles is promoted. -/
  | requestPromote (b : Bank) (i : Nat)
  /-- NEAR_MEMORY_ACCESS (R356): A near-memory request reaches the controller's ordering point and is performed or held. -/
  | nearMemoryAccess (r : BurstReq) (det : BurstCheck)
  /-- PATROL_READ (R353): The controller reads a burst in idle cycles, correcting or poisoning it. -/
  | patrolRead (h : HallId) (burst : Nat) (det : BurstCheck)
  /-- INTERFACE_RETRAIN (R355): A GDDR7 interface retrains on its own or after the CRC retry limit. -/
  | interfaceRetrain (h : HallId) (i : Fin 4) (crc : Bool) (ok : Bool)
  /-- CXL_ACCESS (R363): A tier burst is decoded and performed at a device, completing with data or poison. -/
  | cxlAccess (r : BurstReq) (reply : CxlReply)
  /-- CXL_REQUEST_TIMEOUT (R364): A CXL request without response for 2 ms fails its link. -/
  | cxlRequestTimeout (p : Fin 2) (l : Fin 4)
  /-- CXL_LINK_DOWN (R364): A CXL link leaving the up state becomes failed. -/
  | cxlLinkDown (p : Fin 2) (l : Fin 4)
  /-- CXL_LINK_TRAINED (R360): A CXL link finishes training and comes up. -/
  | cxlLinkTrained (p : Fin 2) (l : Fin 4) (width : Nat) (rate : Fin 3) (cap : BitVec 16)
  /-- CHANNEL_MESSAGE (R277): An arriving message is written into its receive ring entry or dropped. -/
  | channelMessage (c : CoreId) (m : Message)
  /-- SUMP_CONTRIBUTION (R287): An arriving contribution is written into its rank's slot or dropped. -/
  | sumpContribution (c : CoreId) (m : Message)
  /-- CREDIT_RETURN (R281): A returned credit raises a send channel's available credits. -/
  | creditReturn (c : CoreId) (ch : Fin 32) (member : Nat)
  /-- SUMP_DRAIN (R289): The sump adder drains the next present slot in rank order into the result buffer. -/
  | sumpDrain (c : CoreId) (u : Fin 32)
  /-- BARRIER_ARRIVE (R302): A router or root counts an arriving barrier arrival and forwards it when complete. -/
  | barrierArrive (h : HallId) (b : Fin 80) (src : ArriveAt)
  /-- BARRIER_RELEASE (R309): A release reaching a core advances its round and raises the barrier's signals. -/
  | barrierRelease (c : CoreId) (b : Fin 80)
  /-- COMMIT_GO (R47): Snapshots the staged area and starts the commit check. -/
  | commitGo (a : Agent) (page : PageNo)
  /-- COMMIT_REVERT (R49): Copies the applied configuration back into the staged area. -/
  | commitRevert (a : Agent) (page : PageNo)
  /-- COMMIT_CHECK_END (R48): The commit check ends, passing to wait for the safe point or rejecting with a reason. -/
  | commitCheckEnd (page : PageNo)
  /-- COMMIT_APPLY (R48): At the block's safe point the whole snapshot takes effect in one control cycle. -/
  | commitApply (page : PageNo)
  /-- COMMIT_TIMEOUT (R49): No safe point within 16,777,216 control cycles rejects the commit with reason 0x09. -/
  | commitTimeout (page : PageNo)
  /-- ERR_CLEAR (R39): A W1C write clears ERR bits and resets ERR_FIRST when ERR becomes zero. -/
  | errClear (a : Agent) (page : PageNo) (v : Word)
  /-- ERR_INJ (R39): Records the written error kinds as if they had occurred. -/
  | errInj (a : Agent) (page : PageNo) (v : Word)
  /-- REGISTER_WRITE (R7): A write to a register without its own row acts under its access code, or records an access error. -/
  | registerWrite (a : Agent) (page : PageNo) (off : BitVec 12) (v : Word)
  /-- COUNTER_LOW_HALF_READ (R42): Reading a 64-bit counter's low half latches its high half and clears an RC counter. -/
  | counterLowHalfRead (a : Agent) (page : PageNo) (off : BitVec 12)
  /-- EXTERR_READ (R228): Reads and clears the hall's external error mirror. -/
  | exterrRead (a : Agent) (h : HallId)
  /-- KNOTICE_READ (R458): Reads and clears the keeper notice bits. -/
  | knoticeRead (a : Agent) (h : HallId)
  /-- HALL_START (R154): A START write is refused or makes the hall's context switch and begins column starts. -/
  | hallStart (a : Agent) (h : HallId)
  /-- HALL_COLUMN_START (R483): A column of the hall starts its threads from the boot descriptor at its spaced time. -/
  | hallColumnStart (h : HallId)
  /-- HALL_STOP (R155): A STOP makes every thread stop at its next boundary and discards unstarted queue entries. -/
  | hallStop (a : Agent) (h : HallId)
  /-- HALL_STOPPED (R155): The hall reaches STATE 0 once no core entry or engine descriptor is under way. -/
  | hallStopped (h : HallId)
  /-- DRIP_WRITE (R74): Writes a drip counter while the hall is stopped. -/
  | dripWrite (a : Agent) (u : DripUnit) (v : Word)
  /-- SUMP_ROUND_WRITE (R293): Writes a sump round number while the hall is stopped. -/
  | sumpRoundWrite (a : Agent) (c : CoreId) (u : Fin 32) (v : Word)
  /-- SALT_WRITE (R242): Writes the hall's bank-hash salt while the hall is stopped. -/
  | saltWrite (a : Agent) (h : HallId) (v : Word)
  /-- TALLY_CLR (R81): Clears the counters of the selected tally slots. -/
  | tallyClr (a : Agent) (u : TallyUnit) (v : Word)
  /-- QCTL_DISCARD (R171): Performs the queue discard action on the selected queues. -/
  | qctlDiscard (a : Agent) (c : CoreId) (v : Word)
  /-- TABLE_REGISTER_WRITE (R215): A write to VBASE, GTBL, EMSTACK or INTEN is accepted by ring and sets its owner. -/
  | tableRegisterWrite (a : Agent) (c : CoreId) (r : TableReg) (v : Word)
  /-- LANTERN_HALT (R298): Halts a thread at its next instruction boundary. -/
  | lanternHalt (a : Agent) (x : Site)
  /-- LANTERN_DELIVER (R298): Makes a thread take vector 13 at its next boundary instead of halting. -/
  | lanternDeliver (a : Agent) (x : Site)
  /-- LANTERN_RESUME (R298): Returns a halted thread to ready or blocked. -/
  | lanternResume (a : Agent) (x : Site)
  /-- CHANNEL_ABORT (R299): Discards a halted thread's open message, zeroes its staging buffer and returns its credit. -/
  | channelAbort (a : Agent) (c : CoreId) (v : Word)
  /-- QUEUE_PROD_WRITE (R320): Advances an engine queue's producer index, submitting descriptors. -/
  | queueProdWrite (a : Agent) (h : HallId) (n : Fin 9) (q : Fin 4) (v : Word)
  /-- QUEUE_RESUME (R327): Resumes a stopped engine queue at the stopped descriptor's unit. -/
  | queueResume (a : Agent) (h : HallId) (n : Fin 9) (q : Fin 4)
  /-- QUEUE_DISCARD (R327): Discards the stopped descriptor, and with ALL every descriptor behind it. -/
  | queueDiscard (a : Agent) (h : HallId) (n : Fin 9) (q : Fin 4) (all : Bool)
  /-- DESCRIPTOR_START (R321): An engine queue reads and starts its next submitted descriptor. -/
  | descriptorStart (h : HallId) (n : Fin 9) (q : Fin 4)
  /-- DESCRIPTOR_COMPLETE (R324): A descriptor completes, writing its record, counting tallies and raising signals. -/
  | descriptorComplete (h : HallId) (n : Fin 9) (q : Fin 4)
  /-- NOP (R323): An engine NOP descriptor completes at once. -/
  | nop (h : HallId) (n : Fin 9) (q : Fin 4)
  /-- POOL (R335): The siphon gathers rows and pools each bag into an output row. -/
  | pool (h : HallId) (q : Fin 4)
  /-- SCATTER (R336): The siphon adds weighted source rows into table rows step by step. -/
  | scatter (h : HallId) (q : Fin 4)
  /-- SORT (R338): Sorts key-value pairs into the total order. -/
  | sort (h : HallId) (q : Fin 4)
  /-- TOPK (R338): Writes the first k pairs of the total order. -/
  | topk (h : HallId) (q : Fin 4)
  /-- SAMPLE (R340): Draws one token index from each logit row. -/
  | sample (h : HallId) (q : Fin 4)
  /-- EXPAND (R343): Decompresses a squeeze stream block by block. -/
  | expand (h : HallId) (q : Fin 4)
  /-- SM4_ENCRYPT (R345): Encrypts data with SM4 in the selected mode. -/
  | sm4Encrypt (h : HallId) (q : Fin 4)
  /-- SM4_DECRYPT (R345): Decrypts data with SM4, checking the GCM tag. -/
  | sm4Decrypt (h : HallId) (q : Fin 4)
  /-- SM3 (R345): Computes the SM3 digest of data. -/
  | sm3 (h : HallId) (q : Fin 4)
  /-- COPY (R347): A hall DMA engine copies rows between spaces. -/
  | copy (h : HallId) (d : Fin 4) (q : Fin 4) (host : List Byte)
  /-- FILL (R347): A hall DMA engine fills rows with a pattern. -/
  | fill (h : HallId) (d : Fin 4) (q : Fin 4)
  /-- SCRUB (R347): A hall DMA engine zeroes lines and verifies them by read-back. -/
  | scrub (h : HallId) (d : Fin 4) (q : Fin 4) (bad : Option Nat)
  /-- PROG_KICK (R440): A progress mark resets the hall progress counter. -/
  | progKick (a : Agent) (h : HallId) (v : Word)
  /-- PROGRESS_FIRE (R441): The progress counter reaches its limit and reports, then stops and restores with ACTION 1. -/
  | progressFire (h : HallId)
  /-- CGO (R446): Starts a cairn: protects the ranges, captures the header and begins copying. -/
  | cgo (a : Agent) (h : HallId) (v : Word)
  /-- CAIRN_PAGE_COPIED (R356): A protected page's copy finishes, clearing its protection and releasing its held writes. -/
  | cairnPageCopied (h : HallId)
  /-- CAIRN_COMPLETE (R446): Writes the header complete, sets LAST and raises the cairn signals. -/
  | cairnComplete (h : HallId)
  /-- CAIRN_FAIL (R448): A failed cairn clears all protections and reports the failure. -/
  | cairnFail (h : HallId) (why : CairnWhy)
  /-- CKCTL_LOAD (R444): Installs the cairn key pair from CKEY0-7. -/
  | ckctlLoad (a : Agent) (h : HallId)
  /-- CKCTL_CLEAR (R444): Removes the installed cairn key. -/
  | ckctlClear (a : Agent) (h : HallId)
  /-- RESTORE (R450): A RESTORE write starts a restore of the hall or its whole partition. -/
  | restore (a : Agent) (h : HallId) (v : Word)
  /-- RESTORE_COMPLETE (R451): The restore finishes writing back the image and counters, or fails with a reason. -/
  | restoreComplete (h : HallId) (remote : Option (List Byte))
  /-- CORE_HARD_FAULT (R453): The keeper stops the partition, seals the core, settles the spare and restores. -/
  | coreHardFault (h : HallId) (p : Position) (cause : HardFault)
  /-- SUSPECT (R456): Starts a self-test of every position of the hall. -/
  | suspect (a : Agent) (h : HallId) (v : Word)
  /-- SELF_TEST_END (R456): The self-test ends, failing positions are sealed and the partition is restored. -/
  | selfTestEnd (h : HallId) (failed : List Position)
  /-- READMIT (R457): Resets and self-tests a sealed position and readmits it if it passes. -/
  | readmit (a : Agent) (h : HallId) (v : Word)
  /-- BRIDGE_FAILURE (R20): A bridge that cannot carry traffic asserts MOD_FAULT_N as a module loss. -/
  | bridgeFailure (b : Fin 126)
  /-- SQ_TAIL_WRITE (R396): The host advances the submission tail, possibly sending a doorbell message. -/
  | sqTailWrite (a : Agent) (h : HallId) (v : Word)
  /-- SQ_HEAD_WRITE (R396): The runtime advances the submission head, clearing DBOUT and retesting. -/
  | sqHeadWrite (a : Agent) (h : HallId) (v : Word)
  /-- CQ_HEAD_WRITE (R393): The host advances the completion head. -/
  | cqHeadWrite (a : Agent) (h : HallId) (v : Word)
  /-- CQ_POST (R399): Writes a completion record with the energy stamp and raises MSI-X entry 0. -/
  | cqPost (a : Agent) (h : HallId) (v : Word)
  /-- RAISE (R393): Raises VF MSI-X entry 2 or 3. -/
  | raise (a : Agent) (h : HallId) (v : Word)
  /-- BAR2_ACCESS (R390): A host access through BAR2 reaches device memory or is refused when closed. -/
  | bar2Access (r : HostReq)
  /-- HOST_BAR0_ACCESS (R389): A host TLP to a BAR0 window is mapped to a control page or refused. -/
  | hostBar0Access (w : BarWin) (r : HostReq)
  /-- HOST_READ_FAIL (R400): A failed or timed-out host memory read stops its hall DMA descriptor with status 5. -/
  | hostReadFail (h : HallId) (d : Fin 4) (q : Fin 4)
  /-- VF_FLR (R401): A function-level reset of a VF resets its hall and ends any tenancy. -/
  | vfFlr (h : HallId)
  /-- PF0_FLR (R402): A PF0 reset performs every VF FLR and resets PF0's configuration. -/
  | pf0Flr
  /-- PCIE_RESET (R402): PERST_N, hot reset or link down resets the port and retrains the link. -/
  | pcieReset (k : PcieReset)
  /-- PCIE_LINK_UP (R402): The PCIe link comes up and the functions become ready within 100 ms. -/
  | pcieLinkUp (u : LinkUp)
  /-- LOCK_INTERFACE_REQUEST (R420): Accepts a TDISP lock of a hall and starts its opening scrub. -/
  | lockInterfaceRequest (h : HallId) (session : Option Nat) (stream : Fin 8)
  /-- START_INTERFACE_REQUEST (R419): Moves a locked hall to running. -/
  | startInterfaceRequest (h : HallId)
  /-- STOP_INTERFACE_REQUEST (R419): Ends a hall's tenancy and starts its closing scrub. -/
  | stopInterfaceRequest (h : HallId)
  /-- END_OF_TENANCY (R419): A TDI error or bound stream failure ends the tenancy and starts the closing scrub. -/
  | endOfTenancy (e : TdiEnd)
  /-- SCRUB_REQ (R426): Requests a scrub of stopped open halls. -/
  | scrubReq (a : Agent) (v : Word)
  /-- HALL_SCRUB_END (R428): A hall scrub completes or fails, writing its record and setting the mode. -/
  | hallScrubEnd (h : HallId) (bad : Bool)
  /-- SCRUB_TIMEOUT (R428): A scrub not completed within 1 s fails and takes the hall out of service. -/
  | scrubTimeout (h : HallId)
  /-- SPDM_GET_CERTIFICATE (R417): Returns the certificate chain of slot 0. -/
  | spdmGetCertificate (slot : Fin 8)
  /-- SPDM_CHALLENGE (R417): Answers a challenge signed with the identity key. -/
  | spdmChallenge (slot : Fin 8) (nonce : List Byte)
  /-- SPDM_GET_MEASUREMENTS (R418): Returns signed measurements as they stand when built. -/
  | spdmGetMeasurements (idx : List (BitVec 8)) (nonce : List Byte)
  /-- SPDM_KEY_EXCHANGE (R416): Establishes a secured SPDM session. -/
  | spdmKeyExchange (share : List Byte)
  /-- ROLLFWD (R410): Advances the ROLLBACK fuse count. -/
  | rollfwd (a : Agent) (v : Word)
  /-- UPD_BEGIN (R432): Erases the inactive slot and starts accepting image data. -/
  | updBegin (a : Agent)
  /-- UPD_DATA (R432): Appends four bytes to the received image. -/
  | updData (a : Agent) (v : Word)
  /-- UPD_VERIFY (R432): Checks the received image under the boot acceptance rules. -/
  | updVerify (a : Agent)
  /-- UPD_ACTIVATE (R433): Hands over to the verified keeper image. -/
  | updActivate (a : Agent)
  /-- UPD_ABORT (R432): Returns the update to idle leaving the slot invalid. -/
  | updAbort (a : Agent)
  /-- HANDOVER_TIMEOUT (R433): The incoming keeper not ready within 200 ms rejects the update and resumes the old keeper. -/
  | handoverTimeout
  /-- YARLINK_PORT_UP (R369): A port finishes training and keying and starts carrying packets. -/
  | yarlinkPortUp (p : PortId) (peer : Option (BitVec 18)) (proven : Bool) (lanes : BitVec 8)
  /-- PORT_FAIL (R375): A port fails on timeout, silence, tag failures or width below MINW. -/
  | portFail (p : PortId)
  /-- FLIT_RECEIVE (R372): A received flit is checked and delivered or discarded with a NAK. -/
  | flitReceive (p : PortId) (f : RxFlit)
  /-- FLIT_REPLAY (R372): The sender replays flits after a NAK or a 20 µs acknowledgement timeout. -/
  | flitReplay (p : PortId)
  /-- LANE_FAIL (R373): A failed lane makes the port retrain at a narrower width. -/
  | laneFail (p : PortId) (l : Fin 8)
  /-- YARLINK_RETRAIN (R374): Retrains the port at the widest width its lanes allow. -/
  | yarlinkRetrain (p : PortId) (lanes : BitVec 8)
  /-- KEY_ROLLOVER (R371): A new key pair takes effect at an agreed flit count. -/
  | keyRollover (k : KeyRoll)
  /-- PACKET_ROUTE (R379): Routes a packet locally, to a port or drops it. -/
  | packetRoute (inp : Option PortId)
  /-- REMOTE_WRITE (R381): A remote write packet is performed at its target and acknowledged. -/
  | remoteWrite (inp : Option PortId) (p : Packet)
  /-- REMOTE_READ_REQUEST (R381): A remote read request is performed and answered with data. -/
  | remoteReadRequest (inp : Option PortId) (p : Packet)
  /-- SNAPSHOT_COPY (R449): A snapshot-copy packet writes a cairn slot on the peer. -/
  | snapshotCopy (inp : Option PortId) (p : Packet)
  /-- READ_REPLY (R381): A read reply arrives at its requester. -/
  | readReply (who : Requester) (p : Packet)
  /-- WRITE_ACKNOWLEDGEMENT (R381): A write acknowledgement performs the remote write at its issuer. -/
  | writeAcknowledgement (who : Requester) (p : Packet)
  /-- REMOTE_REQUEST_TIMEOUT (R381): A remote request unanswered after 4 ms ends its descriptor with status 6. -/
  | remoteRequestTimeout (who : Requester) (tag : BitVec 12)
  /-- INTERVAL_END (R467): At each 2,048-cycle interval end the controller measures power and temperature and lowers ceilings. -/
  | intervalEnd (m : Telemetry)
  /-- CEILING_RISE (R466): A ceiling rises one state after its pacing wait. -/
  | ceilingRise (r : Fin 5)
  /-- POWER_STATE_CHANGE (R465): The CK_CORE divider changes to the state in force. -/
  | powerStateChange
  /-- CURRENT_ALERT (R470): The regulators' alert forces the floor state. -/
  | currentAlert
  /-- CURRENT_ALERT_CLEAR (R470): The alert clears and its ceiling begins to rise. -/
  | currentAlertClear
  /-- THERMAL_TRIP (R471): A die at 120 °C removes every rail and asserts MOD_FAULT_N. -/
  | thermalTrip
  /-- SYS_THROT_ASSERT (R472): SYS_THROT_N held low sets the system-throttle ceiling. -/
  | sysThrotAssert
  /-- SYS_THROT_DEASSERT (R472): SYS_THROT_N held high lets that ceiling rise. -/
  | sysThrotDeassert
  /-- DROOP_STRETCH (R473): A core-rail droop stretches CK_CORE on one die. -/
  | droopStretch (h : HallId) (n : Nat)
  /-- MODRST (R479): A keyed write resets the whole module. -/
  | modrst (a : Agent) (v : Word)
  /-- REFERENCE_LOSS (R484): Loss of reference or PLL lock for 1 µs holds the package in module reset. -/
  | referenceLoss
  /-- REFERENCE_RESTORED (R484): After 1 ms of reference and lock, start-up resumes at step 3. -/
  | referenceRestored
  /-- POWER_ON (R482): VIN rising through 38 V runs the power-on sequence. -/
  | powerOn (failed : List (HallId × Fin 4))
  /-- POWER_OFF (R487): VIN below 36 V or above 48 V turns every rail off. -/
  | powerOff
  /-- BYPASS (R501): Selects the boundary-scan bypass register. -/
  | bypass
  /-- IDCODE (R501): Shifts out the package IDCODE. -/
  | idcode
  /-- SAMPLE_PRELOAD (R501): Samples or preloads the boundary register. -/
  | samplePreload (pins : List Bool) (load : List Bool)
  /-- EXTEST (R501): Drives pins from the boundary register, holding the package in module reset. -/
  | extest
  /-- CLAMP (R501): Clamps outputs, holding the package in module reset. -/
  | clamp
  /-- HIGHZ (R501): Floats outputs, holding the package in module reset. -/
  | highz
  /-- TEST_LOGIC_RESET (R501): Leaving a holding instruction resumes start-up at step 3. -/
  | testLogicReset
  /-- PLDM_GET_SENSOR_READING (R499): Returns a sensor value over MCTP on I3C. -/
  | pldmGetSensorReading (id : BitVec 16)
  /-- PLDM_REQUEST_UPDATE (R500): Starts a PLDM firmware update unless one is running. -/
  | pldmRequestUpdate
  /-- PLDM_ACTIVATE_FIRMWARE (R500): Performs the keeper handover without a module reset. -/
  | pldmActivateFirmware
  /-- UPD_ERASE_COMPLETE (R432): The erase of the inactive slot finishes and UPD_STAT moves from erasing to receiving. -/
  | updEraseComplete
  /-- UPD_VERIFY_COMPLETE (R432): The check of the received image ends and UPD_STAT becomes verified or rejected with a reason. -/
  | updVerifyComplete
  /-- HANDOVER_COMPLETE (R433): The incoming keeper reports ready: indices 2, 3 and 40 are updated, the preference record names the new slot, STATE returns to 0 and deferred PF0 MSI-X messages are sent. -/
  | handoverComplete
  /-- READMIT_COMPLETE (R457): The reset and self-test of a readmitted position end, and it is readmitted or stays sealed with RDSTAT set accordingly. -/
  | readmitComplete (h : HallId) (pass : Bool)
  /-- PCIE_LINK_NOT_BROUGHT_UP (R386): A PCIe link that trains narrower than x8 or cannot reach 32 GT/s in flit mode is not brought up, ERR bit 8 (LINK) is set and training is retried. -/
  | pcieLinkNotBroughtUp
  /-- PERST_N_DEASSERT (R402): PERST_N deasserting lets the PCIe port start training its link. -/
  | perstNDeassert
  /-- CONFIGURATION_REQUEST (R402): A host configuration request to PF0 or a VF is served, including VF Enable, or answered with Request Retry Status before readiness, during a PF0 FLR or during a closing scrub. -/
  | configurationRequest (fn : Option HallId) (r : CfgReq)
  /-- SPDM_NEGOTIATE_ALGORITHMS (R416): The SPDM responder negotiates its fixed algorithm set, or answers an unsupported request with an SPDM error. -/
  | spdmNegotiateAlgorithms (g : SpdmAlgs)
  /-- IDE_KM (R420): IDE_KM messages in a secured session key a selective IDE stream and make it ready to be bound by a lock, or
stop it. -/
  | ideKm (session : Nat) (m : IdeKm)
deriving DecidableEq, Repr

end Sys2Proof
end

