-- ==== Sys2Proof/Decode.lean ====
section
/-!
DEFINITION. Encodings. The table of operations and events gives no row any bits, so `decodeTableWord` answers none. The
instructions among the commands have the encodings of R88, R95, R101, R103, R115, R134, R170, R172, R185, R186, R200 and
R203: `wordOf` and `ofWord` are that encoding, which the machine needs for the fault record's WORD (R209), for the word that
follows a repeat prefix (R204 to R206) and for the emulation trap of a fetched word (R207).
-/
namespace Sys2Proof

/-- The command that a word of the table's bits spells: the table gives no bits. -/
def decodeTableWord (_nbits _w : Nat) : Option Instr := none

/-- A word from its major opcode and the rest. -/
def opWord (opc : BitVec 7) (rest : BitVec 25) : BitVec 32 := opc ++ rest

/-- R185, format R: the fields laid side by side. -/
def fmtRBits (f : FmtR) : BitVec 25 :=
  f.rd ++ f.ra ++ f.rb ++ f.func

/-- R185, format R: the fields read back. -/
def fmtROfBits (b : BitVec 25) : FmtR :=
  { rd := b.extractLsb' 20 5,
    ra := b.extractLsb' 15 5,
    rb := b.extractLsb' 10 5,
    func := b.extractLsb' 0 10 }

/-- R185, format I: the fields laid side by side. -/
def fmtIBits (f : FmtI) : BitVec 25 :=
  f.rd ++ f.ra ++ f.imm

/-- R185, format I: the fields read back. -/
def fmtIOfBits (b : BitVec 25) : FmtI :=
  { rd := b.extractLsb' 20 5,
    ra := b.extractLsb' 15 5,
    imm := b.extractLsb' 0 15 }

/-- R185, format S: the fields laid side by side. -/
def fmtSBits (f : FmtS) : BitVec 25 :=
  f.rd ++ f.ra ++ f.kind ++ f.zero ++ f.sh

/-- R185, format S: the fields read back. -/
def fmtSOfBits (b : BitVec 25) : FmtS :=
  { rd := b.extractLsb' 20 5,
    ra := b.extractLsb' 15 5,
    kind := b.extractLsb' 13 2,
    zero := b.extractLsb' 5 8,
    sh := b.extractLsb' 0 5 }

/-- R185, format U: the fields laid side by side. -/
def fmtUBits (f : FmtU) : BitVec 25 :=
  f.rd ++ f.imm

/-- R185, format U: the fields read back. -/
def fmtUOfBits (b : BitVec 25) : FmtU :=
  { rd := b.extractLsb' 20 5,
    imm := b.extractLsb' 0 20 }

/-- R185, format M: the fields laid side by side. -/
def fmtMBits (f : FmtM) : BitVec 25 :=
  f.rt ++ f.ra ++ f.seg ++ f.size ++ f.pi ++ f.u ++ f.disp

/-- R185, format M: the fields read back. -/
def fmtMOfBits (b : BitVec 25) : FmtM :=
  { rt := b.extractLsb' 20 5,
    ra := b.extractLsb' 15 5,
    seg := b.extractLsb' 12 3,
    size := b.extractLsb' 10 2,
    pi := b.extractLsb' 9 1,
    u := b.extractLsb' 8 1,
    disp := b.extractLsb' 0 8 }

/-- R185, format B: the fields laid side by side. -/
def fmtBBits (f : FmtB) : BitVec 25 :=
  f.ra ++ f.rb ++ f.cond ++ f.off

/-- R185, format B: the fields read back. -/
def fmtBOfBits (b : BitVec 25) : FmtB :=
  { ra := b.extractLsb' 20 5,
    rb := b.extractLsb' 15 5,
    cond := b.extractLsb' 12 3,
    off := b.extractLsb' 0 12 }

/-- R185, format J: the fields laid side by side. -/
def fmtJBits (f : FmtJ) : BitVec 25 :=
  f.zero ++ f.target

/-- R185, format J: the fields read back. -/
def fmtJOfBits (b : BitVec 25) : FmtJ :=
  { zero := b.extractLsb' 16 9,
    target := b.extractLsb' 0 16 }

/-- R185, format K without FUNC, which the row fixes: the fields laid side by side. -/
def fmtKBits (f : FmtK) : BitVec 22 :=
  f.zeroHi ++ f.ra ++ f.zeroLo

/-- R185, format K without FUNC, which the row fixes: the fields read back. -/
def fmtKOfBits (b : BitVec 22) : FmtK :=
  { zeroHi := b.extractLsb' 17 5,
    ra := b.extractLsb' 12 5,
    zeroLo := b.extractLsb' 0 12 }

/-- R185, format G: the fields laid side by side. -/
def fmtGBits (f : FmtG) : BitVec 25 :=
  f.zero ++ f.gate

/-- R185, format G: the fields read back. -/
def fmtGOfBits (b : BitVec 25) : FmtG :=
  { zero := b.extractLsb' 12 13,
    gate := b.extractLsb' 0 12 }

/-- R185, format P: the fields laid side by side. -/
def fmtPBits (f : FmtP) : BitVec 25 :=
  f.zeroHi ++ f.ra ++ f.zeroLo

/-- R185, format P: the fields read back. -/
def fmtPOfBits (b : BitVec 25) : FmtP :=
  { zeroHi := b.extractLsb' 20 5,
    ra := b.extractLsb' 15 5,
    zeroLo := b.extractLsb' 0 15 }

/-- R185, format L: the fields laid side by side. -/
def fmtLBits (f : FmtL) : BitVec 25 :=
  f.zero ++ f.count

/-- R185, format L: the fields read back. -/
def fmtLOfBits (b : BitVec 25) : FmtL :=
  { zero := b.extractLsb' 7 18,
    count := b.extractLsb' 0 7 }

/-- R185, format X without FUNC, which the row fixes: the fields laid side by side. -/
def fmtXBits (f : FmtX) : BitVec 15 :=
  f.rd ++ f.ra ++ f.n

/-- R185, format X without FUNC, which the row fixes: the fields read back. -/
def fmtXOfBits (b : BitVec 15) : FmtX :=
  { rd := b.extractLsb' 10 5,
    ra := b.extractLsb' 5 5,
    n := b.extractLsb' 0 5 }

/-- R185, format F without P, which the row fixes: the fields laid side by side. -/
def fmtFBits (f : FmtF) : BitVec 24 :=
  f.src ++ f.dst ++ f.zero

/-- R185, format F without P, which the row fixes: the fields read back. -/
def fmtFOfBits (b : BitVec 24) : FmtF :=
  { src := b.extractLsb' 20 4,
    dst := b.extractLsb' 16 4,
    zero := b.extractLsb' 0 16 }

/-- R185, format C without FUNC, which the row fixes: the fields laid side by side. -/
def fmtCBits (f : FmtC) : BitVec 22 :=
  f.rd ++ f.ra ++ f.rb ++ f.id

/-- R185, format C without FUNC, which the row fixes: the fields read back. -/
def fmtCOfBits (b : BitVec 22) : FmtC :=
  { rd := b.extractLsb' 17 5,
    ra := b.extractLsb' 12 5,
    rb := b.extractLsb' 7 5,
    id := b.extractLsb' 0 7 }

/-- R134, opcode 0x50: the fields laid side by side. -/
def fmtVopBits (f : FmtVop) : BitVec 25 :=
  f.vd ++ f.va ++ f.vb ++ f.fmt ++ f.mask ++ f.func

/-- R134, opcode 0x50: the fields read back. -/
def fmtVopOfBits (b : BitVec 25) : FmtVop :=
  { vd := b.extractLsb' 21 4,
    va := b.extractLsb' 17 4,
    vb := b.extractLsb' 13 4,
    fmt := b.extractLsb' 9 4,
    mask := b.extractLsb' 5 4,
    func := b.extractLsb' 0 5 }

/-- R134, opcode 0x51: the fields laid side by side. -/
def fmtVfmaBits (f : FmtVfma) : BitVec 25 :=
  f.vd ++ f.va ++ f.vb ++ f.vc ++ f.fmt ++ f.mask ++ f.zero

/-- R134, opcode 0x51: the fields read back. -/
def fmtVfmaOfBits (b : BitVec 25) : FmtVfma :=
  { vd := b.extractLsb' 21 4,
    va := b.extractLsb' 17 4,
    vb := b.extractLsb' 13 4,
    vc := b.extractLsb' 9 4,
    fmt := b.extractLsb' 5 4,
    mask := b.extractLsb' 1 4,
    zero := b.extractLsb' 0 1 }

/-- R134, opcode 0x52: the fields laid side by side. -/
def fmtVcmpBits (f : FmtVcmp) : BitVec 25 :=
  f.md ++ f.zero ++ f.va ++ f.vb ++ f.fmt ++ f.mask ++ f.cond ++ f.mop

/-- R134, opcode 0x52: the fields read back. -/
def fmtVcmpOfBits (b : BitVec 25) : FmtVcmp :=
  { md := b.extractLsb' 22 3,
    zero := b.extractLsb' 21 1,
    va := b.extractLsb' 17 4,
    vb := b.extractLsb' 13 4,
    fmt := b.extractLsb' 9 4,
    mask := b.extractLsb' 5 4,
    cond := b.extractLsb' 2 3,
    mop := b.extractLsb' 0 2 }

/-- R134, opcode 0x53: the fields laid side by side. -/
def fmtVpermBits (f : FmtVperm) : BitVec 25 :=
  f.vd ++ f.va ++ f.vb ++ f.w ++ f.mask ++ f.func ++ f.zero

/-- R134, opcode 0x53: the fields read back. -/
def fmtVpermOfBits (b : BitVec 25) : FmtVperm :=
  { vd := b.extractLsb' 21 4,
    va := b.extractLsb' 17 4,
    vb := b.extractLsb' 13 4,
    w := b.extractLsb' 12 1,
    mask := b.extractLsb' 8 4,
    func := b.extractLsb' 4 4,
    zero := b.extractLsb' 0 4 }

/-- R134, opcodes 0x54 and 0x55: the fields laid side by side. -/
def fmtVmacBits (f : FmtVmac) : BitVec 25 :=
  f.vd ++ f.va ++ f.vb ++ f.rm ++ f.tally ++ f.mask ++ f.df ++ f.sf

/-- R134, opcodes 0x54 and 0x55: the fields read back. -/
def fmtVmacOfBits (b : BitVec 25) : FmtVmac :=
  { vd := b.extractLsb' 21 4,
    va := b.extractLsb' 17 4,
    vb := b.extractLsb' 13 4,
    rm := b.extractLsb' 12 1,
    tally := b.extractLsb' 8 4,
    mask := b.extractLsb' 4 4,
    df := b.extractLsb' 2 2,
    sf := b.extractLsb' 0 2 }

/-- R134, opcode 0x56: the fields laid side by side. -/
def fmtVredBits (f : FmtVred) : BitVec 25 :=
  f.vd ++ f.va ++ f.vb ++ f.sf ++ f.df ++ f.rop ++ f.mask

/-- R134, opcode 0x56: the fields read back. -/
def fmtVredOfBits (b : BitVec 25) : FmtVred :=
  { vd := b.extractLsb' 21 4,
    va := b.extractLsb' 17 4,
    vb := b.extractLsb' 13 4,
    sf := b.extractLsb' 9 4,
    df := b.extractLsb' 7 2,
    rop := b.extractLsb' 4 3,
    mask := b.extractLsb' 0 4 }

/-- R134, opcode 0x57: the fields laid side by side. -/
def fmtVcvtBits (f : FmtVcvt) : BitVec 25 :=
  f.vd ++ f.va ++ f.sf ++ f.df ++ f.part ++ f.tally ++ f.zero

/-- R134, opcode 0x57: the fields read back. -/
def fmtVcvtOfBits (b : BitVec 25) : FmtVcvt :=
  { vd := b.extractLsb' 21 4,
    va := b.extractLsb' 17 4,
    sf := b.extractLsb' 13 4,
    df := b.extractLsb' 9 4,
    part := b.extractLsb' 7 2,
    tally := b.extractLsb' 3 4,
    zero := b.extractLsb' 0 3 }

/-- R134, opcode 0x58 without ST, which the row fixes: the fields laid side by side. -/
def fmtVlsBits (f : FmtVls) : BitVec 24 :=
  f.vr ++ f.seg ++ f.sn ++ f.fmt ++ f.tally ++ f.mask ++ f.zero

/-- R134, opcode 0x58 without ST, which the row fixes: the fields read back. -/
def fmtVlsOfBits (b : BitVec 24) : FmtVls :=
  { vr := b.extractLsb' 20 4,
    seg := b.extractLsb' 17 3,
    sn := b.extractLsb' 13 4,
    fmt := b.extractLsb' 9 4,
    tally := b.extractLsb' 5 4,
    mask := b.extractLsb' 1 4,
    zero := b.extractLsb' 0 1 }

/-- R134, opcode 0x59 without DIR, which the row fixes: the fields laid side by side. -/
def fmtVmvBits (f : FmtVmv) : BitVec 24 :=
  f.tile ++ f.vr ++ f.row ++ f.zero

/-- R134, opcode 0x59 without DIR, which the row fixes: the fields read back. -/
def fmtVmvOfBits (b : BitVec 24) : FmtVmv :=
  { tile := b.extractLsb' 20 4,
    vr := b.extractLsb' 16 4,
    row := b.extractLsb' 11 5,
    zero := b.extractLsb' 0 11 }

/-- R134, opcode 0x5A: the fields laid side by side. -/
def fmtVtrBits (f : FmtVtr) : BitVec 25 :=
  f.vd ++ f.va ++ f.fn ++ f.fmt ++ f.mask ++ f.zero

/-- R134, opcode 0x5A: the fields read back. -/
def fmtVtrOfBits (b : BitVec 25) : FmtVtr :=
  { vd := b.extractLsb' 21 4,
    va := b.extractLsb' 17 4,
    fn := b.extractLsb' 13 4,
    fmt := b.extractLsb' 9 4,
    mask := b.extractLsb' 5 4,
    zero := b.extractLsb' 0 5 }

/-- R134, opcode 0x5B: the fields laid side by side. -/
def fmtVmaskBits (f : FmtVmask) : BitVec 25 :=
  f.md ++ f.ma ++ f.mb ++ f.mfunc ++ f.sn ++ f.word ++ f.zero

/-- R134, opcode 0x5B: the fields read back. -/
def fmtVmaskOfBits (b : BitVec 25) : FmtVmask :=
  { md := b.extractLsb' 22 3,
    ma := b.extractLsb' 19 3,
    mb := b.extractLsb' 16 3,
    mfunc := b.extractLsb' 12 4,
    sn := b.extractLsb' 7 5,
    word := b.extractLsb' 5 2,
    zero := b.extractLsb' 0 5 }

/-- R88, opcode 0x60 without MINOR: the fields laid side by side. -/
def fmtTcfgBits (f : FmtTcfg) : BitVec 23 :=
  f.tile ++ f.rows ++ f.bpr ++ f.fmt ++ f.scaled ++ f.stile

/-- R88, opcode 0x60 without MINOR: the fields read back. -/
def fmtTcfgOfBits (b : BitVec 23) : FmtTcfg :=
  { tile := b.extractLsb' 19 4,
    rows := b.extractLsb' 13 6,
    bpr := b.extractLsb' 9 4,
    fmt := b.extractLsb' 5 4,
    scaled := b.extractLsb' 4 1,
    stile := b.extractLsb' 0 4 }

/-- R95, opcode 0x61 without ST, which the row fixes: the fields laid side by side. -/
def fmtTlsBits (f : FmtTls) : BitVec 24 :=
  f.tile ++ f.seg ++ f.pair ++ f.t ++ f.mfmt ++ f.tally ++ f.zero

/-- R95, opcode 0x61 without ST, which the row fixes: the fields read back. -/
def fmtTlsOfBits (b : BitVec 24) : FmtTls :=
  { tile := b.extractLsb' 20 4,
    seg := b.extractLsb' 17 3,
    pair := b.extractLsb' 13 4,
    t := b.extractLsb' 12 1,
    mfmt := b.extractLsb' 8 4,
    tally := b.extractLsb' 4 4,
    zero := b.extractLsb' 0 4 }

/-- R101, opcode 0x62: the fields laid side by side. -/
def fmtTldxBits (f : FmtTldx) : BitVec 25 :=
  f.tile ++ f.seg ++ f.vreg ++ f.masken ++ f.mreg ++ f.mfmt ++ f.tally ++ f.zm ++ f.zero

/-- R101, opcode 0x62: the fields read back. -/
def fmtTldxOfBits (b : BitVec 25) : FmtTldx :=
  { tile := b.extractLsb' 21 4,
    seg := b.extractLsb' 18 3,
    vreg := b.extractLsb' 14 4,
    masken := b.extractLsb' 13 1,
    mreg := b.extractLsb' 10 3,
    mfmt := b.extractLsb' 6 4,
    tally := b.extractLsb' 2 4,
    zm := b.extractLsb' 1 1,
    zero := b.extractLsb' 0 1 }

/-- R103, opcode 0x63: the fields laid side by side. -/
def fmtTzeroBits (f : FmtTzero) : BitVec 25 :=
  f.zero ++ f.mask

/-- R103, opcode 0x63: the fields read back. -/
def fmtTzeroOfBits (b : BitVec 25) : FmtTzero :=
  { zero := b.extractLsb' 16 9,
    mask := b.extractLsb' 0 16 }

/-- R115, opcode 0x64: the fields laid side by side. -/
def fmtMmaBits (f : FmtMma) : BitVec 25 :=
  f.ct ++ f.at_ ++ f.bt ++ f.rm ++ f.tally ++ f.shift ++ f.zero

/-- R115, opcode 0x64: the fields read back. -/
def fmtMmaOfBits (b : BitVec 25) : FmtMma :=
  { ct := b.extractLsb' 21 4,
    at_ := b.extractLsb' 17 4,
    bt := b.extractLsb' 13 4,
    rm := b.extractLsb' 12 1,
    tally := b.extractLsb' 8 4,
    shift := b.extractLsb' 4 4,
    zero := b.extractLsb' 0 4 }

/-- R170, opcode 0x65: the fields laid side by side. -/
def fmtTokenBits (f : FmtToken) : BitVec 25 :=
  f.q ++ f.evbit ++ f.zero

/-- R170, opcode 0x65: the fields read back. -/
def fmtTokenOfBits (b : BitVec 25) : FmtToken :=
  { q := b.extractLsb' 23 2,
    evbit := b.extractLsb' 18 5,
    zero := b.extractLsb' 0 18 }

/-- R172, opcode 0x66: the fields laid side by side. -/
def fmtDmaqBits (f : FmtDmaq) : BitVec 25 :=
  f.dseg ++ f.dreg ++ f.sseg ++ f.tseg ++ f.zero

/-- R172, opcode 0x66: the fields read back. -/
def fmtDmaqOfBits (b : BitVec 25) : FmtDmaq :=
  { dseg := b.extractLsb' 22 3,
    dreg := b.extractLsb' 18 4,
    sseg := b.extractLsb' 15 3,
    tseg := b.extractLsb' 12 3,
    zero := b.extractLsb' 0 12 }

/-- The MINOR field of the forms of TCFG (R88). -/
def tcfgMinor : TcfgForm → BitVec 2
  | .imm => 0 | .reg => 1 | .reserved => 3

/-- JR by FUNC (R197); 5 to 7 are reserved. -/
def jrOfBits (x : Site) (b : BitVec 25) : Option Instr :=
  match (b.extractLsb' 0 3).toNat with
  | 0x0 => some (.jmpr x (fmtKOfBits (b.extractLsb' 3 22)))
  | 0x1 => some (.callr x (fmtKOfBits (b.extractLsb' 3 22)))
  | 0x2 => some (.ret x (fmtKOfBits (b.extractLsb' 3 22)))
  | 0x3 => some (.xret x (fmtKOfBits (b.extractLsb' 3 22)))
  | 0x4 => some (.retg x (fmtKOfBits (b.extractLsb' 3 22)))
  | _ => none

/-- SYS by FUNC (R200); values not listed are reserved. -/
def sysOfBits (x : Site) (b : BitVec 25) : Option Instr :=
  match (b.extractLsb' 0 10).toNat with
  | 0x0 => some (.crd x (fmtXOfBits (b.extractLsb' 10 15)))
  | 0x1 => some (.cwr x (fmtXOfBits (b.extractLsb' 10 15)))
  | 0x2 => some (.cswap x (fmtXOfBits (b.extractLsb' 10 15)))
  | 0x3 => some (.cadd x (fmtXOfBits (b.extractLsb' 10 15)))
  | 0x8 => some (.signal x (fmtXOfBits (b.extractLsb' 10 15)))
  | 0x9 => some (.waitAny x (fmtXOfBits (b.extractLsb' 10 15)))
  | 0xA => some (.waitAll x (fmtXOfBits (b.extractLsb' 10 15)))
  | 0xB => some (.park x (fmtXOfBits (b.extractLsb' 10 15)))
  | 0xC => some (.setpri x (fmtXOfBits (b.extractLsb' 10 15)))
  | 0x10 => some (.lseg x (fmtXOfBits (b.extractLsb' 10 15)))
  | 0x11 => some (.sseg x (fmtXOfBits (b.extractLsb' 10 15)))
  | 0x18 => some (.rdcyc x (fmtXOfBits (b.extractLsb' 10 15)))
  | 0x19 => some (.rdcych x (fmtXOfBits (b.extractLsb' 10 15)))
  | 0x1A => some (.settmr x (fmtXOfBits (b.extractLsb' 10 15)))
  | 0x1B => some (.trdZero x (fmtXOfBits (b.extractLsb' 10 15)))
  | 0x1C => some (.trdSat x (fmtXOfBits (b.extractLsb' 10 15)))
  | 0x1D => some (.trdNan x (fmtXOfBits (b.extractLsb' 10 15)))
  | 0x1E => some (.tclr x (fmtXOfBits (b.extractLsb' 10 15)))
  | 0x20 => some (.qdisc x (fmtXOfBits (b.extractLsb' 10 15)))
  | 0x21 => some (.rsrd x (fmtXOfBits (b.extractLsb' 10 15)))
  | 0x22 => some (.rswr x (fmtXOfBits (b.extractLsb' 10 15)))
  | 0x23 => some (.rdver x (fmtXOfBits (b.extractLsb' 10 15)))
  | 0x24 => some (.rdflt x (fmtXOfBits (b.extractLsb' 10 15)))
  | 0x25 => some (.brk x (fmtXOfBits (b.extractLsb' 10 15)))
  | _ => none

/-- CHAN by FUNC (R203). -/
def chanOfBits (x : Site) (b : BitVec 25) : Option Instr :=
  match (b.extractLsb' 0 3).toNat with
  | 0x0 => some (.wrch x (fmtCOfBits (b.extractLsb' 3 22)))
  | 0x1 => some (.wrchb x (fmtCOfBits (b.extractLsb' 3 22)))
  | 0x2 => some (.close x (fmtCOfBits (b.extractLsb' 3 22)))
  | 0x3 => some (.recv x (fmtCOfBits (b.extractLsb' 3 22)))
  | 0x4 => some (.rfree x (fmtCOfBits (b.extractLsb' 3 22)))
  | 0x5 => some (.sumparm x (fmtCOfBits (b.extractLsb' 3 22)))
  | 0x6 => some (.arrive x (fmtCOfBits (b.extractLsb' 3 22)))
  | _ => some (.waitb x (fmtCOfBits (b.extractLsb' 3 22)))

/-- Opcode 0x60 by MINOR (R88). -/
def tcfgOfBits (x : Site) (b : BitVec 25) : Option Instr :=
  match (b.extractLsb' 0 2).toNat with
  | 0 => some (.tcfg x .imm (fmtTcfgOfBits (b.extractLsb' 2 23)))
  | 1 => some (.tcfg x .reg (fmtTcfgOfBits (b.extractLsb' 2 23)))
  | 2 => some (.tshr x (fmtTcfgOfBits (b.extractLsb' 2 23)))
  | _ => some (.tcfg x .reserved (fmtTcfgOfBits (b.extractLsb' 2 23)))

/-- The instruction that a word encodes (R185, R186, R133); none for a reserved opcode or a reserved FUNC of JR or SYS. -/
def ofWord (x : Site) (w : BitVec 32) : Option Instr :=
  let b := w.extractLsb' 0 25
  match (w.extractLsb' 25 7).toNat with
  | 0x01 => some (.op x (fmtROfBits b))
  | 0x02 => some (.addi x (fmtIOfBits b))
  | 0x03 => some (.andi x (fmtIOfBits b))
  | 0x04 => some (.ori x (fmtIOfBits b))
  | 0x05 => some (.xori x (fmtIOfBits b))
  | 0x06 => some (.slti x (fmtIOfBits b))
  | 0x07 => some (.sltiu x (fmtIOfBits b))
  | 0x08 => some (.shi x (fmtSOfBits b))
  | 0x09 => some (.lui x (fmtUOfBits b))
  | 0x0A => some (.fop x (fmtROfBits b))
  | 0x10 => some (.ld x (fmtMOfBits b))
  | 0x11 => some (.st x (fmtMOfBits b))
  | 0x18 => some (.br x (fmtBOfBits b))
  | 0x19 => some (.jmp x (fmtJOfBits b))
  | 0x1A => some (.call x (fmtJOfBits b))
  | 0x1B => jrOfBits x b
  | 0x1C => some (.rep x (fmtPOfBits b))
  | 0x1D => some (.repL x (fmtLOfBits b))
  | 0x1E => some (.gate x (fmtGOfBits b))
  | 0x20 => sysOfBits x b
  | 0x24 => if b.getLsbD 24 then some (.publish x (fmtFOfBits (b.extractLsb' 0 24))) else some (.fence x (fmtFOfBits (b.extractLsb' 0 24)))
  | 0x28 => chanOfBits x b
  | 0x50 => some (.vop x (fmtVopOfBits b))
  | 0x51 => some (.vfma x (fmtVfmaOfBits b))
  | 0x52 => some (.vcmp x (fmtVcmpOfBits b))
  | 0x53 => some (.vperm x (fmtVpermOfBits b))
  | 0x54 => some (.vmac x (fmtVmacOfBits b))
  | 0x55 => some (.vaddac x (fmtVmacOfBits b))
  | 0x56 => some (.vred x (fmtVredOfBits b))
  | 0x57 => some (.vcvt x (fmtVcvtOfBits b))
  | 0x58 => if b.getLsbD 24 then some (.vst x (fmtVlsOfBits (b.extractLsb' 0 24))) else some (.vld x (fmtVlsOfBits (b.extractLsb' 0 24)))
  | 0x59 => if b.getLsbD 24 then some (.vmvt x (fmtVmvOfBits (b.extractLsb' 0 24))) else some (.vmvf x (fmtVmvOfBits (b.extractLsb' 0 24)))
  | 0x5A => some (.vtr x (fmtVtrOfBits b))
  | 0x5B => some (.vmask x (fmtVmaskOfBits b))
  | 0x60 => tcfgOfBits x b
  | 0x61 => if b.getLsbD 24 then some (.tst x (fmtTlsOfBits (b.extractLsb' 0 24))) else some (.tld x (fmtTlsOfBits (b.extractLsb' 0 24)))
  | 0x62 => some (.tldx x (fmtTldxOfBits b))
  | 0x63 => some (.tzero x (fmtTzeroOfBits b))
  | 0x64 => some (.mma x (fmtMmaOfBits b))
  | 0x65 => some (.token x (fmtTokenOfBits b))
  | 0x66 => some (.dmaq x (fmtDmaqOfBits b))
  | _ => none

/-- Major opcodes that R186 and R133 assign. -/
def opcodeAssigned (w : BitVec 32) : Bool :=
  [0x01, 0x02, 0x03, 0x04, 0x05, 0x06, 0x07, 0x08, 0x09, 0x0A, 0x10, 0x11, 0x18, 0x19, 0x1A, 0x1B, 0x1C, 0x1D, 0x1E, 0x20, 0x24, 0x28, 0x50, 0x51, 0x52, 0x53, 0x54, 0x55, 0x56, 0x57, 0x58, 0x59, 0x5A, 0x5B, 0x60, 0x61, 0x62, 0x63, 0x64, 0x65, 0x66].contains (w.extractLsb' 25 7).toNat

/-- The word of an instruction; none for a command that is no instruction. -/
def wordOf : Instr → Option (BitVec 32)
  | .op _ f => some (opWord 0x01 (fmtRBits f))
  | .addi _ f => some (opWord 0x02 (fmtIBits f))
  | .andi _ f => some (opWord 0x03 (fmtIBits f))
  | .ori _ f => some (opWord 0x04 (fmtIBits f))
  | .xori _ f => some (opWord 0x05 (fmtIBits f))
  | .slti _ f => some (opWord 0x06 (fmtIBits f))
  | .sltiu _ f => some (opWord 0x07 (fmtIBits f))
  | .shi _ f => some (opWord 0x08 (fmtSBits f))
  | .lui _ f => some (opWord 0x09 (fmtUBits f))
  | .fop _ f => some (opWord 0x0A (fmtRBits f))
  | .ld _ f => some (opWord 0x10 (fmtMBits f))
  | .loadDataArrive _ _ => none
  | .st _ f => some (opWord 0x11 (fmtMBits f))
  | .br _ f => some (opWord 0x18 (fmtBBits f))
  | .jmp _ f => some (opWord 0x19 (fmtJBits f))
  | .call _ f => some (opWord 0x1A (fmtJBits f))
  | .jmpr _ f => some (opWord 0x1B (fmtKBits f ++ (0x0#3)))
  | .callr _ f => some (opWord 0x1B (fmtKBits f ++ (0x1#3)))
  | .ret _ f => some (opWord 0x1B (fmtKBits f ++ (0x2#3)))
  | .xret _ f => some (opWord 0x1B (fmtKBits f ++ (0x3#3)))
  | .retg _ f => some (opWord 0x1B (fmtKBits f ++ (0x4#3)))
  | .gate _ f => some (opWord 0x1E (fmtGBits f))
  | .rep _ f => some (opWord 0x1C (fmtPBits f))
  | .repL _ f => some (opWord 0x1D (fmtLBits f))
  | .crd _ f => some (opWord 0x20 (fmtXBits f ++ (0x000#10)))
  | .cwr _ f => some (opWord 0x20 (fmtXBits f ++ (0x001#10)))
  | .cswap _ f => some (opWord 0x20 (fmtXBits f ++ (0x002#10)))
  | .cadd _ f => some (opWord 0x20 (fmtXBits f ++ (0x003#10)))
  | .signal _ f => some (opWord 0x20 (fmtXBits f ++ (0x008#10)))
  | .waitAny _ f => some (opWord 0x20 (fmtXBits f ++ (0x009#10)))
  | .waitAll _ f => some (opWord 0x20 (fmtXBits f ++ (0x00A#10)))
  | .park _ f => some (opWord 0x20 (fmtXBits f ++ (0x00B#10)))
  | .setpri _ f => some (opWord 0x20 (fmtXBits f ++ (0x00C#10)))
  | .lseg _ f => some (opWord 0x20 (fmtXBits f ++ (0x010#10)))
  | .sseg _ f => some (opWord 0x20 (fmtXBits f ++ (0x011#10)))
  | .rdcyc _ f => some (opWord 0x20 (fmtXBits f ++ (0x018#10)))
  | .rdcych _ f => some (opWord 0x20 (fmtXBits f ++ (0x019#10)))
  | .settmr _ f => some (opWord 0x20 (fmtXBits f ++ (0x01A#10)))
  | .trdZero _ f => some (opWord 0x20 (fmtXBits f ++ (0x01B#10)))
  | .trdSat _ f => some (opWord 0x20 (fmtXBits f ++ (0x01C#10)))
  | .trdNan _ f => some (opWord 0x20 (fmtXBits f ++ (0x01D#10)))
  | .tclr _ f => some (opWord 0x20 (fmtXBits f ++ (0x01E#10)))
  | .qdisc _ f => some (opWord 0x20 (fmtXBits f ++ (0x020#10)))
  | .rsrd _ f => some (opWord 0x20 (fmtXBits f ++ (0x021#10)))
  | .rswr _ f => some (opWord 0x20 (fmtXBits f ++ (0x022#10)))
  | .rdver _ f => some (opWord 0x20 (fmtXBits f ++ (0x023#10)))
  | .rdflt _ f => some (opWord 0x20 (fmtXBits f ++ (0x024#10)))
  | .brk _ f => some (opWord 0x20 (fmtXBits f ++ (0x025#10)))
  | .fence _ f => some (opWord 0x24 (0#1 ++ fmtFBits f))
  | .publish _ f => some (opWord 0x24 (1#1 ++ fmtFBits f))
  | .wrch _ f => some (opWord 0x28 (fmtCBits f ++ (0x0#3)))
  | .wrchb _ f => some (opWord 0x28 (fmtCBits f ++ (0x1#3)))
  | .close _ f => some (opWord 0x28 (fmtCBits f ++ (0x2#3)))
  | .messageDepart _ _ => none
  | .recv _ f => some (opWord 0x28 (fmtCBits f ++ (0x3#3)))
  | .rfree _ f => some (opWord 0x28 (fmtCBits f ++ (0x4#3)))
  | .sumparm _ f => some (opWord 0x28 (fmtCBits f ++ (0x5#3)))
  | .arrive _ f => some (opWord 0x28 (fmtCBits f ++ (0x6#3)))
  | .waitb _ f => some (opWord 0x28 (fmtCBits f ++ (0x7#3)))
  | .vop _ f => some (opWord 0x50 (fmtVopBits f))
  | .vfma _ f => some (opWord 0x51 (fmtVfmaBits f))
  | .vcmp _ f => some (opWord 0x52 (fmtVcmpBits f))
  | .vperm _ f => some (opWord 0x53 (fmtVpermBits f))
  | .vmac _ f => some (opWord 0x54 (fmtVmacBits f))
  | .vaddac _ f => some (opWord 0x55 (fmtVmacBits f))
  | .vred _ f => some (opWord 0x56 (fmtVredBits f))
  | .vcvt _ f => some (opWord 0x57 (fmtVcvtBits f))
  | .vtr _ f => some (opWord 0x5A (fmtVtrBits f))
  | .vld _ f => some (opWord 0x58 (0#1 ++ fmtVlsBits f))
  | .vst _ f => some (opWord 0x58 (1#1 ++ fmtVlsBits f))
  | .vmvf _ f => some (opWord 0x59 (0#1 ++ fmtVmvBits f))
  | .vmvt _ f => some (opWord 0x59 (1#1 ++ fmtVmvBits f))
  | .vmask _ f => some (opWord 0x5B (fmtVmaskBits f))
  | .tcfg _ form f => some (opWord 0x60 (fmtTcfgBits f ++ tcfgMinor form))
  | .tshr _ f => some (opWord 0x60 (fmtTcfgBits f ++ 2#2))
  | .tld _ f => some (opWord 0x61 (0#1 ++ fmtTlsBits f))
  | .tst _ f => some (opWord 0x61 (1#1 ++ fmtTlsBits f))
  | .tldx _ f => some (opWord 0x62 (fmtTldxBits f))
  | .tzero _ f => some (opWord 0x63 (fmtTzeroBits f))
  | .mma _ f => some (opWord 0x64 (fmtMmaBits f))
  | .mmaCommit _ => none
  | .matrixRest _ => none
  | .admissionWindowOpen => none
  | .admissionGroupSlot _ => none
  | .token _ f => some (opWord 0x65 (fmtTokenBits f))
  | .tokenComplete _ _ => none
  | .dmaq _ f => some (opWord 0x66 (fmtDmaqBits f))
  | .coreDmaStart _ => none
  | .coreDmaComplete _ => none
  | .exceptionEntry _ => none
  | .doubleFaultEntry _ => none
  | .coreReset _ => none
  | .badAir _ => none
  | .cycleTimerMatch _ => none
  | .bankAccess _ _ _ => none
  | .requestPromote _ _ => none
  | .nearMemoryAccess _ _ => none
  | .patrolRead _ _ _ => none
  | .interfaceRetrain _ _ _ _ => none
  | .cxlAccess _ _ => none
  | .cxlRequestTimeout _ _ => none
  | .cxlLinkDown _ _ => none
  | .cxlLinkTrained _ _ _ _ _ => none
  | .channelMessage _ _ => none
  | .sumpContribution _ _ => none
  | .creditReturn _ _ _ => none
  | .sumpDrain _ _ => none
  | .barrierArrive _ _ _ => none
  | .barrierRelease _ _ => none
  | .commitGo _ _ => none
  | .commitRevert _ _ => none
  | .commitCheckEnd _ => none
  | .commitApply _ => none
  | .commitTimeout _ => none
  | .errClear _ _ _ => none
  | .errInj _ _ _ => none
  | .registerWrite _ _ _ _ => none
  | .counterLowHalfRead _ _ _ => none
  | .exterrRead _ _ => none
  | .knoticeRead _ _ => none
  | .hallStart _ _ => none
  | .hallColumnStart _ => none
  | .hallStop _ _ => none
  | .hallStopped _ => none
  | .dripWrite _ _ _ => none
  | .sumpRoundWrite _ _ _ _ => none
  | .saltWrite _ _ _ => none
  | .tallyClr _ _ _ => none
  | .qctlDiscard _ _ _ => none
  | .tableRegisterWrite _ _ _ _ => none
  | .lanternHalt _ _ => none
  | .lanternDeliver _ _ => none
  | .lanternResume _ _ => none
  | .channelAbort _ _ _ => none
  | .queueProdWrite _ _ _ _ _ => none
  | .queueResume _ _ _ _ => none
  | .queueDiscard _ _ _ _ _ => none
  | .descriptorStart _ _ _ => none
  | .descriptorComplete _ _ _ => none
  | .nop _ _ _ => none
  | .pool _ _ => none
  | .scatter _ _ => none
  | .sort _ _ => none
  | .topk _ _ => none
  | .sample _ _ => none
  | .expand _ _ => none
  | .sm4Encrypt _ _ => none
  | .sm4Decrypt _ _ => none
  | .sm3 _ _ => none
  | .copy _ _ _ _ => none
  | .fill _ _ _ => none
  | .scrub _ _ _ _ => none
  | .progKick _ _ _ => none
  | .progressFire _ => none
  | .cgo _ _ _ => none
  | .cairnPageCopied _ => none
  | .cairnComplete _ => none
  | .cairnFail _ _ => none
  | .ckctlLoad _ _ => none
  | .ckctlClear _ _ => none
  | .restore _ _ _ => none
  | .restoreComplete _ _ => none
  | .coreHardFault _ _ _ => none
  | .suspect _ _ _ => none
  | .selfTestEnd _ _ => none
  | .readmit _ _ _ => none
  | .bridgeFailure _ => none
  | .sqTailWrite _ _ _ => none
  | .sqHeadWrite _ _ _ => none
  | .cqHeadWrite _ _ _ => none
  | .cqPost _ _ _ => none
  | .raise _ _ _ => none
  | .bar2Access _ => none
  | .hostBar0Access _ _ => none
  | .hostReadFail _ _ _ => none
  | .vfFlr _ => none
  | .pf0Flr => none
  | .pcieReset _ => none
  | .pcieLinkUp _ => none
  | .lockInterfaceRequest _ _ _ => none
  | .startInterfaceRequest _ => none
  | .stopInterfaceRequest _ => none
  | .endOfTenancy _ => none
  | .scrubReq _ _ => none
  | .hallScrubEnd _ _ => none
  | .scrubTimeout _ => none
  | .spdmGetCertificate _ => none
  | .spdmChallenge _ _ => none
  | .spdmGetMeasurements _ _ => none
  | .spdmKeyExchange _ => none
  | .rollfwd _ _ => none
  | .updBegin _ => none
  | .updData _ _ => none
  | .updVerify _ => none
  | .updActivate _ => none
  | .updAbort _ => none
  | .handoverTimeout => none
  | .yarlinkPortUp _ _ _ _ => none
  | .portFail _ => none
  | .flitReceive _ _ => none
  | .flitReplay _ => none
  | .laneFail _ _ => none
  | .yarlinkRetrain _ _ => none
  | .keyRollover _ => none
  | .packetRoute _ => none
  | .remoteWrite _ _ => none
  | .remoteReadRequest _ _ => none
  | .snapshotCopy _ _ => none
  | .readReply _ _ => none
  | .writeAcknowledgement _ _ => none
  | .remoteRequestTimeout _ _ => none
  | .intervalEnd _ => none
  | .ceilingRise _ => none
  | .powerStateChange => none
  | .currentAlert => none
  | .currentAlertClear => none
  | .thermalTrip => none
  | .sysThrotAssert => none
  | .sysThrotDeassert => none
  | .droopStretch _ _ => none
  | .modrst _ _ => none
  | .referenceLoss => none
  | .referenceRestored => none
  | .powerOn _ => none
  | .powerOff => none
  | .bypass => none
  | .idcode => none
  | .samplePreload _ _ => none
  | .extest => none
  | .clamp => none
  | .highz => none
  | .testLogicReset => none
  | .pldmGetSensorReading _ => none
  | .pldmRequestUpdate => none
  | .pldmActivateFirmware => none
  | .updEraseComplete => none
  | .updVerifyComplete => none
  | .handoverComplete => none
  | .readmitComplete _ _ => none
  | .pcieLinkNotBroughtUp => none
  | .perstNDeassert => none
  | .configurationRequest _ _ => none
  | .spdmNegotiateAlgorithms _ => none
  | .ideKm _ _ => none

/-- The thread that issues an instruction; none for other commands. -/
def siteOf : Instr → Option Site
  | .op x _ => some x
  | .addi x _ => some x
  | .andi x _ => some x
  | .ori x _ => some x
  | .xori x _ => some x
  | .slti x _ => some x
  | .sltiu x _ => some x
  | .shi x _ => some x
  | .lui x _ => some x
  | .fop x _ => some x
  | .ld x _ => some x
  | .loadDataArrive _ _ => none
  | .st x _ => some x
  | .br x _ => some x
  | .jmp x _ => some x
  | .call x _ => some x
  | .jmpr x _ => some x
  | .callr x _ => some x
  | .ret x _ => some x
  | .xret x _ => some x
  | .retg x _ => some x
  | .gate x _ => some x
  | .rep x _ => some x
  | .repL x _ => some x
  | .crd x _ => some x
  | .cwr x _ => some x
  | .cswap x _ => some x
  | .cadd x _ => some x
  | .signal x _ => some x
  | .waitAny x _ => some x
  | .waitAll x _ => some x
  | .park x _ => some x
  | .setpri x _ => some x
  | .lseg x _ => some x
  | .sseg x _ => some x
  | .rdcyc x _ => some x
  | .rdcych x _ => some x
  | .settmr x _ => some x
  | .trdZero x _ => some x
  | .trdSat x _ => some x
  | .trdNan x _ => some x
  | .tclr x _ => some x
  | .qdisc x _ => some x
  | .rsrd x _ => some x
  | .rswr x _ => some x
  | .rdver x _ => some x
  | .rdflt x _ => some x
  | .brk x _ => some x
  | .fence x _ => some x
  | .publish x _ => some x
  | .wrch x _ => some x
  | .wrchb x _ => some x
  | .close x _ => some x
  | .messageDepart _ _ => none
  | .recv x _ => some x
  | .rfree x _ => some x
  | .sumparm x _ => some x
  | .arrive x _ => some x
  | .waitb x _ => some x
  | .vop x _ => some x
  | .vfma x _ => some x
  | .vcmp x _ => some x
  | .vperm x _ => some x
  | .vmac x _ => some x
  | .vaddac x _ => some x
  | .vred x _ => some x
  | .vcvt x _ => some x
  | .vtr x _ => some x
  | .vld x _ => some x
  | .vst x _ => some x
  | .vmvf x _ => some x
  | .vmvt x _ => some x
  | .vmask x _ => some x
  | .tcfg x _ _ => some x
  | .tshr x _ => some x
  | .tld x _ => some x
  | .tst x _ => some x
  | .tldx x _ => some x
  | .tzero x _ => some x
  | .mma x _ => some x
  | .mmaCommit _ => none
  | .matrixRest _ => none
  | .admissionWindowOpen => none
  | .admissionGroupSlot _ => none
  | .token x _ => some x
  | .tokenComplete _ _ => none
  | .dmaq x _ => some x
  | .coreDmaStart _ => none
  | .coreDmaComplete _ => none
  | .exceptionEntry _ => none
  | .doubleFaultEntry _ => none
  | .coreReset _ => none
  | .badAir _ => none
  | .cycleTimerMatch _ => none
  | .bankAccess _ _ _ => none
  | .requestPromote _ _ => none
  | .nearMemoryAccess _ _ => none
  | .patrolRead _ _ _ => none
  | .interfaceRetrain _ _ _ _ => none
  | .cxlAccess _ _ => none
  | .cxlRequestTimeout _ _ => none
  | .cxlLinkDown _ _ => none
  | .cxlLinkTrained _ _ _ _ _ => none
  | .channelMessage _ _ => none
  | .sumpContribution _ _ => none
  | .creditReturn _ _ _ => none
  | .sumpDrain _ _ => none
  | .barrierArrive _ _ _ => none
  | .barrierRelease _ _ => none
  | .commitGo _ _ => none
  | .commitRevert _ _ => none
  | .commitCheckEnd _ => none
  | .commitApply _ => none
  | .commitTimeout _ => none
  | .errClear _ _ _ => none
  | .errInj _ _ _ => none
  | .registerWrite _ _ _ _ => none
  | .counterLowHalfRead _ _ _ => none
  | .exterrRead _ _ => none
  | .knoticeRead _ _ => none
  | .hallStart _ _ => none
  | .hallColumnStart _ => none
  | .hallStop _ _ => none
  | .hallStopped _ => none
  | .dripWrite _ _ _ => none
  | .sumpRoundWrite _ _ _ _ => none
  | .saltWrite _ _ _ => none
  | .tallyClr _ _ _ => none
  | .qctlDiscard _ _ _ => none
  | .tableRegisterWrite _ _ _ _ => none
  | .lanternHalt _ _ => none
  | .lanternDeliver _ _ => none
  | .lanternResume _ _ => none
  | .channelAbort _ _ _ => none
  | .queueProdWrite _ _ _ _ _ => none
  | .queueResume _ _ _ _ => none
  | .queueDiscard _ _ _ _ _ => none
  | .descriptorStart _ _ _ => none
  | .descriptorComplete _ _ _ => none
  | .nop _ _ _ => none
  | .pool _ _ => none
  | .scatter _ _ => none
  | .sort _ _ => none
  | .topk _ _ => none
  | .sample _ _ => none
  | .expand _ _ => none
  | .sm4Encrypt _ _ => none
  | .sm4Decrypt _ _ => none
  | .sm3 _ _ => none
  | .copy _ _ _ _ => none
  | .fill _ _ _ => none
  | .scrub _ _ _ _ => none
  | .progKick _ _ _ => none
  | .progressFire _ => none
  | .cgo _ _ _ => none
  | .cairnPageCopied _ => none
  | .cairnComplete _ => none
  | .cairnFail _ _ => none
  | .ckctlLoad _ _ => none
  | .ckctlClear _ _ => none
  | .restore _ _ _ => none
  | .restoreComplete _ _ => none
  | .coreHardFault _ _ _ => none
  | .suspect _ _ _ => none
  | .selfTestEnd _ _ => none
  | .readmit _ _ _ => none
  | .bridgeFailure _ => none
  | .sqTailWrite _ _ _ => none
  | .sqHeadWrite _ _ _ => none
  | .cqHeadWrite _ _ _ => none
  | .cqPost _ _ _ => none
  | .raise _ _ _ => none
  | .bar2Access _ => none
  | .hostBar0Access _ _ => none
  | .hostReadFail _ _ _ => none
  | .vfFlr _ => none
  | .pf0Flr => none
  | .pcieReset _ => none
  | .pcieLinkUp _ => none
  | .lockInterfaceRequest _ _ _ => none
  | .startInterfaceRequest _ => none
  | .stopInterfaceRequest _ => none
  | .endOfTenancy _ => none
  | .scrubReq _ _ => none
  | .hallScrubEnd _ _ => none
  | .scrubTimeout _ => none
  | .spdmGetCertificate _ => none
  | .spdmChallenge _ _ => none
  | .spdmGetMeasurements _ _ => none
  | .spdmKeyExchange _ => none
  | .rollfwd _ _ => none
  | .updBegin _ => none
  | .updData _ _ => none
  | .updVerify _ => none
  | .updActivate _ => none
  | .updAbort _ => none
  | .handoverTimeout => none
  | .yarlinkPortUp _ _ _ _ => none
  | .portFail _ => none
  | .flitReceive _ _ => none
  | .flitReplay _ => none
  | .laneFail _ _ => none
  | .yarlinkRetrain _ _ => none
  | .keyRollover _ => none
  | .packetRoute _ => none
  | .remoteWrite _ _ => none
  | .remoteReadRequest _ _ => none
  | .snapshotCopy _ _ => none
  | .readReply _ _ => none
  | .writeAcknowledgement _ _ => none
  | .remoteRequestTimeout _ _ => none
  | .intervalEnd _ => none
  | .ceilingRise _ => none
  | .powerStateChange => none
  | .currentAlert => none
  | .currentAlertClear => none
  | .thermalTrip => none
  | .sysThrotAssert => none
  | .sysThrotDeassert => none
  | .droopStretch _ _ => none
  | .modrst _ _ => none
  | .referenceLoss => none
  | .referenceRestored => none
  | .powerOn _ => none
  | .powerOff => none
  | .bypass => none
  | .idcode => none
  | .samplePreload _ _ => none
  | .extest => none
  | .clamp => none
  | .highz => none
  | .testLogicReset => none
  | .pldmGetSensorReading _ => none
  | .pldmRequestUpdate => none
  | .pldmActivateFirmware => none
  | .updEraseComplete => none
  | .updVerifyComplete => none
  | .handoverComplete => none
  | .readmitComplete _ _ => none
  | .pcieLinkNotBroughtUp => none
  | .perstNDeassert => none
  | .configurationRequest _ _ => none
  | .spdmNegotiateAlgorithms _ => none
  | .ideKm _ _ => none

end Sys2Proof
end

