-- ==== Sys2Proof/Machine/NumFormats.lean ====
section
/-!
DEFINITION. Number formats, exact arithmetic, rounding, the drip hash and element classification (R55 to R78, R142).
A finite value is a sign, a magnitude and a power of two, so every sum and product is exact (R62) and rounding happens once.
-/
namespace Sys2Proof.Machine

/-- Bits `[lo + w - 1 : lo]` of a number. -/
def bitsOf (v lo w : Nat) : Nat := v / 2 ^ lo % 2 ^ w

/-- Bit `i` of a number. -/
def bitOf (v i : Nat) : Bool := v / 2 ^ i % 2 == 1

/-- The value of an element: a NaN or `± mag * 2^exp` (R57, R59). -/
inductive Num where
  | nan
  | fin (neg : Bool) (mag : Nat) (exp : Int)
deriving DecidableEq, Repr

/-- An element as written, with what a tally needs to know of it (R77). -/
structure Elem where
  bits : Nat
  /-- saturated or clamped -/
  sat : Bool
  /-- a NaN, or written as zero in place of one -/
  nan : Bool
deriving DecidableEq, Repr

/-- Width in bits of an element format code (R55, R56); reserved codes have width 0. -/
def fmtWidth : Nat → Nat
  | 0 => 4 | 1 => 8 | 2 => 16 | 3 => 4 | 4 => 6 | 5 => 6 | 6 => 8 | 7 => 8
  | 8 => 16 | 9 => 16 | 10 => 16 | 11 => 8 | _ => 0

/-- Integer formats (R61). -/
def fmtIsInt (f : Nat) : Bool := f ≤ 2

/-- Float formats, FP4 E2M1 through A16 (R61). -/
def fmtIsFloat (f : Nat) : Bool := 3 ≤ f && f ≤ 10

/-- The scale format E8M0 (R61). -/
def fmtIsScale (f : Nat) : Bool := f == 11

/-- A format code that R55 defines. -/
def fmtValid (f : Nat) : Bool := f ≤ 11

/-- The class of R61: 0 integer, 1 float, 2 scale, 3 reserved. -/
def fmtClass (f : Nat) : Nat := if f ≤ 2 then 0 else if f ≤ 10 then 1 else if f = 11 then 2 else 3

/-- Formats that a scale source may scale: FP4, FP6 and FP8 (R60). -/
def fmtScalable (f : Nat) : Bool := 3 ≤ f && f ≤ 7

/-- Fraction bits of a float format (R56). -/
def fracBits : Nat → Nat
  | 3 => 1 | 4 => 3 | 5 => 2 | 6 => 3 | 7 => 2 | 8 => 10 | 9 => 7 | 10 => 9 | _ => 0

/-- Exponent bias of a float format (R56). -/
def expBias : Nat → Nat
  | 3 => 1 | 4 => 1 | 5 => 3 | 6 => 7 | 7 => 15 | 8 => 15 | 9 => 127 | 10 => 31 | _ => 0

/-- Encoding of the largest finite value of a float format (R56). -/
def maxFinite : Nat → Nat
  | 3 => 0x7 | 4 => 0x1F | 5 => 0x1F | 6 => 0x7E | 7 => 0x7B | 8 => 0x7BFF | 9 => 0x7F7F | 10 => 0x7FFE
  | _ => 0

/-- The canonical NaN of a format, if it has one (R59). -/
def canonNaN : Nat → Option Nat
  | 6 => some 0x7F | 7 => some 0x7E | 8 => some 0x7E00 | 9 => some 0x7FC0 | 10 => some 0x7FFF | 11 => some 0xFF
  | _ => none

/-- The encoding of 1.0 (R56). -/
def encOne : Nat → Nat
  | 0 => 1 | 1 => 1 | 2 => 1 | 3 => 2 | 4 => 8 | 5 => 0xC | 6 => 0x38 | 7 => 0x3C | 8 => 0x3C00 | 9 => 0x3F80
  | 10 => 0x3E00 | 11 => 0x7F | _ => 0

/-- Magnitude bits of an encoding, without the sign. -/
def magBits (f x : Nat) : Nat := x % 2 ^ (fmtWidth f - 1)

/-- The sign bit of a float or integer encoding. -/
def signBit (f x : Nat) : Bool := x / 2 ^ (fmtWidth f - 1) % 2 == 1

/-- NaN encodings (R56). -/
def encIsNaN (f x : Nat) : Bool :=
  match f with
  | 6 => magBits f x == 0x7F
  | 7 => decide (0x7C < magBits f x)
  | 8 => decide (0x7C00 < magBits f x)
  | 9 => decide (0x7F80 < magBits f x)
  | 10 => magBits f x == 0x7FFF
  | 11 => x == 0xFF
  | _ => false

/-- Infinity encodings (R56). -/
def encIsInf (f x : Nat) : Bool :=
  match f with
  | 7 => magBits f x == 0x7C
  | 8 => magBits f x == 0x7C00
  | 9 => magBits f x == 0x7F80
  | _ => false

/-- The least significant exponent of a float format: the subnormal spacing (R57). -/
def minExp (f : Nat) : Int := 1 - (expBias f : Int) - (fracBits f : Int)

/-- The magnitude of a float encoding without sign, read under R57. -/
def floatMag (f m : Nat) : Nat × Int :=
  let p := fracBits f
  let e := m / 2 ^ p
  let fr := m % 2 ^ p
  if e = 0 then (fr, minExp f) else (fr + 2 ^ p, minExp f + (e : Int) - 1)

/-- The value of an encoding; an infinity is taken as the largest finite value (R57, R58). -/
def decodeNum (f x : Nat) : Num :=
  if fmtIsInt f then
    let w := fmtWidth f
    if signBit f x then .fin true (2 ^ w - x % 2 ^ w) 0 else .fin false (x % 2 ^ w) 0
  else if f = 11 then
    if x = 0xFF then .nan else .fin false 1 ((x : Int) - 127)
  else if encIsNaN f x then .nan
  else
    let m := if encIsInf f x then maxFinite f else magBits f x
    let v := floatMag f m
    .fin (signBit f x) v.1 v.2

/-- A finite value as an integer multiple of `2^e`, for `e` at most its exponent. -/
def scaledInt (neg : Bool) (mag : Nat) (exp e : Int) : Int :=
  let m : Int := ((mag * 2 ^ (exp - e).toNat : Nat) : Int)
  if neg then -m else m

/-- The exact product (R62); a NaN contributes a NaN (R59). -/
def Num.mul : Num → Num → Num
  | .fin n m e, .fin n' m' e' => .fin (n != n') (m * m') (e + e')
  | _, _ => .nan

/-- The negation. -/
def Num.neg : Num → Num
  | .fin n m e => .fin (!n) m e
  | .nan => .nan

/-- The absolute value. -/
def Num.abs : Num → Num
  | .fin _ m e => .fin false m e
  | .nan => .nan

/-- Multiplication by a power of two. -/
def Num.scale (k : Int) : Num → Num
  | .fin n m e => .fin n m (e + k)
  | .nan => .nan

/-- The least exponent among the terms, and whether all are finite. -/
def minExpOf : List Num → Option Int → Option (Option Int)
  | [], acc => some acc
  | .nan :: _, _ => none
  | .fin _ _ e :: t, none => minExpOf t (some e)
  | .fin _ _ e :: t, some a => minExpOf t (some (min a e))

/-- The sum of the terms as multiples of `2^e`. -/
def sumScaled (e : Int) : List Num → Int
  | [] => 0
  | .fin n m x :: t => scaledInt n m x e + sumScaled e t
  | .nan :: t => sumScaled e t

/-- Whether a term is −0. -/
def Num.isNegZero : Num → Bool
  | .fin true 0 _ => true
  | _ => false

/-- The exact sum of the terms (R62), signed under R63. -/
def Num.sum (l : List Num) : Num :=
  match minExpOf l none with
  | none => .nan
  | some none => .fin false 0 0
  | some (some e) =>
    let s := sumScaled e l
    if s = 0 then .fin (l.all Num.isNegZero) 0 0 else .fin (decide (s < 0)) s.natAbs e

/-- Comparison by value; no order with a NaN. `some (-1)`, `some 0` or `some 1`. -/
def Num.cmp : Num → Num → Option Int
  | .fin n m e, .fin n' m' e' =>
    let k := min e e'
    let a := scaledInt n m e k
    let b := scaledInt n' m' e' k
    some (if a < b then -1 else if a = b then 0 else 1)
  | _, _ => none

/-- The key that orders −0 below +0 and otherwise by value. -/
def Num.ltZ (a b : Num) : Bool :=
  match a.cmp b with
  | some c => if c = 0 then (match a, b with | .fin true _ _, .fin false _ _ => true | _, _ => false) else decide (c < 0)
  | none => false

/-- Exponent of the spacing of encodings of `f` at a magnitude (R65, R66: no upper bound on the exponent). -/
def spacingExp (f m : Nat) (e : Int) : Int :=
  max ((Nat.log2 m : Int) + e - (fracBits f : Int)) (minExp f)

/-- The encoding of `q` steps of `2^u` without sign; the exponent may run past the format (R65). -/
def stepsEnc (f q : Nat) (u : Int) : Nat := (u - minExp f).toNat * 2 ^ fracBits f + q

/-- The sign bit in place. -/
def withSign (f : Nat) (neg : Bool) (m : Nat) : Nat := if neg then m + 2 ^ (fmtWidth f - 1) else m

/-- Saturation of an unsigned encoding (R65). -/
def saturate (f : Nat) (neg : Bool) (m : Nat) : Elem :=
  if maxFinite f < m then ⟨withSign f neg (maxFinite f), true, false⟩ else ⟨withSign f neg m, false, false⟩

/-- The element written for a NaN (R59). -/
def nanElem (f : Nat) : Elem :=
  match canonNaN f with
  | some b => ⟨b, false, true⟩
  | none => ⟨0, false, true⟩

/-- Least and greatest value of an integer format (R56). -/
def intMin (f : Nat) : Int := -((2 ^ (fmtWidth f - 1) : Nat) : Int)
def intMax (f : Nat) : Int := ((2 ^ (fmtWidth f - 1) : Nat) : Int) - 1

/-- An integer encoded in two's complement. -/
def encodeInt (f : Nat) (v : Int) : Nat := (v % ((2 ^ fmtWidth f : Nat) : Int)).toNat

/-- Clamping into an integer format (R65). -/
def clampInt (f : Nat) (v : Int) : Elem :=
  if v < intMin f then ⟨encodeInt f (intMin f), true, false⟩
  else if intMax f < v then ⟨encodeInt f (intMax f), true, false⟩
  else ⟨encodeInt f v, false, false⟩

/-- `n / d` rounded to the nearest integer, ties to even. -/
def divNE (n : Int) (d : Nat) : Int :=
  let q := n / (d : Int)
  let r := n % (d : Int)
  if (d : Int) < 2 * r then q + 1 else if 2 * r = (d : Int) && q % 2 != 0 then q + 1 else q

/-- A finite value as an integer rounded to nearest even. -/
def roundIntNE (neg : Bool) (m : Nat) (e : Int) : Int :=
  if 0 ≤ e then scaledInt neg m e 0
  else divNE (if neg then -(m : Int) else (m : Int)) (2 ^ (-e).toNat)

/-- The whole steps of a magnitude at spacing exponent `u` and the remainder with its denominator. -/
def stepsOf (m : Nat) (e u : Int) : Nat × Nat × Nat :=
  if u ≤ e then (m * 2 ^ (e - u).toNat, 0, 1)
  else
    let d := 2 ^ (u - e).toNat
    (m / d, m % d, d)

/-- Round to nearest even into any element format (R65); a NaN under R59. -/
def roundNE (f : Nat) : Num → Elem
  | .nan => nanElem f
  | .fin neg m e =>
    if fmtIsInt f then clampInt f (roundIntNE neg m e)
    else if m = 0 then ⟨withSign f neg 0, false, false⟩
    else
      let u := spacingExp f m e
      let (q, r, d) := stepsOf m e u
      let q' := if d < 2 * r then q + 1 else if 2 * r = d && q % 2 == 1 then q + 1 else q
      saturate f neg (stepsEnc f q' u)

/-- Stochastic rounding into a float format with drip bits `d12` (R66). -/
def roundStochFloat (f d12 : Nat) : Num → Elem
  | .nan => nanElem f
  | .fin neg m e =>
    if m = 0 then ⟨withSign f neg 0, false, false⟩
    else
      let u := spacingExp f m e
      let (q, r, d) := stepsOf m e u
      let q' := if 4096 ≤ r * 4096 / d + d12 then q + 1 else q
      saturate f neg (stepsEnc f q' u)

/-- Rounding of `n / 2^sh` into INT16 (R67): stochastic with drip bits, or to nearest even with `rm`. -/
def roundInt16 (rm : Bool) (d12 : Nat) (n : Int) (sh : Nat) : Elem :=
  let d := 2 ^ sh
  if rm then clampInt 2 (divNE n d)
  else
    let t := n / (d : Int)
    let fr := (n % (d : Int)).toNat * 4096 / d
    clampInt 2 (if 4096 ≤ fr + d12 then t + 1 else t)

/-- The rounding of an accumulating operation (R64, R66, R67 with shift 0): RM 1 is to nearest even. -/
def roundAcc (f : Nat) (rm : Bool) (d12 : Nat) (v : Num) : Elem :=
  if rm then roundNE f v
  else if fmtIsInt f then roundNE f v
  else roundStochFloat f d12 v

/-- How an element written counts: 1 NAN, 2 SAT, 3 ZERO, 0 none (R77). -/
def classify (f : Nat) (x : Elem) : Nat :=
  if x.nan || encIsNaN f x.bits then 1
  else if x.sat then 2
  else if f ≠ 11 ∧ (if fmtIsFloat f then magBits f x.bits else x.bits % 2 ^ fmtWidth f) = 0 then 3
  else 0

/-- A plain element: bits moved without arithmetic. -/
def Elem.ofBits (b : Nat) : Elem := ⟨b, false, false⟩

/-- Conversion of one element between formats under R65; equal formats copy bits (R98). -/
def convElem (src dst x : Nat) : Elem := if src = dst then Elem.ofBits x else roundNE dst (decodeNum src x)

/-! ### The drip generator -/

/-- One round of the drip hash (R72). -/
def dripRound (k : Nat) (p : BitVec 32 × BitVec 32) : BitVec 32 × BitVec 32 :=
  let x := p.1 + p.2 + 0x9E3779B9#32
  (x, (p.2.rotateLeft k) ^^^ x)

/-- The drip hash (R72). -/
def drip (seed : BitVec 64) (ident ctr idx : BitVec 32) : BitVec 32 :=
  let x := idx ^^^ seed.extractLsb' 0 32
  let y := ctr ^^^ seed.extractLsb' 32 32 ^^^ ident
  ([7, 13, 19, 25, 5, 11].foldl (fun p k => dripRound k p) (x, y)).2

/-- The 12 drip bits of an element (R72). -/
def dripBits (seed : BitVec 64) (ident ctr idx : Nat) : Nat :=
  ((drip seed (BitVec.ofNat 32 ident) (BitVec.ofNat 32 ctr) (BitVec.ofNat 32 idx)).extractLsb' 20 12).toNat

/-- Drip identities (R69). -/
def identMatrix (c : Nat) : Nat := c
def identVector (c : Nat) : Nat := 1 * 2048 + c
def identSump (c : Nat) : Nat := 2 * 2048 + c
def identSiphon (h : Nat) : Nat := 0x8000 + h * 16
def identSampler (h : Nat) : Nat := 0x8000 + h * 16 + 1

/-! ### Rows of packed elements -/

/-- Element `n` of width `w` of a bit string (R85). -/
def bitElem (w : Nat) (row : Nat) (n : Nat) : Nat := row / 2 ^ (w * n) % 2 ^ w

/-- The first `k` elements of width `w` of a bit string. -/
def bitElems (w k row : Nat) : List Nat := (List.range k).map (bitElem w row)

/-- Elements of width `w` packed from bit 0 (R85). -/
def packElems (w : Nat) : List Nat → Nat
  | [] => 0
  | x :: t => x % 2 ^ w + packElems w t * 2 ^ w

/-- The bytes of a number, lowest first (R6). -/
def natBytes : (n v : Nat) → List Byte
  | 0, _ => []
  | n + 1, v => BitVec.ofNat 8 v :: natBytes n (v / 256)

/-- A number from its bytes, lowest first (R6). -/
def bytesNat : List Byte → Nat
  | [] => 0
  | b :: t => b.toNat + 256 * bytesNat t

/-- A block scale as a power of two; 0xFF is a NaN (R57, R60). -/
def scaleOf (x : Nat) : Option Int := if x = 0xFF then none else some ((x : Int) - 127)

/-- An element under its block scale (R60). -/
def scaledNum (f x : Nat) (scale : Nat) : Num :=
  match scaleOf scale with
  | none => .nan
  | some k => (decodeNum f x).scale k

/-- Exponent of the largest normal value of a scalable format (R68). -/
def mxExp : Nat → Int
  | 3 => 2 | 4 => 2 | 5 => 4 | 6 => 8 | 7 => 15 | _ => 0

/-- `floor(log2 |v|)` of a non-zero finite value. -/
def log2Floor (m : Nat) (e : Int) : Int := (Nat.log2 m : Int) + e

/-- The scale exponent of a block: the largest magnitude's, clamped (R68); none for an all-zero block. -/
def blockExp (f : Nat) : List Num → Option Int
  | [] => none
  | .fin _ m e :: t =>
    if m = 0 then blockExp f t
    else match blockExp f t with
      | none => some (log2Floor m e)
      | some k => some (max k (log2Floor m e))
  | .nan :: t => blockExp f t

/-- Conversion of one block into a block-scaled format: the scale and the elements (R68). -/
def scaleBlock (f : Nat) (l : List Num) : Nat × List Elem :=
  if l.any (fun v => match v with | .nan => true | _ => false) then
    (0xFF, l.map fun v => match v with | .nan => ⟨0, false, true⟩ | _ => ⟨0, false, false⟩)
  else match blockExp f l with
    | none => (0, l.map fun _ => ⟨0, false, false⟩)
    | some g =>
      let x := max (-127) (min 127 (g - mxExp f))
      ((x + 127).toNat, l.map fun v => roundNE f (v.scale (-x)))

/-- A row converted into a block-scaled format: one scale per 32 elements (R60, R68). -/
def scaleRow (f : Nat) : (fuel : Nat) → List Num → List Nat × List Elem
  | 0, _ => ([], [])
  | _, [] => ([], [])
  | k + 1, l =>
    let (s, es) := scaleBlock f (l.take 32)
    let (ss, rest) := scaleRow f k (l.drop 32)
    (s :: ss, es ++ rest)

end Sys2Proof.Machine
end

