-- ==== Sys2Proof/Config.lean ====
section
/-!
DEFINITION. What a part fixes and what the spec leaves open: opaque constants, so that no proof can see a value. Each is
named in the assumption log.
-/
namespace Sys2Proof.Config

/-- The byte that near memory of a key generation reads at an address before anything has written it under that key
(R354): a free value (assumption log 3). -/
opaque nearByte : (gen addr : Nat) → Byte

/-- The byte that the CXL tier reads, likewise (R362): a free value (assumption log 3). -/
opaque cxlByte : (gen addr : Nat) → Byte

/-- Fresh free bytes, by the free-value counter (assumption log 2). -/
opaque freeByte : Nat → Byte

/-- Fresh free numbers, by the free-value counter (assumption log 2). -/
opaque freeNat : Nat → Nat

/-- What failed in column c of hall h at manufacture, in its low four bits: a working row, 12 for the spare, or nothing (R16; assumption
log 9). -/
opaque colmap : (h c : Nat) → Word

/-- IDENT.STEPPING (R53; assumption log 9). -/
opaque stepping : BitVec 16

/-- Fuse SECRET (R404; assumption log 9). -/
opaque secret : BitVec 256

/-- The fuses ROLLBACK, PRODUCTION and REVOKE, where BOOTSTAT shows them: bits 15 to 9, 16 and 20 to 17 (R404, R431; assumption
log 9). The lower bits are not used: slot, fallback and SVN follow from the boot. -/
opaque bootstat : BitVec 21

/-- SM3 of the boot ROM: measurement 1 (R411; assumption log 9). -/
opaque romDigest : List Byte

/-- Fuses VKEY0 to VKEY3 (R404; assumption log 9). -/
opaque vkey : (i : Nat) → List Byte

/-- The module flash as manufactured (R497; assumption log 9). -/
opaque flashByte : (addr : Nat) → Byte

/-- The keys that two keepers agree for a link, of the sending (`tx`) and the receiving direction, by this keeper's static key `d` and
the free-value counter, and what their control flits carry (R369, R371, R435): free values (assumption log 2). -/
opaque linkKey : (d fresh : Nat) → (tx : Bool) → BitVec 128
opaque controlByte : (fresh i : Nat) → Byte

/-- The chain of slot 0, whose last certificate certifies a public key (R405, R417; assumption log 9). -/
opaque certChain : (pub : List Byte) → List Byte

/-- The message that a signed answer's signature covers: what SPDM 1.3 makes of the exchange so far, by the free-value counter, and of
the answer's own content (R417; assumption log 60). -/
opaque transcript : (fresh : Nat) → (content : List Byte) → List Byte

/-- The random numbers of a signature of SM2, by the free-value counter (R417; assumption log 2). -/
opaque signNonce : (fresh try' : Nat) → Nat

end Sys2Proof.Config
end

