-- ==== Sys2Proof/Machine/RegTable.lean ====
section
/-!
DEFINITION. The control registers of every block (R33 to R35 and the register tables of the chapters): for each block and
page of the block its registers with offset, repetition, access code (R7), defined bits and reset value. A bit outside the
mask is reserved. Offsets without a row are reserved (R8). Where the spec gives a register no reset value the row holds 0
(assumption log 4); `Machine/Ops.lean` adds the registers whose reset value is per part.
-/
namespace Sys2Proof.Machine

/-- The access codes of R7. -/
inductive Acc where
  /-- read only -/
  | ro
  /-- read and write, acting at once -/
  | rw
  /-- read and write of the staged area -/
  | rws
  /-- write only, reads zero -/
  | wo
  /-- read clears -/
  | rc
deriving DecidableEq, Repr

/-- One row of a register table: `count` registers, `stride` bytes apart, from offset `base`. -/
structure RegRow where
  name : String
  base : Nat
  stride : Nat
  count : Nat
  acc : Acc
  mask : Nat
  wide : Bool
  reset : Nat
deriving DecidableEq, Repr

/-- The blocks of the page map (R33 to R35). -/
inductive Block where
  | keeper | ident | power | clock | security | yarlink | host | cxl
  | hall | memctl | siphon | sort | sampler | squeeze | cipher | hdma
  | barrier | chimney | seal | progress | router
  | core | channel | tally | lantern
deriving DecidableEq, Repr

/-- Registers of the KEEPER block, page ordinal 0 (R21, R40). -/
def regsKeeper0 : List RegRow := [
  ⟨"PART_LAYOUT", 0x100, 0, 1, .rws, 0x7, false, 0x7⟩,
  ⟨"PART_LIVE", 0x800, 0, 1, .ro, 0x7, false, 0x7⟩,
  ⟨"ACC_ADDR_LO", 0x840, 0, 1, .ro, 0xFFFFFFFF, false, 0x0⟩,
  ⟨"ACC_ADDR_HI", 0x844, 0, 1, .ro, 0xFFFF, false, 0x0⟩,
  ⟨"ACC_SRC", 0x848, 0, 1, .ro, 0x3FFFF, false, 0x0⟩]

/-- Registers of the IDENT block, page ordinal 0 (R53). -/
def regsIdent0 : List RegRow := [
  ⟨"IDENT_0x800", 0x800, 0, 1, .ro, 0xFFFFFFFF, false, 0xF240808⟩,
  ⟨"IDENT_0x804", 0x804, 0, 1, .ro, 0xFFFFFFFF, false, 0x900480⟩,
  ⟨"IDENT_0x808", 0x808, 0, 1, .ro, 0xFFFFFFFF, false, 0x4800C0⟩,
  ⟨"IDENT_0x80C", 0x80C, 0, 1, .ro, 0xFFFFFF, false, 0x10020C⟩,
  ⟨"IDENT_0x810", 0x810, 0, 1, .ro, 0xFFFF, false, 0x0⟩]

/-- Registers of the POWER block, page ordinal 0 (R474, R477). -/
def regsPower0 : List RegRow := [
  ⟨"PCAP", 0x100, 0, 1, .rws, 0x7FF, false, 0x578⟩,
  ⟨"PCEIL", 0x104, 0, 1, .rws, 0x77, false, 0x30⟩,
  ⟨"PSTAT", 0x800, 0, 1, .ro, 0xFFFFF, false, 0x0⟩,
  ⟨"ENERGY", 0x808, 0, 1, .ro, 0xFFFFFFFFFFFFFFFF, true, 0x0⟩,
  ⟨"PWR_INT", 0x810, 0, 1, .ro, 0xFFFFFFFF, false, 0x0⟩,
  ⟨"PWR_WIN", 0x814, 0, 1, .ro, 0xFFFFFFFF, false, 0x0⟩,
  ⟨"SUPPLY", 0x818, 0, 1, .ro, 0xFFFFFFFF, false, 0x0⟩,
  ⟨"TJMAX", 0x81C, 0, 1, .ro, 0xFFF, false, 0x0⟩,
  ⟨"TJh", 0x820, 4, 8, .ro, 0xFFFFFF, false, 0x0⟩]

/-- Registers of the POWER block, page ordinal 1 (R478). -/
def regsPower1 : List RegRow := [
  ⟨"THRr_ENT", 0x800, 16, 5, .ro, 0xFFFFFFFF, false, 0x0⟩,
  ⟨"THRr_CYC", 0x808, 16, 5, .ro, 0xFFFFFFFFFFFF, true, 0x0⟩,
  ⟨"RESs", 0x880, 8, 5, .ro, 0xFFFFFFFFFFFFFFFF, true, 0x0⟩,
  ⟨"STRETCH_EVh", 0x900, 16, 8, .ro, 0xFFFFFFFFFFFFFFFF, true, 0x0⟩,
  ⟨"STRETCH_CYCh", 0x908, 16, 8, .ro, 0xFFFFFFFFFFFFFFFF, true, 0x0⟩]

/-- Registers of the CLOCK block, page ordinal 0 (R479). -/
def regsClock0 : List RegRow := [
  ⟨"CKSTAT", 0x800, 0, 1, .ro, 0x3F03, false, 0x800⟩,
  ⟨"MODRST", 0x810, 0, 1, .wo, 0xFFFF, false, 0x0⟩]

/-- Registers of the SECURITY block, page ordinal 0 (R423, R431). -/
def regsSecurity0 : List RegRow := [
  ⟨"HALLSECh", 0x800, 4, 8, .ro, 0xFFFF000F, false, 0x0⟩,
  ⟨"BOOTSTAT", 0x820, 0, 1, .ro, 0x1FFFFF, false, 0x0⟩,
  ⟨"ROLLFWD", 0x824, 0, 1, .wo, 0x7F, false, 0x0⟩,
  ⟨"SCRUB_REQ", 0x830, 0, 1, .wo, 0xFF, false, 0x0⟩,
  ⟨"HALLCFGh", 0x100, 4, 8, .rws, 0x1, false, 0x0⟩]

/-- Registers of the SECURITY block, page ordinal 1 (R415). -/
def regsSecurity1 : List RegRow := [
  ⟨"MSEL", 0x800, 0, 1, .rw, 0xFF, false, 0x0⟩,
  ⟨"MINFO", 0x804, 0, 1, .ro, 0x1FFFF, false, 0x0⟩,
  ⟨"MVALw", 0x820, 4, 8, .ro, 0xFFFFFFFF, false, 0x0⟩]

/-- Registers of the SECURITY block, page ordinal 2 (R429). -/
def regsSecurity2 : List RegRow := [
  ⟨"SCRUBREC", 0x800, 4, 64, .ro, 0xFFFFFFFF, false, 0x0⟩]

/-- Registers of the SECURITY block, page ordinal 3 (R432). -/
def regsSecurity3 : List RegRow := [
  ⟨"UPD_CTL", 0x800, 0, 1, .wo, 0xF, false, 0x0⟩,
  ⟨"UPD_DATA", 0x804, 0, 1, .wo, 0xFFFFFFFF, false, 0x0⟩,
  ⟨"UPD_STAT", 0x808, 0, 1, .ro, 0xFF07, false, 0x0⟩,
  ⟨"UPD_LEN", 0x80C, 0, 1, .ro, 0x1FFFFFF, false, 0x0⟩,
  ⟨"UPD_DROPPED", 0x810, 0, 1, .ro, 0xFFFFFFFF, false, 0x0⟩]

/-- Registers of the YARLINK block, page ordinal 0 (R367, R384). -/
def regsYarlink0 : List RegRow := [
  ⟨"YCFG", 0x100, 0, 1, .rws, 0x7, false, 0x0⟩,
  ⟨"MYID", 0x104, 0, 1, .rws, 0x3FFFF, false, 0x0⟩,
  ⟨"PEER", 0x108, 0, 1, .rws, 0x7FFFF, false, 0x0⟩,
  ⟨"XBARb", 0x180, 4, 16, .rws, 0x3, false, 0x0⟩,
  ⟨"GRTw", 0x200, 4, 128, .rws, 0x8FFF8FFF, false, 0x0⟩,
  ⟨"MRTw", 0x400, 4, 256, .rws, 0x8F8F8F8F, false, 0x0⟩,
  ⟨"PSTAT", 0x800, 0, 1, .ro, 0x7FFF, false, 0x0⟩,
  ⟨"PEER_LIVE", 0x804, 0, 1, .ro, 0x7FFFF, false, 0x0⟩,
  ⟨"KEY_EPOCH", 0x808, 0, 1, .ro, 0xFFFFFFFF, false, 0x0⟩,
  ⟨"TX_FLITS", 0x810, 0, 1, .ro, 0xFFFFFFFFFFFFFFFF, true, 0x0⟩,
  ⟨"RX_FLITS", 0x818, 0, 1, .ro, 0xFFFFFFFFFFFFFFFF, true, 0x0⟩,
  ⟨"FEC_CORR", 0x820, 0, 1, .ro, 0xFFFFFFFFFFFFFFFF, true, 0x0⟩,
  ⟨"FEC_UNCORR", 0x828, 0, 1, .ro, 0xFFFFFFFF, false, 0x0⟩,
  ⟨"CRC_ERR", 0x82C, 0, 1, .ro, 0xFFFFFFFF, false, 0x0⟩,
  ⟨"TAG_FAIL", 0x830, 0, 1, .ro, 0xFFFFFFFF, false, 0x0⟩,
  ⟨"RETRIES", 0x834, 0, 1, .ro, 0xFFFFFFFF, false, 0x0⟩,
  ⟨"DEGRADES", 0x838, 0, 1, .ro, 0xFFFFFFFF, false, 0x0⟩,
  ⟨"NOROUTE", 0x83C, 0, 1, .ro, 0xFFFFFFFF, false, 0x0⟩,
  ⟨"DROP_PART", 0x840, 0, 1, .ro, 0xFFFFFFFF, false, 0x0⟩,
  ⟨"CRED_STALLc", 0x848, 8, 4, .ro, 0xFFFFFFFFFFFFFFFF, true, 0x0⟩,
  ⟨"TX_PKTc", 0x868, 8, 4, .ro, 0xFFFFFFFFFFFFFFFF, true, 0x0⟩]

/-- Registers of the HOST block, page ordinal 0 (R392, R393, R394). -/
def regsHost0 : List RegRow := [
  ⟨"SQ_BASE_LO", 0x100, 0, 1, .rws, 0xFFFFFFC0, false, 0x0⟩,
  ⟨"SQ_BASE_HI", 0x104, 0, 1, .rws, 0xFFFFFFFF, false, 0x0⟩,
  ⟨"SQ_CFG", 0x108, 0, 1, .rws, 0x1FFF, false, 0x0⟩,
  ⟨"DB_TGT", 0x10C, 0, 1, .rws, 0xFFFF, false, 0x0⟩,
  ⟨"CQ_BASE_LO", 0x110, 0, 1, .rws, 0xFFFFFFE0, false, 0x0⟩,
  ⟨"CQ_BASE_HI", 0x114, 0, 1, .rws, 0xFFFFFFFF, false, 0x0⟩,
  ⟨"CQ_CFG", 0x118, 0, 1, .rws, 0x3FFF, false, 0x0⟩,
  ⟨"SQ_TAIL", 0x800, 0, 1, .rw, 0x1FFF, false, 0x0⟩,
  ⟨"SQ_HEAD", 0x804, 0, 1, .rw, 0x1FFF, false, 0x0⟩,
  ⟨"CQ_HEAD", 0x808, 0, 1, .rw, 0x1FFF, false, 0x0⟩,
  ⟨"CQ_TAIL", 0x80C, 0, 1, .ro, 0x11FFF, false, 0x10000⟩,
  ⟨"CQ_POST", 0x810, 0, 1, .wo, 0xFFFFFF1, false, 0x0⟩,
  ⟨"RAISE", 0x814, 0, 1, .wo, 0x3, false, 0x0⟩,
  ⟨"FSTAT", 0x820, 0, 1, .ro, 0xF, false, 0x0⟩,
  ⟨"POSTS", 0x828, 0, 1, .ro, 0xFFFFFFFFFFFFFFFF, true, 0x0⟩,
  ⟨"DOORBELLS", 0x830, 0, 1, .ro, 0xFFFFFFFFFFFFFFFF, true, 0x0⟩,
  ⟨"MSIXe_ADDR_LO", 0xE00, 16, 4, .rw, 0xFFFFFFFC, false, 0x0⟩,
  ⟨"MSIXe_ADDR_HI", 0xE04, 16, 4, .rw, 0xFFFFFFFF, false, 0x0⟩,
  ⟨"MSIXe_DATA", 0xE08, 16, 4, .rw, 0xFFFFFFFF, false, 0x0⟩,
  ⟨"MSIXe_CTL", 0xE0C, 16, 4, .rw, 0x1, false, 0x1⟩,
  ⟨"MSIX_PBA", 0xE40, 0, 1, .ro, 0xF, false, 0x0⟩,
  ⟨"MSIX_PBA_HI", 0xE44, 0, 1, .ro, 0x0, false, 0x0⟩]

/-- Registers of the HOST0 block, page ordinal 0 (R394, R403). -/
def regsHost00 : List RegRow := [
  ⟨"LSTAT", 0xC00, 0, 1, .ro, 0x1FF, false, 0x0⟩,
  ⟨"RX_TLP", 0xC08, 0, 1, .ro, 0xFFFFFFFFFFFFFFFF, true, 0x0⟩,
  ⟨"TX_TLP", 0xC10, 0, 1, .ro, 0xFFFFFFFFFFFFFFFF, true, 0x0⟩,
  ⟨"REPLAYS", 0xC18, 0, 1, .ro, 0xFFFFFFFFFFFFFFFF, true, 0x0⟩,
  ⟨"BAR2_REFUSED", 0xC20, 0, 1, .ro, 0xFFFFFFFF, false, 0x0⟩,
  ⟨"PF_MSIXe_ADDR_LO", 0xD00, 16, 16, .rw, 0xFFFFFFFC, false, 0x0⟩,
  ⟨"PF_MSIXe_ADDR_HI", 0xD04, 16, 16, .rw, 0xFFFFFFFF, false, 0x0⟩,
  ⟨"PF_MSIXe_DATA", 0xD08, 16, 16, .rw, 0xFFFFFFFF, false, 0x0⟩,
  ⟨"PF_MSIXe_CTL", 0xD0C, 16, 16, .rw, 0x1, false, 0x1⟩,
  ⟨"PF_MSIX_PBA", 0xCF0, 0, 1, .ro, 0xFFFF, false, 0x0⟩,
  ⟨"PF_MSIX_PBA_HI", 0xCF4, 0, 1, .ro, 0x0, false, 0x0⟩]

/-- Registers of the CXL block, page ordinal 0 (R360, R364). -/
def regsCxl0 : List RegRow := [
  ⟨"PCFG", 0x100, 0, 1, .rws, 0x1F, false, 0x0⟩,
  ⟨"LINKl", 0x800, 4, 4, .ro, 0x1FFFFFF, false, 0x0⟩,
  ⟨"RD_BURSTS", 0x840, 0, 1, .ro, 0xFFFFFFFFFFFFFFFF, true, 0x0⟩,
  ⟨"WR_BURSTS", 0x848, 0, 1, .ro, 0xFFFFFFFFFFFFFFFF, true, 0x0⟩,
  ⟨"POISON", 0x850, 0, 1, .ro, 0xFFFFFFFF, false, 0x0⟩,
  ⟨"CRC_RETRY", 0x854, 0, 1, .ro, 0xFFFFFFFF, false, 0x0⟩,
  ⟨"TIMEOUT", 0x858, 0, 1, .ro, 0xFFFFFFFF, false, 0x0⟩]

/-- Registers of the CXL block, page ordinal 1 (R361). -/
def regsCxl1 : List RegRow := [
  ⟨"DRANGE", 0x100, 16, 8, .rws, 0xFFFFFFFF, false, 0x0⟩,
  ⟨"DCFG", 0x104, 16, 8, .rws, 0x3FF, false, 0x0⟩,
  ⟨"DTGT", 0x108, 16, 8, .rws, 0x77777777, false, 0x0⟩,
  ⟨"DDPA", 0x10C, 16, 8, .rws, 0xFFFF, false, 0x0⟩]

/-- Registers of the HALL block, page ordinal 0 (R16, R40, R73, R156, R228, R242, R253). -/
def regsHall0 : List RegRow := [
  ⟨"COLMAPc", 0x800, 4, 12, .ro, 0x1FFF003F, false, 0x0⟩,
  ⟨"ACC_ADDR_LO", 0x840, 0, 1, .ro, 0xFFFFFFFF, false, 0x0⟩,
  ⟨"ACC_ADDR_HI", 0x844, 0, 1, .ro, 0xFFFF, false, 0x0⟩,
  ⟨"ACC_SRC", 0x848, 0, 1, .ro, 0x3FFFF, false, 0x0⟩,
  ⟨"SEED_LO", 0x180, 0, 1, .rws, 0xFFFFFFFF, false, 0x0⟩,
  ⟨"SEED_HI", 0x184, 0, 1, .rws, 0xFFFFFFFF, false, 0x0⟩,
  ⟨"SEED_LIVE_LO", 0x880, 0, 1, .ro, 0xFFFFFFFF, false, 0x0⟩,
  ⟨"SEED_LIVE_HI", 0x884, 0, 1, .ro, 0xFFFFFFFF, false, 0x0⟩,
  ⟨"BOOT_LO", 0x188, 0, 1, .rws, 0xFFFFFFFF, false, 0x0⟩,
  ⟨"BOOT_HI", 0x18C, 0, 1, .rws, 0xFFFF, false, 0x0⟩,
  ⟨"BOOT_LIVE_LO", 0x890, 0, 1, .ro, 0xFFFFFFFF, false, 0x0⟩,
  ⟨"BOOT_LIVE_HI", 0x894, 0, 1, .ro, 0xFFFF, false, 0x0⟩,
  ⟨"BOOT_FAIL", 0x898, 0, 1, .ro, 0x3FFF, false, 0x0⟩,
  ⟨"EXTERR", 0x8C0, 0, 1, .rc, 0x3FFF, false, 0x0⟩,
  ⟨"SALT", 0x8A0, 0, 1, .rw, 0xFFFF, false, 0x0⟩,
  ⟨"GBANKb_ACC", 0xA00, 16, 64, .ro, 0xFFFFFFFFFFFFFFFF, true, 0x0⟩,
  ⟨"GBANKb_CONF", 0xA08, 16, 64, .ro, 0xFFFFFFFFFFFFFFFF, true, 0x0⟩,
  ⟨"GGRPg_MERGE", 0xE00, 8, 16, .ro, 0xFFFFFFFFFFFFFFFF, true, 0x0⟩,
  ⟨"GPROMO", 0xE80, 0, 1, .ro, 0xFFFFFFFFFFFFFFFF, true, 0x0⟩,
  ⟨"GAL_CE", 0xE88, 0, 1, .ro, 0xFFFFFFFF, false, 0x0⟩,
  ⟨"GAL_UE", 0xE8C, 0, 1, .ro, 0xFFFFFFFF, false, 0x0⟩]

/-- Registers of the MEMCTL block, page ordinal 0 (R357, R442). Part 1. -/
def regsMemctl0a : List RegRow := [
  ⟨"MCFG", 0x100, 0, 1, .rws, 0xF, false, 0xC⟩,
  ⟨"MSTAT", 0x800, 0, 1, .ro, 0x1FF, false, 0x0⟩,
  ⟨"RD_BURSTS", 0x808, 0, 1, .ro, 0xFFFFFFFFFFFFFFFF, true, 0x0⟩,
  ⟨"WR_BURSTS", 0x810, 0, 1, .ro, 0xFFFFFFFFFFFFFFFF, true, 0x0⟩,
  ⟨"CE", 0x818, 0, 1, .ro, 0xFFFFFFFF, false, 0x0⟩,
  ⟨"UE", 0x81C, 0, 1, .ro, 0xFFFFFFFF, false, 0x0⟩,
  ⟨"CRC_RETRY", 0x820, 0, 1, .ro, 0xFFFFFFFF, false, 0x0⟩,
  ⟨"RETRAIN", 0x824, 0, 1, .ro, 0xFFFFFFFF, false, 0x0⟩,
  ⟨"UE_ADDR_LO", 0x828, 0, 1, .ro, 0xFFFFFFFF, false, 0x0⟩,
  ⟨"UE_ADDR_HI", 0x82C, 0, 1, .ro, 0x1F, false, 0x0⟩,
  ⟨"HOLDS", 0x840, 0, 1, .ro, 0xFFFFFFFFFFFFFFFF, true, 0x0⟩,
  ⟨"HOLD_CYC", 0x848, 0, 1, .ro, 0xFFFFFFFFFFFFFFFF, true, 0x0⟩,
  ⟨"TB_SEL", 0x880, 0, 1, .rw, 0xFFFF, false, 0x0⟩,
  ⟨"TB_WORD", 0x884, 0, 1, .ro, 0xFFFFFFFF, false, 0x0⟩,
  ⟨"TB_COUNT", 0x888, 0, 1, .ro, 0x1FFFFF, false, 0x0⟩,
  ⟨"CDESTs_LO", 0x140, 32, 2, .rws, 0xFFFFFFFF, false, 0x0⟩,
  ⟨"CDESTs_HI", 0x144, 32, 2, .rws, 0xFFFF, false, 0x0⟩,
  ⟨"CMODs", 0x148, 32, 2, .rws, 0x7FFFF, false, 0x0⟩,
  ⟨"CSIZEs", 0x14C, 32, 2, .rws, 0xFFFFFFFF, false, 0x0⟩,
  ⟨"NRr_FIRST", 0x180, 8, 8, .rws, 0x1FFFFF, false, 0x0⟩,
  ⟨"NRr_COUNT", 0x184, 8, 8, .rws, 0x3FFFFF, false, 0x0⟩,
  ⟨"GRr_FIRST", 0x1C0, 8, 8, .rws, 0xFFFF, false, 0x0⟩,
  ⟨"GRr_COUNT", 0x1C4, 8, 8, .rws, 0x1FFFF, false, 0x0⟩,
  ⟨"CCFG", 0x200, 0, 1, .rws, 0x1FFFF, false, 0x0⟩]

/-- Registers of the MEMCTL block, page ordinal 0 (R443). Part 2. -/
def regsMemctl0b : List RegRow := [
  ⟨"CGO", 0x900, 0, 1, .wo, 0x3, false, 0x0⟩,
  ⟨"CSTAT", 0x904, 0, 1, .ro, 0xF1F, false, 0x0⟩,
  ⟨"CSTEP", 0x908, 0, 1, .rw, 0xFFFFFFFFFFFFFFFF, true, 0x0⟩,
  ⟨"CLEFT", 0x910, 0, 1, .ro, 0xFFFFFFFF, false, 0x0⟩,
  ⟨"CSEQ", 0x914, 0, 1, .ro, 0xFFFFFFFF, false, 0x0⟩,
  ⟨"CBYTES", 0x918, 0, 1, .ro, 0xFFFFFFFFFFFFFFFF, true, 0x0⟩,
  ⟨"CKEYw", 0x920, 4, 8, .wo, 0xFFFFFFFF, false, 0x0⟩,
  ⟨"CKCTL", 0x940, 0, 1, .wo, 0x3, false, 0x0⟩,
  ⟨"CKSTAT", 0x944, 0, 1, .ro, 0x1, false, 0x0⟩,
  ⟨"CKCV", 0x948, 0, 1, .ro, 0xFFFFFFFFFFFFFFFF, true, 0x0⟩,
  ⟨"RESTORE", 0x950, 0, 1, .wo, 0x3, false, 0x0⟩,
  ⟨"RSTAT", 0x954, 0, 1, .ro, 0xF3, false, 0x0⟩,
  ⟨"RSTEP", 0x958, 0, 1, .ro, 0xFFFFFFFFFFFFFFFF, true, 0x0⟩,
  ⟨"GHOLDS", 0x960, 0, 1, .ro, 0xFFFFFFFFFFFFFFFF, true, 0x0⟩]

/-- All registers of the MEMCTL block, page ordinal 0. -/
def regsMemctl0 : List RegRow := regsMemctl0a ++ regsMemctl0b

/-- Registers of the SIPHON block, page ordinal 0 (R74, R79, R318, R319). -/
def regsSiphon0 : List RegRow := [
  ⟨"TALLY_CLR", 0xF00, 0, 1, .wo, 0xFFFE, false, 0x0⟩,
  ⟨"TALLY_NZ", 0xF04, 0, 1, .ro, 0xFFFE, false, 0x0⟩,
  ⟨"ZERO_s", 0xF10, 16, 15, .ro, 0xFFFFFFFF, false, 0x0⟩,
  ⟨"SAT_s", 0xF14, 16, 15, .ro, 0xFFFFFFFF, false, 0x0⟩,
  ⟨"NAN_s", 0xF18, 16, 15, .ro, 0xFFFFFFFF, false, 0x0⟩,
  ⟨"Qq_BASE_LO", 0x100, 16, 4, .rws, 0xFFFFFFC0, false, 0x0⟩,
  ⟨"Qq_BASE_HI", 0x104, 16, 4, .rws, 0xFFFF, false, 0x0⟩,
  ⟨"Qq_CFG", 0x108, 16, 4, .rws, 0x1FF, false, 0x0⟩,
  ⟨"Qq_PROD", 0x800, 16, 4, .rw, 0x1FF, false, 0x0⟩,
  ⟨"Qq_CONS", 0x804, 16, 4, .ro, 0x1FF, false, 0x0⟩,
  ⟨"Qq_STAT", 0x808, 16, 4, .ro, 0x3FF, false, 0x0⟩,
  ⟨"Qq_CTL", 0x80C, 16, 4, .wo, 0x7, false, 0x0⟩,
  ⟨"ENG_BUSY", 0x840, 0, 1, .ro, 0xFFFFFFFFFFFFFFFF, true, 0x0⟩,
  ⟨"DESC_DONE", 0x848, 0, 1, .ro, 0xFFFFFFFFFFFFFFFF, true, 0x0⟩,
  ⟨"DESC_STOP", 0x850, 0, 1, .ro, 0xFFFFFFFF, false, 0x0⟩,
  ⟨"DRIP", 0x8F0, 0, 1, .rw, 0xFFFFFFFF, false, 0x0⟩]

/-- Registers of the SIPHON block, page ordinal 1 (R331). -/
def regsSiphon1 : List RegRow := [
  ⟨"TBASE_LO", 0x100, 64, 16, .rws, 0xFFFFFFFF, false, 0x0⟩,
  ⟨"TBASE_HI", 0x104, 64, 16, .rws, 0xFFFF, false, 0x0⟩,
  ⟨"TROWS_LO", 0x108, 64, 16, .rws, 0xFFFFFFFF, false, 0x0⟩,
  ⟨"TROWS_HI", 0x10C, 64, 16, .rws, 0xFF, false, 0x0⟩,
  ⟨"TCFG", 0x110, 64, 16, .rws, 0x3FFF, false, 0x0⟩,
  ⟨"TSTRIDE", 0x114, 64, 16, .rws, 0xFFFFFFFF, false, 0x0⟩,
  ⟨"RMAP_LO", 0x118, 64, 16, .rws, 0xFFFFFFC0, false, 0x0⟩,
  ⟨"RMAP_HI", 0x11C, 64, 16, .rws, 0x1FFFFF, false, 0x0⟩,
  ⟨"SLOT_LO", 0x120, 64, 16, .rws, 0xFFFFFFC0, false, 0x0⟩,
  ⟨"SLOT_HI", 0x124, 64, 16, .rws, 0xFFFF, false, 0x0⟩,
  ⟨"NSLOTS", 0x128, 64, 16, .rws, 0xFFFFFF, false, 0x0⟩]

/-- Registers of the SIPHON block, page ordinal 2 (R333). -/
def regsSiphon2 : List RegRow := [
  ⟨"REMAP_HITt", 0x800, 16, 16, .ro, 0xFFFFFFFFFFFFFFFF, true, 0x0⟩,
  ⟨"REMAP_MISSt", 0x808, 16, 16, .ro, 0xFFFFFFFFFFFFFFFF, true, 0x0⟩]

/-- Registers of the SORT block, page ordinal 0 (R79, R318, R319). -/
def regsSort0 : List RegRow := [
  ⟨"TALLY_CLR", 0xF00, 0, 1, .wo, 0xFFFE, false, 0x0⟩,
  ⟨"TALLY_NZ", 0xF04, 0, 1, .ro, 0xFFFE, false, 0x0⟩,
  ⟨"ZERO_s", 0xF10, 16, 15, .ro, 0xFFFFFFFF, false, 0x0⟩,
  ⟨"SAT_s", 0xF14, 16, 15, .ro, 0xFFFFFFFF, false, 0x0⟩,
  ⟨"NAN_s", 0xF18, 16, 15, .ro, 0xFFFFFFFF, false, 0x0⟩,
  ⟨"Qq_BASE_LO", 0x100, 16, 4, .rws, 0xFFFFFFC0, false, 0x0⟩,
  ⟨"Qq_BASE_HI", 0x104, 16, 4, .rws, 0xFFFF, false, 0x0⟩,
  ⟨"Qq_CFG", 0x108, 16, 4, .rws, 0x1FF, false, 0x0⟩,
  ⟨"Qq_PROD", 0x800, 16, 4, .rw, 0x1FF, false, 0x0⟩,
  ⟨"Qq_CONS", 0x804, 16, 4, .ro, 0x1FF, false, 0x0⟩,
  ⟨"Qq_STAT", 0x808, 16, 4, .ro, 0x3FF, false, 0x0⟩,
  ⟨"Qq_CTL", 0x80C, 16, 4, .wo, 0x7, false, 0x0⟩,
  ⟨"ENG_BUSY", 0x840, 0, 1, .ro, 0xFFFFFFFFFFFFFFFF, true, 0x0⟩,
  ⟨"DESC_DONE", 0x848, 0, 1, .ro, 0xFFFFFFFFFFFFFFFF, true, 0x0⟩,
  ⟨"DESC_STOP", 0x850, 0, 1, .ro, 0xFFFFFFFF, false, 0x0⟩]

/-- Registers of the SAMPLER block, page ordinal 0 (R74, R79, R318, R319). -/
def regsSampler0 : List RegRow := [
  ⟨"TALLY_CLR", 0xF00, 0, 1, .wo, 0xFFFE, false, 0x0⟩,
  ⟨"TALLY_NZ", 0xF04, 0, 1, .ro, 0xFFFE, false, 0x0⟩,
  ⟨"ZERO_s", 0xF10, 16, 15, .ro, 0xFFFFFFFF, false, 0x0⟩,
  ⟨"SAT_s", 0xF14, 16, 15, .ro, 0xFFFFFFFF, false, 0x0⟩,
  ⟨"NAN_s", 0xF18, 16, 15, .ro, 0xFFFFFFFF, false, 0x0⟩,
  ⟨"Qq_BASE_LO", 0x100, 16, 4, .rws, 0xFFFFFFC0, false, 0x0⟩,
  ⟨"Qq_BASE_HI", 0x104, 16, 4, .rws, 0xFFFF, false, 0x0⟩,
  ⟨"Qq_CFG", 0x108, 16, 4, .rws, 0x1FF, false, 0x0⟩,
  ⟨"Qq_PROD", 0x800, 16, 4, .rw, 0x1FF, false, 0x0⟩,
  ⟨"Qq_CONS", 0x804, 16, 4, .ro, 0x1FF, false, 0x0⟩,
  ⟨"Qq_STAT", 0x808, 16, 4, .ro, 0x3FF, false, 0x0⟩,
  ⟨"Qq_CTL", 0x80C, 16, 4, .wo, 0x7, false, 0x0⟩,
  ⟨"ENG_BUSY", 0x840, 0, 1, .ro, 0xFFFFFFFFFFFFFFFF, true, 0x0⟩,
  ⟨"DESC_DONE", 0x848, 0, 1, .ro, 0xFFFFFFFFFFFFFFFF, true, 0x0⟩,
  ⟨"DESC_STOP", 0x850, 0, 1, .ro, 0xFFFFFFFF, false, 0x0⟩,
  ⟨"DRIP", 0x8F0, 0, 1, .rw, 0xFFFFFFFF, false, 0x0⟩]

/-- Registers of the SQUEEZE block, page ordinal 0 (R79, R318, R319). -/
def regsSqueeze0 : List RegRow := [
  ⟨"TALLY_CLR", 0xF00, 0, 1, .wo, 0xFFFE, false, 0x0⟩,
  ⟨"TALLY_NZ", 0xF04, 0, 1, .ro, 0xFFFE, false, 0x0⟩,
  ⟨"ZERO_s", 0xF10, 16, 15, .ro, 0xFFFFFFFF, false, 0x0⟩,
  ⟨"SAT_s", 0xF14, 16, 15, .ro, 0xFFFFFFFF, false, 0x0⟩,
  ⟨"NAN_s", 0xF18, 16, 15, .ro, 0xFFFFFFFF, false, 0x0⟩,
  ⟨"Qq_BASE_LO", 0x100, 16, 4, .rws, 0xFFFFFFC0, false, 0x0⟩,
  ⟨"Qq_BASE_HI", 0x104, 16, 4, .rws, 0xFFFF, false, 0x0⟩,
  ⟨"Qq_CFG", 0x108, 16, 4, .rws, 0x1FF, false, 0x0⟩,
  ⟨"Qq_PROD", 0x800, 16, 4, .rw, 0x1FF, false, 0x0⟩,
  ⟨"Qq_CONS", 0x804, 16, 4, .ro, 0x1FF, false, 0x0⟩,
  ⟨"Qq_STAT", 0x808, 16, 4, .ro, 0x3FF, false, 0x0⟩,
  ⟨"Qq_CTL", 0x80C, 16, 4, .wo, 0x7, false, 0x0⟩,
  ⟨"ENG_BUSY", 0x840, 0, 1, .ro, 0xFFFFFFFFFFFFFFFF, true, 0x0⟩,
  ⟨"DESC_DONE", 0x848, 0, 1, .ro, 0xFFFFFFFFFFFFFFFF, true, 0x0⟩,
  ⟨"DESC_STOP", 0x850, 0, 1, .ro, 0xFFFFFFFF, false, 0x0⟩]

/-- Registers of the CIPHER block, page ordinal 0 (R79, R318, R319). -/
def regsCipher0 : List RegRow := [
  ⟨"TALLY_CLR", 0xF00, 0, 1, .wo, 0xFFFE, false, 0x0⟩,
  ⟨"TALLY_NZ", 0xF04, 0, 1, .ro, 0xFFFE, false, 0x0⟩,
  ⟨"ZERO_s", 0xF10, 16, 15, .ro, 0xFFFFFFFF, false, 0x0⟩,
  ⟨"SAT_s", 0xF14, 16, 15, .ro, 0xFFFFFFFF, false, 0x0⟩,
  ⟨"NAN_s", 0xF18, 16, 15, .ro, 0xFFFFFFFF, false, 0x0⟩,
  ⟨"Qq_BASE_LO", 0x100, 16, 4, .rws, 0xFFFFFFC0, false, 0x0⟩,
  ⟨"Qq_BASE_HI", 0x104, 16, 4, .rws, 0xFFFF, false, 0x0⟩,
  ⟨"Qq_CFG", 0x108, 16, 4, .rws, 0x1FF, false, 0x0⟩,
  ⟨"Qq_PROD", 0x800, 16, 4, .rw, 0x1FF, false, 0x0⟩,
  ⟨"Qq_CONS", 0x804, 16, 4, .ro, 0x1FF, false, 0x0⟩,
  ⟨"Qq_STAT", 0x808, 16, 4, .ro, 0x3FF, false, 0x0⟩,
  ⟨"Qq_CTL", 0x80C, 16, 4, .wo, 0x7, false, 0x0⟩,
  ⟨"ENG_BUSY", 0x840, 0, 1, .ro, 0xFFFFFFFFFFFFFFFF, true, 0x0⟩,
  ⟨"DESC_DONE", 0x848, 0, 1, .ro, 0xFFFFFFFFFFFFFFFF, true, 0x0⟩,
  ⟨"DESC_STOP", 0x850, 0, 1, .ro, 0xFFFFFFFF, false, 0x0⟩]

/-- Registers of the HDMA block, page ordinal 0 (R79, R318, R319). -/
def regsHdma0 : List RegRow := [
  ⟨"TALLY_CLR", 0xF00, 0, 1, .wo, 0xFFFE, false, 0x0⟩,
  ⟨"TALLY_NZ", 0xF04, 0, 1, .ro, 0xFFFE, false, 0x0⟩,
  ⟨"ZERO_s", 0xF10, 16, 15, .ro, 0xFFFFFFFF, false, 0x0⟩,
  ⟨"SAT_s", 0xF14, 16, 15, .ro, 0xFFFFFFFF, false, 0x0⟩,
  ⟨"NAN_s", 0xF18, 16, 15, .ro, 0xFFFFFFFF, false, 0x0⟩,
  ⟨"Qq_BASE_LO", 0x100, 16, 4, .rws, 0xFFFFFFC0, false, 0x0⟩,
  ⟨"Qq_BASE_HI", 0x104, 16, 4, .rws, 0xFFFF, false, 0x0⟩,
  ⟨"Qq_CFG", 0x108, 16, 4, .rws, 0x1FF, false, 0x0⟩,
  ⟨"Qq_PROD", 0x800, 16, 4, .rw, 0x1FF, false, 0x0⟩,
  ⟨"Qq_CONS", 0x804, 16, 4, .ro, 0x1FF, false, 0x0⟩,
  ⟨"Qq_STAT", 0x808, 16, 4, .ro, 0x3FF, false, 0x0⟩,
  ⟨"Qq_CTL", 0x80C, 16, 4, .wo, 0x7, false, 0x0⟩,
  ⟨"ENG_BUSY", 0x840, 0, 1, .ro, 0xFFFFFFFFFFFFFFFF, true, 0x0⟩,
  ⟨"DESC_DONE", 0x848, 0, 1, .ro, 0xFFFFFFFFFFFFFFFF, true, 0x0⟩,
  ⟨"DESC_STOP", 0x850, 0, 1, .ro, 0xFFFFFFFF, false, 0x0⟩]

/-- Registers of the BARRIER block, page ordinal 0 (R304, R316). -/
def regsBarrier0 : List RegRow := [
  ⟨"BCFG", 0x100, 32, 32, .rws, 0x7FFFFF, false, 0x0⟩,
  ⟨"BMEM0", 0x104, 32, 32, .rws, 0xFFFFFFFF, false, 0x0⟩,
  ⟨"BMEM1", 0x108, 32, 32, .rws, 0xFFFFFFFF, false, 0x0⟩,
  ⟨"BMEM2", 0x10C, 32, 32, .rws, 0xFFFFFFFF, false, 0x0⟩,
  ⟨"BMEM3", 0x110, 32, 32, .rws, 0xFFFFFFFF, false, 0x0⟩,
  ⟨"BMEM4", 0x114, 32, 32, .rws, 0xFFFF, false, 0x0⟩,
  ⟨"BSTATb", 0x800, 4, 32, .ro, 0xFFFFFFFF, false, 0x0⟩]

/-- Registers of the BARRIER block, page ordinal 1 (R304, R316). -/
def regsBarrier1 : List RegRow := [
  ⟨"BCFG", 0x100, 32, 32, .rws, 0x7FFFFF, false, 0x0⟩,
  ⟨"BMEM0", 0x104, 32, 32, .rws, 0xFFFFFFFF, false, 0x0⟩,
  ⟨"BMEM1", 0x108, 32, 32, .rws, 0xFFFFFFFF, false, 0x0⟩,
  ⟨"BMEM2", 0x10C, 32, 32, .rws, 0xFFFFFFFF, false, 0x0⟩,
  ⟨"BMEM3", 0x110, 32, 32, .rws, 0xFFFFFFFF, false, 0x0⟩,
  ⟨"BMEM4", 0x114, 32, 32, .rws, 0xFFFF, false, 0x0⟩,
  ⟨"BSTATb", 0x800, 4, 32, .ro, 0xFFFFFFFF, false, 0x0⟩]

/-- Registers of the BARRIER block, page ordinal 2 (R304, R316). -/
def regsBarrier2 : List RegRow := [
  ⟨"BCFG", 0x100, 32, 16, .rws, 0x7FFFFF, false, 0x0⟩,
  ⟨"BMEM0", 0x104, 32, 16, .rws, 0xFFFFFFFF, false, 0x0⟩,
  ⟨"BMEM1", 0x108, 32, 16, .rws, 0xFFFFFFFF, false, 0x0⟩,
  ⟨"BMEM2", 0x10C, 32, 16, .rws, 0xFFFFFFFF, false, 0x0⟩,
  ⟨"BMEM3", 0x110, 32, 16, .rws, 0xFFFFFFFF, false, 0x0⟩,
  ⟨"BMEM4", 0x114, 32, 16, .rws, 0xFFFF, false, 0x0⟩,
  ⟨"BSTATb", 0x800, 4, 16, .ro, 0xFFFFFFFF, false, 0x0⟩,
  ⟨"BHALLb", 0x880, 4, 16, .ro, 0xFF, false, 0x0⟩]

/-- Registers of the BARRIER block, page ordinal 3 (R316). -/
def regsBarrier3 : List RegRow := [
  ⟨"BRELEASES", 0x800, 0, 1, .ro, 0xFFFFFFFFFFFFFFFF, true, 0x0⟩]

/-- Registers of the CHIMNEY block, page ordinal n (R294). -/
def regsChimney : List RegRow := [
  ⟨"MAPw", 0x100, 4, 36, .rws, 0xFFFFFFFF, false, 0x0⟩,
  ⟨"MEMBERS", 0x800, 0, 1, .ro, 0x7FF, false, 0x0⟩]

/-- Registers of the SEAL block, page ordinal 0 (R455). -/
def regsSeal0 : List RegRow := [
  ⟨"SEAL_DROP", 0x800, 0, 1, .ro, 0xFFFFFFFFFFFFFFFF, true, 0x0⟩,
  ⟨"REPAIRS", 0x808, 0, 1, .ro, 0xFFFFFFFF, false, 0x0⟩,
  ⟨"LAST_SEAL", 0x80C, 0, 1, .ro, 0x7FFF, false, 0x0⟩,
  ⟨"SUSPECT", 0x810, 0, 1, .wo, 0x1, false, 0x0⟩,
  ⟨"STSTAT", 0x814, 0, 1, .ro, 0x3FF, false, 0x0⟩,
  ⟨"READMIT", 0x818, 0, 1, .wo, 0x800007FF, false, 0x0⟩,
  ⟨"RDSTAT", 0x81C, 0, 1, .ro, 0x3, false, 0x0⟩]

/-- Registers of the PROGRESS block, page ordinal 0 (R439). -/
def regsProgress0 : List RegRow := [
  ⟨"PROG_CFG", 0x190, 0, 1, .rws, 0x1FFFFFF, false, 0x0⟩,
  ⟨"KDB", 0x194, 0, 1, .rws, 0x7FF, false, 0x0⟩,
  ⟨"PROG_COUNT", 0x8B0, 0, 1, .ro, 0xFFFFFFFF, false, 0x0⟩,
  ⟨"PROG_KICK", 0x8B4, 0, 1, .wo, 0x1, false, 0x0⟩,
  ⟨"PROG_FIRES", 0x8B8, 0, 1, .ro, 0xFFFFFFFF, false, 0x0⟩,
  ⟨"KNOTICE", 0x8BC, 0, 1, .rc, 0xFF, false, 0x0⟩]

/-- Registers of the ROUTER block, page ordinal 0 (R358). -/
def regsRouter0 : List RegRow := [
  ⟨"INJ", 0x800, 0, 1, .ro, 0xFFFFFFFFFFFFFFFF, true, 0x0⟩,
  ⟨"EJ", 0x808, 0, 1, .ro, 0xFFFFFFFFFFFFFFFF, true, 0x0⟩,
  ⟨"STALL_INJ", 0x810, 0, 1, .ro, 0xFFFFFFFFFFFFFFFF, true, 0x0⟩,
  ⟨"STALL_EJ", 0x818, 0, 1, .ro, 0xFFFFFFFFFFFFFFFF, true, 0x0⟩,
  ⟨"STALL_THRU", 0x820, 0, 1, .ro, 0xFFFFFFFFFFFFFFFF, true, 0x0⟩]

/-- Registers of the CORE block, page ordinal 0 (R92, R106, R118, R129, R148, R173, R175, R178, R180). Part 1. -/
def regsCore0a : List RegRow := [
  ⟨"TFILE_RD", 0x8C0, 0, 1, .ro, 0xFFFFFFFFFFFFFFFF, true, 0x0⟩,
  ⟨"OPC_HIT", 0x8C8, 0, 1, .ro, 0xFFFFFFFFFFFFFFFF, true, 0x0⟩,
  ⟨"LATCH_HIT", 0x8D0, 0, 1, .ro, 0xFFFFFFFFFFFFFFFF, true, 0x0⟩,
  ⟨"TFILE_WR", 0x8D8, 0, 1, .ro, 0xFFFFFFFFFFFFFFFF, true, 0x0⟩,
  ⟨"TFAULT", 0x8A0, 0, 1, .ro, 0x77F7FFF, false, 0x0⟩,
  ⟨"TFAULT_OFF", 0x8A4, 0, 1, .ro, 0xFFFFFFFF, false, 0x0⟩,
  ⟨"TFAULT_PC", 0x8A8, 0, 1, .ro, 0xFFFF, false, 0x0⟩,
  ⟨"TFAULT_MMA", 0x8AC, 0, 1, .ro, 0xF, false, 0x0⟩,
  ⟨"MTX_WAKES", 0x8E0, 0, 1, .ro, 0xFFFFFFFFFFFFFFFF, true, 0x0⟩,
  ⟨"MTX_WAKE_CYC", 0x8E8, 0, 1, .ro, 0xFFFFFFFFFFFFFFFF, true, 0x0⟩,
  ⟨"VFAULT", 0x8B0, 0, 1, .ro, 0x1FFF, false, 0x0⟩,
  ⟨"VFAULT_OFF", 0x8B4, 0, 1, .ro, 0xFFFFFFFF, false, 0x0⟩,
  ⟨"VFAULT_PC", 0x8B8, 0, 1, .ro, 0xFFFF, false, 0x0⟩,
  ⟨"THREADn", 0x900, 4, 4, .ro, 0xFFFF7FF, false, 0x0⟩,
  ⟨"EVENTn", 0x910, 4, 4, .ro, 0xFFFFFFFF, false, 0x0⟩,
  ⟨"QSTAT", 0x920, 0, 1, .ro, 0x1F3F3F, false, 0x0⟩,
  ⟨"QCTL", 0x924, 0, 1, .wo, 0x107, false, 0x0⟩,
  ⟨"COMMONn", 0x940, 4, 16, .ro, 0xFFFFFFFF, false, 0x0⟩,
  ⟨"DFAULT", 0x930, 0, 1, .ro, 0xFFFF007F, false, 0x0⟩,
  ⟨"DFAULT_BYTE", 0x934, 0, 1, .ro, 0xFFFFFFFF, false, 0x0⟩,
  ⟨"DFAULT_OFF", 0x938, 0, 1, .ro, 0xFFFFFFFF, false, 0x0⟩,
  ⟨"DFAULT_PC", 0x93C, 0, 1, .ro, 0xFFFF, false, 0x0⟩,
  ⟨"BADAIR", 0x988, 0, 1, .ro, 0xFFFFFFFF, false, 0x0⟩,
  ⟨"CYCLE", 0x980, 0, 1, .ro, 0xFFFFFFFFFFFFFFFF, true, 0x0⟩]

/-- Registers of the CORE block, page ordinal 0 (R74, R89, R180, R209, R210, R215, R236, R252, R312, R316). Part 2. -/
def regsCore0b : List RegRow := [
  ⟨"TMRCMPn", 0x990, 8, 4, .ro, 0xFFFFFFFFFFFFFFFF, true, 0x0⟩,
  ⟨"SFLTn_INFO", 0x9C0, 16, 4, .ro, 0xFFFF, false, 0x0⟩,
  ⟨"SFLTn_OFF", 0x9C4, 16, 4, .ro, 0xFFFFFFFF, false, 0x0⟩,
  ⟨"SFLTn_PC", 0x9C8, 16, 4, .ro, 0xFFFF, false, 0x0⟩,
  ⟨"SFLTn_WORD", 0x9CC, 16, 4, .ro, 0xFFFFFFFF, false, 0x0⟩,
  ⟨"ISAVER", 0x9B0, 0, 1, .ro, 0xFFFF, false, 0x100⟩,
  ⟨"VBASEr", 0xA00, 4, 3, .rw, 0xFFC07, false, 0x0⟩,
  ⟨"GTBL", 0xA0C, 0, 1, .rw, 0xFFFF7FFF, false, 0x0⟩,
  ⟨"EMSTACK", 0xA10, 0, 1, .rw, 0x1FFFF, false, 0x0⟩,
  ⟨"INTENn", 0xA20, 4, 4, .rw, 0xFFFFFFFF, false, 0x0⟩,
  ⟨"INTPENDn", 0xA30, 4, 4, .ro, 0xFFFFFFFF, false, 0x0⟩,
  ⟨"XSTATn", 0xA40, 4, 4, .ro, 0x3, false, 0x0⟩,
  ⟨"RFLTn_INFO", 0xA60, 8, 4, .ro, 0xFFF07FF, false, 0x0⟩,
  ⟨"RFLTn_PC", 0xA64, 8, 4, .ro, 0xFFFF, false, 0x0⟩,
  ⟨"CHB_CONFb", 0xB00, 8, 16, .ro, 0xFFFFFFFFFFFFFFFF, true, 0x0⟩,
  ⟨"CHB_ACC", 0xB80, 0, 1, .ro, 0xFFFFFFFFFFFFFFFF, true, 0x0⟩,
  ⟨"CHB_PROMO", 0xB88, 0, 1, .ro, 0xFFFFFFFFFFFFFFFF, true, 0x0⟩,
  ⟨"CHB_CE", 0xB90, 0, 1, .ro, 0xFFFFFFFF, false, 0x0⟩,
  ⟨"CHB_UE", 0xB94, 0, 1, .ro, 0xFFFFFFFF, false, 0x0⟩,
  ⟨"BFLTn", 0xA80, 4, 4, .ro, 0x7FFFFFF, false, 0x0⟩,
  ⟨"BCOREb", 0xC00, 4, 80, .ro, 0x7FFFFF, false, 0x0⟩,
  ⟨"BTICKETn", 0xAA0, 4, 4, .ro, 0xFFFFFF, false, 0x0⟩,
  ⟨"TSHAPEt", 0x840, 4, 16, .ro, 0x7FFFF, false, 0x0⟩,
  ⟨"DRIP_MTX", 0x880, 0, 1, .rw, 0xFFFFFFFF, false, 0x0⟩]

/-- Registers of the CORE block, page ordinal 0 (R74). Part 3. -/
def regsCore0c : List RegRow := [
  ⟨"DRIP_VEC", 0x884, 0, 1, .rw, 0xFFFFFFFF, false, 0x0⟩]

/-- All registers of the CORE block, page ordinal 0. -/
def regsCore0 : List RegRow := regsCore0a ++ regsCore0b ++ regsCore0c

/-- Registers of the CHANNEL block, page ordinal 0 (R274, R275, R285, R286, R293, R301). -/
def regsChannel0 : List RegRow := [
  ⟨"RRr_BASE", 0x100, 8, 32, .rws, 0xFFFC0, false, 0x0⟩,
  ⟨"RRr_CFG", 0x104, 8, 32, .rws, 0x3FFFF, false, 0x0⟩,
  ⟨"SCc_DEST", 0x200, 16, 32, .rws, 0x3FFFF, false, 0x0⟩,
  ⟨"SCc_MOD", 0x204, 16, 32, .rws, 0x7FFFF, false, 0x0⟩,
  ⟨"SCc_CRED", 0x208, 16, 32, .rws, 0xFF7FFF, false, 0x0⟩,
  ⟨"CFLTn_INFO", 0x800, 8, 4, .ro, 0xFFF, false, 0x0⟩,
  ⟨"CFLTn_PC", 0x804, 8, 4, .ro, 0xFFFF, false, 0x0⟩,
  ⟨"SUMPu_SLOTS", 0x400, 16, 32, .rws, 0xFFFC0, false, 0x0⟩,
  ⟨"SUMPu_RES", 0x404, 16, 32, .rws, 0xFFFC0, false, 0x0⟩,
  ⟨"SUMPu_CFG", 0x408, 16, 32, .rws, 0x1FFFF1FF, false, 0x0⟩,
  ⟨"RX_DROP", 0x8C0, 0, 1, .ro, 0xFFFFFFFF, false, 0x0⟩,
  ⟨"RX_TRUNC", 0x8C4, 0, 1, .ro, 0xFFFFFFFF, false, 0x0⟩,
  ⟨"SUMP_DROP", 0x8C8, 0, 1, .ro, 0xFFFFFFFF, false, 0x0⟩,
  ⟨"SUMP_LEN", 0x8CC, 0, 1, .ro, 0xFFFFFFFF, false, 0x0⟩,
  ⟨"RX_MSGS", 0x8D0, 0, 1, .ro, 0xFFFFFFFFFFFFFFFF, true, 0x0⟩,
  ⟨"TX_MSGS", 0x8D8, 0, 1, .ro, 0xFFFFFFFFFFFFFFFF, true, 0x0⟩,
  ⟨"SUMPu_ROUND", 0x840, 4, 32, .rw, 0xFFFFFFFF, false, 0x0⟩]

/-- Registers of the TALLY block, page ordinal 0 (R79). -/
def regsTally0 : List RegRow := [
  ⟨"TALLY_CLR", 0x800, 0, 1, .wo, 0xFFFE, false, 0x0⟩,
  ⟨"TALLY_NZ", 0x804, 0, 1, .ro, 0xFFFE, false, 0x0⟩,
  ⟨"ZERO_s", 0x810, 16, 15, .ro, 0xFFFFFFFF, false, 0x0⟩,
  ⟨"SAT_s", 0x814, 16, 15, .ro, 0xFFFFFFFF, false, 0x0⟩,
  ⟨"NAN_s", 0x818, 16, 15, .ro, 0xFFFFFFFF, false, 0x0⟩]

/-- Registers of the LANTERN block, page ordinal 0 (R300). -/
def regsLantern0 : List RegRow := [
  ⟨"LHALTn", 0x800, 4, 4, .wo, 0x7, false, 0x0⟩,
  ⟨"LCHABORT", 0x810, 0, 1, .wo, 0xF, false, 0x0⟩,
  ⟨"LSEL", 0x820, 0, 1, .rw, 0x3F, false, 0x0⟩,
  ⟨"LRINGr", 0x840, 4, 32, .ro, 0x7FFFFFF, false, 0x0⟩,
  ⟨"LCREDc", 0x8C0, 4, 32, .ro, 0x1FFF, false, 0x0⟩,
  ⟨"LSUMPu", 0x940, 4, 32, .ro, 0xFFFFF, false, 0x0⟩,
  ⟨"LSLOTSw", 0x9C0, 4, 8, .ro, 0xFFFFFFFF, false, 0x0⟩,
  ⟨"LHEADw", 0xA00, 4, 16, .ro, 0xFFFFFFFF, false, 0x0⟩]

/-- The registers of page `ord` of a block (the HOST pages differ: page 0x0020 holds the port and PF0 registers too, so
`inst` is the function's hall). -/
def regRows : Block → (inst ord : Nat) → List RegRow
  | .keeper, _, 0 => regsKeeper0
  | .ident, _, 0 => regsIdent0
  | .power, _, 0 => regsPower0
  | .power, _, 1 => regsPower1
  | .clock, _, 0 => regsClock0
  | .security, _, 0 => regsSecurity0
  | .security, _, 1 => regsSecurity1
  | .security, _, 2 => regsSecurity2
  | .security, _, 3 => regsSecurity3
  | .yarlink, _, 0 => regsYarlink0
  | .host, 0, _ => regsHost0 ++ regsHost00
  | .host, _, _ => regsHost0
  | .cxl, _, 0 => regsCxl0
  | .cxl, _, 1 => regsCxl1
  | .hall, _, 0 => regsHall0
  | .memctl, _, 0 => regsMemctl0
  | .siphon, _, 0 => regsSiphon0
  | .siphon, _, 1 => regsSiphon1
  | .siphon, _, 2 => regsSiphon2
  | .sort, _, 0 => regsSort0
  | .sampler, _, 0 => regsSampler0
  | .squeeze, _, 0 => regsSqueeze0
  | .cipher, _, 0 => regsCipher0
  | .hdma, _, 0 => regsHdma0
  | .barrier, _, 0 => regsBarrier0
  | .barrier, _, 1 => regsBarrier1
  | .barrier, _, 2 => regsBarrier2
  | .barrier, _, 3 => regsBarrier3
  | .chimney, _, _ => regsChimney
  | .seal, _, 0 => regsSeal0
  | .progress, _, 0 => regsProgress0
  | .router, _, _ => regsRouter0
  | .core, _, 0 => regsCore0
  | .channel, _, 0 => regsChannel0
  | .tally, _, 0 => regsTally0
  | .lantern, _, 0 => regsLantern0
  | _, _, _ => []

end Sys2Proof.Machine
end

