-- ==== Sys2Proof/Machine/Crypto.lean ====
section
/-!
DEFINITION. SM4 (ISO/IEC 18033-3), SM3 (ISO/IEC 10118-3) and GCM (NIST SP 800-38D), as R345 and R371 name them, the CRC-32 of
IEEE 802.3 (R370), and SM2 (GB/T 32918), as R405, R408 and R417 name it. Blocks are 128-bit numbers whose highest byte is the first byte.
-/
namespace Sys2Proof.Machine

/-! ### Bytes -/

/-- Bytes as a number, the first highest. -/
def beNat (l : List Byte) : Nat := l.foldl (fun a b => a * 256 + b.toNat) 0

/-- A number as `n` bytes, the first highest. -/
def beBytes : (n v : Nat) → List Byte
  | 0, _ => []
  | n + 1, v => BitVec.ofNat 8 (v / 256 ^ n) :: beBytes n v

/-! ### SM4 -/

/-- The SM4 S-box. -/
def sm4Box : List Nat :=
  [0xd6, 0x90, 0xe9, 0xfe, 0xcc, 0xe1, 0x3d, 0xb7, 0x16, 0xb6, 0x14, 0xc2, 0x28, 0xfb, 0x2c, 0x05,
   0x2b, 0x67, 0x9a, 0x76, 0x2a, 0xbe, 0x04, 0xc3, 0xaa, 0x44, 0x13, 0x26, 0x49, 0x86, 0x06, 0x99,
   0x9c, 0x42, 0x50, 0xf4, 0x91, 0xef, 0x98, 0x7a, 0x33, 0x54, 0x0b, 0x43, 0xed, 0xcf, 0xac, 0x62,
   0xe4, 0xb3, 0x1c, 0xa9, 0xc9, 0x08, 0xe8, 0x95, 0x80, 0xdf, 0x94, 0xfa, 0x75, 0x8f, 0x3f, 0xa6] ++
  [0x47, 0x07, 0xa7, 0xfc, 0xf3, 0x73, 0x17, 0xba, 0x83, 0x59, 0x3c, 0x19, 0xe6, 0x85, 0x4f, 0xa8,
   0x68, 0x6b, 0x81, 0xb2, 0x71, 0x64, 0xda, 0x8b, 0xf8, 0xeb, 0x0f, 0x4b, 0x70, 0x56, 0x9d, 0x35,
   0x1e, 0x24, 0x0e, 0x5e, 0x63, 0x58, 0xd1, 0xa2, 0x25, 0x22, 0x7c, 0x3b, 0x01, 0x21, 0x78, 0x87,
   0xd4, 0x00, 0x46, 0x57, 0x9f, 0xd3, 0x27, 0x52, 0x4c, 0x36, 0x02, 0xe7, 0xa0, 0xc4, 0xc8, 0x9e] ++
  [0xea, 0xbf, 0x8a, 0xd2, 0x40, 0xc7, 0x38, 0xb5, 0xa3, 0xf7, 0xf2, 0xce, 0xf9, 0x61, 0x15, 0xa1,
   0xe0, 0xae, 0x5d, 0xa4, 0x9b, 0x34, 0x1a, 0x55, 0xad, 0x93, 0x32, 0x30, 0xf5, 0x8c, 0xb1, 0xe3,
   0x1d, 0xf6, 0xe2, 0x2e, 0x82, 0x66, 0xca, 0x60, 0xc0, 0x29, 0x23, 0xab, 0x0d, 0x53, 0x4e, 0x6f,
   0xd5, 0xdb, 0x37, 0x45, 0xde, 0xfd, 0x8e, 0x2f, 0x03, 0xff, 0x6a, 0x72, 0x6d, 0x6c, 0x5b, 0x51] ++
  [0x8d, 0x1b, 0xaf, 0x92, 0xbb, 0xdd, 0xbc, 0x7f, 0x11, 0xd9, 0x5c, 0x41, 0x1f, 0x10, 0x5a, 0xd8,
   0x0a, 0xc1, 0x31, 0x88, 0xa5, 0xcd, 0x7b, 0xbd, 0x2d, 0x74, 0xd0, 0x12, 0xb8, 0xe5, 0xb4, 0xb0,
   0x89, 0x69, 0x97, 0x4a, 0x0c, 0x96, 0x77, 0x7e, 0x65, 0xb9, 0xf1, 0x09, 0xc5, 0x6e, 0xc6, 0x84,
   0x18, 0xf0, 0x7d, 0xec, 0x3a, 0xdc, 0x4d, 0x20, 0x79, 0xee, 0x5f, 0x3e, 0xd7, 0xcb, 0x39, 0x48]

/-- The S-box on the four bytes of a word. -/
def sm4Tau (x : BitVec 32) : BitVec 32 :=
  let b (i : Nat) : BitVec 32 := BitVec.ofNat 32 (sm4Box.getD (bitsOf x.toNat (8 * i) 8) 0 * 2 ^ (8 * i))
  b 3 ||| b 2 ||| b 1 ||| b 0

/-- The transform of a round. -/
def sm4T (x : BitVec 32) : BitVec 32 :=
  let b := sm4Tau x
  b ^^^ b.rotateLeft 2 ^^^ b.rotateLeft 10 ^^^ b.rotateLeft 18 ^^^ b.rotateLeft 24

/-- The transform of the key schedule. -/
def sm4TKey (x : BitVec 32) : BitVec 32 :=
  let b := sm4Tau x
  b ^^^ b.rotateLeft 13 ^^^ b.rotateLeft 23

/-- Constant CK of round `i`: byte j is (4 i + j) × 7. -/
def sm4Ck (i : Nat) : BitVec 32 :=
  BitVec.ofNat 32 ((List.range 4).foldl (fun a j => a * 256 + (4 * i + j) * 7 % 256) 0)

/-- Four words in a row, as SM4's rounds shift them. -/
structure Four where
  a : BitVec 32
  b : BitVec 32
  c : BitVec 32
  d : BitVec 32

/-- The words of a block. -/
def Four.ofBlock (v : Nat) : Four :=
  ⟨BitVec.ofNat 32 (v / 2 ^ 96), BitVec.ofNat 32 (v / 2 ^ 64), BitVec.ofNat 32 (v / 2 ^ 32), BitVec.ofNat 32 v⟩

/-- The 32 round keys of a key. -/
def sm4Keys (key : Nat) : List (BitVec 32) :=
  let k := Four.ofBlock key
  let start : Four := ⟨k.a ^^^ 0xA3B1BAC6, k.b ^^^ 0x56AA3350, k.c ^^^ 0x677D9197, k.d ^^^ 0xB27022DC⟩
  ((List.range 32).foldl (fun (p : Four × List (BitVec 32)) i =>
    let r := p.1.a ^^^ sm4TKey (p.1.b ^^^ p.1.c ^^^ p.1.d ^^^ sm4Ck i)
    (⟨p.1.b, p.1.c, p.1.d, r⟩, p.2 ++ [r])) (start, [])).2

/-- A block through the rounds with keys in a given order. -/
def sm4Rounds (keys : List (BitVec 32)) (v : Nat) : Nat :=
  let s := keys.foldl (fun (s : Four) k => ⟨s.b, s.c, s.d, s.a ^^^ sm4T (s.b ^^^ s.c ^^^ s.d ^^^ k)⟩) (Four.ofBlock v)
  s.d.toNat * 2 ^ 96 + s.c.toNat * 2 ^ 64 + s.b.toNat * 2 ^ 32 + s.a.toNat

/-- SM4 encryption of a block. -/
def sm4Enc (key v : Nat) : Nat := sm4Rounds (sm4Keys key) v

/-- SM4 decryption of a block. -/
def sm4Dec (key v : Nat) : Nat := sm4Rounds (sm4Keys key).reverse v

/-! ### GCM -/

/-- The product in the field of GCM: bit 127 of the number is the first bit. -/
def gcmMul (x y : Nat) : Nat :=
  ((List.range 128).foldl (fun (p : Nat × Nat) i =>
    let z := if bitOf x (127 - i) then p.1.xor p.2 else p.1
    let v := if bitOf p.2 0 then (p.2 / 2).xor (0xE1 * 2 ^ 120) else p.2 / 2
    (z, v)) (0, y)).1

/-- One block into GHASH. -/
def ghashStep (hk y block : Nat) : Nat := gcmMul (y.xor block) hk

/-- Bytes into GHASH in blocks of 16, the last padded with zeros; `fuel` bounds the blocks. -/
def ghash (hk : Nat) : (fuel y : Nat) → List Byte → Nat
  | 0, y, _ => y
  | n + 1, y, d =>
    if d.isEmpty then y
    else
      let b := d.take 16
      ghash hk n (ghashStep hk y (beNat b * 256 ^ (16 - b.length))) (d.drop 16)

/-- The counter block number `i` of GCM's data under a 96-bit IV; 0 is the block of the tag. -/
def gcmCounter (iv i : Nat) : Nat := iv * 2 ^ 32 + (i + 1) % 2 ^ 32

/-- The first `n` bytes of GCM's key stream. -/
def gcmStream (key iv n : Nat) : List Byte :=
  (List.range ((n + 15) / 16)).flatMap fun i => beBytes 16 (sm4Enc key (gcmCounter iv (i + 1)))

/-- Data through GCM, which enciphers and deciphers alike. -/
def gcmCrypt (key iv : Nat) (d : List Byte) : List Byte := List.zipWith (· ^^^ ·) d (gcmStream key iv d.length)

/-- GCM's tag of ciphertext and additional data. -/
def gcmTagOf (key iv : Nat) (aad ct : List Byte) : List Byte :=
  let hk := sm4Enc key 0
  let y := ghash hk (ct.length / 16 + 1) (ghash hk (aad.length / 16 + 1) 0 aad) ct
  beBytes 16 ((ghashStep hk y (aad.length * 8 * 2 ^ 64 + ct.length * 8)).xor (sm4Enc key (gcmCounter iv 0)))

/-! ### CRC-32 -/

/-- One byte into the CRC-32 of IEEE 802.3, lowest bit first. -/
def crcByte (c : BitVec 32) (b : Byte) : BitVec 32 :=
  (List.range 8).foldl (fun v _ => if v.getLsbD 0 then (v >>> 1) ^^^ 0xEDB88320 else v >>> 1) (c ^^^ b.setWidth 32)

/-- The CRC-32 of IEEE 802.3. -/
def crc32 (l : List Byte) : BitVec 32 := ~~~ (l.foldl crcByte 0xFFFFFFFF)

/-! ### SM3 -/

/-- SM3's initial value. -/
def sm3Init : List (BitVec 32) :=
  [0x7380166f, 0x4914b2b9, 0x172442d7, 0xda8a0600, 0xa96f30bc, 0x163138aa, 0xe38dee4d, 0xb0fb0e4e]

/-- The expanded words of a block, 68 of them. -/
def sm3Expand (w : List (BitVec 32)) : List (BitVec 32) :=
  (List.range 52).foldl (fun w k =>
    let g (i : Nat) : BitVec 32 := w.getD i 0
    let j := k + 16
    let x := g (j - 16) ^^^ g (j - 9) ^^^ (g (j - 3)).rotateLeft 15
    let p := x ^^^ x.rotateLeft 15 ^^^ x.rotateLeft 23
    w ++ [p ^^^ (g (j - 13)).rotateLeft 7 ^^^ g (j - 6)]) w

/-- SM3's registers. -/
structure Eight where
  a : BitVec 32
  b : BitVec 32
  c : BitVec 32
  d : BitVec 32
  e : BitVec 32
  f : BitVec 32
  g : BitVec 32
  h : BitVec 32

/-- Round `j` of SM3's compression with expanded words `w`. -/
def sm3Round (w : List (BitVec 32)) (s : Eight) (j : Nat) : Eight :=
  let t : BitVec 32 := if j < 16 then 0x79cc4519 else 0x7a879d8a
  let ss1 := (s.a.rotateLeft 12 + s.e + t.rotateLeft (j % 32)).rotateLeft 7
  let ss2 := ss1 ^^^ s.a.rotateLeft 12
  let ff := if j < 16 then s.a ^^^ s.b ^^^ s.c else (s.a &&& s.b) ||| (s.a &&& s.c) ||| (s.b &&& s.c)
  let gg := if j < 16 then s.e ^^^ s.f ^^^ s.g else (s.e &&& s.f) ||| (~~~ s.e &&& s.g)
  let wj := w.getD j 0
  let tt1 := ff + s.d + ss2 + (wj ^^^ w.getD (j + 4) 0)
  let tt2 := gg + s.h + ss1 + wj
  { a := tt1, b := s.a, c := s.b.rotateLeft 9, d := s.c, e := tt2 ^^^ tt2.rotateLeft 9 ^^^ tt2.rotateLeft 17, f := s.e
    g := s.f.rotateLeft 19, h := s.g }

/-- SM3's compression of a 64-byte block into the chaining words. -/
def sm3Compress (v : List (BitVec 32)) (block : List Byte) : List (BitVec 32) :=
  let w := sm3Expand ((List.range 16).map fun i => BitVec.ofNat 32 (beNat ((block.drop (4 * i)).take 4)))
  let g (i : Nat) : BitVec 32 := v.getD i 0
  let s := (List.range 64).foldl (sm3Round w) ⟨g 0, g 1, g 2, g 3, g 4, g 5, g 6, g 7⟩
  [g 0 ^^^ s.a, g 1 ^^^ s.b, g 2 ^^^ s.c, g 3 ^^^ s.d, g 4 ^^^ s.e, g 5 ^^^ s.f, g 6 ^^^ s.g, g 7 ^^^ s.h]

/-- The padding that follows the last whole block of a message of `len` bytes whose rest is `tail`. -/
def sm3Pad (len : Nat) (tail : List Byte) : List Byte :=
  let n := (119 - tail.length % 64) % 64
  tail ++ [0x80] ++ List.replicate n 0 ++ beBytes 8 (len * 8)

/-- Blocks of 64 bytes into the chaining words; `fuel` bounds them. -/
def sm3Blocks : (fuel : Nat) → List (BitVec 32) → List Byte → List (BitVec 32)
  | 0, v, _ => v
  | n + 1, v, d => if d.length < 64 then v else sm3Blocks n (sm3Compress v (d.take 64)) (d.drop 64)

/-- The digest bytes of chaining words. -/
def sm3Bytes (v : List (BitVec 32)) : List Byte := v.flatMap fun w => beBytes 4 w.toNat

/-- The digest of a message. -/
def sm3 (m : List Byte) : List Byte :=
  let p := sm3Pad m.length (m.drop (m.length / 64 * 64))
  sm3Bytes (sm3Blocks (m.length / 64 + 3) sm3Init (m.take (m.length / 64 * 64) ++ p))

/-! ### SM2

The curve of GB/T 32918.5 (assumption log 61): y² = x³ - 3 x + b over the field of `sm2P` elements, with a base point of order `sm2N`. -/

def sm2P : Nat := 0xFFFFFFFEFFFFFFFFFFFFFFFFFFFFFFFFFFFFFFFF00000000FFFFFFFFFFFFFFFF
def sm2A : Nat := sm2P - 3
def sm2B : Nat := 0x28E9FA9E9D9F5E344D5A9E4BCF6509A7F39789F515AB8F92DDBCBD414D940E93
def sm2N : Nat := 0xFFFFFFFEFFFFFFFFFFFFFFFFFFFFFFFF7203DF6B21C6052B53BBF40939D54123
def sm2Gx : Nat := 0x32C4AE2C1F1981195F9904466A39C9948FE30BBFF2660BE1715A4589334C74C7
def sm2Gy : Nat := 0xBC3736A2F4F6779C59BDCEE36B692153D0A9877CC62A474002DF32E52139F0A0

/-- The power of a number modulo another, over the bits of the exponent below bit `n`. -/
def powMod (m b e : Nat) : (n : Nat) → Nat
  | 0 => 1 % m
  | n + 1 =>
    let r := powMod m b (e / 2) n
    let q := r * r % m
    if e % 2 = 1 then q * b % m else q

/-- The inverse modulo a prime. -/
def invMod (m b : Nat) : Nat := powMod m b (m - 2) 256

/-- The difference modulo a number. -/
def subMod (m a b : Nat) : Nat := (a + (m - b % m)) % m

/-- The sum of two points of the curve; none is the point at infinity. -/
def sm2Add : Option (Nat × Nat) → Option (Nat × Nat) → Option (Nat × Nat)
  | none, q => q
  | p, none => p
  | some (x, y), some (u, v) =>
    if x = u ∧ (y + v) % sm2P = 0 then none
    else
      let l :=
        if x = u then (3 * x * x + sm2A) * invMod sm2P (2 * y) % sm2P
        else subMod sm2P v y * invMod sm2P (subMod sm2P u x) % sm2P
      let w := subMod sm2P (l * l) (x + u)
      some (w, subMod sm2P (l * subMod sm2P x w) y)

/-- A multiple of a point, over the bits of the number below bit `n`. -/
def sm2MulN (p : Option (Nat × Nat)) (k : Nat) : (n : Nat) → Option (Nat × Nat)
  | 0 => none
  | n + 1 =>
    let q := sm2MulN p (k / 2) n
    let q := sm2Add q q
    if k % 2 = 1 then sm2Add q p else q

/-- A multiple of a point. -/
def sm2Mul (k : Nat) (p : Nat × Nat) : Option (Nat × Nat) := sm2MulN (some p) k 256

/-- A point as 64 bytes, x then y. -/
def sm2Bytes (p : Option (Nat × Nat)) : List Byte :=
  match p with
  | some (x, y) => beBytes 32 x ++ beBytes 32 y
  | none => List.replicate 64 0

/-- The public key of a private one. -/
def sm2Pub (d : Nat) : List Byte := sm2Bytes (sm2Mul d (sm2Gx, sm2Gy))

/-- The digest that SM2 signs: over the message, after a digest over the default distinguishing identifier, the curve and the public key
(GB/T 32918.2). -/
def sm2Digest (pub msg : List Byte) : Nat :=
  let ident : List Byte := [0x31, 0x32, 0x33, 0x34, 0x35, 0x36, 0x37, 0x38, 0x31, 0x32, 0x33, 0x34, 0x35, 0x36, 0x37, 0x38]
  let z := sm3 (beBytes 2 128 ++ ident ++ beBytes 32 sm2A ++ beBytes 32 sm2B ++ beBytes 32 sm2Gx ++ beBytes 32 sm2Gy ++ pub)
  beNat (sm3 (z ++ msg))

/-- The signature of a message by a private key with a random number, r then s; none where SM2 draws another number. -/
def sm2SignWith (d : Nat) (msg : List Byte) (k : Nat) : Option (List Byte) :=
  let r := (sm2Digest (sm2Pub d) msg + ((sm2Mul k (sm2Gx, sm2Gy)).getD (0, 0)).1) % sm2N
  let t := invMod sm2N (1 + d) * subMod sm2N k (r * d) % sm2N
  if r = 0 ∨ r + k = sm2N ∨ t = 0 then none else some (beBytes 32 r ++ beBytes 32 t)

/-- Whether a signature of a message verifies under a public key (GB/T 32918.2). -/
def sm2Verify (pub msg sig : List Byte) : Bool :=
  let x := beNat (pub.take 32)
  let y := beNat ((pub.drop 32).take 32)
  let r := beNat (sig.take 32)
  let t := beNat ((sig.drop 32).take 32)
  let onCurve := decide (x < sm2P ∧ y < sm2P ∧ (x * x * x + sm2A * x + sm2B) % sm2P = y * y % sm2P)
  let range := decide (1 ≤ r ∧ r < sm2N ∧ 1 ≤ t ∧ t < sm2N ∧ (r + t) % sm2N ≠ 0)
  onCurve && range && match sm2Add (sm2Mul t (sm2Gx, sm2Gy)) (sm2Mul ((r + t) % sm2N) (x, y)) with
    | some (u, _) => (sm2Digest pub msg + u) % sm2N == r
    | none => false

/-- The 256 bits that the key derivation function of GB/T 32918.4 makes of bytes: one block of SM3 with the counter 1. -/
def kdf256 (z : List Byte) : Nat := beNat (sm3 (z ++ beBytes 4 1))

/-- The identity private key d of a device secret (R405); the secret's bytes stand highest first (assumption log 61). -/
def identityKey (secret : BitVec 256) : Nat :=
  let label : List Byte := [0x59, 0x41, 0x52, 0x59, 0x4F, 0x4E, 0x2D, 0x49, 0x44, 0x45, 0x4E, 0x54, 0x49, 0x54, 0x59, 0x2D, 0x31]
  1 + kdf256 (beBytes 32 secret.toNat ++ label) % (sm2N - 2)

end Sys2Proof.Machine
end

