-- ==== Sys2Proof/Machine/State.lean ====
section
/-!
DEFINITION. The state of the module as plain data, the faults and refusals of the model, and the state after reset.
`INVENTORY.md` lists every piece of state with its rule; sparse tables are `SMap`s: keys rising, no entry equal to what an
absent key reads as.
-/
namespace Sys2Proof.Machine

/-- A sparse table: rising keys; what an absent key reads as is said where the table is read. -/
abbrev SMap (α : Type) := List (Nat × α)

/-! ### Threads -/

/-- The states of a thread but for blocked, which follows from what it waits for (R151). -/
inductive RunState where
  | parked | active | halted
deriving DecidableEq, Repr

/-- What a thread waits for (R169). -/
inductive WaitFor where
  /-- WAIT.ANY with its mask -/
  | any (m : Word)
  /-- WAIT.ALL with its mask -/
  | all (m : Word)
  /-- RECV on a ring -/
  | recv (r : Fin 32)
  /-- WAITB -/
  | barrier
  /-- a full engine queue: 0 matrix, 1 vector, 2 DMA -/
  | queue (q : Fin 3)
  /-- a pending scalar register; none: a ninth load -/
  | register (r : Option (BitVec 5))
deriving DecidableEq, Repr

/-- A load that has not arrived (R196): its value, once that is fixed; till then the place in issue order of its access, which a fence
holds (R263). -/
structure LoadSlot where
  rd : BitVec 5
  value : Word
  held : Option Nat
deriving DecidableEq, Repr

/-- A repeat sequence under way (R204, R205): the word repeated, REP's count register (none for REP.L), the repetitions
left, and whether interrupts are held off. -/
structure RepState where
  word : Word
  reg : Option (BitVec 5)
  left : Nat
deriving DecidableEq, Repr

/-- A barrier ticket (R307). -/
structure Ticket where
  id : BitVec 7
  round : BitVec 16
deriving DecidableEq, Repr

/-- An exception entry that failed and waits for double-fault entry (R234). -/
structure FailedEntry where
  vector : Nat
  cause : Nat
  pc : BitVec 16
  repl : Option Nat
  qtaken : Nat
deriving DecidableEq, Repr

/-- A hardware thread (R150, R159, R198, R200, R215). Registers and segments are tables by number, absent entries zero. -/
structure Thread where
  run : RunState
  wait : Option WaitFor
  ring : BitVec 2
  prio : BitVec 2
  pc : BitVec 16
  regs : SMap Word
  segs : SMap SegImage
  rsEntry : SMap (BitVec 16)
  rsTop : BitVec 4
  rsDepth : Nat
  rsWrap : Bool
  ev : Word
  inh : Bool
  df : Bool
  inten : Word
  intpend : Word
  tmrcmp : BitVec 64
  cycLatch : Word
  loads : List LoadSlot
  rep : Option RepState
  /-- repetitions with which a return resumes a REP.L (R233) -/
  replCnt : Option Nat
  ticket : Option Ticket
  staging : SMap Byte
  openCh : Option (Fin 32)
  dfPend : Option FailedEntry
  /-- a lantern halt not yet taken, because a REP.L sequence runs (R298) -/
  haltReq : Bool
  /-- a debug halt request for delivery (R298) -/
  deliverReq : Bool
  /-- bad-air raised and not yet taken (R177) -/
  badAir : Bool
  /-- the vector of a fault that a held access met, not yet taken (R263; assumption log 43) -/
  late : Option Nat
deriving DecidableEq, Repr

/-- A thread after core reset: parked (R151); registers and segments zero (assumption log 4). -/
def Thread.zero : Thread :=
  { run := .parked, wait := none, ring := 0, prio := 0, pc := 0, regs := [], segs := [], rsEntry := [], rsTop := 0,
    rsDepth := 0, rsWrap := false, ev := 0, inh := false, df := false, inten := 0, intpend := 0, tmrcmp := 0,
    cycLatch := 0, loads := [], rep := none, replCnt := none, ticket := none, staging := [], openCh := none,
    dfPend := none, haltReq := false, deliverReq := false, badAir := false, late := none }

/-! ### Queues -/

/-- How far a queue entry is. -/
inductive Phase where
  /-- not started -/
  | waiting
  /-- an MMA held for admission since a core cycle (R128) -/
  | held (since : Nat)
  /-- an MMA in issue or its pipeline, a DMA descriptor being moved -/
  | underWay
deriving DecidableEq, Repr

/-- An entry of an engine queue (R167) with what it captured at issue (R94, R133, R168): its instruction, place in issue
order, thread, ring, PC, scalar operands and segments; for a DMA entry the descriptor as first read (empty: not yet) and
the piece at which it goes on (R172, R176). -/
structure QEntry where
  instr : Instr
  seq : Nat
  thread : Fin 4
  ring : BitVec 2
  pc : BitVec 16
  vals : List Word
  segs : List SegImage
  phase : Phase
  desc : List Byte
  row : Nat
  byte : Nat
deriving DecidableEq, Repr

/-- A queue stopped at a fault: the thread that takes its exception, the vector, whether the exception has been taken
(R106, R230), and the place in issue order of the entry at fault. -/
structure QStop where
  thread : Fin 4
  vector : Nat
  taken : Bool
  seq : Nat
deriving DecidableEq, Repr

/-- An engine queue, oldest entry first: the fault at which it stopped, and for the matrix queue the fault of a tile move that stops it
ahead of what issued after the move (R145). -/
structure Queue where
  entries : List QEntry
  stop : Option QStop
  byMove : Option QStop
deriving DecidableEq, Repr

/-- An empty queue. -/
def Queue.empty : Queue := { entries := [], stop := none, byMove := none }

/-- A FENCE or PUBLISH not yet met (R262 to R264). -/
structure Fence where
  seq : Nat
  src : BitVec 4
  dst : BitVec 4
  publish : Bool
deriving DecidableEq, Repr

/-- What a held scalar access does. -/
inductive HeldKind where
  /-- the store of these bytes: ST, SSEG -/
  | store (data : List Byte)
  /-- LD of `n` bytes into a register, zero-extended with `u` 1 -/
  | load (rd : BitVec 5) (u : BitVec 1) (n : Nat)
  /-- LSEG of a segment register -/
  | seg (dst : Nat)
deriving DecidableEq, Repr

/-- A scalar access that a fence holds (R263): its place in issue order, thread and ring, address and effect; and what the fault record
of its instruction shows (R209): segment, SIZE, offset, index, whether it stands under a prefix, and its word. -/
structure HeldAccess where
  seq : Nat
  thread : Fin 4
  ring : BitVec 2
  addr : Nat
  kind : HeldKind
  seg : Nat
  size : Nat
  off : Nat
  pc : BitVec 16
  rep : Bool
  word : Word
deriving DecidableEq, Repr

/-- A reuse latch: the tile and rows that a port of the matrix unit delivered to the last MMA (R126). -/
structure Latch where
  tile : Nat
  rows : Nat
deriving DecidableEq, Repr

/-! ### Channels, sumps, barriers -/

/-- What the channel unit records of a ring entry (R277, R280). -/
structure RingEntry where
  len : Nat
  trunc : Bool
  sender : Option Sender
deriving DecidableEq, Repr

/-- A receive ring: pointers modulo 512 and the recorded entries by index (R276). -/
structure Ring where
  wr : Nat
  rx : Nat
  rd : Nat
  entry : SMap RingEntry
deriving DecidableEq, Repr

def Ring.zero : Ring := { wr := 0, rx := 0, rd := 0, entry := [] }

/-- A closed message that has not left the core, with its place in issue order (R283). -/
structure HeldMsg where
  seq : Nat
  data : List Byte
deriving DecidableEq, Repr

/-- A send channel: credits in use, the thread that holds it open, held messages oldest first, and for a chimney the
members that still hold each message (R281, R296). -/
structure SendChan where
  avail : Nat
  openBy : Option (Fin 4)
  held : List HeldMsg
  chim : List (List Nat)
deriving DecidableEq, Repr

def SendChan.zero : SendChan := { avail := 0, openBy := none, held := [], chim := [] }

/-- Credits that RFREE or SUMPARM return once the accesses before them are performed (R280, R287). -/
structure HeldCredit where
  seq : Nat
  sender : Sender
deriving DecidableEq, Repr

/-- A sump: state 0 unarmed, 1 armed, 2 complete; slots drained; present ranks with their senders and lengths; the
argument and round number; stopped by poison (R287 to R291). -/
structure Sump where
  state : BitVec 2
  drained : Nat
  present : SMap (Option (Option Sender × Nat))
  arg : Word
  round : Word
  stopped : Bool
deriving DecidableEq, Repr

def Sump.zero : Sump := { state := 0, drained := 0, present := [], arg := 0, round := 0, stopped := false }

/-- A core's round state for one barrier (R306), and the place in issue order of an arrival not yet sent because earlier
accesses are not performed (R268). -/
structure BarRound where
  rel : BitVec 16
  arr : BitVec 3
  sent : Bool
  next : BitVec 3
  holdSeq : Option Nat
  /-- the place in issue order of the last arrival counted into NEXT -/
  nextSeq : Nat
deriving DecidableEq, Repr

def BarRound.zero : BarRound := { rel := 0, arr := 0, sent := false, next := 0, holdSeq := none, nextSeq := 0 }

/-! ### Cores -/

/-- A core (R150, R130, R131, R83, R84, R167, R272, R306). Tables by number; a tile row is kept under tile * 32 + row. -/
structure Core where
  threads : SMap Thread
  common : SMap Word
  vreg : SMap (BitVec 1024)
  mreg : SMap (BitVec 128)
  tile : SMap (BitVec 1024)
  tshape : SMap Word
  mq : Queue
  vq : Queue
  dq : Queue
  /-- operand caches: cached rows, most recent first (R91) -/
  opcA : List Nat
  opcB : List Nat
  latchA : Option Latch
  latchB : Option Latch
  /-- the matrix unit is resting; the hall's core-cycle count at its last commit or abandonment (R127) -/
  resting : Bool
  mtxAt : Nat
  fences : List Fence
  heldMem : List HeldAccess
  heldCredits : List HeldCredit
  /-- instructions issued; by thread the number of the last one it issued since reset or the context switch, absent for none (R160, R255) -/
  issueSeq : Nat
  lastIssue : SMap Nat
  ring : SMap Ring
  chan : SMap SendChan
  sump : SMap Sump
  bar : SMap BarRound
  /-- the bad-air detector's count (R177) -/
  airCount : Nat
  /-- the hall's core-cycle count when the cycle counter was last zero (R179) -/
  cycBase : Nat
deriving DecidableEq, Repr

/-- A core after core reset (R481), with the assumption log's values for what R481 does not name. -/
def Core.zero : Core :=
  { threads := [], common := [], vreg := [], mreg := [], tile := [], tshape := [], mq := .empty, vq := .empty,
    dq := .empty, opcA := [], opcB := [], latchA := none, latchB := none, resting := true, mtxAt := 0, fences := [],
    heldMem := [], heldCredits := [], issueSeq := 0, lastIssue := [], ring := [], chan := [], sump := [], bar := [], airCount := 0,
    cycBase := 0 }

/-! ### Banks -/

/-- A request in a bank's window with its age in bank cycles and whether it has been promoted (R246, R248). -/
structure WaitReq where
  req : BankReq
  age : Nat
  promoted : Bool
deriving DecidableEq, Repr

/-! ### Halls -/

/-- An arrival on the barrier wires: the barrier, the router it goes to, and the members it stands for (R302). -/
structure BarWire where
  id : Nat
  col : Nat
  row : Nat
  members : Nat
deriving DecidableEq, Repr

/-- A router's barrier counter: branches and members counted this round (R302). -/
structure BarCount where
  branches : Nat
  members : Nat
deriving DecidableEq, Repr

/-- The barrier trees of a hall (R302, R303, R316): wires, router counters by barrier * 156 + router, releases issued by
the local root by barrier, halls counted at the root hall by barrier; arrivals from ports on their way to the root hall, with
their rounds, and ports that failed before their arrival for the round (R383), by barrier. -/
structure BarTree where
  wires : List BarWire
  hallWires : List (Nat × Nat)
  portWires : List (Nat × Nat × BitVec 16)
  lost : List (Nat × Nat)
  count : SMap BarCount
  rel : SMap (BitVec 16)
  halls : SMap (List Nat)
deriving DecidableEq, Repr

def BarTree.zero : BarTree := { wires := [], hallWires := [], portWires := [], lost := [], count := [], rel := [], halls := [] }

/-- A write that a controller or bank group holds while the snapshot engine copies its page (R356, R447), with who made it: for a core the
observer (0 scalar, 1 vector, 2 matrix, 3 DMA) and the place in issue order (R254, R256), for an engine the queue (R324). -/
structure HeldWrite where
  addr : Nat
  data : List Byte
  agent : Agent
  obs : Nat
  seq : Nat
deriving DecidableEq, Repr

/-- How far an engine queue's descriptor is. -/
inductive EngPhase where
  /-- none under way -/
  | idle
  /-- read, its work not ended -/
  | running
  /-- its work ended with a status that completes it -/
  | ended
  /-- its completion record has been issued, and a memory holds it (R324) -/
  | recorded
  /-- stopped before its 64 bytes could be read -/
  | unread
deriving DecidableEq, Repr

/-- The descriptor under way or stopped in an engine queue (R320 to R329): its 64 bytes as read; the unit and the byte within
it at which it goes on (R328); RESULT; the status of a completion; the places in stream and output, and kept cipher state;
elements counted so far by counter; whether it stopped with signals that its held record still holds back (R324, R326). -/
structure EngRun where
  phase : EngPhase
  desc : List Byte
  unit : Nat
  byte : Nat
  result : Nat
  status : Nat
  pos : Nat
  outPos : Nat
  kept : List Byte
  zero : Nat
  sat : Nat
  nan : Nat
  sig : Bool
deriving DecidableEq, Repr

def EngRun.idle : EngRun :=
  { phase := .idle, desc := [], unit := 0, byte := 0, result := 0, status := 0, pos := 0, outPos := 0, kept := [],
    zero := 0, sat := 0, nan := 0, sig := false }

/-- A cairn being taken (R446): its slot, the first burst of its header, marked complete, and whether that burst has been sent
to another module. -/
structure CairnRun where
  slot : Nat
  head : List Byte
  headSent : Bool
deriving DecidableEq, Repr

/-- A restore under way (R450, R451): its slot, whether the keeper makes it for the whole partition, STEP of its header once the keeper
has read it for the check before, whether it has passed that check and begun, and how it ended when others of the partition have still
to end. -/
structure RestoreRun where
  slot : Nat
  keeper : Bool
  step : Option Nat
  begun : Bool
  ended : Option Bool
deriving DecidableEq, Repr

/-- What the keeper does with a partition once all its halls are stopped (R450, R453, R456). -/
inductive KeeperTask where
  | restore
  /-- a fault at a position of this hall, with its LAST_SEAL cause -/
  | repair (p : Position) (cause : Nat)
  | selfTest
  /-- the restores of its halls are under way, after a repair or not -/
  | finishing (repaired : Bool)
deriving DecidableEq, Repr

/-- Why a hall is scrubbed (R426). -/
inductive ScrubKind where
  | opening | closing | request
deriving DecidableEq, Repr

/-- A scrub of a hall (R426 to R429): why, the root-clock period at which it began, and whether it has still to begin, because
the hall has to stop or another scrub or a keeper update comes first. -/
structure ScrubRun where
  kind : ScrubKind
  start : Nat
  waits : Bool
deriving DecidableEq, Repr


/-- A hall: what its pages do not hold. -/
structure Hall where
  /-- columns started since the last context switch (R483) -/
  columns : Nat
  bar : BarTree
  /-- core cycles of the hall's CK_CORE since module reset (R179, R473) -/
  cycles : Nat
  /-- protected near-memory pages of 64 KiB (R356) and gallery pages of 4 KiB (R447), and the writes they hold -/
  nearProt : SMap Bool
  nearHeld : List HeldWrite
  galProt : SMap Bool
  galHeld : List HeldWrite
  /-- requests that wait for the stack's controller, oldest first (R356); interfaces that still train for a new rate (R349) -/
  nearWait : List NearReq
  training : List (Fin 4)
  /-- engine queues by engine * 4 + queue (R317); the queue that an engine served last, 3 when absent (R321) -/
  engines : SMap EngRun
  lastQ : SMap Nat
  /-- started, its context switch waiting for an engine descriptor under way (R330) -/
  switching : Bool
  /-- the cairn being taken and the installed key pair, empty when there is none (R444, R446) -/
  cairn : Option CairnRun
  cairnKey : List Byte
  restoring : Option RestoreRun
  task : Option KeeperTask
  /-- further positions that failed, which are sealed with their LAST_SEAL causes once the hall has stopped; the result of a READMIT
  that ended while the hall ran (R14, R453, R457) -/
  faults : List (Position × Nat)
  readmitted : Option Bool
  /-- another hall of the partition went out of service, and no layout has been applied since (R11) -/
  outHeld : Bool
  /-- a function-level reset waits for the hall to stop (R401) -/
  resetting : Bool
  /-- a closing scrub waits for the hall to stop (R419) -/
  closing : Bool
  scrub : Option ScrubRun
  /-- STOP_INTERFACE_RESPONSE is sent when the closing scrub ends (R419) -/
  stopResp : Bool
  /-- the SPDM session that locked the hall and its bound stream (R420, R421) -/
  session : Option Nat
  stream : Option Nat
  /-- measurements 16 + h and 24 + h (R412, R413); empty before the first context switch -/
  measCfg : List Byte
  measRun : List Byte
  /-- the core cycle under way of the die: root periods passed and its length, whether it is stretched, and stretched cycles
  still to begin (R465, R473) -/
  corePhase : Nat
  coreLen : Nat
  stretched : Bool
  stretch : Nat
  /-- the root-clock period at which the last column started (R483) -/
  colAt : Nat
  /-- the progress counter has fired since the last progress mark (R441) -/
  progFired : Bool
deriving DecidableEq, Repr

def Hall.zero : Hall :=
  { columns := 0, bar := .zero, cycles := 0, nearProt := [], nearHeld := [], galProt := [], galHeld := [], nearWait := [], training := [], engines := [], lastQ := [], switching := false, cairn := none, cairnKey := [],
    restoring := none, task := none, faults := [], readmitted := none, outHeld := false, resetting := false, closing := false, scrub := none, stopResp := false, session := none, stream := none,
    measCfg := [], measRun := [], corePhase := 0, coreLen := 8, stretched := false, stretch := 0, colAt := 0, progFired := false }

/-! ### The module -/

/-- The phase of a block's commit (R47): what is being checked, and what has passed and waits for its safe point. -/
structure Commit where
  checking : Bool
  waiting : Bool
deriving DecidableEq, Repr

def Commit.zero : Commit := { checking := false, waiting := false }

/-- A data flit sent and not acknowledged (R372): its number, how many packets end in it, and its bytes, with which it is
replayed. -/
structure TxFlit where
  seq : BitVec 12
  ends : Nat
  bytes : List Byte
deriving DecidableEq, Repr

/-- The key of one direction of a link (R371): the key, its epoch, the data flits sent or received under it, and the flit count at
which the next key takes effect, with that key, once the keepers have fixed them. -/
structure LinkKey where
  key : BitVec 128
  epoch : BitVec 32
  count : Nat
  roll : Option (Nat × BitVec 128)
deriving DecidableEq, Repr

def LinkKey.zero : LinkKey := { key := 0, epoch := 0, count := 0, roll := none }

/-- The link state of a Yarlink port (R370 to R376): the number of the next flit sent and of the last flit received intact,
unacknowledged flits, packets waiting, the bytes still to send of the packet under way and its class, link credits in use and
owed by class, the bytes of a packet being received and the flits whose credits it keeps, whether flits are being discarded
until a replay, and the keys of both directions. -/
structure YPort where
  txSeq : BitVec 12
  rxSeq : BitVec 12
  unacked : List TxFlit
  queue : List Packet
  tail : List Byte
  tailCls : Nat
  used : SMap Nat
  owed : SMap Nat
  part : List Byte
  partHeld : Nat
  discarding : Bool
  tx : LinkKey
  rx : LinkKey
deriving DecidableEq, Repr

def YPort.zero : YPort :=
  { txSeq := 0, rxSeq := 0xFFF, unacked := [], queue := [], tail := [], tailCls := 0, used := [], owed := [], part := [],
    partHeld := 0, discarding := false, tx := .zero, rx := .zero }

/-- Where a packet enters the mesh (R19, R26): at a core's router, or from another module. -/
inductive MeshEnd where
  | core (c : CoreId)
  | port (p : PortId)
deriving DecidableEq, Repr

/-- What a packet toward a core's channel unit carries: a message, a sump contribution, or a credit of a send channel with the core
that returns it (R277, R287, R296). -/
inductive MeshBody where
  | message (m : Message)
  | contribution (m : Message)
  | credit (ch : Fin 32) (member : Nat)
deriving DecidableEq, Repr

/-- A packet on the mesh toward a core's channel unit (R19). -/
structure MeshPkt where
  src : MeshEnd
  dst : CoreId
  body : MeshBody
deriving DecidableEq, Repr

/-- A packet held at the routing step: the port it arrived at (none: this module), and the hall of its source (R367, R379). -/
structure RoutePkt where
  inp : Option PortId
  hall : HallId
  pkt : Packet
deriving DecidableEq, Repr

/-- A request outstanding at another module (R381): who made it, the queue of its descriptor, its tag, whether it writes, the
address on the module's side to which read data go (`host`: in host memory), its length, and its row and byte. -/
structure RemReq where
  who : Requester
  q : Fin 4
  tag : Nat
  write : Bool
  host : Bool
  addr : Nat
  len : Nat
  row : Nat
  byte : Nat
deriving DecidableEq, Repr

/-- An acknowledgement that waits for a held write (R381): the write's first address and length, and the packet. -/
structure PendAck where
  addr : Nat
  len : Nat
  hall : HallId
  inp : Option PortId
  pkt : Packet
deriving DecidableEq, Repr

/-- A keeper image that runs (R407, R408, R433). -/
structure KeeperImg where
  slot : Nat
  svn : Nat
  digest : List Byte
  /-- the preferred slot was not accepted at the last boot (R408) -/
  fallback : Bool
deriving DecidableEq, Repr

/-- The instructions of the test access port (R501); `reset` in Test-Logic-Reset. -/
inductive TapInstr where
  | reset | bypass | idcode | sample | extest | clamp | highz
deriving DecidableEq, Repr

/-- What a host request comes to. -/
inductive HostStatus where
  | ok
  /-- successful with the EP bit set (R390) -/
  | poisoned
  /-- Unsupported Request (R391, R422) -/
  | unsupported
  /-- Request Retry Status (R402) -/
  | retry
deriving DecidableEq, Repr

/-- What an SPDM responder may be capable of (R416). -/
inductive SpdmCap where
  | cert | chal | measSig | keyEx | encrypt | mac | hbeat | psk | mutAuth | measFresh
deriving DecidableEq, Repr

/-- An answer of the SPDM responder (R416 to R418). -/
inductive SpdmMsg where
  /-- the negotiation's answers: the capabilities advertised and the responder's algorithms (assumption log 60) -/
  | algorithms (caps : List SpdmCap)
  | certificate (chain : List Byte)
  | challengeAuth (sig : List Byte)
  | measurements (values : List (Nat × List Byte)) (sig : List Byte)
  | keyExchange (session : Nat) (sig : List Byte)
  /-- the stream's keys go, or stop -/
  | ideKm (stream : Nat) (stop : Bool)
  | lockResponse (h : HallId)
  | startResponse (h : HallId)
  | stopResponse (h : HallId)
  | error
  | busy
deriving DecidableEq, Repr

/-- An answer of the management endpoint (R498 to R500). -/
inductive PldmMsg where
  | reading (sensor : Nat) (value : Nat)
  /-- a sensor crosses its warning or critical threshold -/
  | event (sensor : Nat) (value : Nat)
  | accepted
  | alreadyInUpdateMode
  | notReady
  | invalid
deriving DecidableEq, Repr


/-- What has left the module, latest last (assumption log 5). -/
inductive Out where
  /-- an MSI-X message of a function: 0 PF0, h + 1 the VF of hall h; its table entry, address and data (R394) -/
  | msix (fn entry : Nat) (addr : Nat) (data : Word)
  /-- a message or sump contribution put on the mesh (R283, R295): its sender, the destination core, whether it goes to a
  sump, and the message -/
  | message (src : CoreId) (ch : Fin 32) (core : Nat) (sump : Bool) (m : Message)
  /-- a credit on its way back to a send channel (R278, R280, R287) -/
  | credit (src : CoreId) (dest : Sender)
  /-- a bank, controller or port answers a request: data of a read, and whether it is poisoned -/
  | reply (who : Nat) (data : List Byte) (poison : Bool)
  /-- a word read from a control page by an agent -/
  | word (a : Agent) (v : Word)
  /-- a write to host memory of a function (R399, R400) -/
  | hostWrite (fn : Nat) (addr : Nat) (data : List Byte)
  /-- a completion to the host -/
  | hostReply (data : List Byte) (st : HostStatus)
  /-- the bytes of a flit sent on a port (R370) -/
  | flit (p : PortId) (bytes : List Byte)
  /-- a packet delivered into this module, on its way to its target (R379) -/
  | packet (inp : Option PortId) (p : Packet)
  | spdm (m : SpdmMsg)
  | pldm (m : PldmMsg)
  /-- bits shifted out of the test access port -/
  | tdo (bits : List Bool)
deriving DecidableEq, Repr

/-- The state of the module. Words of the control space are kept by word index, page * 1024 + offset / 4; an absent word
reads as its reset value. -/
structure State where
  /-- the commands that wait, first in, first out -/
  pending : List Instr
  /-- the free-value counter, the model's own field (assumption log 2) -/
  fresh : Nat
  /-- chamber and gallery bytes by place (R243, R244); an absent place reads as zero (R250) -/
  mem : List Host.Cell
  /-- near-memory bytes written under the present keys, by device physical address (R354) -/
  near : List Host.Cell
  /-- halls whose near memory a scrub has zeroed under its present keys: an unlisted byte reads as zero (R427) -/
  nearZero : SMap Bool
  /-- key generations of near memory by hall; absent: 1 (R354) -/
  nearGen : SMap Nat
  /-- CXL bytes written under the present keys, by device address key (R362) -/
  cxl : List Host.Cell
  /-- key generations of the CXL tier by decoder; absent: 1 (R362) -/
  cxlGen : SMap Nat
  /-- poisoned lines and bursts by line number (R249, R353) -/
  poison : SMap Bool
  live : SMap Word
  staged : SMap Word
  applied : SMap Word
  snap : SMap Word
  waiting : SMap Word
  commits : SMap Commit
  errSeq : BitVec 16
  /-- read latches of 64-bit counters by counter and agent (R42) -/
  latch : SMap Word
  cores : SMap Core
  halls : SMap Hall
  banks : SMap (List WaitReq)
  /-- periods of the root clock (R462) -/
  rootTick : Nat
  /-- the cycle at which the open admission window opened, on hall 0's core clock (R128) -/
  window : Option Nat
  /-- links of the CXL tier whose bursts are lost, with the bursts rewritten since (R364), by target code -/
  cxlLost : SMap (Option (List Nat))
  /-- control-page writes that the command has still to perform, each with the ring that it carries (R215) -/
  posted : List (Agent × Nat × Word × BitVec 2)
  ports : SMap YPort
  /-- packets on the mesh toward channel units, oldest first (R19, R297) -/
  mesh : List MeshPkt
  routing : List RoutePkt
  remote : List RemReq
  pendAcks : List PendAck
  /-- completion posts taken and not yet made, by hall, oldest first (R399) -/
  posts : SMap (List Word)
  /-- the rails are on; a thermal trip is latched; the reference is lost; boundary scan holds the package; no keeper slot was
  accepted; a bridge has failed (R409, R471, R484, R487, R491, R501) -/
  vin : Bool
  tripped : Bool
  refLost : Bool
  scanHold : Bool
  recovery : Bool
  bridgeFail : Bool
  /-- PERST_N is asserted; VF Enable of PF0; a PF0 function-level reset is under way (R392, R402) -/
  perst : Bool
  vfEnable : Bool
  pf0Flr : Bool
  /-- the root-clock period at which the last measured interval ended, at which each ceiling last changed, and at which the current
  alert was last asserted; the hall whose column 0 started last, and when (R466, R467, R470, R483) -/
  lastInt : Nat
  ceilAt : SMap (Option Nat)
  alertAt : Nat
  col0 : Option (Nat × Nat)
  /-- the base address registers that the host has written, PF0's by dword and the VFs' under 6 and dword (R387); BAR2 requests accepted
  and not yet performed, oldest first (R390) -/
  cfgBar : SMap Word
  bar2Wait : List HostReq
  /-- consecutive intervals above CAP, and the mean powers of the last 128 intervals (R467, R468) -/
  capRun : Nat
  pwrWin : List Nat
  /-- flash bytes written since manufacture or since the slot's last erase; the slots erased since manufacture (R407, R432, R497) -/
  flash : List Host.Cell
  slotErased : SMap Bool
  /-- ROLLBACK steps blown in service: the count they reach (R410) -/
  blown : Nat
  /-- the keeper that runs, or ran last; none: the one that the flash of manufacture boots (R407, R408, R433) -/
  keeper : Option KeeperImg
  /-- the identity private key d in the keeper's private storage; SECRET is unreadable until the next module reset (R405, R406) -/
  privKey : Option Nat
  secretShut : Bool
  /-- measurement 40; empty: 32 zero bytes (R414) -/
  updLog : List Byte
  /-- the root-clock period at which the handover began (R433) -/
  updAt : Nat
  /-- the update under way was requested through PLDM; an ACTIVATE waits (R433, R500) -/
  pldmUpd : Bool
  activating : Bool
  /-- SPDM: algorithms negotiated, sessions, IDE streams keyed (R416, R420) -/
  spdmReady : Bool
  sessions : List Nat
  streams : List Nat
  /-- near-memory key generations before the last module reset, by hall; absent: 0 (R429) -/
  keyBase : SMap Nat
  tap : TapInstr
  boundaryReg : List Bool
  out : List Out
deriving DecidableEq, Repr

/-- Why a step stops. The module turns every error of software or data into state, so no rule raises a fault. -/
inductive Fault where
  /-- Raised by no command: kept so that the type is inhabited. Safe. -/
  | none
deriving DecidableEq, Repr

/-- Why a command is refused. -/
inductive Refusal where
  /-- Raised by an arm of exec whose command has no meaning yet; every arm has one, so by none. Safe. -/
  | notModelled (mnemonic : String)
deriving DecidableEq, Repr

/-- The state after reset: the end of module start-up (R482 step 9; assumption log 8), nothing waiting. -/
def State.reset : State :=
  { pending := [], fresh := 0, mem := [], near := [], nearZero := [], nearGen := [], cxl := [], cxlGen := [], poison := [],
    live := [(4608, 0x803), (263680, 0x102), (525824, 0x102), (787968, 0x102), (1050112, 0x102), (1312256, 0x102), (1574400, 0x102), (1836544, 0x102), (2098688, 0x102)], staged := [], applied := [], snap := [], waiting := [], commits := [], errSeq := 0,
    latch := [], cores := [], halls := [], banks := [], rootTick := 0, window := none, cxlLost := [], posted := [], ports := [],
    mesh := [], routing := [], remote := [], pendAcks := [], posts := [], vin := true, tripped := false, refLost := false, scanHold := false,
    recovery := false, bridgeFail := false, perst := true, vfEnable := false, pf0Flr := false,
    lastInt := 0, ceilAt := [], alertAt := 0, col0 := none, cfgBar := [], bar2Wait := [], capRun := 0, pwrWin := [],
    flash := [], slotErased := [], blown := 0, keeper := none, privKey := some (identityKey Config.secret), secretShut := true, updLog := [], updAt := 0, pldmUpd := false, activating := false,
    spdmReady := false, sessions := [], streams := [], keyBase := [], tap := .reset, boundaryReg := [], out := [] }


end Sys2Proof.Machine
end

