-- ==== Sys2Proof/Machine/Ops.lean ====
section
/-!
DEFINITION. The named operations over the state: sparse tables, cores, threads and halls, the control words of the pages
(R33 to R43), and 64-bit counters (R42).
-/
namespace Sys2Proof.Machine

/-- What a command answers. -/
abbrev Outcome := Host.Outcome State Fault Refusal

/-! ### Sparse tables -/

/-- What a table holds under a key. -/
def SMap.find? {α : Type} (m : SMap α) (k : Nat) : Option α :=
  match m with
  | [] => none
  | (k', v) :: t => if k = k' then some v else SMap.find? t k

/-- What a table reads as at a key, `d` when the key is absent. -/
def SMap.get {α : Type} (m : SMap α) (k : Nat) (d : α) : α := (SMap.find? m k).getD d

/-- The table with `v` under `k`, keys rising. -/
def SMap.put {α : Type} (m : SMap α) (k : Nat) (v : α) : SMap α :=
  match m with
  | [] => [(k, v)]
  | (k', v') :: t =>
    if k < k' then (k, v) :: (k', v') :: t
    else if k = k' then (k, v) :: t
    else (k', v') :: SMap.put t k v

/-- The table without `k`. -/
def SMap.erase {α : Type} (m : SMap α) (k : Nat) : SMap α :=
  match m with
  | [] => []
  | (k', v') :: t => if k = k' then SMap.erase t k else (k', v') :: SMap.erase t k

/-- The table that reads `v` at `k`, where an absent key reads as `d`. -/
def SMap.set {α : Type} [DecidableEq α] (m : SMap α) (k : Nat) (d v : α) : SMap α :=
  if v = d then SMap.erase m k else SMap.put m k v

/-- The table without the keys from `lo` up to but not including `hi`. -/
def SMap.clearRange {α : Type} (m : SMap α) (lo hi : Nat) : SMap α :=
  match m with
  | [] => []
  | (k, v) :: t => if lo ≤ k ∧ k < hi then SMap.clearRange t lo hi else (k, v) :: SMap.clearRange t lo hi

/-- The part of a table with keys from `lo` up to but not including `hi`. -/
def SMap.range {α : Type} (m : SMap α) (lo hi : Nat) : SMap α :=
  match m with
  | [] => []
  | (k, v) :: t => if lo ≤ k ∧ k < hi then (k, v) :: SMap.range t lo hi else SMap.range t lo hi

/-- `dst` with its keys from `lo` to `hi` as `src` has them. -/
def SMap.copyRange {α : Type} (src dst : SMap α) (lo hi : Nat) : SMap α :=
  (SMap.range src lo hi).foldl (fun m p => SMap.put m p.1 p.2) (SMap.clearRange dst lo hi)

/-! ### Bits -/

/-- A number with bits `[lo + w - 1 : lo]` replaced. -/
def setBits (v lo w x : Nat) : Nat := v - bitsOf v lo w * 2 ^ lo + x % 2 ^ w * 2 ^ lo

/-- Bits `[lo + w - 1 : lo]` of a word as a number. -/
def fieldOf (v : Word) (lo w : Nat) : Nat := bitsOf v.toNat lo w

/-- One as a number if set. -/
def b2n (b : Bool) : Nat := if b then 1 else 0

/-- A word from a number. -/
def w32 (n : Nat) : Word := BitVec.ofNat 32 n

/-- Whether a word has bit `i` set. -/
def wbit (v : Word) (i : Nat) : Bool := bitOf v.toNat i

/-- A word with bit `i` set. -/
def setWBit (v : Word) (i : Nat) : Word := v ||| BitVec.ofNat 32 (2 ^ i)

/-! ### Cores, threads, halls -/

/-- A thread of a core. -/
def Core.thread (k : Core) (t : Fin 4) : Thread := SMap.get k.threads t.val Thread.zero

/-- A core with one thread replaced. -/
def Core.setThread (k : Core) (t : Fin 4) (v : Thread) : Core :=
  { k with threads := SMap.set k.threads t.val Thread.zero v }

/-- A core of the module. -/
def State.core (s : State) (c : CoreId) : Core := SMap.get s.cores c.val Core.zero

/-- The state with one core replaced. -/
def State.setCore (s : State) (c : CoreId) (k : Core) : State :=
  { s with cores := SMap.set s.cores c.val Core.zero k }

/-- The state with one core changed. -/
def State.modCore (s : State) (c : CoreId) (f : Core → Core) : State := s.setCore c (f (s.core c))

/-- A thread of the module. -/
def State.thread (s : State) (x : Site) : Thread := (s.core x.core).thread x.thread

/-- The state with one thread replaced. -/
def State.setThread (s : State) (x : Site) (t : Thread) : State :=
  s.modCore x.core fun k => k.setThread x.thread t

/-- The state with one thread changed. -/
def State.modThread (s : State) (x : Site) (f : Thread → Thread) : State := s.setThread x (f (s.thread x))

/-- A hall of the module. -/
def State.hall (s : State) (h : HallId) : Hall := SMap.get s.halls h.val Hall.zero

/-- The state with one hall replaced. -/
def State.setHall (s : State) (h : HallId) (v : Hall) : State :=
  { s with halls := SMap.set s.halls h.val Hall.zero v }

/-- The state with one hall changed. -/
def State.modHall (s : State) (h : HallId) (f : Hall → Hall) : State := s.setHall h (f (s.hall h))

/-- A scalar register; s0 reads zero (R181). -/
def Thread.reg (t : Thread) (r : BitVec 5) : Word := if r = 0 then 0 else SMap.get t.regs r.toNat 0

/-- A write of a scalar register; s0 discards it (R181). -/
def Thread.setReg (t : Thread) (r : BitVec 5) (v : Word) : Thread :=
  if r = 0 then t else { t with regs := SMap.set t.regs r.toNat 0 v }

/-- A segment register (R190). -/
def Thread.seg (t : Thread) (n : Nat) : SegImage := SMap.get t.segs n 0

/-- A write of a segment register. -/
def Thread.setSeg (t : Thread) (n : Nat) (v : SegImage) : Thread := { t with segs := SMap.set t.segs n 0 v }

/-- The identifier of a logical core by hall and local index (R12). -/
def coreAt (h : HallId) (i : Fin 144) : CoreId := ⟨h.val * 144 + i.val, by have := h.isLt; have := i.isLt; omega⟩

/-- The cores of a hall in ascending local index. -/
def hallCores (h : HallId) : List CoreId := (List.finRange 144).map (coreAt h)

/-- The state with every core of a hall changed. -/
def State.modHallCores (s : State) (h : HallId) (f : Core → Core) : State :=
  (hallCores h).foldl (fun s c => s.modCore c f) s

/-- A fresh value of the free-value counter (assumption log 2). -/
def State.takeFresh (s : State) : Nat × State := (s.fresh, { s with fresh := s.fresh + 1 })

/-! ### Pages -/

/-- The first page of a hall (R33). -/
def hallPage (h : HallId) (k : Nat) : Nat := 0x100 + h.val * 0x100 + k

/-- Page j of a core (R33, R35). -/
def corePage (c : CoreId) (j : Nat) : Nat := 0x1000 + c.val * 4 + j

/-- The router, as local column and physical row, of attachment `a` of a hall (R26, R28; the numbers of R358: 0 to 5 the near-memory
controller, 6 and 7 its Yarlink ports, 8 its CXL port, 9 and 10 the PCIe port's for the top and the bottom row of halls). -/
def attachAt (h a : Nat) : Option (Nat × Nat) :=
  let edge := if h < 4 then 0 else 12
  let corner := h % 4 = 0 ∨ h % 4 = 3
  let side := if h % 4 = 0 then 0 else 11
  match a with
  | 0 => some (0, edge) | 1 => some (2, edge) | 2 => some (4, edge)
  | 3 => some (7, edge) | 4 => some (9, edge) | 5 => some (11, edge)
  | 6 => if corner then some (side, 3) else some (5, edge)
  | 7 => if corner then some (side, 9) else none
  | 8 => if h = 3 then some (11, 6) else if h = 4 then some (0, 6) else none
  | 9 => if h = 0 then some (0, 5) else none
  | 10 => if h = 0 then some (0, 7) else none
  | _ => none

/-- Whether a hall has the attachment router `a` (R26, R358). -/
def hasRouter (h a : Nat) : Bool := (attachAt h a).isSome

/-- The router of hall engine `n`, that of its bank group, in its own hall (R27, R317). -/
def engineAt (n : Fin 9) : Nat × Nat :=
  match n with
  | 0 => (4, 5) | 1 => (7, 5) | 2 => (4, 8) | 3 => (7, 8) | 4 => (10, 5)
  | 5 => (1, 11) | 6 => (4, 11) | 7 => (7, 11) | 8 => (10, 11)

/-- The router of the keeper complex, in hall 0 (R27). -/
def keeperAt : Nat × Nat := (6, 0)

/-- The package coordinates of a router of a hall (R18). -/
def packageXY (h : Nat) (at_ : Nat × Nat) : Nat × Nat := (h % 4 * 12 + at_.1, h / 4 * 13 + at_.2)

/-- The routers that a packet passes from one package position to another: along its row, then along the column; `fuel` bounds the
steps (R19). -/
def meshPath : (fuel : Nat) → (p q : Nat × Nat) → List (Nat × Nat)
  | 0, p, _ => [p]
  | n + 1, p, q =>
    if p.1 < q.1 then p :: meshPath n (p.1 + 1, p.2) q
    else if q.1 < p.1 then p :: meshPath n (p.1 - 1, p.2) q
    else if p.2 < q.2 then p :: meshPath n (p.1, p.2 + 1) q
    else if q.2 < p.2 then p :: meshPath n (p.1, p.2 - 1) q
    else [p]

/-- A page's block, its instance within the module (hall, core, port or unit) and its ordinal in the block (R33 to R35). -/
def pageBlock (p : Nat) : Option (Block × Nat × Nat) :=
  if p = 0 then some (.keeper, 0, 0)
  else if p = 1 then some (.ident, 0, 0)
  else if p < 4 then some (.power, 0, p - 2)
  else if p = 4 then some (.clock, 0, 0)
  else if p < 8 then none
  else if p < 0x10 then some (.security, 0, p - 8)
  else if p < 0x1C then some (.yarlink, p - 0x10, 0)
  else if p < 0x20 then none
  else if p < 0x28 then some (.host, p - 0x20, 0)
  else if p < 0x30 then none
  else if p < 0x38 then some (.cxl, (p - 0x30) / 4, (p - 0x30) % 4)
  else if p < 0x100 then none
  else if p < 0x900 then
    let h := (p - 0x100) / 0x100
    let k := (p - 0x100) % 0x100
    if k = 0 then some (.hall, h, 0)
    else if k < 4 then some (.memctl, h, k - 1)
    else if k < 8 then none
    else if k < 0xC then some (.siphon, h, k - 8)
    else if k = 0xC then some (.sort, h, 0)
    else if k = 0xD then some (.sampler, h, 0)
    else if k = 0xE then some (.squeeze, h, 0)
    else if k = 0xF then some (.cipher, h, 0)
    else if k < 0x14 then some (.hdma, h, 0)
    else if k < 0x20 then none
    else if k < 0x24 then some (.barrier, h, k - 0x20)
    else if k < 0x40 then none
    else if k < 0x80 then some (.chimney, h, k - 0x40)
    else if k = 0x80 then some (.seal, h, 0)
    else if k = 0x84 then some (.progress, h, 0)
    else if k < 0x90 then none
    else if k < 0xA0 then (if hasRouter h (k - 0x90) then some (.router, h, 0) else none)
    else none
  else if p < 0x1000 then none
  else if p < 0x2200 then
    let c := (p - 0x1000) / 4
    match (p - 0x1000) % 4 with
    | 0 => some (.core, c, 0)
    | 1 => some (.channel, c, 0)
    | 2 => some (.tally, c, 0)
    | _ => some (.lantern, c, 0)
  else none

/-- Type codes of the blocks (R33 to R35). -/
def blockCode : Block → Nat
  | .keeper => 1 | .ident => 2 | .power => 3 | .clock => 4 | .security => 5 | .yarlink => 0x10 | .host => 0x11
  | .cxl => 0x12 | .hall => 0x20 | .memctl => 0x21 | .siphon => 0x22 | .sort => 0x23 | .sampler => 0x24
  | .squeeze => 0x25 | .cipher => 0x26 | .hdma => 0x27 | .barrier => 0x28 | .chimney => 0x29 | .seal => 0x2A
  | .router => 0x2B | .progress => 0x2C | .core => 0x30 | .channel => 0x31 | .tally => 0x32 | .lantern => 0x33

/-- Pages of a block (R33 to R36: PAGE_SPAN [7:0]). -/
def blockSpan : Block → Nat
  | .power => 2 | .security => 8 | .cxl => 4 | .memctl => 3 | .siphon => 4 | .barrier => 4
  | .chimney => 64 | _ => 1

/-- A page's first page, where its block's commit acts (R45). The HOST pages are one block per function (R392). -/
def firstPage (p : Nat) : Nat :=
  match pageBlock p with
  | some (_, _, ord) => p - ord
  | none => p

/-- The hall of a hall or core page (R33). -/
def pageHall (p : Nat) : Option HallId :=
  if 0x100 ≤ p ∧ p < 0x900 then some (Fin.ofNat 8 ((p - 0x100) / 0x100))
  else if 0x1000 ≤ p ∧ p < 0x2200 then some (Fin.ofNat 8 ((p - 0x1000) / 576))
  else none

/-- A register row at an offset: the row, the register's number and whether it is the high half of a 64-bit register. -/
def rowAt (rows : List RegRow) (off : Nat) : Option (RegRow × Nat × Bool) :=
  match rows with
  | [] => none
  | r :: t =>
    let d := off - r.base
    let n := if r.stride = 0 then 0 else d / r.stride
    let q := d - n * r.stride
    if r.base ≤ off ∧ n < r.count ∧ (q = 0 ∨ (r.wide = true ∧ q = 4)) then some (r, n, decide (q = 4))
    else rowAt t off

/-- The register at an offset of a page. -/
def regAt (page off : Nat) : Option (RegRow × Nat × Bool) :=
  match pageBlock page with
  | some (b, inst, ord) => rowAt (regRows b inst ord) off
  | none => none

/-- The defined bits of the word at an offset of a page; reserved bits are zero. -/
def maskAt (page off : Nat) : Nat :=
  match regAt page off with
  | some (r, _, hi) => if hi then r.mask / 2 ^ 32 else r.mask % 2 ^ 32
  | none => 0

/-- The spare map of a column as the fuses give it (R16): what failed at manufacture is a working position, which the spare then
replaces, the spare itself, or nothing, so that every hall has its 144 cores; reserved bits are zero (assumption log 9). -/
def fusedColmap (h c : Nat) : Word :=
  let f := fieldOf (Config.colmap h c) 0 4
  if f < 12 then w32 (f + 2 * 2 ^ 4 + 2 ^ (16 + f)) else if f = 12 then w32 (0xF + 3 * 2 ^ 4 + 2 ^ 28) else 0xF

/-- The index of a control word. -/
def widx (page off : Nat) : Nat := page * 1024 + off / 4

/-- The reset value of a control word (R36 and the register tables; R16 and R53 for what is per part). -/
def resetWord (page off : Nat) : Word :=
  match pageBlock page with
  | none => 0
  | some (b, inst, _) =>
    if off = 0x01C then 0xFF
    else if off < 0x100 then 0
    else if b = .hall ∧ 0x800 ≤ off ∧ off < 0x830 then fusedColmap inst ((off - 0x800) / 4)
    else if b = .ident ∧ off = 0x810 then Config.stepping.setWidth 32
    else match regAt page off with
      | some (r, _, hi) => w32 (if hi then r.reset / 2 ^ 32 else r.reset)
      | none => 0

/-- A live word of a page. -/
def State.liveWord (s : State) (page off : Nat) : Word := SMap.get s.live (widx page off) (resetWord page off)

/-- The state with a live word replaced. -/
def State.setLive (s : State) (page off : Nat) (v : Word) : State :=
  { s with live := SMap.set s.live (widx page off) (resetWord page off) v }

/-- A staged word of a page (R43). -/
def State.stagedWord (s : State) (page off : Nat) : Word := SMap.get s.staged (widx page off) (resetWord page off)

/-- The state with a staged word replaced. -/
def State.setStaged (s : State) (page off : Nat) (v : Word) : State :=
  { s with staged := SMap.set s.staged (widx page off) (resetWord page off) v }

/-- An applied word of a page: what the block acts on (R44, R48). -/
def State.applWord (s : State) (page off : Nat) : Word := SMap.get s.applied (widx page off) (resetWord page off)

/-- A 64-bit live counter (R42). -/
def State.live64 (s : State) (page off : Nat) : Nat :=
  (s.liveWord page off).toNat + 2 ^ 32 * (s.liveWord page (off + 4)).toNat

/-- The state with a 64-bit live counter replaced. -/
def State.setLive64 (s : State) (page off n : Nat) : State :=
  (s.setLive page off (w32 n)).setLive page (off + 4) (w32 (n / 2 ^ 32))

/-- A 64-bit counter counts. -/
def State.count64 (s : State) (page off n : Nat) : State := s.setLive64 page off (s.live64 page off + n)

/-- A 32-bit counter that stops at 0xFFFF_FFFF counts. -/
def State.countSat (s : State) (page off n : Nat) : State :=
  s.setLive page off (w32 (min 0xFFFFFFFF ((s.liveWord page off).toNat + n)))

/-- A field of a live word is replaced. -/
def State.setField (s : State) (page off lo w v : Nat) : State :=
  s.setLive page off (w32 (setBits (s.liveWord page off).toNat lo w v))

/-- A field of a live word. -/
def State.field (s : State) (page off lo w : Nat) : Nat := fieldOf (s.liveWord page off) lo w

/-- The run state of a hall: 0 stopped, 1 starting, 2 running, 3 stopping (R153). -/
def State.hallState (s : State) (h : HallId) : Nat := s.field (hallPage h 0) 0x00C 0 2

/-- A hall that is stopped (R153). -/
def State.stopped (s : State) (h : HallId) : Bool := s.hallState h == 0

/-- A progress mark: PROG_COUNT returns to zero and may fire again (R440, R441). -/
def State.progMark (s : State) (h : HallId) : State :=
  (s.modHall h fun v => { v with progFired := false }).setLive (hallPage h 0x84) 0x8B0 0

/-- The layout in force (R21). -/
def State.partLive (s : State) : Nat := s.field 0 0x800 0 3

/-- The partition of a hall under a layout (R22, R24): a number equal for the halls of one partition. -/
def partOf (layout h : Nat) : Nat :=
  match layout with
  | 0 => 0
  | 1 => h / 4
  | 2 => h % 4 / 2
  | 3 => h / 2
  | 4 => h % 4
  | _ => h

/-- Two halls of one partition (R24). -/
def State.samePart (s : State) (h g : HallId) : Bool := partOf s.partLive h.val == partOf s.partLive g.val

/-- The halls of a hall's partition. -/
def State.partHalls (s : State) (h : HallId) : List HallId := (List.finRange 8).filter (s.samePart h)

/-- STAGE_GEN of a page's block: not zero once a configuration is applied (R36, R52). -/
def State.stageGen (s : State) (page : Nat) : Word := s.liveWord (firstPage page) 0x028

/-- Whether the VF of a hall is visible: VF Enable, and an applied configuration (R52, R392). -/
def State.vfVisible (s : State) (h : Nat) : Bool := s.vfEnable && s.stageGen (0x20 + h) != 0

end Sys2Proof.Machine
end

