-- ==== Sys2Proof/Machine/Flags.lean ====
section
/-!
DEFINITION. What the module has in place of a flags register (R187: it has none): the ERR registers with the module error
sequence and the error notices (R36 to R40, R228), pending interrupts (R227), MSI-X messages (R394), and the tally
counters (R76 to R81).
-/
namespace Sys2Proof.Machine

/-! ### Interrupts -/

/-- The pending bit of interrupt vector `v` of a thread is set (R227). -/
def State.pend (s : State) (x : Site) (v : Nat) : State :=
  s.modThread x fun t => { t with intpend := setWBit t.intpend (v - 32) }

/-- Event bit `b` of a thread is set (R164). -/
def State.setEvent (s : State) (x : Site) (b : Nat) : State :=
  s.modThread x fun t => { t with ev := setWBit t.ev b }

/-- Whether what leaves is a TLP of the PCIe port (assumption log 24). -/
def isTlp : Out → Bool
  | .msix _ _ _ _ => true
  | .hostWrite _ _ _ => true
  | .hostReply _ _ => true
  | _ => false

/-- A TLP arrives at the PCIe port (R403). -/
def State.rxTlp (s : State) : State := s.count64 0x20 0xC08 1

/-- A TLP that is no message, write or completion leaves the PCIe port: a read request (R403). -/
def State.txRequest (s : State) : State := s.count64 0x20 0xC10 1

/-- Something leaves the module (assumption log 5); TX_TLP counts TLPs (R403). -/
def State.emit (s : State) (o : Out) : State :=
  let s := if isTlp o then s.count64 0x20 0xC10 1 else s
  { s with out := s.out ++ [o] }

/-- The page and offset of an MSI-X entry of a function (0: PF0, h + 1: the VF of hall h), and of its pending-bit array
(R394). -/
def msixPage (fn : Nat) : Nat := if fn = 0 then 0x20 else 0x20 + (fn - 1)
def msixOff (fn entry : Nat) : Nat := (if fn = 0 then 0xD00 else 0xE00) + 16 * entry
def pbaOff (fn : Nat) : Nat := if fn = 0 then 0xCF0 else 0xE40

/-- The message of an MSI-X entry as its table holds it. -/
def State.msixSend (s : State) (fn entry : Nat) : State :=
  let p := msixPage fn
  let o := msixOff fn entry
  s.emit (.msix fn entry ((s.liveWord p o).toNat + 2 ^ 32 * (s.liveWord p (o + 4)).toNat) (s.liveWord p (o + 8)))

/-- STATE of UPD_STAT (R432). -/
def State.updState (s : State) : Nat := s.field 0xB 0x808 0 3

/-- Whether a function sends no MSI-X message now: PF0 while a keeper hands over (R434), a VF that is not visible, which has no output
toward the host (R52; that its raises then wait like masked ones: assumption log 34). -/
def State.msixHeld (s : State) (fn : Nat) : Bool :=
  if fn = 0 then s.updState == 5 else !s.vfVisible (fn - 1)

/-- An MSI-X entry is raised: a masked entry sets its pending bit, with which later raises merge (R394). -/
def State.raiseMsix (s : State) (fn entry : Nat) : State :=
  let p := msixPage fn
  if wbit (s.liveWord p (msixOff fn entry + 12)) 0 || s.msixHeld fn then
    s.setLive p (pbaOff fn) (setWBit (s.liveWord p (pbaOff fn)) entry)
  else s.msixSend fn entry

/-! ### Errors -/

/-- The ERR bits that a page's block defines (R36 and the chapters); errors are recorded in a block's first page (assumption
log 11). -/
def errBits (page : Nat) : Nat :=
  if firstPage page ≠ page then 0 else
  match pageBlock page with
  | some (.keeper, _, _) => 0x1
  | some (.hall, _, _) => 0x3F
  | some (.memctl, _, _) => 0x3F
  | some (.siphon, _, _) | some (.sort, _, _) | some (.sampler, _, _) | some (.squeeze, _, _)
  | some (.cipher, _, _) | some (.hdma, _, _) => 0xFF
  | some (.barrier, _, _) => 0x1
  | some (.seal, _, _) => 0xF
  | some (.progress, _, _) => 0x1
  | some (.channel, _, _) => 0x1F
  | some (.yarlink, _, _) => 0x3F
  | some (.cxl, _, _) => 0x7
  | some (.host, 0, _) => 0x10F
  | some (.host, _, _) => 0xF
  | some (.power, _, _) => 0xF
  | _ => 0

/-- The error notice to a hall: vector 36 of thread 0 of each core and MSI-X entry 1 of its VF (R228). -/
def State.hallNotice (s : State) (h : HallId) : State :=
  ((hallCores h).foldl (fun s c => s.pend ⟨c, 0⟩ 36) s).raiseMsix (h.val + 1) 1

/-- The hall of a Yarlink port (R26). -/
def portHall (n : Nat) : HallId :=
  match n with
  | 0 => 0 | 1 => 0 | 2 => 1 | 3 => 2 | 4 => 3 | 5 => 3 | 6 => 4 | 7 => 4 | 8 => 5 | 9 => 6 | _ => 7

/-- The halls that share decoders with a target on CXL port p (R228, R361). -/
def State.cxlHalls (s : State) (p : Nat) : List HallId :=
  (List.finRange 8).filter fun h =>
    (List.range 8).any fun d =>
      let rng := s.applWord 0x31 (0x100 + 16 * d)
      let cfg := s.applWord 0x31 (0x104 + 16 * d)
      let tgt := s.applWord 0x31 (0x108 + 16 * d)
      fieldOf rng 16 16 != 0 && wbit cfg (2 + h.val) &&
        (List.range (2 ^ fieldOf cfg 0 2)).any fun w => fieldOf tgt (4 * w) 3 / 4 == p

/-- A mirror bit of HALL.EXTERR is set (R228). -/
def State.mirror (s : State) (b : Nat) (h : HallId) : State :=
  s.setLive (hallPage h 0) 0x8C0 (setWBit (s.liveWord (hallPage h 0) 0x8C0) b)

/-- The error notice of bit `bit` of a page (R228). -/
def State.notice (s : State) (page bit : Nat) : State :=
  match pageHall page with
  | some h => s.hallNotice h
  | none =>
    match pageBlock page with
    | some (.yarlink, n, _) =>
      ((s.partHalls (portHall n)).foldl (fun s h => (s.mirror n h).hallNotice h) s).raiseMsix 0 6
    | some (.cxl, p, _) => ((s.cxlHalls p).foldl (fun s h => (s.mirror (12 + p) h).hallNotice h) s).raiseMsix 0 6
    | some (.host, h, _) => if bit = 8 then s.raiseMsix 0 6 else s.hallNotice (Fin.ofNat 8 h)
    | _ => s.raiseMsix 0 6

/-- An error is recorded in a page: sequence, ERR bit, first error and notice (R38, R39, R228). Errors of a block of
several pages are recorded in its first page (assumption log 11). -/
def State.recordErr (s : State) (page bit : Nat) (inj : Bool := false) : State :=
  let p := firstPage page
  let q := s.errSeq + 1
  let e := s.liveWord p 0x010
  let s := { s with errSeq := q }
  let s := if e = 0 then s.setLive p 0x01C (w32 (bit + b2n inj * 2 ^ 8 + q.toNat * 2 ^ 16)) else s
  let s := s.setLive p 0x010 (setWBit e bit)
  if wbit e bit || wbit (s.liveWord p 0x014) bit then s else s.notice p bit

/-- The source code of an access error (R40). -/
def agentSrc : Agent → Nat
  | .core x => x.core.val
  | .engine _ n => 0x8000 + n.val
  | _ => 0xFFFF

/-- The issuing hall of an access (R40). -/
def agentHall : Agent → Option HallId
  | .core x => some x.hall
  | .engine h _ => some h
  | .vf h _ => some h
  | _ => none

/-- An access error recorded in one page: the first after ACCESS was last clear is held (R40). DESIGN CHOICE: an ACCESS bit that ERR_INJ
has set counts as such an access, so the first real access error after it leaves the registers as they are (assumption log 35). -/
def State.recordAccessIn (s : State) (page : Nat) (a : Agent) (addr : Nat) (write vfoff : Bool) : State :=
  let first := !wbit (s.liveWord page 0x010) 0
  let s := if first then
      ((s.setLive page 0x840 (w32 addr)).setLive page 0x844 (w32 (addr / 2 ^ 32 % 2 ^ 16))).setLive page 0x848
        (w32 (agentSrc a + b2n write * 2 ^ 16 + b2n vfoff * 2 ^ 17))
    else s
  s.recordErr page 0

/-- An access error: in the keeper page and in the HALL page of the issuing hall (R40). DESIGN CHOICE: of the two recordings the keeper
page takes the lower SEQ, an order between pages that R39 does not give (assumption log 36). -/
def State.accessError (s : State) (a : Agent) (addr : Nat) (write : Bool) (vfoff : Bool := false) : State :=
  let s := s.recordAccessIn 0 a addr write vfoff
  match agentHall a with
  | some h => s.recordAccessIn (hallPage h 0) a addr write vfoff
  | none => s

/-! ### Tallies -/

/-- The first page of an engine of a hall, by engine number (R34, R317: 0 siphon, 1 sort, 2 sampler, 3 squeeze, 4 cipher,
5 to 8 hall DMA). -/
def enginePage (h : HallId) (n : Nat) : Nat :=
  match n with
  | 0 => hallPage h 0x08 | 1 => hallPage h 0x0C | 2 => hallPage h 0x0D | 3 => hallPage h 0x0E | 4 => hallPage h 0x0F
  | n => hallPage h (0x10 + (n - 5))

/-- Page and base offset of the tally slots of a core or engine: slot s lies at base + 16 s (R79). -/
def tallyBase : TallyUnit → Nat × Nat
  | .core c => (corePage c 2, 0x800)
  | .engine h n => (enginePage h n.val, 0xF00)

/-- Elements of one class add to a counter that stops at 0xFFFF_FFFF (R76, R77). -/
def State.tallyAdd (s : State) (u : TallyUnit) (slot cls n : Nat) : State :=
  let (p, b) := tallyBase u
  let k := match cls with | 3 => 0 | 2 => 4 | _ => 8
  if n = 0 then s else s.countSat p (b + 16 * slot + k) n

/-- Elements written are counted in a tally slot; slot 0 counts nothing (R76 to R78). -/
def State.tally (s : State) (u : TallyUnit) (slot f : Nat) (es : List Elem) : State :=
  if slot = 0 then s
  else
    let cs := es.map (classify f)
    ((s.tallyAdd u slot 3 (cs.count 3)).tallyAdd u slot 2 (cs.count 2)).tallyAdd u slot 1 (cs.count 1)

/-- The three counters of a slot are cleared (R81). -/
def State.tallyClear (s : State) (u : TallyUnit) (slot : Nat) : State :=
  let (p, b) := tallyBase u
  if slot = 0 then s
  else ((s.setLive p (b + 16 * slot) 0).setLive p (b + 16 * slot + 4) 0).setLive p (b + 16 * slot + 8) 0

/-- Whether some counter of a slot is not zero (R79: TALLY_NZ). -/
def State.tallyNz (s : State) (u : TallyUnit) (slot : Nat) : Bool :=
  let (p, b) := tallyBase u
  slot != 0 && (s.liveWord p (b + 16 * slot) != 0 || s.liveWord p (b + 16 * slot + 4) != 0
    || s.liveWord p (b + 16 * slot + 8) != 0)

end Sys2Proof.Machine
end

