-- ==== Sys2Proof/Machine/MemMap.lean ====
section
/-!
DEFINITION. The device physical address map (R30 to R32), the bank hash (R242 to R244), the limits of partitions (R24) and
the HDM decoders (R362), and reads and writes of memory: chamber and gallery lines with poison (R249), near memory with
held writes (R353, R354, R356, R447), the CXL tier (R363, R364).
-/
namespace Sys2Proof.Machine

/-! ### The address map -/

/-- The windows of R30. -/
inductive Win where
  | near (h : HallId) (off : Nat)
  | cxl (off : Nat)
  | gallery (h : HallId) (off : Nat)
  | chamber (c : CoreId) (off : Nat)
  | control (off : Nat)
  /-- outside every window, or in the unused part of one (R31) -/
  | nothing
deriving DecidableEq, Repr

/-- The window of a device physical address (R30, R31). -/
def winOf (a : Nat) : Win :=
  if a < 8 * 0x1200000000 then .near (Fin.ofNat 8 (a / 0x1200000000)) (a % 0x1200000000)
  else if a < 0x100000000000 then .nothing
  else if a < 0x200000000000 then .cxl (a - 0x100000000000)
  else if a < 0xE00000000000 then .nothing
  else if a < 0xE00080000000 then
    let d := a - 0xE00000000000
    if d % 0x10000000 < 0xC000000 then .gallery (Fin.ofNat 8 (d / 0x10000000)) (d % 0x10000000) else .nothing
  else if a < 0xE10000000000 then .nothing
  else if a < 0xE10000000000 + 1152 * 0x200000 then
    let d := a - 0xE10000000000
    if d % 0x200000 < 0x100000 then .chamber (Fin.ofNat 1152 (d / 0x200000)) (d % 0x200000) else .nothing
  else if a < 0xFF0000000000 then .nothing
  else if a < 0xFF0004000000 then .control (a - 0xFF0000000000)
  else .nothing

/-- Base addresses of the windows. -/
def nearBase (h : HallId) : Nat := h.val * 0x1200000000
def galleryBase (h : HallId) : Nat := 0xE00000000000 + h.val * 0x10000000
def chamberBase (c : CoreId) : Nat := 0xE10000000000 + c.val * 0x200000
def controlBase : Nat := 0xFF0000000000

/-- The salt of a hall (R242). -/
def State.salt (s : State) (h : HallId) : Nat := s.field (hallPage h 0) 0x8A0 0 16

/-- The gallery bank of a line index (R243). -/
def galleryBank (l salt : Nat) : Nat :=
  let u : BitVec 16 := BitVec.ofNat 16 (l / 64)
  let v := (u.rotateLeft (salt % 16)).toNat
  let f := (bitsOf v 0 6).xor ((bitsOf v 6 6).xor (bitsOf v 12 4))
  (bitsOf l 0 6).xor (f.xor (bitsOf salt 4 6))

/-- The chamber bank of a line index (R243). -/
def chamberBank (l salt : Nat) : Nat :=
  let u : BitVec 10 := BitVec.ofNat 10 (l / 16)
  let r := bitsOf salt 12 4
  let v := (u.rotateLeft (if 10 ≤ r then r - 10 else r)).toNat
  let f := (bitsOf v 0 4).xor ((bitsOf v 4 4).xor (bitsOf v 8 2))
  (bitsOf l 0 4).xor (f.xor (bitsOf salt 8 4))

/-- The place of a gallery offset: bank and row under the salt, as an offset of the window (R243, R244). -/
def galleryPlace (o salt : Nat) : Nat :=
  let l := o / 64
  (l / 64 * 64 + galleryBank l salt) * 64 + o % 64

/-- The place of a chamber offset (R243, R244). -/
def chamberPlace (o salt : Nat) : Nat :=
  let l := o / 64
  (l / 16 * 16 + chamberBank l salt) * 64 + o % 64

/-- The key under which a chamber or gallery byte is kept. -/
def State.placeOf (s : State) : Win → Nat
  | .gallery h o => galleryBase h + galleryPlace o (s.salt h)
  | .chamber c o => chamberBase c + chamberPlace o (s.salt c.hall)
  | _ => 0

/-- The HDM decoder of a tier offset: its number, target code and device address (R362). -/
def State.cxlDecode (s : State) (t : Nat) : Option (Nat × Nat × Nat) :=
  (List.range 8).findSome? fun d =>
    let rng := s.applWord 0x31 (0x100 + 16 * d)
    let cfg := s.applWord 0x31 (0x104 + 16 * d)
    let tgt := s.applWord 0x31 (0x108 + 16 * d)
    let dpa := s.applWord 0x31 (0x10C + 16 * d)
    let lo := fieldOf rng 0 16 * 2 ^ 28
    let size := fieldOf rng 16 16
    let hi := lo + size * 2 ^ 28
    if size ≠ 0 ∧ lo ≤ t ∧ t < hi then
      let k := (t - lo) / 4096
      let w := 2 ^ fieldOf cfg 0 2
      some (d, fieldOf tgt (4 * (k % w)) 3, fieldOf dpa 0 16 * 2 ^ 28 + k / w * 4096 + t % 4096)
    else none

/-- Whether a decoder lists a hall (R362). -/
def State.decoderHas (s : State) (d : Nat) (h : HallId) : Bool := wbit (s.applWord 0x31 (0x104 + 16 * d)) (2 + h.val)

/-- The state of the link of a target code: 2 up (R364). -/
def State.linkState (s : State) (target : Nat) : Nat := s.field (0x30 + 4 * (target / 4)) (0x800 + 4 * (target % 4)) 0 2

/-- Whether the last scrub of a hall failed, so that it reaches no agent but the keeper (R428, R429). -/
def State.scrubFailed (s : State) (h : HallId) : Bool := s.field 0xA (0x800 + 32 * h.val) 16 8 == 1

/-- Whether an access of an agent to an address reaches memory (R24, R31, R362, R428); otherwise it behaves as under R31. -/
def State.reaches (s : State) (a : Agent) (addr : Nat) : Bool :=
  let inPart (h : HallId) : Bool :=
    match a with
    | .core x => s.samePart x.hall h && !s.scrubFailed h
    | .engine g _ => s.samePart g h && !s.scrubFailed h
    | _ => true
  match winOf addr with
  | .near h _ => inPart h
  | .gallery h _ => inPart h
  | .chamber c _ => inPart c.hall
  | .cxl t =>
    match s.cxlDecode t with
    | some (d, _, _) => match agentHall a with | some h => s.decoderHas d h | none => true
    | none => false
  | .control _ => true
  | .nothing => false

/-! ### Cells -/

/-- A byte of a cell list; none when it lists nothing at the address. -/
def cellAt (m : List Host.Cell) (a : Nat) : Option Byte := SMap.find? m a

/-- A cell list with a byte written, where an absent address reads as zero. -/
def cellSet0 (m : List Host.Cell) (a : Nat) (b : Byte) : List Host.Cell := SMap.set m a 0 b

/-- A cell list with a byte written, where an absent address reads as a free value. -/
def cellPut (m : List Host.Cell) (a : Nat) (b : Byte) : List Host.Cell := SMap.put m a b

/-- The byte at an address as memory holds it (R249, R354, R362, R427). -/
def State.byteAt (s : State) (addr : Nat) : Byte :=
  match winOf addr with
  | .near h _ =>
    (cellAt s.near addr).getD
      (if SMap.get s.nearZero h.val false then 0 else Config.nearByte (SMap.get s.nearGen h.val 1) addr)
  | .cxl t =>
    match s.cxlDecode t with
    | some (d, _, _) => (cellAt s.cxl addr).getD (Config.cxlByte (SMap.get s.cxlGen d 1) addr)
    | none => 0
  | .control _ => 0
  | .nothing => 0
  | w => (cellAt s.mem (s.placeOf w)).getD 0

/-- The state with the byte at an address written, when memory is there. -/
def State.setByte (s : State) (addr : Nat) (b : Byte) : State :=
  match winOf addr with
  | .near h _ =>
    { s with near := if SMap.get s.nearZero h.val false then cellSet0 s.near addr b else cellPut s.near addr b }
  | .cxl t => if (s.cxlDecode t).isSome then { s with cxl := cellPut s.cxl addr b } else s
  | .control _ => s
  | .nothing => s
  | w => { s with mem := cellSet0 s.mem (s.placeOf w) b }

/-- `n` bytes from an address. -/
def State.bytesAt (s : State) : (addr n : Nat) → List Byte
  | _, 0 => []
  | a, n + 1 => s.byteAt a :: s.bytesAt (a + 1) n

/-- Bytes written from an address. -/
def State.setBytes (s : State) (addr : Nat) : List Byte → State
  | [] => s
  | b :: t => (s.setByte addr b).setBytes (addr + 1) t

/-! ### Lines, poison and counters -/

/-- The number of the line or burst of an address in the poison table: by place for chamber and gallery. -/
def State.lineKey (s : State) (addr : Nat) : Nat :=
  match winOf addr with
  | .gallery h o => s.placeOf (.gallery h o) / 64
  | .chamber c o => s.placeOf (.chamber c o) / 64
  | _ => addr / 64

/-- Whether the burst of a tier address is lost with its link (R364). -/
def State.cxlLostAt (s : State) (addr : Nat) : Bool :=
  match winOf addr with
  | .cxl t =>
    match s.cxlDecode t with
    | some (_, target, _) =>
      s.linkState target != 2 ||
        (match SMap.get s.cxlLost target none with
         | some l => !(l.contains (addr / 64))
         | none => false)
    | none => false
  | _ => false

/-- Whether the line of an address is poisoned (R249, R353, R364). -/
def State.poisoned (s : State) (addr : Nat) : Bool := SMap.get s.poison (s.lineKey addr) false || s.cxlLostAt addr

/-- The near-memory router through which an agent's request enters (R350). -/
def nearRouter (a : Agent) (off : Nat) : Nat :=
  match a with
  | .core x => x.core.column / 2
  | _ => off / 64 % 6

/-- What one line or burst access counts (R252, R253, R357, R358, R364). -/
def State.countLine (s : State) (a : Agent) (addr : Nat) (write : Bool) : State :=
  match winOf addr with
  | .chamber c _ => s.count64 (corePage c 0) 0xB80 1
  | .gallery h o => s.count64 (hallPage h 0) (0xA00 + 16 * galleryBank (o / 64) (s.salt h)) 1
  | .near h o =>
    let r := hallPage h (0x90 + nearRouter a o)
    ((s.count64 (hallPage h 1) (if write then 0x810 else 0x808) 1).count64 r 0x808 1).count64 r 0x800 1
  | .cxl t =>
    match s.cxlDecode t with
    | some (_, target, _) =>
      let p := target / 4
      let r := if p = 0 then hallPage 3 0x98 else hallPage 4 0x98
      ((s.count64 (0x30 + 4 * p) (if write then 0x848 else 0x840) 1).count64 r 0x808 1).count64 r 0x800 1
    | none => s
  | _ => s

/-- The pieces of an access by line: address and length of each (R260); `fuel` bounds the lines. -/
def linePieces : (fuel addr n : Nat) → List (Nat × Nat)
  | 0, _, _ => []
  | k + 1, a, n =>
    if n = 0 then []
    else
      let m := min n (64 - a % 64)
      (a, m) :: linePieces k (a + m) (n - m)

/-- The pieces of an access of `n` bytes. -/
def pieces (addr n : Nat) : List (Nat × Nat) := linePieces (n / 64 + 2) addr n

/-! ### Held writes -/

/-- What a write is: of a core the observer, the place in issue order and the ring it carries (R215, R254, R255), of an engine the
queue. -/
structure WriteTag where
  obs : Nat := 0
  seq : Nat := 0
  ring : BitVec 2 := 0

/-- Whether the page of an address is protected by the snapshot engine (R356, R447). -/
def State.protectedAt (s : State) (addr : Nat) : Bool :=
  match winOf addr with
  | .near h o => SMap.get (s.hall h).nearProt (o / 0x10000) false
  | .gallery h o => SMap.get (s.hall h).galProt (o / 0x1000) false
  | _ => false

/-- Whether two agents are one source of requests: the threads of a core are one (R40, R447). -/
def sameSource : Agent → Agent → Bool
  | .core x, .core y => x.core == y.core
  | .engine h n, .engine g m => h == g && n == m
  | a, b => agentSrc a == 0xFFFF && agentSrc b == 0xFFFF

/-- Whether an access to the line of an address waits behind a held write (R356; for gallery also one of the same source
to the same bank, R447). -/
def State.behindHeld (s : State) (a : Agent) (addr : Nat) : Bool :=
  match winOf addr with
  | .near h _ => (s.hall h).nearHeld.any fun w => w.addr / 64 == addr / 64
  | .gallery h o =>
    (s.hall h).galHeld.any fun w =>
      w.addr / 64 == addr / 64 ||
        (sameSource w.agent a &&
          galleryBank ((w.addr - galleryBase h) / 64) (s.salt h) == galleryBank (o / 64) (s.salt h))
  | _ => false

/-- Whether the controller or bank group takes no further request: 64 writes held, or 16 (R356, R447); `more`: addresses of writes that
come to be held before this one. -/
def State.holdFull (s : State) (addr : Nat) (more : List Nat := []) : Bool :=
  match winOf addr with
  | .near h _ =>
    64 ≤ (s.hall h).nearHeld.length + (more.filter fun b => match winOf b with | .near g _ => g == h | _ => false).length
  | .gallery h o =>
    let group (b : Nat) : Bool := match winOf b with
      | .gallery g q => g == h && galleryBank (q / 64) (s.salt h) / 4 == galleryBank (o / 64) (s.salt h) / 4
      | _ => false
    16 ≤ ((s.hall h).galHeld.filter fun w => group w.addr).length + (more.filter group).length
  | _ => false

/-- Whether a stack is ready (R349); requests wait while it is not. -/
def State.stackWaits (s : State) (addr : Nat) : Bool :=
  match winOf addr with
  | .near h _ => s.field (hallPage h 1) 0x800 0 2 == 1
  | _ => false

/-- A read of these bytes waits at the memory. -/
def State.readStalls (s : State) (a : Agent) (addr n : Nat) : Bool :=
  (pieces addr n).any fun p => s.reaches a p.1 && (s.behindHeld a p.1 || s.holdFull p.1 || s.stackWaits p.1)

/-- Whether a write of this line would be held. -/
def State.wouldHold (s : State) (a : Agent) (addr : Nat) : Bool := s.protectedAt addr || s.behindHeld a addr

/-- Whether the memories take these lines, one after the other; `more`: those of them that have come to be held (R356, R447). -/
def State.takesLines (s : State) (a : Agent) (more : List Nat) : List (Nat × Nat) → Bool
  | [] => true
  | (b, _) :: t =>
    if s.reaches a b then
      !s.holdFull b more && !s.stackWaits b && s.takesLines a (if s.wouldHold a b then b :: more else more) t
    else s.takesLines a more t

/-- Writes of these ranges, made together, wait at a memory: until it takes every line of them (assumption log 42). -/
def State.writesStall (s : State) (a : Agent) (ranges : List (Nat × Nat)) : Bool :=
  !s.takesLines a [] (ranges.flatMap fun p => pieces p.1 p.2)

/-- A write of these bytes waits at the memory. -/
def State.writeStalls (s : State) (a : Agent) (addr n : Nat) : Bool := s.writesStall a [(addr, n)]

/-- A write is held (R356, R447): it counts, unless it is a further run of bytes of one access to a line, and the 64th write held for near
memory records ERR bit 3. -/
def State.holdWrite (s : State) (a : Agent) (addr : Nat) (d : List Byte) (tag : WriteTag := {}) (first : Bool := true) : State :=
  let n := b2n first
  let w : HeldWrite := ⟨addr, d, a, tag.obs, tag.seq⟩
  match winOf addr with
  | .near h _ =>
    let s := s.modHall h fun v => { v with nearHeld := v.nearHeld ++ [w] }
    let s := s.count64 (hallPage h 1) 0x840 n
    if (s.hall h).nearHeld.length = 64 ∧ wbit (s.liveWord (hallPage h 1) 0x010) 3 = false then s.recordErr (hallPage h 1) 3
    else s
  | .gallery h _ =>
    (s.modHall h fun v => { v with galHeld := v.galHeld ++ [w] }).count64 (hallPage h 1) 0x960 n
  | _ => s

/-! ### Accesses -/

/-- What a read delivers. -/
structure MemRes where
  st : State
  data : List Byte
  poison : Bool

/-- A read of a CXL port returns poison (R363, R364): POISON and ERR bit 0. -/
def State.tierPoison (s : State) (p : Nat) : State := (s.countSat (0x30 + 4 * p) 0x850 1).recordErr (0x30 + 4 * p) 0

/-- A write of bytes within one line or burst is performed: a write of the whole line clears its poison (R249, R353); a
write to a failed link is discarded, and a whole burst written to a link that is up again is no longer lost (R364). -/
def State.performLine (s : State) (a : Agent) (addr : Nat) (d : List Byte) (first : Bool := true) : State :=
  let s := if first then s.countLine a addr true else s
  match winOf addr with
  | .cxl t =>
    match s.cxlDecode t with
    | none => s
    | some (_, target, _) =>
      if s.linkState target ≠ 2 then s
      else
        -- the read of a partial write is answered with poison (R363)
        let s := if d.length < 64 ∧ s.poisoned addr = true then s.tierPoison (target / 4) else s
        let s := s.setBytes addr d
        if d.length = 64 then
          let s := { s with poison := SMap.set s.poison (s.lineKey addr) false false }
          match SMap.get s.cxlLost target none with
          | some l => { s with cxlLost := SMap.set s.cxlLost target none (some (l ++ [addr / 64])) }
          | none => s
        else s
  | _ =>
    let s' := s.setBytes addr d
    if d.length = 64 then { s' with poison := SMap.set s'.poison (s.lineKey addr) false false } else s'

/-- A write of bytes within one line reaches its memory: held, or performed. A further run of bytes of one access to the line
(`first` false) is not counted again. `tag` says which write of the agent it is (`HeldWrite`). -/
def State.writeLine (s : State) (a : Agent) (addr : Nat) (d : List Byte) (first : Bool := true) (tag : WriteTag := {}) : State :=
  if s.wouldHold a addr then s.holdWrite a addr d tag first else s.performLine a addr d first

/-- An address in the control window (R30). -/
def isControl (addr : Nat) : Bool := match winOf addr with | .control _ => true | _ => false

/-- Whether an agent's access to a line reaches memory: each line of an access is one of its own (R24, R31, R260), and control pages
take no access of this kind (R41). -/
def State.backs (s : State) (a : Agent) (addr : Nat) : Bool := s.reaches a addr && !isControl addr

/-- Whether every line of an access reaches memory. -/
def State.allBack (s : State) (a : Agent) (addr n : Nat) : Bool := (pieces addr n).all fun p => s.backs a p.1

/-- The lines of a write, each with its bytes, as far as they reach memory. -/
def State.writePieces (s : State) (a : Agent) (tag : WriteTag) : List (Nat × Nat) → List Byte → State
  | [], _ => s
  | (p, n) :: t, d => (if s.backs a p then s.writeLine a p (d.take n) true tag else s).writePieces a tag t (d.drop n)

/-- The access error of an access of which some line does not reach memory: one for the access, which names the first such line
(R31, R40; assumption log 37). -/
def State.lineErrors (s : State) (a : Agent) (addr n : Nat) (write : Bool) : State :=
  match (pieces addr n).find? fun p => !s.backs a p.1 with
  | some p => s.accessError a p.1 write
  | none => s

/-- A write of memory: the lines that reach it are written, and of the others there is an access error (R31, R41, R260). -/
def State.memWrite (s : State) (a : Agent) (addr : Nat) (d : List Byte) (tag : WriteTag := {}) : State :=
  (s.writePieces a tag (pieces addr d.length) d).lineErrors a addr d.length true

/-- What a read of a line counts: the access, and poison that a CXL port returns (R252, R253, R357, R358, R363, R364). -/
def State.readLine (s : State) (a : Agent) (addr : Nat) : State :=
  let t := s.countLine a addr false
  match winOf addr with
  | .cxl o => match s.cxlDecode o with
    | some (_, target, _) => if s.poisoned addr then t.tierPoison (target / 4) else t
    | none => t
  | _ => t

/-- The bytes that a read of a line delivers: zeros where no memory is reached (R31). -/
def State.lineData (s : State) (a : Agent) (p : Nat × Nat) : List Byte :=
  if s.backs a p.1 then s.bytesAt p.1 p.2 else List.replicate p.2 0

/-- A read of memory: lines that do not reach it read zero, with an access error (R31, R41, R260). -/
def State.memRead (s : State) (a : Agent) (addr n : Nat) : MemRes :=
  let ps := pieces addr n
  let ok := ps.filter fun p => s.backs a p.1
  ⟨(ok.foldl (fun s p => s.readLine a p.1) s).lineErrors a addr n false, ps.flatMap (s.lineData a), ok.any fun p => s.poisoned p.1⟩

/-- A line is poisoned when a read first detects an uncorrectable error: mark, ERR bit and counter (R249, R353). -/
def State.poisonLine (s : State) (addr : Nat) : State :=
  if SMap.get s.poison (s.lineKey addr) false then s
  else
    let s := { s with poison := SMap.set s.poison (s.lineKey addr) false true }
    match winOf addr with
    | .chamber c _ => (s.countSat (corePage c 0) 0xB94 1).recordErr (hallPage c.hall 0) 2
    | .gallery h _ => (s.countSat (hallPage h 0) 0xE8C 1).recordErr (hallPage h 0) 3
    | .near h o =>
      let p := hallPage h 1
      let s := if wbit (s.liveWord p 0x010) 0 then s
        else (s.setLive p 0x828 (w32 (o / 64 * 64))).setLive p 0x82C (w32 (o / 2 ^ 32))
      (s.countSat p 0x81C 1).recordErr p 0
    | _ => s

/-- Near-memory keys are made anew: everything written under the old ones is lost, and no poison stays (R354). -/
def State.newNearKeys (s : State) (h : HallId) : State :=
  { s with
    near := SMap.clearRange s.near (nearBase h) (nearBase h + 0x1200000000)
    nearGen := SMap.set s.nearGen h.val 1 (SMap.get s.nearGen h.val 1 + 1)
    nearZero := SMap.set s.nearZero h.val false false
    poison := SMap.clearRange s.poison (nearBase h / 64) ((nearBase h + 0x1200000000) / 64) }

/-- The keys of an HDM decoder are made anew (R362). -/
def State.newTierKeys (s : State) (d : Nat) : State :=
  { s with
    cxl := s.cxl.filter fun p => match s.cxlDecode (p.1 - 0x100000000000) with | some (e, _, _) => e != d | none => false
    cxlGen := SMap.set s.cxlGen d 1 (SMap.get s.cxlGen d 1 + 1) }

end Sys2Proof.Machine
end

