-- ==== Sys2Proof/Machine/Operands.lean ====
section
/-!
DEFINITION. Operand forms: segment descriptors and the checks of an access through one (R190 to R192), descriptors named
by selectors (R214), immediate fields, and the scalar registers an instruction names (R168, R204).
-/
namespace Sys2Proof.Machine

/-- The fields of a segment image (R190). -/
def segBase (d : SegImage) : Nat := (d.extractLsb' 0 48).toNat
def segLimit (d : SegImage) : Nat := (d.extractLsb' 48 16).toNat
def segGran (d : SegImage) : Nat := (d.extractLsb' 64 3).toNat
def segR (d : SegImage) : Bool := d.getLsbD 67
def segW (d : SegImage) : Bool := d.getLsbD 68
def segX (d : SegImage) : Bool := d.getLsbD 69
def segRing (d : SegImage) : Nat := (d.extractLsb' 70 2).toNat
def segP (d : SegImage) : Bool := d.getLsbD 72
def segReserved (d : SegImage) : Bool := d.extractLsb' 73 55 != 0

/-- Bytes of a granule (R190); reserved codes have none. -/
def granBytes : Nat → Nat
  | 0 => 1 | 1 => 16 | 2 => 64 | 3 => 256 | 4 => 4096 | _ => 0

/-- The extent of a segment (R191). -/
def segExtent (d : SegImage) : Nat := (segLimit d + 1) * granBytes (segGran d)

/-- A valid descriptor (R191). -/
def segValid (d : SegImage) : Bool :=
  !segReserved d && segGran d ≤ 4 && segBase d + segExtent d ≤ 2 ^ 48

/-- A descriptor image from its fields (R190). -/
def mkSeg (base limit gran : Nat) (r w x : Bool) (ring : Nat) (p : Bool) : SegImage :=
  BitVec.ofNat 128 (base + limit * 2 ^ 48 + gran * 2 ^ 64 + b2n r * 2 ^ 67 + b2n w * 2 ^ 68 + b2n x * 2 ^ 69
    + ring * 2 ^ 70 + b2n p * 2 ^ 72)

/-- The right an access needs (R192). -/
inductive Right where
  | read | write | execute
deriving DecidableEq, Repr

/-- Whether a descriptor grants a right. -/
def segGrants (d : SegImage) : Right → Bool
  | .read => segR d
  | .write => segW d
  | .execute => segX d

/-- The checks of an access of `n` bytes at exact offset `o`, in order; the cause of the first that fails (R192). The
address must be a multiple of `align`. -/
def segCheck (d : SegImage) (ring : Nat) (right : Right) (o : Int) (n align : Nat) : Option Nat :=
  if !segP d then some 3
  else if segRing d < ring then some 7
  else if !segGrants d right then some 2
  else if o < 0 ∨ (2 ^ 32 : Int) ≤ o ∨ (segExtent d : Int) < o + n then some 1
  else if (segBase d + o.toNat) % align ≠ 0 then some 4
  else none

/-- The vector that a cause raises (R192). -/
def causeVector : Nat → Nat
  | 1 => 1 | 4 => 3 | 5 => 6 | _ => 2

/-- An offset as a fault record shows it: 0xFFFF_FFFF outside 0 to 2³² − 1 (R209). -/
def offsetField (o : Int) : Nat := if 0 ≤ o ∧ o < 2 ^ 32 then o.toNat else 0xFFFFFFFF

/-- A descriptor named by a selector, or 16 bytes of a table, read whole from the core's own chamber memory; none when it
is out of the chamber or poisoned (R214, R215). -/
def State.chamber16 (s : State) (x : Site) (off : Nat) : State × Option (BitVec 128) :=
  if 0x100000 < off + 16 then (s, none)
  else
    let r := s.memRead (.core x) (chamberBase x.core + off) 16
    (r.st, if r.poison then none else some (BitVec.ofNat 128 (bytesNat r.data)))

/-- A selected descriptor, accepted under R214. -/
def State.selected (s : State) (x : Site) (sel : Nat) : State × Option SegImage :=
  let (s, d) := s.chamber16 x (sel * 16)
  (s, d.filter segValid)

/-! ### Immediates -/

/-- A 15-bit immediate, sign-extended (R188). -/
def immS (i : BitVec 15) : Word := i.signExtend 32

/-- A 15-bit immediate, zero-extended (R188). -/
def immZ (i : BitVec 15) : Word := i.setWidth 32

/-- The accumulator codes of VMAC, VADDAC, VRED and sumps as format codes (R134). -/
def accFmt : Nat → Nat
  | 0 => 10 | 1 => 9 | 2 => 8 | _ => 2

/-! ### Registers named -/

/-- Scalar registers s0 to s15 named by four bits (R134, R172). -/
def reg4 (n : BitVec 4) : BitVec 5 := n.setWidth 5

/-- The register pair of a tile transfer (R95). -/
def pairLo (p : BitVec 4) : BitVec 5 := p.setWidth 5 <<< 1
def pairHi (p : BitVec 4) : BitVec 5 := (p.setWidth 5 <<< 1) ||| 1

/-- Every scalar register that an instruction names in a register field, read or written (R168, R204). -/
def namedRegs : Instr → List (BitVec 5)
  | .op _ f => [f.rd, f.ra, f.rb]
  | .addi _ f => [f.rd, f.ra]
  | .andi _ f => [f.rd, f.ra]
  | .ori _ f => [f.rd, f.ra]
  | .xori _ f => [f.rd, f.ra]
  | .slti _ f => [f.rd, f.ra]
  | .sltiu _ f => [f.rd, f.ra]
  | .shi _ f => [f.rd, f.ra]
  | .lui _ f => [f.rd]
  | .fop _ f => [f.rd, f.ra, f.rb]
  | .ld _ f => [f.rt, f.ra]
  | .st _ f => [f.rt, f.ra]
  | .br _ f => [f.ra, f.rb]
  | .jmpr _ f => [f.ra]
  | .callr _ f => [f.ra]
  | .rep _ f => [f.ra]
  | .crd _ f => [f.rd]
  | .cwr _ f => [f.ra]
  | .cswap _ f => [f.rd, f.ra]
  | .cadd _ f => [f.rd, f.ra]
  | .signal _ f => [f.ra]
  | .waitAny _ f => [f.rd, f.ra]
  | .waitAll _ f => [f.rd, f.ra]
  | .lseg _ f => [f.ra]
  | .sseg _ f => [f.ra]
  | .rdcyc _ f => [f.rd]
  | .rdcych _ f => [f.rd]
  | .settmr _ f => [f.ra, f.n]
  | .trdZero _ f => [f.rd]
  | .trdSat _ f => [f.rd]
  | .trdNan _ f => [f.rd]
  | .rsrd _ f => [f.rd]
  | .rswr _ f => [f.ra]
  | .rdver _ f => [f.rd]
  | .rdflt _ f => [f.rd]
  | .wrch _ f => [f.ra, f.rb]
  | .wrchb _ f => [f.ra, f.rb]
  | .close _ f => [f.ra]
  | .recv _ f => [f.rd]
  | .rfree _ f => [f.ra]
  | .sumparm _ f => [f.ra]
  | .vperm _ f => if f.func = 6 ∨ f.func = 7 ∨ f.func = 8 then [reg4 f.vb]
      else if f.func = 9 then [reg4 f.vb, reg4 f.vd] else []
  | .vld _ f => [reg4 f.sn]
  | .vst _ f => [reg4 f.sn]
  | .vmask _ f => if f.mfunc = 5 ∨ f.mfunc = 6 ∨ f.mfunc = 7 ∨ f.mfunc = 8 then [f.sn] else []
  | .tcfg _ form f => if form = .reg then [f.rows.extractLsb' 1 5] else []
  | .tshr _ f => [f.rows.extractLsb' 1 5]
  | .tld _ f => [pairLo f.pair, pairHi f.pair]
  | .tst _ f => [pairLo f.pair, pairHi f.pair]
  | .dmaq _ f => [reg4 f.dreg]
  | _ => []

/-- The scalar register that a queue instruction writes when it executes (R168). -/
def queueDest : Instr → Option (BitVec 5)
  | .vperm _ f => if f.func = 9 then some (reg4 f.vd) else none
  | .vmask _ f => if f.mfunc = 6 ∨ f.mfunc = 8 then some f.sn else none
  | .tshr _ f => some (f.rows.extractLsb' 1 5)
  | _ => none

end Sys2Proof.Machine
end

