-- ==== Sys2Proof/Machine/Rings.lean ====
section
/-!
DEFINITION. Rings, frames, gates, taking an exception, returning from one, double fault (R212 to R236), and the scalar and
ring fault records (R209, R236).
-/
namespace Sys2Proof.Machine

/-! ### Entry stacks and frames -/

/-- The demands on every entry stack (R216). -/
def stackOk (d : SegImage) : Bool :=
  segP d && segR d && segW d && segValid d && segGran d ≤ 1 && segBase d % 16 == 0 && segExtent d % 16 == 0
    && 96 ≤ segExtent d

/-- seg1 above whose extent the frame lies: the entry stack reduced by 96 bytes (R217). -/
def reducedStack (d : SegImage) : SegImage :=
  let x := segExtent d - 96
  if x = 0 then mkSeg (segBase d) 0 (segGran d) (segR d) (segW d) (segX d) (segRing d) false
  else mkSeg (segBase d) (x / granBytes (segGran d) - 1) (segGran d) (segR d) (segW d) (segX d) (segRing d) true

/-- The frame window that seg2 becomes (R217). -/
def frameWindow (d : SegImage) (ring : Nat) : SegImage :=
  mkSeg (segBase d + segExtent d - 96) 5 1 true true false ring true

/-- What a frame holds (R218). -/
structure Frame where
  seg0 : SegImage
  seg1 : SegImage
  seg2 : SegImage
  pc : BitVec 16
  ring : Nat
  inh : Bool
  df : Bool
  gate : Bool
  repl : Option Nat
  vector : Nat
  orig : Nat
  gateNum : Nat
  cause : Nat
  nargs : Nat
  qtaken : Nat
  args : List Word

/-- The 96 bytes of a frame (R218). -/
def frameBytes (f : Frame) : List Byte :=
  natBytes 16 f.seg0.toNat ++ natBytes 16 f.seg1.toNat ++ natBytes 16 f.seg2.toNat ++ natBytes 2 f.pc.toNat ++
    natBytes 1 (f.ring + b2n f.inh * 4 + b2n f.df * 8 + b2n f.gate * 16 + b2n f.repl.isSome * 32) ++
    natBytes 1 f.vector ++ natBytes 1 (f.repl.getD 0) ++ natBytes 1 f.orig ++ natBytes 2 f.gateNum ++
    natBytes 1 f.cause ++ natBytes 1 f.nargs ++ natBytes 1 f.qtaken ++ natBytes 5 0 ++
    (List.range 8).flatMap (fun i => natBytes 4 (f.args.getD i 0).toNat)

/-- The core's tile instructions under way at core cycle `now` are abandoned, and the latches invalidated with them (R108, R124, R126,
R127). -/
def Core.abandon (k : Core) (now : Nat) : Core :=
  if k.mq.entries.any fun e => decide (e.phase = .underWay) then
    { k with
      mq := { k.mq with entries := k.mq.entries.map fun e => if e.phase = .underWay then { e with phase := .waiting } else e }
      latchA := none
      latchB := none
      mtxAt := now }
  else k

/-- Entry into a handler abandons the core's tile instructions under way (R108). -/
def State.abandon (s : State) (c : CoreId) : State := s.modCore c fun k => k.abandon (s.hall c.hall).cycles

/-- Pushing a frame and entering a ring: the frame in the entry stack, the segments, ring and PC (R217, R221, R226). The entry ends a
REP.L sequence, so that a halt that it held off comes now (R205, R298). -/
def State.pushFrame (s : State) (x : Site) (stk code : SegImage) (ring : Nat) (pc : BitVec 16) (f : Frame) : State :=
  let s := s.memWrite (.core x) (segBase stk + segExtent stk - 96) (frameBytes f) { seq := (s.core x.core).issueSeq }
  s.modThread x fun t =>
    { ((t.setSeg 0 code).setSeg 1 (reducedStack stk)).setSeg 2 (frameWindow stk ring) with
      ring := BitVec.ofNat 2 ring, pc := pc, wait := none, rep := none, replCnt := none, haltReq := false
      run := if t.haltReq then .halted else t.run }

/-! ### Exception entry -/

/-- An exception table entry (R223). -/
structure ExcEntry where
  codeSel : Nat
  hpc : Nat
  stackSel : Nat
  tring : Nat
  p : Bool
  reserved : Bool

/-- The fields of a table entry. -/
def excEntryOf (v : BitVec 128) : ExcEntry :=
  let n := v.toNat
  { codeSel := bitsOf n 0 16, hpc := bitsOf n 16 16, stackSel := bitsOf n 32 16, tring := bitsOf n 48 2, p := bitOf n 50
    reserved := bitsOf n 51 5 != 0 || bitsOf n 56 72 != 0 }

/-- VBASEr as written (R215). -/
def State.vbase (s : State) (c : CoreId) (r : Nat) : Word := s.liveWord (corePage c 0) (0xA00 + 4 * r)

/-- Entry `v` of the table of ring `r`, read (R223). -/
def State.tableEntry (s : State) (x : Site) (r v : Nat) : State × Option ExcEntry :=
  let (s', e) := s.chamber16 x (fieldOf (s.vbase x.core r) 10 10 * 1024 + 16 * v)
  (s', e.map excEntryOf)

/-- Whether a readable entry of table `t` is misdirected for an exception raised in ring `f` (R225). -/
def misdirected (s : State) (c : CoreId) (t f : Nat) (e : ExcEntry) : Bool :=
  !wbit (s.vbase c t) 0 || !e.p || e.reserved || e.tring == 3 || f < e.tring || e.tring < fieldOf (s.vbase c t) 1 2

/-- The chosen entry, or the failing step: 1 misdirection of ring 0's entry, 2 an unreadable one (R225, R226). -/
def State.chooseEntry (s : State) (x : Site) (v f : Nat) : State × Except Nat ExcEntry :=
  let t := min f 2
  let (s, e) := s.tableEntry x t v
  match e.filter (fun e => !misdirected s x.core t f e) with
  | some e => (s, .ok e)
  | none =>
    let (s, e0) := s.tableEntry x 0 v
    match e0 with
    | none => (s, .error (if wbit (s.vbase x.core 0) 0 then 2 else 1))
    | some e0 => (s, if misdirected s x.core 0 f e0 then .error 1 else .ok e0)

/-- Step 3 of R226: the handler's code segment. -/
def State.handlerCode (s : State) (x : Site) (sel pc ring : Nat) : State × Option SegImage :=
  let (s, d) := s.selected x sel
  (s, d.filter fun d => segP d && segX d && segRing d == ring && pc * 4 + 4 ≤ segExtent d)

/-- Step 4 of R226: the entry stack, a fresh copy when the ring changes, else seg1 (R216). -/
def State.entryStack (s : State) (x : Site) (sel new old : Nat) : State × Option SegImage :=
  if new < old then
    let (s, d) := s.selected x sel
    (s, d.filter fun d => stackOk d && segRing d == new)
  else
    let d := (s.thread x).seg 1
    (s, if stackOk d && old ≤ segRing d then some d else none)

/-- Exception entry, or the step that failed with no state changed (R225, R226). -/
def State.tryEnter (s : State) (x : Site) (v : Nat) (pc : BitVec 16) (repl : Option Nat) (qtaken : Nat) :
    State × Option Nat :=
  let t := s.thread x
  let f := t.ring.toNat
  match s.chooseEntry x v f with
  | (s, .error k) => (s, some k)
  | (s, .ok e) =>
    match s.handlerCode x e.codeSel e.hpc e.tring with
    | (s, none) => (s, some 3)
    | (s, some code) =>
      match s.entryStack x e.stackSel e.tring f with
      | (s, none) => (s, some 4)
      | (s, some stk) =>
        let fr : Frame :=
          { seg0 := t.seg 0, seg1 := if e.tring < f then t.seg 1 else stk, seg2 := t.seg 2, pc := pc, ring := f,
            inh := t.inh, df := false, gate := false, repl := repl, vector := v, orig := 0, gateNum := 0, cause := 0,
            nargs := 0, qtaken := qtaken, args := [] }
        let s := s.pushFrame x stk code e.tring (BitVec.ofNat 16 e.hpc) fr
        ((s.modThread x fun t => { t with inh := true }).abandon x.core, none)

/-! ### Entries behind held accesses -/

/-- Whether a held scalar access of a core lies in a line of these bytes: those of an entry are performed after it (R258). -/
def State.lineHeld (s : State) (c : CoreId) (addr n : Nat) : Bool :=
  (s.core c).heldMem.any fun e => decide (addr / 64 ≤ e.addr / 64 ∧ e.addr / 64 ≤ (addr + n - 1) / 64)

/-- Whether a held LSEG is to fill one of these segment registers (R263). -/
def State.segHeld (s : State) (x : Site) (l : List Nat) : Bool :=
  (s.core x.core).heldMem.any fun e => decide (e.thread = x.thread) &&
    match e.kind with
    | .seg d => l.contains d
    | _ => false

/-- Whether an entry waits that reads these 16-byte units of the core's chamber memory: for a segment register that the frame holds, or
for an earlier access to a line that it reads (R258, R263). -/
def State.readsWait (s : State) (x : Site) (units : List Nat) : Bool :=
  s.segHeld x [0, 1, 2] || units.any fun o => s.lineHeld x.core (chamberBase x.core + o) 16

/-- Whether the write of a frame at an address waits: for an earlier access to one of its lines, or at its memory (R258, R356, R447). -/
def State.frameWaits (s : State) (x : Site) (addr : Nat) : Bool :=
  s.lineHeld x.core addr 96 || s.writeStalls (.core x) addr 96

/-- The 16-byte units of chamber memory that the entry of an exception reads: table entries and selected descriptors (R223, R226). -/
def State.entryUnits (s : State) (x : Site) (v : Nat) : List Nat :=
  let f := (s.thread x).ring.toNat
  let row (r : Nat) : Nat := fieldOf (s.vbase x.core r) 10 10 * 1024 + 16 * v
  [row (min f 2), row 0] ++
    match (s.chooseEntry x v f).2 with
    | .ok e => [16 * e.codeSel, 16 * e.stackSel]
    | .error _ => []

/-- Taking an exception: entry, or a failed entry that waits for double-fault entry (R226, R234); none while a held access stands before
it. -/
def State.takeException (s : State) (x : Site) (v : Nat) (pc : BitVec 16) (repl : Option Nat) (qtaken : Nat) : Option State :=
  if s.readsWait x (s.entryUnits x v) then none
  else match s.tryEnter x v pc repl qtaken with
    | (t, none) => if s.frameWaits x (segBase ((t.thread x).seg 2)) then none else some t
    | (t, some k) =>
      some (t.modThread x fun t =>
        { t with dfPend := some ⟨v, k, pc, repl, qtaken⟩, wait := none, rep := none, replCnt := none })

/-! ### Fault records -/

/-- A scalar fault: vector, cause, and what SFLTn_INFO and SFLTn_OFF show (R209). -/
structure SFault where
  vector : Nat
  cause : Nat
  seg : Nat
  size : Nat
  write : Bool
  fetch : Bool
  emul : Nat
  off : Nat

/-- The emulation trap with its EMUL code (R207, R209). -/
def emulTrap (k : Nat) : SFault := ⟨0, 8, 0, 0, false, false, k, 0⟩

/-- A return-stack fault (R198, R209). -/
def stackFault : SFault := ⟨7, 9, 0, 0, false, false, 0, 0⟩

/-- A failed access of a cause (R192, R209). -/
def accessFault (cause seg size : Nat) (write : Bool) (o : Int) : SFault :=
  ⟨causeVector cause, cause, seg, size, write, false, 0, offsetField o⟩

/-- A failed fetch of a cause (R182, R209). -/
def fetchFault (cause : Nat) (o : Int) : SFault := ⟨causeVector cause, cause, 0, 2, false, true, 0, offsetField o⟩

/-- The scalar fault record of a thread is written (R209). -/
def State.writeSflt (s : State) (x : Site) (f : SFault) (rep : Bool) (pc : BitVec 16) (word : Word) : State :=
  let p := corePage x.core 0
  let b := 0x9C0 + 16 * x.thread.val
  let info := f.cause + f.seg * 2 ^ 4 + f.size * 2 ^ 7 + b2n f.write * 2 ^ 9 + b2n f.fetch * 2 ^ 10 + b2n rep * 2 ^ 11
    + f.emul * 2 ^ 12
  (((s.setLive p b (w32 info)).setLive p (b + 4) (w32 f.off)).setLive p (b + 8) (w32 pc.toNat)).setLive p (b + 12)
    (if f.fetch then 0 else word)

/-- The ring fault record of a thread is written (R236). -/
def State.writeRflt (s : State) (x : Site) (kind code arg gate : Nat) (pc : BitVec 16) : State :=
  let p := corePage x.core 0
  let b := 0xA60 + 8 * x.thread.val
  (s.setLive p b (w32 (kind + code * 2 ^ 4 + arg * 2 ^ 8 + gate * 2 ^ 16))).setLive p (b + 4) (w32 pc.toNat)

/-! ### What a boundary takes -/

/-- What R230 chooses at an instruction boundary. -/
inductive Boundary where
  /-- the fault of an earlier access that a fence had held: its vector (R263; assumption log 43) -/
  | late (v : Nat)
  | debug
  /-- a stopped queue: its number and vector -/
  | queue (q : Nat) (v : Nat)
  | badAir
  | interrupt (v : Nat)
deriving DecidableEq, Repr

/-- A stop of this thread whose exception has not been taken (R230); that of the matrix queue by a tile move is taken with the vector
queue's (R145). -/
def stopOf (q : Queue) (t : Fin 4) : Option Nat :=
  match q.stop with
  | some st => if st.thread = t ∧ st.taken = false then some st.vector else none
  | none => none

/-- The deliverable interrupt with the lowest vector (R229, R230). -/
def Thread.deliverable (t : Thread) : Option Nat :=
  if t.inh then none else ((List.range 32).find? fun i => wbit (t.intpend &&& t.inten) i).map (· + 32)

/-- Whether a REP.L sequence of a thread runs, or is to go on after a return (R205, R233). -/
def Thread.locked (t : Thread) : Bool :=
  (match t.rep with
  | some r => r.reg.isNone
  | none => false) || t.replCnt.isSome

/-- The repetitions a frame records: those a REP.L sequence has left (R205, R218, R233). -/
def Thread.replLeft (t : Thread) : Option Nat :=
  match t.rep with
  | some r => if r.reg.isNone then some r.left else none
  | none => t.replCnt

/-- The choice of R230; a REP.L sequence takes nothing until it ends (R205), but for the fault of an access of its own. -/
def State.boundary (s : State) (x : Site) : Option Boundary :=
  let k := s.core x.core
  let t := k.thread x.thread
  match t.late with
  | some v => some (.late v)
  | none =>
    if t.locked then none
    else if t.deliverReq then some .debug
    else match stopOf k.mq x.thread with
      | some v => some (.queue 0 v)
      | none => match stopOf k.vq x.thread with
        | some v => some (.queue 1 v)
        | none => match stopOf k.dq x.thread with
          | some v => some (.queue 2 v)
          | none => if t.badAir then some .badAir else t.deliverable.map .interrupt

/-- A queue of a core by number: 0 matrix, 1 vector, 2 DMA (R167). -/
def Core.queue (k : Core) (q : Nat) : Queue := match q with | 0 => k.mq | 1 => k.vq | _ => k.dq

/-- A core with a queue replaced. -/
def Core.setQueue (k : Core) (q : Nat) (v : Queue) : Core :=
  match q with | 0 => { k with mq := v } | 1 => { k with vq := v } | _ => { k with dq := v }

/-- The exception of a queue's stop counts as taken (R230). -/
def Queue.markTaken (q : Queue) : Queue := { q with stop := q.stop.map fun st => { st with taken := true } }

/-- The stop of the matrix queue by a tile move counts as taken (R145). -/
def Queue.markMove (q : Queue) : Queue := { q with byMove := q.byMove.map fun st => { st with taken := true } }

/-- The count register of a REP sequence receives the repetitions not performed (R204). -/
def State.leaveRep (s : State) (x : Site) : State :=
  s.modThread x fun t =>
    match t.rep with
    | some r => match r.reg with
      | some g => { (t.setReg g (w32 r.left)) with rep := none }
      | none => { t with rep := none }
    | none => t

/-- The queues whose stops the exception of a stop takes: the vector queue's stop at a tile move takes with it that of the matrix queue
by the move (R145, R230). -/
def Core.takenBits (k : Core) (q : Nat) : Nat := 2 ^ q + b2n (q == 1 && k.mq.byMove.isSome)

/-- The stop of a queue, and with the vector queue's that of the matrix queue by a tile move, counts as taken. -/
def Core.markTaken (k : Core) (q : Nat) : Core :=
  let k := k.setQueue q (k.queue q).markTaken
  if q = 1 then { k with mq := k.mq.markMove } else k

/-- Taking what a boundary chose (R204, R230, R231); none while a held access stands before the entry. -/
def State.takeBoundary (s : State) (x : Site) (b : Boundary) : Option State :=
  let repl := (s.thread x).replLeft
  let s := s.leaveRep x
  let pc := (s.thread x).pc
  match b with
  | .late v => (s.modThread x fun t => { t with late := none }).takeException x v pc repl 0
  | .debug => (s.modThread x fun t => { t with deliverReq := false }).takeException x 13 pc none 0
  | .queue q v =>
    (s.modCore x.core fun k => k.markTaken q).takeException x v pc none ((s.core x.core).takenBits q)
  | .badAir => (s.modThread x fun t => { t with badAir := false }).takeException x 11 pc none 0
  | .interrupt v =>
    (s.modThread x fun t =>
      { t with intpend := t.intpend &&& ~~~ (BitVec.ofNat 32 (2 ^ (v - 32))) }).takeException x v pc none 0

/-! ### Returns -/

/-- A frame read back from its 96 bytes, with whether a reserved or unused field is not zero (R218, R232). -/
structure FrameIn where
  seg0 : SegImage
  seg1 : SegImage
  seg2 : SegImage
  pc : BitVec 16
  ring : Nat
  inh : Bool
  df : Bool
  gate : Bool
  repl : Bool
  replCnt : Nat
  qtaken : Nat
  bad : Bool

/-- The fields of a frame image (R218) and check 3 of R232. -/
def frameOf (l : List Byte) : FrameIn :=
  let n := bytesNat l
  let st := bitsOf n 400 8
  let df := bitOf st 3
  let gate := bitOf st 4
  let repl := bitOf st 5
  let s0 : SegImage := BitVec.ofNat 128 (bitsOf n 0 128)
  let s1 : SegImage := BitVec.ofNat 128 (bitsOf n 128 128)
  let s2 : SegImage := BitVec.ofNat 128 (bitsOf n 256 128)
  let vector := bitsOf n 408 8
  let rc := bitsOf n 416 8
  let qt := bitsOf n 464 8
  { seg0 := s0, seg1 := s1, seg2 := s2, pc := BitVec.ofNat 16 (bitsOf n 384 16), ring := bitsOf st 0 2, inh := bitOf st 2,
    df := df, gate := gate, repl := repl, replCnt := rc, qtaken := qt,
    bad := bitsOf st 6 2 != 0 || bitOf rc 7 || bitsOf n 472 40 != 0 || bitsOf n 444 4 != 0 || bitsOf qt 3 5 != 0
      || (!df && (bitsOf n 424 8 != 0 || bitsOf n 448 8 != 0))
      || (!gate && (bitsOf n 432 16 != 0 || bitsOf n 456 8 != 0 || bitsOf n 512 256 != 0))
      || (gate && (vector != 0 || qt != 0))
      || (!repl && rc != 0)
      || !(segValid s0 && segValid s1 && segValid s2) || 64 < rc }

/-- A stop that is left after a return: not one at a fault of this thread whose exception was taken (R107, R233). -/
def keepStop (t : Fin 4) (st : Option QStop) : Option QStop := st.filter fun st => !(st.thread == t && st.taken)

/-- A queue that QTAKEN names and that is still stopped at a fault of this thread whose exception was taken restarts
(R107, R145, R233). -/
def Core.restartQueue (k : Core) (q : Nat) (t : Fin 4) : Core :=
  let v := k.queue q
  k.setQueue q { v with stop := keepStop t v.stop, byMove := keepStop t v.byMove }

/-- The queues named in QTAKEN restart. -/
def Core.restartTaken (k : Core) (qtaken : Nat) (t : Fin 4) : Core :=
  [0, 1, 2].foldl (fun k q => if bitOf qtaken q then k.restartQueue q t else k) k

/-- What a return restores (R233). -/
def State.restoreFrame (s : State) (x : Site) (f : FrameIn) : State :=
  let s := s.modThread x fun t =>
    { ((t.setSeg 0 f.seg0).setSeg 1 f.seg1).setSeg 2 f.seg2 with
      pc := f.pc, ring := BitVec.ofNat 2 f.ring, inh := f.inh, df := if f.df then false else t.df,
      replCnt := if f.repl then some f.replCnt else none }
  s.modCore x.core fun k => k.restartTaken f.qtaken x.thread

end Sys2Proof.Machine
end

