-- ==== Sys2Proof/Machine/SyncCfg.lean ====
section
/-!
DEFINITION. The applied configurations of receive rings, send channels and sumps (R274, R275, R286), chimneys (R294) and
barriers (R304), and the positions of cores on the mesh (R13 to R19), as the channel unit and the barrier trees use them.
-/
namespace Sys2Proof.Machine

/-! ### Rings, channels, sumps -/

/-- The CHANNEL page of a core (R35). -/
def chanPage (c : CoreId) : Nat := corePage c 1

/-- ENTRIES, entry size in bytes and first byte of a ring as applied (R274). -/
def State.ringEntries (s : State) (c : CoreId) (r : Nat) : Nat := fieldOf (s.applWord (chanPage c) (0x104 + 8 * r)) 0 9
def State.ringEsize (s : State) (c : CoreId) (r : Nat) : Nat :=
  (fieldOf (s.applWord (chanPage c) (0x104 + 8 * r)) 9 6 + 1) * 64
def State.ringBase (s : State) (c : CoreId) (r : Nat) : Nat :=
  fieldOf (s.applWord (chanPage c) (0x100 + 8 * r)) 6 14 * 64

/-- A receive ring of a core. -/
def Core.ringOf (k : Core) (r : Nat) : Ring := SMap.get k.ring r Ring.zero

/-- A core with a ring replaced. -/
def Core.setRing (k : Core) (r : Nat) (v : Ring) : Core := { k with ring := SMap.set k.ring r Ring.zero v }

/-- Entries between two pointers (R276). -/
def ringDist (a b : Nat) : Nat := (b + 512 - a) % 512

/-- A send channel as applied (R275). -/
structure ChanCfg where
  core : Nat
  target : Fin 32
  kind : Nat
  module : Nat
  remote : Bool
  credits : Nat
  maxLen : Nat
  rank : Nat
deriving DecidableEq, Repr

/-- The applied fields of send channel `ch` (R275). -/
def State.chanCfg (s : State) (c : CoreId) (ch : Nat) : ChanCfg :=
  let d := s.applWord (chanPage c) (0x200 + 16 * ch)
  let m := s.applWord (chanPage c) (0x204 + 16 * ch)
  let r := s.applWord (chanPage c) (0x208 + 16 * ch)
  { core := fieldOf d 0 11, target := Fin.ofNat 32 (fieldOf d 11 5), kind := fieldOf d 16 2, module := fieldOf m 0 18,
    remote := wbit m 18, credits := fieldOf r 0 9, maxLen := (fieldOf r 9 6 + 1) * 64, rank := fieldOf r 16 8 }

/-- A send channel of a core. -/
def Core.chanOf (k : Core) (ch : Nat) : SendChan := SMap.get k.chan ch SendChan.zero

/-- A core with a send channel replaced. -/
def Core.setChan (k : Core) (ch : Nat) (v : SendChan) : Core := { k with chan := SMap.set k.chan ch SendChan.zero v }

/-- A sump as applied (R286): bases in the chamber, slots, elements, formats and enable. -/
structure SumpCfg where
  slots : Nat
  res : Nat
  n : Nat
  len : Nat
  sfmt : Nat
  rfmt : Nat
  en : Bool
deriving DecidableEq, Repr

/-- The applied fields of sump `u` (R286). -/
def State.sumpCfg (s : State) (c : CoreId) (u : Nat) : SumpCfg :=
  let w := s.applWord (chanPage c) (0x408 + 16 * u)
  { slots := fieldOf (s.applWord (chanPage c) (0x400 + 16 * u)) 6 14 * 64
    res := fieldOf (s.applWord (chanPage c) (0x404 + 16 * u)) 6 14 * 64
    n := fieldOf w 0 9, len := fieldOf w 12 12, sfmt := accFmt (fieldOf w 24 2), rfmt := accFmt (fieldOf w 26 2)
    en := wbit w 28 }

/-- The bytes between slots (R286). -/
def SumpCfg.stride (g : SumpCfg) : Nat := (g.len * 2 + 63) / 64 * 64

/-- A sump of a core. -/
def Core.sumpOf (k : Core) (u : Nat) : Sump := SMap.get k.sump u Sump.zero

/-- A core with a sump replaced. -/
def Core.setSump (k : Core) (u : Nat) (v : Sump) : Core := { k with sump := SMap.set k.sump u Sump.zero v }

/-- The page of chimney `n` of a hall (R294). -/
def chimneyPage (h : HallId) (n : Nat) : Nat := hallPage h (0x40 + n)

/-- Whether a logical core is in the applied map of a chimney (R294). -/
def State.chimneyHas (s : State) (h : HallId) (n c : Nat) : Bool :=
  wbit (s.applWord (chimneyPage h n) (0x100 + 4 * (c / 32))) (c % 32)

/-- The members of a chimney in increasing logical ID (R295). -/
def State.chimneyMembers (s : State) (h : HallId) (n : Nat) : List Nat :=
  (List.range 1152).filter (s.chimneyHas h n)

/-! ### Positions -/

/-- COLMAPc of a hall (R16). -/
def State.colmapWord (s : State) (h : HallId) (c : Nat) : Word := s.liveWord (hallPage h 0) (0x800 + 4 * c)

/-- The physical row of a logical row of a column (R14, R16). -/
def State.physRow (s : State) (h : HallId) (col row : Nat) : Nat :=
  if fieldOf (s.colmapWord h col) 0 4 = row then 12 else row

/-- A router as column + 12 × physical row within a hall. -/
def State.routerOf (s : State) (h : HallId) (i : Nat) : Nat := i % 12 + 12 * s.physRow h (i % 12) (i / 12)

/-- The next router from `a` on the fixed path to `b` within a hall: along the row, then along the column (R19). -/
def nextRouter (a b : Nat) : Nat :=
  if a % 12 < b % 12 then a + 1
  else if b % 12 < a % 12 then a - 1
  else if a < b then a + 12
  else if b < a then a - 12
  else a

/-- The routers of the path from `a` to `b`, both included, at most `fuel` steps. -/
def routerPath : (fuel a b : Nat) → List Nat
  | 0, a, _ => [a]
  | n + 1, a, b => if a = b then [a] else a :: routerPath n (nextRouter a b) b

/-! ### Barriers -/

/-- Page and base offset of the configuration of barrier `b` (R304). -/
def barPage (h : HallId) (b : Nat) : Nat := hallPage h (0x20 + b / 32)
def barOff (b : Nat) : Nat := 0x100 + 32 * (b % 32)

/-- BCFG of a barrier as applied (R304). -/
def State.bcfg (s : State) (h : HallId) (b : Nat) : Word := s.applWord (barPage h b) (barOff b)

/-- Whether a hall enables a barrier. -/
def State.barEn (s : State) (h : HallId) (b : Nat) : Bool := wbit (s.bcfg h b) 0

/-- Arrivals of a member core per round (R304). -/
def State.barArrivals (s : State) (h : HallId) (b : Nat) : Nat := fieldOf (s.bcfg h b) 1 2 + 1

/-- The root router of a barrier in a hall. -/
def State.barRoot (s : State) (h : HallId) (b : Nat) : Nat := s.routerOf h (fieldOf (s.bcfg h b) 3 8)

/-- The root hall of a partition barrier, and a hall barrier's own hall (R303, R304). -/
def State.barRootHall (s : State) (h : HallId) (b : Nat) : HallId :=
  if b < 64 then h else Fin.ofNat 8 (fieldOf (s.bcfg h b) 20 3)

/-- Whether local index `i` of a hall is a member (R304). -/
def State.barMember (s : State) (h : HallId) (b i : Nat) : Bool :=
  wbit (s.applWord (barPage h b) (barOff b + 4 + 4 * (i / 32))) (i % 32)

/-- The members of a barrier in a hall by local index. -/
def State.barMembers (s : State) (h : HallId) (b : Nat) : List Nat := (List.range 144).filter (s.barMember h b)

/-- The halls of a barrier's scope that enable it (R303, R305). -/
def State.barHalls (s : State) (h : HallId) (b : Nat) : List HallId :=
  if b < 64 then (if s.barEn h b then [h] else []) else (s.partHalls h).filter fun g => s.barEn g b

/-- An enabled barrier without a member anywhere in its scope (R310). -/
def State.barEmpty (s : State) (h : HallId) (b : Nat) : Bool :=
  (s.barHalls h b).all fun g => (s.barMembers g b).isEmpty

/-- What the root hall counts in this round: the halls (under 8) and ports (from 8 up) whose arrivals have come, and the
enabling halls with no member, which count as arrived in every round (R303). -/
def State.barCounted (s : State) (h : HallId) (b : Nat) : List Nat :=
  let l := SMap.get (s.hall h).bar.halls b []
  l ++ (((s.barHalls h b).filter fun g => (s.barMembers g b).isEmpty && !l.contains g.val).map fun g => g.val)

/-- The round state of a core for a barrier (R306). -/
def Core.barOf (k : Core) (b : Nat) : BarRound := SMap.get k.bar b BarRound.zero

/-- A core with the round state of a barrier replaced. -/
def Core.setBar (k : Core) (b : Nat) (v : BarRound) : Core := { k with bar := SMap.set k.bar b BarRound.zero v }

/-- Whether a ticket's round is still to be released (R308). -/
def Core.ticketOpen (k : Core) (t : Ticket) : Bool :=
  let rel := (k.barOf t.id.toNat).rel
  t.round = rel || t.round = rel + 1

end Sys2Proof.Machine
end

