-- ==== Sys2Proof/Machine/Measure.lean ====
section
/-!
DEFINITION. The flash slots and the keeper image that runs (R404 to R409), BOOTSTAT (R431), and the measurements (R411 to R415).
-/
namespace Sys2Proof.Machine

/-! ### Flash and boot -/

/-- The first flash byte of a slot: 0 for A, 1 for B (R407). -/
def slotBase (slot : Nat) : Nat := if slot = 0 then 0x100000 else 0x1900000

/-- The slot in which a flash byte lies (R407). -/
def slotAt (a : Nat) : Option Nat := [0, 1].find? fun k => decide (slotBase k ≤ a ∧ a < slotBase k + 25165824)

/-- A flash byte (R497): an erased byte that nothing has written since reads 0xFF (assumption log 62). -/
def State.flashAt (s : State) (a : Nat) : Byte :=
  (SMap.find? s.flash a).getD (if (match slotAt a with | some k => SMap.get s.slotErased k false | none => false) then 0xFF
    else Config.flashByte a)

/-- `n` flash bytes. -/
def State.flashBytes (s : State) (a n : Nat) : List Byte := (List.range n).map fun i => s.flashAt (a + i)

/-- The state with flash bytes written. -/
def State.setFlash (s : State) (a : Nat) : List Byte → State
  | [] => s
  | b :: t => { s with flash := SMap.put s.flash a b }.setFlash (a + 1) t

/-- The slot that the preference record prefers (R407). -/
def State.preferred (s : State) : Nat := bitsOf (s.flashAt 0).toNat 0 1

/-- The ROLLBACK count (R404, R410). -/
def State.rollback (s : State) : Nat := max (bitsOf Config.bootstat.toNat 9 7) s.blown

/-- Fuse PRODUCTION and bit i of fuse REVOKE (R404). -/
def production : Bool := bitOf Config.bootstat.toNat 16
def revoked (i : Nat) : Bool := bitOf Config.bootstat.toNat (17 + i)

/-- A field of a keeper image header (R407). -/
def hdr (d : List Byte) (lo n : Nat) : Nat := bytesNat ((d.drop lo).take n)

/-- Whether MAGIC, LEN and the reserved bytes of a header are valid (R407, R408). SVN lies in 0 to 64 and KEYIDX in 0 to 3. -/
def headerOk (d : List Byte) : Bool :=
  hdr d 0 4 == 0x52504B59 && decide (hdr d 4 1 ≤ 64) && decide (hdr d 5 1 ≤ 3) && hdr d 6 2 == 0
    && decide (1 ≤ hdr d 8 4 ∧ hdr d 8 4 ≤ 25165568) && hdr d 12 20 == 0 && hdr d 128 32 == 0 && hdr d 224 32 == 0

/-- The reason for which an image in a slot is not accepted, 0 when it is (R408, R432). `len` is the number of bytes that an update has
sent to the slot, which its VERIFY tests too; none at a boot. -/
def State.imageReason (s : State) (slot : Nat) (len : Option Nat) : Nat :=
  let d := s.flashBytes (slotBase slot) 256
  let key := (d.drop 64).take 64
  if (match len with | some n => decide (n < 256) | none => false) || !headerOk d || revoked (hdr d 5 1)
      || sm3 key != Config.vkey (hdr d 5 1) then 1
  else if !sm2Verify key (d.take 160) ((d.drop 160).take 64) then 2
  else if (match len with | some n => n != 256 + hdr d 8 4 | none => false)
      || sm3 (s.flashBytes (slotBase slot + 256) (hdr d 8 4)) != (d.drop 32).take 32 then 3
  else if hdr d 4 1 < s.rollback then 4
  else 0

/-- The keeper image in a slot. -/
def State.imageOf (s : State) (slot : Nat) : KeeperImg :=
  let d := s.flashBytes (slotBase slot) 256
  { slot := slot, svn := hdr d 4 1, digest := (d.drop 32).take 32, fallback := decide (slot ≠ s.preferred) }

/-- The slot that the ROM accepts, the preferred one first (R408). -/
def State.bootSlot (s : State) : Option Nat :=
  let p := s.preferred
  if s.imageReason p none = 0 then some p
  else if s.imageReason (1 - p) none = 0 then some (1 - p)
  else none

/-- The keeper that the flash of manufacture boots (R408); the state after reset has booted, so one of its slots is accepted
(assumption log 8). -/
def factoryImage : KeeperImg := State.reset.imageOf (State.reset.bootSlot.getD 0)

/-- The keeper that runs. -/
def State.keeperImg (s : State) : KeeperImg := s.keeper.getD factoryImage

/-- Slot, SVN and body digest of the running keeper, and FALLBACK as the last boot left it (R408, R431). -/
def State.runSlot (s : State) : Nat := s.keeperImg.slot
def State.runSvn (s : State) : Nat := s.keeperImg.svn
def State.runDigest (s : State) : List Byte := s.keeperImg.digest
def State.fallback (s : State) : Bool := s.keeperImg.fallback

/-- BOOTSTAT (R431). -/
def State.bootstat (s : State) : Word :=
  w32 (s.runSlot + b2n s.fallback * 2 + s.runSvn * 2 ^ 2 + s.rollback * 2 ^ 9 + b2n production * 2 ^ 16
    + bitsOf Config.bootstat.toNat 17 4 * 2 ^ 17)

/-! ### Measurements -/

/-- The mode of a hall (R419). -/
def State.hallMode (s : State) (h : HallId) : Nat := s.field 8 (0x800 + 4 * h.val) 0 2

/-- A staged area of a page as applied: 0x700 bytes (R411). -/
def State.appliedArea (s : State) (p : Nat) : List Byte :=
  (List.range 448).flatMap fun i => natBytes 4 (s.applWord p (0x100 + 4 * i)).toNat

/-- Measurement 5 (R411). -/
def State.measurePackage (s : State) : List Byte :=
  sm3 (natBytes 4 s.partLive ++ ((List.range 12).map (0x10 + ·) ++ [0x31]).flatMap s.appliedArea)

/-- The measurement of the configuration of a hall (R412). -/
def State.measureConfig (s : State) (h : HallId) : List Byte :=
  sm3 (natBytes 4 s.partLive ++ natBytes 4 (s.applWord 8 (0x100 + 4 * h.val)).toNat
    ++ (((List.range 256).map (hallPage h)).filter fun p => (pageBlock p).isSome).flatMap s.appliedArea
    ++ s.appliedArea (0x20 + h.val) ++ (hallCores h).flatMap fun c => s.appliedArea (chanPage c))

/-- The address of the boot descriptor in force (R156). -/
def State.bootBase (s : State) (h : HallId) : Nat :=
  (s.liveWord (hallPage h 0) 0x890).toNat + (s.liveWord (hallPage h 0) 0x894).toNat * 2 ^ 32

/-- A code segment as the runtime measurement hashes it: base and extent. -/
def codeArea (e : List Byte) : Nat × Nat :=
  let d : SegImage := BitVec.ofNat 128 (bytesNat (e.take 16))
  (segBase d, segExtent d)

/-- A thread entry that is present and has ring 1 (R413). -/
def measuredEntry (e : List Byte) : Bool := hdr e 50 1 % 2 == 1 && bitsOf (hdr e 50 1) 3 2 == 1

/-- The measurement of the runtime of a hall (R413). -/
def State.measureRuntime (s : State) (h : HallId) : List Byte :=
  let t := s.bytesAt (s.bootBase h) 36864
  let areas := (((List.range 576).map fun i => (t.drop (64 * i)).take 64).filter measuredEntry).map codeArea
  sm3 (t ++ areas.eraseDups.flatMap fun a => s.bytesAt a.1 a.2)

/-- The measurements of a hall are taken (R411): at each of its context switches. -/
def State.takeMeasures (s : State) (h : HallId) : State :=
  let c := s.measureConfig h
  let r := s.measureRuntime h
  s.modHall h fun v => { v with measCfg := c, measRun := r }

/-- A digest that has not been taken yet reads as zeros (assumption log 22). -/
def digestOr (l : List Byte) : List Byte := if l.isEmpty then List.replicate 32 0 else l

/-- A hall by number. -/
def hallNo (n : Nat) : HallId := Fin.ofNat 8 n

/-- A measurement: its DMTF type and value (R411). R17 has attestation report a hall that is out of service, and R411 lists no index that
carries it: the model's measurements show nothing of it, a choice of the model (assumption log 63). -/
def State.measurement (s : State) (i : Nat) : Option (Nat × List Byte) :=
  if i = 1 then some (0, Config.romDigest)
  else if i = 2 then some (1, s.runDigest)
  else if i = 3 then some (7, natBytes 1 s.runSvn)
  else if i = 4 then
    some (3, natBytes 4 (b2n production + ((List.range 8).map fun h => b2n (s.hallMode (hallNo h) == 0) * 2 ^ (1 + h)).sum))
  else if i = 5 then some (2, s.measurePackage)
  else if 16 ≤ i ∧ i < 24 then some (2, digestOr (s.hall (hallNo (i - 16))).measCfg)
  else if 24 ≤ i ∧ i < 32 then some (1, digestOr (s.hall (hallNo (i - 24))).measRun)
  else if 32 ≤ i ∧ i < 40 then
    some (3, (List.range 8).flatMap fun w => natBytes 4 (s.liveWord 0xA (0x800 + 32 * (i - 32) + 4 * w)).toNat)
  else if i = 40 then some (8, digestOr s.updLog)
  else none

/-- MINFO and MVALw of the index selected (R415). -/
def State.viewMeasure (s : State) (off : Nat) : Option Word :=
  let m := s.measurement (fieldOf (s.liveWord 9 0x800) 0 8)
  if off = 0x804 then
    some (match m with | some (t, v) => w32 (t + v.length * 2 ^ 8 + 2 ^ 16) | none => 0)
  else if 0x820 ≤ off ∧ off < 0x840 then
    some (match m with | some (_, v) => w32 (hdr v (off - 0x820) 4) | none => 0)
  else none

end Sys2Proof.Machine
end

