-- ==== Sys2Proof/Machine/CtlRead.lean ====
section
/-!
DEFINITION. Reads of control pages: the common header (R36 to R39, R45), the staged area (R43), the registers that show
state kept elsewhere (R79, R89, R173, R180, R215, R300, R316, R357), 64-bit counters with their latches (R42), registers
that a read clears, and who may reach which page (R24, R41, R388, R422, R424).
-/
namespace Sys2Proof.Machine

/-! ### Threads as they show -/

/-- Whether a queue entry of a thread has still to write a register (R168). -/
def Core.queueHolds (k : Core) (t : Fin 4) (r : BitVec 5) : Bool :=
  (k.mq.entries ++ k.vq.entries ++ k.dq.entries).any fun e => e.thread = t && queueDest e.instr = some r

/-- Whether a register of a thread is pending (R168); s0 never is. -/
def Core.regPending (k : Core) (t : Fin 4) (r : BitVec 5) : Bool :=
  r != 0 && ((k.thread t).loads.any (fun l => l.rd = r) || k.queueHolds t r)

/-- Entries that a queue can hold (R167). -/
def queueCap (q : Nat) : Nat := if q = 2 then 8 else 16

/-- Whether what a thread waits for has not come about yet (R165, R169, R279, R308). -/
def Core.stillWaits (k : Core) (t : Fin 4) : WaitFor → Bool
  | .any m => m != 0 && (k.thread t).ev &&& m == 0
  | .all m => (k.thread t).ev &&& m != m
  | .recv r => (k.ringOf r.val).rx == (k.ringOf r.val).wr
  | .barrier => match (k.thread t).ticket with | some tk => k.ticketOpen tk | none => false
  | .queue q => decide (queueCap q.val ≤ (k.queue q.val).entries.length)
  | .register (some r) => k.regPending t r
  | .register none => decide (8 ≤ (k.thread t).loads.length)

/-- The block reason of a thread (R169); 0 when it is not blocked. -/
def Core.blockCode (k : Core) (t : Fin 4) : Nat :=
  let th := k.thread t
  if th.run ≠ .active then 0
  else match th.wait with
    | none => 0
    | some w =>
      if k.stillWaits t w then
        match w with
        | .any _ => 1 | .all _ => 1 | .recv _ => 2 | .barrier => 3 | .queue q => 4 + q.val | .register _ => 7
      else 0

/-- The state of a thread: 0 parked, 1 ready, 2 blocked, 3 halted (R151). -/
def Core.threadState (k : Core) (t : Fin 4) : Nat :=
  match (k.thread t).run with
  | .parked => 0
  | .halted => 3
  | .active => if k.blockCode t = 0 then 1 else 2

/-- THREADn (R173). -/
def Core.threadWord (k : Core) (t : Fin 4) : Nat :=
  let th := k.thread t
  k.threadState t + k.blockCode t * 2 ^ 3 + th.prio.toNat * 2 ^ 7 + th.ring.toNat * 2 ^ 9 + th.pc.toNat * 2 ^ 12

/-- QSTAT (R173). -/
def Core.qstat (k : Core) : Nat :=
  k.mq.entries.length + b2n (k.mq.stop.isSome || k.mq.byMove.isSome) * 2 ^ 5 + k.vq.entries.length * 2 ^ 8 + b2n k.vq.stop.isSome * 2 ^ 13
    + k.dq.entries.length * 2 ^ 16 + b2n k.dq.stop.isSome * 2 ^ 20

/-- The cycle counter of a core (R179). -/
def State.cycleOf (s : State) (c : CoreId) : Nat := (s.hall c.hall).cycles - (s.core c).cycBase

/-- BCOREb (R316). -/
def barWord (b : BarRound) : Nat :=
  b.rel.toNat + b.arr.toNat * 2 ^ 16 + b2n b.sent * 2 ^ 19 + b.next.toNat * 2 ^ 20

/-- BTICKETn (R316). -/
def ticketWord : Option Ticket → Nat
  | some t => t.id.toNat + 2 ^ 7 + t.round.toNat * 2 ^ 8
  | none => 0

/-! ### Views by page -/

/-- Registers of a CORE page that show state kept elsewhere. -/
def State.viewCore (s : State) (c : CoreId) (off : Nat) : Option Word :=
  let k := s.core c
  if 0x840 ≤ off ∧ off < 0x880 then some (SMap.get k.tshape ((off - 0x840) / 4) 0)
  else if 0x900 ≤ off ∧ off < 0x910 then some (w32 (k.threadWord (Fin.ofNat 4 ((off - 0x900) / 4))))
  else if 0x910 ≤ off ∧ off < 0x920 then some (k.thread (Fin.ofNat 4 ((off - 0x910) / 4))).ev
  else if off = 0x920 then some (w32 k.qstat)
  else if 0x940 ≤ off ∧ off < 0x980 then some (SMap.get k.common ((off - 0x940) / 4) 0)
  else if off = 0x980 then some (w32 (s.cycleOf c))
  else if off = 0x984 then some (w32 (s.cycleOf c / 2 ^ 32))
  else if 0x990 ≤ off ∧ off < 0x9B0 then
    let v := (k.thread (Fin.ofNat 4 ((off - 0x990) / 8))).tmrcmp.toNat
    some (w32 (if off % 8 = 0 then v else v / 2 ^ 32))
  else if 0xA20 ≤ off ∧ off < 0xA30 then some (k.thread (Fin.ofNat 4 ((off - 0xA20) / 4))).inten
  else if 0xA30 ≤ off ∧ off < 0xA40 then some (k.thread (Fin.ofNat 4 ((off - 0xA30) / 4))).intpend
  else if 0xA40 ≤ off ∧ off < 0xA50 then
    let t := k.thread (Fin.ofNat 4 ((off - 0xA40) / 4))
    some (w32 (b2n t.inh + b2n t.df * 2))
  else if 0xAA0 ≤ off ∧ off < 0xAB0 then some (w32 (ticketWord (k.thread (Fin.ofNat 4 ((off - 0xAA0) / 4))).ticket))
  else if 0xC00 ≤ off ∧ off < 0xD40 then some (w32 (barWord (k.barOf ((off - 0xC00) / 4))))
  else none

/-- Registers of a CHANNEL page that show state kept elsewhere. -/
def State.viewChannel (s : State) (c : CoreId) (off : Nat) : Option Word :=
  if 0x840 ≤ off ∧ off < 0x8C0 then some ((s.core c).sumpOf ((off - 0x840) / 4)).round else none

/-- The chamber offset of the head that LSEL selects, when it is present (R300). -/
def State.lanternHead (s : State) (c : CoreId) : Option Nat :=
  let sel := s.liveWord (corePage c 3) 0x820
  let i := fieldOf sel 0 5
  if wbit sel 5 then
    let u := (s.core c).sumpOf i
    let g := s.sumpCfg c i
    if (SMap.get u.present u.drained none).isSome then some (g.slots + u.drained * g.stride) else none
  else
    let r := (s.core c).ringOf i
    let n := s.ringEntries c i
    if r.rx ≠ r.wr ∧ n ≠ 0 then some (s.ringBase c i + r.rx % n * s.ringEsize c i) else none

/-- The low `n` presence bits of a sump from slot `lo`. -/
def presenceBits (u : Sump) (lo : Nat) : (n : Nat) → Nat
  | 0 => 0
  | n + 1 => b2n (SMap.get u.present (lo + n) none).isSome * 2 ^ n + presenceBits u lo n

/-- Registers of a LANTERN page that show state kept elsewhere (R300). -/
def State.viewLantern (s : State) (c : CoreId) (off : Nat) : Option Word :=
  let k := s.core c
  if 0x840 ≤ off ∧ off < 0x8C0 then
    let r := k.ringOf ((off - 0x840) / 4)
    some (w32 (r.wr + r.rx * 2 ^ 9 + r.rd * 2 ^ 18))
  else if 0x8C0 ≤ off ∧ off < 0x940 then
    let h := k.chanOf ((off - 0x8C0) / 4)
    let t := match h.openBy with | some t => t.val | none => 0
    some (w32 (h.avail + b2n h.openBy.isSome * 2 ^ 9 + t * 2 ^ 10 + b2n (!h.held.isEmpty) * 2 ^ 12))
  else if 0x940 ≤ off ∧ off < 0x9C0 then
    let u := k.sumpOf ((off - 0x940) / 4)
    some (w32 (u.state.toNat + u.drained * 2 ^ 2 + u.present.length * 2 ^ 11))
  else if 0x9C0 ≤ off ∧ off < 0x9E0 then
    let sel := s.liveWord (corePage c 3) 0x820
    some (if wbit sel 5 then w32 (presenceBits (k.sumpOf (fieldOf sel 0 5)) (32 * ((off - 0x9C0) / 4)) 32) else 0)
  else if 0xA00 ≤ off ∧ off < 0xA40 then
    some (match s.lanternHead c with
      | some o => w32 (bytesNat (s.bytesAt (chamberBase c + o + (off - 0xA00)) 4))
      | none => 0)
  else none

/-- TALLY_NZ of a core or engine (R79). -/
def State.tallyNzWord (s : State) (u : TallyUnit) : (n : Nat) → Nat
  | 0 => 0
  | n + 1 => b2n (s.tallyNz u n) * 2 ^ n + s.tallyNzWord u n

/-- The engine of a hall page, by the page's place in the hall. -/
def engineOfPage (k : Nat) : Option (Fin 9) :=
  if k = 8 then some 0 else if k = 0xC then some 1 else if k = 0xD then some 2 else if k = 0xE then some 3
  else if k = 0xF then some 4 else if 0x10 ≤ k ∧ k < 0x14 then some (Fin.ofNat 9 (k - 0x10 + 5)) else none

/-- BSTATb (R316). -/
def State.bstat (s : State) (h : HallId) (b : Nat) : Word :=
  let v := (s.hall h).bar
  let arrived := (SMap.get v.count (b * 156 + s.barRoot h b) ⟨0, 0⟩).members
  w32 (arrived + (s.barMembers h b).length * 2 ^ 8 + (SMap.get v.rel b 0).toNat * 2 ^ 16)

/-- BHALLb (R316). -/
def State.bhall (s : State) (h : HallId) (b : Nat) : Word :=
  if s.barEn h b && s.barRootHall h b = h then
    w32 (((s.barCounted h b).filter (· < 8)).length + (s.barHalls h b).length * 2 ^ 4)
  else 0

/-- Registers of a hall's pages that show state kept elsewhere. -/
def State.viewHall (s : State) (h : HallId) (k off : Nat) : Option Word :=
  if 0x20 ≤ k ∧ k < 0x23 then
    if 0x800 ≤ off ∧ off < 0x880 then some (s.bstat h ((k - 0x20) * 32 + (off - 0x800) / 4))
    else if k = 0x22 ∧ 0x880 ≤ off then some (s.bhall h (64 + (off - 0x880) / 4))
    else none
  else if 0x40 ≤ k ∧ k < 0x80 then (if off = 0x800 then some (w32 (s.chimneyMembers h (k - 0x40)).length) else none)
  else if k = 1 then
    if off = 0x884 then
      let w := fieldOf (s.liveWord (hallPage h 1) 0x880) 0 16
      some (w32 ((List.range 32).foldl (fun a i =>
        a + b2n (decide (w ≤ 36863) && SMap.get (s.hall h).nearProt (32 * w + i) false) * 2 ^ i) 0))
    else if off = 0x888 then some (w32 (s.hall h).nearProt.length)
    else none
  else if off = 0xF04 then (engineOfPage k).map fun n => w32 (s.tallyNzWord (.engine h n) 16)
  else none

/-- Whether BAR2 takes no further request: some hall is not open (R391). -/
def State.bar2Closed (s : State) : Bool := (List.finRange 8).any fun h => s.hallMode h != 0

/-- Whether a write through BAR2 is held, accepted and not yet performed (R356, R390). -/
def State.bar2Held (s : State) : Bool := (List.finRange 8).any fun h => (s.hall h).nearHeld.any fun w => w.agent == .pf

/-- Whether every request that BAR2 has accepted is performed (R391). -/
def State.bar2Quiet (s : State) : Bool := s.bar2Wait.isEmpty && !s.bar2Held

/-- FSTAT of a function (R393): VISIBLE with VF Enable and an applied configuration; CLOSED while some hall is not open, once every
request accepted before is performed (R391). -/
def State.fstat (s : State) (n : Nat) : Word :=
  w32 (setBits (setBits (s.liveWord (0x20 + n) 0x820).toNat 0 1 (b2n (s.vfVisible n))) 2 1 (b2n (s.bar2Closed && s.bar2Quiet)))

/-- What a register that shows state kept elsewhere reads as; none: its live word. -/
def State.viewWord (s : State) (p off : Nat) : Option Word :=
  if 0x1000 ≤ p ∧ p < 0x2200 then
    let c : CoreId := Fin.ofNat 1152 ((p - 0x1000) / 4)
    match (p - 0x1000) % 4 with
    | 0 => s.viewCore c off
    | 1 => s.viewChannel c off
    | 2 => if off = 0x804 then some (w32 (s.tallyNzWord (.core c) 16)) else none
    | _ => s.viewLantern c off
  else if 0x100 ≤ p ∧ p < 0x900 then s.viewHall (Fin.ofNat 8 ((p - 0x100) / 0x100)) ((p - 0x100) % 0x100) off
  else if 0x20 ≤ p ∧ p < 0x28 ∧ off = 0x820 then some (s.fstat (p - 0x20))
  else if p = 8 ∧ off = 0x820 then some s.bootstat
  else if p = 9 then s.viewMeasure off
  else none

/-- A register word as it stands. -/
def State.regWord (s : State) (p off : Nat) : Word := (s.viewWord p off).getD (s.liveWord p off)

/-! ### The header and the staged area -/

/-- Pages of the block of a page, by ordinal. -/
def blockPages (p : Nat) : List Nat :=
  match pageBlock p with
  | some (b, _, ord) => (List.range (blockSpan b)).map fun i => p - ord + i
  | none => []

/-- Whether a page has a staged register. -/
def pageStaged (p : Nat) : Bool :=
  match pageBlock p with
  | some (b, inst, ord) => (regRows b inst ord).any fun r => r.acc = .rws
  | none => false

/-- Whether the block of a page has a configuration (R43). -/
def hasConfig (p : Nat) : Bool := (blockPages p).any pageStaged

/-- PAGE_ID's instance field (R37). DEDUCED: the unit of a ROUTER page is the attachment index `a` of R358, the only number that tells a
hall's ROUTER pages apart (assumption log 38). -/
def pageInstance (p : Nat) : Nat :=
  if 0x1000 ≤ p then (p - 0x1000) / 4
  else if 0x100 ≤ p then
    let k := (p - 0x100) % 0x100
    (p - 0x100) / 0x100 * 256 +
      (if 0x10 ≤ k ∧ k < 0x14 then k - 0x10 else if 0x90 ≤ k ∧ k < 0xA0 then k - 0x90 else 0)
  else if 0x10 ≤ p ∧ p < 0x1C then p - 0x10
  else if 0x30 ≤ p ∧ p < 0x38 then (p - 0x30) / 4
  else 0

/-- A word of the common header (R36). -/
def State.headerWord (s : State) (p off : Nat) (b : Block) (ord : Nat) : Word :=
  if off = 0x000 then w32 (blockCode b * 2 ^ 16 + pageInstance p)
  else if off = 0x004 then 1
  else if off = 0x018 ∨ off = 0x020 then 0
  else if off = 0x024 ∨ off = 0x028 then s.liveWord (firstPage p) off
  else if off = 0x02C then w32 (blockSpan b + ord * 2 ^ 8)
  else s.liveWord p off

/-! ### Who reaches a page -/

/-- How far an agent reaches a page. -/
inductive Reach where
  | all
  | readOnly
  | refused
  /-- Unsupported Request (R422) -/
  | unsupported
  /-- a handover keeps the page busy (R434) -/
  | busy
  /-- not served: the host's request does not reach the module, or a function-level reset discards it (R401, R402) -/
  | dropped
deriving DecidableEq, Repr

/-- Whether a page is a LANTERN page. -/
def isLantern (p : Nat) : Bool := decide (0x1000 ≤ p ∧ p < 0x2200 ∧ p % 4 = 3)

/-- Whether a page is a ROUTER page. -/
def isRouter (p : Nat) : Bool := decide (0x100 ≤ p ∧ p < 0x900 ∧ 0x90 ≤ p % 0x100 ∧ p % 0x100 < 0xA0)

/-- The hall whose control page a page is for cores and engines: a function page counts as one of its hall (R393, R424; assumption
log 31). -/
def homeHall (p : Nat) : Option HallId := if 0x20 ≤ p ∧ p < 0x28 then some (Fin.ofNat 8 (p - 0x20)) else pageHall p

/-- The reach of cores and engines of a hall to a page (R422, R424, R428). -/
def State.reachFrom (s : State) (g : HallId) (p : Nat) : Reach :=
  match homeHall p with
  | some h => if !s.samePart g h || s.scrubFailed h then .refused else if isLantern p ∧ s.hallMode h ≠ 0 then .refused else .all
  | none => if p = 1 then .readOnly else .refused

/-- The port's registers and PF0's MSI-X table in page 0x0020, which only PF BAR0 and the keeper see (R388, R403). -/
def portHidden (a : Agent) (p off : Nat) : Bool :=
  p == 0x20 && decide (0xC00 ≤ off ∧ off < 0xE00) &&
    match a with
    | .keeper => false
    | .pf => false
    | _ => true

/-- Whether the PCIe link is up (R403). -/
def State.linkUp (s : State) : Bool := s.field 0x20 0xC00 0 2 == 2

/-- The page of a function. -/
def funPage (h : HallId) : Nat := 0x20 + h.val

/-- Whether a function-level reset of a VF is under way (R393). -/
def State.vfReset (s : State) (h : HallId) : Bool := wbit (s.liveWord (funPage h) 0x820) 1

/-- Whether what the host sends through a BAR0 is not served: the link is not up, or a function-level reset discards it (R401, R402). -/
def State.hostGone (s : State) : Agent → Bool
  | .pf => !s.linkUp || s.pf0Flr
  | .vf h _ => !s.linkUp || s.vfReset h
  | _ => false

/-- Whether a handover keeps a page busy for the host (R434). -/
def State.handoverBusy (s : State) (p : Nat) : Bool :=
  s.updState == 5 && (p == 0 || decide (2 ≤ p ∧ p < 0x20) || decide (0x28 ≤ p ∧ p < 0x100))

/-- Whether requests in the window of a VF meet Unsupported Request: it is not visible (R52, R392), or its hall is not open and they are
not of the bound stream with T set (R422). -/
def State.vfRefuses (s : State) (h : HallId) (t : Bool) : Bool :=
  !s.vfVisible h.val || (s.hallMode h != 0 && !(s.hallMode h == 2 && t))

/-- The reach of an agent to an offset of a page (R24, R388, R392, R401, R402, R422, R424, R428, R434). DEDUCED: of R422's two rows that
name it, a LANTERN page's header follows the one for any agent (assumption log 66). -/
def State.reach (s : State) (a : Agent) (p off : Nat) : Reach :=
  if s.hostGone a then .dropped else
  match a with
  | .keeper => .all
  | .pf =>
    if s.handoverBusy p then .busy else
    match pageHall p with
    | none => .all
    | some h =>
      if s.hallMode h = 0 then .all
      else if s.scrubFailed h ∨ isLantern p then .refused
      else if off < 0x030 ∨ isRouter p then .readOnly
      else .refused
  | .vf h t =>
    if s.vfRefuses h t then .unsupported
    else if p = 1 then .readOnly
    else if p = 0x20 + h.val then .all
    else if pageHall p = some h then (if isLantern p ∧ s.hallMode h ≠ 0 then .refused else .all)
    else .refused
  | .core x => s.reachFrom x.hall p
  | .engine g _ => s.reachFrom g p

/-! ### Reads -/

/-- The number of an agent among those with a latch: the host, the keeper, each core and each engine (R42). -/
def latchAgent : Agent → Nat
  | .keeper => 0
  | .pf => 1
  | .vf _ _ => 1
  | .core x => 2 + x.core.val
  | .engine h n => 1154 + h.val * 9 + n.val

/-- A 64-bit register that is a counter (R42): timer compares, steps and key check values are none. -/
def isCounter (p off : Nat) : Bool :=
  match pageBlock p with
  | some (.core, _, _) => decide (off < 0x990 ∨ 0x9B0 ≤ off)
  | some (.memctl, _, _) => decide (off < 0x900 ∨ off = 0x918 ∨ off = 0x91C ∨ 0x960 ≤ off)
  | _ => true

/-- The key of an agent's latch of a counter. -/
def latchKey (p off : Nat) (a : Agent) : Nat := widx p off * 2048 + latchAgent a

/-- What a read of one word answers. -/
structure WordRead where
  st : State
  val : Word

/-- An access error at a control-space offset (R8, R40). -/
def State.ctlError (s : State) (a : Agent) (o : Nat) (write : Bool) : State := s.accessError a (controlBase + o) write

/-- A read of a register of the live area: counters latch, registers that a read clears are cleared (R7, R42). -/
def State.readReg (s : State) (a : Agent) (p off : Nat) (r : RegRow) (hi : Bool) : WordRead :=
  if r.acc = .wo then ⟨s, 0⟩
  else if r.wide && isCounter p off then
    if hi then ⟨s, SMap.get s.latch (latchKey p (off - 4) a) 0⟩
    else ⟨{ s with latch := SMap.set s.latch (latchKey p off a) 0 (s.regWord p (off + 4)) }, s.regWord p off⟩
  else if r.acc = .rc then ⟨s.setLive p off 0, s.regWord p off⟩
  else ⟨s, s.regWord p off⟩

/-- A read of the word at a control-space offset, once its page is reached (R8, R36, R41, R43). -/
def State.readWord (s : State) (a : Agent) (o : Nat) : WordRead :=
  let p := o / 4096
  let off := o % 4096
  if off % 4 ≠ 0 then ⟨s.ctlError a o false, 0⟩ else
  match pageBlock p with
  | none => ⟨s.ctlError a o false, 0⟩
  | some (b, _, ord) =>
    if off < 0x030 then ⟨s, s.headerWord p off b ord⟩
    else if off < 0x100 then ⟨s.ctlError a o false, 0⟩
    else if off < 0x800 then
      if hasConfig p then ⟨s, s.stagedWord p off⟩ else ⟨s.ctlError a o false, 0⟩
    else if portHidden a p off then ⟨s, 0⟩
    else match regAt p off with
      | some (r, _, hi) => s.readReg a p off r hi
      | none => ⟨s.ctlError a o false, 0⟩

/-- A read of the word at a control-space offset by an agent (R40, R422, R424, R434). -/
def State.ctlReadWord (s : State) (a : Agent) (o : Nat) : WordRead :=
  match s.reach a (o / 4096) (o % 4096) with
  | .all => s.readWord a o
  | .readOnly => s.readWord a o
  | .refused => ⟨s.ctlError a o false, 0⟩
  | .busy => ⟨s, 0xFFFFFFFF⟩
  | .unsupported => ⟨s, 0⟩
  | .dropped => ⟨s, 0⟩

/-- Whether an access of `n` bytes at an address is one that control pages take (R41). -/
def ctlShape (addr n : Nat) : Bool := (n == 4 && addr % 4 == 0) || (n == 8 && addr % 8 == 0)

/-- A read by an agent of the module: memory, or a control page with an access that R41 allows. -/
def State.agentRead (s : State) (a : Agent) (addr n : Nat) : MemRes :=
  if isControl addr && ctlShape addr n then
    let o := addr - controlBase
    let r := s.ctlReadWord a o
    if n = 4 then ⟨r.st, natBytes 4 r.val.toNat, false⟩
    else
      let r2 := r.st.ctlReadWord a (o + 4)
      ⟨r2.st, natBytes 4 r.val.toNat ++ natBytes 4 r2.val.toNat, false⟩
  else s.memRead a addr n

/-- A write by an agent of the module: memory, or a control page. A control write is posted, and the command that makes it
performs it before it ends (`settle`). -/
def State.agentWrite (s : State) (a : Agent) (addr : Nat) (d : List Byte) (tag : WriteTag := {}) : State :=
  if isControl addr && ctlShape addr d.length then
    let o := addr - controlBase
    let w1 := (a, o, w32 (bytesNat (d.take 4)), tag.ring)
    { s with posted := s.posted ++ (if d.length = 4 then [w1] else [w1, (a, o + 4, w32 (bytesNat (d.drop 4)), tag.ring)]) }
  else s.memWrite a addr d tag

/-- A read by a thread. -/
def State.busRead (s : State) (x : Site) (addr n : Nat) : MemRes := s.agentRead (.core x) addr n

/-- A write by the scalar instruction that a thread issues (R254, R255). -/
def State.busWrite (s : State) (x : Site) (addr : Nat) (d : List Byte) : State :=
  s.agentWrite (.core x) addr d { obs := 0, seq := (s.core x.core).issueSeq, ring := (s.thread x).ring }

/-- A write by observer `obs` of a core (1 vector, 2 matrix, 3 DMA) for an entry of its queue (R254, R255). -/
def State.entryWrite (s : State) (c : CoreId) (e : QEntry) (obs addr : Nat) (d : List Byte) : State :=
  s.agentWrite (.core ⟨c, e.thread⟩) addr d { obs := obs, seq := e.seq, ring := e.ring }

end Sys2Proof.Machine
end

