-- ==== Sys2Proof/Machine/Issue.lean ====
section
/-!
DEFINITION. Issue of an instruction by a thread (R160, R168, R204 to R208): when a thread can issue, what retires it, what a
fault records and takes, what makes it wait; and the fetch of a word (R182). A command that names an instruction is that
instruction as the thread fetched it (R184; assumption log 14).
-/
namespace Sys2Proof.Machine

/-- What the effect of an instruction comes to. -/
inductive Res where
  /-- performed: the thread goes on -/
  | done (s : State)
  /-- performed: the thread goes on at `pc` -/
  | jump (s : State) (pc : BitVec 16)
  /-- performed, the thread's PC and repeat state as the instruction left them -/
  | entered (s : State)
  /-- not performed: the thread waits -/
  | wait (w : WaitFor)
  /-- not performed: not chosen, the thread stays ready (R211, R263, R281) -/
  | held
  /-- a scalar fault -/
  | fault (s : State) (f : SFault)
  /-- a scalar fault of the instruction behind a repeat prefix, found at the prefix (R206), with its word -/
  | faultNext (s : State) (f : SFault) (w : Word)
  /-- an exception with its own fault record, written already -/
  | raise (s : State) (v : Nat)

/-- Whether the thread's repeat sequence admits an instruction: only the repeated word (R204, R205). -/
def Thread.admits (t : Thread) (i : Instr) : Bool :=
  match t.rep with
  | none => true
  | some r => wordOf i == some r.word

/-- Whether threads of a hall issue: starting or running (R153), or stopping with a REP.L sequence to end (R155). -/
def State.hallIssues (s : State) (h : HallId) (t : Thread) : Bool :=
  let q := s.hallState h
  q == 1 || q == 2 || (q == 3 && t.locked)

/-- Whether a thread that was blocked is ready again: what it waited for has come about, and nothing comes before its instruction
(R151, R167, R169). -/
def State.readyAgain (s : State) (x : Site) : Bool :=
  let t := s.thread x
  s.hallIssues x.hall t && decide (t.run = .active) && t.dfPend.isNone && (s.boundary x).isNone &&
    (match t.wait with
    | some w => !(s.core x.core).stillWaits x.thread w
    | none => false)

/-- The number of the last instruction of a thread since reset or the context switch; 0 for none. -/
def Core.issuedLast (k : Core) (n : Fin 4) : Nat := SMap.get k.lastIssue n.val 0

/-- Whether R160 chooses thread `m` before thread `n`, both ready: by priority, then the one that issued less recently, then the lower
number. -/
def Core.before (k : Core) (m n : Fin 4) : Bool :=
  let p := (k.thread m).prio
  let q := (k.thread n).prio
  decide (q < p) || (p == q && (decide (k.issuedLast m < k.issuedLast n) || (k.issuedLast m == k.issuedLast n && decide (m < n))))

/-- Whether R160 passes a thread over for another, which is known to be ready: one that was blocked and is so no longer, such as one whose
credit has come back (R160, R162, R167). When a thread that was not blocked has its word fetched and its operands, cycle by cycle, is
timing (R211), which the model leaves to the sender of commands (assumption log 44). -/
def State.passedOver (s : State) (x : Site) : Bool :=
  (List.finRange 4).any fun n => n != x.thread && s.readyAgain ⟨x.core, n⟩ && (s.core x.core).before n x.thread

/-- Whether a thread issues this instruction now: it is active, its hall runs, no exception is there to take first (R230),
no failed entry waits (R234), no repeat sequence stands against it, and it is not passed over (R160). -/
def State.canIssue (s : State) (x : Site) (i : Instr) : Bool :=
  let t := s.thread x
  s.hallIssues x.hall t && decide (t.run = .active) && t.dfPend.isNone && (s.boundary x).isNone && t.admits i && !s.passedOver x

/-- A register that an instruction names and that is pending (R168). -/
def State.pendingReg (s : State) (x : Site) (i : Instr) : Option (BitVec 5) :=
  (namedRegs i).find? fun r => (s.core x.core).regPending x.thread r

/-- The segment registers that an instruction reads, or writes: it waits for a held LSEG to one of them (R211). -/
def segsUsed : Instr → List Nat
  | .ld _ f => [f.seg.toNat]
  | .st _ f => [f.seg.toNat]
  | .lseg _ f => [f.rd.toNat, f.n.toNat]
  | .sseg _ f => [f.rd.toNat, f.n.toNat]
  | .vld _ f => [f.seg.toNat]
  | .vst _ f => [f.seg.toNat]
  | .tld _ f => [f.seg.toNat]
  | .tst _ f => [f.seg.toNat]
  | .tldx _ f => [f.seg.toNat]
  | .dmaq _ f => [f.dseg.toNat, f.sseg.toNat, f.tseg.toNat]
  | .wrchb _ f => [f.rd.toNat]
  | .gate _ _ => [0, 1, 2, 3, 4, 5, 6, 7]
  | .xret _ _ => [0, 1, 2]
  | .retg _ _ => [0, 1, 2]
  | _ => []

/-- A halt that a REP.L sequence held off comes when the sequence is over (R298). -/
def Thread.rest (t : Thread) : Thread :=
  if t.haltReq ∧ t.locked = false ∧ t.run = .active then { t with run := .halted, haltReq := false } else t

/-- A thread that goes on at an index (R183, R197). -/
def Thread.goOn (t : Thread) (pc : BitVec 16) : Thread := Thread.rest { t with pc := pc, wait := none, replCnt := none }

/-- A thread after an instruction: the next index, or the next repetition; the count register of a REP that ends is 0
(R183, R204, R205). -/
def Thread.retire (t : Thread) : Thread :=
  match t.rep with
  | none => t.goOn (t.pc + 1)
  | some r =>
    if 1 < r.left then { t with rep := some { r with left := r.left - 1 }, wait := none, replCnt := none }
    else
      let t := match r.reg with | some g => t.setReg g 0 | none => t
      Thread.goOn { t with rep := none } (t.pc + 2)

/-- A core whose thread `n` has issued one more instruction (R160, R255). -/
def Core.issued (n : Fin 4) (k : Core) : Core :=
  { k with issueSeq := k.issueSeq + 1, lastIssue := SMap.set k.lastIssue n.val 0 (k.issueSeq + 1) }

/-- An instruction of a thread has issued (R160, R255). -/
def State.issued (s : State) (x : Site) : State := s.modCore x.core (Core.issued x.thread)

/-- The state after an instruction of a thread is performed. -/
def State.retire (s : State) (x : Site) : State := (s.modThread x Thread.retire).issued x

/-- The state after a transfer of control (R197). -/
def State.jumpTo (s : State) (x : Site) (pc : BitVec 16) : State := (s.modThread x fun t => t.goOn pc).issued x

/-- A thread waits (R169). -/
def State.setWait (s : State) (x : Site) (w : WaitFor) : State := s.modThread x fun t => { t with wait := some w }

/-- A thread is not chosen, and stays ready (R211, R263). -/
def State.notChosen (s : State) (x : Site) : State := s.modThread x fun t => { t with wait := none }

/-- An exception raised by the instruction of a thread: the repeat count is left in its register, and the frame names the
instruction or its prefix (R204, R205, R226); none while a held access stands before the entry. -/
def State.raiseAt (s : State) (x : Site) (v : Nat) : Option State :=
  let t := s.thread x
  (s.leaveRep x).takeException x v t.pc t.replLeft 0

/-- A scalar fault of the instruction of a thread: its record and its exception (R209). -/
def State.faultAt (s : State) (x : Site) (f : SFault) (w : Word) : Option State :=
  let t := s.thread x
  let rep := t.rep.isSome
  (s.writeSflt x f rep (if rep then t.pc + 1 else t.pc) w).raiseAt x f.vector

/-- The instruction word of a command (R209). -/
def wordIn (i : Instr) : Word := (wordOf i).getD 0

/-- The fault of a word behind a repeat prefix (R206): a fetch fault's frame names the word, any other the prefix (R182, R208). DEDUCED: a
REP.L that a return resumes keeps its repetitions in the frame of either, which then names the prefix (assumption log 45). -/
def State.faultBehind (s : State) (x : Site) (f : SFault) (w : Word) : Option State :=
  let t := s.thread x
  let s := s.writeSflt x f true (t.pc + 1) w
  if f.fetch && t.replCnt.isNone then (s.leaveRep x).takeException x f.vector (t.pc + 1) none 0 else s.raiseAt x f.vector

/-- What an instruction's effect leaves of the state. An exception that a held access keeps from being entered leaves the instruction to
be issued again. -/
def Res.apply (r : Res) (s : State) (x : Site) (i : Instr) : State :=
  match r with
  | .done s' => s'.retire x
  | .jump s' pc => s'.jumpTo x pc
  | .entered s' => s'.issued x
  | .wait w => s.setWait x w
  | .held => s.notChosen x
  | .fault s' f => (s'.faultAt x f (wordIn i)).getD (s.notChosen x)
  | .faultNext s' f w => (s'.faultBehind x f w).getD (s.notChosen x)
  | .raise s' v => (s'.raiseAt x v).getD (s.notChosen x)

/-- A thread issues an instruction: nothing when it cannot; the emulation trap of a reserved encoding or of a ring (R207);
a wait for a pending register (R168) or segment register (R211); else the instruction's effect. -/
def State.issueS (s : State) (x : Site) (i : Instr) (trap : Option Nat) (f : State → Res) : State :=
  if s.canIssue x i = false then s
  else match trap with
    | some k => (s.faultAt x (emulTrap k) (wordIn i)).getD (s.notChosen x)
    | none =>
      match s.pendingReg x i with
      | some r => s.setWait x (.register (some r))
      | none => if s.segHeld x (segsUsed i) then s.notChosen x else (f s).apply s x i

/-- `issueS` as the outcome of a command. -/
def State.issue (s : State) (x : Site) (i : Instr) (trap : Option Nat) (f : State → Res) : Outcome :=
  .next (s.issueS x i trap f)

/-- A scalar register of the issuing thread. -/
def State.reg (s : State) (x : Site) (r : BitVec 5) : Word := (s.thread x).reg r

/-- A write of a scalar register of the issuing thread. -/
def State.setReg (s : State) (x : Site) (r : BitVec 5) (v : Word) : State := s.modThread x fun t => t.setReg r v

/-- The trap of a reserved field value (R207): EMUL 2. -/
def reservedIf (b : Bool) : Option Nat := if b then some 2 else none

/-- The trap of a ring, after that of a reserved field (R201, R207): EMUL 3. -/
def ringTrap (reserved ring : Bool) : Option Nat := if reserved then some 2 else if ring then some 3 else none

/-- A fetch of the word at an index through seg0: the word, or the fault (R182). -/
def State.fetch (s : State) (x : Site) (pc : BitVec 16) : State × Except SFault Word :=
  let t := s.thread x
  let d := t.seg 0
  let o : Nat := pc.toNat * 4
  match segCheck d t.ring.toNat .execute (o : Int) 4 4 with
  | some c => (s, .error (fetchFault c (o : Int)))
  | none =>
    let r := s.busRead x (segBase d + o) 4
    if r.poison then (r.st, .error (fetchFault 5 (o : Int))) else (r.st, .ok (w32 (bytesNat r.data)))

/-! ### Order against fences (R256, R263, R264) -/

/-- Whether an entry of an engine queue accesses memory: tile rows, vector lines, DMA blocks (R256). -/
def QEntry.accesses (e : QEntry) : Bool :=
  match e.instr with
  | .tld _ _ => true
  | .tst _ _ => true
  | .tldx _ _ => true
  | .vld _ _ => true
  | .vst _ _ => true
  | .dmaq _ _ => true
  | _ => false

/-- Whether a memory holds a write of an observer of a core that issued before `n`: it is not performed (R256). -/
def State.writesHeld (s : State) (c : CoreId) (obs n : Nat) : Bool :=
  (List.finRange 8).any fun h => ((s.hall h).nearHeld ++ (s.hall h).galHeld).any fun w =>
    agentSrc w.agent == c.val && w.obs == obs && decide (w.seq < n)

/-- Accesses of the observers in a mask that issued before `n` and are not performed: scalar accesses that a fence holds, those of queue
entries, and writes that a memory holds (R254, R256, R262 to R264). -/
def State.outstanding (s : State) (c : CoreId) (mask : BitVec 4) (n : Nat) : Bool :=
  let k := s.core c
  ((List.range 4).any fun o => mask.getLsbD o && s.writesHeld c o n) ||
    (mask.getLsbD 0 && k.heldMem.any fun e => decide (e.seq < n)) ||
    (mask.getLsbD 1 && k.vq.entries.any fun e => e.accesses && decide (e.seq < n)) ||
    (mask.getLsbD 2 && k.mq.entries.any fun e => e.accesses && decide (e.seq < n)) ||
    (mask.getLsbD 3 && k.dq.entries.any fun e => e.accesses && decide (e.seq < n))

/-- Whether a fence is still to be met. -/
def State.fenceOpen (s : State) (c : CoreId) (f : Fence) : Bool := s.outstanding c f.src f.seq

/-- A core's fences but for those that are met (R263). -/
def State.dropMet (s : State) (c : CoreId) : State :=
  if (s.core c).fences.isEmpty then s else s.modCore c fun k => { k with fences := k.fences.filter (s.fenceOpen c) }

/-- Whether a fence holds an access of observer `o` (0 scalar, 1 vector, 2 matrix, 3 DMA) that issued at `n`. -/
def State.fenced (s : State) (c : CoreId) (o n : Nat) : Bool :=
  (s.core c).fences.any fun f =>
    decide (f.seq < n) && (f.publish || f.dst.getLsbD o) && s.fenceOpen c f

/-- Whether a scalar access of the next instruction is held: behind a fence, or a scalar access that a fence holds (R258, R263). LD, ST,
LSEG and SSEG issue and their access waits; GATE, XRET, RETG and WRCHB wait themselves (assumption log 55). -/
def State.scalarHeld (s : State) (c : CoreId) : Bool :=
  s.fenced c 0 (s.core c).issueSeq || !(s.core c).heldMem.isEmpty

/-- A scalar access of an instruction issues and is held (R263): FENCE and PUBLISH do not block issue. `seg`, `size` and `o` are what the
fault record of the access shows. -/
def State.holdAccess (s : State) (x : Site) (i : Instr) (kind : HeldKind) (addr seg size : Nat) (o : Int) : State :=
  let t := s.thread x
  let rep := t.rep.isSome
  s.modCore x.core fun k =>
    { k with heldMem := k.heldMem ++
      [⟨k.issueSeq, x.thread, t.ring, addr, kind, seg, size, offsetField o, if rep then t.pc + 1 else t.pc, rep, wordIn i⟩] }

/-- Whether a PUBLISH holds a CLOSE or ARRIVE that issued at `n` (R264). -/
def State.published (s : State) (c : CoreId) (n : Nat) : Bool :=
  (s.core c).fences.any fun f => decide (f.seq < n) && f.publish && s.fenceOpen c f

end Sys2Proof.Machine
end

