-- ==== Sys2Proof/Machine/Tiles.lean ====
section
/-!
DEFINITION. Tile registers and tile transfers (R83 to R106): shapes, rows, TCFG, TSHR, TLD, TST, TLDX and TZERO as the matrix
engine performs them, and the tile fault registers.
-/
namespace Sys2Proof.Machine

/-! ### Shapes and rows -/

/-- Fields of a TSHAPE word (R84): rows, bytes per row, format, SCALED and STILE. -/
def tsRows (w : Word) : Nat := fieldOf w 0 6
def tsBpr (w : Word) : Nat := fieldOf w 6 4 * 16
def tsFmt (w : Word) : Nat := fieldOf w 10 4
def tsScaled (w : Word) : Bool := wbit w 14
def tsStile (w : Word) : Nat := fieldOf w 15 4

/-- Elements per row (R85). -/
def tsElems (w : Word) : Nat := tsBpr w * 8 / fmtWidth (tsFmt w)

/-- The shape of a tile. -/
def Core.shape (k : Core) (t : Nat) : Word := SMap.get k.tshape t 0

/-- A row slot of a tile (R83). -/
def Core.tileRow (k : Core) (t r : Nat) : BitVec 1024 := SMap.get k.tile (t * 32 + r) 0

/-- The encodings of the elements of a tile row. -/
def Core.rowEncs (k : Core) (t r : Nat) : List Nat :=
  let w := k.shape t
  bitElems (fmtWidth (tsFmt w)) (tsElems w) (k.tileRow t r).toNat

/-- The scale of element `n` of row `r` of a tile: E8M0 element n / 32 of the row of its scale tile (R60, R90). -/
def Core.scaleAt (k : Core) (t r n : Nat) : Nat :=
  bitElem 8 (k.tileRow (tsStile (k.shape t)) r).toNat (n / 32)

/-- The values of a tile row, with block scales when the tile is block-scaled (R60). -/
def Core.rowNums (k : Core) (t r : Nat) : List Num :=
  let w := k.shape t
  (k.rowEncs t r).zipIdx.map fun (x, n) =>
    if tsScaled w then scaledNum (tsFmt w) x (k.scaleAt t r n) else decodeNum (tsFmt w) x

/-- A latch that a write or a TCFG of tile `t` leaves valid: neither its tile nor its scale tile (R126). -/
def Core.keepLatch (k : Core) (t : Nat) (l : Option Latch) : Option Latch :=
  l.filter fun l => l.tile ≠ t && !(tsScaled (k.shape l.tile) && tsStile (k.shape l.tile) == t)

/-- The first `n` bytes of a row slot are replaced; cached and latched copies are invalid (R83, R91). -/
def Core.putRow (k : Core) (t r n : Nat) (v : Nat) : Core :=
  let old := (k.tileRow t r).toNat
  let m := 2 ^ (8 * n)
  { k with
    tile := SMap.set k.tile (t * 32 + r) 0 (BitVec.ofNat 1024 (old / m * m + v % m))
    opcA := k.opcA.filter (· ≠ t * 32 + r)
    opcB := k.opcB.filter (· ≠ t * 32 + r)
    latchA := k.keepLatch t k.latchA
    latchB := k.keepLatch t k.latchB }

/-- A row is written into the tile file and counted (R92). -/
def State.putRow (s : State) (c : CoreId) (t r n : Nat) (v : Nat) : State :=
  (s.modCore c fun k => k.putRow t r n v).count64 (corePage c 0) 0x8D8 1

/-! ### Faults -/

/-- A tile fault (R106): tile, row, transposed, cause, SHAPE_CODE, whether it concerns the scale tile, offset, and the rule of
R116 for an MMA. -/
structure TileFault where
  tile : Nat
  row : Nat := 0
  trans : Bool := false
  cause : Nat
  code : Nat := 0
  scale : Bool := false
  off : Nat := 0
  rule : Nat := 0

/-- A shape fault of a tile with a code. -/
def shapeFault (t code : Nat) (scale : Bool := false) : TileFault := { tile := t, cause := 6, code := code, scale := scale }

/-- The vector of a tile fault (R105, R106). -/
def TileFault.vector (f : TileFault) : Nat := match f.cause with | 6 => 4 | 5 => 6 | _ => 5

/-- The KIND of a queue instruction in TFAULT (R106). -/
def tileKind : Instr → Nat
  | .tcfg _ _ _ => 0
  | .tld _ _ => 1
  | .tst _ _ => 2
  | .tldx _ _ => 3
  | .tzero _ _ => 4
  | .mma _ _ => 5
  | .tshr _ _ => 7
  | _ => 6

/-- The tile fault registers are written (R106, R118). -/
def State.writeTfault (s : State) (c : CoreId) (e : QEntry) (f : TileFault) : State :=
  let p := corePage c 0
  let w := f.tile + f.row * 2 ^ 4 + b2n f.trans * 2 ^ 11 + f.cause * 2 ^ 12 + f.code * 2 ^ 16 + tileKind e.instr * 2 ^ 20
    + e.thread.val * 2 ^ 24 + b2n f.scale * 2 ^ 26
  (((s.setLive p 0x8A0 (w32 w)).setLive p 0x8A4 (w32 f.off)).setLive p 0x8A8 (w32 e.pc.toNat)).setLive p 0x8AC
    (w32 f.rule)

/-- What running a queue entry comes to. -/
inductive QRes where
  /-- performed: the entry leaves its queue -/
  | done (s : State)
  /-- the entry waits: a memory or a fence does not let it go on -/
  | stall
  /-- a tile fault stops the queue -/
  | tile (s : State) (f : TileFault)
  /-- a fault whose registers are written already stops the queue; the exception's vector -/
  | fault (s : State) (v : Nat)

/-! ### Use of a tile -/

/-- Whether a block-scaled tile may be used with its scale tile (R90). -/
def Core.scaleOk (k : Core) (t : Nat) : Bool :=
  let w := k.shape t
  let g := k.shape (tsStile w)
  tsFmt g == 11 && !tsScaled g && tsRows w ≤ tsRows g && (tsElems w + 31) / 32 ≤ tsElems g && tsRows g != 0

/-- Steps 1 and 2 of R503 and R117 for one tile: configured, and its scale tile meets R90. -/
def Core.useFault (k : Core) (t : Nat) : Option TileFault :=
  if tsRows (k.shape t) = 0 then some (shapeFault t 1)
  else if tsScaled (k.shape t) && !k.scaleOk t then some (shapeFault (tsStile (k.shape t)) 7 true)
  else none

/-- The shape rules of a transfer in the order of R503. -/
def Core.transferFault (k : Core) (t mfmt : Nat) (trans : Bool) : Option TileFault :=
  match k.useFault t with
  | some f => some { f with trans := trans }
  | none =>
    let f := tsFmt (k.shape t)
    if fmtClass mfmt ≠ fmtClass f then some { shapeFault t 5 with trans := trans }
    else if trans && !((fmtWidth f == 8 || fmtWidth f == 16) && (fmtWidth mfmt == 8 || fmtWidth mfmt == 16)) then
      some { shapeFault t 6 with trans := trans }
    else none

/-! ### TCFG and TSHR -/

/-- A TSHAPE image from its fields (R84). -/
def tshapeWord (rows bpr fmt : Nat) (scaled : Bool) (stile : Nat) : Word :=
  w32 (rows + bpr * 2 ^ 6 + fmt * 2 ^ 10 + b2n scaled * 2 ^ 14 + stile * 2 ^ 15)

/-- The checks of TCFG of tile `t` with an image (R86, R88): the SHAPE_CODE of the first that fails. DEDUCED: the order is
that of the rule's list (assumption log 15). -/
def tcfgCode (t : Nat) (w : Word) : Option Nat :=
  let bpr := fieldOf w 6 4
  let f := tsFmt w
  if fieldOf w 19 13 ≠ 0 then some 2
  else if 32 < tsRows w then some 3
  else if tsRows w = 0 then none
  else if bpr = 0 ∨ 8 < bpr then some 4
  else if !fmtValid f then some 2
  else if (f = 4 ∨ f = 5) ∧ bpr ≠ 3 ∧ bpr ≠ 6 then some 8
  else if tsScaled w && !fmtScalable f then some 9
  else if tsScaled w && tsStile w == t then some 9
  else if !tsScaled w && tsStile w != 0 then some 9
  else none

/-- TCFG with an image (R86, R91): the shape is written, zero when ROWS is 0; copies of the tile's rows are invalid. -/
def State.runTcfg (s : State) (c : CoreId) (t : Nat) (w : Word) : QRes :=
  match tcfgCode t w with
  | some k => .tile s (shapeFault t k)
  | none =>
    .done (s.modCore c fun k =>
      { k with
        tshape := SMap.set k.tshape t 0 (if tsRows w = 0 then 0 else w)
        opcA := k.opcA.filter (fun i => i / 32 ≠ t)
        opcB := k.opcB.filter (fun i => i / 32 ≠ t)
        latchA := k.keepLatch t k.latchA
        latchB := k.keepLatch t k.latchB })

/-! ### Transfers -/

/-- What all rows of a transfer share: the access checks of a row, and the rows' offsets with their lengths (R96, R97). -/
structure Transfer where
  seg : SegImage
  ring : Nat
  right : Right
  off : Nat → Int
  len : Nat

/-- The cause of the first check of R97 that row `k` fails; a ring failure is reported as rights. -/
def Transfer.rowCause (x : Transfer) (k : Nat) : Option Nat :=
  (segCheck x.seg x.ring x.right (x.off k) x.len 16).map fun c => if c = 7 then 2 else c

/-- The device address of row `k`. -/
def Transfer.addr (x : Transfer) (k : Nat) : Nat := segBase x.seg + (x.off k).toNat

/-- A tile row fault of row `k`. -/
def rowFault (t k : Nat) (trans : Bool) (cause : Nat) (o : Int) : TileFault :=
  { tile := t, row := k, trans := trans, cause := cause, off := offsetField o }

/-- Rows read: the row numbers with their bytes, and the fault that ended the reading. -/
structure RowsRead where
  st : State
  rows : List (Nat × List Byte)
  fault : Option TileFault

/-- The rows of a list are read in order until one faults (R97, R105). -/
def State.readRows (s : State) (site : Site) (x : Transfer) (t : Nat) (trans : Bool) : List Nat → RowsRead
  | [] => ⟨s, [], none⟩
  | k :: rest =>
    match x.rowCause k with
    | some c => ⟨s, [], some (rowFault t k trans c (x.off k))⟩
    | none =>
      let r := s.busRead site (x.addr k) x.len
      if r.poison then ⟨r.st, [], some (rowFault t k trans 5 (x.off k))⟩
      else
        let q := r.st.readRows site x t trans rest
        ⟨q.st, (k, r.data) :: q.rows, q.fault⟩

/-- Whether the rows of a list that pass their checks wait at their memory (assumption log 42). -/
def State.rowsStall (s : State) (site : Site) (x : Transfer) (rows : List Nat) : Bool :=
  let ok := rows.filter fun k => (x.rowCause k).isNone
  if x.right = .write then s.writesStall (.core site) (ok.map fun k => (x.addr k, x.len))
  else ok.any fun k => s.readStalls (.core site) (x.addr k) x.len

/-- A tile row from memory-side elements (R98, R99): the element encodings written, the scales written for a converting
load into a block-scaled tile, and the elements as tallied (none when nothing is converted). -/
structure RowIn where
  encs : List Nat
  scales : Option (List Nat)
  tallied : List Elem

/-- Conversion of memory-side encodings in format `m` into a row of a tile with shape `w` (R98, R99). -/
def rowIn (w : Word) (m : Nat) (encs : List Nat) : RowIn :=
  let f := tsFmt w
  if m = f then ⟨encs, none, []⟩
  else if tsScaled w then
    let (ss, es) := scaleRow f 16 (encs.map (decodeNum m))
    ⟨es.map Elem.bits, some ss, es⟩
  else
    let es := encs.map (convElem m f)
    ⟨es.map Elem.bits, none, es⟩

/-- A tile row, and the row of its scale tile when scales are chosen, are written. DESIGN CHOICE: of the scale tile's row only the bytes of
the chosen scales are written, one for each 32 elements; the spec does not say what its further bytes become (R99; assumption log 47). -/
def State.writeRowIn (s : State) (c : CoreId) (t r : Nat) (w : Word) (v : RowIn) : State :=
  let s := s.putRow c t r (tsBpr w) (packElems (fmtWidth (tsFmt w)) v.encs)
  match v.scales with
  | some ss => s.putRow c (tsStile w) r ss.length (packElems 8 ss)
  | none => s

/-- Rows of a transfer are written into a tile; the elements tallied. -/
def State.fillRows (s : State) (c : CoreId) (t : Nat) (w : Word) (m : Nat) : List (Nat × List Nat) → State × List Elem
  | [] => (s, [])
  | (r, encs) :: rest =>
    let v := rowIn w m encs
    let q := (s.writeRowIn c t r w v).fillRows c t w m rest
    (q.1, v.tallied ++ q.2)

/-- The encodings of memory bytes. -/
def memEncs (m n : Nat) (d : List Byte) : List Nat := bitElems (fmtWidth m) n (bytesNat d)

/-- How many of the rows before a faulting one have been performed: a free value (R105; assumption log 2). -/
def State.freeRows (s : State) (n : Nat) : Nat × State :=
  let (k, s) := s.takeFresh
  (Config.freeNat k % (n + 1), s)

/-- TLD (R96 to R100). DESIGN CHOICE: a transposed load of which a memory row faults has written no tile row, where the spec leaves open
what of the tile it has changed (R105; assumption log 48). -/
def State.runTld (s : State) (c : CoreId) (e : QEntry) (f : FmtTls) : QRes :=
  let k := s.core c
  let t := f.tile.toNat
  let w := k.shape t
  let m := f.mfmt.toNat
  let tr := f.t = 1
  match k.transferFault t m tr with
  | some q => .tile s q
  | none =>
    let n := if tr then tsRows w else tsElems w
    let rows := List.range (if tr then tsElems w else tsRows w)
    let x : Transfer :=
      { seg := e.segs.headD 0, ring := e.ring.toNat, right := .read
        off := fun k => ((e.vals.getD 0 0).toNat : Int) + (k : Int) * (e.vals.getD 1 0).toInt
        len := n * fmtWidth m / 8 }
    let site : Site := ⟨c, e.thread⟩
    if s.rowsStall site x rows then .stall
    else
      let q := s.readRows site x t tr rows
      match q.fault with
      | some ft =>
        if tr then .tile q.st ft
        else
          let (p, s) := q.st.freeRows q.rows.length
          .tile (s.fillRows c t w m ((q.rows.take p).map fun (r, d) => (r, memEncs m n d))).1 ft
      | none =>
        let cols := q.rows.map fun (r, d) => (r, memEncs m n d)
        let tileRows := if tr then (List.range (tsRows w)).map fun r => (r, cols.map fun q => q.2.getD r 0) else cols
        let (s, es) := q.st.fillRows c t w m tileRows
        .done (s.tally (.core c) f.tally.toNat (tsFmt w) es)

/-- The elements that a store delivers for a tile row (R98, R99). -/
def rowOut (k : Core) (t r m : Nat) : List Elem :=
  let w := k.shape t
  if m = tsFmt w then (k.rowEncs t r).map Elem.ofBits
  else if tsScaled w then (k.rowNums t r).map (roundNE m)
  else (k.rowEncs t r).map (convElem (tsFmt w) m)

/-- Memory rows of a store are written in order until one faults (R96, R105). -/
def State.storeRows (s : State) (c : CoreId) (e : QEntry) (x : Transfer) : List (Nat × List Byte) → State
  | [] => s
  | (k, d) :: rest => (s.entryWrite c e 2 (x.addr k) d).storeRows c e x rest

/-- TST (R96 to R100). -/
def State.runTst (s : State) (c : CoreId) (e : QEntry) (f : FmtTls) : QRes :=
  let k := s.core c
  let t := f.tile.toNat
  let w := k.shape t
  let m := f.mfmt.toNat
  let tr := f.t = 1
  match k.transferFault t m tr with
  | some q => .tile s q
  | none =>
    let n := if tr then tsRows w else tsElems w
    let count := if tr then tsElems w else tsRows w
    let x : Transfer :=
      { seg := e.segs.headD 0, ring := e.ring.toNat, right := .write
        off := fun k => ((e.vals.getD 0 0).toNat : Int) + (k : Int) * (e.vals.getD 1 0).toInt
        len := n * fmtWidth m / 8 }
    let site : Site := ⟨c, e.thread⟩
    let tileElems := (List.range (tsRows w)).map fun r => rowOut k t r m
    let memRows := if tr then (List.range count).map fun i => tileElems.map fun l => l.getD i (Elem.ofBits 0) else tileElems
    let bytes := memRows.map fun l => natBytes x.len (packElems (fmtWidth m) (l.map Elem.bits))
    if s.rowsStall site x (List.range count) then .stall
    else match (List.range count).find? fun k => (x.rowCause k).isSome with
      | some b =>
        let (p, s) := s.freeRows b
        .tile (s.storeRows c e x ((List.range p).zip bytes)) (rowFault t b tr ((x.rowCause b).getD 0) (x.off b))
      | none =>
        .done ((s.storeRows c e x ((List.range count).zip bytes)).tally (.core c) f.tally.toNat m memRows.flatten)

/-- A masked-off row of a TLDX with ZM 1: the row and the matching row of its scale tile are zero bits (R102). -/
def State.zeroTileRow (s : State) (c : CoreId) (t r : Nat) (w : Word) : State :=
  let s := s.putRow c t r (tsBpr w) 0
  if tsScaled w then s.putRow c (tsStile w) r (tsBpr ((s.core c).shape (tsStile w))) 0 else s

/-- TLDX (R101, R102). -/
def State.runTldx (s : State) (c : CoreId) (e : QEntry) (f : FmtTldx) : QRes :=
  let k := s.core c
  let t := f.tile.toNat
  let w := k.shape t
  let m := f.mfmt.toNat
  match k.transferFault t m false with
  | some q => .tile s q
  | none =>
    let v := (SMap.get k.vreg f.vreg.toNat 0).toNat
    let mk := SMap.get k.mreg f.mreg.toNat 0
    let active (r : Nat) : Bool := f.masken = 0 || mk.getLsbD r
    let n := tsElems w
    let x : Transfer :=
      { seg := e.segs.headD 0, ring := e.ring.toNat, right := .read, off := fun r => (bitElem 32 v r : Int)
        len := n * fmtWidth m / 8 }
    let site : Site := ⟨c, e.thread⟩
    let all := List.range (tsRows w)
    let rows := all.filter active
    if s.rowsStall site x rows then .stall
    else
      let zero (s : State) (below : Nat) : State :=
        if f.zm = 1 then (all.filter fun r => !active r && decide (r < below)).foldl (fun s r => s.zeroTileRow c t r w) s else s
      let q := s.readRows site x t false rows
      match q.fault with
      | some ft =>
        let (p, s) := q.st.freeRows q.rows.length
        .tile (zero (s.fillRows c t w m ((q.rows.take p).map fun (r, d) => (r, memEncs m n d))).1
          ((q.rows.getD p (ft.row, [])).1)) ft
      | none =>
        let (s, es) := q.st.fillRows c t w m (q.rows.map fun (r, d) => (r, memEncs m n d))
        .done ((zero s 32).tally (.core c) f.tally.toNat (tsFmt w) es)

/-- TZERO (R103). DESIGN CHOICE: of several selected tiles that are unconfigured, TFAULT names the one of the lowest number (assumption
log 49). -/
def State.runTzero (s : State) (c : CoreId) (f : FmtTzero) : QRes :=
  let k := s.core c
  let sel := (List.range 16).filter fun t => f.mask.getLsbD t
  match sel.find? fun t => tsRows (k.shape t) = 0 with
  | some t => .tile s (shapeFault t 1)
  | none =>
    .done (sel.foldl (fun s t =>
      (List.range (tsRows (k.shape t))).foldl (fun s r => s.putRow c t r (tsBpr (k.shape t)) 0) s) s)

end Sys2Proof.Machine
end

