-- ==== Sys2Proof/Machine/Matrix.lean ====
section
/-!
DEFINITION. The matrix unit (R110 to R129): the shape rules of MMA, its exact arithmetic and rounding, row reads through the
latches and caches, its start, its commit, and admission after rest.
-/
namespace Sys2Proof.Machine

/-- The seed in force of a hall (R73). -/
def State.seed (s : State) (h : HallId) : BitVec 64 :=
  s.liveWord (hallPage h 0) 0x884 ++ s.liveWord (hallPage h 0) 0x880

/-! ### Shape rules -/

/-- Width class of an operand format (R116): 0 16-bit, 1 6/8-bit, 2 4-bit. -/
def widthClass (f : Nat) : Nat := if fmtWidth f = 16 then 0 else if fmtWidth f = 4 then 2 else 1

/-- Largest K of the governing class of two formats (R116). -/
def maxK (fa fb : Nat) : Nat := match min (widthClass fa) (widthClass fb) with | 0 => 64 | 1 => 128 | _ => 256

/-- Operand formats of MMA (R116, rule 3). -/
def mmaOperand (f : Nat) : Bool := f == 0 || f == 1 || (3 ≤ f && f ≤ 9)

/-- The first rule of R116 that fails, with its SHAPE_CODE and the tile reported. -/
def mmaRule (k : Core) (f : FmtMma) : Option (Nat × Nat × Nat) :=
  let c := f.ct.toNat
  let a := f.at_.toNat
  let b := f.bt.toNat
  let wc := k.shape c
  let wa := k.shape a
  let wb := k.shape b
  let fa := tsFmt wa
  let fb := tsFmt wb
  if c = a ∨ c = b then some (1, 10, c)
  else if ¬(tsFmt wc = 10 ∨ tsFmt wc = 9 ∨ tsFmt wc = 2) then some (2, 10, c)
  else if !mmaOperand fa then some (3, 10, a)
  else if !mmaOperand fb then some (3, 10, b)
  else if fmtClass fa ≠ fmtClass fb then some (4, 5, b)
  else if (fmtIsInt fa && tsFmt wc != 2) || (!fmtIsInt fa && tsFmt wc == 2) then some (5, 5, c)
  else if tsRows wa ≠ tsRows wc then some (6, 10, a)
  else if tsRows wb ≠ tsElems wc then some (7, 10, b)
  else if tsElems wa ≠ tsElems wb then some (8, 10, b)
  else if maxK fa fb < tsElems wa then some (9, 10, a)
  else if f.shift ≠ 0 ∧ tsFmt wc ≠ 2 then some (10, 10, c)
  else if (tsScaled wa && tsStile wa == c) || (tsScaled wb && tsStile wb == c) then some (11, 10, c)
  else none

/-- The checks of an MMA in the order of R117. -/
def mmaFault (k : Core) (f : FmtMma) : Option TileFault :=
  match ([f.ct.toNat, f.at_.toNat, f.bt.toNat]).find? fun t => tsRows (k.shape t) = 0 with
  | some t => some (shapeFault t 1)
  | none =>
    match ([f.at_.toNat, f.bt.toNat]).find? fun t => tsScaled (k.shape t) && !k.scaleOk t with
    | some t => some (shapeFault (tsStile (k.shape t)) 7 true)
    | none => (mmaRule k f).map fun r => { tile := r.2.2, cause := 6, code := r.2.1, rule := r.1 }

/-! ### Arithmetic -/

/-- The exact integer sum of products (R112). -/
def intDot : List Num → List Num → Int
  | .fin n m e :: ta, .fin n' m' e' :: tb => scaledInt n m e 0 * scaledInt n' m' e' 0 + intDot ta tb
  | _, _ => 0

/-- Element (i, j) of C after an MMA (R111 to R113): old encoding `old` in format `fc`, rows `a` and `b`, shift and drip bits. -/
def mmaElem (fc : Nat) (rm : Bool) (sh d12 : Nat) (old : Nat) (a b : List Num) : Elem :=
  if fc = 2 then
    match decodeNum 2 old with
    | .fin n m e => roundInt16 rm d12 (scaledInt n m e 0 * (2 ^ sh : Nat) + intDot a b) sh
    | .nan => nanElem 2
  else roundAcc fc rm d12 (Num.sum (decodeNum fc old :: (List.zipWith Num.mul a b)))

/-- The rows of C after an MMA. -/
def mmaRows (k : Core) (f : FmtMma) (seed : BitVec 64) (ident ctr : Nat) : List (List Elem) :=
  let c := f.ct.toNat
  let fc := tsFmt (k.shape c)
  let m := tsRows (k.shape c)
  let b := (List.range (tsElems (k.shape c))).map fun j => k.rowNums f.bt.toNat j
  (List.range m).map fun i =>
    let a := k.rowNums f.at_.toNat i
    ((k.rowEncs c i).zip b).zipIdx.map fun (q, j) =>
      mmaElem fc (f.rm = 1) f.shift.toNat (dripBits seed ident ctr (i * 32 + j)) q.1 a q.2

/-- An MMA commits (R114, R123, R127): C is written, tallied, and the drip counter advances with RM 0. -/
def State.commitMma (s : State) (c : CoreId) (f : FmtMma) : State :=
  let k := s.core c
  let t := f.ct.toNat
  let w := k.shape t
  let p := corePage c 0
  let ctr := (s.liveWord p 0x880).toNat
  let rows := mmaRows k f (s.seed c.hall) (identMatrix c.val) ctr
  let s := rows.zipIdx.foldl (fun s (es, i) => s.putRow c t i (tsBpr w) (packElems 16 (es.map Elem.bits))) s
  let s := s.tally (.core c) f.tally.toNat (tsFmt w) rows.flatten
  let s := s.modCore c fun k => { k with mtxAt := (s.hall c.hall).cycles }
  if f.rm = 0 then s.setLive p 0x880 (w32 (ctr + 1)) else s

/-! ### Row reads -/

/-- A row read through an operand cache: whether it hits, and the cache after (R91, R126). DEDUCED: a hit makes the row the most recent one:
the cache holds the rows most recently read through the port and replaces the least recently used (`04_tile_registers.md`, Operand
paths), where `05_matrix_unit.md` says most recently read from the file (assumption log 51). -/
def cacheRead (cache : List Nat) (r : Nat) : Bool × List Nat :=
  (cache.contains r, (r :: cache.filter (· ≠ r)).take 16)

/-- Rows read through a cache: hits, and the cache after. -/
def cacheReads (cache : List Nat) : List Nat → Nat × List Nat
  | [] => (0, cache)
  | r :: t =>
    let (h, c) := cacheRead cache r
    let (n, c') := cacheReads c t
    (b2n h + n, c')

/-- The reads of `n` rows of tile `t` on one port: latch hits, cache hits, and the cache after (R126). DESIGN CHOICE: the rows of an operand
are read in ascending order, an order that the spec does not give (assumption log 50). -/
def portReads (latch : Option Latch) (cache : List Nat) (t n : Nat) : Nat × Nat × List Nat :=
  match latch with
  | some l =>
    if l.tile = t ∧ n ≤ l.rows then (n, 0, cache)
    else
      let (h, c) := cacheReads cache ((List.range n).map (t * 32 + ·))
      (0, h, c)
  | none =>
    let (h, c) := cacheReads cache ((List.range n).map (t * 32 + ·))
    (0, h, c)

/-- The row reads of an MMA attempt, counted (R92, R126). -/
def State.readOperands (s : State) (c : CoreId) (f : FmtMma) : State :=
  let k := s.core c
  let a := f.at_.toNat
  let b := f.bt.toNat
  let m := tsRows (k.shape a)
  let n := tsRows (k.shape b)
  let (la, ha, ca) := portReads k.latchA k.opcA a m
  let (lb, hb, cb) := portReads k.latchB k.opcB b n
  let s := s.setCore c { k with opcA := ca, opcB := cb, latchA := some ⟨a, m⟩, latchB := some ⟨b, n⟩ }
  let p := corePage c 0
  ((s.count64 p 0x8D0 (la + lb)).count64 p 0x8C8 (ha + hb)).count64 p 0x8C0 (m + n - (la + lb) - (ha + hb))

end Sys2Proof.Machine
end

