-- ==== Sys2Proof/Machine/Transcend.lean ====
section
/-!
DEFINITION. The transcendental functions of the vector unit (R142), evaluated in fixed point with `fxBits` fraction bits
and rounded once to nearest even. DEDUCED: the working precision is far below half a step of every 16-bit format, so the
rounding is that of the exact value (assumption log 13).
-/
namespace Sys2Proof.Machine

/-- Fraction bits of the fixed-point working values. -/
def fxBits : Nat := 256

/-- One in fixed point. -/
def fxOne : Nat := 2 ^ fxBits

/-- The product of two fixed-point values. -/
def fxMul (a b : Nat) : Nat := a * b / fxOne

/-- The series of atanh: `z + z^3/3 + z^5/5 + …`, `fuel` terms. -/
def atanhTerms : (fuel k : Nat) → (pow zz : Nat) → Nat
  | 0, _, _, _ => 0
  | n + 1, k, pow, zz => pow / (2 * k + 1) + atanhTerms n (k + 1) (fxMul pow zz) zz

/-- atanh of a fixed-point value of at most 1/3. -/
def fxAtanh (z : Nat) : Nat := atanhTerms 100 0 z (fxMul z z)

/-- ln 2 = 2 atanh(1/3). -/
def fxLn2 : Nat := 2 * fxAtanh (fxOne / 3)

/-- log2 e. -/
def fxLog2e : Nat := fxOne * fxOne / fxLn2

/-- The series of the exponential, `fuel` terms. -/
def expTerms : (fuel k term x : Nat) → Nat
  | 0, _, _, _ => 0
  | n + 1, k, term, x => term + expTerms n (k + 1) (fxMul term x / (k + 1)) x

/-- `2^f` for a fixed-point fraction `f` below 1. -/
def fxExp2Frac (f : Nat) : Nat := expTerms 70 0 fxOne (fxMul f fxLn2)

/-- log2 of a fixed-point value in [1, 2). -/
def fxLog2Frac (m : Nat) : Nat := 2 * fxAtanh ((m - fxOne) * fxOne / (m + fxOne)) * fxOne / fxLn2

/-- `e^x` for a non-negative fixed-point `x`, in fixed point. -/
def fxExp (x : Nat) : Nat :=
  let y := fxMul x fxLog2e
  fxExp2Frac (y % fxOne) * 2 ^ (y / fxOne)

/-- A non-negative finite value in fixed point, truncated. -/
def toFx (m : Nat) (e : Int) : Nat :=
  let k := e + (fxBits : Int)
  if 0 ≤ k then m * 2 ^ k.toNat else m / 2 ^ (-k).toNat

/-- Integer square root by bits, from bit `i` down. -/
def isqrtBits (v : Nat) : (i r : Nat) → Nat
  | 0, r => if (r + 1) * (r + 1) ≤ v then r + 1 else r
  | i + 1, r =>
    let c := r + 2 ^ (i + 1)
    isqrtBits v i (if c * c ≤ v then c else r)

/-- A quotient with a sticky bit below it, so that one later rounding is that of the exact quotient. -/
def stickyDiv (n d : Nat) : Nat := 2 * (n / d) + (if n % d = 0 then 0 else 1)

/-- The largest finite value with a sign, for unbounded results (R59). -/
def largest (f : Nat) (neg : Bool) : Elem := ⟨withSign f neg (maxFinite f), true, false⟩

/-- `2^x`. -/
def exp2Num (neg : Bool) (m : Nat) (e : Int) : Num :=
  if m = 0 then .fin false 1 0
  else if 12 ≤ log2Floor m e then (if neg then .fin false 1 (-5000) else .fin false 1 5000)
  else
    let x := toFx m e
    let fl := x / fxOne
    let fr := x % fxOne
    if fr = 0 then .fin false 1 (if neg then -(fl : Int) else (fl : Int))
    else if neg then .fin false (fxExp2Frac (fxOne - fr)) (-(fl : Int) - 1 - (fxBits : Int))
    else .fin false (fxExp2Frac fr) ((fl : Int) - (fxBits : Int))

/-- log2 of a positive value. -/
def log2Num (m : Nat) (e : Int) : Num :=
  let g := log2Floor m e
  let frac := fxLog2Frac (toFx m (e - g))
  let v : Int := g * (fxOne : Int) + (if m = 2 ^ Nat.log2 m then 0 else (frac : Int))
  .fin (decide (v < 0)) v.natAbs (-(fxBits : Int))

/-- `1/x` of a non-zero value. -/
def rcpNum (neg : Bool) (m : Nat) (e : Int) : Num := .fin neg (stickyDiv (2 ^ 128) m) (-129 - e)

/-- `1/√x` of a positive value. -/
def rsqrtNum (m : Nat) (e : Int) : Num :=
  let (m', e') := if e % 2 = 0 then (m, e) else (2 * m, e - 1)
  let v := 2 ^ 256 / m'
  let r := isqrtBits v 140 0
  let exact := decide (r * r * m' = 2 ^ 256)
  .fin false (2 * r + (if exact then 0 else 1)) (-129 - e' / 2)

/-- tanh of a magnitude; a magnitude below 2⁻⁸ rounds to itself. -/
def tanhNum (neg : Bool) (m : Nat) (e : Int) : Num :=
  if m = 0 then .fin neg 0 0
  else if log2Floor m e < -8 then .fin neg m e
  else if 6 ≤ log2Floor m e then .fin neg (2 ^ 64 - 1) (-64)
  else
    let t := fxExp (2 * toFx m e)
    .fin neg ((t - fxOne) * fxOne / (t + fxOne)) (-(fxBits : Int))

/-- The logistic function. -/
def sigmoidNum (neg : Bool) (m : Nat) (e : Int) : Num :=
  if m = 0 then .fin false 1 (-1)
  else if 10 ≤ log2Floor m e then (if neg then .fin false 1 (-5000) else .fin false (2 ^ 64 - 1) (-64))
  else
    let t := fxExp (toFx m e)
    if neg then .fin false (2 ^ 2304 / (fxOne + t)) (-(2304 : Int) + (fxBits : Int))
    else .fin false (t * fxOne / (fxOne + t)) (-(fxBits : Int))

/-- VTR on one element of format `f` (R142): FN 0 EXP2, 1 LOG2, 2 RCP, 3 RSQRT, 4 TANH, 5 SIGMOID. -/
def vtrElem (fn f x : Nat) : Elem :=
  match decodeNum f x with
  | .nan => nanElem f
  | .fin neg m e =>
    match fn with
    | 0 => roundNE f (exp2Num neg m e)
    | 1 => if m = 0 then largest f true else if neg then nanElem f else roundNE f (log2Num m e)
    | 2 => if m = 0 then largest f neg else roundNE f (rcpNum neg m e)
    | 3 => if m = 0 then largest f neg else if neg then nanElem f else roundNE f (rsqrtNum m e)
    | 4 => roundNE f (tanhNum neg m e)
    | _ => roundNE f (sigmoidNum neg m e)

end Sys2Proof.Machine
end

