-- ==== Sys2Proof/Machine/Vector.lean ====
section
/-!
DEFINITION. The vector unit (R130 to R149): reserved values at issue, and what each vector instruction does when it executes.
-/
namespace Sys2Proof.Machine

/-! ### Registers, lanes and masks -/

/-- A vector register (R130) and a mask register (R131). -/
def Core.vr (k : Core) (n : Nat) : Nat := (SMap.get k.vreg n 0).toNat
def Core.mr (k : Core) (n : Nat) : BitVec 128 := SMap.get k.mreg n 0

/-- A vector register is written. -/
def State.setV (s : State) (c : CoreId) (n : Nat) (v : Nat) : State :=
  s.modCore c fun k => { k with vreg := SMap.set k.vreg n 0 (BitVec.ofNat 1024 v) }

/-- A mask register is written. -/
def State.setM (s : State) (c : CoreId) (n : Nat) (v : BitVec 128) : State :=
  s.modCore c fun k => { k with mreg := SMap.set k.mreg n 0 v }

/-- The active lanes under a MASK field (R132). -/
def Core.active (k : Core) (mask : BitVec 4) (i : Nat) : Bool := !mask.getLsbD 3 || (k.mr (mask.toNat % 8)).getLsbD i

/-- A MASK field with MEN 0 and MREG not 0 is reserved (R132). -/
def badMask (mask : BitVec 4) : Bool := !mask.getLsbD 3 && mask != 0

/-- Lanes of a format's view: 64 of 16 bits or 128 of 8 bits (R130). -/
def lanesOf (w : Nat) : Nat := 1024 / w

/-- A register whose lanes `i` with `f i` some value take it; the others keep theirs. -/
def laneMap (w old : Nat) (f : Nat → Option Nat) : Nat :=
  packElems w ((List.range (lanesOf w)).map fun i => (f i).getD (bitElem w old i))

/-- Formats of lane arithmetic (R135, R137, R140). -/
def laneFmt (f : Nat) : Bool := f == 1 || f == 2 || f == 8 || f == 9 || f == 10

/-- 16-bit float formats (R136, R142). -/
def floatLane (f : Nat) : Bool := f == 8 || f == 9 || f == 10

/-- 16-bit formats (R141, R143). -/
def fmt16 (f : Nat) : Bool := f == 2 || floatLane f

/-! ### Reserved values (R133) -/

/-- VOP (R135). -/
def vopTrap (f : FmtVop) : Option Nat :=
  let u := f.func.toNat
  reservedIf (14 < u || !laneFmt f.fmt.toNat || badMask f.mask
    || (8 ≤ u && u ≤ 13 && !fmtIsInt f.fmt.toNat)
    || ((u == 5 || u == 6 || u == 7 || u == 14) && f.vb != 0) || (u == 14 && f.va != 0))

/-- VFMA (R136). -/
def vfmaTrap (f : FmtVfma) : Option Nat := reservedIf (!floatLane f.fmt.toNat || badMask f.mask || f.zero != 0)

/-- VCMP (R137). -/
def vcmpTrap (f : FmtVcmp) : Option Nat :=
  reservedIf (f.zero != 0 || !laneFmt f.fmt.toNat || badMask f.mask || f.cond == 7 || f.mop == 3)

/-- VPERM (R138). -/
def vpermTrap (f : FmtVperm) : Option Nat :=
  let u := f.func.toNat
  reservedIf (9 < u || f.zero != 0 || (u == 0 && !f.mask.getLsbD 3) || (u != 0 && badMask f.mask)
    || (u == 8 && f.va != 0) || (u == 9 && f.mask != 0))

/-- VMAC and VADDAC (R139). -/
def vmacTrap (f : FmtVmac) : Option Nat := reservedIf (badMask f.mask || ((f.df == 3) != (f.sf == 3)))

/-- VRED (R140). -/
def vredTrap (f : FmtVred) : Option Nat :=
  reservedIf (!laneFmt f.sf.toNat || 4 < f.rop.toNat || badMask f.mask || (f.rop != 1 && f.vb != 0)
    || (fmtIsInt f.sf.toNat != (f.df == 3)))

/-- The narrower width of a conversion, and whether the pair is permitted (R141). -/
def cvtPair (sf df : Nat) : Bool :=
  if sf = 11 then floatLane df
  else fmtValid sf && fmtValid df && df != 11 &&
    (fmt16 sf || fmt16 df || (fmtWidth sf == 8 && fmtWidth df == 8))

/-- VCVT (R141). -/
def vcvtTrap (f : FmtVcvt) : Option Nat :=
  let ws := fmtWidth f.sf.toNat
  let wd := fmtWidth f.df.toNat
  let w := min ws wd
  reservedIf (!cvtPair f.sf.toNat f.df.toNat || f.zero != 0
    || (ws == wd && f.part != 0) || (ws != wd && (w == 6 || w == 8) && 1 < f.part.toNat))

/-- VTR (R142). -/
def vtrTrap (f : FmtVtr) : Option Nat :=
  reservedIf (5 < f.fn.toNat || !floatLane f.fmt.toNat || badMask f.mask || f.zero != 0)

/-- VLD and VST (R143). -/
def vlsTrap (load : Bool) (f : FmtVls) : Option Nat :=
  let w := fmtWidth f.fmt.toNat
  reservedIf (!(w == 8 || w == 16) || (load && f.tally != 0) || badMask f.mask || f.zero != 0)

/-- VMVF and VMVT (R144). -/
def vmvTrap (f : FmtVmv) : Option Nat := reservedIf (f.zero != 0)

/-- VMASK (R146): fields that a function does not use must be 0. -/
def vmaskTrap (f : FmtVmask) : Option Nat :=
  let u := f.mfunc.toNat
  reservedIf (8 < u || f.zero != 0
    || (u ≤ 3 && (f.sn != 0 || f.word != 0))
    || (u == 4 && (f.mb != 0 || f.sn != 0 || f.word != 0))
    || (u == 5 && (f.ma != 0 || f.mb != 0 || f.word != 0))
    || (u == 6 && (f.md != 0 || f.mb != 0 || f.word != 0))
    || (u == 7 && (f.ma != 0 || f.mb != 0))
    || (u == 8 && (f.md != 0 || f.mb != 0)))

/-! ### Arithmetic -/

/-- The smaller of two values, −0 below +0; a NaN gives a NaN (R135). -/
def minNum : Num → Num → Num
  | .nan, _ => .nan
  | _, .nan => .nan
  | a, b => if Num.ltZ b a then b else a

/-- The larger of two values, +0 above −0; a NaN gives a NaN (R135). -/
def maxNum : Num → Num → Num
  | .nan, _ => .nan
  | _, .nan => .nan
  | a, b => if Num.ltZ a b then b else a

/-- VOP on one lane (R135). -/
def vopElem (func f a b : Nat) : Nat :=
  let w := fmtWidth f
  let x := decodeNum f a
  let y := decodeNum f b
  match func with
  | 0 => (roundNE f (Num.sum [x, y])).bits
  | 1 => (roundNE f (Num.sum [x, y.neg])).bits
  | 2 => (roundNE f (x.mul y)).bits
  | 3 => (roundNE f (minNum x y)).bits
  | 4 => (roundNE f (maxNum x y)).bits
  | 5 => (roundNE f x.abs).bits
  | 6 => (roundNE f x.neg).bits
  | 7 => a
  | 8 => a &&& b
  | 9 => a ||| b
  | 10 => a ^^^ b
  | 11 => if w ≤ b then 0 else a * 2 ^ b % 2 ^ w
  | 12 => if w ≤ b then 0 else a / 2 ^ b
  | 13 =>
    let n := min b w
    if signBit f a then (a / 2 ^ n) + (2 ^ w - 2 ^ (w - n)) else a / 2 ^ n
  | _ => 0

/-- The test of VCMP on one lane (R137). -/
def vcmpTest (cond f a b : Nat) : Bool :=
  match (decodeNum f a).cmp (decodeNum f b) with
  | none => cond == 1 || cond == 6
  | some c =>
    match cond with
    | 0 => c = 0 | 1 => c ≠ 0 | 2 => c < 0 | 3 => c ≤ 0 | 4 => 0 < c | 5 => 0 ≤ c | _ => false

/-- Lane `i` of VPERM's functions 0 to 8 (R138): `n` lanes, sources `a` and `b` by lane, the captured scalar. -/
def vpermLane (func n : Nat) (sel : Nat → Bool) (a b : Nat → Nat) (sv : Nat) (i : Nat) : Nat :=
  let zip (j : Nat) := if j % 2 = 0 then a (j / 2) else b ((j - 1) / 2)
  let cat (j : Nat) := if j < n then a j else b (j - n)
  match func with
  | 0 => if sel i then a i else b i
  | 1 => a (b i % n)
  | 2 => zip i
  | 3 => if i % 2 = 0 then a (n / 2 + i / 2) else b (n / 2 + (i - 1) / 2)
  | 4 => cat (2 * i)
  | 5 => cat (2 * i + 1)
  | 6 => a ((i + sv) % n)
  | 7 => a (sv % n)
  | _ => sv

/-- The reduction of VRED before its rounding (R140). -/
def vredNum (rop : Nat) (xs ys : List Num) : Num :=
  match rop with
  | 0 => Num.sum xs
  | 1 => Num.sum (List.zipWith Num.mul xs ys)
  | 2 => match xs with | [] => .fin false 0 0 | x :: t => t.foldl maxNum x
  | 3 => match xs with | [] => .fin false 0 0 | x :: t => t.foldl minNum x
  | _ => match xs with | [] => .fin false 0 0 | x :: t => t.foldl (fun a b => maxNum a b.abs) x.abs

/-! ### Execution -/

/-- VOP (R135). -/
def State.runVop (s : State) (c : CoreId) (f : FmtVop) : QRes :=
  let k := s.core c
  let fm := f.fmt.toNat
  let w := fmtWidth fm
  let a := k.vr f.va.toNat
  let b := k.vr f.vb.toNat
  .done (s.setV c f.vd.toNat (laneMap w (k.vr f.vd.toNat) fun i =>
    if k.active f.mask i then some (vopElem f.func.toNat fm (bitElem w a i) (bitElem w b i)) else none))

/-- VFMA (R136). -/
def State.runVfma (s : State) (c : CoreId) (f : FmtVfma) : QRes :=
  let k := s.core c
  let fm := f.fmt.toNat
  let x (r : BitVec 4) (i : Nat) := decodeNum fm (bitElem 16 (k.vr r.toNat) i)
  .done (s.setV c f.vd.toNat (laneMap 16 (k.vr f.vd.toNat) fun i =>
    if k.active f.mask i then some (roundNE fm (Num.sum [(x f.va i).mul (x f.vb i), x f.vc i])).bits else none))

/-- VCMP (R137). -/
def State.runVcmp (s : State) (c : CoreId) (f : FmtVcmp) : QRes :=
  let k := s.core c
  let fm := f.fmt.toNat
  let w := fmtWidth fm
  let old := k.mr f.md.toNat
  let bit (i : Nat) : Bool :=
    if i < lanesOf w && k.active f.mask i then
      let t := vcmpTest f.cond.toNat fm (bitElem w (k.vr f.va.toNat) i) (bitElem w (k.vr f.vb.toNat) i)
      match f.mop.toNat with | 0 => t | 1 => old.getLsbD i && t | _ => old.getLsbD i || t
    else old.getLsbD i
  .done (s.setM c f.md.toNat (BitVec.ofNat 128 (packElems 1 ((List.range 128).map fun i => b2n (bit i)))))

/-- VPERM (R138). -/
def State.runVperm (s : State) (c : CoreId) (e : QEntry) (f : FmtVperm) : QRes :=
  let k := s.core c
  let w := if f.w = 0 then 16 else 8
  let n := lanesOf w
  let a := k.vr f.va.toNat
  let b := k.vr f.vb.toNat
  let sv := (e.vals.headD 0).toNat
  if f.func = 9 then .done (s.setReg ⟨c, e.thread⟩ (reg4 f.vd) (w32 (bitElem w a (sv % n))))
  else
    let sel (i : Nat) := (k.mr (f.mask.toNat % 8)).getLsbD i
    .done (s.setV c f.vd.toNat (laneMap w (k.vr f.vd.toNat) fun i =>
      if f.func = 0 || k.active f.mask i then
        some (vpermLane f.func.toNat n sel (bitElem w a) (bitElem w b) sv i % 2 ^ w)
      else none))

/-- VMAC and VADDAC (R139). -/
def State.runVacc (s : State) (c : CoreId) (mac : Bool) (f : FmtVmac) : QRes :=
  let k := s.core c
  let sf := accFmt f.sf.toNat
  let df := accFmt f.df.toNat
  let p := corePage c 0
  let ctr := (s.liveWord p 0x884).toNat
  let seed := s.seed c.hall
  let old := k.vr f.vd.toNat
  let lane (i : Nat) : Elem :=
    let a := decodeNum sf (bitElem 16 (k.vr f.va.toNat) i)
    let b := decodeNum sf (bitElem 16 (k.vr f.vb.toNat) i)
    let d := decodeNum df (bitElem 16 old i)
    roundAcc df (f.rm = 1) (dripBits seed (identVector c.val) ctr i) (Num.sum (if mac then [d, a.mul b] else [d, a, b]))
  let act := (List.range 64).filter fun i => k.active f.mask i
  let s := s.setV c f.vd.toNat (laneMap 16 old fun i => if k.active f.mask i then some (lane i).bits else none)
  let s := s.tally (.core c) f.tally.toNat df (act.map lane)
  .done (if f.rm = 0 then s.setLive p 0x884 (w32 (ctr + 1)) else s)

/-- VRED (R140). -/
def State.runVred (s : State) (c : CoreId) (f : FmtVred) : QRes :=
  let k := s.core c
  let sf := f.sf.toNat
  let df := accFmt f.df.toNat
  let w := fmtWidth sf
  let act := (List.range (lanesOf w)).filter fun i => k.active f.mask i
  let x (r : BitVec 4) := act.map fun i => decodeNum sf (bitElem w (k.vr r.toNat) i)
  if act.isEmpty then .done s
  else
    let v := (roundNE df (vredNum f.rop.toNat (x f.va) (x f.vb))).bits
    .done (s.setV c f.vd.toNat (laneMap 16 0 fun _ => some v))

/-- VCVT (R141). DEDUCED: a pair of one format is converted like any other pair (assumption log 16). -/
def State.runVcvt (s : State) (c : CoreId) (f : FmtVcvt) : QRes :=
  let k := s.core c
  let sf := f.sf.toNat
  let df := f.df.toNat
  let ws := fmtWidth sf
  let wd := fmtWidth df
  let n := 1024 / max ws wd
  let part := f.part.toNat
  let src := k.vr f.va.toNat / 2 ^ (if ws < wd then n * ws * part else 0)
  let es := (List.range n).map fun i => roundNE df (decodeNum sf (bitElem ws src i))
  let bits := packElems wd (es.map Elem.bits)
  let old := k.vr f.vd.toNat
  let v := if wd < ws then setBits old (n * wd * part) (n * wd) bits else bits
  .done ((s.setV c f.vd.toNat v).tally (.core c) f.tally.toNat df es)

/-- VTR (R142). -/
def State.runVtr (s : State) (c : CoreId) (f : FmtVtr) : QRes :=
  let k := s.core c
  let fm := f.fmt.toNat
  .done (s.setV c f.vd.toNat (laneMap 16 (k.vr f.vd.toNat) fun i =>
    if k.active f.mask i then some (vtrElem f.fn.toNat fm (bitElem 16 (k.vr f.va.toNat) i)).bits else none))

/-- VMASK (R146). -/
def State.runVmask (s : State) (c : CoreId) (e : QEntry) (f : FmtVmask) : QRes :=
  let k := s.core c
  let a := k.mr f.ma.toNat
  let b := k.mr f.mb.toNat
  let sv := e.vals.headD 0
  let wd := f.word.toNat
  let x : Site := ⟨c, e.thread⟩
  let md := f.md.toNat
  match f.mfunc.toNat with
  | 0 => .done (s.setM c md (a &&& b))
  | 1 => .done (s.setM c md (a ||| b))
  | 2 => .done (s.setM c md (a ^^^ b))
  | 3 => .done (s.setM c md (a &&& ~~~b))
  | 4 => .done (s.setM c md (~~~a))
  | 5 => .done (s.setM c md (BitVec.ofNat 128 (2 ^ min sv.toNat 128 - 1)))
  | 6 => .done (s.setReg x f.sn (w32 ((bitElems 1 128 a.toNat).foldl (· + ·) 0)))
  | 7 => .done (s.setM c md (BitVec.ofNat 128 (setBits (k.mr md).toNat (32 * wd) 32 sv.toNat)))
  | _ => .done (s.setReg x f.sn (w32 (bitsOf a.toNat (32 * wd) 32)))

/-! ### Memory -/

/-- A vector fault: its registers and vector (R148). -/
def State.vecFault (s : State) (c : CoreId) (e : QEntry) (st : Bool) (cause lane off : Nat) : QRes :=
  let p := corePage c 0
  let s := s.setLive p 0x8B0 (w32 (cause + b2n st * 2 ^ 3 + e.thread.val * 2 ^ 4 + lane * 2 ^ 6))
  .fault ((s.setLive p 0x8B4 (w32 off)).setLive p 0x8B8 (w32 e.pc.toNat)) (causeVector cause)

/-- Consecutive lanes grouped by the 64-byte line they lie in, lane `i` at `base + i * wb`. -/
def lanesByLine (base wb : Nat) : List Nat → List (List Nat)
  | [] => []
  | i :: t =>
    match lanesByLine base wb t with
    | [] => [[i]]
    | (j :: g) :: r => if (base + i * wb) / 64 = (base + j * wb) / 64 then (i :: j :: g) :: r else [i] :: (j :: g) :: r
    | [] :: r => [i] :: r

/-- Rising lanes grouped into runs without a gap. -/
def laneRuns : List Nat → List (List Nat)
  | [] => []
  | i :: t =>
    match laneRuns t with
    | [] => [[i]]
    | (j :: g) :: r => if j = i + 1 then (i :: j :: g) :: r else [i] :: (j :: g) :: r
    | [] :: r => [i] :: r

/-- The lanes of one line are read in one access: the state, the lanes with their encodings, and whether the line is
poisoned. -/
def State.readLanes (s : State) (x : Site) (base wb : Nat) (g : List Nat) : State × List (Nat × Nat) × Bool :=
  let lo := g.headD 0
  let r := s.busRead x (base + lo * wb) ((g.getLastD 0 - lo + 1) * wb)
  let v := bytesNat r.data
  (r.st, g.map (fun i => (i, bitElem (8 * wb) v (i - lo))), r.poison)

/-- The lines of a load are read in order; the first poisoned one ends it with its lowest lane. -/
def State.readLineLanes (s : State) (x : Site) (base wb : Nat) : List (List Nat) → State × List (Nat × Nat) × Option Nat
  | [] => (s, [], none)
  | g :: t =>
    let (s, l, bad) := s.readLanes x base wb g
    if bad then (s, [], some (g.headD 0))
    else
      let (s, l', b) := s.readLineLanes x base wb t
      (s, l ++ l', b)

/-- The runs of one line are stored as one access to it (R260, R261). -/
def State.storeRuns (s : State) (c : CoreId) (e : QEntry) (base wb : Nat) (v : Nat) (first : Bool) : List (List Nat) → State
  | [] => s
  | g :: t =>
    let a := base + g.headD 0 * wb
    let d := natBytes (g.length * wb) (packElems (8 * wb) (g.map (bitElem (8 * wb) v)))
    let x : Site := ⟨c, e.thread⟩
    let s := if first || isControl a || !s.reaches (.core x) a then s.entryWrite c e 1 a d
      else s.writeLine (.core x) a d false { obs := 1, seq := e.seq, ring := e.ring }
    s.storeRuns c e base wb v false t

/-- VLD and VST (R143). -/
def State.runVls (s : State) (c : CoreId) (e : QEntry) (st : Bool) (f : FmtVls) : QRes :=
  let k := s.core c
  let fm := f.fmt.toNat
  let w := fmtWidth fm
  let wb := w / 8
  let act := (List.range (lanesOf w)).filter fun i => k.active f.mask i
  let x : Site := ⟨c, e.thread⟩
  match act with
  | [] => .done s
  | lo :: _ =>
    let hi := act.getLastD lo
    let d := e.segs.headD 0
    let o := (e.vals.headD 0).toNat
    let first := o + lo * wb
    match segCheck d e.ring.toNat (if st then .write else .read) (first : Int) ((hi - lo + 1) * wb) wb with
    | some cs => s.vecFault c e st (if cs = 7 then 2 else cs) lo (offsetField (first : Int))
    | none =>
      let base := segBase d + o
      let lines := lanesByLine base wb act
      if st then
        if s.writesStall (.core x) (lines.flatMap fun g => (laneRuns g).map fun r => (base + r.headD 0 * wb, r.length * wb)) then .stall
        else
          let v := k.vr f.vr.toNat
          let s := lines.foldl (fun s g => s.storeRuns c e base wb v true (laneRuns g)) s
          .done (s.tally (.core c) f.tally.toNat fm (act.map fun i => Elem.ofBits (bitElem w v i)))
      else if lines.any fun g => s.readStalls (.core x) (base + g.headD 0 * wb) wb then .stall
      else
        let (s, l, bad) := s.readLineLanes x base wb lines
        match bad with
        | some lane => s.vecFault c e false 5 lane (offsetField ((o + lane * wb : Nat) : Int))
        | none => .done (s.setV c f.vr.toNat (laneMap w (k.vr f.vr.toNat) fun i => SMap.find? l i))

/-- VMVF and VMVT (R144). -/
def State.runVmv (s : State) (c : CoreId) (toTile : Bool) (f : FmtVmv) : QRes :=
  let k := s.core c
  let t := f.tile.toNat
  let w := k.shape t
  let r := f.row.toNat
  let n := tsBpr w
  if tsRows w = 0 then .tile s (shapeFault t 1)
  else if tsRows w ≤ r then .tile s { tile := t, row := r, cause := 1 }
  else if toTile then .done (s.putRow c t r n (k.vr f.vr.toNat))
  else .done (s.setV c f.vr.toNat ((k.tileRow t r).toNat % 2 ^ (8 * n)))

end Sys2Proof.Machine
end

