-- ==== Sys2Proof/Machine/CoreDma.lean ====
section
/-!
DEFINITION. The core DMA engine (R172 to R176): its descriptor, the checks and pieces of a row, and its fault registers.
-/
namespace Sys2Proof.Machine

/-- The fields of a core DMA descriptor (R172). -/
structure DmaDesc where
  src : Nat
  dst : Nat
  rowLen : Nat
  rows : Nat
  op : Nat
  srcStride : Int
  dstStride : Int
  fill : Nat
  ev : Option Nat
  reserved : Bool
deriving DecidableEq, Repr

/-- A descriptor from its 32 bytes (R172). -/
def dmaDescOf (d : List Byte) : DmaDesc :=
  let n := bytesNat d
  { src := bitsOf n 0 32, dst := bitsOf n 32 32, rowLen := bitsOf n 64 32, rows := bitsOf n 96 16, op := bitsOf n 112 2
    srcStride := (BitVec.ofNat 32 (bitsOf n 128 32)).toInt, dstStride := (BitVec.ofNat 32 (bitsOf n 160 32)).toInt
    fill := bitsOf n 192 32, ev := if bitOf n 231 then some (bitsOf n 224 5) else none
    reserved := decide (2 ≤ bitsOf n 112 2) || bitsOf n 114 14 != 0 || bitsOf n 229 2 != 0 || bitsOf n 232 24 != 0 }

/-- Offsets of row `k` (R173). -/
def DmaDesc.srcOff (d : DmaDesc) (k : Nat) : Int := (d.src : Int) + (k : Int) * d.srcStride
def DmaDesc.dstOff (d : DmaDesc) (k : Nat) : Int := (d.dst : Int) + (k : Int) * d.dstStride

/-- A DMA fault (R175): cause, WHICH, row, byte and offset. -/
structure DmaFault where
  cause : Nat
  which : Nat
  row : Nat
  byte : Nat
  off : Int

/-- The vector of a DMA fault (R175). -/
def DmaFault.vector (f : DmaFault) : Nat := if f.cause = 6 then 0 else causeVector f.cause

/-- The DMA fault registers are written (R175). -/
def State.writeDfault (s : State) (c : CoreId) (e : QEntry) (f : DmaFault) : State :=
  let p := corePage c 0
  (((s.setLive p 0x930 (w32 (f.cause + f.which * 2 ^ 3 + e.thread.val * 2 ^ 5 + f.row * 2 ^ 16))).setLive p 0x934
    (w32 f.byte)).setLive p 0x938 (w32 (offsetField f.off))).setLive p 0x93C (w32 e.pc.toNat)

/-- A segment check of the DMA engine; a ring failure is reported as rights (R173). -/
def dmaCheck (d : SegImage) (ring : Nat) (right : Right) (o : Int) (n align : Nat) : Option Nat :=
  (segCheck d ring right o n align).map fun c => if c = 7 then 2 else c

/-- The descriptor is read (R172): the state and the bytes, or the fault. Its values are checked when it starts (`beginDma`). -/
def State.readDmaDesc (s : State) (c : CoreId) (e : QEntry) : State × Except DmaFault (List Byte) :=
  let d := e.segs.getD 0 0
  let o := (e.vals.headD 0).toNat
  match dmaCheck d e.ring.toNat .read (o : Int) 32 32 with
  | some k => (s, .error ⟨k, 0, 0, 0, (o : Int)⟩)
  | none =>
    let r := s.busRead ⟨c, e.thread⟩ (segBase d + o) 32
    if r.poison then (r.st, .error ⟨5, 0, 0, 0, (o : Int)⟩)
    else (r.st, .ok r.data)

/-- The pieces of a row from byte `b` on: the byte at which each begins, and its length (R176). -/
def dmaPieces (addr rowLen b : Nat) : List (Nat × Nat) :=
  (pieces (addr + b) (rowLen - b)).map fun p => (p.1 - addr, p.2)

/-- The source bytes of the pieces of a row, read until a poisoned one; the piece's first byte then (R176). -/
def State.readDmaRow (s : State) (x : Site) (addr : Nat) : List (Nat × Nat) → State × List (List Byte) × Option Nat
  | [] => (s, [], none)
  | (b, n) :: t =>
    let r := s.busRead x (addr + b) n
    if r.poison then (r.st, [], some b)
    else
      let (s, l, f) := r.st.readDmaRow x addr t
      (s, r.data :: l, f)

/-- Bytes `b` to `b + n - 1` of a filled row (R172). -/
def fillBytes (pattern b n : Nat) : List Byte :=
  (List.range n).map fun i => BitVec.ofNat 8 (bitsOf pattern (8 * ((b + i) % 4)) 8)

/-- The pieces of a row are written in order. -/
def State.writeDmaRow (s : State) (c : CoreId) (e : QEntry) (addr : Nat) : List ((Nat × Nat) × List Byte) → State
  | [] => s
  | ((b, _), d) :: t => (s.entryWrite c e 3 (addr + b) d).writeDmaRow c e addr t

/-- The check of row `k` (R173): source first. -/
def dmaRowCheck (e : QEntry) (d : DmaDesc) (k b : Nat) : Option DmaFault :=
  let r := e.ring.toNat
  match (if d.op = 0 then dmaCheck (e.segs.getD 1 0) r .read (d.srcOff k) d.rowLen 1 else none) with
  | some c => some ⟨c, 1, k, b, d.srcOff k + (b : Int)⟩
  | none => (dmaCheck (e.segs.getD 2 0) r .write (d.dstOff k) d.rowLen 1).map fun c => ⟨c, 2, k, b, d.dstOff k + (b : Int)⟩

/-- Row `k` is performed from byte `b` on (R173, R176). A resumed row reads the rest of its source again (assumption
log 17). -/
def State.dmaRow (s : State) (c : CoreId) (e : QEntry) (d : DmaDesc) (k b : Nat) : State × Option DmaFault :=
  match dmaRowCheck e d k b with
  | some f => (s, some f)
  | none =>
    let x : Site := ⟨c, e.thread⟩
    let src := segBase (e.segs.getD 1 0) + (d.srcOff k).toNat
    let dst := segBase (e.segs.getD 2 0) + (d.dstOff k).toNat
    let ps := dmaPieces dst d.rowLen b
    let (s, data, bad) :=
      if d.op = 0 then s.readDmaRow x src ps else (s, ps.map (fun p => fillBytes d.fill p.1 p.2), none)
    (s.writeDmaRow c e dst (ps.zip data), bad.map fun f => ⟨5, 1, k, f, d.srcOff k + (f : Int)⟩)

/-- Rows from `k` on, `n` of them, the first from byte `b`. -/
def State.dmaRows (s : State) (c : CoreId) (e : QEntry) (d : DmaDesc) : (n k b : Nat) → State × Option DmaFault
  | 0, _, _ => (s, none)
  | n + 1, k, b =>
    match s.dmaRow c e d k b with
    | (s, some f) => (s, some f)
    | (s, none) => s.dmaRows c e d n (k + 1) 0

/-- Whether a descriptor waits at a memory that one of its rows reads, or that does not take the lines it writes (assumption log 42). -/
def State.dmaStalls (s : State) (c : CoreId) (e : QEntry) (d : DmaDesc) : Bool :=
  let a : Agent := .core ⟨c, e.thread⟩
  let rows := (List.range (if d.rowLen = 0 then 0 else d.rows)).filter fun k => decide (e.row ≤ k) && (dmaRowCheck e d k 0).isNone
  (d.op == 0 && rows.any fun k => s.readStalls a (segBase (e.segs.getD 1 0) + (d.srcOff k).toNat) d.rowLen) ||
    s.writesStall a (rows.map fun k => (segBase (e.segs.getD 2 0) + (d.dstOff k).toNat, d.rowLen))

/-- The DMA queue stops at its oldest entry (R175). -/
def State.stopDma (s : State) (c : CoreId) (e : QEntry) (f : DmaFault) : State :=
  (s.writeDfault c e f).modCore c fun k =>
    { k with dq :=
      { k.dq with
        entries := { e with phase := .waiting, row := f.row, byte := f.byte } :: k.dq.entries.tail
        stop := some ⟨e.thread, f.vector, false, e.seq⟩ } }

/-- The oldest entry of the DMA queue is replaced. -/
def Core.setDmaHead (k : Core) (e : QEntry) : Core := { k with dq := { k.dq with entries := e :: k.dq.entries.tail } }

/-- The oldest descriptor, once read, is under way; a reserved value stops it (R172, R175). -/
def State.beginDma (s : State) (c : CoreId) (e : QEntry) : State :=
  if (dmaDescOf e.desc).reserved then s.stopDma c e ⟨6, 0, 0, 0, ((e.vals.headD 0).toNat : Int)⟩
  else s.modCore c fun k => k.setDmaHead { e with phase := .underWay }

/-- The oldest descriptor starts: it is read once, including across faults and resumption (R172, R174). -/
def State.startDma (s : State) (c : CoreId) : State :=
  let k := s.core c
  match k.dq.entries, k.dq.stop with
  | e :: _, none =>
    match e.instr with
    | .dmaq _ _ =>
      if e.phase ≠ .waiting ∨ s.fenced c 3 e.seq then s
      else if !e.desc.isEmpty then s.beginDma c e
      else if s.readStalls (.core ⟨c, e.thread⟩) (segBase (e.segs.getD 0 0) + (e.vals.headD 0).toNat) 32 then s
      else match s.readDmaDesc c e with
        | (s, .error f) => s.stopDma c e f
        | (s, .ok d) => s.beginDma c { e with desc := d }
    | _ => s
  | _, _ => s

/-- The descriptor under way is moved and completes, or stops its queue (R173, R175, R176); while a memory holds a write of it, it does
not complete. -/
def State.completeDma (s : State) (c : CoreId) : State :=
  let k := s.core c
  match k.dq.entries, k.dq.stop with
  | e :: t, none =>
    let d := dmaDescOf e.desc
    if e.phase ≠ .underWay ∨ s.dmaStalls c e d then s
    else
      match s.dmaRows c e d (if d.rowLen = 0 then 0 else d.rows - e.row) e.row e.byte with
      | (s, some f) => s.stopDma c e f
      | (s, none) =>
        if s.writesHeld c 3 (e.seq + 1) then s.modCore c fun k => k.setDmaHead { e with row := d.rows, byte := 0 }
        else
          let s := s.modCore c fun k => { k with dq := { k.dq with entries := t } }
          match d.ev with
          | some b => s.setEvent ⟨c, e.thread⟩ b
          | none => s
  | _, _ => s

end Sys2Proof.Machine
end

