-- ==== Sys2Proof/Machine/Queues.lean ====
section
/-!
DEFINITION. The engine queues of a core (R93, R121, R145, R148, R167 to R171): what holds an entry, how entries run in order,
how a fault stops a queue, tokens, the queue discard action, and scalar stores that a fence holds. An entry runs as soon as
nothing holds it (assumption log 6).
-/
namespace Sys2Proof.Machine

/-! ### Uses of tiles and vector registers -/

/-- The TSHAPE image of a TCFG (R88). -/
def QEntry.tcfgImage (e : QEntry) (form : TcfgForm) (f : FmtTcfg) : Word :=
  if form = .reg then e.vals.headD 0 else tshapeWord f.rows.toNat f.bpr.toNat f.fmt.toNat (f.scaled = 1) f.stile.toNat

/-- The shape of a tile at the turn of a matrix-queue entry: that of the last TCFG of the tile queued before it (R87). -/
def Core.shapeAt (k : Core) (seq t : Nat) : Word :=
  k.mq.entries.foldl (fun w e => match e.instr with
    | .tcfg _ form f => if f.tile.toNat = t ∧ e.seq < seq then e.tcfgImage form f else w
    | _ => w) (k.shape t)

/-- A tile with its scale tile when it is block-scaled at the turn of an entry, and the entry uses the scales. -/
def Core.withScale (k : Core) (seq t : Nat) (scales : Bool) : List Nat :=
  let w := k.shapeAt seq t
  if scales && tsScaled w then [t, tsStile w] else [t]

/-- Whether a transfer between a tile and memory elements of a format converts (R98). -/
def Core.converts (k : Core) (seq t m : Nat) : Bool := m != tsFmt (k.shapeAt seq t)

/-- Tiles that an entry reads. -/
def Core.tilesRead (k : Core) (e : QEntry) : List Nat :=
  match e.instr with
  | .tshr _ f => [f.tile.toNat]
  | .tst _ f => k.withScale e.seq f.tile.toNat (k.converts e.seq f.tile.toNat f.mfmt.toNat)
  | .mma _ f => f.ct.toNat :: (k.withScale e.seq f.at_.toNat true ++ k.withScale e.seq f.bt.toNat true)
  | .vmvf _ f => [f.tile.toNat]
  | _ => []

/-- Tiles that an entry writes: a converting load chooses scales, and a TLDX with ZM 1 may zero them (R99, R102). -/
def Core.tilesWritten (k : Core) (e : QEntry) : List Nat :=
  match e.instr with
  | .tcfg _ _ f => [f.tile.toNat]
  | .tld _ f => k.withScale e.seq f.tile.toNat (k.converts e.seq f.tile.toNat f.mfmt.toNat)
  | .tldx _ f => k.withScale e.seq f.tile.toNat (f.zm == 1 || k.converts e.seq f.tile.toNat f.mfmt.toNat)
  | .tzero _ f => (List.range 16).filter fun t => f.mask.getLsbD t
  | .mma _ f => [f.ct.toNat]
  | .vmvt _ f => [f.tile.toNat]
  | _ => []

/-- Tiles that an entry uses. -/
def Core.tilesUsed (k : Core) (e : QEntry) : List Nat := k.tilesRead e ++ k.tilesWritten e

/-- Whether two lists share a tile. -/
def meets (a b : List Nat) : Bool := a.any b.contains

/-- The vector register that an instruction writes. -/
def vregWritten : Instr → Option Nat
  | .vop _ f => some f.vd.toNat
  | .vfma _ f => some f.vd.toNat
  | .vperm _ f => if f.func = 9 then none else some f.vd.toNat
  | .vmac _ f => some f.vd.toNat
  | .vaddac _ f => some f.vd.toNat
  | .vred _ f => some f.vd.toNat
  | .vcvt _ f => some f.vd.toNat
  | .vtr _ f => some f.vd.toNat
  | .vld _ f => some f.vr.toNat
  | .vmvf _ f => some f.vr.toNat
  | _ => none

/-- The mask register that an instruction writes. -/
def mregWritten : Instr → Option Nat
  | .vcmp _ f => some f.md.toNat
  | .vmask _ f => if f.mfunc = 6 ∨ f.mfunc = 8 then none else some f.md.toNat
  | _ => none

/-- Whether a vector instruction writes a register that a TLDX reads (R102). -/
def feedsTldx (v t : Instr) : Bool :=
  match t with
  | .tldx _ f => vregWritten v == some f.vreg.toNat || (f.masken == 1 && mregWritten v == some f.mreg.toNat)
  | _ => false

/-- Whether an instruction is a move between a tile row and a vector register. -/
def isMove : Instr → Bool
  | .vmvf _ _ => true
  | .vmvt _ _ => true
  | _ => false

/-! ### What holds an entry -/

/-- What holds an entry of the vector queue: a fence, the tile scoreboard, or an earlier TLDX (R102, R145, R263). -/
def State.vecHeld (s : State) (c : CoreId) (e : QEntry) : Bool :=
  let k := s.core c
  (e.accesses && s.fenced c 1 e.seq) || k.mq.entries.any fun m =>
    decide (m.seq < e.seq) &&
      (feedsTldx e.instr m.instr ||
        match e.instr with
        | .vmvf _ f => (k.tilesWritten m).contains f.tile.toNat
        | .vmvt _ f => (k.tilesUsed m).contains f.tile.toNat
        | _ => false)

/-- What holds an entry of the matrix queue: a fence, an earlier move of one of its tiles, or an earlier write of a register
that a TLDX reads (R102, R145, R263). -/
def State.matHeld (s : State) (c : CoreId) (e : QEntry) : Bool :=
  let k := s.core c
  (e.accesses && s.fenced c 2 e.seq) || k.vq.entries.any fun v =>
    decide (v.seq < e.seq) &&
      (feedsTldx v.instr e.instr || (isMove v.instr && meets (k.tilesUsed v) (k.tilesUsed e)))

/-- Whether an MMA waits for the commit of one in flight: it names its C as A or B (R121). -/
def Core.mmaHeld (k : Core) (f : FmtMma) : Bool :=
  k.mq.entries.any fun e => decide (e.phase = .underWay) &&
    match e.instr with
    | .mma _ g => g.ct = f.at_ || g.ct = f.bt
    | _ => false

/-! ### Running entries -/

/-- A vector-queue instruction executes. -/
def State.runVector (s : State) (c : CoreId) (e : QEntry) : QRes :=
  match e.instr with
  | .vop _ f => s.runVop c f
  | .vfma _ f => s.runVfma c f
  | .vcmp _ f => s.runVcmp c f
  | .vperm _ f => s.runVperm c e f
  | .vmac _ f => s.runVacc c true f
  | .vaddac _ f => s.runVacc c false f
  | .vred _ f => s.runVred c f
  | .vcvt _ f => s.runVcvt c f
  | .vtr _ f => s.runVtr c f
  | .vmask _ f => s.runVmask c e f
  | .vld _ f => s.runVls c e false f
  | .vst _ f => s.runVls c e true f
  | .vmvf _ f => s.runVmv c false f
  | .vmvt _ f => s.runVmv c true f
  | _ => .stall

/-- A matrix-queue instruction other than MMA executes; a TOKEN waits for its completion. -/
def State.runMatrix (s : State) (c : CoreId) (e : QEntry) : QRes :=
  match e.instr with
  | .tcfg _ form f => s.runTcfg c f.tile.toNat (e.tcfgImage form f)
  | .tshr _ f => .done (s.setReg ⟨c, e.thread⟩ (f.rows.extractLsb' 1 5) ((s.core c).shape f.tile.toNat))
  | .tld _ f => s.runTld c e f
  | .tst _ f => s.runTst c e f
  | .tldx _ f => s.runTldx c e f
  | .tzero _ f => s.runTzero c f
  | _ => .stall

/-- The oldest entry of a queue leaves it. -/
def Core.popQ (k : Core) (q : Nat) : Core := k.setQueue q { k.queue q with entries := (k.queue q).entries.tail }

/-- A queue stops at its oldest entry (R106, R148). -/
def Core.stopQ (k : Core) (q : Nat) (st : QStop) : Core := k.setQueue q { k.queue q with stop := some st }

/-- A tile fault of a move stops both queues, the matrix queue ahead of what issued after the move (R145). -/
def Core.stopMove (k : Core) (st : QStop) : Core :=
  let k := k.stopQ 1 st
  { k with mq := { k.mq with byMove := some st } }

/-- The vector queue runs its oldest entry, when nothing holds it. -/
def State.stepVq (s : State) (c : CoreId) : Option State :=
  let k := s.core c
  match k.vq.entries, k.vq.stop with
  | e :: _, none =>
    if s.vecHeld c e then none
    else match s.runVector c e with
      | .done s => some (s.modCore c fun k => k.popQ 1)
      | .stall => none
      | .tile s f => some ((s.writeTfault c e f).modCore c fun k => k.stopMove ⟨e.thread, f.vector, false, e.seq⟩)
      | .fault s v => some (s.modCore c fun k => k.stopQ 1 ⟨e.thread, v, false, e.seq⟩)
  | _, _ => none

/-- Whether a queue's stop holds an entry: its own stop every entry, a move's stop those issued after it (R145). -/
def Queue.stops (q : Queue) (e : QEntry) : Bool :=
  q.stop.isSome || (match q.byMove with
    | some st => decide (st.seq < e.seq)
    | none => false)

/-- Whether a matrix unit is resting at core cycle `now` (R127): from reset or since it came to rest, or 2,048 core cycles after its last
commit or abandonment, with no MMA in issue. -/
def Core.rests (k : Core) (now : Nat) : Bool :=
  k.resting || (!(k.mq.entries.any fun e => decide (e.phase = .underWay)) && decide (k.mtxAt + 2048 ≤ now))

/-- An entry of the matrix queue by place takes a phase. -/
def Core.setPhase (k : Core) (n : Nat) (p : Phase) : Core :=
  { k with mq := { k.mq with entries := k.mq.entries.modify n fun e => { e with phase := p } } }

/-- The MMAs in flight at the head of the matrix queue. -/
def inFlight : List QEntry → Nat
  | [] => 0
  | e :: t => if e.phase = .underWay then inFlight t + 1 else 0

/-- An MMA begins issue: its operands' rows are read (R119, R126). -/
def State.startMma (s : State) (c : CoreId) (n : Nat) (f : FmtMma) : State :=
  (s.readOperands c f).modCore c fun k => k.setPhase n .underWay

/-- The matrix queue goes on: an MMA starts or is held for admission, another instruction runs, when nothing holds it. -/
def State.stepMq (s : State) (c : CoreId) : Option State :=
  let k := s.core c
  let n := inFlight k.mq.entries
  match k.mq.entries[n]? with
  | none => none
  | some e =>
    if k.mq.stops e || e.phase != .waiting || s.matHeld c e then none
    else match e.instr with
      | .mma _ f =>
        if k.mmaHeld f then none
        else match mmaFault k f with
          | some t =>
            if n ≠ 0 then none
            else some ((s.writeTfault c e t).modCore c fun k => k.stopQ 0 ⟨e.thread, t.vector, false, e.seq⟩)
          | none =>
            if k.rests (s.hall c.hall).cycles then
              some ((s.modCore c fun k => k.setPhase n (.held (s.hall c.hall).cycles)).count64 (corePage c 0) 0x8E0 1)
            else some (s.startMma c n f)
      | _ =>
        if n ≠ 0 then none
        else match s.runMatrix c e with
          | .done s => some (s.modCore c fun k => k.popQ 0)
          | .stall => none
          | .tile s t =>
            some ((s.writeTfault c e t).modCore c fun k => k.stopQ 0 ⟨e.thread, t.vector, false, e.seq⟩)
          | .fault s v => some (s.modCore c fun k => k.stopQ 0 ⟨e.thread, v, false, e.seq⟩)

/-! ### Scalar accesses that a fence held -/

/-- The value that a load of `n` bytes delivers (R195). -/
def loadValue (u : BitVec 1) (d : List Byte) : Word :=
  let v := w32 (bytesNat d)
  if u = 1 then v
  else match d.length with
    | 1 => (v.setWidth 8).signExtend 32
    | 2 => (v.setWidth 16).signExtend 32
    | _ => v

/-- Whether a 16-byte range lies in the issuing core's own chamber window (R193). -/
def ownChamber (c : CoreId) (a : Nat) : Bool := decide (chamberBase c ≤ a ∧ a + 16 ≤ chamberBase c + 0x200000)

/-- The cause for which LSEG, executed in a ring, fails with what it has read from an address (R193). -/
def segLoadFault (c : CoreId) (a : Nat) (ring : BitVec 2) (r : MemRes) : Option Nat :=
  let v : SegImage := BitVec.ofNat 128 (bytesNat r.data)
  if r.poison then some 5
  else if !ownChamber c a || !segValid v then some 6
  else if segRing v < ring.toNat then some 7
  else none

/-- A load whose access a fence held has its value: the slot of its place in issue order is filled, or removed when it failed. -/
def Thread.fillLoad (t : Thread) (seq : Nat) (v : Option Word) : Thread :=
  { t with loads := t.loads.filterMap fun l =>
      if l.held = some seq then v.map fun v => { l with value := v, held := none } else some l }

/-- A held access of a thread has failed: its record is written, and the thread takes the exception at its next boundary (R209;
assumption log 43). -/
def State.lateFault (s : State) (c : CoreId) (h : HeldAccess) (cause : Nat) : State :=
  let f : SFault := ⟨causeVector cause, cause, h.seg, h.size, false, false, 0, h.off⟩
  (s.writeSflt ⟨c, h.thread⟩ f h.rep h.pc h.word).modThread ⟨c, h.thread⟩ fun t => { t with late := some f.vector }

/-- A held scalar access is performed (R193 to R196, R263). -/
def State.performAccess (s : State) (c : CoreId) (h : HeldAccess) : State :=
  let x : Site := ⟨c, h.thread⟩
  match h.kind with
  | .store d => s.agentWrite (.core x) h.addr d { obs := 0, seq := h.seq, ring := h.ring }
  | .load _ u n =>
    let r := s.busRead x h.addr n
    if r.poison then (r.st.lateFault c h 5).modThread x fun t => t.fillLoad h.seq none
    else r.st.modThread x fun t => t.fillLoad h.seq (some (loadValue u r.data))
  | .seg dst =>
    let r := s.busRead x h.addr 16
    match segLoadFault c h.addr h.ring r with
    | some cause => r.st.lateFault c h cause
    | none => r.st.modThread x fun t => t.setSeg dst (BitVec.ofNat 128 (bytesNat r.data))

/-- Whether a held scalar access waits at its memory. -/
def State.accessStalls (s : State) (c : CoreId) (h : HeldAccess) : Bool :=
  let a : Agent := .core ⟨c, h.thread⟩
  match h.kind with
  | .store d => s.writeStalls a h.addr d.length
  | .load _ _ n => s.readStalls a h.addr n
  | .seg _ => s.readStalls a h.addr 16

/-- The oldest scalar access that a fence held is performed once it is free (R263). -/
def State.stepMem (s : State) (c : CoreId) : Option State :=
  match (s.core c).heldMem with
  | [] => none
  | h :: t =>
    if s.fenced c 0 h.seq || s.accessStalls c h then none
    else some ((s.modCore c fun k => { k with heldMem := t }).performAccess c h)

/-- One thing that a core's engines can do now. -/
def State.stepCore (s : State) (c : CoreId) : Option State :=
  match s.stepMem c with
  | some s => some s
  | none => match s.stepVq c with
    | some s => some s
    | none => s.stepMq c

/-- A core's engines go on until nothing is left to do. -/
def State.pumpN (s : State) (c : CoreId) : Nat → State
  | 0 => s
  | n + 1 => match s.stepCore c with
    | some s => s.pumpN c n
    | none => s

/-- How many things the engines of a core can do at most before they rest. -/
def Core.work (k : Core) : Nat := 3 * (k.mq.entries.length + k.vq.entries.length) + k.heldMem.length + 1

/-- A core's engines go on. -/
def State.pump (s : State) (c : CoreId) : State := (s.pumpN c (s.core c).work).dropMet c

/-! ### Issue into a queue -/

/-- The queue of an instruction (R167). -/
def queueOf : Instr → Nat
  | .tcfg _ _ _ => 0 | .tshr _ _ => 0 | .tld _ _ => 0 | .tst _ _ => 0 | .tldx _ _ => 0 | .tzero _ _ => 0 | .mma _ _ => 0
  | .token _ f => f.q.toNat
  | .dmaq _ _ => 2
  | _ => 1

/-- An entry with what it captures (R94, R133, R168). -/
def State.entryOf (s : State) (x : Site) (i : Instr) (vals : List Word) (segs : List SegImage) : QEntry :=
  let k := s.core x.core
  let t := k.thread x.thread
  { instr := i, seq := k.issueSeq, thread := x.thread, ring := t.ring, pc := if t.rep.isSome then t.pc + 1 else t.pc,
    vals := vals, segs := segs, phase := .waiting, desc := [], row := 0, byte := 0 }

/-- An instruction goes into its queue, or waits for a credit (R167). -/
def State.enqueue (s : State) (x : Site) (i : Instr) (vals : List Word) (segs : List SegImage) : Res :=
  let q := queueOf i
  let k := s.core x.core
  if queueCap q ≤ (k.queue q).entries.length then .wait (.queue (Fin.ofNat 3 q))
  else
    .done (s.setCore x.core (k.setQueue q { k.queue q with entries := (k.queue q).entries ++ [s.entryOf x i vals segs] }))

/-! ### Tokens and discard -/

/-- The observer whose accesses the entries of a queue make (R254). -/
def queueObs (q : Nat) : Nat := match q with | 0 => 2 | 1 => 1 | _ => 3

/-- A token at the head of its queue completes: the entries ahead of it are gone, and no memory holds a write of theirs (R170, R265). -/
def State.completeToken (s : State) (c : CoreId) (q : Nat) : State :=
  let k := s.core c
  match (k.queue q).entries with
  | e :: _ =>
    match e.instr with
    | .token _ f =>
      if (k.queue q).stops e || s.writesHeld c (queueObs q) e.seq then s
      else (s.modCore c fun k => k.popQ q).setEvent ⟨c, e.thread⟩ f.evbit.toNat
    | _ => s
  | [] => s

/-- Entries leave a queue. -/
def Core.removeQ (k : Core) (q : Nat) (gone : QEntry → Bool) : Core :=
  k.setQueue q { k.queue q with entries := (k.queue q).entries.filter fun e => !gone e }

/-- Writes that a memory holds for an entry are no longer awaited (R256). -/
def State.unawait (s : State) (c : CoreId) (obs seq : Nat) : State :=
  let free (w : HeldWrite) : HeldWrite :=
    if agentSrc w.agent = c.val ∧ w.obs = obs ∧ w.seq = seq then { w with obs := 4 } else w
  (List.finRange 8).foldl (fun s h =>
    s.modHall h fun v => { v with nearHeld := v.nearHeld.map free, galHeld := v.galHeld.map free }) s

/-- The queue discard action (R145, R171): the stopped entry, and with `all` those behind it; on the matrix queue that only a tile move
stops, the move. -/
def State.discard (s : State) (c : CoreId) (q : Nat) (all : Bool) : State :=
  let k := s.core c
  match (k.queue q).stop, (k.queue q).byMove with
  | some st, _ =>
    (s.setCore c (k.removeQ q fun e => e.seq == st.seq || (all && decide (st.seq < e.seq)))).unawait c (queueObs q) st.seq
  | none, some st =>
    let k := k.removeQ 1 fun e => e.seq == st.seq
    s.setCore c (if all then k.removeQ 0 fun e => decide (st.seq < e.seq) else k)
  | none, none => s

end Sys2Proof.Machine
end

