-- ==== Sys2Proof/Machine/Channels.lean ====
section
/-!
DEFINITION. The channel unit (R272 to R301): staging and sending, receive rings, credits, sumps and their adder, chimneys, and
the channel fault record.
-/
namespace Sys2Proof.Machine

/-! ### Faults -/

/-- The channel fault of a thread (R284, R285): the record, then vector 14. -/
def State.chanFault (s : State) (x : Site) (cause id func : Nat) : Res :=
  let p := chanPage x.core
  let o := 0x800 + 8 * x.thread.val
  let t := s.thread x
  let pc := if t.rep.isSome then t.pc + 1 else t.pc
  .raise ((s.setLive p o (w32 (cause + id * 2 ^ 4 + func * 2 ^ 9))).setLive p (o + 4) (w32 pc.toNat)) 14

/-- Rules 1 to 3 of R284 for an instruction that names a send channel. -/
def State.chanCause (s : State) (x : Site) (ch : Fin 32) : Option Nat :=
  let o := ((s.core x.core).chanOf ch.val).openBy
  if (s.chanCfg x.core ch.val).kind = 0 then some 1
  else if o.isSome && o != some x.thread then some 2
  else if (s.thread x).openCh.isSome && (s.thread x).openCh != some ch then some 3
  else none

/-! ### Sending -/

/-- A thread holds a channel open, which reserves a credit (R281); none when no credit is available. -/
def State.openChan (s : State) (x : Site) (ch : Fin 32) : Option State :=
  let c := (s.core x.core).chanOf ch.val
  if c.openBy = some x.thread then some s
  else if c.avail = 0 then none
  else
    let s := s.modCore x.core fun k => k.setChan ch.val { c with avail := c.avail - 1, openBy := some x.thread }
    some (s.modThread x fun t => { t with openCh := some ch })

/-- Bytes are written into a thread's staging buffer (R282). -/
def stagePut (m : SMap Byte) (o : Nat) : List Byte → SMap Byte
  | [] => m
  | b :: t => stagePut (SMap.set m o 0 b) (o + 1) t

/-- The first `n` bytes of a staging buffer. -/
def stageBytes (m : SMap Byte) (n : Nat) : List Byte := (List.range n).map fun i => SMap.get m i 0

/-- WRCH (R282, R284). -/
def State.wrch (s : State) (x : Site) (ch : Fin 32) (v o : Word) : Res :=
  match s.chanCause x ch with
  | some k => s.chanFault x k ch.val 0
  | none =>
    if o.toNat % 4 ≠ 0 ∨ 4096 ≤ o.toNat then s.chanFault x 4 ch.val 0
    else match s.openChan x ch with
      | none => .held
      | some s => .done (s.modThread x fun t => { t with staging := stagePut t.staging o.toNat (natBytes 4 v.toNat) })

/-- WRCHB (R282, R284): length zero does nothing. Its read waits behind fences with the instruction (R263, R264). The size code that a segment fault records is not stated: a free value
(assumption log 2). -/
def State.wrchb (s : State) (x : Site) (ch : Fin 32) (seg : Nat) (src v : Word) : Res :=
  let n := fieldOf v 16 16
  let o := fieldOf v 0 16
  if n = 0 then .done s
  else match s.chanCause x ch with
    | some k => s.chanFault x k ch.val 1
    | none =>
      if 4096 < o + n then s.chanFault x 4 ch.val 1
      else match s.openChan x ch with
        | none => .held
        | some s1 =>
          let d := (s.thread x).seg seg
          let (k, sf) := s.takeFresh
          let size := Config.freeNat k % 4
          match segCheck d (s.thread x).ring.toNat .read (src.toNat : Int) n 1 with
          | some c => .fault sf (accessFault c seg size false (src.toNat : Int))
          | none =>
            if s.readStalls (.core x) (segBase d + src.toNat) n || s.scalarHeld x.core then .held
            else
              let r := s1.busRead x (segBase d + src.toNat) n
              if r.poison then .fault sf (accessFault 5 seg size false (src.toNat : Int))
              else .done (r.st.modThread x fun t => { t with staging := stagePut t.staging o r.data })

/-- Whether a chimney has a member in another partition (R284, cause 8). -/
def State.chimneyForeign (s : State) (h : HallId) (n : Nat) : Bool :=
  (s.chimneyMembers h n).any fun c => !s.samePart h (CoreId.hall (Fin.ofNat 1152 c))

/-- Rules 5 and 8 of R284 for CLOSE. -/
def State.closeCause (s : State) (x : Site) (ch : Fin 32) (n : Nat) : Option Nat :=
  let g := s.chanCfg x.core ch.val
  if 4096 < n ∨ g.maxLen < n ∨ (g.kind = 3 ∧ 64 < n) then some 5
  else if g.kind = 3 && !g.remote && s.chimneyForeign x.hall (g.core % 64) then some 8
  else none

/-- CLOSE (R266, R283, R284): the message is held until the accesses before it are performed. -/
def State.closeMsg (s : State) (x : Site) (ch : Fin 32) (n : Nat) : Res :=
  match s.chanCause x ch with
  | some k => s.chanFault x k ch.val 2
  | none => match s.closeCause x ch n with
    | some k => s.chanFault x k ch.val 2
    | none => match s.openChan x ch with
      | none => .held
      | some s =>
        let k := s.core x.core
        let c := k.chanOf ch.val
        let m : HeldMsg := { seq := k.issueSeq, data := stageBytes (s.thread x).staging n }
        let s := s.modCore x.core fun k => k.setChan ch.val { c with openBy := none, held := c.held ++ [m] }
        .done (s.modThread x fun t => { t with openCh := none })

/-- A packet of an agent of hall `h` waits at the routing step (R379). -/
def State.toFabric (s : State) (h : HallId) (inp : Option PortId) (p : Packet) : State :=
  { s with routing := s.routing ++ [⟨inp, h, p⟩] }

/-- The page of a Yarlink port. -/
def portPage (p : PortId) : Nat := 0x10 + p.val

/-- Whether a port's applied EN is 1 (R367). -/
def State.portEn (s : State) (p : PortId) : Bool := wbit (s.applWord (portPage p) 0x100) 0

/-- The module's own ID: MYID as applied at its enabled ports, which agree (R367, R368). -/
def State.myId (s : State) : BitVec 18 :=
  match (List.finRange 12).find? s.portEn with
  | some p => (s.applWord (portPage p) 0x104).setWidth 18
  | none => 0

/-- TARGET of a packet of kinds 5 to 7 (R377). -/
def chanTarget (core ringNo srcCore srcCh rank : Nat) : BitVec 48 :=
  BitVec.ofNat 48 (core % 2 ^ 11 + ringNo * 2 ^ 11 + srcCore % 2 ^ 11 * 2 ^ 16 + srcCh * 2 ^ 27 + rank * 2 ^ 32)

/-- The packet of a message or contribution to a core of another module (R376, R377). -/
def State.msgPacket (s : State) (src : CoreId) (ch : Fin 32) (module : BitVec 18) (core : Nat) (sump : Bool) (m : Message) :
    Packet :=
  { kind := if sump then 6 else 5, err := false, len := m.data.length, src := s.myId, dst := module
    target := chanTarget core m.target.val src.val ch.val m.rank, tag := 0, data := m.data }

/-! ### The mesh -/

/-- Whether a packet is of mesh class 1, the replies (R19). -/
def MeshBody.isReply : MeshBody → Bool
  | .credit _ _ => true
  | _ => false

/-- A packet of a core leaves toward another core (R19), or is refused at its own router: its destination is no core, or lies in
another partition (R8, R24). DESIGN CHOICE: such a packet names no address; the access error records the chamber window of the
core it names, as a write (assumption log 56). -/
def State.toCore (s : State) (c : CoreId) (dst : Nat) (b : MeshBody) : State :=
  let d : CoreId := Fin.ofNat 1152 dst
  if dst < 1152 ∧ s.samePart c.hall d.hall = true then { s with mesh := s.mesh ++ [⟨.core c, d, b⟩] }
  else s.accessError (.core ⟨c, 0⟩) (0xE10000000000 + dst * 0x200000) true

/-- The packets without the oldest of its source that brings `b` to a core; none, when no such packet is on the mesh or an earlier
one of the same source and class is: the mesh never reorders those (R19). `seen` holds the sources passed. -/
def takeFlow (c : CoreId) (b : MeshBody) : (seen : List MeshEnd) → List MeshPkt → Option (List MeshPkt)
  | _, [] => none
  | seen, p :: t =>
    if p.dst = c ∧ p.body.isReply = b.isReply then
      if p.body = b ∧ p.src ∉ seen then some t else (takeFlow c b (p.src :: seen) t).map fun l => p :: l
    else (takeFlow c b seen t).map fun l => p :: l

/-- A packet arrives at a core, when the mesh brings it next (R19); one that nobody has sent does not arrive (assumption log 58). -/
def State.meshArrive (s : State) (c : CoreId) (b : MeshBody) (f : State → State) : State :=
  match takeFlow c b [] s.mesh with
  | some l => f { s with mesh := l }
  | none => s

/-- What a packet of kinds 5 to 7 brings to its core (R377, R380). -/
def packetBody (k : Packet) : MeshBody :=
  let t := k.target.toNat
  let m : Message :=
    { target := Fin.ofNat 32 (bitsOf t 11 5), sender := some ⟨some k.src, bitsOf t 16 11, Fin.ofNat 32 (bitsOf t 27 5)⟩
      rank := bitsOf t 32 8, data := k.data }
  if k.kind = 5 then .message m else if k.kind = 6 then .contribution m else .credit (Fin.ofNat 32 (bitsOf t 27 5)) (bitsOf t 16 11)

/-- Messages and contributions in flight toward a hall's cores are discarded (R297): on the mesh, and at the routing step of this
module. -/
def State.dropFlights (s : State) (h : HallId) : State :=
  { s with
    mesh := s.mesh.filter fun p => !(p.dst.hall == h && !p.body.isReply)
    routing := s.routing.filter fun r =>
      !(r.pkt.dst == s.myId && (r.pkt.kind == 5 || r.pkt.kind == 6) && CoreId.hall (Fin.ofNat 1152 (bitsOf r.pkt.target.toNat 0 11)) == h) }

/-- A credit on its way back from a core to the channel that sent a message (R278, R280, R287, R382); a doorbell message has
none (R396). -/
def State.returnCredit (s : State) (c : CoreId) (dest : Option Sender) (err : Bool := false) : State :=
  match dest with
  | none => s
  | some d => match d.module with
    | none => (s.emit (.credit c d)).toCore c d.core (.credit d.ch c.val)
    | some m =>
      s.toFabric c.hall none
        { kind := 7, err := err, len := 0, src := s.myId, dst := m, target := chanTarget d.core 0 c.val d.ch.val 0, tag := 0
          data := [] }

/-- Something that a core puts on the mesh counts in TX_MSGS (R301). -/
def State.sendOut (s : State) (c : CoreId) (ch : Fin 32) (module : Option (BitVec 18)) (core : Nat) (sump : Bool)
    (m : Message) : State :=
  let s := match module with
    | none => (s.emit (.message c ch core sump m)).toCore c core (if sump then .contribution m else .message m)
    | some md => s.toFabric c.hall none (s.msgPacket c ch md core sump m)
  s.count64 (chanPage c) 0x8D8 1

/-- The oldest held message of a channel leaves, when every access before its CLOSE is performed (R264, R266, R283, R295,
R296). -/
def State.depart (s : State) (c : CoreId) (ch : Fin 32) : State :=
  let k := s.core c
  let v := k.chanOf ch.val
  match v.held with
  | [] => s
  | m :: t =>
    if s.outstanding c 0xF m.seq || s.published c m.seq then s
    else
      let g := s.chanCfg c ch.val
      let md := if g.remote then some (BitVec.ofNat 18 g.module) else none
      let msg : Message := { target := g.target, sender := some ⟨none, c.val, ch⟩, rank := g.rank, data := m.data }
      if g.kind = 3 then
        let members := s.chimneyMembers c.hall (g.core % 64)
        if members.isEmpty then s.setCore c (k.setChan ch.val { v with held := t, avail := v.avail + 1 })
        else
          let s := s.setCore c (k.setChan ch.val { v with held := t, chim := v.chim ++ [members] })
          members.foldl (fun s d => s.sendOut c ch md d false msg) s
      else
        let s := s.setCore c (k.setChan ch.val { v with held := t })
        s.sendOut c ch md g.core (g.kind = 2) msg

/-- A member of a chimney returns its credit: it leaves the oldest message that it holds; a message that no member holds
returns the channel's credit (R296). -/
def chimReturn (member : Nat) : List (List Nat) → List (List Nat) × Nat
  | [] => ([], 0)
  | l :: t =>
    if l.contains member then
      let l' := l.filter (· ≠ member)
      if l'.isEmpty then (t, 1) else (l' :: t, 0)
    else
      let (t', n) := chimReturn member t
      (l :: t', n)

/-- A credit returns to a send channel (R281, R296). -/
def State.creditBack (s : State) (c : CoreId) (ch : Fin 32) (member : Nat) : State :=
  let v := (s.core c).chanOf ch.val
  if (s.chanCfg c ch.val).kind = 3 then
    let (l, n) := chimReturn member v.chim
    s.modCore c fun k => k.setChan ch.val { v with chim := l, avail := v.avail + n }
  else s.modCore c fun k => k.setChan ch.val { v with avail := v.avail + 1 }

/-! ### Receiving -/

/-- Credits that the accesses before their RFREE or SUMPARM no longer hold leave the core (R280, R287). -/
def State.releaseCredits (s : State) (c : CoreId) : State :=
  let l := (s.core c).heldCredits
  let free := l.filter fun h => !s.outstanding c 0xF h.seq
  let s' := if free.isEmpty then s
    else s.modCore c fun k => { k with heldCredits := l.filter fun h => s.outstanding c 0xF h.seq }
  free.foldl (fun s h => s.returnCredit c (some h.sender)) s'

/-- A counter of R301 counts and its ERR bit is set. -/
def State.chanCount (s : State) (c : CoreId) (n : Nat) : State :=
  (s.countSat (chanPage c) (0x8C0 + 4 * n) 1).recordErr (chanPage c) n

/-- An arrival is dropped: counted, its credit returned at once (R278). -/
def State.dropArrival (s : State) (c : CoreId) (n : Nat) (m : Message) : State :=
  (s.chanCount c n).returnCredit c m.sender

/-- Whether a receive ring takes an arrival: its hall is not stopped, and it has a free entry (R277, R278). -/
def State.ringTakes (s : State) (c : CoreId) (r : Nat) : Bool :=
  let g := (s.core c).ringOf r
  !(s.stopped c.hall || s.ringEntries c r == 0 || decide (s.ringEntries c r ≤ ringDist g.rd g.wr))

/-- A message arrives at a receive ring (R277, R278). -/
def State.receive (s : State) (c : CoreId) (m : Message) : State :=
  let r := m.target.val
  let n := s.ringEntries c r
  let g := (s.core c).ringOf r
  if !s.ringTakes c r then s.dropArrival c 0 m
  else
    let size := s.ringEsize c r
    let s := s.memWrite (.core ⟨c, 0⟩) (chamberBase c + s.ringBase c r + g.wr % n * size) (m.data.take size)
    let trunc := decide (size < m.data.length)
    let s := if trunc then s.chanCount c 1 else s
    let s := s.count64 (chanPage c) 0x8D0 1
    let s := s.modCore c fun k => k.setRing r
      { g with wr := (g.wr + 1) % 512, entry := SMap.put g.entry (g.wr % n) ⟨m.data.length, trunc, m.sender⟩ }
    let cfg := s.applWord (chanPage c) (0x104 + 8 * r)
    if wbit cfg 15 then s.pend ⟨c, Fin.ofNat 4 (fieldOf cfg 16 2)⟩ 32 else s

/-- RECV (R279). -/
def State.recv (s : State) (x : Site) (rd : BitVec 5) (r : Fin 32) : Res :=
  let c := x.core
  let n := s.ringEntries c r.val
  let g := (s.core c).ringOf r.val
  if n = 0 then s.chanFault x 1 r.val 3
  else if g.rx = g.wr then .wait (.recv r)
  else
    let i := g.rx % n
    let e := SMap.get g.entry i ⟨0, false, none⟩
    let s := s.modCore c fun k => k.setRing r.val { g with rx := (g.rx + 1) % 512 }
    .done (s.setReg x rd (w32 (i + e.len * 2 ^ 8 + b2n e.trunc * 2 ^ 21)))

/-- RFREE (R280, R284): the credits of the freed entries wait for the accesses before it. -/
def State.rfree (s : State) (x : Site) (r : Fin 32) (count : Nat) : Res :=
  let c := x.core
  let n := s.ringEntries c r.val
  let k := s.core c
  let g := k.ringOf r.val
  if n = 0 then s.chanFault x 1 r.val 4
  else if ringDist g.rd g.rx < count then s.chanFault x 6 r.val 4
  else
    let freed := (List.range count).filterMap fun i => (SMap.get g.entry ((g.rd + i) % n) ⟨0, false, none⟩).sender
    let k := k.setRing r.val { g with rd := (g.rd + count) % 512 }
    .done (s.setCore c { k with heldCredits := k.heldCredits ++ freed.map fun f => ⟨k.issueSeq, f⟩ })

/-! ### Sumps -/

/-- A contribution arrives at a sump (R278, R287, R291). -/
def State.contribute (s : State) (c : CoreId) (m : Message) : State :=
  let u := m.target.val
  let g := s.sumpCfg c u
  let v := (s.core c).sumpOf u
  if s.stopped c.hall || !g.en || decide (g.n ≤ m.rank) || (SMap.get v.present m.rank none).isSome then s.dropArrival c 2 m
  else
    let s := s.memWrite (.core ⟨c, 0⟩) (chamberBase c + g.slots + m.rank * g.stride) (m.data.take (g.len * 2))
    let s := if m.data.length = g.len * 2 then s else s.chanCount c 3
    (s.count64 (chanPage c) 0x8D0 1).modCore c fun k =>
      k.setSump u { v with present := SMap.put v.present m.rank (some (m.sender, m.data.length)) }

/-- A round completes: its result is tallied and its signals are raised (R290). DESIGN CHOICE: an element counts as SAT by the rounding of
the last slot alone; the spec leaves open whether one that saturated at an earlier slot counts (R77; assumption log 53). -/
def State.sumpComplete (s : State) (c : CoreId) (u : Nat) (es : List Elem) : State :=
  let g := s.sumpCfg c u
  let v := (s.core c).sumpOf u
  let a := v.arg
  let thr : Site := ⟨c, Fin.ofNat 4 (fieldOf a 6 2)⟩
  let s := s.tally (.core c) (fieldOf a 0 4) g.rfmt es
  let s := s.modCore c fun k => k.setSump u { v with state := 2 }
  let s := if wbit a 5 then s.pend thr 33 else s
  if wbit a 8 then s.setEvent thr (fieldOf a 9 5) else s

/-- The elements of `d` bytes of 16-bit elements, `n` of them; bytes not there are zero. -/
def elems16 (n : Nat) (d : List Byte) : List Nat := bitElems 16 n (bytesNat d)

/-- The elements of a result after slot `k` is drained (R289). -/
def drainElems (g : SumpCfg) (seed : BitVec 64) (c : CoreId) (u : Nat) (round : Word) (k : Nat)
    (old slot : List Nat) : List Elem :=
  ((old.zip slot).zipIdx).map fun (p, e) =>
    roundAcc g.rfmt false
      (dripBits seed (identSump c.val) ((round.toNat * 32 + u) % 2 ^ 32) (k * 2048 + e))
      (Num.sum [decodeNum g.rfmt p.1, decodeNum g.sfmt p.2])

/-- The sump adder drains the next slot of an armed sump, when it is present (R289, R290). -/
def State.drain (s : State) (c : CoreId) (u : Nat) : State :=
  let g := s.sumpCfg c u
  let v := (s.core c).sumpOf u
  if v.state ≠ 1 || v.stopped then s
  else match SMap.get v.present v.drained none with
  | none => s
  | some (_, len) =>
    let k := v.drained
    let x : Agent := .core ⟨c, 0⟩
    let slotA := chamberBase c + g.slots + k * g.stride
    let resA := chamberBase c + g.res
    let q := s.memRead x slotA (g.len * 2)
    let fresh := k = 0 && !wbit v.arg 4
    let r := if fresh then ⟨q.st, List.replicate (g.len * 2) 0, false⟩ else q.st.memRead x resA (g.len * 2)
    if q.poison || r.poison then
      (r.st.modCore c fun kk => kk.setSump u { v with stopped := true }).recordErr (chanPage c) 4
    else
      let es := drainElems g (s.seed c.hall) c u v.round k (elems16 g.len r.data)
        (elems16 g.len (q.data.take (len / 2 * 2) ++ List.replicate (g.len * 2 - len / 2 * 2) 0))
      let s := r.st.memWrite x resA (natBytes (g.len * 2) (packElems 16 (es.map Elem.bits)))
      let s := s.modCore c fun kk => kk.setSump u { v with drained := k + 1 }
      if k + 1 = g.n then s.sumpComplete c u es else s

/-- A round is armed (R287, R290): with no slots it completes at once. -/
def State.sumpArm (s : State) (c : CoreId) (u : Nat) (v : Sump) (arg : Word) : State :=
  let g := s.sumpCfg c u
  let s := s.modCore c fun k => k.setSump u { v with state := 1, drained := 0, arg := arg, stopped := false }
  if g.n ≠ 0 then s
  else
    let a := chamberBase c + g.res
    if wbit arg 4 then
      s.sumpComplete c u ((elems16 g.len (s.bytesAt a (g.len * 2))).map Elem.ofBits)
    else
      (s.memWrite (.core ⟨c, 0⟩) a (List.replicate (g.len * 2) 0)).sumpComplete c u
        (List.replicate g.len (Elem.ofBits 0))

/-- SUMPARM (R287, R288): a reserved bit of the argument traps before the rules of R284. -/
def State.sumparm (s : State) (x : Site) (u : Fin 32) (arg : Word) : Res :=
  let c := x.core
  let k := s.core c
  let v := k.sumpOf u.val
  let g := s.sumpCfg c u.val
  if fieldOf arg 14 18 ≠ 0 then .fault s (emulTrap 2)
  else if !g.en then s.chanFault x 1 u.val 5
  else if v.state = 1 then s.chanFault x 7 u.val 5
  else if v.state = 2 then
    let back := (List.range g.n).filterMap fun i => ((SMap.get v.present i none).bind Prod.fst).map fun p => (⟨k.issueSeq, p⟩ : HeldCredit)
    let s := s.setCore c { k with heldCredits := k.heldCredits ++ back }
    .done (s.sumpArm c u.val { v with present := [], round := v.round + 1 } arg)
  else .done (s.sumpArm c u.val v arg)

/-! ### Abort and context switch -/

/-- The channel abort on a halted thread (R299). -/
def State.abortMsg (s : State) (x : Site) : State :=
  let s := match (s.thread x).openCh with
    | some ch =>
      s.modCore x.core fun k =>
        let v := k.chanOf ch.val
        k.setChan ch.val { v with openBy := none, avail := v.avail + 1 }
    | none => s
  s.modThread x fun t => { t with openCh := none, staging := [] }

/-- What a context switch of the hall does to a core's channel unit (R297). -/
def State.switchChannels (s : State) (c : CoreId) : State :=
  let chans := (List.range 32).foldl (fun m ch =>
    SMap.set m ch SendChan.zero { SendChan.zero with avail := (s.chanCfg c ch).credits }) []
  s.modCore c fun k =>
    { k with
      ring := []
      chan := chans
      sump := []
      heldCredits := []
      threads := k.threads.map fun p => (p.1, { p.2 with openCh := none, staging := [] }) }

end Sys2Proof.Machine
end

