-- ==== Sys2Proof/Machine/Links.lean ====
section
/-!
DEFINITION. Yarlink links (R365 to R378): the layout of packets and flits, the protection of a hop, packing packets into flits under
the link credits, and the width of a port.
-/
namespace Sys2Proof.Machine

/-! ### Packets -/

/-- The class of a packet kind (R376). -/
def kindClass (k : Nat) : Nat := if k ≤ 2 then 0 else if k ≤ 4 then 1 else if k ≤ 7 then 2 else 3

/-- The header of a packet (R377). -/
def packetHeader (p : Packet) : Nat :=
  p.kind.toNat + kindClass p.kind.toNat * 2 ^ 4 + b2n p.err * 2 ^ 6 + p.len % 2 ^ 13 * 2 ^ 8 + p.src.toNat * 2 ^ 21
    + p.dst.toNat * 2 ^ 39 + p.target.toNat * 2 ^ 64 + p.tag.toNat * 2 ^ 112

/-- The bytes of a packet. -/
def packetBytes (p : Packet) : List Byte := natBytes 16 (packetHeader p) ++ p.data

/-- Payload bytes that follow a header: a read request carries none. -/
def payloadLen (hd : Nat) : Nat := if bitsOf hd 0 4 = 1 then 0 else bitsOf hd 8 13

/-- A packet from its header and payload (R377). -/
def packetOf (hd : Nat) (data : List Byte) : Packet :=
  { kind := BitVec.ofNat 4 hd, err := bitOf hd 6, len := bitsOf hd 8 13, src := BitVec.ofNat 18 (bitsOf hd 21 18)
    dst := BitVec.ofNat 18 (bitsOf hd 39 18), target := BitVec.ofNat 48 (bitsOf hd 64 48)
    tag := BitVec.ofNat 12 (bitsOf hd 112 12), data := data }

/-- The payload of a flit (R370). -/
def flitBytes : Nat := 232

/-- Flits that a packet fills when it begins one. -/
def flitsOf (p : Packet) : Nat := (16 + p.data.length + flitBytes - 1) / flitBytes

/-! ### Flits -/

/-- Bytes 0 to 3 of a flit (R370): number, acknowledgement, type, and the link credits returned. -/
def flitHead (typ : Nat) (seq ack : BitVec 12) (ccls ccnt : Nat) : List Byte :=
  natBytes 4 (seq.toNat + ack.toNat * 2 ^ 12 + typ % 4 * 2 ^ 24 + ccls % 4 * 2 ^ 26 + ccnt % 16 * 2 ^ 28)

/-- A flit with its CRC (R370), which lies in bytes 252 to 255 lowest byte first, as every field of the module does (DESIGN CHOICE,
assumption log 20). -/
def flitOf (head payload tag : List Byte) : List Byte :=
  let l := head ++ payload ++ tag
  l ++ natBytes 4 (crc32 l).toNat

/-- The IV of data flit `count` under a key (R371). -/
def LinkKey.iv (k : LinkKey) : Nat := k.epoch.toNat * 2 ^ 64 + k.count % 2 ^ 64

/-- A data flit under a key (R371): bytes 0 to 3 are the additional data, the payload is enciphered. -/
def LinkKey.seal (k : LinkKey) (head payload : List Byte) : List Byte :=
  let ct := gcmCrypt k.key.toNat k.iv payload
  flitOf head ct (gcmTagOf k.key.toNat k.iv head ct)

/-- The next key takes effect once its flit count is reached (R371). -/
def LinkKey.due (k : LinkKey) : LinkKey :=
  match k.roll with
  | some (n, key) => if n ≤ k.count then ⟨key, k.epoch + 1, 0, none⟩ else k
  | none => k

/-- The key after one more data flit. -/
def LinkKey.next (k : LinkKey) : LinkKey := { k with count := k.count + 1 }.due

/-- The key under which the data flit was sealed that the sender sent `d` flits after the one expected; none for one sent before the key
took effect. -/
def LinkKey.ahead (k : LinkKey) (d : Int) : Option LinkKey :=
  let c : Int := k.count + d
  if c < 0 then none
  else match k.roll with
    | some (n, key) => if (n : Int) ≤ c then some ⟨key, k.epoch + 1, (c - n).toNat, none⟩ else some { k with count := c.toNat }
    | none => some { k with count := c.toNat }

/-! ### Ports -/

/-- The link state of a port. -/
def State.port (s : State) (p : PortId) : YPort := SMap.get s.ports p.val YPort.zero

/-- The state with that of a port replaced. -/
def State.setPort (s : State) (p : PortId) (v : YPort) : State := { s with ports := SMap.set s.ports p.val YPort.zero v }

/-- The state of a port: 0 off, 1 training, 2 keying, 3 up, 4 failed (R384). -/
def State.portState (s : State) (p : PortId) : Nat := s.field (portPage p) 0x800 0 3

/-- Whether a port carries packets. -/
def State.portUp (s : State) (p : PortId) : Bool := s.portState p == 3

/-- The ports of the partition of a hall (R25). -/
def State.partPorts (s : State) (h : HallId) : List PortId := (List.finRange 12).filter fun p => s.samePart h (portHall p.val)

/-- The ROLE of barrier `b` (64 to 79) at a port (R367). -/
def State.xbarRole (s : State) (p : PortId) (b : Nat) : Nat := fieldOf (s.applWord (portPage p) (0x180 + 4 * (b - 64))) 0 2

/-- The lanes of the lowest group of `w` lanes without a failed lane (R366): its first lane. -/
def laneGroup (ok : Nat) (w : Nat) : Option Nat :=
  (List.range (8 / w)).findSome? fun g => if bitsOf ok (g * w) w = 2 ^ w - 1 then some (g * w) else none

/-- The widest width that the lanes allow, 0 for none (R366). -/
def widestOf (ok : Nat) : Nat :=
  if (laneGroup ok 8).isSome then 8 else if (laneGroup ok 4).isSome then 4 else if (laneGroup ok 2).isSome then 2 else 0

/-- The narrowest width kept (R367). -/
def State.minWidth (s : State) (p : PortId) : Nat := 2 * 2 ^ fieldOf (s.applWord (portPage p) 0x100) 1 2

/-- The fields of PSTAT of a port (R384). -/
def State.setPstat (s : State) (p : PortId) (state width ok : Nat) : State :=
  s.setLive (portPage p) 0x800 (w32 (state + width * 2 ^ 3 + ok % 2 ^ 8 * 2 ^ 7))

/-! ### Sending -/

/-- The link credits that the next flit returns: at most 15 of the lowest class that is owed some (R370). -/
def YPort.takeOwed (v : YPort) : Nat × Nat × YPort :=
  match v.owed with
  | [] => (0, 0, v)
  | (c, n) :: _ => (c, min 15 n, { v with owed := SMap.set v.owed c 0 (n - 15) })

/-- Whether a retrain that CTL asked for is under way: the port pauses and the bit reads 1 (R374). -/
def State.retraining (s : State) (p : PortId) : Bool := wbit (s.liveWord (portPage p) 0x008) 0

/-- A flit that carries no packet bytes: 1 idle, 2 NAK, 3 control. It has the number of the last data flit sent, and no tag
(assumption log 20). -/
def State.sendBare (s : State) (p : PortId) (typ : Nat) (payload : List Byte := List.replicate flitBytes 0) : State :=
  let (c, n, v) := (s.port p).takeOwed
  (s.setPort p v).emit (.flit p (flitOf (flitHead typ (v.txSeq - 1) v.rxSeq c n) payload (List.replicate 16 0)))

/-- A data flit is sent (R370 to R372), with the number of packets that end in it; the epoch in force is that of the sending key. -/
def State.sendFlit (s : State) (p : PortId) (ends : Nat) (payload : List Byte) : State :=
  let (c, n, v) := (s.port p).takeOwed
  let b := v.tx.seal (flitHead 0 v.txSeq v.rxSeq c n) payload
  let v' := { v with txSeq := v.txSeq + 1, tx := v.tx.next, unacked := v.unacked ++ [⟨v.txSeq, ends, b⟩] }
  let s := ((s.setPort p v').emit (.flit p b)).count64 (portPage p) 0x810 1
  if v'.tx.epoch = v.tx.epoch then s else s.setLive (portPage p) 0x808 v'.tx.epoch

/-- The first waiting packet that may be sent: its class may send, and no earlier packet of the class waits (R376, R378); with the
packets that stay. -/
def nextPacket (may : Nat → Bool) : (blocked : List Nat) → List Packet → Option (Packet × List Packet)
  | _, [] => none
  | bl, k :: t =>
    let c := kindClass k.kind.toNat
    if bl.contains c = false ∧ may c = true then some (k, t)
    else (nextPacket may (c :: bl) t).map fun r => (r.1, k :: r.2)

/-- A flit being packed: the port, the payload so far, the classes whose bytes it carries, and the classes of the packets that end in
it. -/
structure Pack where
  v : YPort
  out : List Byte
  cls : List Nat
  ended : List Nat

/-- Whether a class may put bytes into the flit: it is in it, or has a link credit (R376). -/
def Pack.may (k : Pack) (c : Nat) : Bool := k.cls.contains c || decide (SMap.get k.v.used c 0 < 96)

/-- Packets are laid end to end into a flit, a packet under way first (R370, R376). A packet that has begun goes on before any other,
since a flit does not say whose bytes it carries; a header whose first bytes would be read as the fill of the flit begins the next
one. `fuel` bounds the pieces. -/
def Pack.fill : (fuel : Nat) → Pack → Pack
  | 0, k => k
  | n + 1, k =>
    let room := flitBytes - k.out.length
    if room = 0 then k
    else if k.v.tail.isEmpty then
      match nextPacket k.may [] k.v.queue with
      | none => k
      | some (p, rest) =>
        let b := packetBytes p
        if k.out.isEmpty = false ∧ room < 16 ∧ (b.take room).all (· == 0) = true then k
        else Pack.fill n { k with v := { k.v with queue := rest, tail := b, tailCls := kindClass p.kind.toNat } }
    else
      let c := k.v.tailCls
      if k.may c then
        let rest := k.v.tail.drop room
        Pack.fill n
          { v := { k.v with tail := rest }, out := k.out ++ k.v.tail.take room
            cls := if k.cls.contains c then k.cls else k.cls ++ [c]
            ended := if rest.isEmpty then k.ended ++ [c] else k.ended }
      else k

/-- A packed flit is sent: its rest is filled with zeros, each class in it uses a link credit, and the packets that end in it count
(assumption log 20). -/
def State.sendPack (s : State) (p : PortId) (k : Pack) : State :=
  let s := s.setPort p { k.v with used := k.cls.foldl (fun m c => SMap.set m c 0 (SMap.get m c 0 + 1)) k.v.used }
  let s := s.sendFlit p k.ended.length (k.out ++ List.replicate (flitBytes - k.out.length) 0)
  k.ended.foldl (fun s c => s.count64 (portPage p) (0x868 + 8 * c) 1) s

/-- Whether a port may send a data flit: it carries packets, does not pause, keeps fewer than 2,048 flits unacknowledged, and has sent
fewer than 2^31 under its key (R371, R372, R374). -/
def State.maySend (s : State) (p : PortId) : Bool :=
  let v := s.port p
  s.portUp p && !s.retraining p && decide (v.unacked.length < 2048) && decide (v.tx.count < 2 ^ 31)

/-- A port sends what waits for it, at most `fuel` flits. -/
def State.pumpPortN (s : State) (p : PortId) : (fuel : Nat) → State
  | 0 => s
  | n + 1 =>
    if s.maySend p then
      let v := s.port p
      let k := Pack.fill (2 * v.queue.length + 2) ⟨v, [], [], []⟩
      if k.out.isEmpty then s else (s.sendPack p k).pumpPortN p n
    else s

/-- A port sends what waits for it. -/
def State.pumpPort (s : State) (p : PortId) : State :=
  let v := s.port p
  s.pumpPortN p (v.tail.length / flitBytes + 1 + (v.queue.map flitsOf).sum + v.queue.length)

/-- The page of the router of a Yarlink port (R26, R358): in its hall, in ascending port number. -/
def portRouter (p : PortId) : Nat :=
  let h := portHall p.val
  hallPage h (if p.val ≠ 0 ∧ portHall (p.val - 1) = h then 0x97 else 0x96)

/-- A packet is handed to a port, at whose router it leaves the mesh (R358). -/
def State.queuePacket (s : State) (p : PortId) (k : Packet) : State :=
  let s := s.count64 (portRouter p) 0x808 1
  let v := s.port p
  (s.setPort p { v with queue := v.queue ++ [k] }).pumpPort p

/-- What a port drops when it goes down: unacknowledged flits and waiting packets, counted as packets in NOROUTE (R367, R375). -/
def State.dropPort (s : State) (p : PortId) : State :=
  let v := s.port p
  ((s.setPort p YPort.zero).setLive (portPage p) 0x008 0).countSat (portPage p) 0x83C
    (v.queue.length + (if v.tail.isEmpty then 0 else 1) + (v.unacked.map TxFlit.ends).sum)

/-- A barrier arrive or release is sent to the peer of a port (R377, R383). -/
def State.sendBarrier (s : State) (p : PortId) (release : Bool) (b : Nat) (round : BitVec 16) : State :=
  if !s.portUp p then s
  else
    s.queuePacket p
      { kind := if release then 9 else 8, err := false, len := 0, src := s.myId
        dst := (s.liveWord (portPage p) 0x804).setWidth 18, target := BitVec.ofNat 48 (b + round.toNat * 2 ^ 7), tag := 0
        data := [] }

end Sys2Proof.Machine
end

