-- ==== Sys2Proof/Machine/Barriers.lean ====
section
/-!
DEFINITION. Barriers (R302 to R316): the counter tree, arrivals and releases, the round state of cores, tickets, and the
barrier fault record.
-/
namespace Sys2Proof.Machine

/-! ### The tree -/

/-- The routers of the tree of a barrier in a hall (R302). -/
def State.barTree (s : State) (h : HallId) (b : Nat) : List Nat :=
  ((s.barMembers h b).flatMap fun i => routerPath 24 (s.routerOf h i) (s.barRoot h b)).eraseDups

/-- The branches that feed a router of the tree: the routers before it, and its own core when that is a member (R302). -/
def State.barBranches (s : State) (h : HallId) (b r : Nat) : Nat :=
  let root := s.barRoot h b
  ((s.barTree h b).filter fun q => q ≠ root && nextRouter q root == r).length
    + b2n ((s.barMembers h b).any fun i => s.routerOf h i == r)

/-- An arrival is put on the wires toward a router. -/
def State.barWire (s : State) (h : HallId) (b r members : Nat) : State :=
  s.modHall h fun v => { v with bar := { v.bar with wires := v.bar.wires ++ [⟨b, r % 12, r / 12, members⟩] } }

/-- A local root sends its arrival to the root hall (R303), or has it refused at its router: the root hall lies in another partition
(R24). DESIGN CHOICE: the access error names the barrier's first member as its source, and the root hall's chamber window
(assumption log 56). -/
def State.barToRootHall (s : State) (h : HallId) (b : Nat) : State :=
  let g := s.barRootHall h b
  if s.samePart h g = false then
    s.accessError (.core ⟨coreAt h (Fin.ofNat 144 ((s.barMembers h b).headD 0)), 0⟩) (chamberBase (coreAt g 0)) true
  else s.modHall (s.barRootHall h b) fun v => { v with bar := { v.bar with hallWires := v.bar.hallWires ++ [(b, h.val)] } }

/-- A release of barrier `b` at the local root of a hall is a progress mark when PROG_CFG says so (R439, R440). -/
def State.barMark (s : State) (h : HallId) (b : Nat) : State :=
  let p := hallPage h 0x84
  let w := s.applWord p 0x190
  if wbit w 24 && fieldOf w 17 7 == b then s.progMark h else s

/-- The local root of a hall releases: the count of its releases, and a new round at its root (R302, R316). -/
def State.barReleaseHall (s : State) (h : HallId) (b : Nat) : State :=
  let root := s.barRoot h b
  let s := s.modHall h fun v =>
    { v with bar := { v.bar with
        rel := SMap.set v.bar.rel b 0 (SMap.get v.bar.rel b 0 + 1)
        count := SMap.erase v.bar.count (b * 156 + root) } }
  (s.count64 (hallPage h 0x23) 0x800 1).barMark h b

/-- An arrival reaches a router of the tree of a hall (R302). -/
def State.barAtRouter (s : State) (h : HallId) (b r members : Nat) : State :=
  let old := SMap.get (s.hall h).bar.count (b * 156 + r) ⟨0, 0⟩
  let new : BarCount := ⟨old.branches + 1, old.members + members⟩
  let full := decide (s.barBranches h b r ≤ new.branches)
  let root := s.barRoot h b
  if full && r != root then
    let s := s.modHall h fun v => { v with bar := { v.bar with count := SMap.erase v.bar.count (b * 156 + r) } }
    s.barWire h b (nextRouter r root) new.members
  else
    let s := s.modHall h fun v => { v with bar := { v.bar with count := SMap.put v.bar.count (b * 156 + r) new } }
    if !full then s else if b < 64 then s.barReleaseHall h b else s.barToRootHall h b

/-- The ports whose arrivals the root hall counts: enabled, ROLE 1, and up, or failed in the round before their arrival came: such a
round stays unreleased (R314, R383). -/
def State.childPorts (s : State) (h : HallId) (b : Nat) : List PortId :=
  (s.partPorts h).filter fun p =>
    s.portEn p && s.xbarRole p b == 1 && (s.portUp p || (s.hall h).bar.lost.contains (b, p.val))

/-- The port that leads to the parent of a barrier, if one does (R383). -/
def State.parentPort (s : State) (h : HallId) (b : Nat) : Option PortId :=
  (s.partPorts h).find? fun p => s.portEn p && s.xbarRole p b == 2

/-- The round of a barrier at its root hall: the releases issued there. -/
def State.barRound (s : State) (h : HallId) (b : Nat) : BitVec 16 := SMap.get (s.hall h).bar.rel b 0

/-- The root hall counts every enabling hall: its arrival has come, or it has no member and counts as arrived in every round
(R303). -/
def State.barHallsIn (s : State) (h : HallId) (b : Nat) : Bool :=
  (s.barHalls h b).all fun g => (s.barCounted h b).contains g.val

/-- A round that counts nothing but halls without members is complete at once: its arrival goes to the parent (R303, R383). -/
def State.barAtOnce (s : State) (h : HallId) (b : Nat) : State :=
  match s.parentPort h b with
  | none => s
  | some p =>
    if s.barRootHall h b = h ∧ s.barEn h b = true ∧ s.barEmpty h b = true ∧ s.childPorts h b = [] then
      s.sendBarrier p false b (s.barRound h b)
    else s

/-- The round of a partition barrier is released: through the child ports first, then in every hall that enables it (R303,
R383). -/
def State.barReleaseAll (s : State) (h : HallId) (b : Nat) : State :=
  let r := s.barRound h b
  let s := s.modHall h fun v => { v with bar := { v.bar with halls := SMap.erase v.bar.halls b } }
  let s := ((s.partPorts h).filter fun p => s.xbarRole p b == 1).foldl (fun s p => s.sendBarrier p true b r) s
  ((s.barHalls h b).foldl (fun s g => s.barReleaseHall g b) s).barAtOnce h b

/-- An arrival is counted at the root hall, of a hall under its number or of a port under 8 and its number; with all counted
the round is released, or its arrival goes to the parent (R303, R305, R383). -/
def State.barAtRootHall (s : State) (h : HallId) (b : Nat) (src : Nat) : State :=
  let l := (SMap.get (s.hall h).bar.halls b []).filter (· ≠ src) ++ [src]
  let s' := s.modHall h fun v => { v with bar := { v.bar with halls := SMap.put v.bar.halls b l } }
  if s'.barHallsIn h b && (s.childPorts h b).all fun p => l.contains (8 + p.val) then
    match s.parentPort h b with
    | some p => s'.sendBarrier p false b (s.barRound h b)
    | none => s'.barReleaseAll h b
  else s'

/-- The root hall of a partition barrier of the partition of a hall: what the enabling halls name (R304). -/
def State.partRootHall (s : State) (h : HallId) (b : Nat) : Option HallId :=
  ((s.partHalls h).find? fun g => s.barEn g b).map fun g => s.barRootHall g b

/-- A release that arrives through a port releases its round, when the port leads to the parent and the arrival for the round
has gone there (R383). -/
def State.barFromParent (s : State) (p : PortId) (b : Nat) (round : BitVec 16) : State :=
  match s.partRootHall (portHall p.val) b with
  | none => s
  | some h =>
    if s.xbarRole p b = 2 ∧ s.barRound h b = round ∧ s.barHallsIn h b = true then
      s.barReleaseAll h b
    else s

/-- A waiting arrival is taken off the wires: its members. -/
def takeWire (b r : Nat) : List BarWire → Option (Nat × List BarWire)
  | [] => none
  | w :: t =>
    if w.id = b ∧ w.col + 12 * w.row = r then some (w.members, t)
    else (takeWire b r t).map fun p => (p.1, w :: p.2)

/-- An arrival arrives where the wires bring it (R302, R303). -/
def State.barArriveAt (s : State) (h : HallId) (b : Nat) : ArriveAt → State
  | .router col row =>
    let r := col.val + 12 * row.val
    match takeWire b r (s.hall h).bar.wires with
    | none => s
    | some (m, t) => (s.modHall h fun v => { v with bar := { v.bar with wires := t } }).barAtRouter h b r m
  | .rootHall src =>
    if (s.hall h).bar.hallWires.contains (b, src.val) then
      (s.modHall h fun v =>
        { v with bar := { v.bar with hallWires := v.bar.hallWires.erase (b, src.val) } }).barAtRootHall h b src.val
    else s
  | .port p round =>
    if (s.hall h).bar.portWires.contains (b, p.val, round) then
      let s := s.modHall h fun v =>
        { v with bar := { v.bar with portWires := v.bar.portWires.erase (b, p.val, round) } }
      if (s.childPorts h b).contains p && s.barRound h b == round then s.barAtRootHall h b (8 + p.val) else s
    else s

/-- An arrival of another module comes through a port, and goes to the root hall of its barrier (R383). -/
def State.barFromChild (s : State) (p : PortId) (b : Nat) (round : BitVec 16) : State :=
  match s.partRootHall (portHall p.val) b with
  | none => s
  | some h => s.modHall h fun v => { v with bar := { v.bar with portWires := v.bar.portWires ++ [(b, p.val, round)] } }

/-- A port that carries packets fails: the rounds for which it has brought no arrival stay unreleased (R314, R383). -/
def State.barPortFailed (s : State) (p : PortId) : State :=
  (List.range 16).foldl (fun s i =>
    let b := 64 + i
    match s.partRootHall (portHall p.val) b with
    | none => s
    | some h =>
      if s.xbarRole p b = 1 ∧ (SMap.get (s.hall h).bar.halls b []).contains (8 + p.val) = false then
        s.modHall h fun v => { v with bar := { v.bar with lost := v.bar.lost ++ [(b, p.val)] } }
      else s) s

/-! ### Cores -/

/-- A core's arrival for its round goes to the tree once the accesses before it are performed (R268, R307). -/
def State.barSend (s : State) (c : CoreId) (b seq : Nat) : State :=
  let held := s.outstanding c 0xF seq || s.published c seq
  let s := s.modCore c fun k =>
    k.setBar b { k.barOf b with sent := true, holdSeq := if held then some seq else none }
  if held then s else s.barWire c.hall b (s.routerOf c.hall c.index) 1

/-- Arrivals that nothing holds any longer go to the tree. -/
def State.releaseArrivals (s : State) (c : CoreId) : State :=
  (s.core c).bar.foldl (fun s p =>
    match p.2.holdSeq with
    | some n => s.barSend c p.1 n
    | none => s) s

/-- The barrier fault of a thread (R311, R312): the record, the hall's ERR bit, then vector 8. -/
def State.barFault (s : State) (x : Site) (cause id : Nat) (waitb : Bool) : Res :=
  let t := s.thread x
  let pc := if t.rep.isSome then t.pc + 1 else t.pc
  let s := s.setLive (corePage x.core 0) (0xA80 + 4 * x.thread.val)
    (w32 (cause + id * 2 ^ 3 + b2n waitb * 2 ^ 10 + pc.toNat * 2 ^ 11))
  .raise (s.recordErr (hallPage x.hall 0x20) 0) 8

/-- The thread's ticket (R307). -/
def State.setTicket (s : State) (x : Site) (t : Option Ticket) : State := s.modThread x fun h => { h with ticket := t }

/-- ARRIVE (R307, R310, R311). -/
def State.arrive (s : State) (x : Site) (b : Nat) : Res :=
  let c := x.core
  let h := x.hall
  let k := s.core c
  let v := k.barOf b
  let n := s.barArrivals h b
  let id := BitVec.ofNat 7 b
  if !s.barEn h b then s.barFault x 1 b false
  else if s.barEmpty h b then .done (s.setTicket x (some ⟨id, v.rel - 1⟩))
  else if !s.barMember h b c.index then s.barFault x 2 b false
  else if v.sent && v.next.toNat == n then s.barFault x 3 b false
  else if v.sent then
    .done ((s.setCore c (k.setBar b { v with next := v.next + 1, nextSeq := k.issueSeq })).setTicket x
      (some ⟨id, v.rel + 1⟩))
  else
    let s := (s.setCore c (k.setBar b { v with arr := v.arr + 1 })).setTicket x (some ⟨id, v.rel⟩)
    .done (if (v.arr + 1).toNat = n then s.barSend c b k.issueSeq else s)

/-- WAITB (R308, R311). -/
def State.waitb (s : State) (x : Site) (b : Nat) : Res :=
  if !s.barEn x.hall b then s.barFault x 1 b true
  else match (s.thread x).ticket with
    | none => s.barFault x 4 b true
    | some t =>
      if t.id.toNat ≠ b then s.barFault x 4 b true
      else if (s.core x.core).ticketOpen t then .wait .barrier
      else .done (s.setTicket x none)

/-- A release reaches a member core (R309, R313). -/
def State.barReleased (s : State) (c : CoreId) (b : Nat) : State :=
  let h := c.hall
  let v := (s.core c).barOf b
  if !s.barMember h b c.index || v.rel == SMap.get (s.hall h).bar.rel b 0 then s
  else
    let s := s.modCore c fun k =>
      k.setBar b { v with rel := v.rel + 1, arr := v.next, next := 0, sent := false, holdSeq := none }
    let g := s.bcfg h b
    let x : Site := ⟨c, Fin.ofNat 4 (fieldOf g 12 2)⟩
    let s := if wbit g 11 then s.pend x 34 else s
    let s := if wbit g 14 then s.setEvent x (fieldOf g 15 5) else s
    if v.next.toNat = s.barArrivals h b then s.barSend c b v.nextSeq else s

/-- What a context switch of a hall clears of its barriers (R315); the first round of a
barrier that only halls without members enable is complete at once (R303). -/
def State.switchBarriers (s : State) (h : HallId) : State :=
  let s := s.modHall h fun v => { v with bar := BarTree.zero }
  let s := s.modHallCores h fun k =>
    { k with bar := [], threads := k.threads.map fun p => (p.1, { p.2 with ticket := none, ev := 0 }) }
  (List.range 16).foldl (fun s i => s.barAtOnce h (64 + i)) s

end Sys2Proof.Machine
end

