-- ==== Sys2Proof/Machine/Traps.lean ====
section
/-!
DEFINITION. The decoding checks of instructions (R207): for each the EMUL code with which it raises the emulation trap in a
ring, if it does (R201 for rings; R187 to R206 for fields). The queue instructions' own checks stand in `Machine/Vector.lean`.
-/
namespace Sys2Proof.Machine

/-- OP (R187): FUNC above 0x018 is reserved, and RB is zero for the extensions. -/
def opTrap (f : FmtR) : Option Nat := reservedIf (decide (0x018 < f.func) || (decide (0x015 ≤ f.func) && f.rb != 0))

/-- Operations of FOP whose RB is zero (R189). -/
def fopUnary (n : Nat) : Bool := decide (5 ≤ n ∧ n ≤ 9)

/-- FOP (R189). -/
def fopTrap (f : FmtR) : Option Nat :=
  let n := f.func.toNat % 32
  reservedIf (decide (f.func.toNat ≥ 64) || decide (12 < n) || (fopUnary n && f.rb != 0))

/-- LD (R195). -/
def ldTrap (f : FmtM) : Option Nat :=
  reservedIf (f.size == 3 || (f.size == 2 && f.u == 1) || (f.pi == 1 && (f.ra == 0 || f.rt == f.ra)))

/-- ST (R195). -/
def stTrap (f : FmtM) : Option Nat := reservedIf (f.size == 3 || f.u == 1 || (f.pi == 1 && f.ra == 0))

/-- The fields of a JR function that uses RA, or not (R197). -/
def jrTrap (useRa : Bool) (f : FmtK) : Option Nat :=
  reservedIf (f.zeroHi != 0 || f.zeroLo != 0 || (!useRa && f.ra != 0))

/-- A SYS function: whether it uses RD and RA, and the number below which N must lie (R200). -/
def sysBad (useRd useRa : Bool) (n : Nat) (f : FmtX) : Bool :=
  (!useRd && f.rd != 0) || (!useRa && f.ra != 0) || decide (n ≤ f.n.toNat)

/-- LSEG (R193, R201, R207): to seg0, EMUL 5; to seg2, only in rings 0 and 1. -/
def lsegTrap (r : BitVec 2) (f : FmtX) : Option Nat :=
  if sysBad true true 8 f || decide (8 ≤ f.rd.toNat) then some 2
  else if f.n = 0 then some 5
  else if f.n = 2 ∧ 2 ≤ r then some 3
  else none

/-- A CHAN function on one of 32 channels, rings or sumps: which of RD, RA, RB it uses (R203). -/
def chanTrap (rd ra rb : Bool) (f : FmtC) : Option Nat :=
  reservedIf (decide (32 ≤ f.id.toNat) || (!rd && f.rd != 0) || (!ra && f.ra != 0) || (!rb && f.rb != 0))

/-- ARRIVE and WAITB (R203). -/
def barTrap (f : FmtC) : Option Nat :=
  reservedIf (decide (80 ≤ f.id.toNat) || f.rd != 0 || f.ra != 0 || f.rb != 0)

/-- TCFG (R88): the reserved form, and unused fields of the register form. -/
def tcfgTrap (form : TcfgForm) (f : FmtTcfg) : Option Nat :=
  match form with
  | .reserved => some 2
  | .imm => none
  | .reg => reservedIf (f.rows.getLsbD 0 || f.bpr != 0 || f.fmt != 0 || f.scaled != 0 || f.stile != 0)

/-- TSHR (R88). -/
def tshrTrap (f : FmtTcfg) : Option Nat :=
  reservedIf (f.rows.getLsbD 0 || f.bpr != 0 || f.fmt != 0 || f.scaled != 0 || f.stile != 0)

/-- TLD and TST (R55, R95): a reserved MFMT code. -/
def tlsTrap (f : FmtTls) : Option Nat := reservedIf (decide (12 ≤ f.mfmt) || f.zero != 0)

/-- TLDX (R55, R101): a reserved MFMT code, or MREG without MASKEN. -/
def tldxTrap (f : FmtTldx) : Option Nat :=
  reservedIf (decide (12 ≤ f.mfmt) || f.zero != 0 || (f.masken == 0 && f.mreg != 0))

/-- The decoding checks of an instruction executed in ring `r` (R207); other commands have none. -/
def trapOf (r : BitVec 2) : Instr → Option Nat
  | .op _ f => opTrap f
  | .shi _ f => reservedIf (f.kind == 3 || f.zero != 0)
  | .fop _ f => fopTrap f
  | .ld _ f => ldTrap f
  | .st _ f => stTrap f
  | .br _ f => reservedIf (decide (6 ≤ f.cond))
  | .jmp _ f => reservedIf (f.zero != 0)
  | .call _ f => reservedIf (f.zero != 0)
  | .jmpr _ f => jrTrap true f
  | .callr _ f => jrTrap true f
  | .ret _ f => jrTrap false f
  | .xret _ f => jrTrap false f
  | .retg _ f => jrTrap false f
  | .gate _ f => reservedIf (f.zero != 0)
  | .rep _ f => reservedIf (f.zeroHi != 0 || f.zeroLo != 0)
  | .repL _ f => reservedIf (f.zero != 0)
  | .crd _ f => reservedIf (sysBad true false 16 f)
  | .cwr _ f => reservedIf (sysBad false true 16 f)
  | .cswap _ f => reservedIf (sysBad true true 16 f)
  | .cadd _ f => reservedIf (sysBad true true 16 f)
  | .signal _ f => reservedIf (sysBad false true 4 f)
  | .waitAny _ f => reservedIf (sysBad true true 1 f)
  | .waitAll _ f => reservedIf (sysBad true true 1 f)
  | .park _ f => ringTrap (sysBad false false 1 f) (r == 3)
  | .setpri _ f => ringTrap (sysBad false false 4 f) (decide (2 ≤ r))
  | .lseg _ f => lsegTrap r f
  | .sseg _ f => reservedIf (sysBad true true 8 f || decide (8 ≤ f.rd.toNat))
  | .rdcyc _ f => reservedIf (sysBad true false 1 f)
  | .rdcych _ f => reservedIf (sysBad true false 1 f)
  | .settmr _ f => reservedIf (sysBad false true 32 f)
  | .trdZero _ f => reservedIf (sysBad true false 16 f)
  | .trdSat _ f => reservedIf (sysBad true false 16 f)
  | .trdNan _ f => reservedIf (sysBad true false 16 f)
  | .tclr _ f => reservedIf (sysBad false false 16 f)
  | .qdisc _ f => ringTrap (sysBad false false 8 f || f.n.toNat % 4 == 3) (r == 3)
  | .rsrd _ f => reservedIf (sysBad true false 17 f)
  | .rswr _ f => ringTrap (sysBad false true 17 f) (decide (2 ≤ r))
  | .rdver _ f => reservedIf (sysBad true false 1 f)
  | .rdflt _ f => reservedIf (sysBad true false 4 f)
  | .brk _ f => reservedIf (sysBad false false 1 f)
  | .fence _ f => reservedIf (f.zero != 0)
  | .publish _ f => reservedIf (f.zero != 0 || f.dst != 0)
  | .wrch _ f => chanTrap false true true f
  | .wrchb _ f => reservedIf ((chanTrap true true true f).isSome || decide (8 ≤ f.rd.toNat))
  | .close _ f => chanTrap false true false f
  | .recv _ f => chanTrap true false false f
  | .rfree _ f => chanTrap false true false f
  | .sumparm _ f => chanTrap false true false f
  | .arrive _ f => barTrap f
  | .waitb _ f => barTrap f
  | .vop _ f => vopTrap f
  | .vfma _ f => vfmaTrap f
  | .vcmp _ f => vcmpTrap f
  | .vperm _ f => vpermTrap f
  | .vmac _ f => vmacTrap f
  | .vaddac _ f => vmacTrap f
  | .vred _ f => vredTrap f
  | .vcvt _ f => vcvtTrap f
  | .vtr _ f => vtrTrap f
  | .vld _ f => vlsTrap true f
  | .vst _ f => vlsTrap false f
  | .vmvf _ f => vmvTrap f
  | .vmvt _ f => vmvTrap f
  | .vmask _ f => vmaskTrap f
  | .tcfg _ form f => tcfgTrap form f
  | .tshr _ f => tshrTrap f
  | .tld _ f => tlsTrap f
  | .tst _ f => tlsTrap f
  | .tldx _ f => tldxTrap f
  | .tzero _ f => reservedIf (f.zero != 0)
  | .mma _ f => reservedIf (f.zero != 0)
  | .token _ f => reservedIf (f.q == 3 || f.zero != 0)
  | .dmaq _ f => reservedIf (f.zero != 0)
  | _ => none

/-- A thread issues an instruction under its decoding checks. -/
def State.run (s : State) (x : Site) (i : Instr) (f : State → Res) : Outcome :=
  s.issue x i (trapOf (s.thread x).ring i) f

/-! ### Repeat prefixes -/

/-- Whether a word may not stand under a prefix by its opcode (R205, R206): `lock` for REP.L. -/
def pairBad (lock : Bool) (w : Word) : Bool :=
  let o := fieldOf w 25 7
  if lock then !(decide (1 ≤ o ∧ o ≤ 0x0A) || o == 0x10 || o == 0x11 || (o == 0x20 && decide (fieldOf w 0 10 < 4)))
  else decide (0x18 ≤ o ∧ o ≤ 0x1E) || decide (0x60 ≤ o ∧ o ≤ 0x64)

/-- The EMUL code of the word behind a prefix (R206, R207): reserved opcode, pairing, then its own decoding; or the
instruction. `cnt` is REP's count register, none for REP.L (assumption log 18). -/
def underPrefix (x : Site) (r : BitVec 2) (cnt : Option (BitVec 5)) (w : Word) : Except Nat Instr :=
  if !opcodeAssigned w then .error 1
  else if pairBad cnt.isNone w then .error 4
  else match ofWord x w with
    | none => .error 2
    | some i =>
      if (match cnt with | some g => (namedRegs i).contains g | none => false) then .error 4
      else match trapOf r i with
        | some k => .error k
        | none => .ok i

/-- A repeat prefix with its count, of which `limit` is the highest (R204 to R206): the word behind it is checked first. -/
def State.prefixed (s : State) (x : Site) (cnt : Option (BitVec 5)) (limit n : Nat) : Res :=
  let t := s.thread x
  match s.fetch x (t.pc + 1) with
  | (s, .error f) => .faultNext s f 0
  | (s, .ok w) =>
    match underPrefix x t.ring cnt w with
    | .error k => .faultNext s (emulTrap k) w
    | .ok _ =>
      if limit < n then .fault s (emulTrap 2)
      else if n = 0 then .jump s (t.pc + 2)
      else .entered (s.modThread x fun t => { t with rep := some ⟨w, cnt, n⟩, replCnt := none, wait := none })

end Sys2Proof.Machine
end

