-- ==== Sys2Proof/Machine/Engines.lean ====
section
/-!
DEFINITION. The queues of the hall engines (R317 to R330): producer writes, starting, stopping and completing descriptors, the
completion record and its signals, RESUME and DISCARD, and the loop that performs a descriptor's units.
-/
namespace Sys2Proof.Machine

/-! ### Registers of a queue -/

/-- The byte address of slot 0 and the slots of queue `q` as applied (R318). -/
def State.engBase (s : State) (h : HallId) (n : Fin 9) (q : Fin 4) : Nat :=
  let p := enginePage h n.val
  (s.applWord p (0x100 + 16 * q.val)).toNat / 64 * 64 + fieldOf (s.applWord p (0x104 + 16 * q.val)) 0 16 * 2 ^ 32
def State.engEntries (s : State) (h : HallId) (n : Fin 9) (q : Fin 4) : Nat :=
  fieldOf (s.applWord (enginePage h n.val) (0x108 + 16 * q.val)) 0 9

/-- PROD, CONS and STATE of a queue (R319). -/
def State.engProd (s : State) (h : HallId) (n : Fin 9) (q : Fin 4) : Nat :=
  s.field (enginePage h n.val) (0x800 + 16 * q.val) 0 9
def State.engCons (s : State) (h : HallId) (n : Fin 9) (q : Fin 4) : Nat :=
  s.field (enginePage h n.val) (0x804 + 16 * q.val) 0 9
def State.engState (s : State) (h : HallId) (n : Fin 9) (q : Fin 4) : Nat :=
  s.field (enginePage h n.val) (0x808 + 16 * q.val) 0 2

/-- The registers of a queue are written. -/
def State.setProd (s : State) (h : HallId) (n : Fin 9) (q : Fin 4) (v : Nat) : State :=
  s.setLive (enginePage h n.val) (0x800 + 16 * q.val) (w32 (v % 512))
def State.setCons (s : State) (h : HallId) (n : Fin 9) (q : Fin 4) (v : Nat) : State :=
  s.setLive (enginePage h n.val) (0x804 + 16 * q.val) (w32 (v % 512))
def State.setQStat (s : State) (h : HallId) (n : Fin 9) (q : Fin 4) (state status : Nat) : State :=
  s.setLive (enginePage h n.val) (0x808 + 16 * q.val) (w32 (state + status * 4))

/-- The key of a queue among a hall's. -/
def engKey (n : Fin 9) (q : Fin 4) : Nat := n.val * 4 + q.val

/-- The descriptor under way or stopped in a queue. -/
def State.engRun (s : State) (h : HallId) (n : Fin 9) (q : Fin 4) : EngRun := SMap.get (s.hall h).engines (engKey n q) EngRun.idle

/-- The state with it replaced. -/
def State.setRun (s : State) (h : HallId) (n : Fin 9) (q : Fin 4) (r : EngRun) : State :=
  s.modHall h fun v => { v with engines := SMap.set v.engines (engKey n q) EngRun.idle r }

/-! ### Descriptors -/

/-- `len` bytes of a descriptor from byte `off`, as a number. -/
def dget (d : List Byte) (off len : Nat) : Nat := bytesNat ((d.drop off).take len)

/-- Fields of the common header (R323). -/
def dOp (d : List Byte) : Nat := dget d 0 1
def dRm (d : List Byte) : Bool := bitOf (dget d 1 1) 0
def dTally (d : List Byte) : Nat := bitsOf (dget d 2 1) 0 4
def dEfmt (d : List Byte) : Nat := bitsOf (dget d 2 1) 4 4
def dCrec (d : List Byte) : Nat := dget d 8 8

/-- Whether INT or EVEN is set and CORE names no core of the hall (R323). -/
def badSignal (h : HallId) (d : List Byte) : Bool :=
  bitsOf (dget d 1 1) 1 2 != 0 && dget d 4 2 % 2 ^ 11 / 144 != h.val

/-- The greatest OP of an engine (R334, R337, R339, R343, R344, R346). -/
def engMaxOp (n : Fin 9) : Nat := if n.val ≤ 1 then 2 else if n.val ≤ 3 then 1 else 3

/-- The descriptor errors of the common header and of an OP that the engine does not have (R323, R64). -/
def badHeader (h : HallId) (n : Fin 9) (d : List Byte) : Bool :=
  let rmOk := n == 0 && (dOp d == 1 || dOp d == 2)
  let efmtUsed := n == 3 || decide (5 ≤ n.val)
  badSignal h d || decide (engMaxOp n < dOp d) || (dRm d && !rmOk) || bitsOf (dget d 3 1) 2 6 != 0
    || bitsOf (dget d 4 2) 11 5 != 0 || dget d 6 2 != 0 || dCrec d % 16 != 0 || decide (2 ^ 48 ≤ dCrec d)
    || (if efmtUsed then decide (12 ≤ dEfmt d) else dEfmt d != 0)
    || ((n == 1 || n == 2 || n == 4) && dTally d != 0)
    || (dOp d == 0 && dget d 16 48 != 0)

/-- Whether a descriptor draws drip bits (R329). -/
def drawsDrip (n : Fin 9) (d : List Byte) : Bool :=
  (n == 0 && (dOp d == 1 || dOp d == 2) && !dRm d) || (n == 2 && dOp d == 1)

/-- Whether its completion advances the drip counter (R70, R340): it draws and is not of length zero. DESIGN CHOICE: a POOL with bags all
of which are empty is not of length zero, on which the spec says nothing (assumption log 41). -/
def advancesDrip (n : Fin 9) (d : List Byte) : Bool :=
  drawsDrip n d &&
    (if n == 2 then dget d 16 4 != 0 && dget d 20 4 != 0
     else if dOp d == 1 then dget d 24 4 != 0 else dget d 20 4 != 0)

/-- Another queue of the engine runs or is stopped at a drip-drawing descriptor (R329). -/
def State.dripBusy (s : State) (h : HallId) (n : Fin 9) (q : Fin 4) : Bool :=
  (List.finRange 4).any fun p => p != q && s.engState h n p != 0 && drawsDrip n (s.engRun h n p).desc

/-! ### Ends of a descriptor -/

/-- The completion record (R325). -/
def recordBytes (status q index result resume detail : Nat) (stopped : Bool) : List Byte :=
  natBytes 1 status ++ natBytes 1 (b2n stopped + q * 2) ++ natBytes 2 index ++ natBytes 4 result ++ natBytes 4 resume
    ++ natBytes 4 detail

/-- The record of the descriptor of a queue is written, when CREC names one (R323, R324). -/
def State.writeRecord (s : State) (h : HallId) (n : Fin 9) (q : Fin 4) (r : EngRun) (status resume detail : Nat)
    (stopped : Bool) : State :=
  if dCrec r.desc = 0 ∨ dCrec r.desc % 16 ≠ 0 ∨ 2 ^ 48 ≤ dCrec r.desc then s
  else s.agentWrite (.engine h n) (dCrec r.desc) (recordBytes status q.val (s.engCons h n q) r.result resume detail stopped)
    { obs := q.val }

/-- Whether the record of a descriptor has to wait at its memory. -/
def State.recordStalls (s : State) (h : HallId) (n : Fin 9) (d : List Byte) : Bool :=
  dCrec d != 0 && dCrec d % 16 == 0 && decide (dCrec d < 2 ^ 48) && s.writeStalls (.engine h n) (dCrec d) 16

/-- Whether a memory has still to perform a write of an engine's queue (R324). -/
def State.engWrites (s : State) (h : HallId) (n : Fin 9) (q : Fin 4) : Bool :=
  (List.finRange 8).any fun g => ((s.hall g).nearHeld ++ (s.hall g).galHeld).any fun w =>
    w.agent == Agent.engine h n && w.obs == q.val

/-- The signals of a descriptor (R324). -/
def State.engSignal (s : State) (h : HallId) (d : List Byte) : State :=
  if badSignal h d then s
  else
    let fl := dget d 1 1
    let x : Site := ⟨Fin.ofNat 1152 (bitsOf (dget d 4 2) 0 11), Fin.ofNat 4 (bitsOf (dget d 3 1) 0 2)⟩
    let s := if bitOf fl 1 then s.pend x 38 else s
    if bitOf fl 2 then s.setEvent x (bitsOf fl 3 5) else s

/-- A queue stops at its descriptor (R326). Its signals come once its writes and its record are performed (R324). -/
def State.engStop (s : State) (h : HallId) (n : Fin 9) (q : Fin 4) (r : EngRun) (status detail : Nat) : State :=
  let s := s.writeRecord h n q r status r.unit detail true
  let late := s.engWrites h n q
  let s := (s.setRun h n q { r with sig := late }).setQStat h n q 2 status
  let s := (s.countSat (enginePage h n.val) 0x850 1).recordErr (enginePage h n.val) (status - 1)
  if late then s else s.engSignal h r.desc

/-- Signals that a stopped descriptor's held record kept back are raised once it is performed (R324, R326). -/
def State.engLate (s : State) (h : HallId) : State :=
  (List.finRange 9).foldl (fun s n => (List.finRange 4).foldl (fun s q =>
    let r := s.engRun h n q
    if r.sig && !s.engWrites h n q then (s.setRun h n q { r with sig := false }).engSignal h r.desc else s) s) s

/-- A queue stops at a descriptor that cannot be read (R326). -/
def State.engUnread (s : State) (h : HallId) (n : Fin 9) (q : Fin 4) : State :=
  let s := (s.setRun h n q { EngRun.idle with phase := .unread }).setQStat h n q 2 2
  (s.countSat (enginePage h n.val) 0x850 1).recordErr (enginePage h n.val) 1

/-- The drip counter of an engine's unit (R74). -/
def State.engDrip (s : State) (h : HallId) (n : Fin 9) : Nat := (s.liveWord (enginePage h n.val) 0x8F0).toNat

/-- The descriptor of a queue completes, its record performed (R324): the tallies, the drip counter (R70) and the signals. -/
def State.engFinish (s : State) (h : HallId) (n : Fin 9) (q : Fin 4) : State :=
  let r := s.engRun h n q
  let p := enginePage h n.val
  let s := ((s.setRun h n q EngRun.idle).setQStat h n q 0 0).setCons h n q (s.engCons h n q + 1)
  let s := s.count64 p 0x848 1
  let u : TallyUnit := .engine h n
  let t := dTally r.desc
  let s := if t = 0 then s else ((s.tallyAdd u t 3 r.zero).tallyAdd u t 2 r.sat).tallyAdd u t 1 r.nan
  let s := if advancesDrip n r.desc then s.setLive p 0x8F0 (s.liveWord p 0x8F0 + 1) else s
  s.engSignal h r.desc

/-- The descriptor of a queue whose work has ended and whose writes are performed completes (R324): the record is written, and the rest
follows once that write is performed. -/
def State.engComplete (s : State) (h : HallId) (n : Fin 9) (q : Fin 4) : State :=
  let r := s.engRun h n q
  let s := s.writeRecord h n q r r.status 0 0 false
  if s.engWrites h n q then s.setRun h n q { r with phase := .recorded } else s.engFinish h n q

/-- Counted elements join those of the descriptor (R77, R78). -/
def EngRun.count (r : EngRun) (f : Nat) (es : List Elem) : EngRun :=
  let cs := es.map (classify f)
  { r with zero := r.zero + cs.count 3, sat := r.sat + cs.count 2, nan := r.nan + cs.count 1 }

/-! ### Submitting and starting -/

/-- Whether a write of `p` to PROD is accepted (R320). -/
def prodOk (entries cons old p : Nat) : Bool :=
  entries != 0 && decide (ringDist cons old ≤ ringDist cons p) && decide (ringDist cons p ≤ entries)

/-- A write of Qq_PROD (R320); its reserved bits are ignored (R8). -/
def State.writeProd (s : State) (a : Agent) (h : HallId) (n : Fin 9) (q : Fin 4) (v : Word) : State :=
  if prodOk (s.engEntries h n q) (s.engCons h n q) (s.engProd h n q) (fieldOf v 0 9) then s.setProd h n q (fieldOf v 0 9)
  else s.ctlError a (enginePage h n.val * 4096 + 0x800 + 16 * q.val) true

/-- The address of the descriptor at CONS (R318). -/
def State.engSlot (s : State) (h : HallId) (n : Fin 9) (q : Fin 4) : Nat :=
  s.engBase h n q + s.engCons h n q % s.engEntries h n q * 64

/-- Whether the descriptor at CONS cannot start yet: its memory or its record's waits, or another drip-drawing descriptor stands
(R329). -/
def State.engWaits (s : State) (h : HallId) (n : Fin 9) (q : Fin 4) : Bool :=
  let a : Agent := .engine h n
  s.readStalls a (s.engSlot h n q) 64 ||
    let m := s.agentRead a (s.engSlot h n q) 64
    !m.poison && ((drawsDrip n m.data && s.dripBusy h n q) || (badHeader h n m.data && s.recordStalls h n m.data))

/-- The descriptor at CONS is read and starts, or stops its queue (R321, R323, R326). -/
def State.engRead (s : State) (h : HallId) (n : Fin 9) (q : Fin 4) : State :=
  if s.engWaits h n q then s
  else
    let m := s.agentRead (.engine h n) (s.engSlot h n q) 64
    if m.poison then m.st.engUnread h n q
    else
      let r : EngRun := { EngRun.idle with phase := .running, desc := m.data }
      if badHeader h n m.data then m.st.engStop h n q r 1 0
      else (m.st.setRun h n q r).setQStat h n q 1 0

/-- Whether a queue has a descriptor to start: its hall starts or runs, and its context switch is made (R321, R330). -/
def State.engCan (s : State) (h : HallId) (n : Fin 9) (q : Fin 4) : Bool :=
  (s.hallState h == 1 || s.hallState h == 2) && !(s.hall h).switching && s.engEntries h n q != 0 && s.engState h n q == 0
    && s.engProd h n q != s.engCons h n q && !s.engWaits h n q

/-- The queue that an engine serves next: round-robin from the one after the last it served (R321; DESIGN CHOICE: from queue 0 at reset,
and a context switch does not begin anew, assumption log 46). -/
def State.engNext (s : State) (h : HallId) (n : Fin 9) : Option (Fin 4) :=
  ((List.range 4).map fun i => Fin.ofNat 4 (SMap.get (s.hall h).lastQ n.val 3 + 1 + i)).find? (s.engCan h n)

/-- A queue starts its next submitted descriptor, in its turn (R321). -/
def State.engStart (s : State) (h : HallId) (n : Fin 9) (q : Fin 4) : State :=
  if s.engNext h n = some q then (s.modHall h fun v => { v with lastQ := SMap.set v.lastQ n.val 3 q.val }).engRead h n q else s

/-- RESUME (R327): the stopped descriptor goes on, or is read again. -/
def State.engResume (s : State) (h : HallId) (n : Fin 9) (q : Fin 4) : State :=
  if s.engState h n q ≠ 2 then s
  else
    let r := s.engRun h n q
    match r.phase with
    | .unread => ((s.setRun h n q EngRun.idle).setQStat h n q 0 0).engRead h n q
    | _ =>
      if badHeader h n r.desc then (if s.recordStalls h n r.desc then s else s.engStop h n q r 1 0)
      else (s.setRun h n q { r with phase := .running }).setQStat h n q 1 0

/-- Whether a requester of other modules is an engine. -/
def isEngine (h : HallId) (n : Fin 9) : Requester → Bool
  | .dma g d => g == h && d.val + 5 == n.val
  | .snapshot _ => false

/-- Whether a request outstanding at another module is one of the descriptor of a queue. -/
def reqOf (h : HallId) (n : Fin 9) (q : Fin 4) (r : RemReq) : Bool := isEngine h n r.who && r.q == q

/-- The requests of a removed descriptor are forgotten: it writes nothing further (R327). -/
def State.dropRequests (s : State) (h : HallId) (n : Fin 9) (q : Fin 4) : State :=
  { s with remote := s.remote.filter fun r => !reqOf h n q r }

/-- DISCARD (R327). -/
def State.engDiscard (s : State) (h : HallId) (n : Fin 9) (q : Fin 4) (all : Bool) : State :=
  if s.engState h n q ≠ 2 then s
  else
    (((s.dropRequests h n q).setRun h n q EngRun.idle).setQStat h n q 0 0).setCons h n q
      (if all then s.engProd h n q else s.engCons h n q + 1)

/-- A write of Qq_CTL (R319, R327). -/
def State.writeQCtl (s : State) (h : HallId) (n : Fin 9) (q : Fin 4) (v : Word) : State :=
  if wbit v 0 && wbit v 1 then s
  else if wbit v 0 then s.engResume h n q
  else if wbit v 1 then s.engDiscard h n q (wbit v 2)
  else s

/-- Whether some descriptor of a hall's engines is under way (R155, R330). -/
def State.engBusy (s : State) (h : HallId) : Bool :=
  (List.finRange 9).any fun n => (List.finRange 4).any fun q => s.engState h n q == 1

/-- What a context switch does to the engines of a hall (R330): every queue is emptied and what is stopped is dropped. -/
def State.engSwitch (s : State) (h : HallId) : State :=
  let s := s.modHall h fun v => { v with engines := [] }
  (List.finRange 9).foldl (fun s n =>
    (List.finRange 4).foldl (fun s q =>
      (((s.dropRequests h n q).setProd h n q 0).setCons h n q 0).setQStat h n q 0 0) s) s

/-! ### Performing a descriptor -/

/-- What a unit of a descriptor comes to. -/
inductive UnitRes where
  /-- performed; the next unit follows -/
  | go (s : State) (r : EngRun)
  /-- the descriptor's work has ended -/
  | fin (s : State) (r : EngRun)
  /-- it waits at a memory -/
  | stall
  /-- it stops with a status, at a byte of the unit -/
  | stop (s : State) (r : EngRun) (status detail : Nat)

/-- Units are performed in order, at most `fuel`. -/
def runUnits (f : State → EngRun → UnitRes) (h : HallId) (n : Fin 9) (q : Fin 4) : Nat → State → EngRun → State
  | 0, s, r => s.setRun h n q r
  | k + 1, s, r =>
    match f s r with
    | .go s r => runUnits f h n q k s r
    | .fin s r => s.setRun h n q { r with phase := .ended }
    | .stall => s.setRun h n q r
    | .stop t r' status detail => if t.recordStalls h n r'.desc then s.setRun h n q r else t.engStop h n q r' status detail

/-- The work of the descriptor under way in a queue, when it is one of operation `op`. -/
def State.engWork (s : State) (h : HallId) (n : Fin 9) (q : Fin 4) (op fuel : Nat) (f : State → EngRun → UnitRes) : State :=
  let r := s.engRun h n q
  if s.engState h n q = 1 ∧ r.phase = .running ∧ dOp r.desc = op then runUnits f h n q fuel s r else s

/-- What a read of an engine delivers. -/
inductive ERead where
  | stall
  /-- poisoned, first at this byte of the read -/
  | poison (s : State) (off : Nat)
  | ok (s : State) (data : List Byte)

/-- A read of an engine. -/
def State.eread (s : State) (a : Agent) (addr n : Nat) : ERead :=
  if s.readStalls a addr n then .stall
  else
    let m := s.agentRead a addr n
    if m.poison then
      .poison m.st (((pieces addr n).find? fun p => s.backs a p.1 && s.poisoned p.1).map (fun p => p.1 - addr) |>.getD 0)
    else .ok m.st m.data

/-- A descriptor address (R322): 48 bits in eight bytes. -/
def badAddr (d : List Byte) (off : Nat) : Bool := decide (2 ^ 48 ≤ dget d off 8)

/-- Whether two byte ranges meet. -/
def overlap (a n b m : Nat) : Bool := decide (a < b + m ∧ b < a + n ∧ 0 < n ∧ 0 < m)

/-- Whether a range lies in gallery memory of the partition of a hall. -/
def State.inPartGallery (s : State) (h : HallId) (a n : Nat) : Bool :=
  n == 0 || (match winOf a, winOf (a + n - 1) with
    | .gallery g _, .gallery g' _ => g == g' && s.samePart h g
    | _, _ => false)

end Sys2Proof.Machine
end

