-- ==== Sys2Proof/Machine/Siphon.lean ====
section
/-!
DEFINITION. The siphon (R331 to R336): tables, the remap, POOL and SCATTER.
-/
namespace Sys2Proof.Machine

/-! ### Tables -/

/-- A table as applied (R331). -/
structure SiphonTable where
  num : Nat
  base : Nat
  rows : Nat
  en : Bool
  bytes : Nat
  fmt : Nat
  remap : Bool
  stride : Nat
  rmap : Nat
  logsets : Nat
  slot : Nat
  nslots : Nat

/-- The registers of table `t` of a hall (R331). -/
def State.siphonTable (s : State) (h : HallId) (t : Nat) : SiphonTable :=
  let w (o : Nat) : Word := s.applWord (hallPage h 0x09) (0x100 + 64 * t + o)
  { num := t
    base := (w 0).toNat + fieldOf (w 4) 0 16 * 2 ^ 32, rows := (w 8).toNat + fieldOf (w 0xC) 0 8 * 2 ^ 32
    en := wbit (w 0x10) 0, bytes := (fieldOf (w 0x10) 1 8 + 1) * 16, fmt := fieldOf (w 0x10) 9 4, remap := wbit (w 0x10) 13
    stride := (w 0x14).toNat, rmap := (w 0x18).toNat / 64 * 64 + fieldOf (w 0x1C) 0 16 * 2 ^ 32
    logsets := fieldOf (w 0x1C) 16 5, slot := (w 0x20).toNat / 64 * 64 + fieldOf (w 0x24) 0 16 * 2 ^ 32
    nslots := fieldOf (w 0x28) 0 24 }

/-- Elements of a row (R331). -/
def SiphonTable.elems (t : SiphonTable) : Nat := t.bytes * 8 / fmtWidth t.fmt

/-- Bytes between slots (R331). -/
def SiphonTable.sstride (t : SiphonTable) : Nat := (t.bytes + 63) / 64 * 64

/-- What a step of the siphon comes to before it has a result: a value, a wait, or a stop with a status and DETAIL. -/
inductive SiphonRes (α : Type) where
  | ok (s : State) (v : α)
  | stall
  | stop (s : State) (status detail : Nat)

/-- Sequencing of such steps. -/
def SiphonRes.bind {α β : Type} (r : SiphonRes α) (f : State → α → SiphonRes β) : SiphonRes β :=
  match r with
  | .ok s v => f s v
  | .stall => .stall
  | .stop s k o => .stop s k o

/-- A read of the siphon: poison stops with status 2, and DETAIL is the byte of the read at which the first poisoned line begins (R325;
assumption log 52). -/
def State.siphonRead (s : State) (h : HallId) (addr n : Nat) : SiphonRes (List Byte) :=
  match s.eread (.engine h 0) addr n with
  | .stall => .stall
  | .poison s o => .stop s 2 o
  | .ok s d => .ok s d

/-- The first matching way of a remap set from way `w` on (R332): none, or the target or status 3. -/
def remapWay (t : SiphonTable) (i set : Nat) : List Nat → Option (Except Nat Nat)
  | [] => none
  | w :: ws =>
    let e := bitsOf set (128 * w) 128
    let kind := bitsOf e 40 2
    let target := bitsOf e 64 64
    if kind ≠ 0 ∧ bitsOf e 0 40 = i then
      if bitsOf e 42 22 ≠ 0 ∨ kind = 3 then some (.error 3)
      else if kind = 1 then
        if 2 ^ 24 ≤ target ∨ t.nslots ≤ target then some (.error 3) else some (.ok (t.slot + target * t.sstride))
      else if 2 ^ 48 ≤ target ∨ target % 16 ≠ 0 then some (.error 3)
      else some (.ok target)
    else remapWay t i set ws

/-- The address of row `i` of a table (R332), with the lookup counters (R333). -/
def State.rowAddr (s : State) (h : HallId) (t : SiphonTable) (i : Nat) : SiphonRes Nat :=
  if t.rows ≤ i then .stop s 4 0
  else
    let home := t.base + i * t.stride
    if !t.remap then .ok s home
    else
      (s.siphonRead h (t.rmap + i % 2 ^ t.logsets * 64) 64).bind fun s d =>
        match remapWay t i (bytesNat d) [0, 1, 2, 3] with
        | none => .ok (s.count64 (hallPage h 0x0A) (0x808 + 16 * t.num) 1) home
        | some r =>
          let s := s.count64 (hallPage h 0x0A) (0x800 + 16 * t.num) 1
          match r with
          | .ok a => .ok s a
          | .error k => .stop s k 0

/-! ### Descriptors -/

/-- Fields of a siphon descriptor (R334). -/
structure SiphonDesc where
  tab : Nat
  idx64 : Bool
  mode : Nat
  acc : Bool
  fmt : Nat
  wfmt : Nat
  nidx : Nat
  nbags : Nat
  stride : Nat
  idx : Nat
  list : Nat
  wts : Nat
  out : Nat
  rm : Bool

/-- The fields of its bytes. -/
def siphonDesc (d : List Byte) : SiphonDesc :=
  { tab := bitsOf (dget d 16 1) 0 4, idx64 := bitOf (dget d 16 1) 4, mode := bitsOf (dget d 17 1) 0 2
    acc := bitOf (dget d 17 1) 2, fmt := bitsOf (dget d 18 1) 0 4, wfmt := bitsOf (dget d 18 1) 4 4, nidx := dget d 20 4
    nbags := dget d 24 4, stride := dget d 28 4, idx := dget d 32 8, list := dget d 40 8, wts := dget d 48 8
    out := dget d 56 8, rm := dRm d }

/-- The weight formats (R334). -/
def weightFmt (f : Nat) : Bool := f == 8 || f == 9 || f == 10

/-- Errors that both operations share (R323, R334); a disabled table is one (assumption log 19). -/
def siphonBad (t : SiphonTable) (d : List Byte) : Bool :=
  let g := siphonDesc d
  !t.en || bitsOf (dget d 16 1) 5 3 != 0 || dget d 19 1 != 0 || decide (1048576 < g.nidx) || decide (1048576 < g.nbags)
    || g.stride % 16 != 0 || g.idx % (if g.idx64 then 8 else 4) != 0 || badAddr d 32 || badAddr d 40 || badAddr d 48
    || badAddr d 56

/-- Errors of POOL (R55, R334): a reserved WFMT code is one, whether weights are read or not. -/
def poolBad (t : SiphonTable) (d : List Byte) : Bool :=
  let g := siphonDesc d
  siphonBad t d || bitsOf (dget d 17 1) 3 5 != 0 || decide (12 ≤ g.wfmt)
    || (if fmtIsInt t.fmt then g.fmt != 2 else !weightFmt g.fmt)
    || (g.mode == 3 && (fmtIsInt t.fmt || !weightFmt g.wfmt)) || (g.mode == 1 && g.acc)

/-- Errors of SCATTER (R55, R334). -/
def scatterBad (t : SiphonTable) (d : List Byte) : Bool :=
  let g := siphonDesc d
  siphonBad t d || dget d 17 1 != 0 || decide (12 ≤ g.wfmt) || g.nbags != 0 || g.out != 0 || !(t.fmt == 2 || weightFmt t.fmt)
    || fmtClass g.fmt != fmtClass t.fmt || (g.wts != 0 && !weightFmt g.wfmt)

/-- Index entry `s` of a descriptor (R334). -/
def State.indexAt (st : State) (h : HallId) (g : SiphonDesc) (s : Nat) : SiphonRes Nat :=
  let n := if g.idx64 then 8 else 4
  (st.siphonRead h (g.idx + s * n) n).bind fun st d =>
    if 2 ^ 40 ≤ bytesNat d then .stop st 4 0 else .ok st (bytesNat d)

/-- The weight of step `s`; 1 when none is read. -/
def State.weightAt (st : State) (h : HallId) (g : SiphonDesc) (used : Bool) (s : Nat) : SiphonRes Num :=
  if used then (st.siphonRead h (g.wts + s * 2) 2).bind fun st d => .ok st (decodeNum g.wfmt (bytesNat d))
  else .ok st (.fin false 1 0)

/-- A rounding of an accumulating step (R335); into INT16 a value that is not whole rounds by R67's form. -/
def roundStep (f : Nat) (rm : Bool) (d12 : Nat) (v : Num) : Elem :=
  match v with
  | .fin neg m e => if fmtIsInt f ∧ e < 0 then roundInt16 rm d12 (scaledInt neg m 0 0) (-e).toNat else roundAcc f rm d12 v
  | .nan => roundAcc f rm d12 v

/-- Drip bits of element `e` of step `s` (R335). -/
def State.siphonDrip (st : State) (h : HallId) (s e : Nat) : Nat :=
  dripBits (st.seed h) (identSiphon h.val) (st.engDrip h 0) (s * 2048 + e)

/-- The exact value of an element of a pooling step (R335): `first` at a MAX bag's first step without ACC. -/
def poolValue (mode : Nat) (first : Bool) (acc x w : Num) : Num :=
  match mode with
  | 2 => if first then x else maxNum acc x
  | 3 => Num.sum [acc, w.mul x]
  | _ => Num.sum [acc, x]

/-- A pooling step on an accumulator row (R335). -/
def State.poolStep (st : State) (h : HallId) (g : SiphonDesc) (t : SiphonTable) (acc : List Elem) (s : Nat) (first : Bool) :
    SiphonRes (List Elem) :=
  (st.indexAt h g s).bind fun st i =>
  (st.weightAt h g (g.mode == 3) s).bind fun st w =>
  (st.rowAddr h t i).bind fun st a =>
  (st.siphonRead h a t.bytes).bind fun st d =>
    let xs := bitElems (fmtWidth t.fmt) t.elems (bytesNat d)
    .ok st (((acc.zip xs).zipIdx).map fun (p, e) =>
      roundStep g.fmt g.rm (st.siphonDrip h s e)
        (poolValue g.mode first (decodeNum g.fmt p.1.bits) (decodeNum t.fmt p.2) w))

/-- The steps of a bag from step `s`, `n` of them. -/
def State.poolSteps (st : State) (h : HallId) (g : SiphonDesc) (t : SiphonTable) (acc : List Elem) (s : Nat) (first : Bool) :
    Nat → SiphonRes (List Elem)
  | 0 => .ok st acc
  | n + 1 => (st.poolStep h g t acc s first).bind fun st acc => st.poolSteps h g t acc (s + 1) false n

/-- A value divided by a count, kept exact enough to round once (R335). -/
def Num.divNat (v : Num) (n : Nat) : Num :=
  match v with
  | .fin neg m e => .fin neg (stickyDiv (m * 2 ^ 64) n) (e - 65)
  | .nan => .nan

/-- The bytes of a row of elements. -/
def rowBytes (f : Nat) (es : List Elem) : List Byte := natBytes (fmtWidth f * es.length / 8) (packElems (fmtWidth f) (es.map Elem.bits))

/-- The accumulator row with which bag `b` starts (R335). -/
def State.bagStart (st : State) (h : HallId) (g : SiphonDesc) (t : SiphonTable) (b : Nat) : SiphonRes (List Elem) :=
  if g.acc then
    (st.siphonRead h (g.out + b * g.stride) (t.elems * 2)).bind fun st d =>
      .ok st ((bitElems 16 t.elems (bytesNat d)).map Elem.ofBits)
  else .ok st (List.replicate t.elems (Elem.ofBits 0))

/-- The row that bag `b` writes, of `len` steps from `s`; none: the row stays (R335). DESIGN CHOICE: an element counts as SAT by its last
rounding alone, MEAN's division or the last step; the spec leaves open whether an earlier one that saturated counts (R77; assumption
log 53). -/
def State.bagRow (st : State) (h : HallId) (g : SiphonDesc) (t : SiphonTable) (b s len : Nat) : SiphonRes (Option (List Elem)) :=
  if len = 0 then .ok st (if g.acc then none else some (List.replicate t.elems (Elem.ofBits 0)))
  else
    (st.bagStart h g t b).bind fun st acc =>
    (st.poolSteps h g t acc s (!g.acc) len).bind fun st es =>
      .ok st (some (if g.mode = 1 then es.map fun e => roundNE g.fmt ((decodeNum g.fmt e.bits).divNat len) else es))

/-- The bag lengths of a POOL are read, before its first step (R334). -/
def State.poolList (h : HallId) (st : State) (r : EngRun) : UnitRes :=
  let g := siphonDesc r.desc
  match st.siphonRead h g.list (2 * g.nbags) with
  | .stall => .stall
  | .stop s k o => .stop s r k o
  | .ok st d =>
    if (bitElems 16 g.nbags (bytesNat d)).sum ≠ g.nidx then .stop st r 1 0 else .go st { r with kept := d }

/-- One bag of a POOL (R335), whose lengths have been read. -/
def State.poolBag (h : HallId) (q : Fin 4) (st : State) (r : EngRun) : UnitRes :=
  let g := siphonDesc r.desc
  let t := st.siphonTable h g.tab
  let lens := bitElems 16 g.nbags (bytesNat r.kept)
  let b := r.unit
  match st.bagRow h g t b (lens.take b).sum (lens.getD b 0) with
  | .stall => .stall
  | .stop s k o => .stop s r k o
  | .ok st none => .go st { r with unit := b + 1, result := b + 1 }
  | .ok st (some es) =>
    if st.writeStalls (.engine h 0) (g.out + b * g.stride) (t.elems * 2) then .stall
    else
      .go (st.agentWrite (.engine h 0) (g.out + b * g.stride) (rowBytes g.fmt es) { obs := q.val })
        { r.count g.fmt es with unit := b + 1, result := b + 1 }

/-- What a POOL does next. -/
def State.poolUnit (h : HallId) (q : Fin 4) (st : State) (r : EngRun) : UnitRes :=
  let g := siphonDesc r.desc
  if poolBad (st.siphonTable h g.tab) r.desc || (g.nbags == 0 && g.nidx != 0) then .stop st r 1 0
  else if g.nbags ≤ r.unit then .fin st r
  else if r.kept.isEmpty then State.poolList h st r
  else State.poolBag h q st r

/-- One step of a SCATTER (R336). -/
def State.scatterStep (st : State) (h : HallId) (g : SiphonDesc) (t : SiphonTable) (s : Nat) : SiphonRes (Nat × List Elem) :=
  (st.indexAt h g s).bind fun st i =>
  (st.weightAt h g (g.wts != 0) s).bind fun st w =>
  (st.rowAddr h t i).bind fun st a =>
  (st.siphonRead h a t.bytes).bind fun st d =>
  (st.siphonRead h (g.list + s * g.stride) (t.elems * fmtWidth g.fmt / 8)).bind fun st sd =>
    let ds := bitElems 16 t.elems (bytesNat d)
    let xs := bitElems (fmtWidth g.fmt) t.elems (bytesNat sd)
    .ok st (a, ((ds.zip xs).zipIdx).map fun (p, e) =>
      roundStep t.fmt g.rm (st.siphonDrip h s e)
        (Num.sum [decodeNum t.fmt p.1, w.mul (decodeNum g.fmt p.2)]))

/-- One step of a SCATTER as a unit. -/
def State.scatterUnit (h : HallId) (q : Fin 4) (st : State) (r : EngRun) : UnitRes :=
  let g := siphonDesc r.desc
  let t := st.siphonTable h g.tab
  if scatterBad t r.desc then .stop st r 1 0
  else if g.nidx ≤ r.unit then .fin st r
  else match st.scatterStep h g t r.unit with
    | .stall => .stall
    | .stop s k o => .stop s r k o
    | .ok st (a, es) =>
      if st.writeStalls (.engine h 0) a t.bytes then .stall
      else
        .go (st.agentWrite (.engine h 0) a (rowBytes t.fmt es) { obs := q.val })
          { r.count t.fmt es with unit := r.unit + 1, result := r.unit + 1 }

end Sys2Proof.Machine
end

