-- ==== Sys2Proof/Machine/Commit.lean ====
section
/-!
DEFINITION. Staged configuration (R43 to R52): GO and REVERT, the check of every block with its reasons, safe points, and the
application of a configuration with what it does to the block. Where the spec leaves open which of several registers a reason
names, see assumption log 21.
-/
namespace Sys2Proof.Machine

/-! ### Areas -/

/-- The staged words of a page by index. -/
def areaLo (p : Nat) : Nat := p * 1024 + 0x40
def areaHi (p : Nat) : Nat := p * 1024 + 0x200

/-- `dst` with the staged area of the pages as `src` has it. -/
def copyAreas (src dst : SMap Word) (ps : List Nat) : SMap Word :=
  ps.foldl (fun d p => SMap.copyRange src d (areaLo p) (areaHi p)) dst

/-- A block that is configured at a context switch of its hall (R47). -/
def ctxBlock (p : Nat) : Bool :=
  match pageBlock p with
  | some (.hall, _, _) => true
  | some (.channel, _, _) => true
  | some (.barrier, _, _) => true
  | _ => false

/-- The commit phase of a block by its first page. -/
def State.commitOf (s : State) (p : Nat) : Commit := SMap.get s.commits p Commit.zero

/-- The state with it replaced. -/
def State.setCommit (s : State) (p : Nat) (c : Commit) : State := { s with commits := SMap.set s.commits p Commit.zero c }

/-- COMMIT_STAT of a block (R46). -/
def State.setCommitStat (s : State) (p state reason off : Nat) (overrun : Bool) : State :=
  s.setLive p 0x024 (w32 (state + b2n overrun * 4 + reason * 2 ^ 8 + off * 2 ^ 16))

/-- STATE and OVERRUN of COMMIT_STAT. -/
def State.commitState (s : State) (p : Nat) : Nat := s.field p 0x024 0 2
def State.commitOverrun (s : State) (p : Nat) : Bool := wbit (s.liveWord p 0x024) 2

/-! ### GO and REVERT -/

/-- GO at a first page (R47). -/
def State.commitGo (s : State) (p : Nat) : State :=
  if !hasConfig p || firstPage p != p then s
  else
    let c := s.commitOf p
    let taken := { s with snap := copyAreas s.staged s.snap (blockPages p) }
    if s.commitState p ≠ 1 then (taken.setCommit p ⟨true, false⟩).setCommitStat p 1 0 0 false
    else if ctxBlock p && c.waiting && !c.checking then taken.setCommit p ⟨true, true⟩
    else s.setField p 0x024 2 1 1

/-- REVERT at a first page (R49). -/
def State.commitRevert (s : State) (p : Nat) : State :=
  if !hasConfig p || firstPage p != p then s
  else if s.commitState p = 1 then s.setField p 0x024 2 1 1
  else { s with staged := copyAreas s.applied s.staged (blockPages p) }

/-! ### Checks -/

/-- A failing register with its reason. -/
abbrev Failing := List (Nat × Nat)

/-- A register fails with a reason under a condition. -/
def failIf (b : Bool) (off reason : Nat) : Failing := if b then [(off, reason)] else []

/-- Reserved bits of a staged word that are set (R43). -/
def reservedBits (key : Nat) (v : Word) : Bool :=
  let page := key / 1024
  let off := key % 1024 * 4
  v.toNat.land (maskAt page off) != v.toNat

/-- The registers of a snapshot with a reserved bit set. -/
def State.reservedFailing (s : State) (p : Nat) : Failing :=
  (blockPages p).flatMap fun q =>
    (SMap.range s.snap (areaLo q) (areaHi q)).flatMap fun kv => failIf (reservedBits kv.1 kv.2) (kv.1 % 1024 * 4) 1

/-- A power of two up to a limit. -/
def powTwo (n limit : Nat) : Bool := n != 0 && decide (n ≤ limit) && 2 ^ Nat.log2 n == n

/-- Some pair of areas overlaps: the register of the lower base of each such pair. Areas are base register, start, length. -/
def overlaps (l : List (Nat × Nat × Nat)) : List Nat :=
  l.flatMap fun a => (l.filter fun b => decide (a.1 < b.1) && overlap a.2.1 a.2.2 b.2.1 b.2.2).map fun _ => a.1

/-- The layout code of a state's applied configuration. -/
def State.layout (s : State) : Nat := fieldOf (s.applWord 0 0x100) 0 3

/-- The check of KEEPER (R22, R23, R368, R425). `n` is the state with the candidate applied. -/
def checkKeeper (s n : State) : Failing :=
  let new := n.layout
  let halls (l : Nat) (h : HallId) := (List.finRange 8).filter fun g => partOf l g.val == partOf l h.val
  failIf (new == 6) 0x100 1
    ++ failIf ((List.finRange 8).any fun h => !s.stopped h) 0x100 4
    ++ failIf ((List.finRange 12).any fun p =>
        s.portEn p && halls s.partLive (portHall p.val) != halls new (portHall p.val)) 0x100 4
    ++ failIf ((List.finRange 8).any fun h => s.hallMode h != 0) 0x100 8

/-- The check of HALL (R156). -/
def checkHall (n : State) (h : HallId) : Failing :=
  let a := (n.applWord (hallPage h 0) 0x188).toNat + fieldOf (n.applWord (hallPage h 0) 0x18C) 0 16 * 2 ^ 32
  failIf (a % 4096 != 0) 0x188 2
    ++ failIf (!(decide (galleryBase h ≤ a ∧ a + 36864 ≤ galleryBase h + 0xC000000))) 0x188 6

/-- The check of a core's CHANNEL page (R273 to R275, R286). -/
def checkChannel (s n : State) (c : CoreId) : Failing :=
  let ring (r : Nat) : Failing :=
    let e := n.ringEntries c r
    failIf (e != 0 && !powTwo e 256) (0x104 + 8 * r) 2
      ++ failIf (decide (0x100000 < n.ringBase c r + e * n.ringEsize c r)) (0x100 + 8 * r) 2
  let chan (k : Nat) : Failing :=
    let g := n.chanCfg c k
    let o := 0x200 + 16 * k
    failIf (g.kind == 3 && decide (64 ≤ g.core)) o 1
      ++ failIf (decide (256 < g.credits)) (o + 8) 2
      ++ failIf (g.kind == 3 && g.maxLen != 64) o 3
      ++ failIf (g.kind != 2 && g.rank != 0) o 3
      ++ failIf ((g.kind == 1 || g.kind == 2) && !g.remote && decide (1152 ≤ g.core)) o 5
      ++ failIf ((g.kind == 1 || g.kind == 2) && !g.remote && decide (g.core < 1152)
          && !s.samePart c.hall (CoreId.hall (Fin.ofNat 1152 g.core))) o 6
      ++ failIf (g.kind == 2 && g.credits != 1) o 0x81
  let sump (u : Nat) : Failing :=
    let g := n.sumpCfg c u
    let w := n.applWord (chanPage c) (0x408 + 16 * u)
    let o := 0x400 + 16 * u
    failIf (fieldOf w 24 2 == 2 || fieldOf w 26 2 == 2) (o + 8) 1
      ++ failIf (decide (256 < g.n) || decide (2048 < g.len)) (o + 8) 2
      ++ failIf ((fieldOf w 24 2 == 3) != (fieldOf w 26 2 == 3)) (o + 8) 3
      ++ failIf (decide (0x100000 < g.slots + g.n * g.stride)) o 2
      ++ failIf (decide (0x100000 < g.res + g.len * 2)) (o + 4) 2
  let areas : List (Nat × Nat × Nat) :=
    ((List.range 32).map fun r => (0x100 + 8 * r, n.ringBase c r, n.ringEntries c r * n.ringEsize c r))
      ++ (List.range 32).flatMap fun u =>
        let g := n.sumpCfg c u
        if g.en then [(0x400 + 16 * u, g.slots, g.n * g.stride), (0x404 + 16 * u, g.res, g.len * 2)] else []
  (List.range 32).flatMap ring ++ (List.range 32).flatMap chan ++ (List.range 32).flatMap sump
    ++ (overlaps areas).map fun o => (o, 0x80)

/-- The state with the barrier commits that wait for a context switch counted as applied (R305). -/
def State.barrierView (s : State) : State :=
  (List.finRange 8).foldl (fun t h =>
    if (s.commitOf (hallPage h 0x20)).waiting then
      { t with applied := copyAreas s.waiting t.applied (blockPages (hallPage h 0x20)) }
    else t) s

/-- The check of BARRIER (R305). `n` is `barrierView` with the candidate applied. -/
def checkBarrier (s n : State) (h : HallId) : Failing :=
  (List.range 80).flatMap fun b =>
    let w := n.bcfg h b
    let o := barOff b
    let g : HallId := Fin.ofNat 8 (fieldOf w 20 3)
    let others := (s.partHalls h).filter fun k => k != h && n.barEn k b
    failIf (decide (b < 64) && fieldOf w 20 3 != 0) o 1
      ++ failIf (decide (143 < fieldOf w 3 8)) o 2
      ++ failIf (decide (64 ≤ b) && !s.samePart h g) o 6
      ++ failIf (decide (64 ≤ b) && n.barEn h b && others.any fun k => n.barRootHall k b != g) o 0x80
      ++ failIf (decide (64 ≤ b) && n.barEn h b && s.samePart h g && !n.barEn g b) o 0x81
      ++ failIf (decide (64 ≤ b) && !n.barEn h b && others.any fun k => n.barRootHall k b == h) o 0x81

/-- Whether a range lies wholly in the gallery memory of a hall. -/
def inGalleryOf (h : HallId) (a n : Nat) : Bool := decide (galleryBase h ≤ a ∧ a + n ≤ galleryBase h + 0xC000000)

/-- Whether a range lies wholly in the chamber memory of one core of a hall. -/
def inChamberOf (h : HallId) (a n : Nat) : Bool :=
  match winOf a with
  | .chamber c o => c.hall == h && decide (o + n ≤ 0x100000)
  | _ => false

/-- The check of an engine's queues (R318). -/
def checkEngine (n : State) (h : HallId) (e : Fin 9) : Failing :=
  let size (q : Fin 4) := n.engEntries h e q * 64
  (List.finRange 4).flatMap (fun q =>
    failIf (n.engEntries h e q != 0 && !powTwo (n.engEntries h e q) 256) (0x108 + 16 * q.val) 2
      ++ failIf (size q != 0 && !inGalleryOf h (n.engBase h e q) (size q) && !inChamberOf h (n.engBase h e q) (size q))
          (0x100 + 16 * q.val) 0x80)
    ++ (overlaps ((List.finRange 4).map fun q => (0x100 + 16 * q.val, n.engBase h e q, size q))).map fun o => (o, 0x81)

/-- The windows of R30 that a hall's partition has, in rising order: near memory of its halls, the CXL tier, gallery and chamber memory
of its halls (R24, R30). -/
def State.partWindows (s : State) (h : HallId) : List (Nat × Nat) :=
  let l := s.partHalls h
  l.map (fun g => (nearBase g, nearBase g + 0x1200000000)) ++ [(0x100000000000, 0x200000000000)]
    ++ l.map (fun g => (galleryBase g, galleryBase g + 0x10000000))
    ++ l.map fun g => (chamberBase (coreAt g 0), chamberBase (coreAt g 0) + 144 * 0x200000)

/-- What lies between rising ranges, from `lo` up. -/
def gapsFrom : (lo : Nat) → List (Nat × Nat) → List (Nat × Nat)
  | lo, [] => [(lo, 2 ^ 64)]
  | lo, (a, b) :: t => (lo, a) :: gapsFrom b t

/-- Whether one of `rows` rows of `bytes` bytes, `stride` apart from `base`, meets a range: the last that begins below its end. -/
def rowsMeet (base stride bytes rows : Nat) (r : Nat × Nat) : Bool :=
  decide (r.1 < r.2) && rows != 0 && decide (base < r.2) &&
    decide (r.1 < base + min (rows - 1) ((r.2 - 1 - base) / stride) * stride + bytes)

/-- Whether the home rows of a table lie in the windows of a hall's partition (R331). -/
def State.rowsInside (s : State) (h : HallId) (g : SiphonTable) : Bool :=
  !(gapsFrom 0 (s.partWindows h)).any (rowsMeet g.base g.stride g.bytes g.rows)

/-- The check of the siphon's tables (R331). -/
def checkTables (s n : State) (h : HallId) : Failing :=
  (List.range 16).flatMap fun t =>
    let g := n.siphonTable h t
    let o := 0x100 + 64 * t
    let whole := fmtWidth g.fmt != 0 && g.bytes * 8 % fmtWidth g.fmt == 0 && decide (g.elems ≤ 2048)
    failIf (g.base % 16 != 0) o 1
      ++ failIf (decide (11 ≤ g.fmt)) (o + 0x10) 1
      ++ failIf (decide (g.fmt < 11) && !whole) (o + 0x10) 3
      ++ failIf (g.en && decide (g.stride < g.bytes)) (o + 0x10) 3
      ++ failIf (g.stride % 16 != 0) (o + 0x14) 1
      ++ failIf (decide (20 < g.logsets)) (o + 0x1C) 2
      ++ failIf (g.en && !s.rowsInside h g) o 6
      ++ failIf (g.en && g.remap && !inGalleryOf h g.rmap (2 ^ g.logsets * 64)) (o + 0x18) 0x82
      ++ failIf (g.en && g.remap && !inGalleryOf h g.slot (g.nslots * g.sstride)) (o + 0x18) 0x82

/-! #### The snapshot engine's configuration (R442) -/

/-- First page and count of near range `r`, and of gallery range `r`. -/
def State.nearRange (s : State) (h : HallId) (r : Nat) : Nat × Nat :=
  (fieldOf (s.applWord (hallPage h 1) (0x180 + 8 * r)) 0 21, fieldOf (s.applWord (hallPage h 1) (0x184 + 8 * r)) 0 22)
def State.galRange (s : State) (h : HallId) (r : Nat) : Nat × Nat :=
  (fieldOf (s.applWord (hallPage h 1) (0x1C0 + 8 * r)) 0 16, fieldOf (s.applWord (hallPage h 1) (0x1C4 + 8 * r)) 0 17)

/-- Pages of the image. -/
def State.nearPages (s : State) (h : HallId) : Nat := ((List.range 8).map fun r => (s.nearRange h r).2).sum
def State.galPages (s : State) (h : HallId) : Nat := ((List.range 8).map fun r => (s.galRange h r).2).sum

/-- The image in units of 64 KiB (R445). -/
def State.imageUnits (s : State) (h : HallId) : Nat :=
  (0x8000 + s.nearPages h * 0x10000 + s.galPages h * 0x1000 + 0xFFFF) / 0x10000

/-- A slot: its address, whether it lies on another module and on which, and its size in units of 64 KiB. -/
structure SlotCfg where
  addr : Nat
  remote : Bool
  module : BitVec 18
  size : Nat

/-- The applied registers of slot `k` (R442). -/
def State.slotCfg (s : State) (h : HallId) (k : Nat) : SlotCfg :=
  let w (o : Nat) : Word := s.applWord (hallPage h 1) (o + 32 * k)
  { addr := (w 0x140).toNat + fieldOf (w 0x144) 0 16 * 2 ^ 32, remote := wbit (w 0x148) 18
    module := (w 0x148).setWidth 18, size := (w 0x14C).toNat }

/-- Whether the tier range of `n` bytes from `t` lies under decoders whose HALLS include a hall; at most `fuel` decoders. -/
def State.tierCovered (s : State) (h : HallId) : (fuel t n : Nat) → Bool
  | 0, _, n => n == 0
  | k + 1, t, n =>
    if n = 0 then true
    else match s.cxlDecode t with
      | none => false
      | some (d, _, _) =>
        let rng := s.applWord 0x31 (0x100 + 16 * d)
        let stop := (fieldOf rng 0 16 + fieldOf rng 16 16) * 2 ^ 28
        s.decoderHas d h && s.tierCovered h k (min stop (t + n)) (t + n - min stop (t + n))

/-- The check of MEMCTL (R357, R442). -/
def checkMemctl (s n : State) (h : HallId) : Failing :=
  let ranges (f : Nat → Nat × Nat) (o : Nat) : List (Nat × Nat × Nat) :=
    (List.range 8).map fun r => (o + 8 * r, (f r).1, (f r).2)
  let slot (k : Nat) : Failing :=
    let g := n.slotCfg h k
    failIf (g.addr % 2 ^ 16 != 0) (0x140 + 32 * k) 1
      ++ failIf (g.size != 0 && decide (g.size < n.imageUnits h)) (0x14C + 32 * k) 0x81
      ++ failIf (g.size != 0 && !g.remote &&
          !(decide (0x100000000000 ≤ g.addr ∧ g.addr + g.size * 0x10000 ≤ 0x200000000000)
            && s.tierCovered h 9 (g.addr - 0x100000000000) (g.size * 0x10000))) (0x140 + 32 * k) 0x82
  failIf (decide (5 ≤ fieldOf (n.applWord (hallPage h 1) 0x100) 0 3)) 0x100 1
    ++ slot 0 ++ slot 1
    ++ (List.range 8).flatMap (fun r =>
      failIf (decide (1179648 < (n.nearRange h r).1 + (n.nearRange h r).2)) (0x180 + 8 * r) 2
        ++ failIf (decide (49152 < (n.galRange h r).1 + (n.galRange h r).2)) (0x1C0 + 8 * r) 2)
    ++ failIf (decide (143 < fieldOf (n.applWord (hallPage h 1) 0x200) 0 8)) 0x200 2
    ++ (overlaps (ranges (n.nearRange h) 0x180) ++ overlaps (ranges (n.galRange h) 0x1C0)).map fun o => (o, 0x80)

/-! #### CXL (R360, R361) -/

/-- Links that the BIF of a port provides. -/
def State.cxlLinks (s : State) (p : Nat) : Nat := 2 ^ fieldOf (s.applWord (0x30 + 4 * p) 0x100) 1 2

/-- A decoder's registers. -/
structure Decoder where
  base : Nat
  size : Nat
  ways : Nat
  halls : Nat
  targets : List Nat
  dpa : Nat
deriving DecidableEq

/-- Decoder `d` as applied (R361). -/
def State.decoder (s : State) (d : Nat) : Decoder :=
  let w (o : Nat) : Word := s.applWord 0x31 (o + 16 * d)
  let ways := 2 ^ fieldOf (w 0x104) 0 2
  { base := fieldOf (w 0x100) 0 16, size := fieldOf (w 0x100) 16 16, ways := ways, halls := fieldOf (w 0x104) 2 8
    targets := (List.range ways).map fun k => fieldOf (w 0x108) (4 * k) 3, dpa := fieldOf (w 0x10C) 0 16 }

/-- Device units of 256 MiB that a decoder takes on each target. -/
def Decoder.share (g : Decoder) : Nat := g.size / g.ways

/-- The check of decoder `d` (R361, R425). -/
def checkDecoder (s n : State) (d : Nat) : Failing :=
  let g := n.decoder d
  let old := s.decoder d
  let o := 0x100 + 16 * d
  let en := g.size != 0
  let named := (List.finRange 8).filter fun h => bitOf g.halls h.val
  let touched := (List.finRange 8).filter fun h => bitOf g.halls h.val || bitOf old.halls h.val
  let cap (t : Nat) := s.field (0x30 + 4 * (t / 4)) (0x800 + 4 * (t % 4)) 9 16
  failIf ((n.applWord 0x31 (0x108 + 16 * d)).toNat ≥ 2 ^ (4 * g.ways)) (o + 8) 1
    ++ failIf (decide (65536 < g.base + g.size)) o 2
    ++ failIf (en && g.halls == 0) o 3
    ++ failIf (named.any fun a => named.any fun b => !s.samePart a b) (o + 4) 6
    ++ failIf (g != old && touched.any fun h => !s.stopped h) o 4
    ++ failIf (g != old && touched.any fun h => s.hallMode h != 0) o 8
    ++ failIf (en && g.targets.any fun t => decide (s.cxlLinks (t / 4) ≤ t % 4) || s.linkState t != 2) (o + 8) 0x81
    ++ failIf (en && g.size % g.ways != 0) o 0x82
    ++ failIf (en && g.targets.any fun t => decide (cap t < g.dpa + g.share)) o 0x83

/-- The check of a CXL port (R360, R361). -/
def checkCxl (s n : State) (p : Nat) : Failing :=
  let w := n.applWord (0x30 + 4 * p) 0x100
  failIf (fieldOf w 1 2 == 3 || fieldOf w 3 2 == 3) 0x100 1 ++
    (if p = 0 then
      (List.range 8).flatMap (checkDecoder s n)
        ++ (overlaps ((List.range 8).map fun d => (0x100 + 16 * d, (n.decoder d).base, (n.decoder d).size))).map
          (fun o => (o, 0x80))
        ++ (List.range 8).flatMap (fun t =>
          (overlaps (((List.range 8).filter fun d => (n.decoder d).targets.contains t).map fun d =>
            (0x10C + 16 * d, (n.decoder d).dpa, (n.decoder d).share))).map fun o => (o, 0x84))
    else [])

/-! #### Yarlink (R368) -/

/-- Group entry `g` and member entry `m` of a port's route table (R367, R379). -/
def State.groupEntry (s : State) (p : PortId) (g : Nat) : Nat :=
  fieldOf (s.applWord (portPage p) (0x200 + 4 * (g / 2))) (16 * (g % 2)) 16
def State.memberEntry (s : State) (p : PortId) (m : Nat) : Nat :=
  fieldOf (s.applWord (portPage p) (0x400 + 4 * (m / 4))) (8 * (m % 4)) 8

/-- The check of a Yarlink port (R368, R425). -/
def checkYarlink (s n : State) (p : PortId) : Failing :=
  let h := portHall p.val
  let own (k : Nat) : Bool := s.samePart h (portHall k)
  let groups := (List.range 256).filter fun g => bitOf (n.groupEntry p g) 15
  let members := (List.range 1024).filter fun m => bitOf (n.memberEntry p m) 7
  let w (t : State) (o : Nat) : Word := t.applWord (portPage p) o
  let changed := wbit (w n 0x100) 0 != wbit (w s 0x100) 0 || w n 0x104 != w s 0x104 || w n 0x108 != w s 0x108
  failIf (fieldOf (w n 0x100) 1 2 == 3) 0x100 1
    ++ failIf (wbit (w n 0x100) 0 && s.partLive == 7) 0x100 7
    ++ failIf (wbit (w n 0x100) 0 && groups.isEmpty && members.isEmpty) 0x100 0x83
    ++ failIf (changed && (s.partHalls h).any fun g => s.hallMode g != 0) 0x100 8
    ++ failIf ((List.finRange 12).any fun q =>
        q != p && s.portEn q && (s.applWord (portPage q) 0x104) != w n 0x104) 0x104 0x80
    ++ (List.range 16).flatMap (fun i =>
      let b := 64 + i
      let role := n.xbarRole p b
      failIf (role == 3) (0x180 + 4 * i) 1
        ++ failIf (role == 2 && (s.partPorts h).any fun q => q != p && s.xbarRole q b == 2) (0x180 + 4 * i) 0x81
        ++ failIf (role != 0 && !((s.partHalls h).any fun g => s.barEn g b)) (0x180 + 4 * i) 0x82)
    ++ groups.flatMap (fun g =>
      let e := n.groupEntry p g % 2 ^ 12
      failIf (e == 0) (0x200 + 4 * (g / 2)) 3
        ++ failIf ((List.range 12).any fun k => bitOf e k && !own k) (0x200 + 4 * (g / 2)) 6)
    ++ members.flatMap (fun m =>
      let e := n.memberEntry p m % 16
      failIf (decide (12 ≤ e)) (0x400 + 4 * (m / 4)) 5
        ++ failIf (decide (e < 12) && !own e) (0x400 + 4 * (m / 4)) 6)

/-! #### The rest -/

/-- The check of a function page (R392). -/
def checkHost (s n : State) (h : HallId) : Failing :=
  let p := 0x20 + h.val
  let sq := fieldOf (n.applWord p 0x108) 0 13
  let cq := fieldOf (n.applWord p 0x118) 0 13
  let core := fieldOf (n.applWord p 0x10C) 0 11
  failIf (s.partLive == 7) 0x100 7
    ++ failIf (sq != 0 && !powTwo sq 4096) 0x108 2
    ++ failIf (cq != 0 && !powTwo cq 4096) 0x118 2
    ++ failIf (sq != 0 && core / 144 != h.val) 0x10C 6

/-- The check of SECURITY (R423). -/
def checkSecurity (s n : State) : Failing :=
  (List.finRange 8).flatMap fun h =>
    failIf (s.hallMode h != 0 && s.applWord 8 (0x100 + 4 * h.val) != n.applWord 8 (0x100 + 4 * h.val)) (0x100 + 4 * h.val) 8

/-- The check of PROGRESS (R439). -/
def checkProgress (n : State) (h : HallId) : Failing :=
  let p := hallPage h 0x84
  failIf (decide (80 ≤ fieldOf (n.applWord p 0x190) 17 7)) 0x190 1
    ++ failIf (decide (143 < fieldOf (n.applWord p 0x194) 0 8)) 0x194 2

/-- The check of POWER (R474). -/
def checkPower (n : State) : Failing :=
  let cap := fieldOf (n.applWord 2 0x100) 0 11
  let w := n.applWord 2 0x104
  failIf (decide (cap < 600 ∨ 1400 < cap)) 0x100 2 ++ failIf (decide (5 ≤ fieldOf w 0 3 ∨ 5 ≤ fieldOf w 4 3)) 0x104 1

/-- The state with the snapshot of a block applied. -/
def State.candidate (s : State) (p : Nat) : State := { s with applied := copyAreas s.snap s.applied (blockPages p) }

/-- The registers of the snapshot of a block that fail (R48). -/
def State.failing (s : State) (p : Nat) : Failing :=
  let n := s.candidate p
  s.reservedFailing p ++
    match pageBlock p with
    | some (.keeper, _, _) => checkKeeper s n
    | some (.hall, h, _) => checkHall n (Fin.ofNat 8 h)
    | some (.channel, c, _) => checkChannel s n (Fin.ofNat 1152 c)
    | some (.barrier, h, _) => checkBarrier s (s.barrierView.candidate p) (Fin.ofNat 8 h)
    | some (.siphon, h, _) => checkEngine n (Fin.ofNat 8 h) 0 ++ checkTables s n (Fin.ofNat 8 h)
    | some (.sort, h, _) => checkEngine n (Fin.ofNat 8 h) 1
    | some (.sampler, h, _) => checkEngine n (Fin.ofNat 8 h) 2
    | some (.squeeze, h, _) => checkEngine n (Fin.ofNat 8 h) 3
    | some (.cipher, h, _) => checkEngine n (Fin.ofNat 8 h) 4
    | some (.hdma, h, _) => checkEngine n (Fin.ofNat 8 h) (Fin.ofNat 9 (p % 0x100 - 0x10 + 5))
    | some (.memctl, h, _) => checkMemctl s n (Fin.ofNat 8 h)
    | some (.cxl, k, _) => checkCxl s n k
    | some (.yarlink, k, _) => checkYarlink s n (Fin.ofNat 12 k)
    | some (.host, h, _) => checkHost s n (Fin.ofNat 8 h)
    | some (.security, _, _) => checkSecurity s n
    | some (.progress, h, _) => checkProgress n (Fin.ofNat 8 h)
    | some (.power, _, _) => checkPower n
    | _ => []

/-- The failing register with the lowest offset, the first of them (R50). -/
def lowest : Failing → Option (Nat × Nat)
  | [] => none
  | f :: t =>
    match lowest t with
    | some g => if g.1 < f.1 then some g else some f
    | none => some f

/-- The check of a block ends (R48, R49). -/
def State.commitCheckEnd (s : State) (p : Nat) : State :=
  let c := s.commitOf p
  if !c.checking then s
  else match lowest (s.failing p) with
    | some (off, reason) => (s.setCommit p Commit.zero).setCommitStat p 3 reason off (s.commitOverrun p)
    | none => { s with waiting := copyAreas s.snap s.waiting (blockPages p) }.setCommit p ⟨false, true⟩

/-! ### Applying -/

/-- A moment at which no operation that depends on the configuration of a block is under way (R48 and the chapters); a context
switch is no moment of this kind. -/
def State.safePoint (s : State) (p : Nat) : Bool :=
  let idle (h : HallId) (n : Fin 9) :=
    (List.finRange 4).all fun q => s.engState h n q == 0 && s.engProd h n q == s.engCons h n q
  match pageBlock p with
  | some (.hall, _, _) => false
  | some (.channel, _, _) => false
  | some (.barrier, _, _) => false
  | some (.siphon, h, _) => idle (Fin.ofNat 8 h) 0
  | some (.sort, h, _) => idle (Fin.ofNat 8 h) 1
  | some (.sampler, h, _) => idle (Fin.ofNat 8 h) 2
  | some (.squeeze, h, _) => idle (Fin.ofNat 8 h) 3
  | some (.cipher, h, _) => idle (Fin.ofNat 8 h) 4
  | some (.hdma, h, _) => idle (Fin.ofNat 8 h) (Fin.ofNat 9 (p % 0x100 - 0x10 + 5))
  | some (.memctl, h, _) =>
    let h : HallId := Fin.ofNat 8 h
    s.stopped h && (s.hall h).nearHeld.isEmpty && (s.hall h).nearWait.isEmpty && (s.hall h).cairn.isNone && (s.hall h).restoring.isNone
  | some (.yarlink, k, _) => !(s.routing.any fun r => r.inp == some (Fin.ofNat 12 k))
  | some (.host, h, _) => s.stopped (Fin.ofNat 8 h) && !wbit (s.liveWord p 0x820) 1 && (SMap.get s.posts h []).isEmpty
  | some (.security, _, _) => !((List.finRange 8).any fun h => (s.hall h).scrub.any fun r => !r.waits)
  | some (.power, _, _) => s.rootTick % 81920 == 0
  | _ => true

/-- The links of a CXL port after a commit (R360, R364): trained anew when the port is enabled and they are not up, or BIF or
RATE changed; off when it is disabled. -/
def State.applyCxlPort (s old : State) (p : Nat) : State :=
  let page := 0x30 + 4 * p
  let w := s.applWord page 0x100
  let kept := wbit w 0 && w == old.applWord page 0x100
  (List.range 4).foldl (fun s l =>
    let st := s.field page (0x800 + 4 * l) 0 2
    if kept && st == 2 then s
    else s.setLive page (0x800 + 4 * l) (if wbit w 0 && decide (l < s.cxlLinks p) then 1 else 0)) s

/-- A Yarlink port after a commit (R367, R369, R375): down first when EN, MINW or PEER changed; trained anew when it is enabled and
not running. -/
def State.applyYarlink (s old : State) (p : PortId) : State :=
  let pg := portPage p
  let en := s.portEn p
  let down := s.applWord pg 0x100 != old.applWord pg 0x100 || s.applWord pg 0x108 != old.applWord pg 0x108
  let s := if down then ((s.dropPort p).setPstat p 0 0 0).setLive pg 0x804 0 else s
  if en && (down || s.portState p == 0 || s.portState p == 4) then s.setPstat p 1 0 0xFF else s

/-- The state in force (R464). -/
def State.powerState (s : State) : Nat := s.field 2 0x800 0 3

/-- The CK_CORE divider of a power state (R464). -/
def coreDiv (n : Nat) : Nat := match n with | 0 => 8 | 1 => 10 | 2 => 12 | 3 => 16 | _ => 32

/-- The ceiling of reason `r` (R464, R477): 0 power cap, 1 current alert, 2 temperature, 3 system throttle, 4 host. -/
def State.ceiling (s : State) (r : Nat) : Nat := s.field 2 0x800 (3 + 3 * r) 3

/-- The slowest of the ceilings (R464, R466). -/
def State.slowest (s : State) : Nat := [0, 1, 2, 3, 4].foldl (fun m r => max m (s.ceiling r)) 0

/-- Whether reason `r` throttles (R476). -/
def State.throttled (s : State) (r : Nat) : Bool := s.powerState != 0 && s.ceiling r == s.powerState

/-- A change of PSTAT, with the entries into throttling that it makes counted (R476, R478). -/
def State.powerStep (s : State) (f : State → State) : State :=
  [0, 1, 2, 3, 4].foldl (fun t r => if t.throttled r && !s.throttled r then t.countSat 3 (0x800 + 16 * r) 1 else t) (f s)

/-- A ceiling is set; the time of a change paces its next rise (R466). -/
def State.setCeiling (s : State) (r v : Nat) : State :=
  if s.ceiling r = v then s
  else { s.setField 2 0x800 (3 + 3 * r) 3 v with ceilAt := SMap.set s.ceilAt r none (some s.rootTick) }

/-- The slowest ceiling is put in force: PSTAT.STATE and the CK_CORE divider, which each die takes up at its next core-cycle boundary
(R464 to R466). -/
def State.follow (s : State) : State := (s.setField 2 0x800 0 3 s.slowest).setField 4 0x800 8 6 (coreDiv s.slowest)

/-- The fastest ceiling that the cause of a reason allows (R470, R472, R474). -/
def State.ceilingFloor (s : State) (r : Nat) : Nat :=
  let w := s.applWord 2 0x104
  match r with
  | 1 => if s.field 2 0x800 18 1 = 1 then 4 else 0
  | 3 => if s.field 2 0x800 19 1 = 1 then fieldOf w 4 3 else 0
  | 4 => fieldOf w 0 3
  | _ => 0

/-- A ceiling falls to what its cause requires, and the state in force with it (R466). -/
def State.dropCeiling (s : State) (r : Nat) : State :=
  s.powerStep fun s => (s.setCeiling r (max (s.ceiling r) (s.ceilingFloor r))).follow

/-- What the application of a configuration does to the block, besides the applied values. -/
def State.applyEffects (s old : State) (p : Nat) : State :=
  let eng (h : HallId) (n : Fin 9) := (List.finRange 4).foldl (fun s q => (s.setProd h n q 0).setCons h n q 0) s
  match pageBlock p with
  | some (.keeper, _, _) =>
    (List.finRange 8).foldl (fun s h => s.modHall h fun v => { v with outHeld := false }) (s.setLive 0 0x800 (w32 s.layout))
  | some (.hall, h, _) =>
    let q := hallPage (Fin.ofNat 8 h) 0
    (((s.setLive q 0x880 (s.applWord q 0x180)).setLive q 0x884 (s.applWord q 0x184)).setLive q 0x890
      (s.applWord q 0x188)).setLive q 0x894 (s.applWord q 0x18C)
  | some (.siphon, h, _) => eng (Fin.ofNat 8 h) 0
  | some (.sort, h, _) => eng (Fin.ofNat 8 h) 1
  | some (.sampler, h, _) => eng (Fin.ofNat 8 h) 2
  | some (.squeeze, h, _) => eng (Fin.ofNat 8 h) 3
  | some (.cipher, h, _) => eng (Fin.ofNat 8 h) 4
  | some (.hdma, h, _) => eng (Fin.ofNat 8 h) (Fin.ofNat 9 (p % 0x100 - 0x10 + 5))
  | some (.memctl, h, _) =>
    let rate := fieldOf (s.applWord p 0x100) 0 3
    if s.field p 0x800 6 3 = rate then s
    else
      -- the controller retrains its four interfaces before it accepts a further request (R349)
      let s := s.setField p 0x800 6 3 rate
      if s.field p 0x800 0 2 = 2 then
        (s.setField p 0x800 0 2 1).modHall (Fin.ofNat 8 h) fun v => { v with training := List.finRange 4 }
      else s
  | some (.cxl, k, _) => s.applyCxlPort old k
  | some (.yarlink, k, _) => s.applyYarlink old (Fin.ofNat 12 k)
  | some (.host, _, _) =>
    (((s.setLive p 0x800 0).setLive p 0x804 0).setLive p 0x808 0).setLive p 0x80C 0x10000
  | some (.security, _, _) =>
    (List.finRange 8).foldl (fun s h =>
      s.setField 8 (0x800 + 4 * h.val) 2 1 (fieldOf (s.applWord 8 (0x100 + 4 * h.val)) 0 1)) s
  | some (.progress, h, _) => s.progMark (Fin.ofNat 8 h)
  | some (.power, _, _) => (s.dropCeiling 3).dropCeiling 4
  | _ => s

/-- Decoders that a commit changes get new keys (R362). -/
def State.renewDecoders (s : State) (new : SMap Word) : State :=
  (List.range 8).foldl (fun t d =>
    if { s with applied := new }.decoder d != s.decoder d then t.newTierKeys d else t) s

/-- The waiting configuration of a block takes effect (R48). DESIGN CHOICE: where a GO that would replace it is still being checked, STAGE_GEN
advances and STATE stays 1 for that check, since R47 and R48 do not say which of them STATE then shows (assumption log 39). -/
def State.applyWaiting (s : State) (p : Nat) : State :=
  let new := copyAreas s.waiting s.applied (blockPages p)
  let t := if p = 0x30 then s.renewDecoders new else s
  let t := ({ t with applied := new }.setCommit p { s.commitOf p with waiting := false })
  let t := t.setLive p 0x028 (s.liveWord p 0x028 + 1)
  let t := if (s.commitOf p).checking then t else t.setCommitStat p 2 0 0 (s.commitOverrun p)
  t.applyEffects s p

/-- A commit that has passed is applied at a safe point (R48). -/
def State.commitApply (s : State) (p : Nat) : State :=
  if (s.commitOf p).waiting && !(s.commitOf p).checking && s.safePoint p then s.applyWaiting p else s

/-- No safe point has come within the limit (R49). -/
def State.commitTimeout (s : State) (p : Nat) : State :=
  if (s.commitOf p).waiting && !ctxBlock p then
    (s.setCommit p Commit.zero).setCommitStat p 3 9 0x100 (s.commitOverrun p)
  else s

/-- The commits of a hall that wait for its context switch are applied (R48, R154): HALL, BARRIER and the CHANNEL pages. -/
def State.applyContext (s : State) (h : HallId) : State :=
  ([hallPage h 0, hallPage h 0x20] ++ (hallCores h).map chanPage).foldl (fun s p =>
    if (s.commitOf p).waiting then s.applyWaiting p else s) s

end Sys2Proof.Machine
end

