-- ==== Sys2Proof/Machine/Halls.lean ====
section
/-!
DEFINITION. The run state of halls (R153 to R159): starting with its refusals, the context switch (R73, R154, R315, R330), columns
and the boot descriptor (R156 to R159, R483), stopping (R155), core reset (R481), keeper notices (R458, R459) and taking a hall out
of service (R17).
-/
namespace Sys2Proof.Machine

/-! ### Notices -/

/-- A keeper notice of a hall: its KNOTICE bit, and vector 35 of the doorbell thread while KDB.EN is 1 (R439, R458). -/
def State.keeperNotice (s : State) (h : HallId) (bit : Nat) : State :=
  let p := hallPage h 0x84
  let s := s.setLive p 0x8BC (setWBit (s.liveWord p 0x8BC) bit)
  let k := s.applWord p 0x194
  if wbit k 10 then s.pend ⟨coreAt h (Fin.ofNat 144 (fieldOf k 0 8)), Fin.ofNat 4 (fieldOf k 8 2)⟩ 35 else s

/-- Whether a hall is out of service (R153). -/
def State.isOut (s : State) (h : HallId) : Bool := wbit (s.liveWord (hallPage h 0) 0x00C) 2

/-- STATE of a hall is set (R153). -/
def State.setHallState (s : State) (h : HallId) (n : Nat) : State := s.setField (hallPage h 0) 0x00C 0 2 n

/-! ### Core reset -/

/-- A thread after core reset: parked; return-stack control and timer compare at their reset values (R481). What it waited
for or had under way is gone. -/
def Thread.park (t : Thread) : Thread :=
  { t with run := .parked, wait := none, rep := none, replCnt := none, dfPend := none, haltReq := false, deliverReq := false
           badAir := false, loads := [], late := none }

/-- Its return-stack control and timer compare value (R481). -/
def Thread.coreReset (t : Thread) : Thread :=
  { t.park with rsTop := 0, rsDepth := 0, rsWrap := false, tmrcmp := 0 }

/-- A core after core reset (R481): memory, tiles, vector, mask and scalar registers stay. -/
def Core.reset (k : Core) (cycles : Nat) : Core :=
  { k with threads := k.threads.map (fun p => (p.1, p.2.coreReset)), mq := .empty, vq := .empty, dq := .empty, tshape := []
           common := [], lastIssue := [], resting := true, latchA := none, latchB := none, airCount := 0, cycBase := cycles }

/-- Live words of a page from `lo` up to but not including `hi` take their reset values. -/
def State.clearLive (s : State) (page lo hi : Nat) : State :=
  { s with live := SMap.clearRange s.live (widx page lo) (widx page hi) }

/-- A core reset (R481), with the tally slots (R82) and the counters from core reset (R92, R129, R176, R301). -/
def State.coreReset (s : State) (c : CoreId) : State :=
  let s := s.modCore c fun k => k.reset (s.hall c.hall).cycles
  let s := ((s.clearLive (corePage c 0) 0x8C0 0x8F0).clearLive (corePage c 0) 0x988 0x98C).clearLive (corePage c 2) 0x810 0x900
  s.clearLive (corePage c 1) 0x8C0 0x8E0

/-! ### The context switch -/

/-- The drip counters of a hall are zero (R73, R74). -/
def State.clearDrips (s : State) (h : HallId) : State :=
  let s := (hallCores h).foldl (fun s c => s.clearLive (corePage c 0) 0x880 0x888) s
  (s.setLive (hallPage h 8) 0x8F0 0).setLive (hallPage h 0xD) 0x8F0 0

/-- The context switch of a hall (R154, R411): commits that wait for it, synchronisation state, engine queues, SWITCHES,
measurements. -/
def State.contextSwitch (s : State) (h : HallId) : State :=
  let s := (s.applyContext h).dropFlights h
  let s := (hallCores h).foldl (fun s c => s.switchChannels c) s
  let s := ((s.switchBarriers h).clearDrips h).engSwitch h
  let s := s.setField (hallPage h 0) 0x00C 16 16 (s.field (hallPage h 0) 0x00C 16 16 + 1)
  s.takeMeasures h

/-! ### Starting -/

/-- The partition rule of R421 for a start. -/
def State.modesAdmit (s : State) (h : HallId) : Bool :=
  let l := s.partHalls h
  l.all (fun g => s.hallMode g == 0) ||
    l.all (fun g => s.hallMode g == 2 && (s.hall g).session.isSome && (s.hall g).session == (s.hall h).session)

/-- The reason for which a START is refused (R11, R23, R154, R421), 0 for none. A commit of KEEPER that has passed its check has not
ended it for this purpose until it is applied, in the next control cycle (R23). DESIGN CHOICE: a hall that another's going out of
service keeps stopped is refused with the reason of OUT (R11; assumption log 40). -/
def State.startRefusal (s : State) (h : HallId) : Nat :=
  let p := hallPage h 0
  if s.isOut h || (s.hall h).outHeld || (s.commitOf 0).checking || (s.commitOf 0).waiting then 4
  else if s.partLive = 7 || (s.stageGen p == 0 && !(s.commitOf p).waiting) then 7
  else if !s.modesAdmit h then 8
  else 0

/-- A hall starts: its context switch, which waits until no engine descriptor is under way, or that of a restore; its threads wait for
their columns (R154, R330, R440). -/
def State.beginStart (s : State) (h : HallId) : State :=
  let p := hallPage h 0
  let restored := wbit (s.liveWord p 0x00C) 3
  let s := s.setHallState h 1
  let s := if restored then s.setField p 0x00C 3 1 0
    else if s.engBusy h then s.modHall h fun v => { v with switching := true }
    else s.contextSwitch h
  let s := s.modHallCores h fun k => { k with threads := k.threads.map (fun q => (q.1, q.2.park)), lastIssue := [] }
  (s.modHall h fun v => { v with columns := 0 }).progMark h

/-- The context switch that a start waits with is made once no engine descriptor of the hall is under way (R330). -/
def State.lateSwitch (s : State) (h : HallId) : State :=
  if (s.hall h).switching && !s.engBusy h then (s.modHall h fun v => { v with switching := false }).contextSwitch h else s

/-- A START of a stopped hall: refused with its reason, or made (R153, R154). -/
def State.startHall (s : State) (h : HallId) : State :=
  let r := s.startRefusal h
  if r ≠ 0 then (s.setField (hallPage h 0) 0x00C 8 8 r).recordErr (hallPage h 0) 5 else s.beginStart h

/-! ### Columns -/

/-- The checks of a thread entry that is present (R158, R190): the first that fails. -/
def bootCheck (e : List Byte) : Option Nat :=
  let fl := hdr e 50 1
  let ring := bitsOf fl 3 2
  let seg (i : Nat) : SegImage := BitVec.ofNat 128 (hdr e (16 * i) 16)
  let odd (d : SegImage) := segReserved d || decide (4 < segGran d)
  if bitsOf fl 5 3 ≠ 0 ∨ hdr e 51 1 ≠ 0 ∨ hdr e 56 8 ≠ 0 ∨ (odd (seg 0) || odd (seg 1) || odd (seg 2)) = true then some 1
  else if ring = 0 then some 2
  else if !(segP (seg 0) && segX (seg 0) && segRing (seg 0) == ring) then some 3
  else if !(segP (seg 1) && segR (seg 1) && segW (seg 1) && segRing (seg 1) == ring) then some 4
  else if !(segP (seg 2) && segR (seg 2) && segW (seg 2)) then some 5
  else if segExtent (seg 0) < hdr e 48 2 * 4 + 4 then some 6
  else none

/-- A thread that starts from its entry (R159); it keeps INTPEND. -/
def Thread.boot (t : Thread) (e : List Byte) : Thread :=
  let fl := hdr e 50 1
  let seg (i : Nat) : SegImage := BitVec.ofNat 128 (hdr e (16 * i) 16)
  let z := { Thread.zero with run := .active, ring := BitVec.ofNat 2 (bitsOf fl 3 2), prio := BitVec.ofNat 2 (bitsOf fl 1 2)
                              pc := BitVec.ofNat 16 (hdr e 48 2), intpend := t.intpend, cycLatch := t.cycLatch }
  (((z.setReg 1 (w32 (hdr e 52 4))).setSeg 0 (seg 0)).setSeg 1 (seg 1)).setSeg 2 (seg 2)

/-- A boot failure is recorded (R156, R158). -/
def State.bootFail (s : State) (h : HallId) (i t check : Nat) : State :=
  let p := hallPage h 0
  let s := if wbit (s.liveWord p 0x010) 1 then s else s.setLive p 0x898 (w32 (i + t * 2 ^ 8 + check * 2 ^ 10))
  s.recordErr p 1

/-- A thread reads its entry and starts or parks (R158, R159). -/
def State.bootThread (s : State) (x : Site) : State :=
  let h := x.hall
  let i := x.core.index
  let addr := s.bootBase h + 256 * i + 64 * x.thread.val
  let backed := s.reaches (.core x) addr
  let m := s.memRead (.core x) addr 64
  let parked (s : State) := s.modThread x Thread.park
  if !backed || m.poison then parked (m.st.bootFail h i x.thread.val 7)
  else if hdr m.data 50 1 % 2 = 0 then parked m.st
  else match bootCheck m.data with
    | some k => parked (m.st.bootFail h i x.thread.val k)
    | none => m.st.modThread x fun t => t.boot m.data

/-- The cores of a logical column in row order (R12, R158). -/
def columnCores (h : HallId) (col : Nat) : List CoreId :=
  (List.range 12).map fun r => coreAt h (Fin.ofNat 144 (r * 12 + col))

/-- The threads of a column start (R159). -/
def State.bootColumn (s : State) (h : HallId) (col : Nat) : State :=
  (columnCores h col).foldl (fun s c => (List.finRange 4).foldl (fun s t => s.bootThread ⟨c, t⟩) s) s

/-- Column 0 of a hall may start: no hall of lower index waits for its own (R483). -/
def State.columnTurn (s : State) (h : HallId) : Bool :=
  (s.hall h).columns != 0 || !((List.finRange 8).any fun g =>
    decide (g.val < h.val) && s.hallState g == 1 && (s.hall g).columns == 0)

/-- Whether the next column of a hall may start, its time apart (R154, R483). -/
def State.columnReady (s : State) (h : HallId) : Bool := s.hallState h == 1 && !(s.hall h).switching && s.columnTurn h

/-- The earliest time of the next column of a hall: 420 control cycles after the column before, and column 0 42,000 control cycles after
column 0 of another hall (R483). -/
def State.columnDue (s : State) (h : HallId) : Nat :=
  if (s.hall h).columns ≠ 0 then (s.hall h).colAt + 420 * 40
  else match s.col0 with
    | some (g, t) => if g = h.val then 0 else t + 42000 * 40
    | none => 0

/-- The next column of a starting hall starts; with the last the hall runs (R154, R483). -/
def State.columnStart (s : State) (h : HallId) : State :=
  if s.columnReady h then
    let n := (s.hall h).columns
    let s := (s.bootColumn h n).modHall h fun v => { v with columns := n + 1, colAt := s.rootTick }
    let s := if n = 0 then { s with col0 := some (h.val, s.rootTick) } else s
    if n + 1 = 12 then s.setHallState h 2 else s
  else s

/-! ### Stopping -/

/-- Entries of a queue that are under way stay; a queue stopped at a fault is discarded (R155). -/
def Queue.stopping (q : Queue) : Queue :=
  if q.stop.isSome then .empty else { q with entries := q.entries.filter fun e => decide (e.phase = .underWay) }

/-- A hall begins to stop (R155): its threads issue no more, and core entries that have not started are discarded. -/
def State.beginStop (s : State) (h : HallId) : State :=
  ((s.setHallState h 3).modHall h fun v => { v with switching := false }).modHallCores h fun k => { k with mq := k.mq.stopping, vq := k.vq.stopping, dq := k.dq.stopping }

/-- The keeper stops a hall that starts or runs (R155). -/
def State.keeperStop (s : State) (h : HallId) : State :=
  if s.hallState h = 1 ∨ s.hallState h = 2 then s.beginStop h else s

/-- The keeper stops every hall of a partition. -/
def State.stopPart (s : State) (h : HallId) : State := (s.partHalls h).foldl (fun s g => s.keeperStop g) s

/-- Whether nothing of a stopping hall is under way: no core entry, no locked sequence, no engine descriptor (R155). -/
def State.hallQuiet (s : State) (h : HallId) : Bool :=
  !s.engBusy h && (hallCores h).all fun c =>
    let k := s.core c
    ([k.mq, k.vq, k.dq].all fun q => q.stop.isSome || !(q.entries.any fun e => decide (e.phase = .underWay)))
      && k.threads.all fun p => !(p.2.locked && decide (p.2.run = .active))

/-- A hall that is quiet is stopped; what its queues stopped at is discarded (R155). -/
def State.hallStopped (s : State) (h : HallId) : State :=
  if s.hallState h = 3 ∧ s.hallQuiet h = true then
    (s.setHallState h 0).modHallCores h fun k => { k with mq := .empty, vq := .empty, dq := .empty }
  else s

/-- A write of HALL.CTL (R153). -/
def State.writeHallCtl (s : State) (a : Agent) (h : HallId) (v : Word) : State :=
  let fail := s.ctlError a (hallPage h 0 * 4096 + 8) true
  let host := match a with
    | .keeper => true
    | .pf => true
    | .vf g _ => g == h
    | _ => false
  let core := match a with
    | .core x => x.hall == h && decide ((s.thread x).ring ≤ 1)
    | _ => false
  if wbit v 0 && wbit v 1 then s
  else if wbit v 0 then (if host && s.stopped h then s.startHall h else fail)
  else if wbit v 1 then (if (host || core) && s.hallState h == 2 then s.beginStop h else fail)
  else if host || core then s
  else fail

/-! ### Ends of service and tenancy -/

/-- An end of tenancy (R419): an opening scrub becomes the closing scrub; a locked or running hall is stopped and scrubbed. -/
def State.endTenancy (s : State) (h : HallId) : State :=
  match (s.hall h).scrub with
  | some r =>
    if r.kind = .opening then
      (s.modHall h fun v => { v with scrub := some { r with kind := .closing } }).emit (.spdm .error)
    else s
  | none =>
    if s.hallMode h = 1 ∨ s.hallMode h = 2 then
      ((s.setField 8 (0x800 + 4 * h.val) 0 2 3).modHall h fun v => { v with closing := true }).keeperStop h
    else s

/-- A selective IDE stream is torn down or fails: it is ready no more, and every tenancy that is bound to it ends (R419, R420). -/
def State.streamEnd (s : State) (k : Nat) : State :=
  (List.finRange 8).foldl (fun s h => if (s.hall h).stream = some k then s.endTenancy h else s) { s with streams := s.streams.filter (· != k) }

/-- The bound stream of a hall fails. -/
def State.streamFails (s : State) (h : HallId) : State :=
  match (s.hall h).stream with
  | some k => s.streamEnd k
  | none => s

/-- The other halls of a partition stay stopped until a new layout is applied (R11). -/
def State.holdSiblings (s : State) (h : HallId) : State :=
  (s.partHalls h).foldl (fun s g => if g = h then s else s.modHall g fun v => { v with outHeld := true }) s

/-- The keeper takes a hall out of service (R11, R17, R419, R459). -/
def State.outOfService (s : State) (h : HallId) : State :=
  if s.isOut h then s
  else
    let s := (s.setField (hallPage h 0) 0x00C 2 1 1).setField 8 (0x800 + 4 * h.val) 3 1 1
    ((((s.recordErr (hallPage h 0) 4).stopPart h).holdSiblings h).endTenancy h).raiseMsix 0 0

end Sys2Proof.Machine
end

