-- ==== Sys2Proof/Machine/Cairn.lean ====
section
/-!
DEFINITION. Cairns and restores (R442 to R452): the image and its header, copying page by page with held writes, slots on other
modules, failure, keys, and reading an image back.
-/
namespace Sys2Proof.Machine

/-- The first MEMCTL page of a hall, which holds the snapshot engine's registers (R442, R443). -/
def memPage (h : HallId) : Nat := hallPage h 1

/-- The agent as which the snapshot engine of a hall reaches memory. -/
def snapAgent (h : HallId) : Agent := .engine h 0

/-- The tag of its writes: they belong to no queue of the siphon. -/
def snapTag : WriteTag := { obs := 4 }

/-! ### Held writes -/

/-- The agent that a source of bank requests of hall `h` stands for (R40); what is neither a core nor an engine has no hall. -/
def heldAgent (h : HallId) (src : Nat) : Agent :=
  if src < 1152 then .core ⟨Fin.ofNat 1152 src, 0⟩
  else if 0x8000 ≤ src ∧ src < 0x8009 then .engine h (Fin.ofNat 9 (src - 0x8000))
  else .pf

/-- Whether a held write stays: its page is protected, or an earlier write that stays goes before it (R356, R447). -/
def State.staysHeld (s : State) (h : HallId) (kept : List HeldWrite) (w : HeldWrite) : Bool :=
  s.protectedAt w.addr || kept.any fun k =>
    k.addr / 64 == w.addr / 64 ||
      (decide (galleryBase h ≤ w.addr) && sameSource k.agent w.agent &&
        galleryBank ((k.addr - galleryBase h) / 64) (s.salt h) == galleryBank ((w.addr - galleryBase h) / 64) (s.salt h))

/-- Held writes that nothing holds any longer are performed in order; with those that stay (R356). -/
def State.performHeld (s : State) (h : HallId) : (kept : List HeldWrite) → List HeldWrite → State × List HeldWrite
  | kept, [] => (s, kept)
  | kept, w :: t =>
    if s.staysHeld h kept w then s.performHeld h (kept ++ [w]) t
    else (s.performLine w.agent w.addr w.data).performHeld h kept t

/-- The held writes of a hall that nothing holds any longer are performed. -/
def State.releaseHeld (s : State) (h : HallId) : State :=
  let v := s.hall h
  let (s, near) := s.performHeld h [] v.nearHeld
  let (s, gal) := s.performHeld h [] v.galHeld
  s.modHall h fun v => { v with nearHeld := near, galHeld := gal }

/-! ### The image -/

/-- A page of an image: near or gallery, its number, and its offset in the image (R445). -/
structure ImgPage where
  near : Bool
  page : Nat
  off : Nat

/-- The pages of ranges in order, `size` bytes each from offset `off`. -/
def rangePages (near : Bool) (size : Nat) : (off : Nat) → List (Nat × Nat) → List ImgPage
  | _, [] => []
  | off, (first, n) :: t =>
    ((List.range n).map fun i => ⟨near, first + i, off + i * size⟩) ++ rangePages near size (off + n * size) t

/-- The pages of an image with these ranges (R445). -/
def imagePages (near gal : List (Nat × Nat)) : List ImgPage :=
  rangePages true 0x10000 0x8000 near
    ++ rangePages false 0x1000 (0x8000 + (near.map fun r => r.2).sum * 0x10000) gal

/-- The ranges of a hall as applied. -/
def State.nearRanges (s : State) (h : HallId) : List (Nat × Nat) := (List.range 8).map (s.nearRange h)
def State.galRanges (s : State) (h : HallId) : List (Nat × Nat) := (List.range 8).map (s.galRange h)

/-- Address and length of a page. -/
def ImgPage.addr (p : ImgPage) (h : HallId) : Nat :=
  if p.near then nearBase h + p.page * 0x10000 else galleryBase h + p.page * 0x1000
def ImgPage.len (p : ImgPage) : Nat := if p.near then 0x10000 else 0x1000

/-- Whether a page is still protected, and whether it has a held write. -/
def State.pageProt (s : State) (h : HallId) (p : ImgPage) : Bool :=
  if p.near then SMap.get (s.hall h).nearProt p.page false else SMap.get (s.hall h).galProt p.page false
def State.pageHeld (s : State) (h : HallId) (p : ImgPage) : Bool :=
  (if p.near then (s.hall h).nearHeld else (s.hall h).galHeld).any fun w => w.addr / p.len == p.addr h / p.len

/-- A page is protected or not. -/
def State.setProt (s : State) (h : HallId) (p : ImgPage) (b : Bool) : State :=
  s.modHall h fun v =>
    if p.near then { v with nearProt := SMap.set v.nearProt p.page false b }
    else { v with galProt := SMap.set v.galProt p.page false b }

/-- The header of an image (R445), its STATE 0. -/
def State.imageHeader (s : State) (h : HallId) : List Byte :=
  let p := memPage h
  let w (o : Nat) : List Byte := natBytes 4 (s.liveWord p o).toNat
  let rg (l : List (Nat × Nat)) : List Byte := l.flatMap fun r => natBytes 4 r.1 ++ natBytes 4 r.2
  let z (n : Nat) : List Byte := List.replicate n 0
  natBytes 4 0x4E524143 ++ [1, BitVec.ofNat 8 h.val] ++ natBytes 2 (s.field 8 (0x800 + 4 * h.val) 16 16) ++ z 4 ++ w 0x914
    ++ w 0x908 ++ w 0x90C ++ natBytes 4 (s.liveWord (hallPage h 0) 0x880).toNat
    ++ natBytes 4 (s.liveWord (hallPage h 0) 0x884).toNat ++ natBytes 4 (s.liveWord (hallPage h 8) 0x8F0).toNat
    ++ natBytes 4 (s.liveWord (hallPage h 0xD) 0x8F0).toNat ++ natBytes 4 (s.nearPages h) ++ natBytes 4 (s.galPages h)
    ++ w 0x948 ++ w 0x94C ++ z 8 ++ rg (s.nearRanges h) ++ rg (s.galRanges h) ++ z (0x400 - 0xC0)
    ++ (hallCores h).flatMap (fun c =>
        natBytes 4 (s.liveWord (corePage c 0) 0x880).toNat ++ natBytes 4 (s.liveWord (corePage c 0) 0x884).toNat)
    ++ z (0x1000 - 0x880)
    ++ (hallCores h).flatMap (fun c => (List.range 32).flatMap fun u => natBytes 4 ((s.core c).sumpOf u).round.toNat)
    ++ z (0x8000 - 0x5800)

/-- Multiplication of an XTS tweak by x (IEEE Std 1619, little-endian). -/
def xtsNext (t : Nat) : Nat := if bitOf t 127 then (t * 2 % 2 ^ 128).xor 0x87 else t * 2

/-- The blocks of an XTS data unit; SM4 takes the first byte of a block as its most significant (R444). -/
def xtsBlocks (key : Nat) (enc : Bool) : (n t : Nat) → List Byte → List Byte
  | 0, _, _ => []
  | n + 1, t, d =>
    let tb := natBytes 16 t
    let x := beNat (List.zipWith (· ^^^ ·) (d.take 16) tb)
    let y := if enc then sm4Enc key x else sm4Dec key x
    List.zipWith (· ^^^ ·) (beBytes 16 y) tb ++ xtsBlocks key enc n (xtsNext t) (d.drop 16)

/-- A 4 KiB unit of an image under the cairn key (R444); the first key ciphers the data and the second the tweak. -/
def cairnUnit (key : List Byte) (enc : Bool) (tweak : Nat) (d : List Byte) : List Byte :=
  if key.isEmpty then d
  else
    let t := bytesNat (beBytes 16 (sm4Enc (beNat (key.drop 16)) (beNat (natBytes 16 tweak))))
    xtsBlocks (beNat (key.take 16)) enc 256 t d

/-- The units of a page at an image offset (R444). -/
def cairnUnits (key : List Byte) (enc : Bool) (seq off : Nat) (n : Nat) (d : List Byte) : List Byte :=
  (List.range n).flatMap fun i =>
    cairnUnit key enc (seq * 2 ^ 32 + (off - 0x8000) / 4096 + i) ((d.drop (4096 * i)).take 4096)

/-! ### Requests of another module -/

/-- The lowest request tag that a requester does not use. -/
def State.freeTag (s : State) (who : Requester) : Nat :=
  ((List.range 4096).find? fun t => !(s.remote.any fun r => r.who == who && r.tag == t)).getD 0

/-- The parts of a range within 4 KiB-aligned pages, at most `fuel` (R376). -/
def pageParts : (fuel addr n : Nat) → List (Nat × Nat)
  | 0, _, _ => []
  | k + 1, a, n =>
    if n = 0 then []
    else
      let m := min n (4096 - a % 4096)
      (a, m) :: pageParts k (a + m) (n - m)

/-- A request to another module leaves (R381). -/
def State.sendRequest (s : State) (h : HallId) (r : RemReq) (kind : BitVec 4) (dst : BitVec 18) (target : Nat)
    (data : List Byte) : State :=
  let t := s.freeTag r.who
  let s := { s with remote := s.remote ++ [{ r with tag := t }] }
  s.toFabric h none
    { kind := kind, err := false, len := r.len, src := s.myId, dst := dst, target := BitVec.ofNat 48 target
      tag := BitVec.ofNat 12 t, data := data }

/-- Bytes are written to another module's slot with snapshot-copy packets (R376, R449). -/
def State.snapSend (s : State) (h : HallId) (dst : BitVec 18) (addr : Nat) (d : List Byte) : State :=
  (pageParts (d.length / 4096 + 2) addr d.length).foldl (fun s p =>
    s.sendRequest h { who := .snapshot h, q := 0, tag := 0, write := true, host := false, addr := 0, len := p.2, row := 0, byte := 0 }
      2 dst p.1 ((d.drop (p.1 - addr)).take p.2)) s

/-- Bytes are written to a slot at an image offset; none when the address is not decoded (R446, R448). -/
def State.slotWrite (s : State) (h : HallId) (slot off : Nat) (d : List Byte) : Option State :=
  let g := s.slotCfg h slot
  let a := g.addr + off
  let s' := s.count64 (memPage h) 0x918 d.length
  if g.remote then some (s'.snapSend h g.module a d)
  else if s.reaches (snapAgent h) a && s.reaches (snapAgent h) (a + d.length - 1) && decide (0x100000000000 ≤ a) then
    some (s'.memWrite (snapAgent h) a d snapTag)
  else none

/-! ### Taking a cairn -/

/-- STATE, SLOT, LAST, LASTV and FAIL of CSTAT (R443). -/
def State.cairnField (s : State) (h : HallId) (lo w v : Nat) : State := s.setField (memPage h) 0x904 lo w v

/-- What the failure of a cairn reports (R448, R458, R459). -/
def State.cairnReport (s : State) (h : HallId) (why : Nat) : State :=
  (((((s.cairnField h 0 2 3).cairnField h 8 4 why).recordErr (memPage h) 4).keeperNotice h 3).raiseMsix 0 4)

/-- The protections of a hall clear and its held writes are performed (R448). -/
def State.unprotect (s : State) (h : HallId) : State :=
  (s.modHall h fun v => { v with nearProt := [], galProt := [] }).releaseHeld h

/-- A running cairn fails (R448). -/
def State.cairnFail (s : State) (h : HallId) (why : Nat) : State :=
  if (s.hall h).cairn.isNone then s
  else
    let s := ((s.modHall h fun v => { v with cairn := none }).setLive (memPage h) 0x910 0).unprotect h
    { s with remote := s.remote.filter fun r => r.who != Requester.snapshot h }.cairnReport h why

/-- Whether a cairn has requests outstanding at another module. -/
def State.snapBusy (s : State) (h : HallId) : Bool := s.remote.any fun r => r.who == Requester.snapshot h

/-- The pages of the running cairn that are not copied yet. -/
def State.pagesLeft (s : State) (h : HallId) : List ImgPage :=
  (imagePages (s.nearRanges h) (s.galRanges h)).filter (s.pageProt h)

/-- With the image written, the header's first burst, marked complete, goes to a slot on another module (R446). -/
def State.cairnHead (s : State) (h : HallId) : State :=
  match (s.hall h).cairn with
  | some r =>
    let g := s.slotCfg h r.slot
    if g.remote && !r.headSent && (s.pagesLeft h).isEmpty && !s.snapBusy h then
      ((s.modHall h fun v => { v with cairn := some { r with headSent := true } }).count64 (memPage h) 0x918 64).snapSend h
        g.module g.addr r.head
    else s
  | none => s

/-- A cairn starts (R446). -/
def State.cairnStart (s : State) (h : HallId) (slot : Nat) : State :=
  let p := memPage h
  let pages := imagePages (s.nearRanges h) (s.galRanges h)
  let s := pages.foldl (fun s q => s.setProt h q true) s
  let s := s.setLive p 0x914 (s.liveWord p 0x914 + 1)
  let last := s.field p 0x904 3 1
  let s := (((s.cairnField h 0 2 1).cairnField h 2 1 slot).cairnField h 8 4 0).setLive p 0x910 (w32 pages.length)
  let s := if slot = last then s.cairnField h 4 1 0 else s
  let hd := s.imageHeader h
  let head := hd.take 8 ++ natBytes 4 1 ++ (hd.drop 12).take 52
  let s := s.modHall h fun v => { v with cairn := some ⟨slot, head, false⟩ }
  match s.slotWrite h slot 0 hd with
  | some s => s.cairnHead h
  | none => s.cairnFail h 1

/-- Who may write the snapshot engine's registers (R443), R422 apart. -/
def State.snapWriter (s : State) (a : Agent) (h : HallId) : Bool :=
  match a with
  | .keeper => true
  | .pf => true
  | .vf g _ => g == h
  | .core x => x.hall == h && decide ((s.thread x).ring ≤ 1)
  | .engine _ _ => false

/-- A write of CGO (R443, R446). -/
def State.writeCgo (s : State) (a : Agent) (h : HallId) (v : Word) : State :=
  let slot := fieldOf v 1 1
  if !s.snapWriter a h then s.ctlError a (memPage h * 4096 + 0x900) true
  else if !wbit v 0 then s
  else if (s.hall h).cairn.isSome || (s.hall h).restoring.isSome || s.stopped h || (s.slotCfg h slot).size == 0 then
    s.ctlError a (memPage h * 4096 + 0x900) true
  else if s.hallMode h ≠ 0 ∧ (s.hall h).cairnKey.isEmpty = true then s.cairnReport h 4
  else s.cairnStart h slot

/-- The page that is copied next: one with a held write first (R446). -/
def State.nextPage (s : State) (h : HallId) : Option ImgPage :=
  let l := s.pagesLeft h
  match l.find? (s.pageHeld h) with
  | some p => some p
  | none => l.head?

/-- A page is copied, its protection clears and its held writes are performed (R446, R448). The writes of the header are performed
before. -/
def State.copyPage (s : State) (h : HallId) : State :=
  match (s.hall h).cairn, s.nextPage h with
  | some r, some p =>
    let headerOut := (s.slotCfg h r.slot).remote && s.snapBusy h && (s.pagesLeft h).length == (s.liveWord (memPage h) 0x910).toNat
      && (s.pagesLeft h).length == (imagePages (s.nearRanges h) (s.galRanges h)).length
    if headerOut then s
    else
      let m := s.memRead (snapAgent h) (p.addr h) p.len
      if m.poison then m.st.cairnFail h 2
      else
        let seq := (s.liveWord (memPage h) 0x914).toNat
        let d := cairnUnits (s.hall h).cairnKey true seq p.off (p.len / 4096) m.data
        match m.st.slotWrite h r.slot p.off d with
        | none => m.st.cairnFail h 1
        | some s =>
          let s := (s.setProt h p false).releaseHeld h
          (s.setLive (memPage h) 0x910 (s.liveWord (memPage h) 0x910 - 1)).cairnHead h
  | _, _ => s

/-- A cairn whose image is written completes (R446). -/
def State.cairnComplete (s : State) (h : HallId) : State :=
  match (s.hall h).cairn with
  | none => s
  | some r =>
    let g := s.slotCfg h r.slot
    if !(s.pagesLeft h).isEmpty || s.snapBusy h || (g.remote && !r.headSent) then s
    else match (if g.remote then some s else s.slotWrite h r.slot 0 r.head) with
      | none => s.cairnFail h 1
      | some s =>
        let s := s.modHall h fun v => { v with cairn := none }
        let s := ((s.cairnField h 0 2 2).cairnField h 3 1 r.slot).cairnField h 4 1 1
        let w := s.applWord (memPage h) 0x200
        let x : Site := ⟨coreAt h (Fin.ofNat 144 (fieldOf w 0 8)), Fin.ofNat 4 (fieldOf w 8 2)⟩
        let s := if wbit w 10 then s.setEvent x (fieldOf w 11 5) else s
        if wbit w 16 then s.pend x 38 else s

/-! ### Keys -/

/-- The key check value (R444): bytes 0 to 7 of the SM4 encryption of zero. -/
def keyCheck (key : List Byte) : Nat := bytesNat ((beBytes 16 (sm4Enc (beNat (key.take 16)) 0)).take 8)

/-- The cairn key of a hall is installed or removed (R444). -/
def State.setCairnKey (s : State) (h : HallId) (key : List Byte) : State :=
  let p := memPage h
  let s := s.modHall h fun v => { v with cairnKey := key }
  let kcv := if key.isEmpty then 0 else keyCheck key
  (s.setLive p 0x944 (w32 (b2n (!key.isEmpty)))).setLive64 p 0x948 kcv

/-- A write of CKCTL (R443, R444): with both bits, CLEAR. -/
def State.writeCkctl (s : State) (a : Agent) (h : HallId) (v : Word) : State :=
  let p := memPage h
  if !s.snapWriter a h then s.ctlError a (p * 4096 + 0x940) true
  else if wbit v 1 then s.setCairnKey h []
  else if wbit v 0 then
    s.setCairnKey h ((List.range 8).flatMap fun w => natBytes 4 (s.liveWord p (0x920 + 4 * w)).toNat)
  else s

/-! ### Restoring -/

/-- RSTAT (R443). -/
def State.setRstat (s : State) (h : HallId) (state reason : Nat) : State :=
  s.setLive (memPage h) 0x954 (w32 (state + reason * 2 ^ 4))

/-- The last slot, when it is valid. -/
def State.lastSlot (s : State) (h : HallId) : Option Nat :=
  if s.field (memPage h) 0x904 4 1 = 1 then some (s.field (memPage h) 0x904 3 1) else none

/-- Steps 1 and 2 of a restore (R451). -/
def State.beginRestore (s : State) (h : HallId) (slot : Nat) (keeper : Bool) : State :=
  let s := (s.engSwitch h).contextSwitch h
  let s := (s.setField (hallPage h 0) 0x00C 3 1 1).setRstat h 1 0
  s.modHall h fun v => { v with restoring := some ⟨slot, keeper, none, true, none⟩ }

/-- A restore ends (R451, R452, R458, R459). -/
def State.endRestore (s : State) (h : HallId) (r : RestoreRun) (reason : Nat) : State :=
  let ok := reason == 0
  let s := s.modHall h fun v => { v with restoring := if r.keeper then some { r with ended := some ok } else none }
  let s := if ok then (s.setRstat h 2 0).keeperNotice h 0 else (s.setRstat h 3 reason).recordErr (memPage h) 5
  s.raiseMsix 0 2

/-- The bytes of an image in a slot of this module, read by the snapshot engine; none when a read fails or meets poison. -/
def State.slotRead (s : State) (h : HallId) (slot off n : Nat) : Option (State × List Byte) :=
  let a := (s.slotCfg h slot).addr + off
  if s.reaches (snapAgent h) a && s.reaches (snapAgent h) (a + n - 1) then
    let m := s.memRead (snapAgent h) a n
    if m.poison then none else some (m.st, m.data)
  else none

/-- The bytes of an image: from this module's memory, or from what the other module answered. -/
def State.imageRead (s : State) (h : HallId) (slot : Nat) (remote : Option (List Byte)) (off n : Nat) :
    Option (State × List Byte) :=
  if (s.slotCfg h slot).remote then
    match remote with
    | some l => if off + n ≤ l.length then some (s, (l.drop off).take n) else none
    | none => none
  else s.slotRead h slot off n

/-- The ranges that a header names at an offset. -/
def hdrRanges (hd : List Byte) (o : Nat) : List (Nat × Nat) :=
  (List.range 8).map fun r => (hdr hd (o + 8 * r) 4, hdr hd (o + 8 * r + 4) 4)

/-- The checks of a header (R452), 0 when they hold. -/
def State.headerReason (s : State) (h : HallId) (keeper : Bool) (hd : List Byte) : Nat :=
  let near := hdrRanges hd 0x40
  let gal := hdrRanges hd 0x80
  if hdr hd 0 4 ≠ 0x4E524143 ∨ hdr hd 4 1 ≠ 1 ∨ hdr hd 8 4 ≠ 1 then 1
  else if hdr hd 0x30 8 ≠ s.live64 (memPage h) 0x948 then 2
  else if (keeper || hdr hd 0x30 8 == 0) && hdr hd 6 2 != s.field 8 (0x800 + 4 * h.val) 16 16 then 3
  else if hdr hd 0x28 4 ≠ (near.map fun r => r.2).sum ∨ hdr hd 0x2C 4 ≠ (gal.map fun r => r.2).sum
      ∨ (near.any fun r => decide (1179648 < r.1 + r.2)) = true ∨ (gal.any fun r => decide (49152 < r.1 + r.2)) = true then 4
  else 0

/-- The pages of an image are written back; none when a read fails (R451 step 4). -/
def State.writeBack (s : State) (h : HallId) (slot : Nat) (remote : Option (List Byte)) (seq : Nat) :
    List ImgPage → Option State
  | [] => some s
  | p :: t =>
    match s.imageRead h slot remote p.off p.len with
    | none => none
    | some (s, d) =>
      let d := cairnUnits (s.hall h).cairnKey false seq p.off (p.len / 4096) d
      (s.memWrite (snapAgent h) (p.addr h) d snapTag).writeBack h slot remote seq t

/-- `n` bytes from an address become undetermined: free values (R452; assumption log 2). -/
def State.soilBytes (s : State) (addr : Nat) : Nat → State
  | 0 => s
  | n + 1 =>
    let (k, s) := s.takeFresh
    (s.setByte addr (Config.freeByte k)).soilBytes (addr + 1) n

/-- The seed, drip counters and sump rounds of a header (R451 step 5). -/
def State.restoreCounters (s : State) (h : HallId) (hd : List Byte) : State :=
  let p := hallPage h 0
  let s := (s.setLive p 0x880 (w32 (hdr hd 0x18 4))).setLive p 0x884 (w32 (hdr hd 0x1C 4))
  let s := (s.setLive (hallPage h 8) 0x8F0 (w32 (hdr hd 0x20 4))).setLive (hallPage h 0xD) 0x8F0 (w32 (hdr hd 0x24 4))
  (hallCores h).zipIdx.foldl (fun s ci =>
    let (c, i) := ci
    let s := (s.setLive (corePage c 0) 0x880 (w32 (hdr hd (0x400 + 8 * i) 4))).setLive (corePage c 0) 0x884
      (w32 (hdr hd (0x404 + 8 * i) 4))
    s.modCore c fun k => (List.range 32).foldl (fun k u =>
      k.setSump u { k.sumpOf u with round := w32 (hdr hd (0x1000 + 128 * i + 4 * u) 4) }) k) s

/-- Whether a keeper restore of a partition is under way. -/
def State.partRestoring (s : State) (h : HallId) : Bool := (s.partHalls h).any fun g => (s.hall g).restoring.any fun r => r.keeper

/-- The keeper gives up the restore of a partition, whose halls stay stopped (R451). -/
def State.dropRestore (s : State) (h : HallId) : State :=
  (s.partHalls h).foldl (fun s g => s.modHall g fun v =>
    { v with restoring := none, task := match v.task with | some (.finishing _) => none | t => t }) s

/-- The keeper's check before it restores a partition (R451): once it knows STEP of every LAST header, and one STEP is in all, every
restore begins; else none. DEDUCED: a hall without a complete cairn has no such header, so that none begins (assumption log 64). -/
def State.restoreCheck (s : State) (h : HallId) : State :=
  let l := s.partHalls h
  let runs := l.filterMap fun g => (s.hall g).restoring
  if l.any fun g => (s.lastSlot g).isNone then s.dropRestore h
  else if runs.any fun r => r.step.isNone then s
  else if (runs.map fun r => r.step).eraseDups.length ≤ 1 then
    l.foldl (fun s g => match (s.hall g).restoring with | some r => s.beginRestore g r.slot true | none => s) s
  else s.dropRestore h

/-- STEP of a header on another module is known to the keeper (R451); a header that cannot be read carries none. -/
def State.headerKnown (s : State) (h : HallId) (r : RestoreRun) (remote : Option (List Byte)) : State :=
  match s.imageRead h r.slot remote 0 0x8000 with
  | some (t, hd) => (t.modHall h fun v => { v with restoring := some { r with step := some (hdr hd 0x10 8) } }).restoreCheck h
  | none => s.dropRestore h

/-- Steps 3 to 6 of a restore (R451, R452). -/
def State.performRestore (s : State) (h : HallId) (remote : Option (List Byte)) : State :=
  match (s.hall h).restoring with
  | none => s
  | some r =>
    if r.ended.isSome || !r.begun then s
    else match s.imageRead h r.slot remote 0 0x8000 with
      | none => s.endRestore h r 5
      | some (s1, hd) =>
        let k := s1.headerReason h r.keeper hd
        if k ≠ 0 then s1.endRestore h r k
        else
          let pages := imagePages (hdrRanges hd 0x40) (hdrRanges hd 0x80)
          match s1.writeBack h r.slot remote (hdr hd 0xC 4) pages with
          | none => (pages.foldl (fun s p => s.soilBytes (p.addr h) p.len) s1).endRestore h r 5
          | some s => ((s.restoreCounters h hd).setLive64 (memPage h) 0x958 (hdr hd 0x10 8)).endRestore h r 0

/-- The image of a restore has been read: the keeper's check of its header first, where that waits for it (R451). -/
def State.restoreImage (s : State) (h : HallId) (remote : Option (List Byte)) : State :=
  let s := match (s.hall h).restoring with
    | some r => if r.begun then s else s.headerKnown h r remote
    | none => s
  s.performRestore h remote

/-- A write of RESTORE (R443, R450). -/
def State.writeRestore (s : State) (a : Agent) (h : HallId) (v : Word) : State :=
  let fail := s.ctlError a (memPage h * 4096 + 0x950) true
  let runs := s.hallState h == 1 || s.hallState h == 2
  let fromCore := match a with
    | .core x => s.samePart x.hall h && decide ((s.thread x).ring ≤ 1)
    | _ => false
  let fromHost := match a with
    | .pf => true
    | .vf g _ => g == h
    | _ => false
  let keeper := a == .keeper
  if !(fromCore || fromHost || keeper) then fail
  else if !wbit v 0 then s
  else if (s.hall h).restoring.isSome || (s.hall h).task.isSome then fail
  else if runs && (fromCore || keeper) then
    (((s.modHall h fun v => { v with task := some .restore }).keeperNotice h 5).stopPart h)
  else if s.stopped h && (fromHost || keeper) then s.beginRestore h (fieldOf v 1 1) false
  else fail

end Sys2Proof.Machine
end

