-- ==== Sys2Proof/Machine/Keeper.lean ====
section
/-!
DEFINITION. The keeper's recovery and security work on halls: sealing and spares, repair, self-test and readmission (R453 to R457),
scrubs (R426 to R430), function-level resets (R401, R402), and what it does once a hall has stopped (R155).
-/
namespace Sys2Proof.Machine

/-! ### Sealing -/

/-- The SEAL page of a hall. -/
def sealPage (h : HallId) : Nat := hallPage h 0x80

/-- COLMAPc of a hall is written (R16). -/
def State.setColmap (s : State) (h : HallId) (c : Nat) (lo w v : Nat) : State := s.setField (hallPage h 0) (0x800 + 4 * c) lo w v

/-- SPARE_STATE of a column, and whether a position is sealed (R16). -/
def State.spareState (s : State) (h : HallId) (c : Nat) : Nat := fieldOf (s.colmapWord h c) 4 2
def State.isSealed (s : State) (h : HallId) (p : Position) : Bool := wbit (s.colmapWord h p.col.val) (16 + p.row.val)

/-- Whether the position on which a logical core lies is sealed, so that its router drops its packets (R454). -/
def State.coreSealed (s : State) (c : CoreId) : Bool :=
  wbit (s.colmapWord c.hall c.column) (16 + s.physRow c.hall c.column c.row)

/-- A packet of or for a sealed position is dropped (R454). -/
def State.sealDrop (s : State) (h : HallId) : State := (s.count64 (sealPage h) 0x800 1).recordErr (sealPage h) 3

/-- The physical core ID of a position (R13). -/
def physId (h : HallId) (p : Position) : Nat := h.val * 156 + p.row.val * 12 + p.col.val

/-- Free numbers for `n` keys of a table (assumption log 2). -/
def soilTable {α : Type} (f : Nat → α) (k0 : Nat) : (n : Nat) → List (Nat × α)
  | 0 => []
  | n + 1 => soilTable f k0 n ++ [(n, f (k0 + n))]

/-- Tiles and registers of a core become undetermined: free values (R456; assumption log 2). -/
def State.soilCore (s : State) (c : CoreId) : State :=
  let k0 := s.fresh
  let word (i : Nat) : Word := BitVec.ofNat 32 (Config.freeNat i)
  let thread (t : Nat) (v : Thread) : Thread :=
    { v with regs := (soilTable word (k0 + 600 + 64 * t) 32).tail
             segs := soilTable (fun i => BitVec.ofNat 128 (Config.freeNat i)) (k0 + 600 + 64 * t + 32) 8 }
  { s with fresh := k0 + 1024 }.modCore c fun k =>
    { k with
      tile := soilTable (fun i => BitVec.ofNat 1024 (Config.freeNat i)) k0 512
      vreg := soilTable (fun i => BitVec.ofNat 1024 (Config.freeNat i)) (k0 + 512) 16
      mreg := soilTable (fun i => BitVec.ofNat 128 (Config.freeNat i)) (k0 + 528) 8
      common := soilTable word (k0 + 536) 16
      opcA := [], opcB := [], latchA := none, latchB := none
      threads := (List.range 4).map fun t => (t, thread t (SMap.get k.threads t Thread.zero)) }

/-- The chamber memory of a core is overwritten with what the spec does not say, whole lines (R249, R456). -/
def State.soilChamber (s : State) (c : CoreId) : State :=
  let a := chamberBase c
  { s with poison := SMap.clearRange s.poison (a / 64) (a / 64 + 0x4000) }.soilBytes a 0x100000

/-- The logical core on a position, if one lies there (R14, R16). -/
def State.coreAtPosition (s : State) (h : HallId) (p : Position) : Option CoreId :=
  let sub := fieldOf (s.colmapWord h p.col.val) 0 4
  let row := if p.row.val = 12 then sub else if sub = p.row.val then 12 else p.row.val
  if row < 12 then some (coreAt h (Fin.ofNat 144 (row * 12 + p.col.val))) else none

/-- A position is sealed and the spare of its column settled (R453, steps 2 and 3); a position sealed already stays so. A
substituted core begins with what the spare holds. -/
def State.sealPosition (s : State) (h : HallId) (p : Position) (cause : Nat) : State :=
  if s.isSealed h p then s
  else
    let c := p.col.val
    let spare := s.spareState h c
    let core := s.coreAtPosition h p
    let s := s.setColmap h c (16 + p.row.val) 1 1
    let s := (s.setLive (sealPage h) 0x80C (w32 (physId h p + 2 ^ 11 + cause * 2 ^ 12))).recordErr (sealPage h) 0
    let lost (s : State) := (s.recordErr (sealPage h) 1).outOfService h
    if p.row.val < 12 then
      if spare = 0 then
        let s := (s.setColmap h c 0 4 p.row.val).setColmap h c 4 2 1
        let s := s.setLive (sealPage h) 0x808 (s.liveWord (sealPage h) 0x808 + 1)
        match core with | some k => s.soilCore k | none => s
      else lost s
    else if spare = 0 then s.setColmap h c 4 2 3
    else lost (s.setColmap h c 4 2 3)

/-! ### Work on a partition -/

/-- STEP of the header in the last slot of a hall, when that slot lies on this module. -/
def State.lastStep (s : State) (h : HallId) : Option Nat :=
  match s.lastSlot h with
  | some k => if (s.slotCfg h k).remote then none else some (bytesNat (s.bytesAt ((s.slotCfg h k).addr + 0x10) 8))
  | none => none

/-- All numbers of a list are equal. -/
def allEqual (l : List Nat) : Bool := l.all fun n => l.head? == some n

/-- The keeper restores the halls of a partition from their last slots (R450, R451), unless another task has it do so already. A
partition with a hall out of service is not restored (R11). -/
def State.launchRestore (s : State) (h : HallId) (repaired : Bool) : State :=
  let l := s.partHalls h
  if l.any s.isOut then s.modHall h fun v => { v with task := none }
  else
    let s' := s.modHall h fun v => { v with task := some (.finishing repaired) }
    if s.partRestoring h then s'
    else
      (l.foldl (fun s g => s.modHall g fun v =>
        { v with restoring := some ⟨(s.lastSlot g).getD 0, true, s.lastStep g, false, none⟩ }) s').restoreCheck h

/-- With every restore of a partition ended, its halls are restarted, unless one failed; every repair that waited for it is complete
(R450 to R453). -/
def State.finishRestore (s : State) (h : HallId) : State :=
  let l := s.partHalls h
  let ends := l.map fun g => (s.hall g).restoring.bind fun r => r.ended
  if ends.any Option.isNone then s
  else
    let ok := ends.all (· == some true) && allEqual (l.map fun g => s.live64 (memPage g) 0x958)
    let repaired := l.filter fun g => (s.hall g).task == some (.finishing true)
    let s := s.dropRestore h
    if !ok || l.any s.isOut then s
    else
      let s := l.foldl (fun s g => s.startHall g) s
      repaired.foldl (fun s g => (s.keeperNotice g 1).raiseMsix 0 1) s

/-- What the keeper does for a hall whose partition has stopped. -/
def State.keeperTask (s : State) (h : HallId) : State :=
  if !((s.partHalls h).all s.stopped) then s
  else match (s.hall h).task with
    | none => s
    | some .restore => s.launchRestore h false
    | some (.repair p cause) =>
      let s := s.sealPosition h p cause
      s.launchRestore h true
    | some .selfTest => s
    | some (.finishing _) => s.finishRestore h

/-- Whether a repair of a position waits for its partition to stop. -/
def State.repairWaits (s : State) (h : HallId) (p : Position) : Bool :=
  ((s.hall h).faults.any fun q => q.1 == p) ||
    match (s.hall h).task with
    | some (.repair q _) => q == p
    | _ => false

/-- A core hard fault at a position (R453): 1 core reset, 3 internal check. A further one at a position whose repair waits changes
nothing; one at another position while the keeper has a task for the hall is sealed with that task, once the hall is stopped (R14). -/
def State.hardFault (s : State) (h : HallId) (p : Position) (cause : Nat) : State :=
  if s.isSealed h p || s.repairWaits h p then s
  else if (s.hall h).task.isSome then
    (if s.stopped h then s.sealPosition h p cause else s.modHall h fun v => { v with faults := v.faults ++ [(p, cause)] })
  else (s.modHall h fun v => { v with task := some (.repair p cause) }).stopPart h

/-! ### Self-test and readmission -/

/-- Whether an agent may write SUSPECT of a hall, and READMIT (R455), R422 apart. -/
def fromHostOf (a : Agent) (h : HallId) : Bool :=
  match a with
  | .keeper => true
  | .pf => true
  | .vf g _ => g == h
  | _ => false

/-- STSTAT (R455). -/
def State.setStstat (s : State) (h : HallId) (state failed : Nat) : State :=
  s.setLive (sealPage h) 0x814 (w32 (state + failed % 2 ^ 8 * 4))

/-- A write of SUSPECT (R455, R456). -/
def State.writeSuspect (s : State) (a : Agent) (h : HallId) (v : Word) : State :=
  let fail := s.ctlError a (sealPage h * 4096 + 0x810) true
  let core := match a with
    | .core x => x.hall == h && decide ((s.thread x).ring ≤ 1)
    | _ => false
  if !(fromHostOf a h || core) then fail
  else if !wbit v 0 then s
  else if s.field (sealPage h) 0x814 0 2 = 1 ∨ (s.hall h).task.isSome = true ∨ s.hallState h = 3 then fail
  else if s.stopped h then s.setStstat h 1 0
  else ((s.setStstat h 1 0).modHall h fun v => { v with task := some .selfTest }).stopPart h

/-- A self-test ends (R456). -/
def State.selfTestEnd (s : State) (h : HallId) (failed : List Position) : State :=
  if s.field (sealPage h) 0x814 0 2 ≠ 1 ∨ ((s.partHalls h).all s.stopped) = false then s
  else
    let s := (hallCores h).foldl (fun s c => (s.soilCore c).soilChamber c) s
    let s := s.setStstat h (if failed.isEmpty then 2 else 3) failed.length
    let s := failed.foldl (fun s p => s.sealPosition h p 2) s
    let s := if failed.isEmpty then s else s.recordErr (sealPage h) 2
    let s := (s.keeperNotice h 4).raiseMsix 0 5
    match (s.hall h).task with
    | some .selfTest =>
      s.launchRestore h false
    | _ => s

/-- RDSTAT (R455). -/
def State.setRdstat (s : State) (h : HallId) (n : Nat) : State := s.setLive (sealPage h) 0x81C (w32 n)

/-- The position that READMIT names in a hall, when it does. -/
def readmitPos (h : HallId) (v : Word) : Option Position :=
  let n := fieldOf v 0 11
  if n / 156 = h.val then some ⟨Fin.ofNat 12 (n % 156 % 12), Fin.ofNat 13 (n % 156 / 12)⟩ else none

/-- Whether a position may be readmitted (R457). -/
def State.readmitOk (s : State) (h : HallId) (p : Position) : Bool :=
  s.isSealed h p && !wbit (resetWord (hallPage h 0) (0x800 + 4 * p.col.val)) (16 + p.row.val) && s.stopped h
    && s.hallMode h == 0 && s.spareState h p.col.val == (if p.row.val = 12 then 3 else 1)

/-- A write of READMIT (R455, R457). -/
def State.writeReadmit (s : State) (a : Agent) (h : HallId) (v : Word) : State :=
  let fail := s.ctlError a (sealPage h * 4096 + 0x818) true
  if !fromHostOf a h then fail
  else if !wbit v 31 then s
  else if s.field (sealPage h) 0x81C 0 2 = 1 then fail
  else match readmitPos h v with
    | some p => if s.readmitOk h p then (s.setLive (sealPage h) 0x818 v).setRdstat h 1 else s.setRdstat h 3
    | none => s.setRdstat h 3

/-- Reset and self-test of the position of a READMIT end (R457). A logical core that returns to it begins with what the self-test
left. In a hall that has been started meanwhile the substitution is undone once it has stopped (R14). -/
def State.readmitEnd (s : State) (h : HallId) (pass : Bool) : State :=
  if s.field (sealPage h) 0x81C 0 2 ≠ 1 then s
  else if pass && !s.stopped h then s.modHall h fun v => { v with readmitted := some pass }
  else match readmitPos h (s.liveWord (sealPage h) 0x818) with
    | none => s
    | some p =>
      if !pass then s.setRdstat h 3
      else
        let c := p.col.val
        let s := ((s.setColmap h c (16 + p.row.val) 1 0).setColmap h c 0 4 0xF).setColmap h c 4 2 0
        let s := match s.coreAtPosition h p with
          | some k => ((s.coreReset k).soilCore k).soilChamber k
          | none => s
        s.setRdstat h 2

/-! ### Scrubs -/

/-- Whether a keeper update holds scrubs and locks off (R433). -/
def State.updating (s : State) : Bool := s.activating || s.updState == 5

/-- Whether two halls share an HDM decoder (R426). -/
def State.shareDecoder (s : State) (h g : HallId) : Bool := (List.range 8).any fun d =>
  fieldOf (s.applWord 0x31 (0x100 + 16 * d)) 16 16 != 0 && s.decoderHas d h && s.decoderHas d g

/-- A scrub that waits begins, when it may (R426): engine queues emptied, new keys. An opening scrub follows the closure of BAR2, which
follows every request accepted before it (R391). -/
def State.scrubBegin (s : State) (h : HallId) : State :=
  match (s.hall h).scrub with
  | none => s
  | some r =>
    let blocked := (List.finRange 8).any fun g =>
      g != h && s.shareDecoder h g && match (s.hall g).scrub with | some q => !q.waits | none => false
    let early := decide (r.kind = .opening) && !s.bar2Quiet
    if !r.waits || !s.stopped h || blocked || early || s.updating then s
    else
      let s := (s.engSwitch h).newNearKeys h
      let s := (List.range 8).foldl (fun s d =>
        if fieldOf (s.applWord 0x31 (0x100 + 16 * d)) 16 16 != 0 && s.decoderHas d h then s.newTierKeys d else s) s
      s.modHall h fun v => { v with scrub := some { r with waits := false, start := s.rootTick } }

/-- A scrub is asked for. -/
def State.scrubAsk (s : State) (h : HallId) (k : ScrubKind) : State :=
  s.modHall h fun v => { v with scrub := some ⟨k, 0, true⟩ }

/-- The poisoned lines and bursts of a hall. -/
def State.poisonIn (s : State) (h : HallId) : Nat :=
  let c0 := chamberBase (coreAt h 0) / 64
  ((SMap.range s.poison c0 (c0 + 144 * 0x8000)).length
    + (SMap.range s.poison (galleryBase h / 64) (galleryBase h / 64 + 0x400000)).length
    + (SMap.range s.poison (nearBase h / 64) (nearBase h / 64 + 0x48000000)).length)

/-- A thread as a scrub leaves it (R427). -/
def Thread.scrubbed (t : Thread) : Thread :=
  { t with regs := [], segs := [], rsEntry := [], rsTop := 0, rsDepth := 0, rsWrap := false, tmrcmp := 0, ev := 0, staging := []
           openCh := none, ticket := none }

/-- What a scrub zeroes and clears (R427, R444). -/
def State.scrubAll (s : State) (h : HallId) : State :=
  let c0 := chamberBase (coreAt h 0)
  let g0 := galleryBase h
  let s := { s with
    mem := SMap.clearRange (SMap.clearRange s.mem c0 (c0 + 144 * 0x200000)) g0 (g0 + 0x10000000)
    poison := SMap.clearRange (SMap.clearRange (SMap.clearRange s.poison (c0 / 64) (c0 / 64 + 144 * 0x8000)) (g0 / 64)
      (g0 / 64 + 0x400000)) (nearBase h / 64) (nearBase h / 64 + 0x48000000)
    near := SMap.clearRange s.near (nearBase h) (nearBase h + 0x1200000000)
    nearZero := SMap.set s.nearZero h.val false true }
  let s := s.modHallCores h fun k =>
    { k with threads := k.threads.map (fun p => (p.1, p.2.scrubbed)), common := [], vreg := [], mreg := [], tile := [], tshape := []
             opcA := [], opcB := [], latchA := none, latchB := none }
  let s := (hallCores h).foldl (fun s c => (s.clearLive (corePage c 2) 0x810 0x900).switchChannels c) s
  let s := (List.range 9).foldl (fun s n => s.clearLive (enginePage h n) 0xF10 0x1000) s
  let s := (((s.switchBarriers h).clearDrips h).engSwitch h).modHall h fun v => { v with nearProt := [], galProt := [] }
  ((s.setLive (hallPage h 0) 0x880 0).setLive (hallPage h 0) 0x884 0).setCairnKey h []

/-- The scrub record of a hall (R429). -/
def State.scrubRecord (s : State) (h : HallId) (r : ScrubRun) (bad : Bool) (rewritten : Nat) : State :=
  let o := 0x800 + 32 * h.val
  let epoch := s.field 8 (0x800 + 4 * h.val) 16 16
  let gens := SMap.get s.nearGen h.val 1 - SMap.get s.keyBase h.val 0
  let w (i v : Nat) (s : State) : State := s.setLive 0xA (o + 4 * i) (w32 v)
  w 7 0 (w 6 0 (w 5 0 (w 4 0 (w 3 gens (w 2 ((s.rootTick - r.start) / 40 / 2048) (w 1 rewritten
    (w 0 (epoch + b2n bad * 2 ^ 16 + 0x3F * 2 ^ 24) s)))))))

/-- MODE of a hall is set (R419). -/
def State.setMode (s : State) (h : HallId) (m : Nat) : State := s.setField 8 (0x800 + 4 * h.val) 0 2 m

/-- One second in periods of the root clock (R428, R462). -/
def scrubTicks : Nat := 210000000 * 40

/-- A scrub of a hall ends, clean or failed; one that takes more than a second fails (R419, R428 to R430). -/
def State.scrubEnd (s : State) (h : HallId) (bad : Bool) : State :=
  match (s.hall h).scrub with
  | none => s
  | some r =>
    if r.waits then s
    else
      let n := s.poisonIn h
      let s := s.modHall h fun v => { v with scrub := none }
      if bad || decide (r.start + scrubTicks < s.rootTick) then
        let s := (s.scrubRecord h r true n).setMode h 3
        let s := if r.kind = .opening then s.emit (.spdm .error) else s
        s.outOfService h
      else
        let e := s.field 8 (0x800 + 4 * h.val) 16 16
        let s := ((s.scrubAll h).setField 8 (0x800 + 4 * h.val) 16 16 (e + 1)).scrubRecord h r false n
        match r.kind with
        | .request => s
        | .opening => (s.setMode h 1).emit (.spdm (.lockResponse h))
        | .closing =>
          let resp := (s.hall h).stopResp
          let s := (s.setMode h 0).modHall h fun v => { v with session := none, stream := none, stopResp := false }
          if resp then s.emit (.spdm (.stopResponse h)) else s

/-- A write of SCRUB_REQ (R426, R431): each bit of a hall that may not be scrubbed is an access error. -/
def State.writeScrubReq (s : State) (a : Agent) (v : Word) : State :=
  (List.finRange 8).foldl (fun s h =>
    if !wbit v h.val then s
    else if s.stopped h && s.hallMode h == 0 then
      (if (s.hall h).scrub.isSome then s else s.scrubAsk h .request)
    else s.ctlError a (8 * 4096 + 0x830) true) s

/-! ### Function-level reset -/

/-- The indices and the MSI-X table of a VF at their reset values, DBOUT clear (R401). -/
def State.resetFunction (s : State) (h : HallId) : State :=
  let p := funPage h
  let s := { s with posts := SMap.set s.posts h.val [] [] }
  (((s.clearLive p 0x800 0x810).clearLive p 0xE00 0xE44).setField p 0x820 3 1 0).setField p 0x820 1 1 0

/-- An FLR of the VF of a hall begins (R401, R393). -/
def State.flrBegin (s : State) (h : HallId) : State :=
  let s := (s.setField (funPage h) 0x820 1 1 1).recordErr (funPage h) 3
  ((s.modHall h fun v => { v with resetting := true }).endTenancy h).keeperStop h

/-- A stopped hall is reset, and its FLR ends (R401, R480). -/
def State.hallReset (s : State) (h : HallId) : State :=
  let s := (s.engSwitch h).contextSwitch h
  let s := (hallCores h).foldl (fun s c => s.coreReset c) s
  (s.resetFunction h).modHall h fun v => { v with resetting := false }

/-! ### What follows a stop -/

/-- What waited for a hall to stop, for its spare map: the end of a READMIT, and positions that failed (R14, R453, R457). -/
def State.spareWork (s : State) (h : HallId) : State :=
  let l := (s.hall h).faults
  let r := (s.hall h).readmitted
  if l.isEmpty && r.isNone then s
  else
    let s := s.modHall h fun v => { v with faults := [], readmitted := none }
    let s := match r with | some pass => s.readmitEnd h pass | none => s
    l.foldl (fun s f => s.sealPosition h f.1 f.2) s

/-- What the keeper and the engines do for a hall: signals and a context switch that wait (R324, R330), and what follows once the hall has
stopped (R155, R401, R419, R426, R448). -/
def State.hallWork (s : State) (h : HallId) : State :=
  let s := (s.engLate h).lateSwitch h
  if !s.stopped h then s
  else
    let s := (s.cairnFail h 3).spareWork h
    let s := if (s.hall h).resetting then s.hallReset h else s
    let s := if (s.hall h).closing then (s.modHall h fun v => { v with closing := false }).scrubAsk h .closing else s
    (s.scrubBegin h).keeperTask h

/-- A PF0 FLR ends once every VF's has (R401, R402); a closing scrub that follows keeps its VF alone in Request Retry. -/
def State.pf0Work (s : State) : State :=
  let busy := (List.finRange 8).any fun h => (s.hall h).resetting
  if s.pf0Flr && !busy then { s with pf0Flr := false } else s

/-- The keeper's work on all halls. -/
def State.keeperWork (s : State) : State := ((List.finRange 8).foldl (fun s h => s.hallWork h) s).pf0Work

end Sys2Proof.Machine
end

