-- ==== Sys2Proof/Machine/BankMem.lean ====
section
/-!
DEFINITION. Banks of chamber and gallery memory with their request windows (R246 to R249), near-memory requests at the ordering
point, patrol reads and interface retraining (R349 to R356), and the CXL tier's accesses and links (R359 to R364).
-/
namespace Sys2Proof.Machine

/-! ### Banks -/

/-- The number of a bank among all (chamber banks first). -/
def bankKey : Bank → Nat
  | .chamber c b => c.val * 16 + b.val
  | .gallery h b => 18432 + h.val * 64 + b.val

/-- The requests that wait at a bank, oldest first. -/
def State.bankQueue (s : State) (b : Bank) : List WaitReq := SMap.get s.banks (bankKey b) []

/-- The state with them replaced. -/
def State.setBank (s : State) (b : Bank) (l : List WaitReq) : State := { s with banks := SMap.set s.banks (bankKey b) [] l }

/-- Whether a line lies in a bank (R243). -/
def State.inBank (s : State) (b : Bank) (line : Nat) : Bool :=
  match b with
  | .chamber c n => decide (line < 0x4000) && chamberBank line (s.salt c.hall) == n.val
  | .gallery h n => decide (line < 0x300000) && galleryBank line (s.salt h) == n.val

/-- The device address of a line of a bank. -/
def bankAddr (b : Bank) (line : Nat) : Nat :=
  match b with
  | .chamber c _ => chamberBase c + line * 64
  | .gallery h _ => galleryBase h + line * 64

/-- The requests from which a bank chooses: 8 in a gallery bank's window (R248), all at a chamber bank. -/
def bankWindow (b : Bank) (l : List WaitReq) : List WaitReq :=
  match b with
  | .chamber _ _ => l
  | .gallery _ _ => l.take 8

/-- Whether an access to a line has to wait for held writes: a read behind one, anything while the group holds 16 (R447). -/
def State.bankWaits (s : State) (b : Bank) (r : BankReq) : Bool :=
  match b with
  | .chamber _ _ => false
  | .gallery h n =>
    let a := bankAddr b r.line
    s.holdFull a ||
      (r.write.isNone && (s.hall h).galHeld.any fun w =>
        w.addr / 64 == a / 64 || (agentSrc w.agent == r.src && galleryBank ((w.addr - galleryBase h) / 64) (s.salt h) == n.val))

/-- Requests that may be served: no earlier one of the same source waits (R247). -/
def State.servable (s : State) (b : Bank) : (seen : List Nat) → List WaitReq → List WaitReq
  | _, [] => []
  | seen, w :: t =>
    let rest := s.servable b (w.req.src :: seen) t
    if seen.contains w.req.src || s.bankWaits b w.req then rest else w :: rest

/-- The class of an operation's requests (R246); one of unknown origin takes class 2. -/
def bankClass : BankOp → Nat
  | .tileTransfer => 1
  | .coreDma | .hallDma | .engine | .attachment | .unknown => 2
  | .vectorMove => 3
  | .scalarMove | .segmentMove | .fetch => 4

/-- The choice of a bank (R246): the oldest promoted request, else the oldest of the lowest class. -/
def bankChoice (l : List WaitReq) : Option WaitReq :=
  match l.find? fun w => w.promoted with
  | some w => some w
  | none =>
    match [1, 2, 3, 4].find? fun c => l.any fun w => bankClass w.req.op == c with
    | some c => l.find? fun w => bankClass w.req.op == c
    | none => none

/-- The reads of line `k` that a read of it answers (R248), of the requests behind it, and those that stay: none from the first
write to the line on (`shut`), none that waits for a held write, and none of a source an earlier request of which stays (R247);
`seen` holds those sources. -/
def State.mergeReads (s : State) (b : Bank) (k : Nat) : (shut : Bool) → (seen : List Nat) → List WaitReq →
    List WaitReq × List WaitReq
  | _, _, [] => ([], [])
  | shut, seen, w :: t =>
    let write := w.req.line == k && w.req.write.isSome
    if shut || write || w.req.line != k || seen.contains w.req.src || s.bankWaits b w.req then
      let (m, r) := s.mergeReads b k (shut || write) (w.req.src :: seen) t
      (m, w :: r)
    else
      let (m, r) := s.mergeReads b k shut seen t
      (w :: m, r)

/-- The counters of a bank: accesses, waiting cycles, promotions, corrected errors (R252, R253). -/
def bankCounters (b : Bank) : (Nat × Nat) × (Nat × Nat) × (Nat × Nat) × (Nat × Nat) :=
  match b with
  | .chamber c n => ((corePage c 0, 0xB80), (corePage c 0, 0xB00 + 8 * n.val), (corePage c 0, 0xB88), (corePage c 0, 0xB90))
  | .gallery h n =>
    ((hallPage h 0, 0xA00 + 16 * n.val), (hallPage h 0, 0xA08 + 16 * n.val), (hallPage h 0, 0xE80), (hallPage h 0, 0xE88))

/-- What the check bits of a line that is read show (R249). -/
def State.checkLine (s : State) (b : Bank) (line : Nat) (det : CheckBits) : State :=
  match det with
  | .good => s
  | .correctable => s.countSat (bankCounters b).2.2.2.1 (bankCounters b).2.2.2.2 1
  | .uncorrectable => s.poisonLine (bankAddr b line)

/-- A request is served: a write is performed or held, a read is answered with its line (R246, R249, R447). -/
def State.serveBank (s : State) (b : Bank) (r : BankReq) (det : CheckBits) : State :=
  let a := bankAddr b r.line
  match r.write with
  | some (off, d) =>
    let x := heldAgent (match b with | .chamber c _ => c.hall | .gallery h _ => h) r.src
    s.writeLine x (a + off) d
  | none =>
    let s := s.count64 (bankCounters b).1.1 (bankCounters b).1.2 1
    let s := s.checkLine b r.line det
    s.emit (.reply r.src (s.bytesAt a 64) (s.poisoned a))

/-- Reads that are merged with one are answered with it (R248). -/
def State.serveMerged (s : State) (b : Bank) (l : List WaitReq) : State :=
  let s := match b with
    | .gallery h n => s.count64 (hallPage h 0) (0xE00 + 8 * (n.val / 4)) l.length
    | .chamber _ _ => s
  l.foldl (fun s w => s.emit (.reply w.req.src (s.bytesAt (bankAddr b w.req.line) 64) (s.poisoned (bankAddr b w.req.line)))) s

/-- The part of a list behind an entry, and the part before it. -/
def splitAt (w : WaitReq) : List WaitReq → List WaitReq × List WaitReq
  | [] => ([], [])
  | x :: t => if x = w then ([], t) else let (a, b) := splitAt w t; (x :: a, b)

/-- Whether a request is due for promotion: it has waited 192 cycles of the bank's clock (R246). -/
def WaitReq.due (w : WaitReq) : Bool := decide (192 ≤ w.age) && !w.promoted

/-- The waiting requests that are due are promoted and counted (R246, R252, R253). -/
def State.promoteDue (s : State) (b : Bank) : State :=
  let l := s.bankQueue b
  (s.setBank b (l.map fun w => { w with promoted := w.promoted || w.due })).count64 (bankCounters b).2.2.1.1
    (bankCounters b).2.2.1.2 (l.countP WaitReq.due)

/-- Another cycle waited. A request that the group's router still holds has not begun to wait at the bank: R247 bounds the wait in
the window (DEDUCED, assumption log 54). -/
def waited (win beyond : List WaitReq) : List WaitReq := win.map (fun w => { w with age := w.age + 1 }) ++ beyond

/-- One cycle of a bank's clock (R246 to R249): requests that are due are promoted, arrivals join, one request is served, the
others wait. A read behind a waiting write to its line may be the one that is served (R246 gives the choice), but it then
answers no other: R248's last clause binds the merging (DEDUCED, assumption log 54). -/
def State.bankCycle (s : State) (b : Bank) (arrivals : List BankReq) (det : CheckBits) : State :=
  let s := s.promoteDue b
  let joined := s.bankQueue b ++ (arrivals.filter fun r => s.inBank b r.line).map fun r => ⟨r, 0, false⟩
  let win := bankWindow b joined
  let beyond := joined.drop win.length
  match bankChoice (s.servable b [] win) with
  | none =>
    let s := if win.isEmpty then s else s.count64 (bankCounters b).2.1.1 (bankCounters b).2.1.2 1
    s.setBank b (waited win beyond)
  | some w =>
    let (before, behind) := splitAt w win
    let gallery := match b with | .gallery _ _ => true | .chamber _ _ => false
    let wrote := before.any fun x => x.req.line == w.req.line && x.req.write.isSome
    let (merged, behind) :=
      if gallery && w.req.write.isNone then s.mergeReads b w.req.line wrote (before.map fun x => x.req.src) behind
      else ([], behind)
    let s := (s.serveBank b w.req det).serveMerged b merged
    let left := before ++ behind
    let s := if left.isEmpty then s else s.count64 (bankCounters b).2.1.1 (bankCounters b).2.1.2 1
    s.setBank b (waited left beyond)

/-- A request that has waited 192 cycles of the bank's clock is promoted (R246, R252, R253), before the bank's next choice, which
promotes every such request itself. -/
def State.promote (s : State) (b : Bank) (i : Nat) : State :=
  let l := s.bankQueue b
  match l[i]? with
  | some w =>
    if w.due then
      (s.setBank b (l.set i { w with promoted := true })).count64 (bankCounters b).2.2.1.1 (bankCounters b).2.2.1.2 1
    else s
  | none => s

/-! ### Near memory -/

/-- What the check symbols of a burst that is read show (R352, R353). -/
def State.checkBurst (s : State) (h : HallId) (addr : Nat) (det : CheckBits) : State :=
  match det with
  | .good => s
  | .correctable => s.countSat (memPage h) 0x818 1
  | .uncorrectable => s.poisonLine addr

/-- The interface that serves a burst (R351). -/
def burstIf (b : Nat) : Fin 4 := Fin.ofNat 4 ((bitsOf b 0 2).xor (bitsOf b 10 2))

/-- An interface fails its training or retraining (R349): the stack is out of service, and its hall. -/
def State.ifFailed (s : State) (h : HallId) (i : Fin 4) : State :=
  (((s.setField (memPage h) 0x800 (2 + i.val) 1 1).setField (memPage h) 0x800 0 2 3).recordErr (memPage h) 2).outOfService h

/-- An interface has retrained: for a new rate of the stack (R349), after the CRC retry limit, or on its own (R352, R355). -/
def State.retrainIf (s : State) (h : HallId) (i : Fin 4) (crc ok : Bool) : State :=
  let p := memPage h
  let l := (s.hall h).training
  if i ∈ l then
    let s := s.modHall h fun v => { v with training := l.erase i }
    if !ok then s.ifFailed h i
    else if l.erase i = [] ∧ s.field p 0x800 0 2 = 1 then s.setField p 0x800 0 2 2
    else s
  else
    let s := s.countSat p 0x824 1
    let s := if crc then (s.countSat p 0x820 8).recordErr p 1 else s
    if ok then s else s.ifFailed h i

/-- The link CRC made a transfer of a burst be repeated `n` times (R352): each repeat counts, and a transfer that has still failed after
8 makes the burst's interface retrain (R355). The repeats of the transfers that an instruction or an engine makes in its own step
are not told (assumption log 57). -/
def State.linkRetries (s : State) (h : HallId) (b n : Nat) : State :=
  if n = 0 then s else if n ≤ 8 then s.countSat (memPage h) 0x820 n else s.retrainIf h (burstIf b) true true

/-- Whether a request waits at its controller (R349, R355, R356). -/
def State.reqStalls (s : State) (q : NearReq) : Bool :=
  match q.req.write with
  | some d => s.writeStalls q.req.who q.req.addr d.length
  | none => s.readStalls q.req.who q.req.addr q.req.len

/-- A request reaches the ordering point of a stack: it is performed, or a write is held (R350, R356). -/
def State.nearPerform (s : State) (h : HallId) (o : Nat) (q : NearReq) : State :=
  let r := q.req
  let s := s.linkRetries h (o / 64) q.det.retries
  match r.write with
  | some d => (if d.length = 64 then s else s.checkBurst h r.addr q.det.bits).memWrite r.who r.addr d
  | none =>
    let m := (s.checkBurst h r.addr q.det.bits).memRead r.who r.addr r.len
    m.st.emit (.reply (agentSrc r.who) m.data m.poison)

/-- Requests of one burst: they are performed in the order in which they came (R356). -/
def sameBurst (a b : NearReq) : Bool := a.req.addr / 64 == b.req.addr / 64

/-- The requests that wait for a stack are performed as far as it takes them, in order; with those that stay. -/
def State.nearServe (s : State) (h : HallId) : (kept : List NearReq) → List NearReq → State × List NearReq
  | kept, [] => (s, kept)
  | kept, q :: t =>
    if s.reqStalls q || kept.any (sameBurst q) then s.nearServe h (kept ++ [q]) t
    else (s.nearPerform h (q.req.addr - nearBase h) q).nearServe h kept t

/-- Requests of a hall's stack that nothing holds any longer are performed. -/
def State.nearWork (s : State) (h : HallId) : State :=
  if (s.hall h).nearWait.isEmpty then s
  else
    let (s, l) := s.nearServe h [] (s.hall h).nearWait
    s.modHall h fun v => { v with nearWait := l }

/-- A request reaches a stack (R350, R356): it is performed, or waits for what holds it. -/
def State.nearAccess (s : State) (q : NearReq) : State :=
  let r := q.req
  match winOf r.addr with
  | .near h o =>
    if !s.reaches r.who r.addr then
      (s.accessError r.who r.addr r.write.isSome).emit (.reply (agentSrc r.who) (List.replicate r.len 0) false)
    else if s.reqStalls q || (s.hall h).nearWait.any (sameBurst q) then
      s.modHall h fun v => { v with nearWait := v.nearWait ++ [q] }
    else s.nearPerform h o q
  | _ => s

/-- The routers of a hall's stack at which requests wait because the controller takes none (R356, R358): it holds 64 writes, or its
stack is training. -/
def State.ejWaits (s : State) (h : HallId) : List Nat :=
  let v := s.hall h
  if 64 ≤ v.nearHeld.length ∨ s.field (memPage h) 0x800 0 2 = 1 then
    (v.nearWait.map fun q => nearRouter q.req.who (q.req.addr - nearBase h)).eraseDups
  else []

/-- A patrol read of a burst (R353). -/
def State.patrol (s : State) (h : HallId) (burst : Nat) (det : BurstCheck) : State :=
  if wbit (s.applWord (memPage h) 0x100) 3 ∧ burst < 1207959552 then
    (s.linkRetries h burst det.retries).checkBurst h (nearBase h + burst * 64) det.bits
  else s

/-! ### The CXL tier -/

/-- A burst access to the tier (R362 to R364) whose flits the link may repeat. A read that the device answers with poison,
also that of a partial write, leaves its burst poisoned until it is rewritten whole. -/
def State.cxlAccess (s : State) (r : BurstReq) (reply : CxlReply) : State :=
  match winOf r.addr with
  | .cxl o =>
    if !s.reaches r.who r.addr then
      (s.accessError r.who r.addr r.write.isSome).emit (.reply (agentSrc r.who) (List.replicate r.len 0) false)
    else
      let s := match s.cxlDecode o with
        | some (_, target, _) =>
          let s := if reply.retries = 0 then s else s.countSat (0x30 + 4 * (target / 4)) 0x854 reply.retries
          let whole := match r.write with | some d => decide (d.length = 64) | none => false
          if reply.poison && !whole && s.linkState target == 2 then
            { s with poison := SMap.set s.poison (s.lineKey r.addr) false true }
          else s
        | none => s
      match r.write with
      | some d => s.memWrite r.who r.addr d
      | none =>
        let m := s.memRead r.who r.addr r.len
        m.st.emit (.reply (agentSrc r.who) m.data m.poison)
  | _ => s

/-- The page and the register of a link. -/
def linkPage (p : Fin 2) : Nat := 0x30 + 4 * p.val
def linkOff (l : Fin 4) : Nat := 0x800 + 4 * l.val

/-- A link that is up fails (R364): its bursts are lost, and ERR bit 1 or 2 is set. -/
def State.linkFail (s : State) (p : Fin 2) (l : Fin 4) (err : Nat) : State :=
  if s.linkState (4 * p.val + l.val) ≠ 2 then s
  else
    let s := s.setField (linkPage p) (linkOff l) 0 2 3
    let s := { s with cxlLost := SMap.set s.cxlLost (4 * p.val + l.val) none (some []) }
    s.recordErr (linkPage p) err

/-- A request has had no response for 2 ms (R364). -/
def State.linkTimeout (s : State) (p : Fin 2) (l : Fin 4) : State :=
  if s.linkState (4 * p.val + l.val) ≠ 2 then s else (s.countSat (linkPage p) 0x858 1).linkFail p l 2

/-- A training link comes up (R360, R364): at a width its bifurcation admits and at most the rate that PCFG names. -/
def State.linkTrained (s : State) (p : Fin 2) (l : Fin 4) (width : Nat) (rate : Fin 3) (cap : BitVec 16) : State :=
  let w := s.applWord (linkPage p) 0x100
  if s.linkState (4 * p.val + l.val) = 1 ∧ width ≤ 16 / 2 ^ fieldOf w 1 2 ∧ fieldOf w 3 2 ≤ rate.val
      ∧ (width = 4 ∨ width = 8 ∨ width = 16) then
    s.setLive (linkPage p) (linkOff l) (w32 (2 + width * 2 ^ 2 + rate.val * 2 ^ 7 + min cap.toNat 65535 * 2 ^ 9))
  else s

end Sys2Proof.Machine
end

