-- ==== Sys2Proof/Machine/Fabric.lean ====
section
/-!
DEFINITION. The Yarlink fabric: bringing ports up and down (R366, R369, R373 to R375), receiving and replaying flits (R370 to R372),
routing and local delivery with its refusals (R379, R380, R423), and requests from other modules (R381, R449).
-/
namespace Sys2Proof.Machine

/-! ### Ports -/

/-- The training of a port ends, and with `keyed` its keying: the module ID that the peer names, and whether it proved it (R369). The
port trains at its widest width, keys while its keeper exchanges control flits, and comes up; a peer that is not the one named, or
that has proven nothing, leaves it down. -/
def State.portUpEnd (s : State) (p : PortId) (peer : Option (BitVec 18)) (proven : Bool) (lanes : BitVec 8) : State :=
  let pg := portPage p
  let w := s.applWord pg 0x108
  let width := widestOf lanes.toNat
  if s.portState p ≠ 1 ∧ s.portState p ≠ 2 then s
  else if width < s.minWidth p then
    ((s.dropPort p).setPstat p 4 0 lanes.toNat).recordErr pg 0
  else
    let s := if s.portState p = 1 then
        let (k, s) := s.takeFresh
        (s.setPstat p 2 width lanes.toNat).sendBare p 3 ((List.range flitBytes).map (Config.controlByte k))
      else s
    match peer with
    | none => s
    | some peer =>
      if !proven || (!wbit w 18 && peer.toNat != fieldOf w 0 18) then (s.setPstat p 0 0 lanes.toNat).recordErr pg 5
      else
        let (k, s) := s.takeFresh
        let e := s.liveWord pg 0x808
        let v := { YPort.zero with tx := ⟨Config.linkKey (s.privKey.getD 0) k true, e, 0, none⟩, rx := ⟨Config.linkKey (s.privKey.getD 0) k false, e, 0, none⟩ }
        ((s.setPort p v).setPstat p 3 width lanes.toNat).setLive pg 0x804 (w32 (peer.toNat + 2 ^ 18))

/-- LANEOK and WIDTH of a port. -/
def State.laneOk (s : State) (p : PortId) : Nat := s.field (portPage p) 0x800 7 8

/-- A port goes to the failed state (R375), where lanes `ok` have not failed. -/
def State.failPort (s : State) (p : PortId) (ok : Nat) : State :=
  let s := if s.portUp p then s.barPortFailed p else s
  ((s.dropPort p).setPstat p 4 0 ok).recordErr (portPage p) 0

/-- A port fails (R375). -/
def State.portFail (s : State) (p : PortId) : State :=
  if s.portState p = 1 ∨ s.portState p = 2 ∨ s.portState p = 3 then s.failPort p (s.laneOk p) else s

/-- Unacknowledged flits are sent again, in order and with identical bytes (R372). -/
def State.replay (s : State) (p : PortId) : State :=
  let l := (s.port p).unacked
  (l.foldl (fun s f => s.emit (.flit p f.bytes)) s).countSat (portPage p) 0x834 l.length

/-- A port that is up trains anew at the widest width of its lanes, or fails below MINW; then it replays and goes on (R373, R374). -/
def State.retrainPort (s : State) (p : PortId) (ok : Nat) (degrade : Bool) : State :=
  let width := widestOf ok
  if width < s.minWidth p then s.failPort p ok
  else
    let s := (s.setPstat p 3 width ok).setLive (portPage p) 0x008 0
    let s := if degrade then (s.countSat (portPage p) 0x838 1).recordErr (portPage p) 1 else s
    (s.replay p).pumpPort p

/-- A lane fails (R373). -/
def State.laneFail (s : State) (p : PortId) (l : Fin 8) : State :=
  if s.portUp p && bitOf (s.laneOk p) l.val then s.retrainPort p (s.laneOk p - 2 ^ l.val) true else s

/-- A write of YARLINK.CTL (R374): RETRAIN pauses a port that is up, and reads 1 until the retrain ends. -/
def State.writeRetrain (s : State) (p : PortId) (v : Word) : State :=
  if wbit v 0 && s.portUp p then s.setLive (portPage p) 0x008 1 else s

/-- The retrain that CTL asked for ends, at the widest width that the lanes now allow (R374). -/
def State.retrainEnd (s : State) (p : PortId) (lanes : BitVec 8) : State :=
  if s.portUp p && s.retraining p then s.retrainPort p lanes.toNat false else s

/-- The keepers have agreed a new key pair and the flit counts at which it takes effect in each direction (R371); counts that are
reached already let it take effect at once. -/
def State.keyRollover (s : State) (p : PortId) (txAt rxAt : Nat) : State :=
  let v := s.port p
  if s.portUp p && v.tx.roll.isNone && v.rx.roll.isNone then
    let (k, s) := s.takeFresh
    let tx := { v.tx with roll := some (txAt, Config.linkKey (s.privKey.getD 0) k true) }.due
    let rx := { v.rx with roll := some (rxAt, Config.linkKey (s.privKey.getD 0) k false) }.due
    ((s.setPort p { v with tx := tx, rx := rx }).setLive (portPage p) 0x808 tx.epoch).pumpPort p
  else s

/-! ### Receiving flits -/

/-- Flits that an acknowledgement covers leave the replay buffer (R370, R372). -/
def dropAcked (ack : BitVec 12) (l : List TxFlit) : List TxFlit :=
  match l.findIdx? fun f => f.seq = ack with
  | some i => l.drop (i + 1)
  | none => l

/-- A packet that has arrived on a port enters the mesh at its router (R358): barrier packets stay on their hop (R383), others go to the
routing step. -/
def State.arrivePacket (s : State) (p : PortId) (k : Packet) : State :=
  let s := s.count64 (portRouter p) 0x800 1
  let b := bitsOf k.target.toNat 0 7
  let round := BitVec.ofNat 16 (bitsOf k.target.toNat 7 16)
  if k.kind = 9 then s.barFromParent p b round
  else if k.kind = 8 then (s.emit (.packet (some p) k)).barFromChild p b round
  else s.toFabric (portHall p.val) (some p) k

/-- The packets that lie end to end in received bytes, and the bytes of one that goes on in the next flit (R370, R377). Zeros from the
end of a packet on are the fill of the flit (assumption log 20). `fuel` bounds the packets. -/
def parsePackets : (fuel : Nat) → List Byte → List Packet × List Byte
  | 0, _ => ([], [])
  | n + 1, d =>
    let hd := bytesNat (d.take 16)
    let m := 16 + payloadLen hd
    if d.all (· == 0) then ([], [])
    else if d.length < 16 ∨ d.length < m then ([], d)
    else
      let r := parsePackets n (d.drop m)
      (packetOf hd ((d.drop 16).take (m - 16)) :: r.1, r.2)

/-- The class of the packet that begins bytes (R376, R377). -/
def byteClass (d : List Byte) : List Nat :=
  match d with
  | [] => []
  | b :: _ => [kindClass (bitsOf b.toNat 0 4)]

/-- Credits of a class become owed to the peer. -/
def owe (m : SMap Nat) (c n : Nat) : SMap Nat := SMap.set m c 0 (SMap.get m c 0 + n)

/-- The payload of an intact data flit joins the packet under way (R370, R376). Each class in it has used a credit, which is returned
once its packets have left the buffer: that of a packet that goes on, when it is whole. -/
def State.takePayload (s : State) (p : PortId) (d : List Byte) : State :=
  let v := s.port p
  let r := parsePackets (v.part.length + d.length) (v.part ++ d)
  let ends := r.1.map fun k => kindClass k.kind.toNat
  let goes := byteClass r.2
  let whole := !(v.part.isEmpty || ends.isEmpty)
  let owed := (((ends ++ byteClass v.part).eraseDups).filter fun c => !goes.contains c).foldl (fun m c => owe m c 1) v.owed
  let owed := if whole then (byteClass v.part).foldl (fun m c => owe m c v.partHeld) owed else owed
  let held := if goes.isEmpty then 0 else if whole || v.part.isEmpty then 1 else v.partHeld + 1
  r.1.foldl (fun s k => s.arrivePacket p k) (s.setPort p { v with part := r.2, partHeld := held, owed := owed })

/-- A flit is discarded, with every flit after it, and a NAK is sent (R372): at every flit that fails a check, since a replayed one may
fail again, and at the first that is out of sequence. -/
def State.discardFlit (s : State) (p : PortId) (failed : Bool) : State :=
  if (s.port p).discarding && !failed then s else (s.setPort p { s.port p with discarding := true }).sendBare p 2

/-- What the header of an intact flit says: acknowledgement and link credits (R370). -/
def State.takeHeader (s : State) (p : PortId) (hd : Nat) : State :=
  let v := s.port p
  let c := bitsOf hd 26 2
  s.setPort p
    { v with unacked := dropAcked (BitVec.ofNat 12 (bitsOf hd 12 12)) v.unacked
             used := SMap.set v.used c 0 (SMap.get v.used c 0 - bitsOf hd 28 4) }

/-- Symbols that forward error correction corrected, and codewords that it could not (R365, R384). -/
def State.countFec (s : State) (p : PortId) (errs : List Nat) : State :=
  let ok := (errs.filter fun n => decide (n ≤ 15)).sum
  let bad := errs.countP fun n => decide (15 < n)
  let s := if ok = 0 then s else s.count64 (portPage p) 0x820 ok
  if bad = 0 then s else s.countSat (portPage p) 0x828 bad

/-- Whether the CRC of a flit holds (R370). -/
def flitCrc (b : List Byte) : Bool := bytesNat ((b.drop 252).take 4) == (crc32 (b.take 252)).toNat

/-- Whether the tag of a data flit holds under a key (R371). -/
def LinkKey.checks (k : LinkKey) (b : List Byte) : Bool :=
  gcmTagOf k.key.toNat k.iv (b.take 4) ((b.drop 4).take flitBytes) == (b.drop 236).take 16

/-- How far after the flit expected a data flit was sent, by its number: the sender keeps at most 2,048 flits (R372). -/
def seqAhead (seq expected : BitVec 12) : Int := (seq - expected).toInt

/-- A data flit whose CRC holds (R371, R372). -/
def State.dataFlit (s : State) (p : PortId) (b : List Byte) : State :=
  let pg := portPage p
  let v := s.port p
  let hd := bytesNat (b.take 4)
  let seq := BitVec.ofNat 12 hd
  match v.rx.ahead (seqAhead seq (v.rxSeq + 1)) with
  | none => s.discardFlit p false
  | some k =>
    if !k.checks b then ((s.countSat pg 0x830 1).recordErr pg 2).discardFlit p true
    else if seq ≠ v.rxSeq + 1 then s.discardFlit p false
    else
      let s := s.takeHeader p hd
      let s := s.setPort p { s.port p with rxSeq := seq, rx := v.rx.next, discarding := false }
      (((s.count64 pg 0x818 1).takePayload p (gcmCrypt k.key.toNat k.iv ((b.drop 4).take flitBytes))).sendBare p 1).pumpPort p

/-- A flit arrives at a port (R372). The contents of a control flit belong to the keepers' exchange (R371). -/
def State.flitArrive (s : State) (p : PortId) (f : RxFlit) : State :=
  let hd := bytesNat (f.bytes.take 4)
  let typ := bitsOf hd 24 2
  if !s.portUp p || s.retraining p then s
  else
    let s := s.countFec p f.errs
    if !flitCrc f.bytes then (s.countSat (portPage p) 0x82C 1).discardFlit p true
    else if typ = 0 then s.dataFlit p f.bytes
    else if BitVec.ofNat 12 hd ≠ (s.port p).rxSeq then s.discardFlit p false
    else
      let s := s.takeHeader p hd
      (if typ = 2 then s.replay p else s).pumpPort p

/-! ### Routing -/

/-- What the routing function answers (R379). -/
inductive Route where
  | here
  | port (p : PortId)
  | drop
deriving DecidableEq, Repr

/-- The home port of the partition of a hall (R379). -/
def State.homePort (s : State) (h : HallId) : Option PortId := (s.partPorts h).find? s.portEn

/-- The table port of a packet (R379). -/
def State.tablePort (s : State) (h : HallId) (inp : Option PortId) : Option PortId :=
  match inp with
  | some p => some p
  | none => s.homePort h

/-- The routing function (R379). -/
def State.route (s : State) (t : PortId) (dst : BitVec 18) : Route :=
  let grp := dst.toNat / 1024
  let mem := dst.toNat % 1024
  if grp ≠ s.myId.toNat / 1024 then
    let e := s.groupEntry t grp
    let ports := (List.finRange 12).filter fun p => bitOf e p.val
    if !bitOf e 15 then .drop
    else match ports[mem % ports.length]? with
      | some p => .port p
      | none => .drop
  else
    let e := s.memberEntry t mem
    if bitOf e 7 && decide (e % 16 < 12) then .port (Fin.ofNat 12 (e % 16)) else .drop

/-- The answer to a request: data of a read, or an acknowledgement (R376, R377, R381). -/
def answerTo (k : Packet) (err : Bool) (data : List Byte) : Packet :=
  { kind := if k.kind = 1 then 3 else 4, err := err, len := data.length, src := k.dst, dst := k.src, target := k.target, tag := k.tag
    data := data }

/-- Whether a packet asks for an answer. -/
def isRequest (k : Packet) : Bool := decide (k.kind.toNat ≤ 2)

/-- A packet is dropped: counted at its table port, a request answered with ERR (R379). DESIGN CHOICE: a partition without a home port
counts it at its lowest-numbered port, if it has one (assumption log 59). -/
def State.dropPacket (s : State) (h : HallId) (t : Option PortId) (k : Packet) : State :=
  let s := match t.or (s.partPorts h).head? with
    | some p => (s.countSat (portPage p) 0x83C 1).recordErr (portPage p) 3
    | none => s
  if isRequest k then s.toFabric h none { answerTo k true [] with src := s.myId } else s

/-- Whether a hall admits packets of the fabric (R422, R423). -/
def State.fabricAdmits (s : State) (h : HallId) : Bool :=
  s.hallMode h == 0 || (s.hallMode h == 2 && s.field 8 (0x800 + 4 * h.val) 2 1 == 1)

/-- Whether a byte of a request's target lies in the windows of the partition of a hall, no control page, in a hall that admits
packets (R380, R423). -/
def State.targetOk (s : State) (h : HallId) (a : Nat) : Bool :=
  match winOf a with
  | .near g _ => s.samePart h g && s.fabricAdmits g
  | .gallery g _ => s.samePart h g && s.fabricAdmits g
  | .chamber c _ => s.samePart h c.hall && s.fabricAdmits c.hall
  | .cxl t =>
    match s.cxlDecode t with
    | some (d, _, _) => (s.partHalls h).any fun g => s.decoderHas d g && s.fabricAdmits g
    | none => false
  | _ => false

/-- Whether a packet delivered here is refused, for the partition of a hall (R380, R423). -/
def State.refuses (s : State) (h : HallId) (k : Packet) : Bool :=
  let core := bitsOf k.target.toNat 0 11
  if isRequest k then
    k.len != 0 && !(s.targetOk h k.target.toNat && s.targetOk h (k.target.toNat + k.len - 1))
  else if k.kind = 5 ∨ k.kind = 6 ∨ k.kind = 7 then
    !(decide (core < 1152) && s.samePart h (CoreId.hall (Fin.ofNat 1152 core)) && s.fabricAdmits (CoreId.hall (Fin.ofNat 1152 core)))
  else false

/-- A refused packet: counted at its port, a request answered, a message's credit returned, with ERR (R380). -/
def State.refusePacket (s : State) (h : HallId) (inp : Option PortId) (k : Packet) : State :=
  let s := match inp with
    | some p => (s.countSat (portPage p) 0x840 1).recordErr (portPage p) 4
    | none => s
  let t := k.target.toNat
  if isRequest k then s.toFabric h none { answerTo k true [] with src := s.myId }
  else if k.kind = 5 ∨ k.kind = 6 then
    s.toFabric h none
      { kind := 7, err := true, len := 0, src := s.myId, dst := k.src
        target := chanTarget (bitsOf t 16 11) 0 (bitsOf t 0 11) (bitsOf t 27 5) 0, tag := 0, data := [] }
  else s

/-- A packet whose destination is this module (R380): from a port, refused or delivered; one that this module sends itself is hall
traffic, whose partition each access and each packet of the mesh meets (R24). -/
def State.deliver (s : State) (h : HallId) (inp : Option PortId) (k : Packet) : State :=
  let chan := k.kind = 5 ∨ k.kind = 6 ∨ k.kind = 7
  let core := bitsOf k.target.toNat 0 11
  match inp with
  | none =>
    let s := s.emit (.packet none k)
    if chan then s.toCore (Fin.ofNat 1152 (bitsOf k.target.toNat 16 11)) core (packetBody k) else s
  | some p =>
    if s.refuses h k then s.refusePacket h inp k
    else
      let s := s.emit (.packet inp k)
      if chan then { s with mesh := s.mesh ++ [⟨.port p, Fin.ofNat 1152 core, packetBody k⟩] } else s

/-- A packet is routed (R379). -/
def State.routeOne (s : State) (r : RoutePkt) : State :=
  if r.pkt.dst = s.myId then s.deliver r.hall r.inp r.pkt
  else
    let t := s.tablePort r.hall r.inp
    match t with
    | none => s.dropPacket r.hall none r.pkt
    | some tp =>
      match s.route tp r.pkt.dst with
      | .port p => if some p = r.inp ∨ s.portUp p = false then s.dropPacket r.hall t r.pkt else s.queuePacket p r.pkt
      | _ => s.dropPacket r.hall t r.pkt

/-- The oldest packet from a port, or from this module, is routed. -/
def State.packetRoute (s : State) (inp : Option PortId) : State :=
  match s.routing.find? fun r => r.inp = inp with
  | some r => { s with routing := s.routing.erase r }.routeOne r
  | none => s

/-! ### Requests from other modules -/

/-- The hall for whose partition a delivered packet acts: its port's; for one of this module, that of its target. -/
def State.targetHall (inp : Option PortId) (k : Packet) : HallId :=
  match inp with
  | some p => portHall p.val
  | none => match winOf k.target.toNat with
    | .near g _ => g
    | .gallery g _ => g
    | .chamber c _ => c.hall
    | _ => 0

/-- Whether some byte of a written range is still held (R356, R381). -/
def State.rangeHeld (s : State) (a n : Nat) : Bool :=
  (List.finRange 8).any fun h =>
    ((s.hall h).nearHeld ++ (s.hall h).galHeld).any fun w => decide (w.addr < a + n ∧ a < w.addr + w.data.length)

/-- The agent that performs a delivered request: the keeper for one from a port, which the refusals have let through (R380); for one of
this module the engine that made it, since it is hall traffic (R24). -/
def State.packetAgent (s : State) (inp : Option PortId) (k : Packet) : Agent :=
  match inp with
  | some _ => .keeper
  | none =>
    match s.remote.find? fun r => r.tag == k.tag.toNat && r.write == decide (k.kind ≠ 1) with
    | some r => match r.who with
      | .dma h d => .engine h ⟨5 + d.val, by omega⟩
      | .snapshot h => snapAgent h
    | none => .keeper

/-- A remote write or snapshot copy is performed and acknowledged, once every burst of it is (R381, R449); one that memory does not take
yet is not performed (assumption log 65). -/
def State.remoteWrite (s : State) (inp : Option PortId) (k : Packet) : State :=
  let h := State.targetHall inp k
  let a := k.target.toNat
  let w := s.packetAgent inp k
  if inp.isSome && s.refuses h k then s.refusePacket h inp k
  else if s.writeStalls w a k.data.length then s
  else
    let s := s.memWrite w a k.data
    if s.rangeHeld a k.data.length then { s with pendAcks := s.pendAcks ++ [⟨a, k.data.length, h, inp, k⟩] }
    else s.toFabric h none (answerTo k false [])

/-- Acknowledgements that nothing holds any longer are sent. -/
def State.releaseAcks (s : State) : State :=
  let free := s.pendAcks.filter fun p => !s.rangeHeld p.addr p.len
  free.foldl (fun s p => s.toFabric p.hall none (answerTo p.pkt false []))
    { s with pendAcks := s.pendAcks.filter fun p => s.rangeHeld p.addr p.len }

/-- A remote read is performed and answered with its data; one that meets poison is answered with ERR (R381; assumption log
23). -/
def State.remoteRead (s : State) (inp : Option PortId) (k : Packet) : State :=
  let h := State.targetHall inp k
  let w := s.packetAgent inp k
  if inp.isSome && s.refuses h k then s.refusePacket h inp k
  else if s.readStalls w k.target.toNat k.len then s
  else
    let m := s.memRead w k.target.toNat k.len
    m.st.toFabric h none (if m.poison then answerTo k true [] else answerTo k false m.data)

end Sys2Proof.Machine
end

