-- ==== Sys2Proof/Machine/HallDma.lean ====
section
/-!
DEFINITION. The hall DMA engines (R346 to R348): descriptors, the rows and pieces of COPY, FILL and SCRUB between device memory,
host memory and other modules (R381, R400), and the answers of other modules to their requests and to those of the snapshot
engines (R381, R449).
-/
namespace Sys2Proof.Machine

/-! ### Descriptors -/

/-- The fields of a hall DMA descriptor (R346). -/
structure HdmaDesc where
  sspace : Nat
  dspace : Nat
  rowLen : Nat
  rows : Nat
  fill : Nat
  src : Nat
  dst : Nat
  sstride : Int
  dstride : Int
  module : BitVec 18

/-- The fields of a descriptor's bytes. -/
def hdmaDesc (d : List Byte) : HdmaDesc :=
  { sspace := bitsOf (dget d 16 1) 0 2, dspace := bitsOf (dget d 16 1) 2 2, rowLen := dget d 20 4, rows := dget d 24 4
    fill := dget d 28 4, src := dget d 32 8, dst := dget d 40 8, sstride := (BitVec.ofNat 32 (dget d 48 4)).toInt
    dstride := (BitVec.ofNat 32 (dget d 52 4)).toInt, module := BitVec.ofNat 18 (dget d 56 4) }

/-- Whether a descriptor is one with status 1 (R322, R323, R346, R347). -/
def hdmaBad (d : List Byte) : Bool :=
  let g := hdmaDesc d
  let op := dOp d
  bitsOf (dget d 16 1) 4 4 != 0 || dget d 17 3 != 0 || bitsOf (dget d 56 4) 18 14 != 0 || dget d 60 4 != 0
    || g.sspace == 3 || g.dspace == 3 || (op == 1 && g.sspace == g.dspace && g.sspace != 0)
    || (op == 1 && g.sspace != 1 && decide (2 ^ 48 ≤ g.src)) || (g.dspace != 1 && decide (2 ^ 48 ≤ g.dst))
    || (op == 3 && (g.dspace != 0 || g.dst % 64 != 0 || g.rowLen % 64 != 0 || g.dstride % 64 != 0))
    || (dTally d != 0 && g.rowLen * 8 % fmtWidth (dEfmt d) != 0)

/-- The address of row `k` on each side; host addresses have 64 bits. -/
def rowAddress (base : Nat) (stride : Int) (k : Nat) : Nat := (((base : Int) + (k : Int) * stride) % 2 ^ 64).toNat
def HdmaDesc.srcRow (g : HdmaDesc) (k : Nat) : Nat := rowAddress g.src g.sstride k
def HdmaDesc.dstRow (g : HdmaDesc) (k : Nat) : Nat := rowAddress g.dst g.dstride k

/-- The engine number of hall DMA engine `d` (R317). -/
def hdmaEng (d : Fin 4) : Fin 9 := ⟨d.val + 5, by omega⟩

/-- Bytes put into a list at a place, what is missing before it zero. -/
def putAt (l : List Byte) (o : Nat) (d : List Byte) : List Byte :=
  l.take o ++ List.replicate (o - l.length) 0 ++ d ++ l.drop (o + d.length)

/-- The bytes that a descriptor writes at byte `b` of row `k` are kept for its tally, when it has one (R347). -/
def EngRun.keep (r : EngRun) (k b : Nat) (d : List Byte) : EngRun :=
  if dTally r.desc = 0 then r else { r with kept := putAt r.kept (k * (hdmaDesc r.desc).rowLen + b) d }

/-- The elements of the bytes written, counted as EFMT, each once (R78, R347). -/
def EngRun.tallied (r : EngRun) : EngRun :=
  let w := fmtWidth (dEfmt r.desc)
  let r := { r with zero := 0, sat := 0, nan := 0 }
  if dTally r.desc = 0 then r
  else r.count (dEfmt r.desc) ((bitElems w (r.kept.length * 8 / w) (bytesNat r.kept)).map Elem.ofBits)

/-! ### Host memory -/

/-- Whether a hall's DMA engines may reach host memory (R422). -/
def State.hostOpen (s : State) (h : HallId) : Bool := s.hallMode h == 0 || s.hallMode h == 2

/-- The page of the PCIe router that serves a hall (R26, R358). -/
def pcieRouter (h : HallId) : Nat := hallPage 0 (if h.val < 4 then 0x99 else 0x9A)

/-- A write to memory of the host (R399, R400). -/
def State.toHost (s : State) (h : HallId) (addr : Nat) (d : List Byte) : State :=
  (s.count64 (pcieRouter h) 0x808 1).emit (.hostWrite (h.val + 1) addr d)

/-- A read of host memory and its reply, counted where they pass (R358, R403). -/
def State.hostRead (s : State) (h : HallId) : State :=
  ((s.count64 (pcieRouter h) 0x808 1).count64 (pcieRouter h) 0x800 1).txRequest.rxTlp

/-- A failed read of host memory stops its descriptor with status 5 (R400). Its request counts as sent; whether a completion arrived or
the read timed out is not known, so that what RX_TLP counts is a free value (R403; assumption log 2). -/
def State.hostFail (s : State) (h : HallId) (n : Fin 9) (q : Fin 4) (r : EngRun) (detail : Nat) : State :=
  if s.recordStalls h n r.desc then s
  else
    let (k, s) := ((s.engStop h n q r 5 detail).recordErr (0x20 + h.val) 2).txRequest.takeFresh
    if Config.freeNat k % 2 = 0 then s else s.rxTlp

/-! ### Pieces -/

/-- The piece of a row that begins at byte `b`: its length. It lies within one 64-byte line of the destination space (R347); one that
is read from another module, within one 4 KiB page there besides (R376). -/
def pieceLen (g : HdmaDesc) (copy : Bool) (k b : Nat) : Nat :=
  let line := min (g.rowLen - b) (64 - (g.dstRow k + b) % 64)
  if copy ∧ g.sspace = 2 then min line (4096 - (g.srcRow k + b) % 4096) else line

/-- Whether an engine may send a further request (R381). -/
def State.roomFor (s : State) (h : HallId) (n : Fin 9) : Bool :=
  decide ((s.remote.filter fun r => isEngine h n r.who).length < 256)

/-- A request of a hall DMA engine. -/
def dmaRequest (h : HallId) (d q : Fin 4) (write host : Bool) (addr len row byte : Nat) : RemReq :=
  { who := .dma h d, q := q, tag := 0, write := write, host := host, addr := addr, len := len, row := row, byte := byte }

/-- The progress of a descriptor past byte `b` of its row. -/
def EngRun.past (r : EngRun) (rowLen b : Nat) : EngRun :=
  if rowLen ≤ b then { r with unit := r.unit + 1, byte := 0, result := r.unit + 1 } else { r with byte := b }

/-- Bytes go to the destination; none when the destination waits. -/
def State.dmaPut (s : State) (h : HallId) (d q : Fin 4) (g : HdmaDesc) (k b : Nat) (data : List Byte) : Option State :=
  let a := g.dstRow k + b
  let n := hdmaEng d
  if g.dspace = 1 then some (s.toHost h a data)
  else if g.dspace = 2 then
    if s.roomFor h n then
      some (s.sendRequest h (dmaRequest h d q true false 0 data.length k b) 0 g.module a data)
    else none
  else if s.writeStalls (.engine h n) a data.length then none
  else some (s.agentWrite (.engine h n) a data { obs := q.val })

/-- The source bytes of a piece. -/
inductive PieceSrc where
  /-- not there yet -/
  | wait
  /-- the bytes before a poisoned line -/
  | poison (s : State) (d : List Byte)
  | data (s : State) (d : List Byte)

/-- The parts of a piece by line of the destination, read until a poisoned one. -/
def State.readParts (s : State) (a : Agent) (addr : Nat) : List (Nat × Nat) → PieceSrc
  | [] => .data s []
  | (b, n) :: t =>
    match s.eread a (addr + b) n with
    | .stall => .wait
    | .poison s _ => .poison s []
    | .ok s d =>
      match s.readParts a addr t with
      | .wait => .wait
      | .poison s l => .poison s (d ++ l)
      | .data s l => .data s (d ++ l)

/-- The source bytes of a piece of `n` bytes: filled, of device memory, or of what the host has answered (`host`, of which the
descriptor has used `r.pos`). -/
def State.pieceSrc (s : State) (h : HallId) (d : Fin 4) (g : HdmaDesc) (r : EngRun) (b n : Nat) (host : List Byte) :
    PieceSrc :=
  if dOp r.desc = 2 then .data s (fillBytes g.fill b n)
  else if g.sspace = 1 then
    if n ≤ host.length - r.pos then .data (s.hostRead h) ((host.drop r.pos).take n) else .wait
  else
    let dst := g.dstRow r.unit + b
    s.readParts (.engine h (hdmaEng d)) (g.srcRow r.unit + b) ((pieces dst n).map fun p => (p.1 - dst, p.2))

/-- Bytes of a piece are written, and the descriptor goes on past them; it waits with its destination. -/
def State.putPiece (s : State) (h : HallId) (d q : Fin 4) (g : HdmaDesc) (r : EngRun) (b : Nat) (data : List Byte) : UnitRes :=
  match s.dmaPut h d q g r.unit b data with
  | none => .stall
  | some s =>
    let r := if g.sspace = 1 ∧ dOp r.desc = 1 then { r with pos := r.pos + data.length } else r
    .go s ((r.keep r.unit b data).past g.rowLen (b + data.length))

/-- A piece whose bytes the engine has or reads itself (R347). -/
def State.movePiece (s : State) (h : HallId) (d q : Fin 4) (g : HdmaDesc) (r : EngRun) (b n : Nat) (host : List Byte) : UnitRes :=
  match s.pieceSrc h d g r b n host with
  | .wait => .stall
  | .data s l => s.putPiece h d q g r b l
  | .poison s l =>
    if l.isEmpty then .stop s { r with byte := b } 2 b
    else match s.putPiece h d q g r b l with
      | .go s r => .stop s r 2 r.byte
      | u => u

/-- A piece of another module's memory is asked for (R381); its bytes arrive later. -/
def State.askPiece (s : State) (h : HallId) (d q : Fin 4) (g : HdmaDesc) (r : EngRun) (b n : Nat) : UnitRes :=
  if s.roomFor h (hdmaEng d) then
    .go (s.sendRequest h (dmaRequest h d q false (g.dspace = 1) (g.dstRow r.unit + b) n r.unit b) 1 g.module
      (g.srcRow r.unit + b) []) (r.past g.rowLen (b + n))
  else .stall

/-- The pieces of a row from device memory to device memory are written in order. -/
def State.writePiecesOf (s : State) (a : Agent) (q : Fin 4) (addr : Nat) (b : Nat) : List (Nat × Nat) → List Byte → State
  | [], _ => s
  | (_, n) :: t, l =>
    if l.isEmpty then s
    else (s.agentWrite a (addr + b) (l.take n) { obs := q.val }).writePiecesOf a q addr (b + n) t (l.drop n)

/-- A row of a copy within the device, from byte `b`: read whole before any of it is written (R173, R176). -/
def State.moveRow (s : State) (h : HallId) (d q : Fin 4) (g : HdmaDesc) (r : EngRun) (b : Nat) : UnitRes :=
  let a : Agent := .engine h (hdmaEng d)
  let dst := g.dstRow r.unit
  let n := g.rowLen - b
  let parts := (pieces (dst + b) n).map fun p => (p.1 - (dst + b), p.2)
  if s.writeStalls a (dst + b) n then .stall
  else match s.readParts a (g.srcRow r.unit + b) parts with
    | .wait => .stall
    | .data s l => .go (s.writePiecesOf a q dst b parts l) ((r.keep r.unit b l).past g.rowLen g.rowLen)
    | .poison s l =>
      .stop (s.writePiecesOf a q dst b parts l) { r.keep r.unit b l with byte := b + l.length } 2 (b + l.length)

/-- A line of a SCRUB: written as zeros, then read back (R347). `bad`: the line, counted by the command, whose read-back does not
show what was written. -/
def State.scrubLine (s : State) (h : HallId) (d q : Fin 4) (g : HdmaDesc) (r : EngRun) (b : Nat) (bad : Option Nat) : UnitRes :=
  let a : Agent := .engine h (hdmaEng d)
  let addr := g.dstRow r.unit + b
  if s.writeStalls a addr 64 then .stall
  else
    let z := List.replicate 64 (0 : Byte)
    let s := s.agentWrite a addr z { obs := q.val }
    match s.eread a addr 64 with
    | .stall => .stall
    | .poison s _ => .stop s { r with byte := b } 2 b
    | .ok s l =>
      if l ≠ z ∨ bad = some r.pos then .stop s { r with byte := b } 7 b
      else .go s { (r.keep r.unit b z).past g.rowLen (b + 64) with pos := r.pos + 1 }

/-- The next piece of the descriptor of a queue (R346, R347). -/
def State.dmaUnit (h : HallId) (d q : Fin 4) (host : List Byte) (bad : Option Nat) (s : State) (r : EngRun) : UnitRes :=
  let g := hdmaDesc r.desc
  let copy := decide (dOp r.desc = 1)
  if hdmaBad r.desc then .stop s r 1 0
  else if g.rowLen = 0 ∨ g.rows ≤ r.unit then .fin s r.tallied
  else if dOp r.desc = 3 then s.scrubLine h d q g r r.byte bad
  else if (g.dspace = 1 ∨ (copy ∧ g.sspace = 1)) ∧ s.hostOpen h = false then
    .stop (s.recordErr (0x20 + h.val) 2) r 5 r.byte
  else if copy ∧ g.sspace = 2 then s.askPiece h d q g r r.byte (pieceLen g copy r.unit r.byte)
  else if copy ∧ g.sspace = 0 ∧ g.dspace = 0 then s.moveRow h d q g r r.byte
  else s.movePiece h d q g r r.byte (pieceLen g copy r.unit r.byte) host

/-- The work of the descriptor under way in a queue of a hall DMA engine, when it is one of operation `op`: as far as memories,
requests and what the host has answered let it go. -/
def State.dmaWork (s : State) (h : HallId) (d q : Fin 4) (op : Nat) (host : List Byte) (bad : Option Nat) : State :=
  let n := hdmaEng d
  let r := s.engRun h n q
  let g := hdmaDesc r.desc
  (s.setRun h n q { r with pos := 0 }).engWork h n q op
    (g.rows * (g.rowLen / 64 + g.rowLen / 4096 + 3) + 1)
    (State.dmaUnit h d q host bad)

/-- A failed read of host memory stops the COPY that made it (R400). -/
def State.hostReadFail (s : State) (h : HallId) (d q : Fin 4) : State :=
  let n := hdmaEng d
  let r := s.engRun h n q
  let g := hdmaDesc r.desc
  if s.engState h n q = 1 ∧ r.phase = .running ∧ dOp r.desc = 1 ∧ hdmaBad r.desc = false ∧ g.sspace = 1 ∧ g.rowLen ≠ 0
      ∧ r.unit < g.rows then
    s.hostFail h n q r r.byte
  else s

/-! ### Completion -/

/-- Whether a memory or another module has still to perform a write or request of an engine's queue (R324, R381). -/
def State.engHeld (s : State) (h : HallId) (n : Fin 9) (q : Fin 4) : Bool :=
  s.remote.any (reqOf h n q) || s.engWrites h n q

/-- A descriptor whose work has ended completes once its writes are performed, and then its record (R324). -/
def State.descComplete (s : State) (h : HallId) (n : Fin 9) (q : Fin 4) : State :=
  let r := s.engRun h n q
  if s.engState h n q ≠ 1 ∨ s.engHeld h n q = true then s
  else match r.phase with
    | .ended => if s.recordStalls h n r.desc then s else s.engComplete h n q
    | .recorded => s.engFinish h n q
    | _ => s

/-! ### Answers of other modules -/

/-- The outstanding request that an answer names. -/
def State.request (s : State) (who : Requester) (tag : Nat) : Option RemReq :=
  s.remote.find? fun r => r.who == who && r.tag == tag

/-- An outstanding request is answered. -/
def State.dropRequest (s : State) (r : RemReq) : State :=
  { s with remote := s.remote.filter fun q => !(q.who == r.who && q.tag == r.tag) }

/-- A request fails (R381, R448): the cairn, or the descriptor with status 6 at the request's row and byte; its requests from there on
are forgotten and made again when it is resumed. -/
def State.requestFail (s : State) (r : RemReq) : State :=
  let s := s.dropRequest r
  match r.who with
  | .snapshot h => s.cairnFail h 1
  | .dma h d =>
    let n := hdmaEng d
    let run := s.engRun h n r.q
    let s := { s with remote := s.remote.filter fun q =>
      !(reqOf h n r.q q && (decide (r.row < q.row) || (q.row == r.row && decide (r.byte < q.byte)))) }
    s.engStop h n r.q { run with phase := .running, unit := r.row, byte := r.byte, result := r.row, pos := 0 } 6 r.byte

/-- A request fails, once the record that its descriptor then writes finds room at its memory. -/
def State.requestFails (s : State) (r : RemReq) : State :=
  match r.who with
  | .dma h d => if s.recordStalls h (hdmaEng d) (s.engRun h (hdmaEng d) r.q).desc then s else s.requestFail r
  | .snapshot _ => s.requestFail r

/-- The data of a read reply are written where they go (R381); none when that memory waits. -/
def State.replyWrite (s : State) (h : HallId) (d : Fin 4) (r : RemReq) (data : List Byte) : Option State :=
  let n := hdmaEng d
  if r.host then some (s.toHost h r.addr data)
  else if s.writeStalls (.engine h n) r.addr data.length then none
  else
    some (s.agentWrite (.engine h n) r.addr data { obs := r.q.val })

/-- The bytes of a reply join those that a descriptor's tally counts; the count of a descriptor whose work has ended is taken
again. -/
def EngRun.keepReply (run : EngRun) (r : RemReq) (data : List Byte) : EngRun :=
  let run := run.keep r.row r.byte data
  if run.phase = .ended then run.tallied else run

/-- A read reply arrives at its requester (R381). -/
def State.readReply (s : State) (who : Requester) (k : Packet) : State :=
  match s.request who k.tag.toNat with
  | none => s
  | some r =>
    if r.write then s
    else if k.err then s.requestFails r
    else match who with
      | .snapshot _ => s
      | .dma h d =>
        let data := k.data.take r.len
        match s.replyWrite h d r data with
        | none => s
        | some s =>
          (s.setRun h (hdmaEng d) r.q ((s.engRun h (hdmaEng d) r.q).keepReply r data)).dropRequest r

/-- A write acknowledgement arrives at its requester (R381, R449). -/
def State.writeAck (s : State) (who : Requester) (k : Packet) : State :=
  match s.request who k.tag.toNat with
  | none => s
  | some r =>
    if !r.write then s
    else if k.err then s.requestFails r
    else match who with
      | .snapshot h => (s.dropRequest r).cairnHead h
      | .dma _ _ => s.dropRequest r

/-- A request has not been answered within 4 ms (R381). -/
def State.requestTimeout (s : State) (who : Requester) (tag : BitVec 12) : State :=
  match s.request who tag.toNat with
  | none => s
  | some r => s.requestFails r

end Sys2Proof.Machine
end

