-- ==== Sys2Proof/Machine/Host.lean ====
section
/-!
DEFINITION. The host interface (R386 to R403): doorbells and submission, completion posts, MSI-X tables, the reach of BAR2, resets of
functions and of the port (R401, R402, R480), the link (R386, R403) and configuration requests (R402).
-/
namespace Sys2Proof.Machine

/-! ### Function pages -/

/-- Slots of the submission and completion queues of a function as applied (R392). -/
def State.sqEntries (s : State) (h : HallId) : Nat := fieldOf (s.applWord (funPage h) 0x108) 0 13
def State.cqEntries (s : State) (h : HallId) : Nat := fieldOf (s.applWord (funPage h) 0x118) 0 13

/-- DBOUT of a function (R393). -/
def State.dbout (s : State) (h : HallId) : Bool := wbit (s.liveWord (funPage h) 0x820) 3
def State.setDbout (s : State) (h : HallId) (b : Bool) : State := s.setField (funPage h) 0x820 3 1 (b2n b)

/-- A doorbell message as it is written (R396). -/
def State.doorbellMsg (s : State) (h : HallId) : Message :=
  { target := Fin.ofNat 32 (fieldOf (s.applWord (funPage h) 0x10C) 11 5), sender := none, rank := 0
    data := natBytes 2 (s.liveWord (funPage h) 0x800).toNat ++ natBytes 2 (s.liveWord (funPage h) 0x804).toNat
      ++ List.replicate 60 0 }

/-- The condition of a doorbell is tested, and the message written or dropped (R396, R454). -/
def State.doorbell (s : State) (h : HallId) : State :=
  let p := funPage h
  if s.sqEntries h = 0 ∨ s.liveWord p 0x800 = s.liveWord p 0x804 ∨ s.dbout h = true then s
  else
    let c : CoreId := Fin.ofNat 1152 (fieldOf (s.applWord p 0x10C) 0 11)
    let m := s.doorbellMsg h
    let s := s.setDbout h true
    if s.coreSealed c then s.sealDrop h
    else if s.ringTakes c m.target.val then (s.receive c m).count64 p 0x830 1
    else ((s.receive c m).recordErr p 1).setDbout h false

/-- An index is written, or the write is an access error (R393). -/
def State.writeIndex (s : State) (a : Agent) (h : HallId) (off entries : Nat) (v : Word) : State × Bool :=
  if fieldOf v 0 13 < entries then (s.setLive (funPage h) off (w32 (fieldOf v 0 13)), true)
  else (s.ctlError a (funPage h * 4096 + off) true, false)

/-- A write of SQ_TAIL (R393, R396, R401). -/
def State.writeSqTail (s : State) (a : Agent) (h : HallId) (v : Word) : State :=
  if s.vfReset h then s
  else match s.writeIndex a h 0x800 (s.sqEntries h) v with
    | (s, true) => s.doorbell h
    | (s, false) => s

/-- A write of SQ_HEAD (R393, R396). -/
def State.writeSqHead (s : State) (a : Agent) (h : HallId) (v : Word) : State :=
  match s.writeIndex a h 0x804 (s.sqEntries h) v with
  | (s, true) => (s.setDbout h false).doorbell h
  | (s, false) => s

/-- A write of CQ_HEAD (R393, R401). -/
def State.writeCqHead (s : State) (a : Agent) (h : HallId) (v : Word) : State :=
  if s.vfReset h then s else (s.writeIndex a h 0x808 (s.cqEntries h) v).1

/-- A write of RAISE (R393). -/
def State.writeRaise (s : State) (a : Agent) (h : HallId) (v : Word) : State :=
  if fieldOf v 0 2 < 2 then s.raiseMsix (h.val + 1) (2 + fieldOf v 0 2)
  else s.ctlError a (funPage h * 4096 + 0x814) true

/-! ### Completion posts -/

/-- The posts of a function that wait, oldest first. -/
def State.postsOf (s : State) (h : HallId) : List Word := SMap.get s.posts h.val []
def State.setPosts (s : State) (h : HallId) (l : List Word) : State := { s with posts := SMap.set s.posts h.val [] l }

/-- The body address that a post names. -/
def postBody (h : HallId) (v : Word) : Nat := galleryBase h + fieldOf v 4 24 * 16

/-- A completion record (R398). -/
def State.postRecord (s : State) (h : HallId) (body : List Byte) : List Byte :=
  let p := funPage h
  body ++ natBytes 8 (s.live64 2 0x808) ++ natBytes 2 (s.liveWord p 0x804).toNat
    ++ natBytes 1 (s.field p 0x80C 16 1) ++ List.replicate 5 0

/-- A post is made or refused (R399). -/
def State.makePost (s : State) (h : HallId) (v : Word) : State :=
  let p := funPage h
  let n := s.cqEntries h
  let tail := s.field p 0x80C 0 13
  let next := (tail + 1) % n
  if n = 0 then s.ctlError (.vf h false) (p * 4096 + 0x810) true
  else if next = (s.liveWord p 0x808).toNat then s.recordErr p 0
  else
    let a := postBody h v
    let x : Agent := .vf h false
    let m := s.memRead x a 16
    if !(s.reaches x a && s.reaches x (a + 15)) then m.st.recordErr p 2
    else if m.poison then (m.st.accessError x a false).recordErr p 2
    else
      let base := (s.applWord p 0x110).toNat / 32 * 32 + (s.applWord p 0x114).toNat * 2 ^ 32
      let s := (m.st.toHost h (base + tail * 32) (s.postRecord h m.data)).count64 p 0x828 1
      let s := s.setLive p 0x80C
        (w32 (next + (if next = 0 then 1 - s.field p 0x80C 16 1 else s.field p 0x80C 16 1) * 2 ^ 16))
      if wbit v 0 && wbit (s.applWord p 0x118) 13 then s.raiseMsix (h.val + 1) 0 else s

/-- Posts whose bodies can be read are made, in order, at most `fuel` (R399). -/
def State.runPosts (s : State) (h : HallId) : (fuel : Nat) → State
  | 0 => s
  | k + 1 =>
    match s.postsOf h with
    | [] => s
    | v :: t =>
      if s.readStalls (.vf h false) (postBody h v) 16 then s else ((s.setPosts h t).makePost h v).runPosts h k

/-- The posts of every function go on. -/
def State.allPosts (s : State) : State := (List.finRange 8).foldl (fun s h => s.runPosts h (s.postsOf h).length) s

/-- A write of CQ_POST (R393, R399, R401). -/
def State.writeCqPost (s : State) (a : Agent) (h : HallId) (v : Word) : State :=
  if s.vfReset h then s
  else if s.cqEntries h = 0 then s.ctlError a (funPage h * 4096 + 0x810) true
  else (s.setPosts h (s.postsOf h ++ [v])).runPosts h (s.postsOf h ++ [v]).length

/-! ### MSI-X tables -/

/-- An entry of an MSI-X table is unmasked: a pending message is sent (R394). -/
def State.unmask (s : State) (fn entry : Nat) : State :=
  let p := msixPage fn
  if wbit (s.liveWord p (pbaOff fn)) entry && !wbit (s.liveWord p (msixOff fn entry + 12)) 0
      && !s.msixHeld fn then
    (s.setField p (pbaOff fn) entry 1 0).msixSend fn entry
  else s

/-- A write of a word of an MSI-X table of a function (R394). -/
def State.writeMsix (s : State) (fn off : Nat) (v : Word) : State :=
  let p := msixPage fn
  let e := (off - msixOff fn 0) / 16
  (s.setLive p off (w32 (v.toNat.land (maskAt p off)))).unmask fn e

/-! ### BAR2 -/

/-- Free bytes: what a poisoned completion carries (R390; assumption log 2). -/
def State.freeBytes (s : State) : (n : Nat) → State × List Byte
  | 0 => (s, [])
  | n + 1 =>
    let (k, s) := s.takeFresh
    let (s, l) := s.freeBytes n
    (s, Config.freeByte k :: l)

/-- The hall whose PCIe router serves an address of BAR2. -/
def bar2Hall (a : Nat) : HallId := match winOf a with | .near h _ => h | _ => 0

/-- Packets of a BAR2 request at the PCIe router: one each way for each burst (R358, R390). -/
def State.countBar2 (s : State) (a n : Nat) : State :=
  let k := (pieces a n).length
  (s.count64 (pcieRouter (bar2Hall a)) 0x800 k).count64 (pcieRouter (bar2Hall a)) 0x808 k

/-- Flits that the link layer replayed (R403). -/
def State.countReplays (s : State) (n : Nat) : State := if n = 0 then s else s.count64 0x20 0xC18 n

/-- Whether a request that BAR2 has accepted waits: a write before it is held, or the memory does not take it (R356, R390). -/
def State.bar2Waits (s : State) (r : HostReq) : Bool :=
  s.bar2Held || match r.write with
    | some d => s.writeStalls .pf r.off d.length
    | none => s.readStalls .pf r.off r.len

/-- A request that BAR2 has accepted is performed (R387, R390). -/
def State.bar2Serve (s : State) (r : HostReq) : State :=
  match r.write with
  | some d => (s.countBar2 r.off d.length).memWrite .pf r.off d
  | none =>
    let m := (s.countBar2 r.off r.len).memRead .pf r.off r.len
    if m.poison then
      let (s, l) := m.st.freeBytes r.len
      s.emit (.hostReply l .poisoned)
    else m.st.emit (.hostReply m.data .ok)

/-- Requests that BAR2 has accepted are performed in the order in which they came, at most `fuel` (R390). -/
def State.bar2Work (s : State) : (fuel : Nat) → State
  | 0 => s
  | n + 1 =>
    match s.bar2Wait with
    | [] => s
    | r :: t => if s.bar2Waits r then s else (({ s with bar2Wait := t } : State).bar2Serve r).bar2Work n

/-- A request through BAR2 (R387, R390, R391): discarded during an FLR of PF0 (R402), refused while BAR2 is closed, else accepted. -/
def State.bar2 (s : State) (r : HostReq) : State :=
  if !s.linkUp then s
  else
    let s := (s.countReplays r.replays).rxTlp
    if s.pf0Flr then s
    else if s.bar2Closed then
      let s := s.countSat 0x20 0xC20 1
      if r.write.isNone then s.emit (.hostReply [] .unsupported) else s
    else ({ s with bar2Wait := s.bar2Wait ++ [r] } : State).bar2Work (s.bar2Wait.length + 1)

/-! ### Resets -/

/-- An FLR of PF0 begins (R402): every VF's, and PF0's MSI-X table and configuration space. -/
def State.pf0FlrBegin (s : State) : State :=
  let s := (List.finRange 8).foldl (fun s h => s.flrBegin h) s
  { (s.clearLive 0x20 0xD00 0xE00).clearLive 0x20 0xCF0 0xCF4 with pf0Flr := true, vfEnable := false, cfgBar := [] }

/-- LSTAT (R403). -/
def State.setLstat (s : State) (state width rate : Nat) : State :=
  s.setLive 0x20 0xC00 (w32 (state + width * 2 ^ 2 + rate * 2 ^ 7))

/-- A PCIe reset (R402, R480): the link trains once its cause ends. Reads that BAR2 has accepted have no link for their completions, and
no IDE stream outlives its link (assumption log 60). -/
def State.pcieReset (s : State) (k : PcieReset) : State :=
  let s := { s.pf0FlrBegin with bar2Wait := s.bar2Wait.filter (fun r => r.write.isSome), streams := [] }
  match k with
  | .perst => { s with perst := true }.setLstat 0 0 0
  | _ => if s.perst then s.setLstat 0 0 0 else s.setLstat 1 0 0

/-- PERST_N deasserts (R402, R482): the port trains. -/
def State.perstDeassert (s : State) : State :=
  if s.perst then { s with perst := false }.setLstat 1 0 0 else s

/-- A training of the link ends in the up state (R386, R403). -/
def State.pcieUp (s : State) (u : LinkUp) : State :=
  if s.field 0x20 0xC00 0 2 = 1 then s.setLstat 2 (if u.x16 then 16 else 8) u.rate.val else s

/-- A training that does not bring the link up is recorded and tried again (R386). -/
def State.pcieNotUp (s : State) : State := if s.field 0x20 0xC00 0 2 = 1 then s.recordErr 0x20 8 else s

/-! ### Configuration requests -/

/-- Whether a function answers configuration requests with Request Retry Status (R401, R402). -/
def State.configRetry (s : State) (fn : Option HallId) : Bool :=
  match fn with
  | none => s.pf0Flr
  | some h =>
    (s.hall h).resetting || (s.hall h).closing
      || match (s.hall h).scrub with | some r => decide (r.kind = .closing) | none => false

/-- A dword of 64-bit base address registers: the size that decides which bits the host writes, as a power of two, whether the memory is
prefetchable, and whether it is the upper half (R387). -/
def barShape (vf : Bool) (i : Nat) : Option (Nat × Bool × Bool) :=
  if vf then match i with
    | 0 => some (23, false, false)
    | 1 => some (23, false, true)
    | _ => none
  else match i with
    | 0 => some (26, false, false)
    | 1 => some (26, false, true)
    | 2 => some (40, true, false)
    | 3 => some (40, true, true)
    | _ => none

/-- The bits of such a dword that the host writes. -/
def barMask : Nat × Bool × Bool → Nat
  | (k, _, false) => 2 ^ 32 - 2 ^ min k 32
  | (k, _, true) => 2 ^ 32 - 2 ^ (k - 32)

/-- A dword of the base address registers as it reads (R387): bits 2 to 1 say 64-bit, bit 3 prefetchable (PRESUMED from the PCI layout,
assumption log 26). -/
def State.barWord (s : State) (vf : Bool) (i : Nat) : Word :=
  match barShape vf i with
  | none => 0
  | some b => SMap.get s.cfgBar (b2n vf * 6 + i) 0 ||| (if b.2.2 then 0 else 4 + w32 (8 * b2n b.2.1))

/-- Whether a function supports something (R386): VFs have MSI-X and AER and are TDIs. -/
def supports (fn : Option HallId) : PciCap → Bool
  | .flitMode => true
  | .tenBitTags => true
  | .msix => true
  | .aer => true
  | .sriov => fn.isNone
  | .doe => fn.isNone
  | .ide => fn.isNone
  | .tdisp => true
  | _ => false

/-- What a register of the configuration space reads as; none: the spec states no value (R386, R387). -/
def State.cfgRead (s : State) (fn : Option HallId) : CfgReg → Option Word
  | .bar i => some (if fn.isNone then s.barWord false i.val else 0)
  | .vfBar i => if fn.isNone then some (s.barWord true i.val) else none
  | .totalVfs => if fn.isNone then some 8 else none
  | .firstVfOffset => if fn.isNone then some 1 else none
  | .vfStride => if fn.isNone then some 1 else none
  | .maxPayload => some 4096
  | .maxReadRequest => some 4096
  | .supports c => some (w32 (b2n (supports fn c)))
  | .other _ => none

/-- A write of a register of the configuration space: base address registers of PF0 take it (R387). -/
def State.cfgWrite (s : State) (fn : Option HallId) (r : CfgReg) (v : Word) : State :=
  let put (vf : Bool) (i : Nat) : State :=
    match barShape vf i with
    | some b => { s with cfgBar := SMap.set s.cfgBar (b2n vf * 6 + i) 0 (v &&& w32 (barMask b)) }
    | none => s
  match fn, r with
  | none, .bar i => put false i.val
  | none, .vfBar i => put true i.val
  | _, _ => s

/-- A configuration request (R386, R387, R402). A register of which the spec states no value reads as a free value (assumption log 26). -/
def State.config (s : State) (fn : Option HallId) (r : CfgReq) : State :=
  let answer (s : State) (l : List Byte) (st : HostStatus) := s.rxTlp.emit (.hostReply l st)
  if !s.linkUp then s
  else if (match fn with | some h => !s.vfVisible h.val | none => false) then answer s [] .unsupported
  else if s.configRetry fn then answer s [] .retry
  else match r with
    | .vfEnable on => answer (if fn.isNone then { s with vfEnable := on } else s) [] .ok
    | .read r =>
      match s.cfgRead fn r with
      | some v => answer s (natBytes 4 v.toNat) .ok
      | none =>
        let (s, l) := s.freeBytes 4
        answer s l .ok
    | .write r v => answer (s.cfgWrite fn r v) [] .ok

end Sys2Proof.Machine
end

