-- ==== Sys2Proof/Machine/Update.lean ====
section
/-!
DEFINITION. The keeper's services: keeper update and handover (R432 to R434), ROLLFWD (R410), the SPDM responder with the TDISP
requests (R416 to R421), and the management endpoint (R498 to R500).
-/
namespace Sys2Proof.Machine

/-! ### Keeper update -/

/-- STATE and REASON of UPD_STAT are set (R432). -/
def State.setUpd (s : State) (state reason : Nat) : State := s.setLive 0xB 0x808 (w32 (state + reason * 2 ^ 8))

/-- The inactive slot (R432). -/
def State.idleSlot (s : State) : Nat := 1 - s.runSlot

/-- The flash bytes of the inactive slot are erased, or the slot is left invalid (R432). -/
def State.wipeSlot (s : State) : State :=
  let b := slotBase s.idleSlot
  { s with flash := SMap.clearRange s.flash b (b + 25165824), slotErased := SMap.put s.slotErased s.idleSlot true }

/-- BEGIN (R432). -/
def State.updBegin (s : State) : State := (s.wipeSlot.setUpd 1 0).setLive 0xB 0x80C 0

/-- The erase ends. -/
def State.updErased (s : State) : State := if s.updState = 1 then s.setUpd 2 0 else s

/-- Four bytes are appended to the image received (R432). -/
def State.updAppend (s : State) (v : Word) : State :=
  let n := (s.liveWord 0xB 0x80C).toNat
  (s.setFlash (slotBase s.idleSlot + n) (natBytes 4 v.toNat)).setLive 0xB 0x80C (w32 (n + 4))

/-- A write of UPD_DATA (R432). -/
def State.writeUpdData (s : State) (a : Agent) (v : Word) : State :=
  if s.updState = 2 ∧ (s.liveWord 0xB 0x80C).toNat + 4 ≤ 25165824 then s.updAppend v else s.ctlError a (0xB * 4096 + 0x804) true

/-- The check of the received image ends (R408, R432). -/
def State.updVerified (s : State) : State :=
  if s.updState ≠ 3 then s
  else
    let r := s.imageReason s.idleSlot (some (s.liveWord 0xB 0x80C).toNat)
    if r = 0 then s.setUpd 4 0 else s.setUpd 6 r

/-- ABORT: idle again, the inactive slot invalid (R432). -/
def State.updAbort (s : State) : State := { s.wipeSlot.setUpd 0 0 with pldmUpd := false, activating := false }

/-- The states in which a control bit is admitted (R432, R500; assumption log 27): BEGIN when idle and no PLDM update runs. -/
def State.updAdmits (s : State) (bit : Nat) : Bool :=
  let st := s.updState
  match bit with
  | 0 => st == 0 && !s.pldmUpd
  | 1 => st == 2
  | 2 => st == 4 && !s.activating
  | _ => decide (1 ≤ st) && st != 5

/-- A control bit acts, or is an access error (R432). -/
def State.updControl (s : State) (a : Agent) (bit : Nat) : State :=
  if !s.updAdmits bit then s.ctlError a (0xB * 4096 + 0x800) true
  else match bit with
    | 0 => s.updBegin
    | 1 => s.setUpd 3 0
    | 2 => { s with activating := true }
    | _ => s.updAbort

/-- A write of UPD_CTL: its bits act in order (R432). -/
def State.writeUpdCtl (s : State) (a : Agent) (v : Word) : State :=
  [0, 1, 2, 3].foldl (fun s b => if wbit v b then s.updControl a b else s) s

/-- An ACTIVATE that waits begins the handover once no scrub runs and no commit of a device-wide page is checking (R433). -/
def State.handoverWork (s : State) : State :=
  let scrubs := (List.finRange 8).any fun h => match (s.hall h).scrub with | some r => !r.waits | none => false
  let checks := s.commits.any fun p => decide (p.1 < 0x100) && p.2.checking
  if s.activating && !scrubs && !checks then { s.setUpd 5 0 with activating := false, updAt := s.rootTick } else s

/-- The 200 ms within which the incoming keeper has to be ready, in periods of the root clock (R433, R462). -/
def readyTicks : Nat := 42000000 * 40

/-- Deferred messages of PF0 are sent (R434). -/
def State.sendDeferred (s : State) : State := (List.range 16).foldl (fun s e => s.unmask 0 e) s

/-- The 72 bytes that extend measurement 40 (R414). -/
def State.updRecord (s : State) (new : KeeperImg) : List Byte :=
  s.runDigest ++ new.digest ++ natBytes 1 s.runSvn ++ natBytes 1 new.svn ++ List.replicate 6 0

/-- The incoming keeper is ready and takes over (R433). -/
def State.handoverEnd (s : State) : State :=
  if s.updState ≠ 5 then s
  else
    let new := { s.imageOf s.idleSlot with fallback := s.fallback }
    let log := sm3 (digestOr s.updLog ++ s.updRecord new)
    let rec0 := BitVec.ofNat 8 ((s.flashAt 0).toNat / 2 * 2 + new.slot)
    let s := { s with updLog := log, keeper := some new, pldmUpd := false }
    ((s.setFlash 0 [rec0]).setUpd 0 0).sendDeferred

/-- The incoming keeper is not ready within 200 ms (R433). -/
def State.handoverLate (s : State) : State :=
  if s.updState ≠ 5 then s else ({ s with pldmUpd := false }.setUpd 6 5).sendDeferred

/-- A write of ROLLFWD (R410). -/
def State.writeRollfwd (s : State) (a : Agent) (v : Word) : State :=
  let n := fieldOf v 0 7
  if s.rollback ≤ n ∧ n ≤ s.runSvn then { s with blown := n } else s.ctlError a (8 * 4096 + 0x824) true

/-! ### The SPDM responder -/

/-- A request to the responder: it needs the link and PF0 (R386, R402); during a handover it is answered busy (R434). -/
def State.spdm (s : State) (f : State → State) : State :=
  if !s.linkUp || s.pf0Flr then s else if s.updState = 5 then s.emit (.spdm .busy) else f s

/-- An answer with an SPDM error. -/
def State.spdmError (s : State) : State := s.emit (.spdm .error)

/-- The signature of a message by a private key, with the first of the random numbers drawn that SM2 admits (assumption log 60). -/
def sm2Sign (d : Nat) (msg : List Byte) (fresh : Nat) : List Byte :=
  ((List.range 8).findSome? fun i => sm2SignWith d msg (1 + Config.signNonce fresh i % (sm2N - 1))).getD []

/-- An answer that carries a signature, by d, of what SPDM signs of the exchange with the answer's content (R406, R417). -/
def State.signed (s : State) (content : List Byte) (f : List Byte → SpdmMsg) : State :=
  match s.privKey with
  | some d =>
    let (k, s) := s.takeFresh
    s.emit (.spdm (f (sm2Sign d (Config.transcript k content) k)))
  | none => s.spdmError

/-- The capabilities that the responder advertises: no PSK, mutual authentication or MEAS_FRESH (R416). -/
def responderCaps : List SpdmCap := [.cert, .chal, .measSig, .keyEx, .encrypt, .mac, .hbeat]

/-- The public identity key dG, as certified at manufacture (R405). -/
def identityPub : List Byte := sm2Pub (identityKey Config.secret)

/-- The certificate chain of slot 0, to the identity certificate (R417). -/
def chain : List Byte := Config.certChain identityPub

/-- Algorithms are negotiated, when the request offers those of the responder (R416). -/
def State.negotiate (s : State) (g : SpdmAlgs) : State :=
  if g.sm2Sign && g.sm2Dhe && g.sm3 && g.sm4Gcm && g.dmtf then { s with spdmReady := true }.emit (.spdm (.algorithms responderCaps))
  else s.spdmError

/-- GET_CERTIFICATE (R417). -/
def State.certificate (s : State) (slot : Fin 8) : State :=
  if s.spdmReady && slot == 0 then s.emit (.spdm (.certificate chain)) else s.spdmError

/-- CHALLENGE (R417). -/
def State.challenge (s : State) (slot : Fin 8) (nonce : List Byte) : State :=
  if s.spdmReady && slot == 0 then s.signed (sm3 chain ++ nonce) .challengeAuth else s.spdmError

/-- GET_MEASUREMENTS: the indices that are listed, as they stand (R411, R418). -/
def State.measurements (s : State) (idx : List (BitVec 8)) (nonce : List Byte) : State :=
  if !s.spdmReady then s.spdmError
  else
    let vals := idx.filterMap fun i => (s.measurement i.toNat).map fun m => (i.toNat, m.1, m.2)
    s.signed (nonce ++ vals.flatMap fun m => natBytes 1 m.1 ++ natBytes 1 m.2.1 ++ natBytes 2 m.2.2.length ++ m.2.2)
      (.measurements (vals.map fun m => (m.1, m.2.2)))

/-- KEY_EXCHANGE: a secured session, under the lowest number that is free (R416). -/
def State.keyExchange (s : State) (share : List Byte) : State :=
  if !s.spdmReady then s.spdmError
  else
    let k := ((List.range (s.sessions.length + 1)).find? fun i => !s.sessions.contains i).getD 0
    { s with sessions := s.sessions ++ [k] }.signed (natBytes 2 k ++ share) (.keyExchange k)

/-- IDE_KM in a secured session keys a selective stream, or stops it, which tears it down (R419, R420). -/
def State.keyStream (s : State) (session : Nat) (m : IdeKm) : State :=
  if !s.sessions.contains session then s.spdmError
  else match m with
  | .stop stream => (s.streamEnd stream.val).emit (.spdm (.ideKm stream.val true))
  | .key stream =>
    { s with streams := if s.streams.contains stream.val then s.streams else s.streams ++ [stream.val] }.emit
      (.spdm (.ideKm stream.val false))

/-- Whether a lock of a hall is accepted (R420). -/
def State.lockOk (s : State) (h : HallId) (session : Option Nat) (stream : Fin 8) : Bool :=
  production && s.stopped h && s.hallMode h == 0 && !s.isOut h && s.stageGen (funPage h) != 0
    && (match session with | some k => s.sessions.contains k | none => false) && s.streams.contains stream.val

/-- A LOCK_INTERFACE_REQUEST (R419, R420); no lock starts while an update is activated (R433). A scrub of the hall that was asked for
becomes the opening scrub (assumption log 28). -/
def State.lockHall (s : State) (h : HallId) (session : Option Nat) (stream : Fin 8) : State :=
  if s.updating then s.emit (.spdm .busy)
  else if !s.lockOk h session stream then s.spdmError
  else
    let s := (s.setMode h 3).modHall h fun v => { v with session := session, stream := some stream.val }
    match (s.hall h).scrub with
    | some r => s.modHall h fun v => { v with scrub := some { r with kind := .opening } }
    | none => s.scrubAsk h .opening

/-- A START_INTERFACE_REQUEST (R419). -/
def State.startTdi (s : State) (h : HallId) : State :=
  if s.hallMode h = 1 then (s.setMode h 2).emit (.spdm (.startResponse h)) else s.spdmError

/-- A STOP_INTERFACE_REQUEST (R419): the response comes with the end of the closing scrub. -/
def State.stopTdi (s : State) (h : HallId) : State :=
  let opening := match (s.hall h).scrub with | some r => decide (r.kind = .opening) | none => false
  if s.hallMode h = 1 ∨ s.hallMode h = 2 ∨ opening = true then
    (s.modHall h fun v => { v with stopResp := true }).endTenancy h
  else s.spdmError

/-! ### The management endpoint -/

/-- The value of a sensor (R499). -/
def State.sensor (s : State) (id : Nat) : Option Nat :=
  if id = 1 then some (s.field 2 0x818 0 16)
  else if id = 2 then some (s.field 2 0x818 16 16)
  else if id = 3 then some (s.liveWord 2 0x810).toNat
  else if id = 4 then some (s.liveWord 2 0x814).toNat
  else if id = 5 then some (s.live64 2 0x808 / 1000000 % 2 ^ 32)
  else if id = 6 then some (s.field 2 0x81C 0 8)
  else if id = 7 then some (s.field 2 0x800 0 3)
  else if 16 ≤ id ∧ id < 40 then some (s.field 2 (0x820 + 4 * (id % 8)) (8 * ((id - 16) / 8)) 8)
  else if 40 ≤ id ∧ id < 48 then some (if s.isOut (hallNo (id - 40)) then 4 else s.hallMode (hallNo (id - 40)))
  else none

/-- GetSensorReading (R498, R499); in ROM recovery only firmware updates are served (R409). -/
def State.sensorReading (s : State) (id : Nat) : State :=
  if s.recovery then s.emit (.pldm .invalid)
  else if s.updState = 5 then s.emit (.pldm .notReady)
  else match s.sensor id with
    | some v => s.emit (.pldm (.reading id v))
    | none => s.emit (.pldm .invalid)

/-- RequestUpdate (R500). -/
def State.pldmRequest (s : State) : State :=
  if s.updState = 5 then s.emit (.pldm .notReady)
  else if s.updState ≠ 0 then s.emit (.pldm .alreadyInUpdateMode)
  else { s.updBegin with pldmUpd := true }.emit (.pldm .accepted)

end Sys2Proof.Machine
end

