-- ==== Sys2Proof/Machine/Power.lean ====
section
/-!
DEFINITION. Power states and ceilings with their telemetry (R462 to R478), module reset, start-up and its causes (R479 to R487, R20),
boundary scan (R501), and the period of the root clock, which is what an idle step does (R462; assumption log 7).
-/
namespace Sys2Proof.Machine

/-! ### Power -/

/-- Ceilings that an end of an interval lowers fall by one state at once, the state in force with them, each with its ERR bit; one at
the floor stays (R466, R468, R471). `l` holds reasons with their bits. -/
def State.fallAll (s : State) (l : List (Nat × Nat)) : State :=
  let l := l.filter fun p => decide (s.ceiling p.1 < 4)
  if l.isEmpty then s
  else
    l.foldl (fun s p => s.recordErr 2 p.2)
      (s.powerStep fun s => (l.foldl (fun s p => s.setCeiling p.1 (s.ceiling p.1 + 1)) s).follow)

/-- CAP in milliwatts (R474). -/
def State.capMw (s : State) : Nat := fieldOf (s.applWord 2 0x100) 0 11 * 1000

/-- The mean of a list. -/
def meanOf (l : List Nat) : Nat := if l.isEmpty then 0 else l.sum / l.length

/-- The hottest of the 16 dies and its code: the lowest code of equal ones (R471, R477; assumption log 29). -/
def hottest (cdie bdie : List (BitVec 8)) : Nat × Nat :=
  let l := ((List.range 8).map fun i => (cdie.getD i 0).toNat) ++ (List.range 8).map fun i => (bdie.getD i 0).toNat
  let m := l.foldl max 0
  (m, l.idxOf m)

/-- The platform event of a sensor that crosses a threshold (R499; assumption log 29). -/
def State.sensorEvent (s : State) (id old new : Nat) : State :=
  if (decide (100 ≤ old) != decide (100 ≤ new)) || (decide (105 ≤ old) != decide (105 ≤ new)) then s.emit (.pldm (.event id new)) else s

/-- The temperatures of a hall are taken (R477, R499). -/
def State.takeTemps (s : State) (m : Telemetry) (h : Nat) : State :=
  let new (k : Nat) : Nat := ([m.cdie, m.bdie, m.mem].getD k []).getD h 0 |>.toNat
  let s := [0, 1, 2].foldl (fun s k => s.sensorEvent (16 + 8 * k + h) (s.field 2 (0x820 + 4 * h) (8 * k) 8) (new k)) s
  s.setLive 2 (0x820 + 4 * h) (w32 (new 0 + new 1 * 2 ^ 8 + new 2 * 2 ^ 16))

/-- The measurements of an interval are taken (R467, R475, R477). -/
def State.telemetry (s : State) (m : Telemetry) : State :=
  let win := (s.pwrWin ++ [m.mw]).drop (s.pwrWin.length + 1 - 128)
  let hot := hottest m.cdie m.bdie
  let s := { s with pwrWin := win, capRun := if s.capMw < m.mw then min 508 (s.capRun + 1) else 0 }
  let s := (((s.count64 2 0x808 m.uj).setLive 2 0x810 (w32 m.mw)).setLive 2 0x814 (w32 (meanOf win))).setLive 2 0x818
    (w32 (m.vin.toNat + m.iin.toNat * 2 ^ 16))
  (List.range 8).foldl (fun s h => s.takeTemps m h) (s.setLive 2 0x81C (w32 (hot.1 + hot.2 * 2 ^ 8)))

/-- Root-clock periods of an interval: 2,048 control cycles (R467). Intervals lie back to back from period 0 (assumption log 7). -/
def intervalTicks : Nat := 2048 * 40

/-- The end of the next interval to be measured (R467). -/
def State.nextInterval (s : State) : Nat :=
  max ((s.rootTick + (intervalTicks - 1)) / intervalTicks) (s.lastInt / intervalTicks + 1) * intervalTicks

/-- An interval ends: its measurements are taken and the decisions of R468 and R471 made (R467). -/
def State.intervalEnd (s : State) (m : Telemetry) : State :=
  let s := { s.telemetry m with lastInt := s.rootTick }
  s.fallAll ((if 1750000 < m.mw ∨ s.capRun = 508 then [(0, 2)] else []) ++ if 105 < (hottest m.cdie m.bdie).1 then [(2, 1)] else [])

/-- The earliest time of a ceiling's next rise: 10,500 control cycles after its last change (R466). -/
def State.riseDue (s : State) (r : Nat) : Nat :=
  match SMap.get s.ceilAt r none with
  | some t => t + 10500 * 40
  | none => 0

/-- Whether the cause of a ceiling lets it rise (R468, R470 to R472, R474): for the cap and the temperature a decision of the end of an
interval, taken when the pacing of R466 has passed. -/
def State.mayRise (s : State) (r : Nat) : Bool :=
  let decides := s.rootTick == s.lastInt && decide (s.riseDue r ≤ s.rootTick) && !s.pwrWin.isEmpty
  decide (s.ceilingFloor r < s.ceiling r) &&
    match r with
    | 0 => decides && decide ((s.liveWord 2 0x814).toNat * 100 ≤ 95 * s.capMw)
    | 2 => decides && decide (s.field 2 0x81C 0 8 ≤ 100)
    | _ => true

/-- A ceiling rises by one state, and the state in force with it (R464, R466). -/
def State.ceilingRise (s : State) (r : Fin 5) : State :=
  if s.mayRise r.val then s.powerStep fun s => (s.setCeiling r.val (s.ceiling r.val - 1)).follow else s

/-- The divider changes to that of the slowest ceiling (R464 to R466, R470). -/
def State.powerChange (s : State) : State := s.powerStep State.follow

/-- The regulators assert their alert: its ceiling is the floor at once, and the floor is in force within 210 control cycles (R470;
`advance`). -/
def State.alertOn (s : State) : State :=
  if s.field 2 0x800 18 1 = 1 then s
  else
    let s := { (s.setField 2 0x800 18 1 1).recordErr 2 0 with alertAt := s.rootTick }
    s.powerStep fun s => s.setCeiling 1 4

/-- The alert clears (R470). -/
def State.alertOff (s : State) : State := s.setField 2 0x800 18 1 0

/-- SYS_THROT_N is asserted for 21 control cycles (R472). -/
def State.throtOn (s : State) : State :=
  if s.field 2 0x800 19 1 = 1 then s else ((s.setField 2 0x800 19 1 1).recordErr 2 3).dropCeiling 3

/-- SYS_THROT_N is high for 21 control cycles (R472). -/
def State.throtOff (s : State) : State := s.setField 2 0x800 19 1 0

/-- A droop stretches the next `n` core cycles of a die (R473); `coreClock` counts them as they begin (R478). -/
def State.droop (s : State) (h : HallId) (n : Nat) : State :=
  s.modHall h fun v => { v with stretch := v.stretch + n }

/-! ### Module reset and start-up -/

/-- Whether the module runs: powered, out of reset, its keeper running. -/
def State.running (s : State) : Bool := s.vin && !s.tripped && !s.refLost && !s.scanHold && !s.recovery

/-- MOD_FAULT_N is asserted (R491). -/
def State.modFault (s : State) : Bool := s.recovery || s.bridgeFail || s.tripped || s.refLost || s.scanHold

/-- MOD_PWRGD is high (R490): the rails are on. -/
def State.pwrGood (s : State) : Bool := s.vin && !s.tripped

/-- Near-memory and decoder keys at the next start: one generation on (R354, R362). -/
def bumpGens (m : SMap Nat) : SMap Nat := (List.range 8).foldl (fun t k => SMap.put t k (SMap.get m k 1 + 1)) []

/-- The package in module reset: every page at its reset values, every memory lost (R480). What is kept: fuses, flash, pins, the
test access port, and what is outside the module. -/
def State.cleared (s : State) : State :=
  { State.reset with
    pending := s.pending, fresh := s.fresh, nearGen := bumpGens s.nearGen, cxlGen := bumpGens s.cxlGen
    vin := s.vin, tripped := s.tripped, refLost := s.refLost, scanHold := s.scanHold, perst := s.perst
    flash := s.flash, slotErased := s.slotErased, blown := s.blown, keeper := s.keeper, recovery := s.recovery
    privKey := none, secretShut := false
    keyBase := (List.range 8).foldl (fun t k => SMap.put t k (SMap.get s.nearGen k 1)) []
    tap := s.tap, boundaryReg := s.boundaryReg, out := s.out }

/-- The package without its rails: as in module reset, and the logic that the rails feed, among it the test access port, has lost its
state too (R471, R480, R487). -/
def State.unpowered (s : State) : State :=
  { s.cleared with refLost := false, scanHold := false, tap := .reset, boundaryReg := [] }

/-- What reads SECRET while it is readable (R404, R406). -/
def State.readSecret (s : State) : Option (BitVec 256) := if s.secretShut then none else some Config.secret

/-- The ROM derives d, places it in the keeper's private storage and makes SECRET unreadable (R405, R406). -/
def State.romKey (s : State) : State :=
  match s.readSecret with
  | some x => { s with privKey := some (identityKey x), secretShut := true }
  | none => s

/-- The ROM derives the identity key, then boots a keeper (R406, R408, R409). -/
def State.romBoot (s : State) : State :=
  let s := s.romKey
  match s.bootSlot with
  | some k => { s with keeper := some (s.imageOf k), recovery := false }
  | none => { s with recovery := true }

/-- Start-up from step 3 of R482 to its end, when nothing holds the package: the ROM boots, stacks train, and the port trains its link
once PERST_N is deasserted. `failed`: interfaces of stacks that fail their training (R349). -/
def State.startUp (s : State) (failed : List (HallId × Fin 4)) : State :=
  if s.vin && !s.tripped && !s.refLost && !s.scanHold then
    let s := s.romBoot
    if s.recovery then s
    else
      let s := failed.foldl (fun s p => s.ifFailed p.1 p.2) s
      if s.perst then s else s.setLstat 1 0 0
  else s

/-- A module reset (R480). -/
def State.moduleReset (s : State) : State := s.cleared.startUp []

/-- A write of MODRST (R479). -/
def State.writeModrst (s : State) (a : Agent) (v : Word) : State :=
  if (a = .pf ∨ a = .keeper) ∧ fieldOf v 0 16 = 0x4D52 then s.moduleReset else s.ctlError a (4 * 4096 + 0x810) true

/-- The reference or the lock is lost (R484). -/
def State.loseRef (s : State) : State := if s.pwrGood then { s.cleared with refLost := true } else s

/-- The reference and the lock are back (R484). -/
def State.regainRef (s : State) : State := if s.refLost then { s with refLost := false }.startUp [] else s

/-- A die reaches 120 °C: every rail is removed (R471). -/
def State.trip (s : State) : State := if s.vin then { s.unpowered with tripped := true } else s

/-- VIN rises through 38 V (R480, R482). -/
def State.powerOn (s : State) (failed : List (HallId × Fin 4)) : State :=
  if s.vin then s else { s.unpowered with vin := true }.startUp failed

/-- VIN leaves its range: every rail is off (R487). -/
def State.powerOff (s : State) : State := { s.unpowered with vin := false, tripped := false }

/-- ActivateFirmware (R433, R500); in ROM recovery the verified image boots (R409; assumption log 27). -/
def State.pldmActivate (s : State) : State :=
  if s.updState = 5 then s.emit (.pldm .notReady)
  else if s.updState = 4 ∧ s.pldmUpd = true ∧ s.activating = false then
    if s.recovery then (s.emit (.pldm .accepted)).moduleReset else { s with activating := true }.emit (.pldm .accepted)
  else s.emit (.pldm .invalid)

/-! ### Boundary scan -/

/-- IDCODE (R501). -/
def idcode : Nat := 0x0A8F70B5 + bitsOf Config.stepping.toNat 0 4 * 2 ^ 28

/-- An instruction that leaves the module running is loaded (R501). -/
def State.tapLoad (s : State) (i : TapInstr) : State := if s.pwrGood then { s with tap := i } else s

/-- IDCODE is loaded and shifted out, its lowest bit first. -/
def State.tapIdcode (s : State) : State :=
  if s.pwrGood then { s with tap := .idcode }.emit (.tdo ((List.range 32).map (bitOf idcode))) else s

/-- SAMPLE/PRELOAD: the pins are shifted out, the boundary register loaded. -/
def State.tapSample (s : State) (pins load : List Bool) : State :=
  if s.pwrGood then { s with tap := .sample, boundaryReg := load }.emit (.tdo pins) else s

/-- EXTEST, CLAMP or HIGHZ is loaded: the package is held in module reset (R501). -/
def State.tapHold (s : State) (i : TapInstr) : State :=
  if s.pwrGood then { s.cleared with tap := i, scanHold := true } else s

/-- The port enters Test-Logic-Reset (R501). -/
def State.tapReset (s : State) : State :=
  if !s.pwrGood then s
  else if s.scanHold then { s with tap := .reset, scanHold := false }.startUp []
  else { s with tap := .reset }

/-! ### The root clock -/

/-- Whether a core's cycle counts for its bad-air detector (R177). -/
def Core.airCycle (k : Core) : Bool :=
  let ts := List.finRange 4
  (ts.all fun t => decide ((k.thread t).run = .parked) || k.blockCode t == 1) && (ts.any fun t => k.blockCode t == 1)
    && k.mq.entries.isEmpty && k.vq.entries.isEmpty && k.dq.entries.isEmpty
    && ts.all fun t => (k.thread t).intpend &&& (k.thread t).inten == 0 && !(k.thread t).badAir

/-- The bad-air detector after `n` core cycles (R177). -/
def Core.airStep (k : Core) (n : Nat) : Core :=
  if (List.finRange 4).any fun t => decide ((k.thread t).run = .halted) then k
  else if k.airCycle then { k with airCount := min 1024 (k.airCount + n) } else { k with airCount := 0 }

/-- The cores of a hall that the state lists, after `n` core cycles; a core not listed has every thread parked. -/
def airHall (h : HallId) (n : Nat) (m : SMap Core) : SMap Core :=
  if n = 0 then m
  else m.filterMap fun p =>
    if p.1 / 144 = h.val then (if p.2.airStep n = Core.zero then none else some (p.1, p.2.airStep n)) else some p

/-- The core clock of a die after `n` periods of the root clock, where a core cycle that begins takes `d` periods, twice as many when it
is stretched, with the stretch events and the stretched cycles that begin (R462, R464, R465, R473). The cycle under way keeps its
length: a change of the divider waits for its end. -/
def Hall.clock (v : Hall) (d n : Nat) : Hall × Nat × Nat :=
  if v.corePhase + n < v.coreLen then ({ v with corePhase := v.corePhase + n }, 0, 0)
  else
    let m := v.corePhase + n - v.coreLen
    let ev := if v.stretch ≠ 0 ∧ v.stretched = false then 1 else 0
    let k := m / (2 * d)
    if k < v.stretch then
      ({ v with corePhase := m % (2 * d), coreLen := 2 * d, stretched := true, stretch := v.stretch - (k + 1)
                cycles := v.cycles + 1 + k }, ev, k + 1)
    else
      let r := m - v.stretch * (2 * d)
      ({ v with corePhase := r % d, coreLen := d, stretched := false, stretch := 0, cycles := v.cycles + 1 + v.stretch + r / d },
        ev, v.stretch)

/-- A 64-bit counter that `n` events count, if there are any. -/
def State.counts64 (s : State) (page off n : Nat) : State := if n = 0 then s else s.count64 page off n

/-- A hall after `n` periods of the root clock: its core cycles, with its stretch counters and its bad-air detectors (R177, R478). -/
def State.coreClock (s : State) (h : HallId) (n : Nat) : State :=
  let v := s.hall h
  let r := v.clock (coreDiv s.powerState) n
  let s := ((s.setHall h r.1).counts64 3 (0x900 + 16 * h.val) r.2.1).counts64 3 (0x908 + 16 * h.val) r.2.2
  { s with cores := airHall h (r.1.cycles - v.cycles) s.cores }

/-- The classes in which a port has a packet that waits for a link credit (R384). -/
def YPort.starved (v : YPort) : List Nat :=
  [0, 1, 2, 3].filter fun c =>
    decide (96 ≤ SMap.get v.used c 0) &&
      ((!v.tail.isEmpty && v.tailCls == c) || v.queue.any fun k => kindClass k.kind.toNat == c)

/-- What the counters of `n` mesh cycles count (R356 to R358, R384). -/
def State.meshClock (s : State) (n : Nat) : State :=
  let s := (List.finRange 8).foldl (fun s h =>
    if (s.hall h).nearHeld.isEmpty then s else s.counts64 (memPage h) 0x848 n) s
  let s := (List.finRange 8).foldl (fun s h =>
    (s.ejWaits h).foldl (fun s k => s.counts64 (hallPage h (0x90 + k)) 0x818 n) s) s
  (List.finRange 12).foldl (fun s p =>
    if s.portUp p then (s.port p).starved.foldl (fun s c => s.counts64 (portPage p) (0x848 + 8 * c) n) s else s) s

/-- What the counters of `n` engine cycles count (R319). -/
def State.engClock (s : State) (n : Nat) : State :=
  (List.finRange 8).foldl (fun s h => (List.finRange 9).foldl (fun s e =>
    if (List.finRange 4).any fun q => s.engState h e q == 1 then s.counts64 (enginePage h e.val) 0x840 n else s) s) s

/-- The progress counter of a hall after `n` control cycles (R440). -/
def State.progClock (s : State) (h : HallId) (n : Nat) : State :=
  let p := hallPage h 0x84
  let limit := fieldOf (s.applWord p 0x190) 0 16 * 65536
  if s.hallState h = 2 ∧ limit ≠ 0 then s.setLive p 0x8B0 (w32 (min limit ((s.liveWord p 0x8B0).toNat + n))) else s

/-- What the counters of `n` control cycles count (R440, R476, R478). -/
def State.ctlClock (s : State) (n : Nat) : State :=
  let s := (List.finRange 8).foldl (fun s h => s.progClock h n) s
  let s := s.counts64 3 (0x880 + 8 * s.powerState) n
  [0, 1, 2, 3, 4].foldl (fun s r =>
    if s.throttled r then s.setLive64 3 (0x808 + 16 * r) (min (2 ^ 48 - 1) (s.live64 3 (0x808 + 16 * r) + n)) else s) s

/-- `n` periods of the root clock with one state in force; the cycles of a slower clock that end in them count (R462). -/
def State.pass (s : State) (n : Nat) : State :=
  let cyc (d : Nat) : Nat := (s.rootTick + n) / d - s.rootTick / d
  let m := cyc 6
  let e := cyc 10
  let c := cyc 40
  let s := { s with rootTick := s.rootTick + n }
  let s := (List.finRange 8).foldl (fun s h => s.coreClock h n) s
  let s := if m = 0 then s else s.meshClock m
  let s := if e = 0 then s else s.engClock e
  if c = 0 then s else s.ctlClock c

/-- `n` periods of the root clock. A ceiling that is not yet in force is a current alert's: it is in force 210 control cycles after the
assertion at the latest (R466, R470). -/
def State.advance (s : State) (n : Nat) : State :=
  if !s.running then s
  else
    let due := s.alertAt + 210 * 40
    if s.slowest = s.powerState ∨ s.rootTick + n < due then s.pass n
    else ((s.pass (due - s.rootTick)).powerChange).pass (n - (due - s.rootTick))

/-- A period of the root clock (R462). -/
def State.tick (s : State) : State := s.advance 1

/-- Time passes until a period of the root clock, unless it has come (assumption log 30). -/
def State.passTo (s : State) (t : Nat) : State := if s.rootTick < t then s.advance (t - s.rootTick) else s

end Sys2Proof.Machine
end

