-- ==== Sys2Proof/Machine/CtlWrite.lean ====
section
/-!
DEFINITION. Writes of control pages: the common header (R36 to R39, R45 to R47), the staged area (R43), and what a write of each
direct-action register does (R7, R8), for the agents that reach it (R24, R422, R424).
-/
namespace Sys2Proof.Machine

/-! ### The header -/

/-- A write of ERR: each 1 bit clears that bit; with none left ERR_FIRST is as from reset (R7, R39). -/
def State.clearErr (s : State) (p : Nat) (v : Word) : State :=
  let e := s.liveWord p 0x010 &&& ~~~ v
  let s := s.setLive p 0x010 e
  if e = 0 then s.setLive p 0x01C 0xFF else s

/-- A write of ERR_INJ: each 1 bit of an error kind of the block records it, in ascending order (R36, R39). -/
def State.injectErr (s : State) (p : Nat) (v : Word) : State :=
  (List.range 32).foldl (fun s b => if wbit v b && bitOf (errBits p) b then s.recordErr p b true else s) s

/-- A write of COMMIT; with both bits set it is GO (R46, R47). -/
def State.writeCommit (s : State) (p : Nat) (v : Word) : State :=
  if wbit v 0 then s.commitGo p else if wbit v 1 then s.commitRevert p else s

/-- A write of CTL: HALL and YARLINK pages define one (R153, R374). -/
def State.writeCtl (s : State) (a : Agent) (b : Block) (inst : Nat) (v : Word) : State :=
  match b with
  | .hall => s.writeHallCtl a (Fin.ofNat 8 inst) v
  | .yarlink => s.writeRetrain (Fin.ofNat 12 inst) v
  | _ => s

/-- A write of a word of the common header (R36). -/
def State.writeHeader (s : State) (a : Agent) (p off : Nat) (b : Block) (inst : Nat) (v : Word) : State :=
  if off = 0x008 then s.writeCtl a b inst v
  else if off = 0x010 then s.clearErr p v
  else if off = 0x014 then s.setLive p 0x014 (v &&& w32 (errBits p))
  else if off = 0x018 then s.injectErr p v
  else if off = 0x020 then s.writeCommit p v
  else s

/-! ### Registers of cores -/

/-- The ring that a control-page write carries (R215). -/
def State.writerRing (s : State) : Agent → Nat
  | .core x => (s.thread x).ring.toNat
  | .engine _ _ => 3
  | _ => 0

/-- The offset of a table register in its CORE page (R215). -/
def tableOff : TableReg → Nat
  | .vbase r => 0xA00 + 4 * r.val
  | .gtbl => 0xA0C
  | .emstack => 0xA10
  | .inten n => 0xA20 + 4 * n.val

/-- The rings from which a table register accepts a write: up to this one (R215). -/
def tableRing : TableReg → Nat
  | .vbase r => r.val
  | .gtbl => 1
  | .emstack => 0
  | .inten _ => 1

/-- A write of a table register (R215): VBASEr and GTBL take their writer's ring as OWNER. -/
def State.writeTable (s : State) (a : Agent) (c : CoreId) (r : TableReg) (v : Word) : State :=
  let p := corePage c 0
  let o := tableOff r
  let ring := s.writerRing a
  if tableRing r < ring then s.ctlError a (p * 4096 + o) true
  else match r with
    | .vbase _ => s.setLive p o (w32 (setBits (v.toNat.land 0xFFC01) 1 2 ring))
    | .gtbl => s.setLive p o (w32 (setBits (v.toNat.land 0xFFFF1FFF) 13 2 ring))
    | .emstack => s.setLive p o (w32 (v.toNat.land 0x1FFFF))
    | .inten n => s.modThread ⟨c, n⟩ fun t => { t with inten := v }

/-- A write of QCTL: the discard action on each queue named, in order (R171, R173). -/
def State.writeCoreQctl (s : State) (c : CoreId) (v : Word) : State :=
  [0, 1, 2].foldl (fun s q => if wbit v q then s.discard c q (wbit v 8) else s) s

/-- A write that takes effect only while a hall is stopped (R74, R242, R287). -/
def State.whileStopped (s : State) (a : Agent) (h : HallId) (p off : Nat) (f : State → State) : State :=
  if s.stopped h then f s else s.ctlError a (p * 4096 + off) true

/-- The page and offset of a drip counter, and its hall (R74). -/
def dripPlace : DripUnit → Nat × Nat × HallId
  | .matrix c => (corePage c 0, 0x880, c.hall)
  | .vector c => (corePage c 0, 0x884, c.hall)
  | .siphon h => (hallPage h 0x08, 0x8F0, h)
  | .sampler h => (hallPage h 0x0D, 0x8F0, h)

/-- A write of a drip counter (R74). -/
def State.writeDrip (s : State) (a : Agent) (u : DripUnit) (v : Word) : State :=
  let (p, o, h) := dripPlace u
  s.whileStopped a h p o fun s => s.setLive p o v

/-- A write of a sump round number (R73, R287). -/
def State.writeRound (s : State) (a : Agent) (c : CoreId) (u : Fin 32) (v : Word) : State :=
  s.whileStopped a c.hall (chanPage c) (0x840 + 4 * u.val) fun s =>
    s.modCore c fun k => k.setSump u.val { k.sumpOf u.val with round := v }

/-- A write of TALLY_CLR of a core or engine (R79, R81). -/
def State.writeTallyClr (s : State) (u : TallyUnit) (v : Word) : State :=
  (List.range 16).foldl (fun s n => if wbit v n then s.tallyClear u n else s) s

/-! ### Lantern pages -/

/-- HALT of a thread (R298): at its next boundary, after a REP.L sequence; nothing for a thread that is parked or halted. -/
def Thread.halt (t : Thread) : Thread :=
  if t.run ≠ .active then t else if t.locked then { t with haltReq := true } else { t with run := .halted }

/-- HALT with DELIVER: vector 13 at the next boundary (R298). -/
def Thread.deliver (t : Thread) : Thread := if t.run = .parked then t else { t with deliverReq := true }

/-- RESUME of a halted thread (R298). -/
def Thread.resume (t : Thread) : Thread := if t.run = .halted then { t with run := .active } else t

/-- A write of LHALTn (R298, R300). -/
def State.writeLhalt (s : State) (x : Site) (v : Word) : State :=
  if wbit v 0 && wbit v 2 then s
  else if wbit v 0 && wbit v 1 then s.modThread x Thread.deliver
  else if wbit v 0 then s.modThread x Thread.halt
  else if wbit v 2 then s.modThread x Thread.resume
  else s

/-- A write of LCHABORT: the channel abort on each thread named; one that is not halted is an access error (R299). -/
def State.writeLchabort (s : State) (a : Agent) (c : CoreId) (v : Word) : State :=
  (List.finRange 4).foldl (fun s n =>
    if !wbit v n.val then s
    else if (s.thread ⟨c, n⟩).run = .halted then s.abortMsg ⟨c, n⟩
    else s.ctlError a (corePage c 3 * 4096 + 0x810) true) s

/-! ### Registers of halls -/

/-- A write of SALT (R242, R425): the bytes of gallery and chambers lie elsewhere from then on (R244). -/
def State.writeSalt (s : State) (a : Agent) (h : HallId) (v : Word) : State :=
  let p := hallPage h 0
  let host := match a with
    | .pf => true
    | .vf _ _ => true
    | _ => false
  if host && s.hallMode h != 0 then s.ctlError a (p * 4096 + 0x8A0) true
  else s.whileStopped a h p 0x8A0 fun s => s.setLive p 0x8A0 (w32 (fieldOf v 0 16))

/-- A write of PROG_KICK (R440). -/
def State.writeKick (s : State) (a : Agent) (h : HallId) (v : Word) : State :=
  let marks := match a with
    | .keeper => true
    | .core x => x.hall == h && decide ((s.thread x).ring ≤ 1)
    | _ => false
  if !wbit v 0 then s
  else if marks then s.progMark h
  else s.ctlError a (hallPage h 0x84 * 4096 + 0x8B4) true

/-- A write of CSTEP or CKEYw (R443). -/
def State.writeSnapReg (s : State) (a : Agent) (h : HallId) (off : Nat) (v : Word) : State :=
  if s.snapWriter a h then s.setLive (memPage h) off v else s.ctlError a (memPage h * 4096 + off) true

/-- A write of a live register of the first MEMCTL page (R357, R443). -/
def State.writeMemctl (s : State) (a : Agent) (h : HallId) (off : Nat) (v : Word) : State :=
  if off = 0x880 then s.setLive (memPage h) 0x880 (w32 (fieldOf v 0 16))
  else if off = 0x900 then s.writeCgo a h v
  else if off = 0x940 then s.writeCkctl a h v
  else if off = 0x950 then s.writeRestore a h v
  else s.writeSnapReg a h off v

/-- A write of a live register of an engine's first page (R74, R79, R319). -/
def State.writeEngine (s : State) (a : Agent) (h : HallId) (n : Fin 9) (off : Nat) (v : Word) : State :=
  let q : Fin 4 := Fin.ofNat 4 (off % 0x100 / 16)
  if off = 0xF00 then s.writeTallyClr (.engine h n) v
  else if off = 0x8F0 then s.writeDrip a (if n = 0 then .siphon h else .sampler h) v
  else if off % 16 = 0 then s.writeProd a h n q v
  else s.writeQCtl h n q v

/-- A write of a live register of a function page (R393, R394). -/
def State.writeHost (s : State) (a : Agent) (h : HallId) (off : Nat) (v : Word) : State :=
  if off = 0x800 then s.writeSqTail a h v
  else if off = 0x804 then s.writeSqHead a h v
  else if off = 0x808 then s.writeCqHead a h v
  else if off = 0x810 then s.writeCqPost a h v
  else if off = 0x814 then s.writeRaise a h v
  else if off < 0xE00 then s.writeMsix 0 off v
  else s.writeMsix (h.val + 1) off v

/-- A write of a live register of the SECURITY pages (R410, R415, R431, R432). -/
def State.writeSecurity (s : State) (a : Agent) (ord off : Nat) (v : Word) : State :=
  if ord = 0 then (if off = 0x824 then s.writeRollfwd a v else s.writeScrubReq a v)
  else if ord = 1 then s.setLive 9 0x800 (w32 (fieldOf v 0 8))
  else if off = 0x800 then s.writeUpdCtl a v
  else s.writeUpdData a v

/-- A write of a live register of a CORE page (R74, R173, R215). -/
def State.writeCore (s : State) (a : Agent) (c : CoreId) (off : Nat) (v : Word) : State :=
  if off = 0x880 then s.writeDrip a (.matrix c) v
  else if off = 0x884 then s.writeDrip a (.vector c) v
  else if off = 0x924 then s.writeCoreQctl c v
  else if off < 0xA0C then s.writeTable a c (.vbase (Fin.ofNat 3 ((off - 0xA00) / 4))) v
  else if off = 0xA0C then s.writeTable a c .gtbl v
  else if off = 0xA10 then s.writeTable a c .emstack v
  else s.writeTable a c (.inten (Fin.ofNat 4 ((off - 0xA20) / 4))) v

/-- A write of a live register of a LANTERN page (R298 to R300). -/
def State.writeLantern (s : State) (a : Agent) (c : CoreId) (off : Nat) (v : Word) : State :=
  if off < 0x810 then s.writeLhalt ⟨c, Fin.ofNat 4 ((off - 0x800) / 4)⟩ v
  else if off = 0x810 then s.writeLchabort a c v
  else s.setLive (corePage c 3) 0x820 (w32 (fieldOf v 0 6))

/-- A write of a live register that takes one. -/
def State.writeReg (s : State) (a : Agent) (p off : Nat) (b : Block) (inst ord : Nat) (v : Word) : State :=
  let h : HallId := Fin.ofNat 8 inst
  let c : CoreId := Fin.ofNat 1152 inst
  match b with
  | .clock => s.writeModrst a v
  | .security => s.writeSecurity a ord off v
  | .host => s.writeHost a h off v
  | .hall => s.writeSalt a h v
  | .memctl => s.writeMemctl a h off v
  | .siphon => s.writeEngine a h 0 off v
  | .sort => s.writeEngine a h 1 off v
  | .sampler => s.writeEngine a h 2 off v
  | .squeeze => s.writeEngine a h 3 off v
  | .cipher => s.writeEngine a h 4 off v
  | .hdma => s.writeEngine a h (Fin.ofNat 9 (p % 0x100 - 0x10 + 5)) off v
  | .seal => if off = 0x810 then s.writeSuspect a h v else s.writeReadmit a h v
  | .progress => s.writeKick a h v
  | .core => s.writeCore a c off v
  | .channel => s.writeRound a c (Fin.ofNat 32 ((off - 0x840) / 4)) v
  | .tally => s.writeTallyClr (.core c) v
  | .lantern => s.writeLantern a c off v
  | _ => s

/-! ### A write -/

/-- A write of the word at a control-space offset, once its page is reached (R7, R8, R36, R41, R43). -/
def State.writeWord (s : State) (a : Agent) (o : Nat) (v : Word) : State :=
  let p := o / 4096
  let off := o % 4096
  if off % 4 ≠ 0 then s.ctlError a o true else
  match pageBlock p with
  | none => s.ctlError a o true
  | some (b, inst, ord) =>
    if off < 0x030 then s.writeHeader a p off b inst v
    else if off < 0x100 then s.ctlError a o true
    else if off < 0x800 then (if hasConfig p then s.setStaged p off v else s.ctlError a o true)
    else if portHidden a p off then s
    else match regAt p off with
      | none => s.ctlError a o true
      | some (r, _, _) => if r.acc = .rw ∨ r.acc = .wo then s.writeReg a p off b inst ord v else s

/-- A write of the word at a control-space offset by an agent (R40, R422, R424, R434). -/
def State.ctlWriteWord (s : State) (a : Agent) (o : Nat) (v : Word) : State :=
  match s.reach a (o / 4096) (o % 4096) with
  | .all => s.writeWord a o v
  | .busy => s.countSat 0xB 0x810 1
  | .unsupported => s
  | .dropped => s
  | .readOnly => s.ctlError a o true
  | .refused => s.ctlError a o true

end Sys2Proof.Machine
end

