-- ==== Sys2Proof/Machine/Settle.lean ====
section
/-!
DEFINITION. What goes on of itself after an event (assumption log 6): posted control writes, the engines of cores, credits and
arrivals that nothing holds any longer, completion posts, the keeper; and requests of the host through BAR0 (R387 to R389, R434).
-/
namespace Sys2Proof.Machine

/-! ### Settling -/

/-- A control write of a core carries the ring that its instruction had when it issued, which is the writer's ring (R215). -/
def State.asRing (s : State) (a : Agent) (ring : BitVec 2) (f : State → State) : State :=
  match a with
  | .core x =>
    let now := (s.thread x).ring
    if now = ring then f s
    else (f (s.modThread x fun t => { t with ring := ring })).modThread x fun t => { t with ring := now }
  | _ => f s

/-- Control writes that accesses have made are performed in order, at most `fuel` (R41). -/
def State.performPosted (s : State) : (fuel : Nat) → State
  | 0 => s
  | n + 1 =>
    match s.posted with
    | [] => s
    | (a, o, v, r) :: t => (({ s with posted := t } : State).asRing a r fun s => s.ctlWriteWord a o v).performPosted n

/-- The cores that the state lists. -/
def State.listedCores (s : State) : List CoreId := s.cores.map fun p => Fin.ofNat 1152 p.1

/-- A core goes on: its engines, then what waits for its accesses (R264, R280, R307). -/
def State.settleCore (s : State) (c : CoreId) : State :=
  (((s.pump c).releaseCredits c).releaseArrivals c).dropMet c

/-- One round: posted writes, the keeper, cores, requests at the stacks and through BAR2, acknowledgements and completion posts. -/
def State.settleRound (s : State) : State :=
  let s := ((s.performPosted s.posted.length).keeperWork).handoverWork
  let s := s.listedCores.foldl (fun s c => s.settleCore c) s
  let s := (List.finRange 8).foldl (fun s h => s.nearWork h) s
  ((s.bar2Work s.bar2Wait.length).releaseAcks).allPosts

/-- Rounds until no posted write is left, at most `fuel`. -/
def State.settleN (s : State) : (fuel : Nat) → State
  | 0 => s
  | n + 1 =>
    let s := s.settleRound
    if s.posted.isEmpty then s else s.settleN n

/-- Everything that nothing holds any longer goes on. Each round but the last performs an entry of a core's queues or stores, of
which there are only so many. -/
def State.settle (s : State) : State :=
  s.settleN (s.posted.length + (s.cores.map fun p => p.2.work).sum + 1)

/-- An event of a module that runs, and what follows of itself; nothing else reaches the module (R480, R482). -/
def State.event (s : State) (f : State → State) : State := if s.running then (f s).settle else s

/-- An event as the outcome of a command. -/
def State.does (s : State) (f : State → State) : Outcome := .next (s.event f)

/-- The next state of an outcome goes on of itself. -/
def settled : Outcome → Outcome
  | .next s => .next s.settle
  | o => o

/-! ### Control-page accesses as commands -/

/-- A write of a register by an agent. -/
def State.writes (s : State) (a : Agent) (page off : Nat) (v : Word) : Outcome :=
  s.does fun s => s.ctlWriteWord a (page * 4096 + off) v

/-- A read of a register by an agent: the word leaves the module (assumption log 5). -/
def State.reads (s : State) (a : Agent) (page off : Nat) : Outcome :=
  s.does fun s =>
    if s.hostGone a then s
    else if s.reach a page off = .unsupported then s.emit (.hostReply [] .unsupported)
    else
      let r := s.ctlReadWord a (page * 4096 + off)
      r.st.emit (.word a r.val)

/-! ### BAR0 -/

/-- The control-space offset that an offset of a VF's BAR0 shows (R388). -/
def vfOffset (h : HallId) (off : Nat) : Option Nat :=
  let k := off / 4096
  let at_ (p : Nat) : Option Nat := some (p * 4096 + off % 4096)
  if k < 0x100 then at_ (hallPage h k)
  else if k < 0x340 then at_ (0x1000 + h.val * 576 + (k - 0x100))
  else if k = 0x340 then at_ 1
  else if k = 0x341 then at_ (funPage h)
  else none

/-- The agent of a window. -/
def barAgent : BarWin → Agent
  | .pf => .pf
  | .vf h t => .vf h t

/-- The control-space offset that an offset of a window shows (R387, R388). -/
def barOffset : BarWin → Nat → Option Nat
  | .pf, off => some off
  | .vf h _, off => vfOffset h off

/-- An access error at an offset of a window (R40). -/
def State.barError (s : State) (w : BarWin) (off : Nat) (write : Bool) : State :=
  match barOffset w off with
  | some o => s.ctlError (barAgent w) o write
  | none => s.accessError (barAgent w) off write true

/-- A read of the word at an offset of a window. -/
def State.barRead (s : State) (w : BarWin) (off : Nat) : WordRead :=
  match barOffset w off with
  | some o => s.ctlReadWord (barAgent w) o
  | none => ⟨s.barError w off false, 0⟩

/-- A write of the word at an offset of a window. -/
def State.barWrite (s : State) (w : BarWin) (off : Nat) (v : Word) : State :=
  match barOffset w off with
  | some o => s.ctlWriteWord (barAgent w) o v
  | none => s.barError w off true

/-- Whether a window discards what the host sends: a function-level reset is under way (R401, R402). -/
def State.barResets (s : State) : BarWin → Bool
  | .pf => s.pf0Flr
  | .vf h _ => s.vfReset h

/-- Whether a window answers Unsupported Request (R392, R422). -/
def State.barRefuses (s : State) : BarWin → Bool
  | .pf => false
  | .vf h t => s.vfRefuses h t

/-- Whether an offset of a window lies in a page that a handover keeps busy (R434). -/
def State.barBusy (s : State) (w : BarWin) (off : Nat) : Bool := w == .pf && s.handoverBusy (off / 4096)

/-- A read through a window whose request is served. -/
def State.barReads (s : State) (w : BarWin) (off n : Nat) : State :=
  let answer (s : State) (l : List Byte) := s.emit (.hostReply l .ok)
  if s.barBusy w off then answer s (List.replicate n 0xFF)
  else if !ctlShape off n then answer (s.barError w off false) (List.replicate n 0)
  else
    let r := s.barRead w off
    if n = 4 then answer r.st (natBytes 4 r.val.toNat)
    else
      let r2 := r.st.barRead w (off + 4)
      answer r2.st (natBytes 4 r.val.toNat ++ natBytes 4 r2.val.toNat)

/-- A write through a window whose request is served. -/
def State.barWrites (s : State) (w : BarWin) (off : Nat) (d : List Byte) : State :=
  if s.barBusy w off then s.countSat 0xB 0x810 1
  else if !ctlShape off d.length then s.barError w off true
  else
    let s := s.barWrite w off (w32 (bytesNat (d.take 4)))
    if d.length = 4 then s else s.barWrite w (off + 4) (w32 (bytesNat (d.drop 4)))

/-- A request of the host through a BAR0 window (R387 to R389, R401, R402, R422, R434). -/
def State.bar0 (s : State) (w : BarWin) (r : HostReq) : State :=
  if !s.linkUp then s
  else
    let s := (s.countReplays r.replays).rxTlp
    if s.barResets w then s
    else if s.barRefuses w then (if r.write.isNone then s.emit (.hostReply [] .unsupported) else s)
    else match r.write with
      | some d => s.barWrites w r.off d
      | none => s.barReads w r.off r.len

end Sys2Proof.Machine
end

