-- ==== Sys2Proof/Machine/Access.lean ====
section
/-!
DEFINITION. Instructions of the scalar processor that reach memory: LD and ST (R195, R196), LSEG and SSEG (R193, R194), gate calls
and returns (R219 to R222, R232, R233); the arrival of loads, and QDISC (R171).
-/
namespace Sys2Proof.Machine

/-! ### Loads and stores -/

/-- Bytes of an access by SIZE (R195). -/
def sizeBytes (z : BitVec 2) : Nat := 2 ^ z.toNat

/-- The offset of LD and ST, computed exactly (R195). -/
def memOff (base : Word) (disp : BitVec 8) (n : Nat) : Int := (base.toNat : Int) + disp.toInt * (n : Int)

/-- Post-increment of RA (R195). -/
def State.postInc (s : State) (x : Site) (f : FmtM) (o : Int) : State :=
  if f.pi = 1 then s.setReg x f.ra (BitVec.ofInt 32 (o + (sizeBytes f.size : Int))) else s

/-- A load is outstanding: with its value fixed, or held at its place in issue order (R196, R256, R263). -/
def State.addLoad (s : State) (x : Site) (rd : BitVec 5) (v : Word) (held : Option Nat := none) : State :=
  s.modThread x fun t => { t with loads := t.loads ++ [⟨rd, v, held⟩] }

/-- What LD does (R192, R195, R196). -/
def State.load (s : State) (x : Site) (f : FmtM) : Res :=
  let t := s.thread x
  let n := sizeBytes f.size
  let o := memOff (t.reg f.ra) f.disp n
  let d := t.seg f.seg.toNat
  if 8 ≤ t.loads.length then .wait (.register none)
  else match segCheck d t.ring.toNat .read o n n with
    | some c => .fault s (accessFault c f.seg.toNat f.size.toNat false o)
    | none =>
      let a := segBase d + o.toNat
      if s.scalarHeld x.core then
        .done (((s.holdAccess x (.ld x f) (.load f.rt f.u n) a f.seg.toNat f.size.toNat o).addLoad x f.rt 0
          (some (s.core x.core).issueSeq)).postInc x f o)
      else if s.readStalls (.core x) a n then .held
      else
        let r := s.busRead x a n
        if r.poison then .fault r.st (accessFault 5 f.seg.toNat f.size.toNat false o)
        else .done ((r.st.addLoad x f.rt (loadValue f.u r.data)).postInc x f o)

/-- What ST does (R192, R195, R263). -/
def State.store (s : State) (x : Site) (f : FmtM) : Res :=
  let t := s.thread x
  let n := sizeBytes f.size
  let o := memOff (t.reg f.ra) f.disp n
  let d := t.seg f.seg.toNat
  match segCheck d t.ring.toNat .write o n n with
  | some c => .fault s (accessFault c f.seg.toNat f.size.toNat true o)
  | none =>
    let a := segBase d + o.toNat
    let data := natBytes n (t.reg f.rt).toNat
    if s.scalarHeld x.core then
      .done ((s.holdAccess x (.st x f) (.store data) a f.seg.toNat f.size.toNat o).postInc x f o)
    else if s.writeStalls (.core x) a n then .held
    else .done ((s.busWrite x a data).postInc x f o)

/-- LD (R195, R196). -/
def execLd (x : Site) (f : FmtM) (s : State) : Outcome := s.run x (.ld x f) fun s => s.load x f

/-- ST (R195, R196). -/
def execSt (x : Site) (f : FmtM) (s : State) : Outcome := settled (s.run x (.st x f) fun s => s.store x f)

/-- LOAD_DATA_ARRIVE (R168, R196): an outstanding load whose value is fixed fills its register. -/
def execLoadDataArrive (x : Site) (k : Fin 8) (s : State) : Outcome :=
  .next (match (s.thread x).loads[k.val]? with
    | some l =>
      if l.held.isSome then s else s.modThread x fun t => { t.setReg l.rd l.value with loads := t.loads.eraseIdx k.val }
    | none => s)

/-! ### Segment registers -/

/-- What LSEG does (R193). -/
def State.loadSeg (s : State) (x : Site) (i : Instr) (dst src : Nat) (off : Nat) : Res :=
  let t := s.thread x
  let d := t.seg src
  let fail (s : State) (c : Nat) : Res := .fault s (accessFault c src 3 false (off : Int))
  match segCheck d t.ring.toNat .read (off : Int) 16 16 with
  | some c => fail s c
  | none =>
    let a := segBase d + off
    if s.scalarHeld x.core then .done (s.holdAccess x i (.seg dst) a src 3 (off : Int))
    else if s.readStalls (.core x) a 16 then .held
    else
      let r := s.busRead x a 16
      match segLoadFault x.core a t.ring r with
      | some c => fail r.st c
      | none => .done (r.st.modThread x fun t => t.setSeg dst (BitVec.ofNat 128 (bytesNat r.data)))

/-- What SSEG does (R194). -/
def State.storeSeg (s : State) (x : Site) (i : Instr) (src dst : Nat) (off : Nat) : Res :=
  let t := s.thread x
  let d := t.seg dst
  match segCheck d t.ring.toNat .write (off : Int) 16 16 with
  | some c => .fault s (accessFault c dst 3 true (off : Int))
  | none =>
    let a := segBase d + off
    let data := natBytes 16 (t.seg src).toNat
    if s.scalarHeld x.core then .done (s.holdAccess x i (.store data) a dst 3 (off : Int))
    else if s.writeStalls (.core x) a 16 then .held
    else .done (s.busWrite x a data)

/-- LSEG (R193). -/
def execLseg (x : Site) (f : FmtX) (s : State) : Outcome :=
  s.run x (.lseg x f) fun s => s.loadSeg x (.lseg x f) f.n.toNat f.rd.toNat (s.reg x f.ra).toNat

/-- SSEG (R194). -/
def execSseg (x : Site) (f : FmtX) (s : State) : Outcome :=
  settled (s.run x (.sseg x f) fun s => s.storeSeg x (.sseg x f) f.n.toNat f.rd.toNat (s.reg x f.ra).toNat)

/-! ### Queue discard -/

/-- QDISC (R171). -/
def execQdisc (x : Site) (f : FmtX) (s : State) : Outcome :=
  settled (s.run x (.qdisc x f) fun s =>
    .done (s.discard x.core (f.n.toNat % 4) (f.n.getLsbD 2)))

/-! ### Returns -/

/-- The check of R232 that a frame fails in ring `c`. -/
def returnCode (gate : Bool) (c : Nat) (f : FrameIn) : Option Nat :=
  if f.ring < c then some 1 else if f.gate ≠ gate then some 2 else if f.bad then some 3 else none

/-- What XRET and RETG do (R222, R232, R233). -/
def State.ringReturn (s : State) (x : Site) (gate : Bool) : Res :=
  let t := s.thread x
  let d := t.seg 2
  let fail (s : State) (c : Nat) : Res := .fault s (accessFault c 2 3 false 0)
  match segCheck d t.ring.toNat .read 0 96 16 with
  | some c => fail s c
  | none =>
    if s.scalarHeld x.core || s.readStalls (.core x) (segBase d) 96 then .held
    else
      let r := s.busRead x (segBase d) 96
      if r.poison then fail r.st 5
      else
        let f := frameOf r.data
        match returnCode gate t.ring.toNat f with
        | some k => .raise (r.st.writeRflt x 2 k 0 0 t.pc) 10
        | none => .entered ((r.st.restoreFrame x f).modThread x fun t => { t with wait := none })

/-- XRET (R222, R232, R233). -/
def execXret (x : Site) (f : FmtK) (s : State) : Outcome := settled (s.run x (.xret x f) fun s => s.ringReturn x false)

/-- RETG (R222, R232, R233). -/
def execRetg (x : Site) (f : FmtK) (s : State) : Outcome := settled (s.run x (.retg x f) fun s => s.ringReturn x true)

/-! ### Gates -/

/-- A gate entry (R219). -/
structure GateEntry where
  codeSel : Nat
  entry : Nat
  stackSel : Nat
  ring : Nat
  p : Bool
  callers : Nat
  nargs : Nat
  argchk : Nat
  reserved : Bool

/-- The fields of a gate entry. -/
def gateOf (v : BitVec 128) : GateEntry :=
  let n := v.toNat
  { codeSel := bitsOf n 0 16, entry := bitsOf n 16 16, stackSel := bitsOf n 32 16, ring := bitsOf n 48 2, p := bitOf n 50
    callers := bitsOf n 52 4, nargs := bitsOf n 56 4, argchk := bitsOf n 64 64
    reserved := bitOf n 51 || bitsOf n 60 4 != 0 || (List.range 8).any fun i => bitsOf n (64 + 8 * i + 5) 3 != 0 }

/-- The first argument that fails check 7 of R220. -/
def gateArg (t : Thread) (g : GateEntry) : Option Nat :=
  (List.range g.nargs).find? fun i =>
    let b := bitsOf g.argchk (8 * i) 8
    let d := t.seg (bitsOf b 0 3)
    let v := (t.reg (BitVec.ofNat 5 (i + 1))).toNat
    (bitOf b 3 || bitOf b 4) &&
      !(segP d && decide (t.ring.toNat ≤ segRing d) && (!bitOf b 3 || segR d) && (!bitOf b 4 || segW d) && decide (v < segExtent d))

/-- A gate fault (R220, R236). -/
def State.gateFault (s : State) (x : Site) (n code arg : Nat) : Res :=
  .raise (s.writeRflt x 1 code arg n (s.thread x).pc) 9

/-- Checks 3 to 8 of a gate entry, and the call (R220, R221). GATE reads the argument registers that the entry names: it waits for them
(R168, R211). -/
def State.gateEnter (s : State) (x : Site) (n : Nat) (g : GateEntry) : Res :=
  let t := s.thread x
  let f := t.ring.toNat
  if !g.p || g.reserved || decide (8 < g.nargs) then s.gateFault x n 3 0
  else match (List.range g.nargs).find? fun i => (s.core x.core).regPending x.thread (BitVec.ofNat 5 (i + 1)) with
  | some i => .wait (.register (some (BitVec.ofNat 5 (i + 1))))
  | none =>
  if !bitOf g.callers f then s.gateFault x n 4 0
  else if f < g.ring ∨ g.ring < fieldOf (s.liveWord (corePage x.core 0) 0xA0C) 13 2 then s.gateFault x n 5 0
  else match s.handlerCode x g.codeSel g.entry g.ring with
    | (s, none) => s.gateFault x n 6 0
    | (s, some code) =>
      match gateArg t g with
      | some i => s.gateFault x n 7 i
      | none =>
        match s.entryStack x g.stackSel g.ring f with
        | (s, none) => s.gateFault x n 8 0
        | (s, some stk) =>
          if s.frameWaits x (segBase stk + segExtent stk - 96) then .held
          else
          let fr : Frame :=
            { seg0 := t.seg 0, seg1 := if g.ring < f then t.seg 1 else stk, seg2 := t.seg 2, pc := t.pc + 1, ring := f,
              inh := t.inh, df := false, gate := true, repl := none, vector := 0, orig := 0, gateNum := n, cause := 0,
              nargs := g.nargs, qtaken := 0, args := (List.range g.nargs).map fun i => t.reg (BitVec.ofNat 5 (i + 1)) }
          .entered (s.pushFrame x stk code g.ring (BitVec.ofNat 16 g.entry) fr)

/-- What GATE does (R220, R221). Its accesses wait behind fences with the instruction that makes them (R263). -/
def State.gateCall (s : State) (x : Site) (n : Nat) : Res :=
  let gt := s.liveWord (corePage x.core 0) 0xA0C
  if s.scalarHeld x.core then .held
  else if fieldOf gt 0 13 ≤ n then s.gateFault x n 1 0
  else match s.chamber16 x (fieldOf gt 16 16 * 16 + n * 16) with
    | (s, none) => s.gateFault x n 2 0
    | (s, some v) => s.gateEnter x n (gateOf v)

/-- GATE (R219 to R221). -/
def execGate (x : Site) (f : FmtG) (s : State) : Outcome := settled (s.run x (.gate x f) fun s => s.gateCall x f.gate.toNat)

end Sys2Proof.Machine
end

