-- ==== Sys2Proof/Machine/Control.lean ====
section
/-!
DEFINITION. Control transfer, the return stack (R197 to R199), and repeat prefixes (R204 to R206).
-/
namespace Sys2Proof.Machine

/-- The condition of BR (R197). -/
def brTaken (cond : BitVec 3) (a b : Word) : Bool :=
  match cond.toNat with
  | 0 => a == b
  | 1 => a != b
  | 2 => a.slt b
  | 3 => !a.slt b
  | 4 => a.ult b
  | _ => !a.ult b

/-- A push on the return stack; none: vector 7 (R198). -/
def Thread.push (t : Thread) (v : BitVec 16) : Option Thread :=
  if t.rsDepth = 16 ∧ t.rsWrap = false then none
  else
    let top := t.rsTop + 1
    some { t with rsTop := top, rsEntry := SMap.set t.rsEntry top.toNat 0 v,
                  rsDepth := if t.rsDepth < 16 then t.rsDepth + 1 else t.rsDepth }

/-- A pop of the return stack; none: vector 7 (R198). -/
def Thread.pop (t : Thread) : Option (Thread × BitVec 16) :=
  if t.rsDepth = 0 ∧ t.rsWrap = false then none
  else some ({ t with rsTop := t.rsTop - 1, rsDepth := t.rsDepth - 1 }, SMap.get t.rsEntry t.rsTop.toNat 0)

/-- A call of an index (R198). -/
def State.callTo (s : State) (x : Site) (target : BitVec 16) : Res :=
  match (s.thread x).push ((s.thread x).pc + 1) with
  | none => .fault s stackFault
  | some t => .jump (s.setThread x t) target

/-- BR (R197). -/
def execBr (x : Site) (f : FmtB) (s : State) : Outcome :=
  s.run x (.br x f) fun s =>
    let pc := (s.thread x).pc
    .jump s (if brTaken f.cond (s.reg x f.ra) (s.reg x f.rb) then pc + f.off.signExtend 16 else pc + 1)

/-- JMP (R197). -/
def execJmp (x : Site) (f : FmtJ) (s : State) : Outcome := s.run x (.jmp x f) fun s => .jump s f.target

/-- CALL (R197, R198). -/
def execCall (x : Site) (f : FmtJ) (s : State) : Outcome := s.run x (.call x f) fun s => s.callTo x f.target

/-- JMPR (R197). -/
def execJmpr (x : Site) (f : FmtK) (s : State) : Outcome :=
  s.run x (.jmpr x f) fun s => .jump s ((s.reg x f.ra).setWidth 16)

/-- CALLR (R197, R198). -/
def execCallr (x : Site) (f : FmtK) (s : State) : Outcome :=
  s.run x (.callr x f) fun s => s.callTo x ((s.reg x f.ra).setWidth 16)

/-- RET (R198). -/
def execRet (x : Site) (f : FmtK) (s : State) : Outcome :=
  s.run x (.ret x f) fun s =>
    match (s.thread x).pop with
    | none => .fault s stackFault
    | some (t, pc) => .jump (s.setThread x t) pc

/-- REP (R204, R206). -/
def execRep (x : Site) (f : FmtP) (s : State) : Outcome :=
  s.run x (.rep x f) fun s => s.prefixed x (some f.ra) 65535 (s.reg x f.ra).toNat

/-- REP.L (R205, R206); a return of a frame with REPL resumes it with its count (R233). -/
def execRepL (x : Site) (f : FmtL) (s : State) : Outcome :=
  s.run x (.repL x f) fun s => s.prefixed x none 64 ((s.thread x).replCnt.getD f.count.toNat)

end Sys2Proof.Machine
end

