-- ==== Sys2Proof/Machine/Cipher.lean ====
section
/-!
DEFINITION. The cipher engine (R344, R345): SM4 in its modes and SM3.
-/
namespace Sys2Proof.Machine

/-- Fields of a cipher descriptor (R344). -/
structure CipherDesc where
  mode : Nat
  len : Nat
  alen : Nat
  src : Nat
  dst : Nat
  parm : Nat
  aad : Nat

/-- The fields of its bytes. -/
def cipherDesc (d : List Byte) : CipherDesc :=
  { mode := bitsOf (dget d 16 1) 0 2, len := dget d 20 4, alen := dget d 24 4, src := dget d 32 8, dst := dget d 40 8
    parm := dget d 48 8, aad := dget d 56 8 }

/-- Errors that every operation has (R323, R344). -/
def cipherBad (d : List Byte) : Bool :=
  bitsOf (dget d 16 1) 2 6 != 0 || dget d 17 3 != 0 || dget d 28 4 != 0 || badAddr d 32 || badAddr d 40 || badAddr d 48
    || badAddr d 56

/-- Errors of SM4 (R344, R345): no two of SRC, DST, PARM and AAD overlap, but that DST may equal SRC. -/
def sm4Bad (d : List Byte) : Bool :=
  let g := cipherDesc d
  cipherBad d || (g.mode != 3 && g.alen != 0) || (decide (g.mode ≤ 1) && g.len % 16 != 0)
    || (g.dst != g.src && overlap g.dst g.len g.src g.len) || overlap g.dst g.len g.parm 48 || overlap g.src g.len g.parm 48
    || (g.mode == 3 && (overlap g.dst g.len g.aad g.alen || overlap g.src g.len g.aad g.alen || overlap g.aad g.alen g.parm 48))

/-- Errors of SM3 (R344, R345). -/
def sm3Bad (d : List Byte) : Bool :=
  let g := cipherDesc d
  cipherBad d || g.mode != 0 || g.alen != 0 || g.parm != 0
    || (g.dst != g.src && overlap g.dst 32 g.src g.len)

/-- Parts of a kept PARM block: key, IV or counter, tag. -/
def keptKey (k : List Byte) : Nat := beNat (k.take 16)
def keptIv (k : List Byte) : Nat := beNat ((k.drop 16).take 16)
def keptIv96 (k : List Byte) : Nat := beNat ((k.drop 16).take 12)
def keptTag (k : List Byte) : List Byte := (k.drop 32).take 16
/-- The chaining block or GHASH value kept behind it. -/
def keptChain (k : List Byte) : Nat := beNat ((k.drop 48).take 16)

/-- The key stream block of data block `i` in CTR and GCM (R345). -/
def keyStream (mode : Nat) (k : List Byte) (i : Nat) : Nat :=
  sm4Enc (keptKey k) (if mode = 2 then (keptIv k + i) % 2 ^ 128 else gcmCounter (keptIv96 k) (i + 1))

/-- Bytes xored with the first bytes of a block. -/
def xorBytes (d : List Byte) (block : Nat) : List Byte := List.zipWith (· ^^^ ·) d (beBytes 16 block)

/-- A data block through SM4 in a mode, with the chaining value after it (R345). -/
def sm4Block (enc : Bool) (mode : Nat) (k : List Byte) (i : Nat) (d : List Byte) : List Byte × Nat :=
  let key := keptKey k
  let chain := keptChain k
  let x := beNat d
  match mode with
  | 0 => (beBytes 16 (if enc then sm4Enc key x else sm4Dec key x), chain)
  | 1 =>
    if enc then
      let c := sm4Enc key (x.xor chain)
      (beBytes 16 c, c)
    else (beBytes 16 ((sm4Dec key x).xor chain), x)
  | 2 => (xorBytes d (keyStream 2 k i), chain)
  | _ =>
    let out := xorBytes d (keyStream 3 k i)
    let c := if enc then out else d
    (out, ghashStep (sm4Enc key 0) chain (beNat c * 256 ^ (16 - c.length)))

/-- The tag of GCM (R345). -/
def gcmTag (k : List Byte) (alen len : Nat) : List Byte :=
  let key := keptKey k
  let y := ghashStep (sm4Enc key 0) (keptChain k) (alen * 8 * 2 ^ 64 + len * 8)
  beBytes 16 (y.xor (sm4Enc key (gcmCounter (keptIv96 k) 0)))

/-- PARM and the additional data are read, before the first data block. -/
def State.sm4Begin (h : HallId) (s : State) (r : EngRun) : UnitRes :=
  let g := cipherDesc r.desc
  let a : Agent := .engine h 4
  match s.eread a g.parm 48 with
  | .stall => .stall
  | .poison s o => .stop s r 2 o
  | .ok s p =>
    match (if g.mode = 3 then s.eread a g.aad g.alen else .ok s []) with
    | .stall => .stall
    | .poison s o => .stop s r 2 o
    | .ok s ad =>
      let chain := if g.mode = 3 then ghash (sm4Enc (keptKey p) 0) (g.alen / 16 + 1) 0 ad else keptIv p
      .go s { r with kept := p ++ beBytes 16 chain }

/-- The end of SM4: GCM's tag is written or compared (R345). -/
def State.sm4End (h : HallId) (q : Fin 4) (enc : Bool) (s : State) (r : EngRun) : UnitRes :=
  let g := cipherDesc r.desc
  let a : Agent := .engine h 4
  if g.mode ≠ 3 then .fin s r
  else
    let tag := gcmTag r.kept g.alen g.len
    if enc then
      if s.writeStalls a (g.parm + 32) 16 then .stall else .fin (s.agentWrite a (g.parm + 32) tag { obs := q.val }) r
    else .fin s { r with status := if tag = keptTag r.kept then 0 else 9 }

/-- One 16-byte block of SM4 (R345). -/
def State.sm4Unit (h : HallId) (q : Fin 4) (enc : Bool) (s : State) (r : EngRun) : UnitRes :=
  let g := cipherDesc r.desc
  let a : Agent := .engine h 4
  let o := 16 * r.unit
  let n := min 16 (g.len - o)
  if sm4Bad r.desc then .stop s r 1 0
  else if g.len = 0 ∧ g.alen = 0 then .fin s r
  else if r.kept.isEmpty then State.sm4Begin h s r
  else if g.len ≤ o then State.sm4End h q enc s r
  else if s.writeStalls a (g.dst + o) n then .stall
  else match s.eread a (g.src + o) n with
    | .stall => .stall
    | .poison s k => .stop s r 2 k
    | .ok s d =>
      let (out, chain) := sm4Block enc g.mode r.kept r.unit d
      .go (s.agentWrite a (g.dst + o) out { obs := q.val })
        { r with unit := r.unit + 1, result := r.result + n, kept := r.kept.take 48 ++ beBytes 16 chain }

/-- The words of kept hash state, or SM3's initial value. -/
def sm3State (k : List Byte) : List (BitVec 32) :=
  if k.isEmpty then sm3Init else (List.range 8).map fun i => BitVec.ofNat 32 (beNat ((k.drop (4 * i)).take 4))

/-- One 64-byte block of SM3; the last one, padded, with the digest (R345). -/
def State.sm3Unit (h : HallId) (q : Fin 4) (s : State) (r : EngRun) : UnitRes :=
  let g := cipherDesc r.desc
  let a : Agent := .engine h 4
  let o := 64 * r.unit
  let n := min 64 (g.len - o)
  if sm3Bad r.desc then .stop s r 1 0
  else if g.len = 0 then .fin s r
  else if n < 64 ∧ s.writeStalls a g.dst 32 then .stall
  else match (if n = 0 then .ok s [] else s.eread a (g.src + o) n) with
    | .stall => .stall
    | .poison s k => .stop s r 2 k
    | .ok s d =>
      let v := sm3State r.kept
      if n = 64 then
        .go s { r with unit := r.unit + 1, result := r.result + 64, kept := sm3Bytes (sm3Compress v d) }
      else
        .fin (s.agentWrite a g.dst (sm3Bytes (sm3Blocks 3 v (sm3Pad g.len d))) { obs := q.val }) { r with result := g.len }

end Sys2Proof.Machine
end

