-- ==== Sys2Proof/Machine/Events.lean ====
section
/-!
DEFINITION. Events of threads and cores: exception entry at a boundary (R226, R230, R231), faults of the word at PC (R182, R207),
double fault (R234, R235), core reset (R481), bad-air (R177) and the cycle timer (R180).
-/
namespace Sys2Proof.Machine

/-! ### Exception entry -/

/-- Faults of the word at PC that no instruction of the command set stands for: a fetch that fails, and a word that decodes to no
instruction (R182, R207). -/
def State.wordFault (s : State) (x : Site) : State :=
  let t := s.thread x
  if t.rep.isSome then s
  else match s.fetch x t.pc with
    | (s', .error f) => (s'.faultAt x f 0).getD s
    | (s', .ok w) =>
      if !opcodeAssigned w then (s'.faultAt x (emulTrap 1) w).getD s
      else match ofWord x w with
        | none => (s'.faultAt x (emulTrap 2) w).getD s
        | some _ => s

/-- Whether a thread has a boundary: it is active, its hall issues, and no failed entry waits (R231, R234). -/
def State.atBoundary (s : State) (x : Site) : Bool :=
  let t := s.thread x
  s.hallIssues x.hall t && decide (t.run = .active) && t.dfPend.isNone

/-- A thread takes the first of R230, or the fault of the word at PC; it stays while a held access stands before the entry. -/
def State.enterException (s : State) (x : Site) : State :=
  if !s.atBoundary x then s
  else match s.boundary x with
    | some b => (s.takeBoundary x b).getD s
    | none => s.wordFault x

/-- EXCEPTION_ENTRY (R226, R230). -/
def execExceptionEntry (x : Site) (s : State) : Outcome := s.does fun s => s.enterException x

/-! ### Double fault -/

/-- The handler and the stack of a double-fault entry, when every check of R234 holds. -/
def State.emergency (s : State) (x : Site) : State × Option (ExcEntry × SegImage × SegImage) :=
  let em := s.liveWord (corePage x.core 0) 0xA10
  match s.tableEntry x 0 15 with
  | (s, none) => (s, none)
  | (s, some e) =>
    if !wbit (s.vbase x.core 0) 0 || !e.p || e.reserved || e.tring != 0 then (s, none)
    else match s.handlerCode x e.codeSel e.hpc 0 with
      | (s, none) => (s, none)
      | (s, some code) =>
        match s.selected x (fieldOf em 0 16) with
        | (s, none) => (s, none)
        | (s, some stk) =>
          if wbit em 16 && stackOk stk && segRing stk == 0 then (s, some (e, code, stk)) else (s, none)

/-- The position of a logical core (R13, R14). -/
def State.positionOf (s : State) (c : CoreId) : Position :=
  ⟨Fin.ofNat 12 (c.index % 12), Fin.ofNat 13 (s.physRow c.hall (c.index % 12) (c.index / 12))⟩

/-- A core reset by a double fault, which is a core hard fault (R235, R453). -/
def State.resetByFault (s : State) (c : CoreId) : State := (s.coreReset c).hardFault c.hall (s.positionOf c) 1

/-- The entry of a double fault (R234). -/
def State.enterDouble (s : State) (x : Site) (fe : FailedEntry) (e : ExcEntry) (code stk : SegImage) : State :=
  let t := s.thread x
  let fr : Frame :=
    { seg0 := t.seg 0, seg1 := t.seg 1, seg2 := t.seg 2, pc := fe.pc, ring := t.ring.toNat, inh := t.inh, df := true, gate := false
      repl := fe.repl, vector := 15, orig := fe.vector, gateNum := 0, cause := fe.cause, nargs := 0, qtaken := fe.qtaken
      args := [] }
  let s := s.writeRflt x 3 fe.cause 0 0 fe.pc
  let s := s.pushFrame x stk code 0 (BitVec.ofNat 16 e.hpc) fr
  (s.modThread x fun t => { t with inh := true, df := true, dfPend := none }).abandon x.core

/-- The 16-byte units of chamber memory that a double-fault entry reads. -/
def State.emergencyUnits (s : State) (x : Site) : List Nat :=
  [fieldOf (s.vbase x.core 0) 10 10 * 1024 + 240, 16 * fieldOf (s.liveWord (corePage x.core 0) 0xA10) 0 16] ++
    match (s.tableEntry x 0 15).2 with
    | some e => [16 * e.codeSel]
    | none => []

/-- A failed entry that waits is made again, or resets the core (R234, R235); it waits on while a held access stands before it. -/
def State.doubleFault (s : State) (x : Site) : State :=
  match (s.thread x).dfPend with
  | none => s
  | some fe =>
    if (s.thread x).df then s.resetByFault x.core
    else if s.readsWait x (s.emergencyUnits x) then s
    else match s.emergency x with
      | (s, none) => s.resetByFault x.core
      | (t, some (e, code, stk)) =>
        if s.frameWaits x (segBase stk + segExtent stk - 96) then s else t.enterDouble x fe e code stk

/-- DOUBLE_FAULT_ENTRY (R234). -/
def execDoubleFaultEntry (x : Site) (s : State) : Outcome := s.does fun s => s.doubleFault x

/-- CORE_RESET (R481). -/
def execCoreReset (c : CoreId) (s : State) : Outcome := s.does fun s => s.coreReset c

/-! ### Detectors -/

/-- The thread that takes bad-air (R177). -/
def Core.airThread (k : Core) : Option (Fin 4) :=
  if (k.thread 0).run ≠ .parked then some 0 else (List.finRange 4).find? fun t => k.blockCode t == 1

/-- The bad-air detector has counted to its limit (R177, R178). -/
def State.badAir (s : State) (c : CoreId) : State :=
  let k := s.core c
  if 1024 ≤ k.airCount ∧ k.airCycle = true then
    match k.airThread with
    | some t =>
      let s := s.setCore c { k with airCount := 0 }
      (s.modThread ⟨c, t⟩ fun t => { t with badAir := true }).countSat (corePage c 0) 0x988 1
    | none => s
  else s

/-- BAD_AIR (R177). -/
def execBadAir (c : CoreId) (s : State) : Outcome := s.does fun s => s.badAir c

/-- The cycle counter has reached a thread's compare value (R180). -/
def State.timerMatch (s : State) (x : Site) : State :=
  let v := (s.thread x).tmrcmp
  if v ≠ 0 ∧ v.toNat ≤ s.cycleOf x.core then (s.modThread x fun t => { t with tmrcmp := 0 }).pend x 37 else s

/-- CYCLE_TIMER_MATCH (R180). -/
def execCycleTimerMatch (x : Site) (s : State) : Outcome := s.does fun s => s.timerMatch x

end Sys2Proof.Machine
end

