-- ==== Sys2Proof/Machine/QueueOps.lean ====
section
/-!
DEFINITION. Issue of the queue instructions (R88 to R117, R130 to R149, R167 to R172): what each captures when it goes into its queue
(R94, R133, R168), and the events of queues: commits, rest and admission (R123 to R129), tokens (R170), the DMA engine (R172 to R176).
-/
namespace Sys2Proof.Machine

/-- A queue instruction issues: its operands are captured and it goes into its queue, from which it runs as soon as nothing holds
it (R167; assumption log 6). -/
def State.queueIn (s : State) (x : Site) (i : Instr) (vals : State → List Word) (segs : State → List SegImage) : Outcome :=
  settled (s.run x i fun s => s.enqueue x i (vals s) (segs s))

/-- A segment register of the issuing thread by a three-bit field. -/
def State.segOf (s : State) (x : Site) (n : BitVec 3) : SegImage := (s.thread x).seg n.toNat

/-- The scalar operand that VPERM captures (R138). -/
def State.vpermVals (s : State) (x : Site) (f : FmtVperm) : List Word :=
  if f.func = 6 ∨ f.func = 7 ∨ f.func = 8 ∨ f.func = 9 then [s.reg x (reg4 f.vb)] else []

/-- The scalar operand that VMASK captures (R146). -/
def State.vmaskVals (s : State) (x : Site) (f : FmtVmask) : List Word :=
  if f.mfunc = 5 ∨ f.mfunc = 7 then [s.reg x f.sn] else []

/-- The register pair of a tile transfer (R95). -/
def State.pairVals (s : State) (x : Site) (f : FmtTls) : List Word := [s.reg x (pairLo f.pair), s.reg x (pairHi f.pair)]

/-! ### The vector queue -/

/-- VOP (R135). -/
def execVop (x : Site) (f : FmtVop) (s : State) : Outcome :=
  s.queueIn x (.vop x f) (fun _ => []) (fun _ => [])

/-- VFMA (R136). -/
def execVfma (x : Site) (f : FmtVfma) (s : State) : Outcome :=
  s.queueIn x (.vfma x f) (fun _ => []) (fun _ => [])

/-- VCMP (R137). -/
def execVcmp (x : Site) (f : FmtVcmp) (s : State) : Outcome :=
  s.queueIn x (.vcmp x f) (fun _ => []) (fun _ => [])

/-- VPERM (R138). -/
def execVperm (x : Site) (f : FmtVperm) (s : State) : Outcome :=
  s.queueIn x (.vperm x f) (fun s => s.vpermVals x f) (fun _ => [])

/-- VMAC (R139). -/
def execVmac (x : Site) (f : FmtVmac) (s : State) : Outcome :=
  s.queueIn x (.vmac x f) (fun _ => []) (fun _ => [])

/-- VADDAC (R139). -/
def execVaddac (x : Site) (f : FmtVmac) (s : State) : Outcome :=
  s.queueIn x (.vaddac x f) (fun _ => []) (fun _ => [])

/-- VRED (R140). -/
def execVred (x : Site) (f : FmtVred) (s : State) : Outcome :=
  s.queueIn x (.vred x f) (fun _ => []) (fun _ => [])

/-- VCVT (R141). -/
def execVcvt (x : Site) (f : FmtVcvt) (s : State) : Outcome :=
  s.queueIn x (.vcvt x f) (fun _ => []) (fun _ => [])

/-- VTR (R142). -/
def execVtr (x : Site) (f : FmtVtr) (s : State) : Outcome :=
  s.queueIn x (.vtr x f) (fun _ => []) (fun _ => [])

/-- VLD (R143). -/
def execVld (x : Site) (f : FmtVls) (s : State) : Outcome :=
  s.queueIn x (.vld x f) (fun s => [s.reg x (reg4 f.sn)]) (fun s => [s.segOf x f.seg])

/-- VST (R143). -/
def execVst (x : Site) (f : FmtVls) (s : State) : Outcome :=
  s.queueIn x (.vst x f) (fun s => [s.reg x (reg4 f.sn)]) (fun s => [s.segOf x f.seg])

/-- VMVF (R144). -/
def execVmvf (x : Site) (f : FmtVmv) (s : State) : Outcome :=
  s.queueIn x (.vmvf x f) (fun _ => []) (fun _ => [])

/-- VMVT (R144). -/
def execVmvt (x : Site) (f : FmtVmv) (s : State) : Outcome :=
  s.queueIn x (.vmvt x f) (fun _ => []) (fun _ => [])

/-- VMASK (R146). -/
def execVmask (x : Site) (f : FmtVmask) (s : State) : Outcome :=
  s.queueIn x (.vmask x f) (fun s => s.vmaskVals x f) (fun _ => [])

/-! ### The matrix queue -/

/-- TCFG (R86, R88, R89). -/
def execTcfg (x : Site) (form : TcfgForm) (f : FmtTcfg) (s : State) : Outcome :=
  s.queueIn x (.tcfg x form f) (fun s => if form = .reg then [s.reg x (f.rows.extractLsb' 1 5)] else []) (fun _ => [])

/-- TSHR (R88, R89). -/
def execTshr (x : Site) (f : FmtTcfg) (s : State) : Outcome :=
  s.queueIn x (.tshr x f) (fun _ => []) (fun _ => [])

/-- TLD (R95, R96). -/
def execTld (x : Site) (f : FmtTls) (s : State) : Outcome :=
  s.queueIn x (.tld x f) (fun s => s.pairVals x f) (fun s => [s.segOf x f.seg])

/-- TST (R95, R96). -/
def execTst (x : Site) (f : FmtTls) (s : State) : Outcome :=
  s.queueIn x (.tst x f) (fun s => s.pairVals x f) (fun s => [s.segOf x f.seg])

/-- TLDX (R101, R102). -/
def execTldx (x : Site) (f : FmtTldx) (s : State) : Outcome :=
  s.queueIn x (.tldx x f) (fun _ => []) (fun s => [s.segOf x f.seg])

/-- TZERO (R103). -/
def execTzero (x : Site) (f : FmtTzero) (s : State) : Outcome :=
  s.queueIn x (.tzero x f) (fun _ => []) (fun _ => [])

/-- MMA (R115, R119). -/
def execMma (x : Site) (f : FmtMma) (s : State) : Outcome :=
  s.queueIn x (.mma x f) (fun _ => []) (fun _ => [])

/-! ### Any queue -/

/-- TOKEN (R170). -/
def execToken (x : Site) (f : FmtToken) (s : State) : Outcome :=
  s.queueIn x (.token x f) (fun _ => []) (fun _ => [])

/-- DMAQ (R172). -/
def execDmaq (x : Site) (f : FmtDmaq) (s : State) : Outcome :=
  s.queueIn x (.dmaq x f) (fun s => [s.reg x (reg4 f.dreg)]) (fun s => [s.segOf x f.dseg, s.segOf x f.sseg, s.segOf x f.tseg])

/-! ### The matrix unit's events -/

/-- The oldest MMA in flight commits (R120, R123). -/
def State.commitOldest (s : State) (c : CoreId) : State :=
  match (s.core c).mq.entries with
  | e :: _ =>
    match e.instr with
    | .mma _ f => if e.phase = .underWay then (s.commitMma c f).modCore c fun k => k.popQ 0 else s
    | _ => s
  | [] => s

/-- MMA_COMMIT (R123). -/
def execMmaCommit (c : CoreId) (s : State) : Outcome := s.does fun s => s.commitOldest c

/-- A matrix unit comes to rest: 2,048 core cycles after its last commit or abandonment, with no MMA in issue (R127); before that the
event is none. -/
def State.comeToRest (s : State) (c : CoreId) : State :=
  if (s.core c).rests (s.hall c.hall).cycles then s.modCore c fun k => { k with resting := true } else s

/-- MATRIX_REST (R127). -/
def execMatrixRest (c : CoreId) (s : State) : Outcome := s.does fun s => s.comeToRest c

/-- Whether an entry is an MMA held for admission. -/
def QEntry.heldSince (e : QEntry) : Option Nat :=
  match e.phase with
  | .held n => some n
  | _ => none

/-- Whether an entry is an MMA held for admission that is ready to issue: its queue has not stopped ahead of it (R106, R128, R145). -/
def Core.admits (k : Core) (e : QEntry) : Bool := e.heldSince.isSome && !k.mq.stops e

/-- Whether some unit waits for admission (R128). -/
def State.someWaits (s : State) : Bool := s.cores.any fun p => p.2.mq.entries.any p.2.admits

/-- An admission window opens when a unit waits and none is open (R128); windows run in core cycles of hall 0 (assumption
log 32). -/
def State.openWindow (s : State) : State :=
  let now := (s.hall 0).cycles
  let shut := match s.window with
    | some w => decide (w + 768 ≤ now)
    | none => true
  if shut && s.someWaits then { s with window := some now } else s

/-- ADMISSION_WINDOW_OPEN (R128). -/
def execAdmissionWindowOpen (s : State) : Outcome := s.does State.openWindow

/-- A unit with an MMA held for admission begins its issue and stops resting (R127 to R129). -/
def State.grant (s : State) (c : CoreId) : State :=
  match (s.core c).mq.entries.findIdx? (s.core c).admits with
  | none => s
  | some n =>
    match (s.core c).mq.entries[n]? with
    | none => s
    | some e =>
      match e.instr with
      | .mma _ f =>
        let s := s.count64 (corePage c 0) 0x8E8 ((s.hall c.hall).cycles - e.heldSince.getD 0)
        (s.modCore c fun k => { k with resting := false }).startMma c n f
      | _ => s

/-- The slot of a group in the open window (R127, R128): at 64 g cycles from its opening. -/
def State.groupSlot (s : State) (g : Fin 12) : State :=
  match s.window with
  | none => s
  | some w =>
    if (s.hall 0).cycles ≠ w + 64 * g.val then s
    else (s.listedCores.filter fun c => c.index % 12 == g.val).foldl (fun s c => s.grant c) s

/-- ADMISSION_GROUP_SLOT (R128). -/
def execAdmissionGroupSlot (g : Fin 12) (s : State) : Outcome := s.does fun s => s.groupSlot g

/-! ### Tokens and the DMA engine -/

/-- TOKEN_COMPLETE (R170, R265). -/
def execTokenComplete (c : CoreId) (q : Fin 3) (s : State) : Outcome := s.does fun s => s.completeToken c q.val

/-- CORE_DMA_START (R172, R174). -/
def execCoreDmaStart (c : CoreId) (s : State) : Outcome := s.does fun s => s.startDma c

/-- CORE_DMA_COMPLETE (R173, R175, R176). -/
def execCoreDmaComplete (c : CoreId) (s : State) : Outcome := s.does fun s => s.completeDma c

end Sys2Proof.Machine
end

