-- ==== Sys2Proof/Machine/MsgOps.lean ====
section
/-!
DEFINITION. Channel, sump and barrier commands: the instructions (R279 to R287, R307, R308), messages, contributions, credits and
releases on their way (R266, R277, R281, R289, R302, R309), and what a sealed core drops (R454).
-/
namespace Sys2Proof.Machine

/-! ### Channels, rings and sumps -/

/-- The channel, ring or sump that an instruction names. -/
def chId (f : FmtC) : Fin 32 := Fin.ofNat 32 f.id.toNat

/-- WRCH (R282). -/
def execWrch (x : Site) (f : FmtC) (s : State) : Outcome :=
  settled (s.run x (.wrch x f) fun s => s.wrch x (chId f) (s.reg x f.ra) (s.reg x f.rb))

/-- WRCHB (R282). -/
def execWrchb (x : Site) (f : FmtC) (s : State) : Outcome :=
  settled (s.run x (.wrchb x f) fun s => s.wrchb x (chId f) f.rd.toNat (s.reg x f.ra) (s.reg x f.rb))

/-- CLOSE (R283). -/
def execClose (x : Site) (f : FmtC) (s : State) : Outcome :=
  settled (s.run x (.close x f) fun s => s.closeMsg x (chId f) (s.reg x f.ra).toNat)

/-- RECV (R279). -/
def execRecv (x : Site) (f : FmtC) (s : State) : Outcome := settled (s.run x (.recv x f) fun s => s.recv x f.rd (chId f))

/-- RFREE (R280). -/
def execRfree (x : Site) (f : FmtC) (s : State) : Outcome :=
  settled (s.run x (.rfree x f) fun s => s.rfree x (chId f) (s.reg x f.ra).toNat)

/-- SUMPARM (R287). -/
def execSumparm (x : Site) (f : FmtC) (s : State) : Outcome :=
  settled (s.run x (.sumparm x f) fun s => s.sumparm x (chId f) (s.reg x f.ra))

/-- What arrives at the position of a sealed core is dropped (R454). -/
def State.atCore (s : State) (c : CoreId) (f : State → State) : State := if s.coreSealed c then s.sealDrop c.hall else f s

/-- MESSAGE_DEPART (R266). -/
def execMessageDepart (c : CoreId) (ch : Fin 32) (s : State) : Outcome := s.does fun s => s.depart c ch

/-- CHANNEL_MESSAGE (R277, R454). -/
def execChannelMessage (c : CoreId) (m : Message) (s : State) : Outcome :=
  s.does fun s => s.meshArrive c (.message m) fun s => s.atCore c fun s => s.receive c m

/-- SUMP_CONTRIBUTION (R287, R454). -/
def execSumpContribution (c : CoreId) (m : Message) (s : State) : Outcome :=
  s.does fun s => s.meshArrive c (.contribution m) fun s => s.atCore c fun s => s.contribute c m

/-- CREDIT_RETURN (R281, R454). -/
def execCreditReturn (c : CoreId) (ch : Fin 32) (member : Nat) (s : State) : Outcome :=
  s.does fun s => s.meshArrive c (.credit ch member) fun s => s.atCore c fun s => s.creditBack c ch member

/-- SUMP_DRAIN (R289). -/
def execSumpDrain (c : CoreId) (u : Fin 32) (s : State) : Outcome := s.does fun s => s.drain c u.val

/-! ### Barriers -/

/-- ARRIVE (R307). -/
def execArrive (x : Site) (f : FmtC) (s : State) : Outcome := settled (s.run x (.arrive x f) fun s => s.arrive x f.id.toNat)

/-- WAITB (R308). -/
def execWaitb (x : Site) (f : FmtC) (s : State) : Outcome := settled (s.run x (.waitb x f) fun s => s.waitb x f.id.toNat)

/-- BARRIER_ARRIVE (R302). -/
def execBarrierArrive (h : HallId) (b : Fin 80) (src : ArriveAt) (s : State) : Outcome :=
  s.does fun s => s.barArriveAt h b.val src

/-- BARRIER_RELEASE (R309, R454). -/
def execBarrierRelease (c : CoreId) (b : Fin 80) (s : State) : Outcome :=
  s.does fun s => s.atCore c fun s => s.barReleased c b.val

end Sys2Proof.Machine
end

