-- ==== Sys2Proof/Machine/PageOps.lean ====
section
/-!
DEFINITION. Commands that are accesses of control registers (R7, R40, R42): commits (R45 to R49), errors (R39), halls (R153 to
R155), tallies and drips (R74, R81), cores (R171, R215), lantern pages (R298, R299), engine queues (R320, R327), recovery
(R440 to R457), the host (R393 to R399) and security (R410, R426, R479); and the events of commits and halls that they lead to.
-/
namespace Sys2Proof.Machine

/-! ### Commits and the header -/

/-- COMMIT_GO (R47). -/
def execCommitGo (a : Agent) (page : PageNo) (s : State) : Outcome := s.writes a page.toNat 0x020 1

/-- COMMIT_REVERT (R49). -/
def execCommitRevert (a : Agent) (page : PageNo) (s : State) : Outcome := s.writes a page.toNat 0x020 2

/-- COMMIT_CHECK_END (R48). -/
def execCommitCheckEnd (page : PageNo) (s : State) : Outcome := s.does fun s => s.commitCheckEnd page.toNat

/-- Time passes to the safe point of a block whose safe point is a moment of the clock: POWER's is the next interval end (R474). -/
def State.passToSafe (s : State) (p : Nat) : State :=
  if p = 2 ∧ (s.commitOf p).waiting = true ∧ (s.commitOf p).checking = false then
    s.passTo ((s.rootTick + (intervalTicks - 1)) / intervalTicks * intervalTicks)
  else s

/-- COMMIT_APPLY (R48). -/
def execCommitApply (page : PageNo) (s : State) : Outcome := s.does fun s => (s.passToSafe page.toNat).commitApply page.toNat

/-- COMMIT_TIMEOUT (R49). -/
def execCommitTimeout (page : PageNo) (s : State) : Outcome := s.does fun s => s.commitTimeout page.toNat

/-- ERR_CLEAR (R39). -/
def execErrClear (a : Agent) (page : PageNo) (v : Word) (s : State) : Outcome := s.writes a page.toNat 0x010 v

/-- ERR_INJ (R39). -/
def execErrInj (a : Agent) (page : PageNo) (v : Word) (s : State) : Outcome := s.writes a page.toNat 0x018 v

/-- REGISTER_WRITE (R7): a write that is not of an aligned word is an access error (R40, R41). -/
def execRegisterWrite (a : Agent) (page : PageNo) (off : BitVec 12) (v : Word) (s : State) : Outcome :=
  s.writes a page.toNat off.toNat v

/-- COUNTER_LOW_HALF_READ (R42): a read that is not of an aligned word reads zero and is an access error (R40, R41). -/
def execCounterLowHalfRead (a : Agent) (page : PageNo) (off : BitVec 12) (s : State) : Outcome :=
  s.reads a page.toNat off.toNat

/-- EXTERR_READ (R228). -/
def execExterrRead (a : Agent) (h : HallId) (s : State) : Outcome := s.reads a (hallPage h 0) 0x8C0

/-- KNOTICE_READ (R458). -/
def execKnoticeRead (a : Agent) (h : HallId) (s : State) : Outcome := s.reads a (hallPage h 0x84) 0x8BC

/-! ### Halls -/

/-- HALL_START (R154). -/
def execHallStart (a : Agent) (h : HallId) (s : State) : Outcome := s.writes a (hallPage h 0) 0x008 1

/-- HALL_COLUMN_START (R483). -/
def execHallColumnStart (h : HallId) (s : State) : Outcome :=
  s.does fun s => if s.columnReady h then (s.passTo (s.columnDue h)).columnStart h else s

/-- HALL_STOP (R155). -/
def execHallStop (a : Agent) (h : HallId) (s : State) : Outcome := s.writes a (hallPage h 0) 0x008 2

/-- HALL_STOPPED (R155). -/
def execHallStopped (h : HallId) (s : State) : Outcome := s.does fun s => s.hallStopped h

/-- DRIP_WRITE (R74). -/
def execDripWrite (a : Agent) (u : DripUnit) (v : Word) (s : State) : Outcome := s.writes a (dripPlace u).1 (dripPlace u).2.1 v

/-- SUMP_ROUND_WRITE (R293). -/
def execSumpRoundWrite (a : Agent) (c : CoreId) (u : Fin 32) (v : Word) (s : State) : Outcome :=
  s.writes a (chanPage c) (0x840 + 4 * u.val) v

/-- SALT_WRITE (R242). -/
def execSaltWrite (a : Agent) (h : HallId) (v : Word) (s : State) : Outcome := s.writes a (hallPage h 0) 0x8A0 v

/-- The page and offset of TALLY_CLR of a core or engine (R79). -/
def tallyClrPlace : TallyUnit → Nat × Nat
  | .core c => (corePage c 2, 0x800)
  | .engine h n => (enginePage h n.val, 0xF00)

/-- TALLY_CLR (R81). -/
def execTallyClr (a : Agent) (u : TallyUnit) (v : Word) (s : State) : Outcome :=
  s.writes a (tallyClrPlace u).1 (tallyClrPlace u).2 v

/-! ### Cores -/

/-- QCTL_DISCARD (R171). -/
def execQctlDiscard (a : Agent) (c : CoreId) (v : Word) (s : State) : Outcome := s.writes a (corePage c 0) 0x924 v

/-- TABLE_REGISTER_WRITE (R215). -/
def execTableRegisterWrite (a : Agent) (c : CoreId) (r : TableReg) (v : Word) (s : State) : Outcome :=
  s.writes a (corePage c 0) (tableOff r) v

/-- The offset of LHALTn (R298). -/
def lhaltOff (t : Fin 4) : Nat := 0x800 + 4 * t.val

/-- LANTERN_HALT (R298). -/
def execLanternHalt (a : Agent) (x : Site) (s : State) : Outcome := s.writes a (corePage x.core 3) (lhaltOff x.thread) 1

/-- LANTERN_DELIVER (R298). -/
def execLanternDeliver (a : Agent) (x : Site) (s : State) : Outcome := s.writes a (corePage x.core 3) (lhaltOff x.thread) 3

/-- LANTERN_RESUME (R298). -/
def execLanternResume (a : Agent) (x : Site) (s : State) : Outcome := s.writes a (corePage x.core 3) (lhaltOff x.thread) 4

/-- CHANNEL_ABORT (R299). -/
def execChannelAbort (a : Agent) (c : CoreId) (v : Word) (s : State) : Outcome := s.writes a (corePage c 3) 0x810 v

/-! ### Engines -/

/-- The offsets of PROD and CTL of an engine queue (R319). -/
def prodOff (q : Fin 4) : Nat := 0x800 + 16 * q.val
def qctlOff (q : Fin 4) : Nat := 0x80C + 16 * q.val

/-- QUEUE_PROD_WRITE (R320). -/
def execQueueProdWrite (a : Agent) (h : HallId) (n : Fin 9) (q : Fin 4) (v : Word) (s : State) : Outcome :=
  s.writes a (enginePage h n.val) (prodOff q) v

/-- QUEUE_RESUME (R327). -/
def execQueueResume (a : Agent) (h : HallId) (n : Fin 9) (q : Fin 4) (s : State) : Outcome :=
  s.writes a (enginePage h n.val) (qctlOff q) 1

/-- QUEUE_DISCARD (R327). -/
def execQueueDiscard (a : Agent) (h : HallId) (n : Fin 9) (q : Fin 4) (all : Bool) (s : State) : Outcome :=
  s.writes a (enginePage h n.val) (qctlOff q) (if all then 6 else 2)

/-! ### Recovery, the host and security -/

/-- PROG_KICK (R440). -/
def execProgKick (a : Agent) (h : HallId) (v : Word) (s : State) : Outcome := s.writes a (hallPage h 0x84) 0x8B4 v

/-- CGO (R446). -/
def execCgo (a : Agent) (h : HallId) (v : Word) (s : State) : Outcome := s.writes a (memPage h) 0x900 v

/-- CKCTL_LOAD (R444). -/
def execCkctlLoad (a : Agent) (h : HallId) (s : State) : Outcome := s.writes a (memPage h) 0x940 1

/-- CKCTL_CLEAR (R444). -/
def execCkctlClear (a : Agent) (h : HallId) (s : State) : Outcome := s.writes a (memPage h) 0x940 2

/-- RESTORE (R450). -/
def execRestore (a : Agent) (h : HallId) (v : Word) (s : State) : Outcome := s.writes a (memPage h) 0x950 v

/-- SUSPECT (R456). -/
def execSuspect (a : Agent) (h : HallId) (v : Word) (s : State) : Outcome := s.writes a (sealPage h) 0x810 v

/-- READMIT (R457). -/
def execReadmit (a : Agent) (h : HallId) (v : Word) (s : State) : Outcome := s.writes a (sealPage h) 0x818 v

/-- SQ_TAIL_WRITE (R396). -/
def execSqTailWrite (a : Agent) (h : HallId) (v : Word) (s : State) : Outcome := s.writes a (funPage h) 0x800 v

/-- SQ_HEAD_WRITE (R396). -/
def execSqHeadWrite (a : Agent) (h : HallId) (v : Word) (s : State) : Outcome := s.writes a (funPage h) 0x804 v

/-- CQ_HEAD_WRITE (R393). -/
def execCqHeadWrite (a : Agent) (h : HallId) (v : Word) (s : State) : Outcome := s.writes a (funPage h) 0x808 v

/-- CQ_POST (R399). -/
def execCqPost (a : Agent) (h : HallId) (v : Word) (s : State) : Outcome := s.writes a (funPage h) 0x810 v

/-- RAISE (R393). -/
def execRaise (a : Agent) (h : HallId) (v : Word) (s : State) : Outcome := s.writes a (funPage h) 0x814 v

/-- SCRUB_REQ (R426). -/
def execScrubReq (a : Agent) (v : Word) (s : State) : Outcome := s.writes a 8 0x830 v

/-- ROLLFWD (R410). -/
def execRollfwd (a : Agent) (v : Word) (s : State) : Outcome := s.writes a 8 0x824 v

/-- MODRST (R479). -/
def execModrst (a : Agent) (v : Word) (s : State) : Outcome := s.writes a 4 0x810 v

end Sys2Proof.Machine
end

