-- ==== Sys2Proof/Machine/Sorting.lean ====
section
/-!
DEFINITION. The sort and top-k engine (R337, R338) and the sampling engine (R339, R340).
-/
namespace Sys2Proof.Machine

/-! ### Sort and top-k -/

/-- Fields of a sort descriptor (R337). -/
structure SortDesc where
  topk : Bool
  desc : Bool
  key32 : Bool
  vals : Bool
  kfmt : Nat
  n : Nat
  k : Nat
  keys : Nat
  vin : Nat
  okeys : Nat
  ovals : Nat

/-- The fields of its bytes. -/
def sortDesc (d : List Byte) : SortDesc :=
  let c := dget d 16 1
  { topk := dOp d == 2, desc := bitOf c 0, key32 := bitOf c 1, vals := bitOf c 2, kfmt := bitsOf (dget d 17 1) 0 4
    n := dget d 20 4, k := dget d 24 4, keys := dget d 32 8, vin := dget d 40 8, okeys := dget d 48 8, ovals := dget d 56 8 }

/-- Bytes of a key. -/
def SortDesc.keyBytes (g : SortDesc) : Nat := if g.key32 then 4 else fmtWidth g.kfmt / 8

/-- Pairs written (R338). -/
def SortDesc.outN (g : SortDesc) : Nat := if g.topk then min g.k g.n else g.n

/-- The key formats (R337). -/
def keyFmt (f : Nat) : Bool := f == 1 || f == 2 || (6 ≤ f && f ≤ 10)

/-- The address of a SORT's scratch area (R337). -/
def SortDesc.scratch (g : SortDesc) (h : HallId) : Nat := galleryBase h + g.k

/-- The ranges that a sort descriptor reads, and its scratch area. -/
def SortDesc.inputs (g : SortDesc) (h : HallId) : List (Nat × Nat) :=
  [(g.keys, g.n * g.keyBytes)] ++ (if g.vals then [(g.vin, g.n * 4)] else []) ++
    (if g.topk then [] else [(g.scratch h, 8 * g.n)])

/-- The ranges that it writes. -/
def SortDesc.outputs (g : SortDesc) : List (Nat × Nat) := [(g.okeys, g.outN * g.keyBytes), (g.ovals, g.outN * 4)]

/-- Errors of a sort descriptor (R323, R337). -/
def State.sortBad (s : State) (h : HallId) (d : List Byte) : Bool :=
  let g := sortDesc d
  bitsOf (dget d 16 1) 3 5 != 0 || bitsOf (dget d 17 1) 4 4 != 0 || dget d 18 2 != 0 || dget d 28 4 != 0
    || (if g.key32 then g.kfmt != 0 else !keyFmt g.kfmt) || decide (1048576 < g.n) || badAddr d 32
    || (g.vals && badAddr d 40) || badAddr d 48 || badAddr d 56
    || (if g.topk then decide (4096 < g.k)
        else g.k % 64 != 0 || decide (0xC000000 < g.k + 8 * g.n)
          || !((g.inputs h ++ g.outputs).all fun p => s.inPartGallery h p.1 p.2))
    || (g.outputs.any fun o => (g.inputs h).any fun i => overlap o.1 o.2 i.1 i.2)

/-- Whether pair `b` comes before pair `a`, which stands before it in the input (R338): NaN keys follow every other. -/
def keyBefore (g : SortDesc) (b a : Nat) : Bool :=
  if g.key32 then (if g.desc then decide (a < b) else decide (b < a))
  else
    match decodeNum g.kfmt b, decodeNum g.kfmt a with
    | .nan, _ => false
    | _, .nan => true
    | x, y =>
      match x.cmp y with
      | some c => if g.desc then decide (0 < c) else decide (c < 0)
      | none => false

/-- A pair goes into a list in order, before the first pair that it precedes (R338). -/
def insertPair (g : SortDesc) (p : Nat × Nat) : List (Nat × Nat) → List (Nat × Nat)
  | [] => [p]
  | q :: t => if keyBefore g p.1 q.1 then p :: q :: t else q :: insertPair g p t

/-- The pairs in the total order of R338: each goes in after the pairs before it in the input. -/
def sortPairs (g : SortDesc) (l : List (Nat × Nat)) : List (Nat × Nat) := l.foldl (fun acc p => insertPair g p acc) []

/-- Little-endian numbers of `w` bytes each. -/
def wordsOf (w n : Nat) (d : List Byte) : List Nat := bitElems (8 * w) n (bytesNat d)

/-- Fresh free bytes (assumption log 2). -/
def State.freshBytes (s : State) : Nat → State × List Byte
  | 0 => (s, [])
  | n + 1 =>
    let (k, s) := s.takeFresh
    let (s, l) := s.freshBytes n
    (s, Config.freeByte k :: l)

/-- The scratch area holds free bytes after a SORT (R338). -/
def State.soilScratch (s : State) (h : HallId) (q : Fin 4) (g : SortDesc) : State :=
  if g.topk then s
  else
    let (s, d) := s.freshBytes (8 * g.n)
    s.agentWrite (.engine h 1) (g.scratch h) d { obs := q.val }

/-- The output of a sort descriptor is written (R338). -/
def State.writeSorted (s : State) (h : HallId) (q : Fin 4) (g : SortDesc) (l : List (Nat × Nat)) : State :=
  let l := (sortPairs g l).take g.outN
  let tag : WriteTag := { obs := q.val }
  let s := (s.soilScratch h q g).agentWrite (.engine h 1) g.okeys (l.flatMap fun p => natBytes g.keyBytes p.1) tag
  s.agentWrite (.engine h 1) g.ovals (l.flatMap fun p => natBytes 4 p.2) tag

/-- A SORT or TOPK, as one unit (R328, R338); one that writes no pair does nothing (R9). -/
def State.sortUnit (h : HallId) (q : Fin 4) (s : State) (r : EngRun) : UnitRes :=
  let g := sortDesc r.desc
  let a : Agent := .engine h 1
  if s.sortBad h r.desc then .stop s r 1 0
  else if g.outN = 0 then .fin s r
  else if s.writesStall a ((if g.topk then [] else [(g.scratch h, 8 * g.n)]) ++ g.outputs) then .stall
  else match s.eread a g.keys (g.n * g.keyBytes) with
    | .stall => .stall
    | .poison s o => .stop s r 2 o
    | .ok s kd =>
      match (if g.vals then s.eread a g.vin (g.n * 4) else .ok s []) with
      | .stall => .stall
      | .poison s o => .stop s r 2 o
      | .ok s vd =>
        let ks := wordsOf g.keyBytes g.n kd
        let vs := if g.vals then wordsOf 4 g.n vd else List.range g.n
        .fin (s.writeSorted h q g (ks.zip vs)) { r with result := g.outN }

/-! ### Sampling -/

/-- Fields of a sampling descriptor (R339). -/
structure SampleDesc where
  n : Nat
  nvec : Nat
  k : Nat
  lf : Nat
  greedy : Bool
  invt : Nat
  topp : Nat
  minp : Nat
  rstride : Nat
  logits : Nat
  out : Nat

/-- The fields of its bytes. -/
def sampleDesc (d : List Byte) : SampleDesc :=
  { n := dget d 16 4, nvec := dget d 20 4, k := dget d 24 2, lf := bitsOf (dget d 26 1) 0 4, greedy := bitOf (dget d 26 1) 4
    invt := dget d 28 2, topp := dget d 30 2, minp := dget d 32 2, rstride := dget d 40 4, logits := dget d 48 8
    out := dget d 56 8 }

/-- A16 one (R56). -/
def a16One : Num := decodeNum 10 0x3E00

/-- Whether an A16 encoding is a positive number that is not zero. -/
def a16Positive (x : Nat) : Bool := !encIsNaN 10 x && !signBit 10 x && magBits 10 x != 0

/-- Errors of a sampling descriptor (R323, R339). -/
def sampleBad (d : List Byte) : Bool :=
  let g := sampleDesc d
  decide (1048576 < g.n) || decide (1024 < g.nvec) || decide (1024 < g.k) || bitsOf (dget d 26 1) 5 3 != 0
    || !(g.lf == 8 || g.lf == 9 || g.lf == 10) || dget d 27 1 != 0 || (!g.greedy && !a16Positive g.invt)
    || !a16Positive g.topp
    || encIsNaN 10 g.minp || (signBit 10 g.minp && magBits 10 g.minp != 0) || Num.ltZ a16One (decodeNum 10 g.minp)
    || dget d 34 6 != 0 || g.rstride % 16 != 0 || dget d 44 4 != 0 || badAddr d 48 || badAddr d 56

/-- A candidate: its index, logit and weight. -/
structure Cand where
  i : Nat
  x : Num
  w : Num

/-- A candidate goes into a list in descending order, ties to the lower index (R340). -/
def insertCand (c : Cand) : List Cand → List Cand
  | [] => [c]
  | d :: t => if (match c.x.cmp d.x with | some k => decide (0 < k) | none => false) then c :: d :: t else d :: insertCand c t

/-- The candidates in order (R340, steps 1 and 2). -/
def orderedCands (f : Nat) (xs : List Nat) : List Cand :=
  ((xs.zipIdx).filter fun p => !encIsNaN f p.1).foldl
    (fun acc p => insertCand ⟨p.2, decodeNum f p.1, .fin false 0 0⟩ acc) []

/-- Rounding to nearest even into A16. -/
def a16Round (v : Num) : Num := decodeNum 10 (roundNE 10 v).bits

/-- The weight of a candidate (R340, step 5). -/
def candWeight (invt : Num) (xm x : Num) : Num :=
  let s := a16Round ((a16Round (Num.sum [x, xm.neg])).mul invt)
  decodeNum 10 (vtrElem 0 10 (roundNE 10 s).bits).bits

/-- Whether a number is at least another. -/
def numGe (a b : Num) : Bool := match a.cmp b with | some c => decide (0 ≤ c) | none => false

/-- The shortest prefix whose weights reach a sum (R340, step 7). -/
def topPrefix (goal acc : Num) : List Cand → List Cand
  | [] => []
  | c :: t =>
    let acc := Num.sum [acc, c.w]
    if numGe acc goal then [c] else c :: topPrefix goal acc t

/-- The first candidate whose cumulative sum exceeds a bound (R340, step 8). -/
def firstOver (bound acc : Num) : List Cand → Option Nat
  | [] => none
  | c :: t =>
    let acc := Num.sum [acc, c.w]
    if numGe bound acc then firstOver bound acc t else some c.i

/-- The candidates kept after steps 4 to 7 of R340. -/
def keptCands (g : SampleDesc) (l : List Cand) : List Cand :=
  let xm := match l with | c :: _ => c.x | [] => .fin false 0 0
  let l := (if g.k = 0 then l else l.take g.k).map fun c => { c with w := candWeight (decodeNum 10 g.invt) xm c.x }
  let l := if magBits 10 g.minp = 0 then l else l.filter fun c => numGe c.w (decodeNum 10 g.minp)
  if numGe (decodeNum 10 g.topp) a16One then l
  else topPrefix ((decodeNum 10 g.topp).mul (Num.sum (l.map Cand.w))) (.fin false 0 0) l

/-- The result of a row under its 64 random bits (R340); none: no candidate. -/
def sampleRow (g : SampleDesc) (u : Nat) (xs : List Nat) : Option Nat :=
  match orderedCands g.lf xs with
  | [] => none
  | m :: t =>
    if g.greedy then some m.i
    else
      let l := keptCands g (m :: t)
      let total := Num.sum (l.map Cand.w)
      some ((firstOver ((Num.fin false u (-64)).mul total) (.fin false 0 0) l).getD m.i)

/-- The 64 random bits of row `r` (R340, step 8). -/
def State.sampleBits (s : State) (h : HallId) (r : Nat) : Nat :=
  let d (i : Nat) := (drip (s.seed h) (BitVec.ofNat 32 (identSampler h.val)) (BitVec.ofNat 32 (s.engDrip h 2)) (BitVec.ofNat 32 i)).toNat
  d (2 * r) * 2 ^ 32 + d (2 * r + 1)

/-- One row of a SAMPLE (R340). -/
def State.sampleUnit (h : HallId) (q : Fin 4) (s : State) (r : EngRun) : UnitRes :=
  let g := sampleDesc r.desc
  let a : Agent := .engine h 2
  if sampleBad r.desc then .stop s r 1 0
  else if g.n = 0 ∨ g.nvec ≤ r.unit then .fin s r
  else if s.writeStalls a (g.out + 4 * r.unit) 4 then .stall
  else match s.eread a (g.logits + r.unit * g.rstride) (g.n * 2) with
    | .stall => .stall
    | .poison s o => .stop s r 2 o
    | .ok s d =>
      let v := sampleRow g (s.sampleBits h r.unit) (wordsOf 2 g.n d)
      .go (s.agentWrite a (g.out + 4 * r.unit) (natBytes 4 (v.getD 0xFFFFFFFF)) { obs := q.val })
        { r with unit := r.unit + 1, result := r.unit + 1, status := if v.isNone then 10 else r.status }

end Sys2Proof.Machine
end

