-- ==== Sys2Proof/Machine/Squeeze.lean ====
section
/-!
DEFINITION. The squeeze format and the decompression engine (R341 to R343).
-/
namespace Sys2Proof.Machine

/-- Code `j` of a block's code bytes (R342). -/
def squeezeCode (codes : List Byte) (j : Nat) : Nat := bitsOf (codes.getD (j / 2) 0).toNat (4 * (j % 2)) 4

/-- The decoded high bytes of `n` codes from code `j`: dictionary entries and escape bytes, with the escapes left; none: a code
in D to 14, or no escape byte left (R342). -/
def squeezeHigh (dict codes : List Byte) : (n j : Nat) → List Byte → Option (List Byte × List Byte)
  | 0, _, esc => some ([], esc)
  | n + 1, j, esc =>
    let c := squeezeCode codes j
    if c < dict.length then
      (squeezeHigh dict codes n (j + 1) esc).map fun r => (dict.getD c 0 :: r.1, r.2)
    else if c = 15 then
      match esc with
      | [] => none
      | b :: t => (squeezeHigh dict codes n (j + 1) t).map fun r => (b :: r.1, r.2)
    else none

/-- The decoded high bytes of a payload of dictionary, `skip` other bytes, codes and escapes, all of it used (R342). -/
def squeezeBytes (dlen skip n : Nat) (payload : List Byte) : Option (List Byte) :=
  let dict := payload.take dlen
  let rest := payload.drop (dlen + skip)
  let codes := rest.take ((n + 1) / 2)
  if payload.length < dlen + skip + (n + 1) / 2 then none
  else match squeezeHigh dict codes n 0 (rest.drop ((n + 1) / 2)) with
    | some (l, []) => some l
    | _ => none

/-- The output of a block of `len` bytes; none: malformed (R341, R342). -/
def squeezeBlock (mode dlen len : Nat) (payload : List Byte) : Option (List Byte) :=
  match mode with
  | 0 => if dlen = 0 ∧ payload.length = len then some payload else none
  | 1 => if dlen = 0 ∧ payload.length = 0 then some (List.replicate len 0) else none
  | 2 =>
    let n := len / 2
    if dlen ≤ 15 ∧ len % 2 = 0 then
      (squeezeBytes dlen n n payload).map fun hs =>
        (((payload.drop dlen).take n).zip hs).flatMap fun p => [p.1, p.2]
    else none
  | 3 => if dlen ≤ 15 then squeezeBytes dlen 0 len payload else none
  | _ => none

/-- Errors of an EXPAND (R323, R343). -/
def State.expandBad (s : State) (h : HallId) (d : List Byte) : Bool :=
  let dst := dget d 40 8
  dget d 16 4 % 16 != 0 || dget d 24 8 != 0 || dget d 32 8 % 16 != 0 || badAddr d 32 || badAddr d 40
    || dget d 48 16 != 0
    || !(match winOf dst with
        | .gallery g _ => s.samePart h g
        | .chamber c _ => s.samePart h c.hall
        | _ => false)

/-- The end of an EXPAND: what it wrote is counted as EFMT (R343). -/
def expandEnd (s : State) (r : EngRun) : UnitRes :=
  if dTally r.desc ≠ 0 ∧ r.outPos * 8 % fmtWidth (dEfmt r.desc) ≠ 0 then .stop s r 1 0
  else
    .fin s (if dTally r.desc = 0 then r
      else r.count (dEfmt r.desc)
        ((bitElems (fmtWidth (dEfmt r.desc)) (r.outPos * 8 / fmtWidth (dEfmt r.desc)) (bytesNat r.kept)).map Elem.ofBits))

/-- The block of an EXPAND whose header and payload have been read is written (R343). The bytes written are kept for the
count. -/
def State.expandWrite (h : HallId) (q : Fin 4) (s : State) (r : EngRun) (plen : Nat) (out : List Byte) : UnitRes :=
  let a : Agent := .engine h 3
  let dst := dget r.desc 40 8 + r.outPos
  if s.writeStalls a dst out.length then .stall
  else
    .go (s.agentWrite a dst out { obs := q.val })
      { r with unit := r.unit + 1, pos := r.pos + (8 + plen + 15) / 16 * 16, outPos := r.outPos + out.length,
               result := r.result + out.length, kept := if dTally r.desc = 0 then [] else r.kept ++ out }

/-- One block of an EXPAND (R341 to R343). -/
def State.expandUnit (h : HallId) (q : Fin 4) (s : State) (r : EngRun) : UnitRes :=
  let slen := dget r.desc 16 4
  let ocap := dget r.desc 20 4
  let src := dget r.desc 32 8 + r.pos
  let a : Agent := .engine h 3
  if s.expandBad h r.desc then .stop s r 1 0
  else if slen ≤ r.pos then expandEnd s r
  else match s.eread a src 8 with
    | .stall => .stall
    | .poison s o => .stop s r 2 o
    | .ok s hd =>
      let len := dget hd 2 2 + 1
      let plen := dget hd 4 4
      if 4096 < len ∨ slen < r.pos + 8 + plen then .stop s r 8 0
      else match s.eread a (src + 8) plen with
        | .stall => .stall
        | .poison s o => .stop s r 2 (8 + o)
        | .ok s pd =>
          match squeezeBlock (dget hd 0 1) (dget hd 1 1) len pd with
          | none => .stop s r 8 0
          | some out => if ocap < r.outPos + out.length then .stop s r 8 0 else State.expandWrite h q s r plen out

end Sys2Proof.Machine
end

