-- ==== Sys2Proof/Machine/EngineOps.lean ====
section
/-!
DEFINITION. Events of the hall engines: descriptors start and complete (R321, R324), and the work of each operation (R323, R335 to
R347), as far as memories, the host and other modules let it go.
-/
namespace Sys2Proof.Machine

/-- DESCRIPTOR_START (R321). -/
def execDescriptorStart (h : HallId) (n : Fin 9) (q : Fin 4) (s : State) : Outcome := s.does fun s => s.engStart h n q

/-- DESCRIPTOR_COMPLETE (R324). -/
def execDescriptorComplete (h : HallId) (n : Fin 9) (q : Fin 4) (s : State) : Outcome := s.does fun s => s.descComplete h n q

/-- NOP (R323). -/
def execNop (h : HallId) (n : Fin 9) (q : Fin 4) (s : State) : Outcome := s.does fun s => s.engWork h n q 0 1 .fin

/-- The units of a descriptor's work by its bytes: enough for it to end. -/
def State.descBytes (s : State) (h : HallId) (n : Fin 9) (q : Fin 4) : List Byte := (s.engRun h n q).desc

/-- POOL (R335). -/
def execPool (h : HallId) (q : Fin 4) (s : State) : Outcome :=
  s.does fun s => s.engWork h 0 q 1 ((siphonDesc (s.descBytes h 0 q)).nbags + 3) (State.poolUnit h q)

/-- SCATTER (R336). -/
def execScatter (h : HallId) (q : Fin 4) (s : State) : Outcome :=
  s.does fun s => s.engWork h 0 q 2 ((siphonDesc (s.descBytes h 0 q)).nidx + 2) (State.scatterUnit h q)

/-- SORT (R338). -/
def execSort (h : HallId) (q : Fin 4) (s : State) : Outcome := s.does fun s => s.engWork h 1 q 1 (2) (State.sortUnit h q)

/-- TOPK (R338). -/
def execTopk (h : HallId) (q : Fin 4) (s : State) : Outcome := s.does fun s => s.engWork h 1 q 2 (2) (State.sortUnit h q)

/-- SAMPLE (R340). -/
def execSample (h : HallId) (q : Fin 4) (s : State) : Outcome :=
  s.does fun s => s.engWork h 2 q 1 ((sampleDesc (s.descBytes h 2 q)).nvec + 2) (State.sampleUnit h q)

/-- EXPAND (R343). -/
def execExpand (h : HallId) (q : Fin 4) (s : State) : Outcome :=
  s.does fun s => s.engWork h 3 q 1 (dget (s.descBytes h 3 q) 16 4 / 16 + 2) (State.expandUnit h q)

/-- SM4_ENCRYPT (R345). -/
def execSm4Encrypt (h : HallId) (q : Fin 4) (s : State) : Outcome :=
  s.does fun s => s.engWork h 4 q 1 ((cipherDesc (s.descBytes h 4 q)).len / 16 + 4) (State.sm4Unit h q true)

/-- SM4_DECRYPT (R345). -/
def execSm4Decrypt (h : HallId) (q : Fin 4) (s : State) : Outcome :=
  s.does fun s => s.engWork h 4 q 2 ((cipherDesc (s.descBytes h 4 q)).len / 16 + 4) (State.sm4Unit h q false)

/-- SM3 (R345). -/
def execSm3 (h : HallId) (q : Fin 4) (s : State) : Outcome :=
  s.does fun s => s.engWork h 4 q 3 ((cipherDesc (s.descBytes h 4 q)).len / 64 + 2) (State.sm3Unit h q)

/-- COPY (R347): `host` is what the host has answered so far. -/
def execCopy (h : HallId) (d : Fin 4) (q : Fin 4) (host : List Byte) (s : State) : Outcome :=
  s.does fun s => s.dmaWork h d q 1 host none

/-- FILL (R347). -/
def execFill (h : HallId) (d : Fin 4) (q : Fin 4) (s : State) : Outcome := s.does fun s => s.dmaWork h d q 2 [] none

/-- SCRUB (R347): `bad` is the line whose read-back differs. -/
def execScrub (h : HallId) (d : Fin 4) (q : Fin 4) (bad : Option Nat) (s : State) : Outcome :=
  s.does fun s => s.dmaWork h d q 3 [] bad

/-- HOST_READ_FAIL (R400). -/
def execHostReadFail (h : HallId) (d : Fin 4) (q : Fin 4) (s : State) : Outcome := s.does fun s => s.hostReadFail h d q

end Sys2Proof.Machine
end

