-- ==== Sys2Proof/Machine/KeeperOps.lean ====
section
/-!
DEFINITION. Events of the keeper: the progress counter (R441), cairns and restores (R446 to R451), hard faults, self-tests and
readmission (R453 to R457), scrubs, function-level resets and ends of tenancy (R401, R402, R419, R428), keeper updates (R432, R433).
-/
namespace Sys2Proof.Machine

/-! ### The progress counter -/

/-- The progress counter fires when it has reached its limit, once until the next mark (R441). -/
def State.progressFire (s : State) (h : HallId) : State :=
  let p := hallPage h 0x84
  let limit := fieldOf (s.applWord p 0x190) 0 16 * 65536
  if limit = 0 ∨ (s.liveWord p 0x8B0).toNat < limit ∨ (s.hall h).progFired = true then s
  else
    let s := s.modHall h fun v => { v with progFired := true }
    let s := (((s.recordErr p 0).countSat p 0x8B8 1).keeperNotice h 2).raiseMsix 0 3
    if wbit (s.applWord p 0x190) 16 && (s.hall h).task.isNone then
      (s.modHall h fun v => { v with task := some .restore }).stopPart h
    else s

/-- PROGRESS_FIRE (R441). -/
def execProgressFire (h : HallId) (s : State) : Outcome := s.does fun s => s.progressFire h

/-! ### Cairns and restores -/

/-- CAIRN_PAGE_COPIED (R356). -/
def execCairnPageCopied (h : HallId) (s : State) : Outcome := s.does fun s => s.copyPage h

/-- CAIRN_COMPLETE (R446). -/
def execCairnComplete (h : HallId) (s : State) : Outcome := s.does fun s => s.cairnComplete h

/-- A cairn fails for a reason that holds (R448): a slot write fails whenever the slot's memory says so; a source page reads poison;
the hall is stopped. -/
def State.cairnFails (s : State) (h : HallId) : CairnWhy → State
  | .slotWrite => s.cairnFail h 1
  | .poison =>
    match s.nextPage h with
    | some p => if (s.memRead (snapAgent h) (p.addr h) p.len).poison then s.cairnFail h 2 else s
    | none => s
  | .stopped => if s.stopped h || s.hallState h == 3 then s.cairnFail h 3 else s

/-- CAIRN_FAIL (R448). -/
def execCairnFail (h : HallId) (why : CairnWhy) (s : State) : Outcome := s.does fun s => s.cairnFails h why

/-- RESTORE_COMPLETE (R451). -/
def execRestoreComplete (h : HallId) (remote : Option (List Byte)) (s : State) : Outcome :=
  s.does fun s => s.restoreImage h remote

/-! ### Repair -/

/-- The cause code of a core hard fault (R455). -/
def hardCode : HardFault → Nat
  | .coreReset => 1
  | .internalCheck => 3

/-- CORE_HARD_FAULT (R453). -/
def execCoreHardFault (h : HallId) (p : Position) (cause : HardFault) (s : State) : Outcome :=
  s.does fun s => s.hardFault h p (hardCode cause)

/-- SELF_TEST_END (R456). -/
def execSelfTestEnd (h : HallId) (failed : List Position) (s : State) : Outcome := s.does fun s => s.selfTestEnd h failed

/-- READMIT_COMPLETE (R457). -/
def execReadmitComplete (h : HallId) (pass : Bool) (s : State) : Outcome := s.does fun s => s.readmitEnd h pass

/-- BRIDGE_FAILURE (R20): MOD_FAULT_N is asserted, whichever bridge it is. -/
def execBridgeFailure (_b : Fin 126) (s : State) : Outcome := .next (if s.pwrGood then { s with bridgeFail := true } else s)

/-! ### Scrubs, resets of functions and ends of tenancy -/

/-- HALL_SCRUB_END (R428). -/
def execHallScrubEnd (h : HallId) (bad : Bool) (s : State) : Outcome := s.does fun s => s.scrubEnd h bad

/-- The scrub of a hall has not completed within a second: time passes to that moment (R428). -/
def State.scrubLate (s : State) (h : HallId) : State :=
  match (s.hall h).scrub with
  | some r => if r.waits then s else (s.passTo (r.start + scrubTicks)).scrubEnd h true
  | none => s

/-- SCRUB_TIMEOUT (R428). -/
def execScrubTimeout (h : HallId) (s : State) : Outcome := s.does fun s => s.scrubLate h

/-- VF_FLR (R401). -/
def execVfFlr (h : HallId) (s : State) : Outcome := s.does fun s => if s.linkUp then s.flrBegin h else s

/-- PF0_FLR (R402). -/
def execPf0Flr (s : State) : Outcome := s.does fun s => if s.linkUp then s.pf0FlrBegin else s

/-- END_OF_TENANCY (R419). -/
def execEndOfTenancy (e : TdiEnd) (s : State) : Outcome :=
  s.does fun s => match e with
    | .tdi h => s.endTenancy h
    | .stream h => s.streamFails h

/-! ### Keeper update -/

/-- Whether the keeper or, in ROM recovery, the ROM serves updates (R409, R432). -/
def State.updServed (s : State) : Bool := s.vin && !s.tripped && !s.refLost && !s.scanHold

/-- An event of an update, and what follows of itself. -/
def State.updDoes (s : State) (f : State → State) : Outcome := .next (if s.updServed then (f s).settle else s)

/-- A write of an update register: the keeper's stands for a PLDM transfer, which ROM recovery serves too (R409; assumption log
27). -/
def State.updWrites (s : State) (a : Agent) (off : Nat) (v : Word) : Outcome :=
  if a = .keeper then s.updDoes fun s => s.ctlWriteWord a (0xB * 4096 + off) v else s.writes a 0xB off v

/-- UPD_BEGIN (R432). -/
def execUpdBegin (a : Agent) (s : State) : Outcome := s.updWrites a 0x800 1

/-- UPD_DATA (R432). -/
def execUpdData (a : Agent) (v : Word) (s : State) : Outcome := s.updWrites a 0x804 v

/-- UPD_VERIFY (R432). -/
def execUpdVerify (a : Agent) (s : State) : Outcome := s.updWrites a 0x800 2

/-- UPD_ACTIVATE (R433). -/
def execUpdActivate (a : Agent) (s : State) : Outcome := s.updWrites a 0x800 4

/-- UPD_ABORT (R432). -/
def execUpdAbort (a : Agent) (s : State) : Outcome := s.updWrites a 0x800 8

/-- UPD_ERASE_COMPLETE (R432). -/
def execUpdEraseComplete (s : State) : Outcome := s.updDoes fun s => s.updErased

/-- UPD_VERIFY_COMPLETE (R432). -/
def execUpdVerifyComplete (s : State) : Outcome := s.updDoes fun s => s.updVerified

/-- HANDOVER_COMPLETE (R433): the incoming keeper is ready, in time or too late. -/
def execHandoverComplete (s : State) : Outcome :=
  s.does fun s => if s.rootTick ≤ s.updAt + readyTicks then s.handoverEnd else s.handoverLate

/-- HANDOVER_TIMEOUT (R433): time passes to the moment. -/
def execHandoverTimeout (s : State) : Outcome :=
  s.does fun s => if s.updState = 5 then (s.passTo (s.updAt + readyTicks)).handoverLate else s

end Sys2Proof.Machine
end

