-- ==== Sys2Proof/Machine/MemOps.lean ====
section
/-!
DEFINITION. Events of memories and links: banks (R246), near memory (R353 to R356), CXL (R360 to R364), Yarlink ports and flits (R369
to R375), packets and remote requests (R379 to R381, R449).
-/
namespace Sys2Proof.Machine

/-! ### Memories -/

/-- BANK_ACCESS (R246). -/
def execBankAccess (b : Bank) (arrivals : List BankReq) (det : CheckBits) (s : State) : Outcome :=
  s.does fun s => s.bankCycle b arrivals det

/-- REQUEST_PROMOTE (R246). -/
def execRequestPromote (b : Bank) (i : Nat) (s : State) : Outcome := s.does fun s => s.promote b i

/-- NEAR_MEMORY_ACCESS (R356). -/
def execNearMemoryAccess (r : BurstReq) (det : BurstCheck) (s : State) : Outcome := s.does fun s => s.nearAccess ⟨r, det⟩

/-- PATROL_READ (R353). -/
def execPatrolRead (h : HallId) (burst : Nat) (det : BurstCheck) (s : State) : Outcome :=
  s.does fun s => s.patrol h burst det

/-- INTERFACE_RETRAIN (R355). -/
def execInterfaceRetrain (h : HallId) (i : Fin 4) (crc : Bool) (ok : Bool) (s : State) : Outcome :=
  s.does fun s => s.retrainIf h i crc ok

/-- CXL_ACCESS (R363). -/
def execCxlAccess (r : BurstReq) (reply : CxlReply) (s : State) : Outcome :=
  s.does fun s => s.cxlAccess r reply

/-- CXL_REQUEST_TIMEOUT (R364). -/
def execCxlRequestTimeout (p : Fin 2) (l : Fin 4) (s : State) : Outcome := s.does fun s => s.linkTimeout p l

/-- CXL_LINK_DOWN (R364). -/
def execCxlLinkDown (p : Fin 2) (l : Fin 4) (s : State) : Outcome := s.does fun s => s.linkFail p l 1

/-- CXL_LINK_TRAINED (R360). -/
def execCxlLinkTrained (p : Fin 2) (l : Fin 4) (width : Nat) (rate : Fin 3) (cap : BitVec 16) (s : State) : Outcome :=
  s.does fun s => s.linkTrained p l width rate cap

/-! ### Yarlink and packets -/

/-- YARLINK_PORT_UP (R369). -/
def execYarlinkPortUp (p : PortId) (peer : Option (BitVec 18)) (proven : Bool) (lanes : BitVec 8) (s : State) : Outcome :=
  s.does fun s => s.portUpEnd p peer proven lanes

/-- PORT_FAIL (R375). -/
def execPortFail (p : PortId) (s : State) : Outcome := s.does fun s => s.portFail p

/-- FLIT_RECEIVE (R372). -/
def execFlitReceive (p : PortId) (f : RxFlit) (s : State) : Outcome := s.does fun s => s.flitArrive p f

/-- FLIT_REPLAY (R372). -/
def execFlitReplay (p : PortId) (s : State) : Outcome := s.does fun s => if s.retraining p then s else s.replay p

/-- LANE_FAIL (R373). -/
def execLaneFail (p : PortId) (l : Fin 8) (s : State) : Outcome := s.does fun s => s.laneFail p l

/-- YARLINK_RETRAIN (R374): a retrain that a write of CTL has begun ends. -/
def execYarlinkRetrain (p : PortId) (lanes : BitVec 8) (s : State) : Outcome := s.does fun s => s.retrainEnd p lanes

/-- KEY_ROLLOVER (R371). -/
def execKeyRollover (k : KeyRoll) (s : State) : Outcome := s.does fun s => s.keyRollover k.port k.txAt k.rxAt

/-- PACKET_ROUTE (R379). -/
def execPacketRoute (inp : Option PortId) (s : State) : Outcome := s.does fun s => s.packetRoute inp

/-- REMOTE_WRITE (R381). -/
def execRemoteWrite (inp : Option PortId) (p : Packet) (s : State) : Outcome := s.does fun s => s.remoteWrite inp p

/-- REMOTE_READ_REQUEST (R381). -/
def execRemoteReadRequest (inp : Option PortId) (p : Packet) (s : State) : Outcome := s.does fun s => s.remoteRead inp p

/-- SNAPSHOT_COPY (R449). -/
def execSnapshotCopy (inp : Option PortId) (p : Packet) (s : State) : Outcome := s.does fun s => s.remoteWrite inp p

/-- READ_REPLY (R381). -/
def execReadReply (who : Requester) (p : Packet) (s : State) : Outcome := s.does fun s => s.readReply who p

/-- WRITE_ACKNOWLEDGEMENT (R381). -/
def execWriteAcknowledgement (who : Requester) (p : Packet) (s : State) : Outcome := s.does fun s => s.writeAck who p

/-- REMOTE_REQUEST_TIMEOUT (R381). -/
def execRemoteRequestTimeout (who : Requester) (tag : BitVec 12) (s : State) : Outcome :=
  s.does fun s => s.requestTimeout who tag

end Sys2Proof.Machine
end

