-- ==== Sys2Proof/Machine/HostOps.lean ====
section
/-!
DEFINITION. Events at the module's edges: the host (R386 to R402), the SPDM responder (R416 to R420), power control (R464 to R473),
power, reference and reset (R471, R482 to R487), the test access port (R501) and the management endpoint (R498 to R500).
-/
namespace Sys2Proof.Machine

/-! ### The host -/

/-- BAR2_ACCESS (R390). -/
def execBar2Access (r : HostReq) (s : State) : Outcome := s.does fun s => s.bar2 r

/-- HOST_BAR0_ACCESS (R389). -/
def execHostBar0Access (w : BarWin) (r : HostReq) (s : State) : Outcome := s.does fun s => s.bar0 w r

/-- PCIE_RESET (R402). The level of PERST_N is the pin's, also while the module does not run (R482). -/
def execPcieReset (k : PcieReset) (s : State) : Outcome :=
  if s.running then s.does fun s => s.pcieReset k else .next (if k = .perst then { s with perst := true } else s)

/-- PCIE_LINK_UP (R402). -/
def execPcieLinkUp (u : LinkUp) (s : State) : Outcome := s.does fun s => s.pcieUp u

/-- PCIE_LINK_NOT_BROUGHT_UP (R386). -/
def execPcieLinkNotBroughtUp (s : State) : Outcome := s.does fun s => s.pcieNotUp

/-- PERST_N_DEASSERT (R402). -/
def execPerstNDeassert (s : State) : Outcome :=
  if s.running then s.does fun s => s.perstDeassert else .next { s with perst := false }

/-- CONFIGURATION_REQUEST (R402). -/
def execConfigurationRequest (fn : Option HallId) (r : CfgReq) (s : State) : Outcome := s.does fun s => s.config fn r

/-! ### The SPDM responder -/

/-- SPDM_NEGOTIATE_ALGORITHMS (R416). -/
def execSpdmNegotiateAlgorithms (g : SpdmAlgs) (s : State) : Outcome := s.does fun s => s.spdm fun s => s.negotiate g

/-- SPDM_GET_CERTIFICATE (R417). -/
def execSpdmGetCertificate (slot : Fin 8) (s : State) : Outcome := s.does fun s => s.spdm fun s => s.certificate slot

/-- SPDM_CHALLENGE (R417). -/
def execSpdmChallenge (slot : Fin 8) (nonce : List Byte) (s : State) : Outcome :=
  s.does fun s => s.spdm fun s => s.challenge slot nonce

/-- SPDM_GET_MEASUREMENTS (R418). -/
def execSpdmGetMeasurements (idx : List (BitVec 8)) (nonce : List Byte) (s : State) : Outcome :=
  s.does fun s => s.spdm fun s => s.measurements idx nonce

/-- SPDM_KEY_EXCHANGE (R416). -/
def execSpdmKeyExchange (share : List Byte) (s : State) : Outcome := s.does fun s => s.spdm fun s => s.keyExchange share

/-- IDE_KM (R420). -/
def execIdeKm (session : Nat) (m : IdeKm) (s : State) : Outcome :=
  s.does fun s => s.spdm fun s => s.keyStream session m

/-- LOCK_INTERFACE_REQUEST (R420). -/
def execLockInterfaceRequest (h : HallId) (session : Option Nat) (stream : Fin 8) (s : State) : Outcome :=
  s.does fun s => s.spdm fun s => s.lockHall h session stream

/-- START_INTERFACE_REQUEST (R419). -/
def execStartInterfaceRequest (h : HallId) (s : State) : Outcome := s.does fun s => s.spdm fun s => s.startTdi h

/-- STOP_INTERFACE_REQUEST (R419). -/
def execStopInterfaceRequest (h : HallId) (s : State) : Outcome := s.does fun s => s.spdm fun s => s.stopTdi h

/-! ### Power control -/

/-- INTERVAL_END (R467): time passes to the end of the interval. -/
def execIntervalEnd (m : Telemetry) (s : State) : Outcome := s.does fun s => (s.passTo s.nextInterval).intervalEnd m

/-- CEILING_RISE (R466): time passes to the moment at which the ceiling may rise. -/
def execCeilingRise (r : Fin 5) (s : State) : Outcome :=
  s.does fun s => if s.mayRise r.val then (s.passTo (s.riseDue r.val)).ceilingRise r else s

/-- POWER_STATE_CHANGE (R465). -/
def execPowerStateChange (s : State) : Outcome := s.does fun s => s.powerChange

/-- CURRENT_ALERT (R470). -/
def execCurrentAlert (s : State) : Outcome := s.does fun s => s.alertOn

/-- CURRENT_ALERT_CLEAR (R470). -/
def execCurrentAlertClear (s : State) : Outcome := s.does fun s => s.alertOff

/-- SYS_THROT_ASSERT (R472). -/
def execSysThrotAssert (s : State) : Outcome := s.does fun s => s.throtOn

/-- SYS_THROT_DEASSERT (R472). -/
def execSysThrotDeassert (s : State) : Outcome := s.does fun s => s.throtOff

/-- DROOP_STRETCH (R473). -/
def execDroopStretch (h : HallId) (n : Nat) (s : State) : Outcome := s.does fun s => s.droop h n

/-! ### Power, reference and reset -/

/-- THERMAL_TRIP (R471). -/
def execThermalTrip (s : State) : Outcome := .next (s.trip)

/-- REFERENCE_LOSS (R484). -/
def execReferenceLoss (s : State) : Outcome := .next (s.loseRef)

/-- REFERENCE_RESTORED (R484). -/
def execReferenceRestored (s : State) : Outcome := .next (s.regainRef)

/-- POWER_ON (R482). -/
def execPowerOn (failed : List (HallId × Fin 4)) (s : State) : Outcome := .next (s.powerOn failed)

/-- POWER_OFF (R487). -/
def execPowerOff (s : State) : Outcome := .next (s.powerOff)

/-! ### The test access port -/

/-- BYPASS (R501). -/
def execBypass (s : State) : Outcome := .next (s.tapLoad .bypass)

/-- IDCODE (R501). -/
def execIdcode (s : State) : Outcome := .next (s.tapIdcode)

/-- SAMPLE_PRELOAD (R501). -/
def execSamplePreload (pins load : List Bool) (s : State) : Outcome := .next (s.tapSample pins load)

/-- EXTEST (R501). -/
def execExtest (s : State) : Outcome := .next (s.tapHold .extest)

/-- CLAMP (R501). -/
def execClamp (s : State) : Outcome := .next (s.tapHold .clamp)

/-- HIGHZ (R501). -/
def execHighz (s : State) : Outcome := .next (s.tapHold .highz)

/-- TEST_LOGIC_RESET (R501). -/
def execTestLogicReset (s : State) : Outcome := .next (s.tapReset)

/-! ### The management endpoint -/

/-- PLDM_GET_SENSOR_READING (R499). -/
def execPldmGetSensorReading (id : BitVec 16) (s : State) : Outcome := s.updDoes fun s => s.sensorReading id.toNat

/-- PLDM_REQUEST_UPDATE (R500). -/
def execPldmRequestUpdate (s : State) : Outcome := s.updDoes fun s => s.pldmRequest

/-- PLDM_ACTIVATE_FIRMWARE (R500). -/
def execPldmActivateFirmware (s : State) : Outcome := s.updDoes fun s => s.pldmActivate

end Sys2Proof.Machine
end

