-- ==== Sys2Proof/Machine/Scalar.lean ====
section
/-!
DEFINITION. Scalar arithmetic: OP, the immediate forms, SHI, LUI and FOP (R187 to R189).
-/
namespace Sys2Proof.Machine

/-- The result of OP (R187). -/
def opResult (func : BitVec 10) (a b : Word) : Word :=
  match func.toNat with
  | 0x00 => a + b
  | 0x01 => a - b
  | 0x02 => a &&& b
  | 0x03 => a ||| b
  | 0x04 => a ^^^ b
  | 0x05 => if 32 ≤ b.toNat then 0 else a <<< b.toNat
  | 0x06 => if 32 ≤ b.toNat then 0 else a >>> b.toNat
  | 0x07 => a.sshiftRight (min b.toNat 32)
  | 0x08 => w32 (b2n (a.slt b))
  | 0x09 => w32 (b2n (a.ult b))
  | 0x0A => if a.slt b then a else b
  | 0x0B => if a.slt b then b else a
  | 0x0C => if a.ult b then a else b
  | 0x0D => if a.ult b then b else a
  | 0x0E => a * b
  | 0x0F => BitVec.ofInt 32 (a.toInt * b.toInt / (2 ^ 32 : Int))
  | 0x10 => w32 (a.toNat * b.toNat / 2 ^ 32)
  | 0x11 => if b = 0 then 0xFFFFFFFF else BitVec.ofInt 32 (a.toInt.tdiv b.toInt)
  | 0x12 => if b = 0 then 0xFFFFFFFF else a / b
  | 0x13 => if b = 0 then a else BitVec.ofInt 32 (a.toInt.tmod b.toInt)
  | 0x14 => if b = 0 then a else a % b
  | 0x15 => (a.setWidth 8).signExtend 32
  | 0x16 => (a.setWidth 16).signExtend 32
  | 0x17 => (a.setWidth 8).setWidth 32
  | _ => (a.setWidth 16).setWidth 32

/-- The result of SHI (R188). -/
def shiResult (kind : BitVec 2) (a : Word) (n : Nat) : Word :=
  match kind.toNat with
  | 0 => a <<< n
  | 1 => a >>> n
  | _ => a.sshiftRight n

/-- A comparison of FOP (R189): 0 with a NaN. -/
def fopTest (p : Int → Bool) (a b : Num) : Nat :=
  match a.cmp b with
  | some c => b2n (p c)
  | none => 0

/-- A float as a signed 32-bit integer, rounded to nearest even and clamped; a NaN gives 0 (R189). -/
def floatToInt32 : Num → Word
  | .nan => 0
  | .fin neg m e =>
    let v := roundIntNE neg m e
    BitVec.ofInt 32 (max (-(2 ^ 31 : Int)) (min (2 ^ 31 - 1) v))

/-- The result of FOP (R189): FMT 9 for BF16, 10 for A16. -/
def fopResult (func : BitVec 10) (a b : Word) : Word :=
  let f := if func.getLsbD 5 then 10 else 9
  let x := decodeNum f (a.toNat % 2 ^ 16)
  let y := decodeNum f (b.toNat % 2 ^ 16)
  let round (n : Num) : Word := w32 (roundNE f n).bits
  match func.toNat % 32 with
  | 0 => round (Num.sum [x, y])
  | 1 => round (Num.sum [x, y.neg])
  | 2 => round (x.mul y)
  | 3 => round (minNum x y)
  | 4 => round (maxNum x y)
  | 5 => round x.neg
  | 6 => round x.abs
  | 7 => w32 (roundNE (19 - f) x).bits
  | 8 => floatToInt32 x
  | 9 => w32 (roundNE f (.fin (decide (a.toInt < 0)) a.toInt.natAbs 0)).bits
  | 10 => w32 (fopTest (fun c => c = 0) x y)
  | 11 => w32 (fopTest (fun c => c < 0) x y)
  | _ => w32 (fopTest (fun c => c ≤ 0) x y)

/-- An instruction whose whole effect is a result in a scalar register. -/
def State.compute (s : State) (x : Site) (i : Instr) (rd : BitVec 5) (v : State → Word) : Outcome :=
  s.run x i fun s => .done (s.setReg x rd (v s))

/-- OP (R187). -/
def execOp (x : Site) (f : FmtR) (s : State) : Outcome :=
  s.compute x (.op x f) f.rd fun s => opResult f.func (s.reg x f.ra) (s.reg x f.rb)

/-- ADDI (R188). -/
def execAddi (x : Site) (f : FmtI) (s : State) : Outcome :=
  s.compute x (.addi x f) f.rd fun s => s.reg x f.ra + immS f.imm

/-- ANDI (R188). -/
def execAndi (x : Site) (f : FmtI) (s : State) : Outcome :=
  s.compute x (.andi x f) f.rd fun s => s.reg x f.ra &&& immZ f.imm

/-- ORI (R188). -/
def execOri (x : Site) (f : FmtI) (s : State) : Outcome :=
  s.compute x (.ori x f) f.rd fun s => s.reg x f.ra ||| immZ f.imm

/-- XORI (R188). -/
def execXori (x : Site) (f : FmtI) (s : State) : Outcome :=
  s.compute x (.xori x f) f.rd fun s => s.reg x f.ra ^^^ immZ f.imm

/-- SLTI (R188). -/
def execSlti (x : Site) (f : FmtI) (s : State) : Outcome :=
  s.compute x (.slti x f) f.rd fun s => w32 (b2n ((s.reg x f.ra).slt (immS f.imm)))

/-- SLTIU (R188). -/
def execSltiu (x : Site) (f : FmtI) (s : State) : Outcome :=
  s.compute x (.sltiu x f) f.rd fun s => w32 (b2n ((s.reg x f.ra).ult (immS f.imm)))

/-- SHI (R188). -/
def execShi (x : Site) (f : FmtS) (s : State) : Outcome :=
  s.compute x (.shi x f) f.rd fun s => shiResult f.kind (s.reg x f.ra) f.sh.toNat

/-- LUI (R188). -/
def execLui (x : Site) (f : FmtU) (s : State) : Outcome :=
  s.compute x (.lui x f) f.rd fun _ => f.imm.setWidth 32 <<< 12

/-- FOP (R189). -/
def execFop (x : Site) (f : FmtR) (s : State) : Outcome :=
  s.compute x (.fop x f) f.rd fun s => fopResult f.func (s.reg x f.ra) (s.reg x f.rb)

end Sys2Proof.Machine
end

