-- ==== Sys2Proof/Machine/System.lean ====
section
/-!
DEFINITION. SYS functions that reach no memory (R200): common registers, events, parking, priority, the cycle counter and timer,
tallies, the return stack's registers, the fault record, BRK; and FENCE and PUBLISH (R262 to R264).
-/
namespace Sys2Proof.Machine

/-- A common register of a core (R163). -/
def Core.com (k : Core) (n : Nat) : Word := SMap.get k.common n 0

/-- The state with a common register of a core replaced. -/
def State.setCom (s : State) (c : CoreId) (n : Nat) (v : Word) : State :=
  s.modCore c fun k => { k with common := SMap.set k.common n 0 v }

/-- CRD (R163). -/
def execCrd (x : Site) (f : FmtX) (s : State) : Outcome :=
  s.run x (.crd x f) fun s => .done (s.setReg x f.rd ((s.core x.core).com f.n.toNat))

/-- CWR (R163). -/
def execCwr (x : Site) (f : FmtX) (s : State) : Outcome :=
  s.run x (.cwr x f) fun s => .done (s.setCom x.core f.n.toNat (s.reg x f.ra))

/-- CSWAP (R163). -/
def execCswap (x : Site) (f : FmtX) (s : State) : Outcome :=
  s.run x (.cswap x f) fun s =>
    .done ((s.setCom x.core f.n.toNat (s.reg x f.ra)).setReg x f.rd ((s.core x.core).com f.n.toNat))

/-- CADD (R163). -/
def execCadd (x : Site) (f : FmtX) (s : State) : Outcome :=
  s.run x (.cadd x f) fun s =>
    let old := (s.core x.core).com f.n.toNat
    .done ((s.setCom x.core f.n.toNat (old + s.reg x f.ra)).setReg x f.rd old)

/-- SIGNAL (R164). -/
def execSignal (x : Site) (f : FmtX) (s : State) : Outcome :=
  s.run x (.signal x f) fun s =>
    let m := s.reg x f.ra
    .done (s.modThread ⟨x.core, Fin.ofNat 4 f.n.toNat⟩ fun t => { t with ev := t.ev ||| m })

/-- The completion of WAIT with mask `m` (R165). -/
def State.takeEvents (s : State) (x : Site) (rd : BitVec 5) (m : Word) : State :=
  let ev := (s.thread x).ev
  s.modThread x fun t => { t with ev := t.ev &&& ~~~ m }.setReg rd (ev &&& m)

/-- WAIT.ANY (R165). -/
def execWaitAny (x : Site) (f : FmtX) (s : State) : Outcome :=
  s.run x (.waitAny x f) fun s =>
    let m := s.reg x f.ra
    if m ≠ 0 ∧ (s.thread x).ev &&& m = 0 then .wait (.any m) else .done (s.takeEvents x f.rd m)

/-- WAIT.ALL (R165). -/
def execWaitAll (x : Site) (f : FmtX) (s : State) : Outcome :=
  s.run x (.waitAll x f) fun s =>
    let m := s.reg x f.ra
    if (s.thread x).ev &&& m = m then .done (s.takeEvents x f.rd m) else .wait (.all m)

/-- PARK (R152). -/
def execPark (x : Site) (f : FmtX) (s : State) : Outcome :=
  s.run x (.park x f) fun s => .done (s.modThread x fun t => { t with run := .parked })

/-- SETPRI (R162). -/
def execSetpri (x : Site) (f : FmtX) (s : State) : Outcome :=
  s.run x (.setpri x f) fun s => .done (s.modThread x fun t => { t with prio := f.n.setWidth 2 })

/-- RDCYC (R200). -/
def execRdcyc (x : Site) (f : FmtX) (s : State) : Outcome :=
  s.run x (.rdcyc x f) fun s =>
    let n := s.cycleOf x.core
    .done ((s.modThread x fun t => { t with cycLatch := w32 (n / 2 ^ 32) }).setReg x f.rd (w32 n))

/-- RDCYCH (R200). -/
def execRdcych (x : Site) (f : FmtX) (s : State) : Outcome :=
  s.run x (.rdcych x f) fun s => .done (s.setReg x f.rd (s.thread x).cycLatch)

/-- SETTMR (R180, R200). -/
def execSettmr (x : Site) (f : FmtX) (s : State) : Outcome :=
  s.run x (.settmr x f) fun s =>
    let v : BitVec 64 := s.reg x f.n ++ s.reg x f.ra
    .done (s.modThread x fun t => { t with tmrcmp := v })

/-- A counter of a core's tally slot by its place in the slot; slot 0 reads 0 (R80). -/
def State.tallyRead (s : State) (c : CoreId) (slot place : Nat) : Word :=
  if slot = 0 then 0 else s.liveWord (corePage c 2) (0x800 + 16 * slot + place)

/-- TRD.ZERO (R80). -/
def execTrdZero (x : Site) (f : FmtX) (s : State) : Outcome :=
  s.run x (.trdZero x f) fun s => .done (s.setReg x f.rd (s.tallyRead x.core f.n.toNat 0))

/-- TRD.SAT (R80). -/
def execTrdSat (x : Site) (f : FmtX) (s : State) : Outcome :=
  s.run x (.trdSat x f) fun s => .done (s.setReg x f.rd (s.tallyRead x.core f.n.toNat 4))

/-- TRD.NAN (R80). -/
def execTrdNan (x : Site) (f : FmtX) (s : State) : Outcome :=
  s.run x (.trdNan x f) fun s => .done (s.setReg x f.rd (s.tallyRead x.core f.n.toNat 8))

/-- TCLR (R81). -/
def execTclr (x : Site) (f : FmtX) (s : State) : Outcome :=
  s.run x (.tclr x f) fun s => .done (s.tallyClear (.core x.core) f.n.toNat)

/-- What RSRD reads (R199). -/
def Thread.rsWord (t : Thread) (n : Nat) : Word :=
  if n < 16 then (SMap.get t.rsEntry n 0).setWidth 32
  else w32 (t.rsTop.toNat + t.rsDepth * 2 ^ 4 + b2n t.rsWrap * 2 ^ 16)

/-- RSRD (R199). -/
def execRsrd (x : Site) (f : FmtX) (s : State) : Outcome :=
  s.run x (.rsrd x f) fun s => .done (s.setReg x f.rd ((s.thread x).rsWord f.n.toNat))

/-- RSWR (R199): a control word that is a reserved value traps. -/
def execRswr (x : Site) (f : FmtX) (s : State) : Outcome :=
  s.run x (.rswr x f) fun s =>
    let v := s.reg x f.ra
    if f.n.toNat < 16 then
      .done (s.modThread x fun t => { t with rsEntry := SMap.set t.rsEntry f.n.toNat 0 (v.setWidth 16) })
    else if 16 < fieldOf v 4 5 ∨ fieldOf v 9 7 ≠ 0 ∨ fieldOf v 17 15 ≠ 0 then .fault s (emulTrap 2)
    else
      .done (s.modThread x fun t =>
        { t with rsTop := v.setWidth 4, rsDepth := fieldOf v 4 5, rsWrap := wbit v 16 })

/-- RDVER (R210). -/
def execRdver (x : Site) (f : FmtX) (s : State) : Outcome :=
  s.run x (.rdver x f) fun s => .done (s.setReg x f.rd (s.liveWord (corePage x.core 0) 0x9B0))

/-- RDFLT (R209). -/
def execRdflt (x : Site) (f : FmtX) (s : State) : Outcome :=
  s.run x (.rdflt x f) fun s =>
    .done (s.setReg x f.rd (s.liveWord (corePage x.core 0) (0x9C0 + 16 * x.thread.val + 4 * f.n.toNat)))

/-- BRK (R200, R209). -/
def execBrk (x : Site) (f : FmtX) (s : State) : Outcome :=
  s.run x (.brk x f) fun s => .fault s ⟨12, 10, 0, 0, false, false, 0, 0⟩

/-- A fence of a core: at most four are outstanding, and a fifth waits (R263); a fence that is met at once leaves none. -/
def State.putFence (s : State) (x : Site) (src dst : BitVec 4) (publish : Bool) : Res :=
  let k := s.core x.core
  if 4 ≤ k.fences.length then .held
  else .done ((s.setCore x.core { k with fences := k.fences ++ [⟨k.issueSeq, src, dst, publish⟩] }).dropMet x.core)

/-- FENCE (R202, R262). -/
def execFence (x : Site) (f : FmtF) (s : State) : Outcome :=
  s.run x (.fence x f) fun s => if f.src = 0 ∨ f.dst = 0 then .done s else s.putFence x f.src f.dst false

/-- PUBLISH (R202, R264). -/
def execPublish (x : Site) (f : FmtF) (s : State) : Outcome :=
  s.run x (.publish x f) fun s => if f.src = 0 then .done s else s.putFence x f.src 0 true

end Sys2Proof.Machine
end

