-- ==== Sys2Proof/Machine/Dispatch.lean ====
section
/-!
DEFINITION. Which definition gives each command its meaning: one arm per constructor of `Instr`.
-/
namespace Sys2Proof.Machine

/-- The effect of a command on everything but the queue of waiting commands. -/
def exec (i : Instr) (s : State) : Host.Outcome State Fault Refusal :=
  match i with
  | .op x f => Sys2Proof.Machine.execOp x f s
  | .addi x f => Sys2Proof.Machine.execAddi x f s
  | .andi x f => Sys2Proof.Machine.execAndi x f s
  | .ori x f => Sys2Proof.Machine.execOri x f s
  | .xori x f => Sys2Proof.Machine.execXori x f s
  | .slti x f => Sys2Proof.Machine.execSlti x f s
  | .sltiu x f => Sys2Proof.Machine.execSltiu x f s
  | .shi x f => Sys2Proof.Machine.execShi x f s
  | .lui x f => Sys2Proof.Machine.execLui x f s
  | .fop x f => Sys2Proof.Machine.execFop x f s
  | .ld x f => Sys2Proof.Machine.execLd x f s
  | .loadDataArrive x k => Sys2Proof.Machine.execLoadDataArrive x k s
  | .st x f => Sys2Proof.Machine.execSt x f s
  | .br x f => Sys2Proof.Machine.execBr x f s
  | .jmp x f => Sys2Proof.Machine.execJmp x f s
  | .call x f => Sys2Proof.Machine.execCall x f s
  | .jmpr x f => Sys2Proof.Machine.execJmpr x f s
  | .callr x f => Sys2Proof.Machine.execCallr x f s
  | .ret x f => Sys2Proof.Machine.execRet x f s
  | .xret x f => Sys2Proof.Machine.execXret x f s
  | .retg x f => Sys2Proof.Machine.execRetg x f s
  | .gate x f => Sys2Proof.Machine.execGate x f s
  | .rep x f => Sys2Proof.Machine.execRep x f s
  | .repL x f => Sys2Proof.Machine.execRepL x f s
  | .crd x f => Sys2Proof.Machine.execCrd x f s
  | .cwr x f => Sys2Proof.Machine.execCwr x f s
  | .cswap x f => Sys2Proof.Machine.execCswap x f s
  | .cadd x f => Sys2Proof.Machine.execCadd x f s
  | .signal x f => Sys2Proof.Machine.execSignal x f s
  | .waitAny x f => Sys2Proof.Machine.execWaitAny x f s
  | .waitAll x f => Sys2Proof.Machine.execWaitAll x f s
  | .park x f => Sys2Proof.Machine.execPark x f s
  | .setpri x f => Sys2Proof.Machine.execSetpri x f s
  | .lseg x f => Sys2Proof.Machine.execLseg x f s
  | .sseg x f => Sys2Proof.Machine.execSseg x f s
  | .rdcyc x f => Sys2Proof.Machine.execRdcyc x f s
  | .rdcych x f => Sys2Proof.Machine.execRdcych x f s
  | .settmr x f => Sys2Proof.Machine.execSettmr x f s
  | .trdZero x f => Sys2Proof.Machine.execTrdZero x f s
  | .trdSat x f => Sys2Proof.Machine.execTrdSat x f s
  | .trdNan x f => Sys2Proof.Machine.execTrdNan x f s
  | .tclr x f => Sys2Proof.Machine.execTclr x f s
  | .qdisc x f => Sys2Proof.Machine.execQdisc x f s
  | .rsrd x f => Sys2Proof.Machine.execRsrd x f s
  | .rswr x f => Sys2Proof.Machine.execRswr x f s
  | .rdver x f => Sys2Proof.Machine.execRdver x f s
  | .rdflt x f => Sys2Proof.Machine.execRdflt x f s
  | .brk x f => Sys2Proof.Machine.execBrk x f s
  | .fence x f => Sys2Proof.Machine.execFence x f s
  | .publish x f => Sys2Proof.Machine.execPublish x f s
  | .wrch x f => Sys2Proof.Machine.execWrch x f s
  | .wrchb x f => Sys2Proof.Machine.execWrchb x f s
  | .close x f => Sys2Proof.Machine.execClose x f s
  | .messageDepart c ch => Sys2Proof.Machine.execMessageDepart c ch s
  | .recv x f => Sys2Proof.Machine.execRecv x f s
  | .rfree x f => Sys2Proof.Machine.execRfree x f s
  | .sumparm x f => Sys2Proof.Machine.execSumparm x f s
  | .arrive x f => Sys2Proof.Machine.execArrive x f s
  | .waitb x f => Sys2Proof.Machine.execWaitb x f s
  | .vop x f => Sys2Proof.Machine.execVop x f s
  | .vfma x f => Sys2Proof.Machine.execVfma x f s
  | .vcmp x f => Sys2Proof.Machine.execVcmp x f s
  | .vperm x f => Sys2Proof.Machine.execVperm x f s
  | .vmac x f => Sys2Proof.Machine.execVmac x f s
  | .vaddac x f => Sys2Proof.Machine.execVaddac x f s
  | .vred x f => Sys2Proof.Machine.execVred x f s
  | .vcvt x f => Sys2Proof.Machine.execVcvt x f s
  | .vtr x f => Sys2Proof.Machine.execVtr x f s
  | .vld x f => Sys2Proof.Machine.execVld x f s
  | .vst x f => Sys2Proof.Machine.execVst x f s
  | .vmvf x f => Sys2Proof.Machine.execVmvf x f s
  | .vmvt x f => Sys2Proof.Machine.execVmvt x f s
  | .vmask x f => Sys2Proof.Machine.execVmask x f s
  | .tcfg x form f => Sys2Proof.Machine.execTcfg x form f s
  | .tshr x f => Sys2Proof.Machine.execTshr x f s
  | .tld x f => Sys2Proof.Machine.execTld x f s
  | .tst x f => Sys2Proof.Machine.execTst x f s
  | .tldx x f => Sys2Proof.Machine.execTldx x f s
  | .tzero x f => Sys2Proof.Machine.execTzero x f s
  | .mma x f => Sys2Proof.Machine.execMma x f s
  | .mmaCommit c => Sys2Proof.Machine.execMmaCommit c s
  | .matrixRest c => Sys2Proof.Machine.execMatrixRest c s
  | .admissionWindowOpen => Sys2Proof.Machine.execAdmissionWindowOpen s
  | .admissionGroupSlot g => Sys2Proof.Machine.execAdmissionGroupSlot g s
  | .token x f => Sys2Proof.Machine.execToken x f s
  | .tokenComplete c q => Sys2Proof.Machine.execTokenComplete c q s
  | .dmaq x f => Sys2Proof.Machine.execDmaq x f s
  | .coreDmaStart c => Sys2Proof.Machine.execCoreDmaStart c s
  | .coreDmaComplete c => Sys2Proof.Machine.execCoreDmaComplete c s
  | .exceptionEntry x => Sys2Proof.Machine.execExceptionEntry x s
  | .doubleFaultEntry x => Sys2Proof.Machine.execDoubleFaultEntry x s
  | .coreReset c => Sys2Proof.Machine.execCoreReset c s
  | .badAir c => Sys2Proof.Machine.execBadAir c s
  | .cycleTimerMatch x => Sys2Proof.Machine.execCycleTimerMatch x s
  | .bankAccess b arrivals det => Sys2Proof.Machine.execBankAccess b arrivals det s
  | .requestPromote b e => Sys2Proof.Machine.execRequestPromote b e s
  | .nearMemoryAccess r det => Sys2Proof.Machine.execNearMemoryAccess r det s
  | .patrolRead h burst det => Sys2Proof.Machine.execPatrolRead h burst det s
  | .interfaceRetrain h e crc ok => Sys2Proof.Machine.execInterfaceRetrain h e crc ok s
  | .cxlAccess r reply => Sys2Proof.Machine.execCxlAccess r reply s
  | .cxlRequestTimeout p l => Sys2Proof.Machine.execCxlRequestTimeout p l s
  | .cxlLinkDown p l => Sys2Proof.Machine.execCxlLinkDown p l s
  | .cxlLinkTrained p l width rate cap => Sys2Proof.Machine.execCxlLinkTrained p l width rate cap s
  | .channelMessage c m => Sys2Proof.Machine.execChannelMessage c m s
  | .sumpContribution c m => Sys2Proof.Machine.execSumpContribution c m s
  | .creditReturn c ch member => Sys2Proof.Machine.execCreditReturn c ch member s
  | .sumpDrain c u => Sys2Proof.Machine.execSumpDrain c u s
  | .barrierArrive h b src => Sys2Proof.Machine.execBarrierArrive h b src s
  | .barrierRelease c b => Sys2Proof.Machine.execBarrierRelease c b s
  | .commitGo a page => Sys2Proof.Machine.execCommitGo a page s
  | .commitRevert a page => Sys2Proof.Machine.execCommitRevert a page s
  | .commitCheckEnd page => Sys2Proof.Machine.execCommitCheckEnd page s
  | .commitApply page => Sys2Proof.Machine.execCommitApply page s
  | .commitTimeout page => Sys2Proof.Machine.execCommitTimeout page s
  | .errClear a page v => Sys2Proof.Machine.execErrClear a page v s
  | .errInj a page v => Sys2Proof.Machine.execErrInj a page v s
  | .registerWrite a page off v => Sys2Proof.Machine.execRegisterWrite a page off v s
  | .counterLowHalfRead a page off => Sys2Proof.Machine.execCounterLowHalfRead a page off s
  | .exterrRead a h => Sys2Proof.Machine.execExterrRead a h s
  | .knoticeRead a h => Sys2Proof.Machine.execKnoticeRead a h s
  | .hallStart a h => Sys2Proof.Machine.execHallStart a h s
  | .hallColumnStart h => Sys2Proof.Machine.execHallColumnStart h s
  | .hallStop a h => Sys2Proof.Machine.execHallStop a h s
  | .hallStopped h => Sys2Proof.Machine.execHallStopped h s
  | .dripWrite a u v => Sys2Proof.Machine.execDripWrite a u v s
  | .sumpRoundWrite a c u v => Sys2Proof.Machine.execSumpRoundWrite a c u v s
  | .saltWrite a h v => Sys2Proof.Machine.execSaltWrite a h v s
  | .tallyClr a u v => Sys2Proof.Machine.execTallyClr a u v s
  | .qctlDiscard a c v => Sys2Proof.Machine.execQctlDiscard a c v s
  | .tableRegisterWrite a c r v => Sys2Proof.Machine.execTableRegisterWrite a c r v s
  | .lanternHalt a x => Sys2Proof.Machine.execLanternHalt a x s
  | .lanternDeliver a x => Sys2Proof.Machine.execLanternDeliver a x s
  | .lanternResume a x => Sys2Proof.Machine.execLanternResume a x s
  | .channelAbort a c v => Sys2Proof.Machine.execChannelAbort a c v s
  | .queueProdWrite a h n q v => Sys2Proof.Machine.execQueueProdWrite a h n q v s
  | .queueResume a h n q => Sys2Proof.Machine.execQueueResume a h n q s
  | .queueDiscard a h n q all => Sys2Proof.Machine.execQueueDiscard a h n q all s
  | .descriptorStart h n q => Sys2Proof.Machine.execDescriptorStart h n q s
  | .descriptorComplete h n q => Sys2Proof.Machine.execDescriptorComplete h n q s
  | .nop h n q => Sys2Proof.Machine.execNop h n q s
  | .pool h q => Sys2Proof.Machine.execPool h q s
  | .scatter h q => Sys2Proof.Machine.execScatter h q s
  | .sort h q => Sys2Proof.Machine.execSort h q s
  | .topk h q => Sys2Proof.Machine.execTopk h q s
  | .sample h q => Sys2Proof.Machine.execSample h q s
  | .expand h q => Sys2Proof.Machine.execExpand h q s
  | .sm4Encrypt h q => Sys2Proof.Machine.execSm4Encrypt h q s
  | .sm4Decrypt h q => Sys2Proof.Machine.execSm4Decrypt h q s
  | .sm3 h q => Sys2Proof.Machine.execSm3 h q s
  | .copy h d q host => Sys2Proof.Machine.execCopy h d q host s
  | .fill h d q => Sys2Proof.Machine.execFill h d q s
  | .scrub h d q bad => Sys2Proof.Machine.execScrub h d q bad s
  | .progKick a h v => Sys2Proof.Machine.execProgKick a h v s
  | .progressFire h => Sys2Proof.Machine.execProgressFire h s
  | .cgo a h v => Sys2Proof.Machine.execCgo a h v s
  | .cairnPageCopied h => Sys2Proof.Machine.execCairnPageCopied h s
  | .cairnComplete h => Sys2Proof.Machine.execCairnComplete h s
  | .cairnFail h why => Sys2Proof.Machine.execCairnFail h why s
  | .ckctlLoad a h => Sys2Proof.Machine.execCkctlLoad a h s
  | .ckctlClear a h => Sys2Proof.Machine.execCkctlClear a h s
  | .restore a h v => Sys2Proof.Machine.execRestore a h v s
  | .restoreComplete h remote => Sys2Proof.Machine.execRestoreComplete h remote s
  | .coreHardFault h p cause => Sys2Proof.Machine.execCoreHardFault h p cause s
  | .suspect a h v => Sys2Proof.Machine.execSuspect a h v s
  | .selfTestEnd h failed => Sys2Proof.Machine.execSelfTestEnd h failed s
  | .readmit a h v => Sys2Proof.Machine.execReadmit a h v s
  | .bridgeFailure b => Sys2Proof.Machine.execBridgeFailure b s
  | .sqTailWrite a h v => Sys2Proof.Machine.execSqTailWrite a h v s
  | .sqHeadWrite a h v => Sys2Proof.Machine.execSqHeadWrite a h v s
  | .cqHeadWrite a h v => Sys2Proof.Machine.execCqHeadWrite a h v s
  | .cqPost a h v => Sys2Proof.Machine.execCqPost a h v s
  | .raise a h v => Sys2Proof.Machine.execRaise a h v s
  | .bar2Access r => Sys2Proof.Machine.execBar2Access r s
  | .hostBar0Access w r => Sys2Proof.Machine.execHostBar0Access w r s
  | .hostReadFail h d q => Sys2Proof.Machine.execHostReadFail h d q s
  | .vfFlr h => Sys2Proof.Machine.execVfFlr h s
  | .pf0Flr => Sys2Proof.Machine.execPf0Flr s
  | .pcieReset k => Sys2Proof.Machine.execPcieReset k s
  | .pcieLinkUp u => Sys2Proof.Machine.execPcieLinkUp u s
  | .lockInterfaceRequest h session stream => Sys2Proof.Machine.execLockInterfaceRequest h session stream s
  | .startInterfaceRequest h => Sys2Proof.Machine.execStartInterfaceRequest h s
  | .stopInterfaceRequest h => Sys2Proof.Machine.execStopInterfaceRequest h s
  | .endOfTenancy e => Sys2Proof.Machine.execEndOfTenancy e s
  | .scrubReq a v => Sys2Proof.Machine.execScrubReq a v s
  | .hallScrubEnd h bad => Sys2Proof.Machine.execHallScrubEnd h bad s
  | .scrubTimeout h => Sys2Proof.Machine.execScrubTimeout h s
  | .spdmGetCertificate slot => Sys2Proof.Machine.execSpdmGetCertificate slot s
  | .spdmChallenge slot nonce => Sys2Proof.Machine.execSpdmChallenge slot nonce s
  | .spdmGetMeasurements idx nonce => Sys2Proof.Machine.execSpdmGetMeasurements idx nonce s
  | .spdmKeyExchange share => Sys2Proof.Machine.execSpdmKeyExchange share s
  | .rollfwd a v => Sys2Proof.Machine.execRollfwd a v s
  | .updBegin a => Sys2Proof.Machine.execUpdBegin a s
  | .updData a v => Sys2Proof.Machine.execUpdData a v s
  | .updVerify a => Sys2Proof.Machine.execUpdVerify a s
  | .updActivate a => Sys2Proof.Machine.execUpdActivate a s
  | .updAbort a => Sys2Proof.Machine.execUpdAbort a s
  | .handoverTimeout => Sys2Proof.Machine.execHandoverTimeout s
  | .yarlinkPortUp p peer proven lanes => Sys2Proof.Machine.execYarlinkPortUp p peer proven lanes s
  | .portFail p => Sys2Proof.Machine.execPortFail p s
  | .flitReceive p f => Sys2Proof.Machine.execFlitReceive p f s
  | .flitReplay p => Sys2Proof.Machine.execFlitReplay p s
  | .laneFail p l => Sys2Proof.Machine.execLaneFail p l s
  | .yarlinkRetrain p lanes => Sys2Proof.Machine.execYarlinkRetrain p lanes s
  | .keyRollover k => Sys2Proof.Machine.execKeyRollover k s
  | .packetRoute inp => Sys2Proof.Machine.execPacketRoute inp s
  | .remoteWrite inp p => Sys2Proof.Machine.execRemoteWrite inp p s
  | .remoteReadRequest inp p => Sys2Proof.Machine.execRemoteReadRequest inp p s
  | .snapshotCopy inp p => Sys2Proof.Machine.execSnapshotCopy inp p s
  | .readReply who p => Sys2Proof.Machine.execReadReply who p s
  | .writeAcknowledgement who p => Sys2Proof.Machine.execWriteAcknowledgement who p s
  | .remoteRequestTimeout who tag => Sys2Proof.Machine.execRemoteRequestTimeout who tag s
  | .intervalEnd m => Sys2Proof.Machine.execIntervalEnd m s
  | .ceilingRise r => Sys2Proof.Machine.execCeilingRise r s
  | .powerStateChange => Sys2Proof.Machine.execPowerStateChange s
  | .currentAlert => Sys2Proof.Machine.execCurrentAlert s
  | .currentAlertClear => Sys2Proof.Machine.execCurrentAlertClear s
  | .thermalTrip => Sys2Proof.Machine.execThermalTrip s
  | .sysThrotAssert => Sys2Proof.Machine.execSysThrotAssert s
  | .sysThrotDeassert => Sys2Proof.Machine.execSysThrotDeassert s
  | .droopStretch h n => Sys2Proof.Machine.execDroopStretch h n s
  | .modrst a v => Sys2Proof.Machine.execModrst a v s
  | .referenceLoss => Sys2Proof.Machine.execReferenceLoss s
  | .referenceRestored => Sys2Proof.Machine.execReferenceRestored s
  | .powerOn failed => Sys2Proof.Machine.execPowerOn failed s
  | .powerOff => Sys2Proof.Machine.execPowerOff s
  | .bypass => Sys2Proof.Machine.execBypass s
  | .idcode => Sys2Proof.Machine.execIdcode s
  | .samplePreload pins load => Sys2Proof.Machine.execSamplePreload pins load s
  | .extest => Sys2Proof.Machine.execExtest s
  | .clamp => Sys2Proof.Machine.execClamp s
  | .highz => Sys2Proof.Machine.execHighz s
  | .testLogicReset => Sys2Proof.Machine.execTestLogicReset s
  | .pldmGetSensorReading id => Sys2Proof.Machine.execPldmGetSensorReading id s
  | .pldmRequestUpdate => Sys2Proof.Machine.execPldmRequestUpdate s
  | .pldmActivateFirmware => Sys2Proof.Machine.execPldmActivateFirmware s
  | .updEraseComplete => Sys2Proof.Machine.execUpdEraseComplete s
  | .updVerifyComplete => Sys2Proof.Machine.execUpdVerifyComplete s
  | .handoverComplete => Sys2Proof.Machine.execHandoverComplete s
  | .readmitComplete h pass => Sys2Proof.Machine.execReadmitComplete h pass s
  | .pcieLinkNotBroughtUp => Sys2Proof.Machine.execPcieLinkNotBroughtUp s
  | .perstNDeassert => Sys2Proof.Machine.execPerstNDeassert s
  | .configurationRequest fn r => Sys2Proof.Machine.execConfigurationRequest fn r s
  | .spdmNegotiateAlgorithms g => Sys2Proof.Machine.execSpdmNegotiateAlgorithms g s
  | .ideKm session m => Sys2Proof.Machine.execIdeKm session m s

end Sys2Proof.Machine
end

