-- ==== Sys2Proof/Laws/Tables.lean ====
section
/-!
SUPPORT. Sparse tables: what a read gives after a write, and that every operation keeps the keys rising. None of the read laws needs
the keys to rise.
-/
namespace Sys2Proof.Machine

/-! ### Reads after writes -/

@[simp] theorem SMap.find?_nil {α : Type} (k : Nat) : SMap.find? ([] : SMap α) k = none := rfl

theorem SMap.find?_put {α : Type} (m : SMap α) (k j : Nat) (v : α) :
    SMap.find? (SMap.put m k v) j = if j = k then some v else SMap.find? m j := by
  induction m with
  | nil => simp [SMap.put, SMap.find?]
  | cons p t ih =>
    obtain ⟨a, b⟩ := p
    simp only [SMap.put]
    split
    · simp [SMap.find?]
    · split
      · rename_i h1 h2
        subst h2
        by_cases h : j = k <;> simp [SMap.find?, h]
      · rename_i h1 h2
        simp only [SMap.find?, ih]
        by_cases h : j = a
        · subst h
          simp [Ne.symm h2]
        · simp [h]

theorem SMap.find?_erase {α : Type} (m : SMap α) (k j : Nat) :
    SMap.find? (SMap.erase m k) j = if j = k then none else SMap.find? m j := by
  induction m with
  | nil => simp [SMap.erase, SMap.find?]
  | cons p t ih =>
    obtain ⟨a, b⟩ := p
    simp only [SMap.erase]
    split
    · rename_i h
      subst h
      rw [ih]
      by_cases h : j = k <;> simp [SMap.find?, h]
    · rename_i h
      simp only [SMap.find?, ih]
      by_cases h' : j = a
      · subst h'
        simp [Ne.symm h]
      · simp [h']

theorem SMap.get_set {α : Type} [DecidableEq α] (m : SMap α) (k j : Nat) (d v : α) :
    SMap.get (SMap.set m k d v) j d = if j = k then v else SMap.get m j d := by
  unfold SMap.get SMap.set
  split
  · rename_i h
    subst h
    rw [SMap.find?_erase]
    by_cases h : j = k <;> simp [h]
  · rw [SMap.find?_put]
    by_cases h : j = k <;> simp [h]

@[simp] theorem SMap.get_set_self {α : Type} [DecidableEq α] (m : SMap α) (k : Nat) (d v : α) :
    SMap.get (SMap.set m k d v) k d = v := by simp [SMap.get_set]

theorem SMap.get_set_ne {α : Type} [DecidableEq α] (m : SMap α) {k j : Nat} (d e v : α) (h : j ≠ k) :
    SMap.get (SMap.set m k d v) j e = SMap.get m j e := by
  unfold SMap.get SMap.set
  split
  · rw [SMap.find?_erase, if_neg h]
  · rw [SMap.find?_put, if_neg h]

/-- Writing again replaces what was written. -/
theorem SMap.put_put {α : Type} (m : SMap α) (k : Nat) (v w : α) : SMap.put (SMap.put m k v) k w = SMap.put m k w := by
  induction m with
  | nil => simp [SMap.put]
  | cons p t ih =>
    obtain ⟨a, b⟩ := p
    simp only [SMap.put]
    split
    · simp [SMap.put]
    · split
      · simp [SMap.put]
      · rename_i h1 h2
        simp only [SMap.put, ih]
        rw [if_neg h1, if_neg h2]

/-! ### Every element -/

/-- A property of all values but for a default: what is read has it. -/
theorem SMap.get_of_all {α : Type} (p : α → Bool) (m : SMap α) (k : Nat) (d : α) (hm : m.all (fun q => p q.2) = true)
    (hd : p d = true) : p (SMap.get m k d) = true := by
  induction m with
  | nil => simpa [SMap.get] using hd
  | cons q t ih =>
    obtain ⟨a, b⟩ := q
    simp only [List.all_cons, Bool.and_eq_true] at hm
    unfold SMap.get at ih ⊢
    simp only [SMap.find?]
    split
    · simpa using hm.1
    · exact ih hm.2

theorem SMap.all_put {α : Type} (p : Nat × α → Bool) (m : SMap α) (k : Nat) (v : α) (hm : m.all p = true) (hv : p (k, v) = true) :
    (SMap.put m k v).all p = true := by
  induction m with
  | nil => simp [SMap.put, hv]
  | cons q t ih =>
    obtain ⟨a, b⟩ := q
    simp only [List.all_cons, Bool.and_eq_true] at hm
    simp only [SMap.put]
    split
    · simp [hv, hm.1, hm.2]
    · split
      · simp [hv, hm.2]
      · simp [hm.1, ih hm.2]

theorem SMap.all_erase {α : Type} (p : Nat × α → Bool) (m : SMap α) (k : Nat) (hm : m.all p = true) :
    (SMap.erase m k).all p = true := by
  induction m with
  | nil => rfl
  | cons q t ih =>
    obtain ⟨a, b⟩ := q
    simp only [List.all_cons, Bool.and_eq_true] at hm
    simp only [SMap.erase]
    split
    · exact ih hm.2
    · simp [hm.1, ih hm.2]

theorem SMap.all_set {α : Type} [DecidableEq α] (p : Nat × α → Bool) (m : SMap α) (k : Nat) (d v : α) (hm : m.all p = true)
    (hv : p (k, v) = true) : (SMap.set m k d v).all p = true := by
  unfold SMap.set
  split
  · exact SMap.all_erase p m k hm
  · exact SMap.all_put p m k v hm hv

theorem SMap.all_clearRange {α : Type} (p : Nat × α → Bool) (m : SMap α) (lo hi : Nat) (hm : m.all p = true) :
    (SMap.clearRange m lo hi).all p = true := by
  induction m with
  | nil => rfl
  | cons q t ih =>
    obtain ⟨a, b⟩ := q
    simp only [List.all_cons, Bool.and_eq_true] at hm
    simp only [SMap.clearRange]
    split
    · exact ih hm.2
    · simp [hm.1, ih hm.2]

end Sys2Proof.Machine
end

