-- ==== Sys2Proof/WellFormed.lean ====
section
/-!
DEFINITION. Well-formed commands: what a sender can form. Fields of instructions take every value, since a reserved one has a
meaning of its own (R207). Commands that are not well formed are given an effect too, on which no statement rests (assumption
log 33).
-/
namespace Sys2Proof

/-- A list of bytes of a length up to `n`. -/
def atMost (n : Nat) (d : List Byte) : Bool := decide (d.length ≤ n)

/-- A message: at most 4,096 bytes (R279, R377), from a core that exists. -/
def Message.wf (m : Message) : Bool :=
  atMost 4096 m.data && decide (m.rank < 256) && match m.sender with | some d => decide (d.core < 1152) | none => true

/-- A packet: its payload is as long as LEN says, but for a read request, which carries none (R376, R377). -/
def Packet.wf (p : Packet) : Bool :=
  decide (p.len ≤ 4096) && p.data.length == (if p.kind = 1 then 0 else p.len)

/-- A flit: 256 bytes (R370). -/
def RxFlit.wf (f : RxFlit) : Bool := f.bytes.length == 256

/-- An access of `n` bytes, at least one, at an offset, that carries as many bytes when it writes. -/
def accessWf (n : Nat) (write : Option (List Byte)) : Bool :=
  decide (0 < n) && match write with | some d => d.length == n | none => true

/-- A request that stays in one burst of 64 bytes (R260, R351). -/
def BurstReq.wf (r : BurstReq) : Bool := accessWf r.len r.write && decide (r.addr % 64 + r.len ≤ 64)

/-- An access of one line of 64 bytes (R246). -/
def BankReq.wf (r : BankReq) : Bool :=
  match r.write with | some (o, d) => decide (0 < d.length) && decide (o + d.length ≤ 64) | none => true

/-- A request of the host through a window of `size` bytes. -/
def HostReq.wf (size : Nat) (r : HostReq) : Bool := accessWf r.len r.write && decide (r.off + r.len ≤ size)

/-- The size of a BAR0 window (R387). -/
def BarWin.size : BarWin → Nat
  | .pf => 0x4000000
  | .vf _ _ => 0x800000

/-- Measurements of eight halls (R475). -/
def Telemetry.wf (m : Telemetry) : Bool := m.cdie.length == 8 && m.bdie.length == 8 && m.mem.length == 8

/-- Whether a command is one that a sender can form. -/
def Instr.wf : Instr → Bool
  | .channelMessage _ m => m.wf
  | .sumpContribution _ m => m.wf
  | .creditReturn _ _ member => decide (member < 1152)
  | .bankAccess _ l _ => l.all BankReq.wf
  | .nearMemoryAccess r _ => r.wf
  | .patrolRead _ burst _ => decide (burst < 1207959552)
  | .cxlAccess r _ => r.wf
  | .cxlLinkTrained _ _ width _ _ => width == 4 || width == 8 || width == 16
  | .flitReceive _ f => f.wf
  | .remoteWrite _ p => p.wf && p.kind == 0
  | .remoteReadRequest _ p => p.wf && p.kind == 1
  | .snapshotCopy _ p => p.wf && p.kind == 2
  | .readReply _ p => p.wf && p.kind == 3
  | .writeAcknowledgement _ p => p.wf && p.kind == 4
  | .bar2Access r => r.wf 0x10000000000
  | .hostBar0Access w r => r.wf w.size
  | .intervalEnd m => m.wf
  | _ => true

end Sys2Proof
end

