-- ==== Sys2Proof/Safety.lean ====
section
/-!
DEFINITION. The terms in which statements are made: what a command answers, when a thread issues an instruction, when nothing is left
to go on of itself, what stays the same, and the canonical form of memory.
-/
namespace Sys2Proof.Machine

/-! ### Outcomes -/

/-- A command answers a next state, and that state satisfies `P`. -/
def Answers (o : Outcome) (P : State → Prop) : Prop := ∃ t, o = .next t ∧ P t

/-- A command brings about a state that satisfies `P`, and answers what follows of itself from there (assumption log 6). -/
def Leads (o : Outcome) (P : State → Prop) : Prop := ∃ u : State, o = .next u.settle ∧ P u

/-! ### A module that does not run -/

/-- The commands that act on a module that does not run: power, reference, boundary scan, the pin PERST_N, the failure of a bridge; and
data of a load that is under way (R20, R168, R402, R482, R484, R501). -/
def actsAlways : Instr → Bool
  | .powerOn _ => true
  | .powerOff => true
  | .thermalTrip => true
  | .referenceLoss => true
  | .referenceRestored => true
  | .bypass => true
  | .idcode => true
  | .samplePreload _ _ => true
  | .extest => true
  | .clamp => true
  | .highz => true
  | .testLogicReset => true
  | .perstNDeassert => true
  | .pcieReset k => decide (k = .perst)
  | .bridgeFailure _ => true
  | .loadDataArrive _ _ => true
  | _ => false

/-- The commands of the update service, which ROM recovery offers too (R409). -/
def actsInRecovery : Instr → Bool
  | .updBegin a => decide (a = .keeper)
  | .updData a _ => decide (a = .keeper)
  | .updVerify a => decide (a = .keeper)
  | .updActivate a => decide (a = .keeper)
  | .updAbort a => decide (a = .keeper)
  | .updEraseComplete => true
  | .updVerifyComplete => true
  | .pldmGetSensorReading _ => true
  | .pldmRequestUpdate => true
  | .pldmActivateFirmware => true
  | _ => false

/-! ### Nothing left to go on of itself -/

/-- A core whose engines and accesses have nothing waiting: empty queues, no held access, credit or arrival, no open fence. -/
def Core.quiet (k : Core) : Bool :=
  k.mq.entries.isEmpty && k.vq.entries.isEmpty && k.dq.entries.isEmpty && k.heldMem.isEmpty && k.heldCredits.isEmpty
    && k.fences.isEmpty && k.bar.all fun p => p.2.holdSeq.isNone

/-- A hall for which the keeper has nothing to do. -/
def Hall.quiet (v : Hall) : Bool :=
  !v.switching && v.engines.all (fun p => !p.2.sig) && v.nearWait.isEmpty && v.cairn.isNone && v.faults.isEmpty && v.readmitted.isNone
    && !v.resetting && !v.closing && v.scrub.isNone && v.task.isNone

/-- A state that stays as it is until the next command or tick (`settle_quiet`). -/
def State.quiet (s : State) : Bool :=
  s.posted.isEmpty && s.cores.all (fun p => p.2.quiet) && s.halls.all (fun p => p.2.quiet) && s.pendAcks.isEmpty
    && s.posts.all (fun p => p.2.isEmpty) && s.bar2Wait.isEmpty && !s.pf0Flr && !s.activating

/-! ### Issue -/

/-- A thread issues this instruction and does not trap at decoding: it is active, its hall runs, no exception comes first, no repeat
sequence stands against it, and R160 does not pass it over; no field is reserved; no register that it names and no segment register that
it uses is pending (R160, R168, R207, R211, R230). -/
def State.ready (s : State) (x : Site) (i : Instr) : Bool :=
  s.canIssue x i && (trapOf (s.thread x).ring i).isNone && (s.pendingReg x i).isNone && !s.segHeld x (segsUsed i)

/-- The thread of a queue instruction and what it captures when it issues: scalar operands and segment registers (R94, R133, R168,
R172). -/
def captures (t : Thread) : Instr → Option (Site × List Word × List SegImage)
  | .vop x _ => some (x, [], [])
  | .vfma x _ => some (x, [], [])
  | .vcmp x _ => some (x, [], [])
  | .vperm x f => some (x, if 6 ≤ f.func.toNat ∧ f.func.toNat ≤ 9 then [t.reg (reg4 f.vb)] else [], [])
  | .vmac x _ => some (x, [], [])
  | .vaddac x _ => some (x, [], [])
  | .vred x _ => some (x, [], [])
  | .vcvt x _ => some (x, [], [])
  | .vtr x _ => some (x, [], [])
  | .vld x f => some (x, [t.reg (reg4 f.sn)], [t.seg f.seg.toNat])
  | .vst x f => some (x, [t.reg (reg4 f.sn)], [t.seg f.seg.toNat])
  | .vmvf x _ => some (x, [], [])
  | .vmvt x _ => some (x, [], [])
  | .vmask x f => some (x, if f.mfunc = 5 ∨ f.mfunc = 7 then [t.reg f.sn] else [], [])
  | .tcfg x form f => some (x, if form = .reg then [t.reg (f.rows.extractLsb' 1 5)] else [], [])
  | .tshr x _ => some (x, [], [])
  | .tld x f => some (x, [t.reg (pairLo f.pair), t.reg (pairHi f.pair)], [t.seg f.seg.toNat])
  | .tst x f => some (x, [t.reg (pairLo f.pair), t.reg (pairHi f.pair)], [t.seg f.seg.toNat])
  | .tldx x f => some (x, [], [t.seg f.seg.toNat])
  | .tzero x _ => some (x, [], [])
  | .mma x _ => some (x, [], [])
  | .token x _ => some (x, [], [])
  | .dmaq x f => some (x, [t.reg (reg4 f.dreg)], [t.seg f.dseg.toNat, t.seg f.sseg.toNat, t.seg f.tseg.toNat])
  | _ => none

/-! ### What stays the same -/

/-- Outside core `c` nothing differs: no other core, no word of a control page, no byte of memory, no hall, nothing sent. -/
def State.sameOutside (s t : State) (c : CoreId) : Prop :=
  { t with cores := [] } = { s with cores := [] } ∧ ∀ d, d ≠ c → t.core d = s.core d

/-- A core without its threads and its record of what they have issued. -/
def Core.bare (k : Core) : Core := { k with threads := [], issueSeq := 0, lastIssue := [] }

/-- A core differs at most in its threads and in its record of what they have issued. -/
def Core.sameBut (k l : Core) : Prop := l.bare = k.bare

/-- Nothing differs but one thread, and its core's record of issued instructions. -/
def State.onlyThread (s t : State) (x : Site) : Prop :=
  s.sameOutside t x.core ∧ (s.core x.core).sameBut (t.core x.core)
    ∧ ∀ n, n ≠ x.thread → t.thread ⟨x.core, n⟩ = s.thread ⟨x.core, n⟩

/-- An instruction has ended that changes its thread by `g`: the thread goes on to its next instruction or repetition; besides,
nothing differs but what `p` leaves out of the core. -/
def State.ends (s : State) (x : Site) (g : Thread → Thread) (p : Core → Core) (t : State) : Prop :=
  s.sameOutside t x.core
    ∧ p (t.core x.core).bare = p (s.core x.core).bare
    ∧ (∀ n, n ≠ x.thread → t.thread ⟨x.core, n⟩ = s.thread ⟨x.core, n⟩) ∧ t.thread x = (g (s.thread x)).retire

/-- A thread has become `h`, which is not the way of an instruction that simply ends; besides, nothing differs but what `p` leaves out
of the core. -/
def State.turns (s : State) (x : Site) (p : Core → Core) (h : Thread) (t : State) : Prop :=
  s.sameOutside t x.core
    ∧ p (t.core x.core).bare = p (s.core x.core).bare
    ∧ (∀ n, n ≠ x.thread → t.thread ⟨x.core, n⟩ = s.thread ⟨x.core, n⟩) ∧ t.thread x = h

/-- An instruction has ended whose whole effect is to change its thread by `g`: the thread goes on to its next instruction or
repetition, and nothing else differs. -/
def State.steps (s : State) (x : Site) (g : Thread → Thread) (t : State) : Prop :=
  s.onlyThread t x ∧ t.thread x = (g (s.thread x)).retire

/-- An instruction has ended whose whole effect is a scalar result. -/
def State.gives (s : State) (x : Site) (rd : BitVec 5) (v : Word) (t : State) : Prop := s.steps x (fun h => h.setReg rd v) t

/-- An instruction has ended that sends its thread to an index, changed by `g`. -/
def State.goes (s : State) (x : Site) (g : Thread → Thread) (pc : BitVec 16) (t : State) : Prop :=
  s.onlyThread t x ∧ t.thread x = (g (s.thread x)).goOn pc

/-- Nothing differs but core `c`, within what `p` leaves out of it. -/
def State.onlyCore (s : State) (c : CoreId) (p : Core → Core) (t : State) : Prop :=
  s.sameOutside t c ∧ p (t.core c) = p (s.core c)

/-- The cores that a state lists are cores, each listed once. -/
def State.coresOk (s : State) : Prop := s.listedCores.Nodup ∧ ∀ p, p ∈ s.cores → p.1 < 1152

/-- No core differs, but for interrupts pending in its threads: every register, queue, tile, ring and channel is as it was. -/
def State.sameCores (s t : State) : Prop :=
  ∀ d : CoreId, ({ t.core d with threads := [] } : Core) = { s.core d with threads := [] } ∧
    ∀ n, t.thread ⟨d, n⟩ = { s.thread ⟨d, n⟩ with intpend := (t.thread ⟨d, n⟩).intpend }

/-- The words of the control pages and the bytes of memory are as they were. -/
def State.sameStore (s t : State) : Prop :=
  t.live = s.live ∧ t.staged = s.staged ∧ t.applied = s.applied ∧ t.mem = s.mem ∧ t.near = s.near ∧ t.cxl = s.cxl
    ∧ t.poison = s.poison

/-- The live words of the control pages are as they were but for those listed, by page and offset; the first entry of a word counts. -/
def State.puts (s t : State) (l : List ((Nat × Nat) × Word)) : Prop :=
  ∀ p o, o < 4096 → o % 4 = 0 → t.liveWord p o = (l.lookup (p, o)).getD (s.liveWord p o)

/-- The words of a 64-bit counter that has counted `n`, for `puts` (R42). -/
def State.plus64 (s : State) (p off n : Nat) : List ((Nat × Nat) × Word) :=
  [((p, off), BitVec.ofNat 32 (s.live64 p off + n)), ((p, off + 4), BitVec.ofNat 32 ((s.live64 p off + n) / 2 ^ 32))]

/-- The word of a counter that stops at 0xFFFF_FFFF and has counted `n`, for `puts`. -/
def State.plus32 (s : State) (p off n : Nat) : (Nat × Nat) × Word :=
  ((p, off), BitVec.ofNat 32 (min 0xFFFFFFFF ((s.liveWord p off).toNat + n)))

/-- An error has been recorded in a page: the error sequence has counted, the ERR bit is set, and the first error is held (R38, R39). -/
def State.records (s t : State) (p bit : Nat) : Prop :=
  t.errSeq = s.errSeq + 1 ∧ t.liveWord p 0x010 = s.liveWord p 0x010 ||| BitVec.ofNat 32 (2 ^ bit)
    ∧ (s.liveWord p 0x010 = 0 → t.liveWord p 0x01C = BitVec.ofNat 32 (bit + (s.errSeq + 1).toNat * 2 ^ 16))

/-- A control-page access has been recorded as an access error, in the keeper page and in that of the issuing hall, each of which holds
the first after ACCESS was last clear (R40). -/
def State.turnsAway (s t : State) (a : Agent) (o : Nat) (write : Bool) : Prop :=
  ∀ q, (q = 0 ∨ ∃ h, agentHall a = some h ∧ q = hallPage h 0) →
    wbit (t.liveWord q 0x010) 0 = true ∧ (wbit (s.liveWord q 0x010) 0 = false →
      t.liveWord q 0x840 = BitVec.ofNat 32 (controlBase + o) ∧ t.liveWord q 0x844 = BitVec.ofNat 32 ((controlBase + o) / 2 ^ 32)
        ∧ t.liveWord q 0x848 = BitVec.ofNat 32 (agentSrc a + b2n write * 2 ^ 16))

/-- The words in which accesses to memory, row accesses and written elements of core `c` count (R79, R92, R252, R253, R357, R358,
R364). -/
def countWord (c : CoreId) (p o : Nat) : Bool :=
  decide (p = corePage c 2 ∨ p = corePage c 0 ∧ 0x8C0 ≤ o ∧ o < 0x8E8 ∨ 0x1000 ≤ p ∧ p % 4 = 0 ∧ 0xB80 ≤ o ∧ o < 0xB88
    ∨ 0x100 ≤ p ∧ p < 0x900 ∧ (p % 256 = 0 ∧ 0xA00 ≤ o ∧ o < 0xE00 ∨ p % 256 = 1 ∧ 0x808 ≤ o ∧ o < 0x818
      ∨ 0x90 ≤ p % 256 ∧ p % 256 < 0xA0 ∧ 0x800 ≤ o ∧ o < 0x810)
    ∨ 0x30 ≤ p ∧ p < 0x40 ∧ 0x840 ≤ o ∧ o < 0x850)

/-- No word of a control page differs but those in which core `c`'s accesses, rows and elements count. -/
def State.counts (s t : State) (c : CoreId) : Prop :=
  ∀ p o, o < 4096 → o % 4 = 0 → countWord c p o = false → t.liveWord p o = s.liveWord p o

/-! ### Sealing -/

/-- A position is sealed and the spare of its column settled in one of four ways (R453, steps 2 and 3; R455). -/
def State.sealsPosition (s t : State) (h : HallId) (p : Position) (cause : Nat) : Prop :=
  let sp : Nat := hallPage h 0x80
  let map (u : State) : Word := u.liveWord (hallPage h 0) (0x800 + 4 * p.col.val)
  wbit (map t) (16 + p.row.val) = true ∧ wbit (t.liveWord sp 0x010) 0 = true ∧
  t.liveWord sp 0x80C = BitVec.ofNat 32 (h.val * 156 + p.row.val * 12 + p.col.val + 2048 + cause * 4096) ∧
  (∀ r : Nat, r < 13 → r ≠ p.row.val → wbit (map t) (16 + r) = wbit (map s) (16 + r)) ∧
  (p.row.val < 12 → fieldOf (map s) 4 2 = 0 → fieldOf (map t) 0 4 = p.row.val ∧ fieldOf (map t) 4 2 = 1 ∧
    t.liveWord sp 0x808 = s.liveWord sp 0x808 + 1 ∧ t.isOut h = s.isOut h) ∧
  (p.row.val = 12 → fieldOf (map s) 4 2 = 0 → fieldOf (map t) 0 4 = fieldOf (map s) 0 4 ∧ fieldOf (map t) 4 2 = 3 ∧ t.isOut h = s.isOut h) ∧
  (fieldOf (map s) 4 2 ≠ 0 → fieldOf (map t) 0 4 = fieldOf (map s) 0 4 ∧ wbit (t.liveWord sp 0x010) 1 = true ∧ t.isOut h = true ∧
    fieldOf (map t) 4 2 = if p.row.val = 12 then 3 else fieldOf (map s) 4 2)

/-! ### Memory -/

/-- Memory reads as before but for the bytes `d` from address `a`. -/
def State.stores (s t : State) (a : Nat) (d : List Byte) : Prop :=
  ∀ b, t.byteAt b = if a ≤ b ∧ b < a + d.length then d.getD (b - a) 0 else s.byteAt b

/-- What a write of part of a line has counted: the access, and poison that a CXL port returns for the burst it reads (R252, R253, R357,
R358, R363, R364). -/
def State.wroteLine (s : State) (a : Agent) (addr : Nat) : State :=
  let t := s.countLine a addr true
  match winOf addr with
  | .cxl o => match s.cxlDecode o with
    | some (_, target, _) => if s.poisoned addr then t.tierPoison (target / 4) else t
    | none => t
  | _ => t

/-- A write of an agent to these bytes reaches memory, which performs it now (R24, R31, R349, R356, R364, R447). -/
def State.takesWrite (s : State) (a : Agent) (addr n : Nat) : Prop :=
  s.allBack a addr n = true ∧ s.writeStalls a addr n = false ∧ s.protectedAt addr = false ∧ s.behindHeld a addr = false
    ∧ ∀ o d g e, winOf addr = .cxl o → s.cxlDecode o = some (d, g, e) → s.linkState g = 2

/-- No CXL port returns poison for the burst of an address (R363). -/
def State.tierClean (s : State) (addr : Nat) : Prop := ∀ o, winOf addr = .cxl o → s.poisoned addr = false

/-- A read by an agent of these bytes is answered now from memory, and meets no poison (R24, R31, R249, R349, R356, R447). -/
def State.takesRead (s : State) (a : Agent) (addr n : Nat) : Prop :=
  s.allBack a addr n = true ∧ s.readStalls a addr n = false ∧ s.poisoned addr = false

/-- Every tile of a core is unconfigured or has a shape that TCFG admits (R84 to R86). -/
def Core.shapesOk (k : Core) : Bool := k.tshape.all fun p => decide (p.1 < 16) && (tcfgCode p.1 p.2).isNone

/-! ### The form of memory -/

/-- Keys rise strictly, from `lo` up. -/
def risingFrom {α : Type} : Nat → List (Nat × α) → Bool
  | _, [] => true
  | lo, (k, _) :: t => decide (lo ≤ k) && risingFrom (k + 1) t

/-- The canonical form of memory whose unlisted bytes read as zero: addresses rise strictly, and no entry is zero. -/
def Memory.wf (m : List Host.Cell) : Bool := risingFrom 0 m && m.all fun p => p.2 != 0

/-- Every memory of the module is in canonical form: chamber and gallery; near memory, the CXL tier and the flash, whose unlisted
bytes are free values, so that any byte may be listed. -/
def State.memWf (s : State) : Bool :=
  Memory.wf s.mem && risingFrom 0 s.near && risingFrom 0 s.cxl && risingFrom 0 s.flash

/-- What every step keeps: the canonical forms of memory and of the tables, no core that does not exist, no tile shape that TCFG does
not allow. -/
def State.inv (s : State) : Prop :=
  s.memWf = true ∧ risingFrom 0 s.staged = true ∧ risingFrom 0 s.applied = true ∧ risingFrom 0 s.snap = true
    ∧ risingFrom 0 s.waiting = true ∧ risingFrom 0 s.cores = true ∧ ∀ p, p ∈ s.cores → p.1 < 1152 ∧ p.2.shapesOk = true

end Sys2Proof.Machine
end

