-- ==== Sys2Proof/Laws/State.lean ====
section
/-!
SUPPORT. Updates of the state, field by field: what each leaves of every other field, and what is read back after it.
-/
namespace Sys2Proof.Machine

/-! ### setCore -/

@[simp] theorem State.setCore_pending (s : State) (c : CoreId) (k : Core) : (s.setCore c k).pending = s.pending := rfl
@[simp] theorem State.setCore_fresh (s : State) (c : CoreId) (k : Core) : (s.setCore c k).fresh = s.fresh := rfl
@[simp] theorem State.setCore_mem (s : State) (c : CoreId) (k : Core) : (s.setCore c k).mem = s.mem := rfl
@[simp] theorem State.setCore_near (s : State) (c : CoreId) (k : Core) : (s.setCore c k).near = s.near := rfl
@[simp] theorem State.setCore_nearZero (s : State) (c : CoreId) (k : Core) : (s.setCore c k).nearZero = s.nearZero := rfl
@[simp] theorem State.setCore_nearGen (s : State) (c : CoreId) (k : Core) : (s.setCore c k).nearGen = s.nearGen := rfl
@[simp] theorem State.setCore_cxl (s : State) (c : CoreId) (k : Core) : (s.setCore c k).cxl = s.cxl := rfl
@[simp] theorem State.setCore_cxlGen (s : State) (c : CoreId) (k : Core) : (s.setCore c k).cxlGen = s.cxlGen := rfl
@[simp] theorem State.setCore_poison (s : State) (c : CoreId) (k : Core) : (s.setCore c k).poison = s.poison := rfl
@[simp] theorem State.setCore_live (s : State) (c : CoreId) (k : Core) : (s.setCore c k).live = s.live := rfl
@[simp] theorem State.setCore_staged (s : State) (c : CoreId) (k : Core) : (s.setCore c k).staged = s.staged := rfl
@[simp] theorem State.setCore_applied (s : State) (c : CoreId) (k : Core) : (s.setCore c k).applied = s.applied := rfl
@[simp] theorem State.setCore_snap (s : State) (c : CoreId) (k : Core) : (s.setCore c k).snap = s.snap := rfl
@[simp] theorem State.setCore_waiting (s : State) (c : CoreId) (k : Core) : (s.setCore c k).waiting = s.waiting := rfl
@[simp] theorem State.setCore_commits (s : State) (c : CoreId) (k : Core) : (s.setCore c k).commits = s.commits := rfl
@[simp] theorem State.setCore_errSeq (s : State) (c : CoreId) (k : Core) : (s.setCore c k).errSeq = s.errSeq := rfl
@[simp] theorem State.setCore_latch (s : State) (c : CoreId) (k : Core) : (s.setCore c k).latch = s.latch := rfl
@[simp] theorem State.setCore_halls (s : State) (c : CoreId) (k : Core) : (s.setCore c k).halls = s.halls := rfl
@[simp] theorem State.setCore_banks (s : State) (c : CoreId) (k : Core) : (s.setCore c k).banks = s.banks := rfl
@[simp] theorem State.setCore_rootTick (s : State) (c : CoreId) (k : Core) : (s.setCore c k).rootTick = s.rootTick := rfl
@[simp] theorem State.setCore_window (s : State) (c : CoreId) (k : Core) : (s.setCore c k).window = s.window := rfl
@[simp] theorem State.setCore_cxlLost (s : State) (c : CoreId) (k : Core) : (s.setCore c k).cxlLost = s.cxlLost := rfl
@[simp] theorem State.setCore_posted (s : State) (c : CoreId) (k : Core) : (s.setCore c k).posted = s.posted := rfl
@[simp] theorem State.setCore_ports (s : State) (c : CoreId) (k : Core) : (s.setCore c k).ports = s.ports := rfl
@[simp] theorem State.setCore_mesh (s : State) (c : CoreId) (k : Core) : (s.setCore c k).mesh = s.mesh := rfl
@[simp] theorem State.setCore_routing (s : State) (c : CoreId) (k : Core) : (s.setCore c k).routing = s.routing := rfl
@[simp] theorem State.setCore_remote (s : State) (c : CoreId) (k : Core) : (s.setCore c k).remote = s.remote := rfl
@[simp] theorem State.setCore_pendAcks (s : State) (c : CoreId) (k : Core) : (s.setCore c k).pendAcks = s.pendAcks := rfl
@[simp] theorem State.setCore_posts (s : State) (c : CoreId) (k : Core) : (s.setCore c k).posts = s.posts := rfl
@[simp] theorem State.setCore_vin (s : State) (c : CoreId) (k : Core) : (s.setCore c k).vin = s.vin := rfl
@[simp] theorem State.setCore_tripped (s : State) (c : CoreId) (k : Core) : (s.setCore c k).tripped = s.tripped := rfl
@[simp] theorem State.setCore_refLost (s : State) (c : CoreId) (k : Core) : (s.setCore c k).refLost = s.refLost := rfl
@[simp] theorem State.setCore_scanHold (s : State) (c : CoreId) (k : Core) : (s.setCore c k).scanHold = s.scanHold := rfl
@[simp] theorem State.setCore_recovery (s : State) (c : CoreId) (k : Core) : (s.setCore c k).recovery = s.recovery := rfl
@[simp] theorem State.setCore_bridgeFail (s : State) (c : CoreId) (k : Core) : (s.setCore c k).bridgeFail = s.bridgeFail := rfl
@[simp] theorem State.setCore_perst (s : State) (c : CoreId) (k : Core) : (s.setCore c k).perst = s.perst := rfl
@[simp] theorem State.setCore_vfEnable (s : State) (c : CoreId) (k : Core) : (s.setCore c k).vfEnable = s.vfEnable := rfl
@[simp] theorem State.setCore_pf0Flr (s : State) (c : CoreId) (k : Core) : (s.setCore c k).pf0Flr = s.pf0Flr := rfl
@[simp] theorem State.setCore_lastInt (s : State) (c : CoreId) (k : Core) : (s.setCore c k).lastInt = s.lastInt := rfl
@[simp] theorem State.setCore_ceilAt (s : State) (c : CoreId) (k : Core) : (s.setCore c k).ceilAt = s.ceilAt := rfl
@[simp] theorem State.setCore_alertAt (s : State) (c : CoreId) (k : Core) : (s.setCore c k).alertAt = s.alertAt := rfl
@[simp] theorem State.setCore_col0 (s : State) (c : CoreId) (k : Core) : (s.setCore c k).col0 = s.col0 := rfl
@[simp] theorem State.setCore_cfgBar (s : State) (c : CoreId) (k : Core) : (s.setCore c k).cfgBar = s.cfgBar := rfl
@[simp] theorem State.setCore_bar2Wait (s : State) (c : CoreId) (k : Core) : (s.setCore c k).bar2Wait = s.bar2Wait := rfl
@[simp] theorem State.setCore_capRun (s : State) (c : CoreId) (k : Core) : (s.setCore c k).capRun = s.capRun := rfl
@[simp] theorem State.setCore_pwrWin (s : State) (c : CoreId) (k : Core) : (s.setCore c k).pwrWin = s.pwrWin := rfl
@[simp] theorem State.setCore_flash (s : State) (c : CoreId) (k : Core) : (s.setCore c k).flash = s.flash := rfl
@[simp] theorem State.setCore_slotErased (s : State) (c : CoreId) (k : Core) : (s.setCore c k).slotErased = s.slotErased := rfl
@[simp] theorem State.setCore_blown (s : State) (c : CoreId) (k : Core) : (s.setCore c k).blown = s.blown := rfl
@[simp] theorem State.setCore_keeper (s : State) (c : CoreId) (k : Core) : (s.setCore c k).keeper = s.keeper := rfl
@[simp] theorem State.setCore_privKey (s : State) (c : CoreId) (k : Core) : (s.setCore c k).privKey = s.privKey := rfl
@[simp] theorem State.setCore_secretShut (s : State) (c : CoreId) (k : Core) : (s.setCore c k).secretShut = s.secretShut := rfl
@[simp] theorem State.setCore_updLog (s : State) (c : CoreId) (k : Core) : (s.setCore c k).updLog = s.updLog := rfl
@[simp] theorem State.setCore_updAt (s : State) (c : CoreId) (k : Core) : (s.setCore c k).updAt = s.updAt := rfl
@[simp] theorem State.setCore_pldmUpd (s : State) (c : CoreId) (k : Core) : (s.setCore c k).pldmUpd = s.pldmUpd := rfl
@[simp] theorem State.setCore_activating (s : State) (c : CoreId) (k : Core) : (s.setCore c k).activating = s.activating := rfl
@[simp] theorem State.setCore_spdmReady (s : State) (c : CoreId) (k : Core) : (s.setCore c k).spdmReady = s.spdmReady := rfl
@[simp] theorem State.setCore_sessions (s : State) (c : CoreId) (k : Core) : (s.setCore c k).sessions = s.sessions := rfl
@[simp] theorem State.setCore_streams (s : State) (c : CoreId) (k : Core) : (s.setCore c k).streams = s.streams := rfl
@[simp] theorem State.setCore_keyBase (s : State) (c : CoreId) (k : Core) : (s.setCore c k).keyBase = s.keyBase := rfl
@[simp] theorem State.setCore_tap (s : State) (c : CoreId) (k : Core) : (s.setCore c k).tap = s.tap := rfl
@[simp] theorem State.setCore_boundaryReg (s : State) (c : CoreId) (k : Core) : (s.setCore c k).boundaryReg = s.boundaryReg := rfl
@[simp] theorem State.setCore_out (s : State) (c : CoreId) (k : Core) : (s.setCore c k).out = s.out := rfl

/-! ### setHall -/

@[simp] theorem State.setHall_pending (s : State) (h : HallId) (v : Hall) : (s.setHall h v).pending = s.pending := rfl
@[simp] theorem State.setHall_fresh (s : State) (h : HallId) (v : Hall) : (s.setHall h v).fresh = s.fresh := rfl
@[simp] theorem State.setHall_mem (s : State) (h : HallId) (v : Hall) : (s.setHall h v).mem = s.mem := rfl
@[simp] theorem State.setHall_near (s : State) (h : HallId) (v : Hall) : (s.setHall h v).near = s.near := rfl
@[simp] theorem State.setHall_nearZero (s : State) (h : HallId) (v : Hall) : (s.setHall h v).nearZero = s.nearZero := rfl
@[simp] theorem State.setHall_nearGen (s : State) (h : HallId) (v : Hall) : (s.setHall h v).nearGen = s.nearGen := rfl
@[simp] theorem State.setHall_cxl (s : State) (h : HallId) (v : Hall) : (s.setHall h v).cxl = s.cxl := rfl
@[simp] theorem State.setHall_cxlGen (s : State) (h : HallId) (v : Hall) : (s.setHall h v).cxlGen = s.cxlGen := rfl
@[simp] theorem State.setHall_poison (s : State) (h : HallId) (v : Hall) : (s.setHall h v).poison = s.poison := rfl
@[simp] theorem State.setHall_live (s : State) (h : HallId) (v : Hall) : (s.setHall h v).live = s.live := rfl
@[simp] theorem State.setHall_staged (s : State) (h : HallId) (v : Hall) : (s.setHall h v).staged = s.staged := rfl
@[simp] theorem State.setHall_applied (s : State) (h : HallId) (v : Hall) : (s.setHall h v).applied = s.applied := rfl
@[simp] theorem State.setHall_snap (s : State) (h : HallId) (v : Hall) : (s.setHall h v).snap = s.snap := rfl
@[simp] theorem State.setHall_waiting (s : State) (h : HallId) (v : Hall) : (s.setHall h v).waiting = s.waiting := rfl
@[simp] theorem State.setHall_commits (s : State) (h : HallId) (v : Hall) : (s.setHall h v).commits = s.commits := rfl
@[simp] theorem State.setHall_errSeq (s : State) (h : HallId) (v : Hall) : (s.setHall h v).errSeq = s.errSeq := rfl
@[simp] theorem State.setHall_latch (s : State) (h : HallId) (v : Hall) : (s.setHall h v).latch = s.latch := rfl
@[simp] theorem State.setHall_cores (s : State) (h : HallId) (v : Hall) : (s.setHall h v).cores = s.cores := rfl
@[simp] theorem State.setHall_banks (s : State) (h : HallId) (v : Hall) : (s.setHall h v).banks = s.banks := rfl
@[simp] theorem State.setHall_rootTick (s : State) (h : HallId) (v : Hall) : (s.setHall h v).rootTick = s.rootTick := rfl
@[simp] theorem State.setHall_window (s : State) (h : HallId) (v : Hall) : (s.setHall h v).window = s.window := rfl
@[simp] theorem State.setHall_cxlLost (s : State) (h : HallId) (v : Hall) : (s.setHall h v).cxlLost = s.cxlLost := rfl
@[simp] theorem State.setHall_posted (s : State) (h : HallId) (v : Hall) : (s.setHall h v).posted = s.posted := rfl
@[simp] theorem State.setHall_ports (s : State) (h : HallId) (v : Hall) : (s.setHall h v).ports = s.ports := rfl
@[simp] theorem State.setHall_mesh (s : State) (h : HallId) (v : Hall) : (s.setHall h v).mesh = s.mesh := rfl
@[simp] theorem State.setHall_routing (s : State) (h : HallId) (v : Hall) : (s.setHall h v).routing = s.routing := rfl
@[simp] theorem State.setHall_remote (s : State) (h : HallId) (v : Hall) : (s.setHall h v).remote = s.remote := rfl
@[simp] theorem State.setHall_pendAcks (s : State) (h : HallId) (v : Hall) : (s.setHall h v).pendAcks = s.pendAcks := rfl
@[simp] theorem State.setHall_posts (s : State) (h : HallId) (v : Hall) : (s.setHall h v).posts = s.posts := rfl
@[simp] theorem State.setHall_vin (s : State) (h : HallId) (v : Hall) : (s.setHall h v).vin = s.vin := rfl
@[simp] theorem State.setHall_tripped (s : State) (h : HallId) (v : Hall) : (s.setHall h v).tripped = s.tripped := rfl
@[simp] theorem State.setHall_refLost (s : State) (h : HallId) (v : Hall) : (s.setHall h v).refLost = s.refLost := rfl
@[simp] theorem State.setHall_scanHold (s : State) (h : HallId) (v : Hall) : (s.setHall h v).scanHold = s.scanHold := rfl
@[simp] theorem State.setHall_recovery (s : State) (h : HallId) (v : Hall) : (s.setHall h v).recovery = s.recovery := rfl
@[simp] theorem State.setHall_bridgeFail (s : State) (h : HallId) (v : Hall) : (s.setHall h v).bridgeFail = s.bridgeFail := rfl
@[simp] theorem State.setHall_perst (s : State) (h : HallId) (v : Hall) : (s.setHall h v).perst = s.perst := rfl
@[simp] theorem State.setHall_vfEnable (s : State) (h : HallId) (v : Hall) : (s.setHall h v).vfEnable = s.vfEnable := rfl
@[simp] theorem State.setHall_pf0Flr (s : State) (h : HallId) (v : Hall) : (s.setHall h v).pf0Flr = s.pf0Flr := rfl
@[simp] theorem State.setHall_lastInt (s : State) (h : HallId) (v : Hall) : (s.setHall h v).lastInt = s.lastInt := rfl
@[simp] theorem State.setHall_ceilAt (s : State) (h : HallId) (v : Hall) : (s.setHall h v).ceilAt = s.ceilAt := rfl
@[simp] theorem State.setHall_alertAt (s : State) (h : HallId) (v : Hall) : (s.setHall h v).alertAt = s.alertAt := rfl
@[simp] theorem State.setHall_col0 (s : State) (h : HallId) (v : Hall) : (s.setHall h v).col0 = s.col0 := rfl
@[simp] theorem State.setHall_cfgBar (s : State) (h : HallId) (v : Hall) : (s.setHall h v).cfgBar = s.cfgBar := rfl
@[simp] theorem State.setHall_bar2Wait (s : State) (h : HallId) (v : Hall) : (s.setHall h v).bar2Wait = s.bar2Wait := rfl
@[simp] theorem State.setHall_capRun (s : State) (h : HallId) (v : Hall) : (s.setHall h v).capRun = s.capRun := rfl
@[simp] theorem State.setHall_pwrWin (s : State) (h : HallId) (v : Hall) : (s.setHall h v).pwrWin = s.pwrWin := rfl
@[simp] theorem State.setHall_flash (s : State) (h : HallId) (v : Hall) : (s.setHall h v).flash = s.flash := rfl
@[simp] theorem State.setHall_slotErased (s : State) (h : HallId) (v : Hall) : (s.setHall h v).slotErased = s.slotErased := rfl
@[simp] theorem State.setHall_blown (s : State) (h : HallId) (v : Hall) : (s.setHall h v).blown = s.blown := rfl
@[simp] theorem State.setHall_keeper (s : State) (h : HallId) (v : Hall) : (s.setHall h v).keeper = s.keeper := rfl
@[simp] theorem State.setHall_privKey (s : State) (h : HallId) (v : Hall) : (s.setHall h v).privKey = s.privKey := rfl
@[simp] theorem State.setHall_secretShut (s : State) (h : HallId) (v : Hall) : (s.setHall h v).secretShut = s.secretShut := rfl
@[simp] theorem State.setHall_updLog (s : State) (h : HallId) (v : Hall) : (s.setHall h v).updLog = s.updLog := rfl
@[simp] theorem State.setHall_updAt (s : State) (h : HallId) (v : Hall) : (s.setHall h v).updAt = s.updAt := rfl
@[simp] theorem State.setHall_pldmUpd (s : State) (h : HallId) (v : Hall) : (s.setHall h v).pldmUpd = s.pldmUpd := rfl
@[simp] theorem State.setHall_activating (s : State) (h : HallId) (v : Hall) : (s.setHall h v).activating = s.activating := rfl
@[simp] theorem State.setHall_spdmReady (s : State) (h : HallId) (v : Hall) : (s.setHall h v).spdmReady = s.spdmReady := rfl
@[simp] theorem State.setHall_sessions (s : State) (h : HallId) (v : Hall) : (s.setHall h v).sessions = s.sessions := rfl
@[simp] theorem State.setHall_streams (s : State) (h : HallId) (v : Hall) : (s.setHall h v).streams = s.streams := rfl
@[simp] theorem State.setHall_keyBase (s : State) (h : HallId) (v : Hall) : (s.setHall h v).keyBase = s.keyBase := rfl
@[simp] theorem State.setHall_tap (s : State) (h : HallId) (v : Hall) : (s.setHall h v).tap = s.tap := rfl
@[simp] theorem State.setHall_boundaryReg (s : State) (h : HallId) (v : Hall) : (s.setHall h v).boundaryReg = s.boundaryReg := rfl
@[simp] theorem State.setHall_out (s : State) (h : HallId) (v : Hall) : (s.setHall h v).out = s.out := rfl

/-! ### setLive -/

@[simp] theorem State.setLive_pending (s : State) (p o : Nat) (v : Word) : (s.setLive p o v).pending = s.pending := rfl
@[simp] theorem State.setLive_fresh (s : State) (p o : Nat) (v : Word) : (s.setLive p o v).fresh = s.fresh := rfl
@[simp] theorem State.setLive_mem (s : State) (p o : Nat) (v : Word) : (s.setLive p o v).mem = s.mem := rfl
@[simp] theorem State.setLive_near (s : State) (p o : Nat) (v : Word) : (s.setLive p o v).near = s.near := rfl
@[simp] theorem State.setLive_nearZero (s : State) (p o : Nat) (v : Word) : (s.setLive p o v).nearZero = s.nearZero := rfl
@[simp] theorem State.setLive_nearGen (s : State) (p o : Nat) (v : Word) : (s.setLive p o v).nearGen = s.nearGen := rfl
@[simp] theorem State.setLive_cxl (s : State) (p o : Nat) (v : Word) : (s.setLive p o v).cxl = s.cxl := rfl
@[simp] theorem State.setLive_cxlGen (s : State) (p o : Nat) (v : Word) : (s.setLive p o v).cxlGen = s.cxlGen := rfl
@[simp] theorem State.setLive_poison (s : State) (p o : Nat) (v : Word) : (s.setLive p o v).poison = s.poison := rfl
@[simp] theorem State.setLive_staged (s : State) (p o : Nat) (v : Word) : (s.setLive p o v).staged = s.staged := rfl
@[simp] theorem State.setLive_applied (s : State) (p o : Nat) (v : Word) : (s.setLive p o v).applied = s.applied := rfl
@[simp] theorem State.setLive_snap (s : State) (p o : Nat) (v : Word) : (s.setLive p o v).snap = s.snap := rfl
@[simp] theorem State.setLive_waiting (s : State) (p o : Nat) (v : Word) : (s.setLive p o v).waiting = s.waiting := rfl
@[simp] theorem State.setLive_commits (s : State) (p o : Nat) (v : Word) : (s.setLive p o v).commits = s.commits := rfl
@[simp] theorem State.setLive_errSeq (s : State) (p o : Nat) (v : Word) : (s.setLive p o v).errSeq = s.errSeq := rfl
@[simp] theorem State.setLive_latch (s : State) (p o : Nat) (v : Word) : (s.setLive p o v).latch = s.latch := rfl
@[simp] theorem State.setLive_cores (s : State) (p o : Nat) (v : Word) : (s.setLive p o v).cores = s.cores := rfl
@[simp] theorem State.setLive_halls (s : State) (p o : Nat) (v : Word) : (s.setLive p o v).halls = s.halls := rfl
@[simp] theorem State.setLive_banks (s : State) (p o : Nat) (v : Word) : (s.setLive p o v).banks = s.banks := rfl
@[simp] theorem State.setLive_rootTick (s : State) (p o : Nat) (v : Word) : (s.setLive p o v).rootTick = s.rootTick := rfl
@[simp] theorem State.setLive_window (s : State) (p o : Nat) (v : Word) : (s.setLive p o v).window = s.window := rfl
@[simp] theorem State.setLive_cxlLost (s : State) (p o : Nat) (v : Word) : (s.setLive p o v).cxlLost = s.cxlLost := rfl
@[simp] theorem State.setLive_posted (s : State) (p o : Nat) (v : Word) : (s.setLive p o v).posted = s.posted := rfl
@[simp] theorem State.setLive_ports (s : State) (p o : Nat) (v : Word) : (s.setLive p o v).ports = s.ports := rfl
@[simp] theorem State.setLive_mesh (s : State) (p o : Nat) (v : Word) : (s.setLive p o v).mesh = s.mesh := rfl
@[simp] theorem State.setLive_routing (s : State) (p o : Nat) (v : Word) : (s.setLive p o v).routing = s.routing := rfl
@[simp] theorem State.setLive_remote (s : State) (p o : Nat) (v : Word) : (s.setLive p o v).remote = s.remote := rfl
@[simp] theorem State.setLive_pendAcks (s : State) (p o : Nat) (v : Word) : (s.setLive p o v).pendAcks = s.pendAcks := rfl
@[simp] theorem State.setLive_posts (s : State) (p o : Nat) (v : Word) : (s.setLive p o v).posts = s.posts := rfl
@[simp] theorem State.setLive_vin (s : State) (p o : Nat) (v : Word) : (s.setLive p o v).vin = s.vin := rfl
@[simp] theorem State.setLive_tripped (s : State) (p o : Nat) (v : Word) : (s.setLive p o v).tripped = s.tripped := rfl
@[simp] theorem State.setLive_refLost (s : State) (p o : Nat) (v : Word) : (s.setLive p o v).refLost = s.refLost := rfl
@[simp] theorem State.setLive_scanHold (s : State) (p o : Nat) (v : Word) : (s.setLive p o v).scanHold = s.scanHold := rfl
@[simp] theorem State.setLive_recovery (s : State) (p o : Nat) (v : Word) : (s.setLive p o v).recovery = s.recovery := rfl
@[simp] theorem State.setLive_bridgeFail (s : State) (p o : Nat) (v : Word) : (s.setLive p o v).bridgeFail = s.bridgeFail := rfl
@[simp] theorem State.setLive_perst (s : State) (p o : Nat) (v : Word) : (s.setLive p o v).perst = s.perst := rfl
@[simp] theorem State.setLive_vfEnable (s : State) (p o : Nat) (v : Word) : (s.setLive p o v).vfEnable = s.vfEnable := rfl
@[simp] theorem State.setLive_pf0Flr (s : State) (p o : Nat) (v : Word) : (s.setLive p o v).pf0Flr = s.pf0Flr := rfl
@[simp] theorem State.setLive_lastInt (s : State) (p o : Nat) (v : Word) : (s.setLive p o v).lastInt = s.lastInt := rfl
@[simp] theorem State.setLive_ceilAt (s : State) (p o : Nat) (v : Word) : (s.setLive p o v).ceilAt = s.ceilAt := rfl
@[simp] theorem State.setLive_alertAt (s : State) (p o : Nat) (v : Word) : (s.setLive p o v).alertAt = s.alertAt := rfl
@[simp] theorem State.setLive_col0 (s : State) (p o : Nat) (v : Word) : (s.setLive p o v).col0 = s.col0 := rfl
@[simp] theorem State.setLive_cfgBar (s : State) (p o : Nat) (v : Word) : (s.setLive p o v).cfgBar = s.cfgBar := rfl
@[simp] theorem State.setLive_bar2Wait (s : State) (p o : Nat) (v : Word) : (s.setLive p o v).bar2Wait = s.bar2Wait := rfl
@[simp] theorem State.setLive_capRun (s : State) (p o : Nat) (v : Word) : (s.setLive p o v).capRun = s.capRun := rfl
@[simp] theorem State.setLive_pwrWin (s : State) (p o : Nat) (v : Word) : (s.setLive p o v).pwrWin = s.pwrWin := rfl
@[simp] theorem State.setLive_flash (s : State) (p o : Nat) (v : Word) : (s.setLive p o v).flash = s.flash := rfl
@[simp] theorem State.setLive_slotErased (s : State) (p o : Nat) (v : Word) : (s.setLive p o v).slotErased = s.slotErased := rfl
@[simp] theorem State.setLive_blown (s : State) (p o : Nat) (v : Word) : (s.setLive p o v).blown = s.blown := rfl
@[simp] theorem State.setLive_keeper (s : State) (p o : Nat) (v : Word) : (s.setLive p o v).keeper = s.keeper := rfl
@[simp] theorem State.setLive_privKey (s : State) (p o : Nat) (v : Word) : (s.setLive p o v).privKey = s.privKey := rfl
@[simp] theorem State.setLive_secretShut (s : State) (p o : Nat) (v : Word) : (s.setLive p o v).secretShut = s.secretShut := rfl
@[simp] theorem State.setLive_updLog (s : State) (p o : Nat) (v : Word) : (s.setLive p o v).updLog = s.updLog := rfl
@[simp] theorem State.setLive_updAt (s : State) (p o : Nat) (v : Word) : (s.setLive p o v).updAt = s.updAt := rfl
@[simp] theorem State.setLive_pldmUpd (s : State) (p o : Nat) (v : Word) : (s.setLive p o v).pldmUpd = s.pldmUpd := rfl
@[simp] theorem State.setLive_activating (s : State) (p o : Nat) (v : Word) : (s.setLive p o v).activating = s.activating := rfl
@[simp] theorem State.setLive_spdmReady (s : State) (p o : Nat) (v : Word) : (s.setLive p o v).spdmReady = s.spdmReady := rfl
@[simp] theorem State.setLive_sessions (s : State) (p o : Nat) (v : Word) : (s.setLive p o v).sessions = s.sessions := rfl
@[simp] theorem State.setLive_streams (s : State) (p o : Nat) (v : Word) : (s.setLive p o v).streams = s.streams := rfl
@[simp] theorem State.setLive_keyBase (s : State) (p o : Nat) (v : Word) : (s.setLive p o v).keyBase = s.keyBase := rfl
@[simp] theorem State.setLive_tap (s : State) (p o : Nat) (v : Word) : (s.setLive p o v).tap = s.tap := rfl
@[simp] theorem State.setLive_boundaryReg (s : State) (p o : Nat) (v : Word) : (s.setLive p o v).boundaryReg = s.boundaryReg := rfl
@[simp] theorem State.setLive_out (s : State) (p o : Nat) (v : Word) : (s.setLive p o v).out = s.out := rfl

/-! ### setStaged -/

@[simp] theorem State.setStaged_pending (s : State) (p o : Nat) (v : Word) : (s.setStaged p o v).pending = s.pending := rfl
@[simp] theorem State.setStaged_fresh (s : State) (p o : Nat) (v : Word) : (s.setStaged p o v).fresh = s.fresh := rfl
@[simp] theorem State.setStaged_mem (s : State) (p o : Nat) (v : Word) : (s.setStaged p o v).mem = s.mem := rfl
@[simp] theorem State.setStaged_near (s : State) (p o : Nat) (v : Word) : (s.setStaged p o v).near = s.near := rfl
@[simp] theorem State.setStaged_nearZero (s : State) (p o : Nat) (v : Word) : (s.setStaged p o v).nearZero = s.nearZero := rfl
@[simp] theorem State.setStaged_nearGen (s : State) (p o : Nat) (v : Word) : (s.setStaged p o v).nearGen = s.nearGen := rfl
@[simp] theorem State.setStaged_cxl (s : State) (p o : Nat) (v : Word) : (s.setStaged p o v).cxl = s.cxl := rfl
@[simp] theorem State.setStaged_cxlGen (s : State) (p o : Nat) (v : Word) : (s.setStaged p o v).cxlGen = s.cxlGen := rfl
@[simp] theorem State.setStaged_poison (s : State) (p o : Nat) (v : Word) : (s.setStaged p o v).poison = s.poison := rfl
@[simp] theorem State.setStaged_live (s : State) (p o : Nat) (v : Word) : (s.setStaged p o v).live = s.live := rfl
@[simp] theorem State.setStaged_applied (s : State) (p o : Nat) (v : Word) : (s.setStaged p o v).applied = s.applied := rfl
@[simp] theorem State.setStaged_snap (s : State) (p o : Nat) (v : Word) : (s.setStaged p o v).snap = s.snap := rfl
@[simp] theorem State.setStaged_waiting (s : State) (p o : Nat) (v : Word) : (s.setStaged p o v).waiting = s.waiting := rfl
@[simp] theorem State.setStaged_commits (s : State) (p o : Nat) (v : Word) : (s.setStaged p o v).commits = s.commits := rfl
@[simp] theorem State.setStaged_errSeq (s : State) (p o : Nat) (v : Word) : (s.setStaged p o v).errSeq = s.errSeq := rfl
@[simp] theorem State.setStaged_latch (s : State) (p o : Nat) (v : Word) : (s.setStaged p o v).latch = s.latch := rfl
@[simp] theorem State.setStaged_cores (s : State) (p o : Nat) (v : Word) : (s.setStaged p o v).cores = s.cores := rfl
@[simp] theorem State.setStaged_halls (s : State) (p o : Nat) (v : Word) : (s.setStaged p o v).halls = s.halls := rfl
@[simp] theorem State.setStaged_banks (s : State) (p o : Nat) (v : Word) : (s.setStaged p o v).banks = s.banks := rfl
@[simp] theorem State.setStaged_rootTick (s : State) (p o : Nat) (v : Word) : (s.setStaged p o v).rootTick = s.rootTick := rfl
@[simp] theorem State.setStaged_window (s : State) (p o : Nat) (v : Word) : (s.setStaged p o v).window = s.window := rfl
@[simp] theorem State.setStaged_cxlLost (s : State) (p o : Nat) (v : Word) : (s.setStaged p o v).cxlLost = s.cxlLost := rfl
@[simp] theorem State.setStaged_posted (s : State) (p o : Nat) (v : Word) : (s.setStaged p o v).posted = s.posted := rfl
@[simp] theorem State.setStaged_ports (s : State) (p o : Nat) (v : Word) : (s.setStaged p o v).ports = s.ports := rfl
@[simp] theorem State.setStaged_mesh (s : State) (p o : Nat) (v : Word) : (s.setStaged p o v).mesh = s.mesh := rfl
@[simp] theorem State.setStaged_routing (s : State) (p o : Nat) (v : Word) : (s.setStaged p o v).routing = s.routing := rfl
@[simp] theorem State.setStaged_remote (s : State) (p o : Nat) (v : Word) : (s.setStaged p o v).remote = s.remote := rfl
@[simp] theorem State.setStaged_pendAcks (s : State) (p o : Nat) (v : Word) : (s.setStaged p o v).pendAcks = s.pendAcks := rfl
@[simp] theorem State.setStaged_posts (s : State) (p o : Nat) (v : Word) : (s.setStaged p o v).posts = s.posts := rfl
@[simp] theorem State.setStaged_vin (s : State) (p o : Nat) (v : Word) : (s.setStaged p o v).vin = s.vin := rfl
@[simp] theorem State.setStaged_tripped (s : State) (p o : Nat) (v : Word) : (s.setStaged p o v).tripped = s.tripped := rfl
@[simp] theorem State.setStaged_refLost (s : State) (p o : Nat) (v : Word) : (s.setStaged p o v).refLost = s.refLost := rfl
@[simp] theorem State.setStaged_scanHold (s : State) (p o : Nat) (v : Word) : (s.setStaged p o v).scanHold = s.scanHold := rfl
@[simp] theorem State.setStaged_recovery (s : State) (p o : Nat) (v : Word) : (s.setStaged p o v).recovery = s.recovery := rfl
@[simp] theorem State.setStaged_bridgeFail (s : State) (p o : Nat) (v : Word) : (s.setStaged p o v).bridgeFail = s.bridgeFail := rfl
@[simp] theorem State.setStaged_perst (s : State) (p o : Nat) (v : Word) : (s.setStaged p o v).perst = s.perst := rfl
@[simp] theorem State.setStaged_vfEnable (s : State) (p o : Nat) (v : Word) : (s.setStaged p o v).vfEnable = s.vfEnable := rfl
@[simp] theorem State.setStaged_pf0Flr (s : State) (p o : Nat) (v : Word) : (s.setStaged p o v).pf0Flr = s.pf0Flr := rfl
@[simp] theorem State.setStaged_lastInt (s : State) (p o : Nat) (v : Word) : (s.setStaged p o v).lastInt = s.lastInt := rfl
@[simp] theorem State.setStaged_ceilAt (s : State) (p o : Nat) (v : Word) : (s.setStaged p o v).ceilAt = s.ceilAt := rfl
@[simp] theorem State.setStaged_alertAt (s : State) (p o : Nat) (v : Word) : (s.setStaged p o v).alertAt = s.alertAt := rfl
@[simp] theorem State.setStaged_col0 (s : State) (p o : Nat) (v : Word) : (s.setStaged p o v).col0 = s.col0 := rfl
@[simp] theorem State.setStaged_cfgBar (s : State) (p o : Nat) (v : Word) : (s.setStaged p o v).cfgBar = s.cfgBar := rfl
@[simp] theorem State.setStaged_bar2Wait (s : State) (p o : Nat) (v : Word) : (s.setStaged p o v).bar2Wait = s.bar2Wait := rfl
@[simp] theorem State.setStaged_capRun (s : State) (p o : Nat) (v : Word) : (s.setStaged p o v).capRun = s.capRun := rfl
@[simp] theorem State.setStaged_pwrWin (s : State) (p o : Nat) (v : Word) : (s.setStaged p o v).pwrWin = s.pwrWin := rfl
@[simp] theorem State.setStaged_flash (s : State) (p o : Nat) (v : Word) : (s.setStaged p o v).flash = s.flash := rfl
@[simp] theorem State.setStaged_slotErased (s : State) (p o : Nat) (v : Word) : (s.setStaged p o v).slotErased = s.slotErased := rfl
@[simp] theorem State.setStaged_blown (s : State) (p o : Nat) (v : Word) : (s.setStaged p o v).blown = s.blown := rfl
@[simp] theorem State.setStaged_keeper (s : State) (p o : Nat) (v : Word) : (s.setStaged p o v).keeper = s.keeper := rfl
@[simp] theorem State.setStaged_privKey (s : State) (p o : Nat) (v : Word) : (s.setStaged p o v).privKey = s.privKey := rfl
@[simp] theorem State.setStaged_secretShut (s : State) (p o : Nat) (v : Word) : (s.setStaged p o v).secretShut = s.secretShut := rfl
@[simp] theorem State.setStaged_updLog (s : State) (p o : Nat) (v : Word) : (s.setStaged p o v).updLog = s.updLog := rfl
@[simp] theorem State.setStaged_updAt (s : State) (p o : Nat) (v : Word) : (s.setStaged p o v).updAt = s.updAt := rfl
@[simp] theorem State.setStaged_pldmUpd (s : State) (p o : Nat) (v : Word) : (s.setStaged p o v).pldmUpd = s.pldmUpd := rfl
@[simp] theorem State.setStaged_activating (s : State) (p o : Nat) (v : Word) : (s.setStaged p o v).activating = s.activating := rfl
@[simp] theorem State.setStaged_spdmReady (s : State) (p o : Nat) (v : Word) : (s.setStaged p o v).spdmReady = s.spdmReady := rfl
@[simp] theorem State.setStaged_sessions (s : State) (p o : Nat) (v : Word) : (s.setStaged p o v).sessions = s.sessions := rfl
@[simp] theorem State.setStaged_streams (s : State) (p o : Nat) (v : Word) : (s.setStaged p o v).streams = s.streams := rfl
@[simp] theorem State.setStaged_keyBase (s : State) (p o : Nat) (v : Word) : (s.setStaged p o v).keyBase = s.keyBase := rfl
@[simp] theorem State.setStaged_tap (s : State) (p o : Nat) (v : Word) : (s.setStaged p o v).tap = s.tap := rfl
@[simp] theorem State.setStaged_boundaryReg (s : State) (p o : Nat) (v : Word) : (s.setStaged p o v).boundaryReg = s.boundaryReg := rfl
@[simp] theorem State.setStaged_out (s : State) (p o : Nat) (v : Word) : (s.setStaged p o v).out = s.out := rfl

/-! ### Fields of a thread -/

@[simp] theorem Thread.setReg_run (t : Thread) (r : BitVec 5) (v : Word) : (t.setReg r v).run = t.run := by unfold Thread.setReg; split <;> rfl
@[simp] theorem Thread.setReg_wait (t : Thread) (r : BitVec 5) (v : Word) : (t.setReg r v).wait = t.wait := by unfold Thread.setReg; split <;> rfl
@[simp] theorem Thread.setReg_ring (t : Thread) (r : BitVec 5) (v : Word) : (t.setReg r v).ring = t.ring := by unfold Thread.setReg; split <;> rfl
@[simp] theorem Thread.setReg_prio (t : Thread) (r : BitVec 5) (v : Word) : (t.setReg r v).prio = t.prio := by unfold Thread.setReg; split <;> rfl
@[simp] theorem Thread.setReg_pc (t : Thread) (r : BitVec 5) (v : Word) : (t.setReg r v).pc = t.pc := by unfold Thread.setReg; split <;> rfl
@[simp] theorem Thread.setReg_segs (t : Thread) (r : BitVec 5) (v : Word) : (t.setReg r v).segs = t.segs := by unfold Thread.setReg; split <;> rfl
@[simp] theorem Thread.setReg_rsEntry (t : Thread) (r : BitVec 5) (v : Word) : (t.setReg r v).rsEntry = t.rsEntry := by unfold Thread.setReg; split <;> rfl
@[simp] theorem Thread.setReg_rsTop (t : Thread) (r : BitVec 5) (v : Word) : (t.setReg r v).rsTop = t.rsTop := by unfold Thread.setReg; split <;> rfl
@[simp] theorem Thread.setReg_rsDepth (t : Thread) (r : BitVec 5) (v : Word) : (t.setReg r v).rsDepth = t.rsDepth := by unfold Thread.setReg; split <;> rfl
@[simp] theorem Thread.setReg_rsWrap (t : Thread) (r : BitVec 5) (v : Word) : (t.setReg r v).rsWrap = t.rsWrap := by unfold Thread.setReg; split <;> rfl
@[simp] theorem Thread.setReg_ev (t : Thread) (r : BitVec 5) (v : Word) : (t.setReg r v).ev = t.ev := by unfold Thread.setReg; split <;> rfl
@[simp] theorem Thread.setReg_inh (t : Thread) (r : BitVec 5) (v : Word) : (t.setReg r v).inh = t.inh := by unfold Thread.setReg; split <;> rfl
@[simp] theorem Thread.setReg_df (t : Thread) (r : BitVec 5) (v : Word) : (t.setReg r v).df = t.df := by unfold Thread.setReg; split <;> rfl
@[simp] theorem Thread.setReg_inten (t : Thread) (r : BitVec 5) (v : Word) : (t.setReg r v).inten = t.inten := by unfold Thread.setReg; split <;> rfl
@[simp] theorem Thread.setReg_intpend (t : Thread) (r : BitVec 5) (v : Word) : (t.setReg r v).intpend = t.intpend := by unfold Thread.setReg; split <;> rfl
@[simp] theorem Thread.setReg_tmrcmp (t : Thread) (r : BitVec 5) (v : Word) : (t.setReg r v).tmrcmp = t.tmrcmp := by unfold Thread.setReg; split <;> rfl
@[simp] theorem Thread.setReg_cycLatch (t : Thread) (r : BitVec 5) (v : Word) : (t.setReg r v).cycLatch = t.cycLatch := by unfold Thread.setReg; split <;> rfl
@[simp] theorem Thread.setReg_loads (t : Thread) (r : BitVec 5) (v : Word) : (t.setReg r v).loads = t.loads := by unfold Thread.setReg; split <;> rfl
@[simp] theorem Thread.setReg_rep (t : Thread) (r : BitVec 5) (v : Word) : (t.setReg r v).rep = t.rep := by unfold Thread.setReg; split <;> rfl
@[simp] theorem Thread.setReg_replCnt (t : Thread) (r : BitVec 5) (v : Word) : (t.setReg r v).replCnt = t.replCnt := by unfold Thread.setReg; split <;> rfl
@[simp] theorem Thread.setReg_ticket (t : Thread) (r : BitVec 5) (v : Word) : (t.setReg r v).ticket = t.ticket := by unfold Thread.setReg; split <;> rfl
@[simp] theorem Thread.setReg_staging (t : Thread) (r : BitVec 5) (v : Word) : (t.setReg r v).staging = t.staging := by unfold Thread.setReg; split <;> rfl
@[simp] theorem Thread.setReg_openCh (t : Thread) (r : BitVec 5) (v : Word) : (t.setReg r v).openCh = t.openCh := by unfold Thread.setReg; split <;> rfl
@[simp] theorem Thread.setReg_dfPend (t : Thread) (r : BitVec 5) (v : Word) : (t.setReg r v).dfPend = t.dfPend := by unfold Thread.setReg; split <;> rfl
@[simp] theorem Thread.setReg_haltReq (t : Thread) (r : BitVec 5) (v : Word) : (t.setReg r v).haltReq = t.haltReq := by unfold Thread.setReg; split <;> rfl
@[simp] theorem Thread.setReg_deliverReq (t : Thread) (r : BitVec 5) (v : Word) : (t.setReg r v).deliverReq = t.deliverReq := by unfold Thread.setReg; split <;> rfl
@[simp] theorem Thread.setReg_badAir (t : Thread) (r : BitVec 5) (v : Word) : (t.setReg r v).badAir = t.badAir := by unfold Thread.setReg; split <;> rfl
@[simp] theorem Thread.setReg_late (t : Thread) (r : BitVec 5) (v : Word) : (t.setReg r v).late = t.late := by unfold Thread.setReg; split <;> rfl
@[simp] theorem Thread.setSeg_run (t : Thread) (n : Nat) (v : SegImage) : (t.setSeg n v).run = t.run := rfl
@[simp] theorem Thread.setSeg_wait (t : Thread) (n : Nat) (v : SegImage) : (t.setSeg n v).wait = t.wait := rfl
@[simp] theorem Thread.setSeg_ring (t : Thread) (n : Nat) (v : SegImage) : (t.setSeg n v).ring = t.ring := rfl
@[simp] theorem Thread.setSeg_prio (t : Thread) (n : Nat) (v : SegImage) : (t.setSeg n v).prio = t.prio := rfl
@[simp] theorem Thread.setSeg_pc (t : Thread) (n : Nat) (v : SegImage) : (t.setSeg n v).pc = t.pc := rfl
@[simp] theorem Thread.setSeg_regs (t : Thread) (n : Nat) (v : SegImage) : (t.setSeg n v).regs = t.regs := rfl
@[simp] theorem Thread.setSeg_rsEntry (t : Thread) (n : Nat) (v : SegImage) : (t.setSeg n v).rsEntry = t.rsEntry := rfl
@[simp] theorem Thread.setSeg_rsTop (t : Thread) (n : Nat) (v : SegImage) : (t.setSeg n v).rsTop = t.rsTop := rfl
@[simp] theorem Thread.setSeg_rsDepth (t : Thread) (n : Nat) (v : SegImage) : (t.setSeg n v).rsDepth = t.rsDepth := rfl
@[simp] theorem Thread.setSeg_rsWrap (t : Thread) (n : Nat) (v : SegImage) : (t.setSeg n v).rsWrap = t.rsWrap := rfl
@[simp] theorem Thread.setSeg_ev (t : Thread) (n : Nat) (v : SegImage) : (t.setSeg n v).ev = t.ev := rfl
@[simp] theorem Thread.setSeg_inh (t : Thread) (n : Nat) (v : SegImage) : (t.setSeg n v).inh = t.inh := rfl
@[simp] theorem Thread.setSeg_df (t : Thread) (n : Nat) (v : SegImage) : (t.setSeg n v).df = t.df := rfl
@[simp] theorem Thread.setSeg_inten (t : Thread) (n : Nat) (v : SegImage) : (t.setSeg n v).inten = t.inten := rfl
@[simp] theorem Thread.setSeg_intpend (t : Thread) (n : Nat) (v : SegImage) : (t.setSeg n v).intpend = t.intpend := rfl
@[simp] theorem Thread.setSeg_tmrcmp (t : Thread) (n : Nat) (v : SegImage) : (t.setSeg n v).tmrcmp = t.tmrcmp := rfl
@[simp] theorem Thread.setSeg_cycLatch (t : Thread) (n : Nat) (v : SegImage) : (t.setSeg n v).cycLatch = t.cycLatch := rfl
@[simp] theorem Thread.setSeg_loads (t : Thread) (n : Nat) (v : SegImage) : (t.setSeg n v).loads = t.loads := rfl
@[simp] theorem Thread.setSeg_rep (t : Thread) (n : Nat) (v : SegImage) : (t.setSeg n v).rep = t.rep := rfl
@[simp] theorem Thread.setSeg_replCnt (t : Thread) (n : Nat) (v : SegImage) : (t.setSeg n v).replCnt = t.replCnt := rfl
@[simp] theorem Thread.setSeg_ticket (t : Thread) (n : Nat) (v : SegImage) : (t.setSeg n v).ticket = t.ticket := rfl
@[simp] theorem Thread.setSeg_staging (t : Thread) (n : Nat) (v : SegImage) : (t.setSeg n v).staging = t.staging := rfl
@[simp] theorem Thread.setSeg_openCh (t : Thread) (n : Nat) (v : SegImage) : (t.setSeg n v).openCh = t.openCh := rfl
@[simp] theorem Thread.setSeg_dfPend (t : Thread) (n : Nat) (v : SegImage) : (t.setSeg n v).dfPend = t.dfPend := rfl
@[simp] theorem Thread.setSeg_haltReq (t : Thread) (n : Nat) (v : SegImage) : (t.setSeg n v).haltReq = t.haltReq := rfl
@[simp] theorem Thread.setSeg_deliverReq (t : Thread) (n : Nat) (v : SegImage) : (t.setSeg n v).deliverReq = t.deliverReq := rfl
@[simp] theorem Thread.setSeg_badAir (t : Thread) (n : Nat) (v : SegImage) : (t.setSeg n v).badAir = t.badAir := rfl
@[simp] theorem Thread.setSeg_late (t : Thread) (n : Nat) (v : SegImage) : (t.setSeg n v).late = t.late := rfl

/-! ### Registers -/

/-- s0 reads zero and discards writes; any other register reads what was written (R181). -/
theorem Thread.reg_setReg (t : Thread) (r q : BitVec 5) (v : Word) :
    (t.setReg r v).reg q = if q = 0 then 0 else if q = r then v else t.reg q := by
  unfold Thread.reg Thread.setReg
  by_cases hq : q = 0
  · simp [hq]
  · by_cases hr : r = 0
    · subst hr
      have h : ¬q = 0#5 := hq
      simp [h]
    · simp only [hq, hr, if_false, SMap.get_set, BitVec.toNat_inj]

@[simp] theorem Thread.reg_zero (t : Thread) : t.reg 0 = 0 := by simp [Thread.reg]

/-! ### Cores and threads -/

@[simp] theorem State.core_setCore_self (s : State) (c : CoreId) (k : Core) : (s.setCore c k).core c = k := by
  simp [State.core, State.setCore]

theorem State.core_setCore (s : State) (c d : CoreId) (k : Core) : (s.setCore c k).core d = if d = c then k else s.core d := by
  simp [State.core, State.setCore, SMap.get_set, Fin.val_inj]

theorem State.core_modCore (s : State) (c d : CoreId) (f : Core → Core) :
    (s.modCore c f).core d = if d = c then f (s.core c) else s.core d := State.core_setCore s c d _

@[simp] theorem State.core_modCore_self (s : State) (c : CoreId) (f : Core → Core) : (s.modCore c f).core c = f (s.core c) := by
  simp [State.modCore]

theorem Core.thread_setThread (k : Core) (t n : Fin 4) (v : Thread) : (k.setThread t v).thread n = if n = t then v else k.thread n := by
  simp [Core.thread, Core.setThread, SMap.get_set, Fin.val_inj]

@[simp] theorem State.thread_setThread_self (s : State) (x : Site) (v : Thread) : (s.setThread x v).thread x = v := by
  simp [State.thread, State.setThread, Core.thread_setThread]

@[simp] theorem State.thread_modThread_self (s : State) (x : Site) (f : Thread → Thread) :
    (s.modThread x f).thread x = f (s.thread x) := by simp [State.modThread]

theorem State.thread_setThread_ne (s : State) {x y : Site} (v : Thread) (h : y ≠ x) : (s.setThread x v).thread y = s.thread y := by
  unfold State.thread State.setThread
  rw [State.core_modCore]
  split
  · rename_i hc
    rw [Core.thread_setThread, if_neg, hc]
    intro ht
    apply h
    cases x; cases y
    simp_all
  · rfl

theorem State.thread_modThread_ne (s : State) {x y : Site} (f : Thread → Thread) (h : y ≠ x) :
    (s.modThread x f).thread y = s.thread y := State.thread_setThread_ne s _ h

/-! ### Halls -/

@[simp] theorem State.hall_setHall_self (s : State) (h : HallId) (v : Hall) : (s.setHall h v).hall h = v := by
  simp [State.hall, State.setHall]

theorem State.hall_setHall (s : State) (h g : HallId) (v : Hall) : (s.setHall h v).hall g = if g = h then v else s.hall g := by
  simp [State.hall, State.setHall, SMap.get_set, Fin.val_inj]

@[simp] theorem State.hall_modHall_self (s : State) (h : HallId) (f : Hall → Hall) : (s.modHall h f).hall h = f (s.hall h) := by
  simp [State.modHall]

theorem State.hall_modHall (s : State) (h g : HallId) (f : Hall → Hall) :
    (s.modHall h f).hall g = if g = h then f (s.hall h) else s.hall g := State.hall_setHall s h g _

@[simp] theorem State.hall_setCore (s : State) (c : CoreId) (k : Core) (h : HallId) : (s.setCore c k).hall h = s.hall h := rfl
@[simp] theorem State.core_setHall (s : State) (h : HallId) (v : Hall) (c : CoreId) : (s.setHall h v).core c = s.core c := rfl
@[simp] theorem State.core_setLive (s : State) (p o : Nat) (v : Word) (c : CoreId) : (s.setLive p o v).core c = s.core c := rfl
@[simp] theorem State.hall_setLive (s : State) (p o : Nat) (v : Word) (h : HallId) : (s.setLive p o v).hall h = s.hall h := rfl
@[simp] theorem State.thread_setLive (s : State) (p o : Nat) (v : Word) (x : Site) : (s.setLive p o v).thread x = s.thread x := rfl
@[simp] theorem State.thread_setHall (s : State) (h : HallId) (v : Hall) (x : Site) : (s.setHall h v).thread x = s.thread x := rfl

/-! ### Control words -/

@[simp] theorem State.liveWord_setLive_self (s : State) (p o : Nat) (v : Word) : (s.setLive p o v).liveWord p o = v := by
  simp [State.liveWord, State.setLive]

theorem State.liveWord_setLive_ne (s : State) {p o q r : Nat} (v : Word) (h : widx q r ≠ widx p o) :
    (s.setLive p o v).liveWord q r = s.liveWord q r := by
  simp [State.liveWord, State.setLive, SMap.get_set_ne _ _ _ _ h]

@[simp] theorem State.liveWord_setCore (s : State) (c : CoreId) (k : Core) (p o : Nat) : (s.setCore c k).liveWord p o = s.liveWord p o :=
  rfl
@[simp] theorem State.liveWord_modCore (s : State) (c : CoreId) (f : Core → Core) (p o : Nat) :
    (s.modCore c f).liveWord p o = s.liveWord p o := rfl
@[simp] theorem State.liveWord_modThread (s : State) (x : Site) (f : Thread → Thread) (p o : Nat) :
    (s.modThread x f).liveWord p o = s.liveWord p o := rfl
@[simp] theorem State.liveWord_modHall (s : State) (h : HallId) (f : Hall → Hall) (p o : Nat) :
    (s.modHall h f).liveWord p o = s.liveWord p o := rfl
@[simp] theorem State.stagedWord_setStaged_self (s : State) (p o : Nat) (v : Word) : (s.setStaged p o v).stagedWord p o = v := by
  simp [State.stagedWord, State.setStaged]

end Sys2Proof.Machine
end

