-- ==== Sys2Proof/Laws/Settle.lean ====
section
/-!
SUPPORT. A quiet state stays as it is: settling it changes nothing; and which updates leave a state quiet.
-/
namespace Sys2Proof.Machine

theorem foldl_fixed {α β : Type} (f : β → α → β) (s : β) (l : List α) (h : ∀ a, a ∈ l → f s a = s) : l.foldl f s = s := by
  induction l with
  | nil => rfl
  | cons a t ih =>
    rw [List.foldl_cons, h a (by simp)]
    exact ih fun b hb => h b (by simp [hb])

/-! ### What is quiet in a quiet state -/

/-- What quiet means of a state. -/
theorem State.quiet_iff (s : State) : s.quiet = true ↔
    s.posted = [] ∧ s.cores.all (fun p => p.2.quiet) = true ∧ s.halls.all (fun p => p.2.quiet) = true ∧ s.pendAcks = []
      ∧ s.posts.all (fun p => p.2.isEmpty) = true ∧ s.bar2Wait = [] ∧ s.pf0Flr = false ∧ s.activating = false := by
  simp only [State.quiet, Bool.and_eq_true, List.isEmpty_iff, Bool.not_eq_true', and_assoc]

theorem State.quiet_core {s : State} (h : s.quiet = true) (c : CoreId) : (s.core c).quiet = true :=
  SMap.get_of_all Core.quiet s.cores c.val Core.zero ((State.quiet_iff s).1 h).2.1 (by decide)

theorem State.quiet_hall {s : State} (h : s.quiet = true) (g : HallId) : (s.hall g).quiet = true :=
  SMap.get_of_all Hall.quiet s.halls g.val Hall.zero ((State.quiet_iff s).1 h).2.2.1 (by decide)

theorem State.quiet_posted {s : State} (h : s.quiet = true) : s.posted = [] := ((State.quiet_iff s).1 h).1

theorem State.quiet_pendAcks {s : State} (h : s.quiet = true) : s.pendAcks = [] := ((State.quiet_iff s).1 h).2.2.2.1

theorem State.quiet_bar2Wait {s : State} (h : s.quiet = true) : s.bar2Wait = [] := ((State.quiet_iff s).1 h).2.2.2.2.2.1

theorem State.quiet_pf0Flr {s : State} (h : s.quiet = true) : s.pf0Flr = false := ((State.quiet_iff s).1 h).2.2.2.2.2.2.1

theorem State.quiet_activating {s : State} (h : s.quiet = true) : s.activating = false := ((State.quiet_iff s).1 h).2.2.2.2.2.2.2

theorem State.quiet_posts {s : State} (h : s.quiet = true) (g : HallId) : s.postsOf g = [] := by
  have := SMap.get_of_all (fun l : List Word => l.isEmpty) s.posts g.val [] ((State.quiet_iff s).1 h).2.2.2.2.1 rfl
  simpa [State.postsOf] using this

/-- What quiet means of a core. -/
theorem Core.quiet_iff (k : Core) : k.quiet = true ↔
    k.mq.entries = [] ∧ k.vq.entries = [] ∧ k.dq.entries = [] ∧ k.heldMem = [] ∧ k.heldCredits = [] ∧ k.fences = []
      ∧ ∀ p, p ∈ k.bar → p.2.holdSeq = none := by
  simp [Core.quiet, and_assoc]

/-- What quiet means of a hall. -/
theorem Hall.quiet_iff (v : Hall) : v.quiet = true ↔
    v.switching = false ∧ v.engines.all (fun p => !p.2.sig) = true ∧ v.nearWait = [] ∧ v.cairn = none ∧ v.faults = []
      ∧ v.readmitted = none ∧ v.resetting = false ∧ v.closing = false ∧ v.scrub = none ∧ v.task = none := by
  simp only [Hall.quiet, Bool.and_eq_true, List.isEmpty_iff, Option.isNone_iff_eq_none, Bool.not_eq_true', and_assoc]

/-! ### Settling a quiet state -/

theorem State.stepCore_quiet {s : State} {c : CoreId} (h : (s.core c).quiet = true) : s.stepCore c = none := by
  obtain ⟨hm, hv, -, hs, -⟩ := (Core.quiet_iff _).1 h
  simp [State.stepCore, State.stepMem, State.stepVq, State.stepMq, hm, hv, hs, inFlight]

theorem State.pumpN_quiet {s : State} {c : CoreId} (h : (s.core c).quiet = true) (n : Nat) : s.pumpN c n = s := by
  cases n <;> simp [State.pumpN, State.stepCore_quiet h]

theorem State.dropMet_quiet {s : State} {c : CoreId} (h : (s.core c).quiet = true) : s.dropMet c = s := by
  simp [State.dropMet, ((Core.quiet_iff _).1 h).2.2.2.2.2.1]

theorem State.settleCore_quiet {s : State} {c : CoreId} (h : (s.core c).quiet = true) : s.settleCore c = s := by
  obtain ⟨-, -, -, -, hc, -, hb⟩ := (Core.quiet_iff _).1 h
  have h1 : s.releaseCredits c = s := by simp [State.releaseCredits, hc]
  have h2 : s.releaseArrivals c = s := by
    unfold State.releaseArrivals
    apply foldl_fixed
    intro p hp
    simp [hb p hp]
  simp [State.settleCore, State.pump, State.pumpN_quiet h, State.dropMet_quiet h, h1, h2]

theorem State.engLate_quiet {s : State} {g : HallId} (h : (s.hall g).engines.all (fun p => !p.2.sig) = true) : s.engLate g = s := by
  have hs (n : Fin 9) (q : Fin 4) : (s.engRun g n q).sig = false := by
    have := SMap.get_of_all (fun r : EngRun => !r.sig) (s.hall g).engines (engKey n q) EngRun.idle h rfl
    simpa [State.engRun] using this
  unfold State.engLate
  refine foldl_fixed _ _ _ fun n _ => foldl_fixed _ _ _ fun q _ => ?_
  simp [hs n q]

theorem State.hallWork_quiet {s : State} {g : HallId} (h : (s.hall g).quiet = true) : s.hallWork g = s := by
  obtain ⟨h1, h2, -, h3, h4, h5, h6, h7, h8, h9⟩ := (Hall.quiet_iff _).1 h
  simp [State.hallWork, State.engLate_quiet h2, State.lateSwitch, State.cairnFail, State.spareWork, State.scrubBegin, State.keeperTask,
    h1, h3, h4, h5, h6, h7, h8, h9]

theorem State.nearWork_quiet {s : State} {g : HallId} (h : (s.hall g).quiet = true) : s.nearWork g = s := by
  simp [State.nearWork, ((Hall.quiet_iff _).1 h).2.2.1]

theorem State.keeperWork_quiet {s : State} (h : s.quiet = true) : s.keeperWork = s := by
  unfold State.keeperWork
  rw [foldl_fixed _ _ _ fun g _ => State.hallWork_quiet (State.quiet_hall h g)]
  simp [State.pf0Work, State.quiet_pf0Flr h]

theorem State.settleRound_quiet {s : State} (h : s.quiet = true) : s.settleRound = s := by
  have hp := State.quiet_posted h
  have ha : s.releaseAcks = s := by
    simp only [State.releaseAcks, State.quiet_pendAcks h, List.filter_nil, List.foldl_nil]
    have := State.quiet_pendAcks h
    cases s
    simp_all
  have hpo : s.allPosts = s := by
    unfold State.allPosts
    apply foldl_fixed
    intro g _
    simp [State.quiet_posts h g, State.runPosts]
  simp only [State.settleRound, hp, List.length_nil, State.performPosted, State.keeperWork_quiet h]
  rw [show s.handoverWork = s by simp [State.handoverWork, State.quiet_activating h]]
  rw [foldl_fixed _ _ _ fun c _ => State.settleCore_quiet (State.quiet_core h c)]
  rw [foldl_fixed _ _ _ fun g _ => State.nearWork_quiet (State.quiet_hall h g)]
  simp only [State.quiet_bar2Wait h, List.length_nil, State.bar2Work, ha, hpo]

/-- Settling a quiet state changes nothing. -/
theorem State.settle_quiet {s : State} (h : s.quiet = true) : s.settle = s := by
  unfold State.settle
  simp [State.settleN, State.settleRound_quiet h, State.quiet_posted h]

/-! ### Updates that leave a state quiet -/

@[simp] theorem State.quiet_setLive (s : State) (p o : Nat) (v : Word) : (s.setLive p o v).quiet = s.quiet := rfl
@[simp] theorem State.quiet_setStaged (s : State) (p o : Nat) (v : Word) : (s.setStaged p o v).quiet = s.quiet := rfl
@[simp] theorem State.quiet_setField (s : State) (p o lo w v : Nat) : (s.setField p o lo w v).quiet = s.quiet := rfl
@[simp] theorem State.quiet_count64 (s : State) (p o n : Nat) : (s.count64 p o n).quiet = s.quiet := rfl
@[simp] theorem State.quiet_countSat (s : State) (p o n : Nat) : (s.countSat p o n).quiet = s.quiet := rfl

theorem State.quiet_emit (s : State) (o : Out) : (s.emit o).quiet = s.quiet := by
  unfold State.emit
  split <;> rfl

theorem State.quiet_setCore {s : State} (h : s.quiet = true) (c : CoreId) {k : Core} (hk : k.quiet = true) :
    (s.setCore c k).quiet = true := by
  obtain ⟨h1, h2, h3⟩ := (State.quiet_iff s).1 h
  exact (State.quiet_iff _).2 ⟨h1, SMap.all_set _ _ _ _ _ h2 hk, h3⟩

theorem State.quiet_modThread {s : State} (h : s.quiet = true) (x : Site) (f : Thread → Thread) :
    (s.modThread x f).quiet = true := State.quiet_setCore h _ (State.quiet_core h x.core)

theorem State.quiet_setHall {s : State} (h : s.quiet = true) (g : HallId) {v : Hall} (hv : v.quiet = true) :
    (s.setHall g v).quiet = true := by
  obtain ⟨h1, h2, h3, h4⟩ := (State.quiet_iff s).1 h
  exact (State.quiet_iff _).2 ⟨h1, h2, SMap.all_set _ _ _ _ _ h3 hv, h4⟩

theorem State.quiet_pend {s : State} (h : s.quiet = true) (x : Site) (v : Nat) : (s.pend x v).quiet = true :=
  State.quiet_modThread h x _

theorem State.quiet_foldl {α : Type} (f : State → α → State) (hf : ∀ s a, s.quiet = true → (f s a).quiet = true) (l : List α)
    {s : State} (h : s.quiet = true) : (l.foldl f s).quiet = true := by
  induction l generalizing s with
  | nil => exact h
  | cons a t ih => exact ih (hf s a h)

theorem State.quiet_raiseMsix (s : State) (fn e : Nat) : (s.raiseMsix fn e).quiet = s.quiet := by
  unfold State.raiseMsix
  dsimp only
  split
  · rfl
  · exact State.quiet_emit _ _

theorem State.quiet_hallNotice {s : State} (h : s.quiet = true) (g : HallId) : (s.hallNotice g).quiet = true := by
  unfold State.hallNotice
  rw [State.quiet_raiseMsix]
  exact State.quiet_foldl _ (fun s c hs => State.quiet_pend hs _ _) _ h

theorem State.quiet_notice {s : State} (h : s.quiet = true) (p b : Nat) : (s.notice p b).quiet = true := by
  unfold State.notice
  split
  · exact State.quiet_hallNotice h _
  · split
    · rw [State.quiet_raiseMsix]
      exact State.quiet_foldl _ (fun s g hs => State.quiet_hallNotice (by simpa [State.mirror] using hs) g) _ h
    · rw [State.quiet_raiseMsix]
      exact State.quiet_foldl _ (fun s g hs => State.quiet_hallNotice (by simpa [State.mirror] using hs) g) _ h
    · split
      · rwa [State.quiet_raiseMsix]
      · exact State.quiet_hallNotice h _
    · rwa [State.quiet_raiseMsix]

theorem State.quiet_errSeq (s : State) (q : BitVec 16) : ({ s with errSeq := q } : State).quiet = s.quiet := rfl

theorem State.quiet_ite {q : Prop} [Decidable q] {a b : State} (ha : a.quiet = true) (hb : b.quiet = true) :
    (if q then a else b).quiet = true := by split <;> assumption

theorem State.quiet_live {s : State} (h : s.quiet = true) (p o : Nat) (v : Word) : (s.setLive p o v).quiet = true := by
  rw [State.quiet_setLive]; exact h

/-- An error recorded leaves a quiet state quiet. -/
theorem State.quiet_recordErr {s : State} (h : s.quiet = true) (p b : Nat) (i : Bool) : (s.recordErr p b i).quiet = true := by
  have h0 : ∀ q, ({ s with errSeq := q } : State).quiet = true := fun q => by rw [State.quiet_errSeq]; exact h
  unfold State.recordErr
  apply State.quiet_ite
  · exact State.quiet_live (State.quiet_ite (State.quiet_live (h0 _) _ _ _) (h0 _)) _ _ _
  · exact State.quiet_notice (State.quiet_live (State.quiet_ite (State.quiet_live (h0 _) _ _ _) (h0 _)) _ _ _) _ _

/-! ### Outcomes -/

/-- An event of a running module answers what its effect leads to. -/
theorem leads_does {s : State} {f : State → State} {P : State → Prop} (hr : s.running = true) (h : P (f s)) :
    Leads (s.does f) P := ⟨f s, by simp [State.does, State.event, hr], h⟩

/-- An event whose effect leaves the state quiet answers just that effect. -/
theorem answers_does {s : State} {f : State → State} {P : State → Prop} (hr : s.running = true) (hq : (f s).quiet = true)
    (h : P (f s)) : Answers (s.does f) P :=
  ⟨f s, by simp [State.does, State.event, hr, State.settle_quiet hq], h⟩

/-- With a quiet effect, what leads also answers. -/
theorem leads_settled {o : Outcome} {t : State} {P : State → Prop} (ho : o = .next t) (h : P t) : Leads (settled o) P :=
  ⟨t, by simp [ho, settled], h⟩

theorem answers_settled {o : Outcome} {t : State} {P : State → Prop} (ho : o = .next t) (hq : t.quiet = true) (h : P t) :
    Answers (settled o) P := ⟨t, by simp [ho, settled, State.settle_quiet hq], h⟩

end Sys2Proof.Machine
end

