-- ==== Sys2Proof/Laws/Issue.lean ====
section
/-!
SUPPORT. What issue comes to when a thread is ready, and the frame of the ways in which an instruction ends.
-/
namespace Sys2Proof.Machine

theorem State.issueS_ready {s : State} {x : Site} {i : Instr} (h : s.ready x i = true) (f : State → Res) :
    s.issueS x i (trapOf (s.thread x).ring i) f = (f s).apply s x i := by
  simp only [State.ready, Bool.and_eq_true, Option.isNone_iff_eq_none, Bool.not_eq_true'] at h
  simp [State.issueS, h.1.1.1, h.1.1.2, h.1.2, h.2]

/-- A ready thread's instruction has its effect. -/
theorem State.run_ready {s : State} {x : Site} {i : Instr} (h : s.ready x i = true) (f : State → Res) :
    s.run x i f = .next ((f s).apply s x i) := by
  simp [State.run, State.issue, State.issueS_ready h]

/-! ### Frames -/

theorem State.modCore_modCore (s : State) (c : CoreId) (f g : Core → Core) :
    ((s.modCore c f).modCore c g).core c = g (f (s.core c)) := by simp

theorem State.sameOutside_modCore (s : State) (c : CoreId) (f : Core → Core) : s.sameOutside (s.modCore c f) c :=
  ⟨rfl, fun d hd => by rw [State.core_modCore, if_neg hd]⟩

theorem State.sameOutside_trans {s t u : State} {c : CoreId} (h : s.sameOutside t c) (k : t.sameOutside u c) : s.sameOutside u c :=
  ⟨k.1.trans h.1, fun d hd => (k.2 d hd).trans (h.2 d hd)⟩

theorem State.onlyThread_modThread (s : State) (x : Site) (f : Thread → Thread) : s.onlyThread (s.modThread x f) x := by
  refine ⟨State.sameOutside_modCore s _ _, ?_, fun n hn => State.thread_modThread_ne s f ?_⟩
  · rw [State.modThread, State.setThread, State.core_modCore_self]
    rfl
  · intro h
    exact hn (congrArg Site.thread h)

theorem State.thread_issued (s : State) (x y : Site) : (s.issued x).thread y = s.thread y := by
  unfold State.thread State.issued
  rw [State.core_modCore]
  split
  · rename_i h
    rw [h]
    rfl
  · rfl

theorem State.onlyThread_issued {s t : State} {x : Site} (h : s.onlyThread t x) : s.onlyThread (t.issued x) x := by
  obtain ⟨h1, h2, h3⟩ := h
  refine ⟨State.sameOutside_trans h1 (State.sameOutside_modCore t _ _), ?_, fun n hn => ?_⟩
  · rw [State.issued, State.core_modCore_self]
    exact h2
  · rw [State.thread_issued]
    exact h3 n hn

theorem State.onlyThread_trans {s t u : State} {x : Site} (h : s.onlyThread t x) (k : t.onlyThread u x) : s.onlyThread u x :=
  ⟨State.sameOutside_trans h.1 k.1, k.2.1.trans h.2.1, fun n hn => (k.2.2 n hn).trans (h.2.2 n hn)⟩

theorem State.onlyThread_refl (s : State) (x : Site) : s.onlyThread s x := ⟨⟨rfl, fun _ _ => rfl⟩, rfl, fun _ _ => rfl⟩

/-- An instruction that changes its thread by `g` and is then done. -/
theorem State.steps_retire (s : State) (x : Site) (g : Thread → Thread) : s.steps x g ((s.modThread x g).retire x) := by
  refine ⟨?_, ?_⟩
  · unfold State.retire
    exact State.onlyThread_issued (State.onlyThread_trans (State.onlyThread_modThread s x g) (State.onlyThread_modThread _ x _))
  · unfold State.retire
    rw [State.thread_issued, State.thread_modThread_self, State.thread_modThread_self]

/-- An instruction that changes its thread by `g` and sends it to `pc`. -/
theorem State.goes_jumpTo (s : State) (x : Site) (g : Thread → Thread) (pc : BitVec 16) :
    s.goes x g pc ((s.modThread x g).jumpTo x pc) := by
  refine ⟨?_, ?_⟩
  · unfold State.jumpTo
    exact State.onlyThread_issued (State.onlyThread_trans (State.onlyThread_modThread s x g) (State.onlyThread_modThread _ x _))
  · unfold State.jumpTo
    rw [State.thread_issued, State.thread_modThread_self, State.thread_modThread_self]

/-- A ready thread's instruction that changes its thread by `g` and sends it to `pc`. -/
theorem State.goes_run {s : State} {x : Site} {i : Instr} (h : s.ready x i = true) (g : Thread → Thread) (pc : BitVec 16)
    {f : State → Res} (hf : f s = .jump (s.modThread x g) pc) : Answers (s.run x i f) (s.goes x g pc) := by
  refine ⟨_, State.run_ready h f, ?_⟩
  rw [hf]
  exact State.goes_jumpTo s x g pc

/-- A ready thread's instruction that only sends it to `pc`. -/
theorem State.goes_run_id {s : State} {x : Site} {i : Instr} (h : s.ready x i = true) (pc : BitVec 16)
    {f : State → Res} (hf : f s = .jump s pc) : Answers (s.run x i f) (s.goes x id pc) := by
  refine ⟨_, State.run_ready h f, ?_⟩
  rw [hf]
  refine ⟨State.onlyThread_issued (State.onlyThread_modThread s x _), ?_⟩
  simp only [Res.apply, State.jumpTo, State.thread_issued, State.thread_modThread_self, id]

/-- An effect on the issuing core, seen thread by thread, of an instruction that is then done. -/
theorem State.ends_retire {s u : State} {x : Site} {g : Thread → Thread} {p : Core → Core} (h1 : s.sameOutside u x.core)
    (h2 : p (u.core x.core).bare = p (s.core x.core).bare)
    (h3 : ∀ n, n ≠ x.thread → u.thread ⟨x.core, n⟩ = s.thread ⟨x.core, n⟩) (h4 : u.thread x = g (s.thread x)) :
    s.ends x g p (u.retire x) := by
  obtain ⟨k1, k2, k3⟩ := State.onlyThread_issued (State.onlyThread_modThread u x Thread.retire)
  refine ⟨State.sameOutside_trans h1 k1, ?_, fun n hn => (k3 n hn).trans (h3 n hn), ?_⟩
  · rw [← h2]
    exact congrArg p k2
  · unfold State.retire
    rw [State.thread_issued, State.thread_modThread_self, h4]

/-- The frame of an instruction that gives a scalar result and nothing else. -/
theorem State.gives_compute {s : State} {x : Site} {i : Instr} (h : s.ready x i = true) (rd : BitVec 5) (v : State → Word) :
    Answers (s.compute x i rd v) (s.gives x rd (v s)) := by
  refine ⟨_, ?_, State.steps_retire s x _⟩
  rw [State.compute, State.run_ready h]
  rfl

/-! ### Whole instructions -/

/-- A ready thread's instruction that leaves `u`: it ends, with `g` done to its thread. -/
theorem State.run_ends {s u : State} {x : Site} {i : Instr} (h : s.ready x i = true) {f : State → Res} (hf : f s = .done u)
    {g : Thread → Thread} {p : Core → Core} (h1 : s.sameOutside u x.core)
    (h2 : p (u.core x.core).bare = p (s.core x.core).bare)
    (h3 : ∀ n, n ≠ x.thread → u.thread ⟨x.core, n⟩ = s.thread ⟨x.core, n⟩) (h4 : u.thread x = g (s.thread x))
    {Q : State → Prop} (hQ : Q (u.retire x)) :
    Answers (s.run x i f) fun t => s.ends x g p t ∧ Q t := by
  refine ⟨_, State.run_ready h f, ?_⟩
  rw [hf]
  exact ⟨State.ends_retire h1 h2 h3 h4, hQ⟩

/-- A ready thread's instruction whose effect is on its thread alone. -/
theorem State.steps_run {s : State} {x : Site} {i : Instr} (h : s.ready x i = true) (g : Thread → Thread)
    {f : State → Res} (hf : f s = .done (s.modThread x g)) : Answers (s.run x i f) (s.steps x g) := by
  refine ⟨_, State.run_ready h f, ?_⟩
  rw [hf]
  exact State.steps_retire s x g

/-- A ready thread's instruction without an effect. -/
theorem State.steps_run_id {s : State} {x : Site} {i : Instr} (h : s.ready x i = true)
    {f : State → Res} (hf : f s = .done s) : Answers (s.run x i f) (s.steps x id) := by
  refine ⟨_, State.run_ready h f, ?_⟩
  rw [hf]
  exact ⟨State.onlyThread_issued (State.onlyThread_modThread s x _), by simp [Res.apply, State.retire, State.thread_issued]⟩

theorem State.com_retire (s : State) (x : Site) (c : CoreId) (m : Nat) : ((s.retire x).core c).com m = (s.core c).com m := by
  simp only [State.retire, State.issued, State.modThread, State.setThread, State.core_modCore, Core.com]
  split
  · rename_i h; subst h; rfl
  · rfl

end Sys2Proof.Machine
end

