-- ==== Sys2Proof/Laws/QueueRun.lean ====
section
/-!
SUPPORT. A queue instruction issued into the idle engine of a quiet core runs within its own command: what it answers is the run of
its entry, with the entry gone.
-/
namespace Sys2Proof.Machine

/-- The state in which an entry runs: it is in its queue, and its thread has gone on. -/
def State.entered (s : State) (x : Site) (i : Instr) (vals : List Word) (segs : List SegImage) : State :=
  (s.setCore x.core ((s.core x.core).setQueue (queueOf i)
    { (s.core x.core).queue (queueOf i) with
      entries := ((s.core x.core).queue (queueOf i)).entries ++ [s.entryOf x i vals segs] })).retire x

theorem State.queueIn_ready {s : State} {x : Site} {i : Instr} (h : s.ready x i = true) (vals : State → List Word)
    (segs : State → List SegImage)
    (hc : ((s.core x.core).queue (queueOf i)).entries.length < queueCap (queueOf i)) :
    s.queueIn x i vals segs = .next (s.entered x i (vals s) (segs s)).settle := by
  unfold State.queueIn
  rw [State.run_ready h]
  simp only [State.enqueue, if_neg (Nat.not_le.2 hc), Res.apply, settled, State.entered]

/-! ### One core that is not quiet -/

/-- Everything but core `c` is quiet. -/
def State.quietBut (s : State) (c : CoreId) : Prop :=
  s.posted = [] ∧ (∀ d, d ≠ c → (s.core d).quiet = true) ∧ (∀ g, (s.hall g).quiet = true) ∧ s.pendAcks = []
    ∧ (∀ g, s.postsOf g = []) ∧ s.bar2Wait = [] ∧ s.pf0Flr = false ∧ s.activating = false

theorem State.quietBut_of_quiet {s : State} (h : s.quiet = true) (c : CoreId) : s.quietBut c :=
  ⟨State.quiet_posted h, fun d _ => State.quiet_core h d, fun g => State.quiet_hall h g, State.quiet_pendAcks h,
    fun g => State.quiet_posts h g, State.quiet_bar2Wait h, State.quiet_pf0Flr h, State.quiet_activating h⟩

theorem State.quietBut_modCore {s : State} {c : CoreId} (h : s.quietBut c) (f : Core → Core) : (s.modCore c f).quietBut c :=
  ⟨h.1, fun d hd => by rw [State.core_modCore, if_neg hd]; exact h.2.1 d hd, h.2.2⟩

theorem State.quietBut_retire {s : State} {x : Site} (h : s.quietBut x.core) : (s.retire x).quietBut x.core :=
  State.quietBut_modCore (State.quietBut_modCore h _) _

theorem State.quietBut_entered {s : State} (h : s.quiet = true) (x : Site) (i : Instr) (vals : List Word) (segs : List SegImage) :
    (s.entered x i vals segs).quietBut x.core :=
  State.quietBut_retire (State.quietBut_modCore (State.quietBut_of_quiet h _) fun _ => _)

theorem State.keeperWork_fixed {s : State} (h : ∀ g, (s.hall g).quiet = true) (hp : s.pf0Flr = false) : s.keeperWork = s := by
  unfold State.keeperWork
  rw [foldl_fixed _ _ _ fun g _ => State.hallWork_quiet (h g)]
  simp [State.pf0Work, hp]

theorem foldl_once {α β : Type} [DecidableEq α] (f : β → α → β) (s t : β) (a : α) (l : List α) (ha : a ∈ l) (hs : f s a = t)
    (hn : ∀ b, b ≠ a → f s b = s) (ht : ∀ b, f t b = t) : l.foldl f s = t := by
  induction l with
  | nil => simp at ha
  | cons b r ih =>
    rw [List.foldl_cons]
    by_cases h : b = a
    · subst h
      rw [hs]
      exact foldl_fixed f t r fun b _ => ht b
    · rw [hn b h]
      exact ih (by simpa [Ne.symm h] using ha)

theorem SMap.mem_keys_put {α : Type} (m : SMap α) (k : Nat) (v : α) : k ∈ (SMap.put m k v).map fun p => p.1 := by
  induction m with
  | nil => simp [SMap.put]
  | cons p t ih =>
    obtain ⟨a, b⟩ := p
    simp only [SMap.put]
    split
    · simp
    · split
      · simp
      · simp only [List.map_cons, List.mem_cons]
        exact Or.inr ih

theorem SMap.mem_keys_of_get {α : Type} (m : SMap α) (k : Nat) (d : α) (h : SMap.get m k d ≠ d) : k ∈ m.map fun p => p.1 := by
  induction m with
  | nil => simp [SMap.get] at h
  | cons p t ih =>
    obtain ⟨a, b⟩ := p
    simp only [List.map_cons, List.mem_cons]
    by_cases hk : k = a
    · exact Or.inl hk
    · right
      apply ih
      simpa [SMap.get, SMap.find?, hk] using h

theorem State.mem_listedCores {s : State} {c : CoreId} (h : s.core c ≠ Core.zero) : c ∈ s.listedCores := by
  have := SMap.mem_keys_of_get s.cores c.val Core.zero h
  simp only [State.listedCores, List.mem_map] at this ⊢
  obtain ⟨p, hp, he⟩ := this
  exact ⟨p, hp, by rw [he]; exact Fin.ofNat_val_eq_self c⟩

theorem State.settleRound_fixed {s : State} (h : s.quiet = true) : s.settleRound = s := State.settleRound_quiet h

/-- A state that is quiet but for one core, which comes to rest in a quiet state, settles to that state. -/
theorem State.settle_one {s t : State} {c : CoreId} (h : s.quietBut c) (hc : s.core c ≠ Core.zero) (hp : s.pump c = t)
    (ht : t.quiet = true) : s.settle = t := by
  obtain ⟨h1, h2, h3, h4, h5, h0, h6, h7⟩ := h
  have hcore : s.settleCore c = t := by
    have : t.settleCore c = t := State.settleCore_quiet (State.quiet_core ht c)
    have hpump : t.pump c = t := by
      simp [State.pump, State.pumpN_quiet (State.quiet_core ht c), State.dropMet_quiet (State.quiet_core ht c)]
    rw [State.settleCore, hpump] at this
    rw [State.settleCore, hp]
    exact this
  have hfold : s.listedCores.foldl (fun s c => s.settleCore c) s = t :=
    foldl_once _ s t c _ (State.mem_listedCores hc) hcore (fun d hd => State.settleCore_quiet (h2 d hd))
      fun d => State.settleCore_quiet (State.quiet_core ht d)
  have hr : s.settleRound = t := by
    have e1 : s.performPosted s.posted.length = s := by rw [h1]; rfl
    have e2 : s.keeperWork = s := State.keeperWork_fixed h3 h6
    have e3 : s.handoverWork = s := by simp [State.handoverWork, h7]
    have e4 := State.settleRound_quiet ht
    have e5 : (((List.finRange 8).foldl (fun s h => s.nearWork h) t).bar2Work
        ((List.finRange 8).foldl (fun s h => s.nearWork h) t).bar2Wait.length).releaseAcks.allPosts = t := by
      have q1 := State.quiet_posted ht
      simp only [State.settleRound, q1, List.length_nil, State.performPosted, State.keeperWork_quiet ht] at e4
      rw [show t.handoverWork = t by simp [State.handoverWork, State.quiet_activating ht]] at e4
      rwa [foldl_fixed _ _ _ fun c _ => State.settleCore_quiet (State.quiet_core ht c)] at e4
    simp only [State.settleRound, e1, e2, e3, hfold, e5]
  unfold State.settle
  simp [State.settleN, hr, State.quiet_posted ht]

/-- A core that can do one thing, after which it is quiet. -/
theorem State.pump_one {s t : State} {c : CoreId} (hw : 0 < (s.core c).work) (h1 : s.stepCore c = some t)
    (ht : t.quiet = true) : s.pump c = t := by
  obtain ⟨n, hn⟩ : ∃ n, (s.core c).work = n + 1 := ⟨(s.core c).work - 1, by omega⟩
  simp [State.pump, hn, State.pumpN, h1, State.pumpN_quiet (State.quiet_core ht c), State.dropMet_quiet (State.quiet_core ht c)]

/-! ### The vector and the matrix queue -/

theorem State.core_entered (s : State) (x : Site) (i : Instr) (vals : List Word) (segs : List SegImage) :
    (s.entered x i vals segs).core x.core =
      { ((s.core x.core).setQueue (queueOf i)
          { (s.core x.core).queue (queueOf i) with
            entries := ((s.core x.core).queue (queueOf i)).entries ++ [s.entryOf x i vals segs] }).setThread x.thread
          (s.thread x).retire with
        issueSeq := (s.core x.core).issueSeq + 1
        lastIssue := SMap.set (s.core x.core).lastIssue x.thread.val 0 ((s.core x.core).issueSeq + 1) } := by
  simp only [State.entered, State.retire, State.issued, State.core_modCore_self, State.modThread, State.setThread, State.core_setCore_self,
    Core.issued]
  have ht : (s.setCore x.core ((s.core x.core).setQueue (queueOf i)
      { (s.core x.core).queue (queueOf i) with
        entries := ((s.core x.core).queue (queueOf i)).entries ++ [s.entryOf x i vals segs] })).thread x = s.thread x := by
    simp only [State.thread, State.core_setCore_self]
    unfold Core.setQueue
    split <;> rfl
  rw [ht]
  unfold Core.setQueue Core.setThread
  split <;> rfl

/-- A vector instruction issued into an idle vector engine runs at once. -/
theorem State.queueIn_vector {s : State} {x : Site} {i : Instr} (h : s.ready x i = true) (hq : s.quiet = true)
    (hs : (s.core x.core).vq.stop = none) (hi : queueOf i = 1) (vals : State → List Word) (segs : State → List SegImage)
    {t : State} (hrun : (s.entered x i (vals s) (segs s)).runVector x.core (s.entryOf x i (vals s) (segs s)) = .done t)
    (ht : (t.modCore x.core fun k => k.popQ 1).quiet = true) :
    s.queueIn x i vals segs = .next (t.modCore x.core fun k => k.popQ 1) := by
  obtain ⟨hm, hv, hd, hst, hcr, hf, hb⟩ := (Core.quiet_iff _).1 (State.quiet_core hq x.core)
  have hk := State.core_entered s x i (vals s) (segs s)
  rw [hi] at hk
  simp only [Core.setQueue, Core.queue, hv, List.nil_append, Core.setThread] at hk
  rw [State.queueIn_ready h vals segs (by rw [hi]; simp [Core.queue, hv, queueCap])]
  refine congrArg _ (State.settle_one (State.quietBut_entered hq x i _ _) ?_ (State.pump_one ?_ ?_ ht) ht)
  · rw [hk]
    intro he
    exact absurd (congrArg (fun k => k.vq.entries) he) (by simp [Core.zero, Queue.empty])
  · simp [Core.work]
  · have hvq : ((s.entered x i (vals s) (segs s)).core x.core).vq =
        ⟨[s.entryOf x i (vals s) (segs s)], none, (s.core x.core).vq.byMove⟩ := by
      rw [hk]
      simp [hs]
    have hmq : ((s.entered x i (vals s) (segs s)).core x.core).mq.entries = [] := by rw [hk]; exact hm
    have hfe : ((s.entered x i (vals s) (segs s)).core x.core).fences = [] := by rw [hk]; exact hf
    have hhs : ((s.entered x i (vals s) (segs s)).core x.core).heldMem = [] := by rw [hk]; exact hst
    have hheld : (s.entered x i (vals s) (segs s)).vecHeld x.core (s.entryOf x i (vals s) (segs s)) = false := by
      simp [State.vecHeld, State.fenced, hfe, hmq]
    simp [State.stepCore, State.stepMem, hhs, State.stepVq, hvq, hheld, hrun]

/-- A matrix instruction other than MMA issued into an idle matrix engine runs at once. -/
theorem State.queueIn_matrix {s : State} {x : Site} {i : Instr} (h : s.ready x i = true) (hq : s.quiet = true)
    (hs : (s.core x.core).mq.stop = none) (hm : (s.core x.core).mq.byMove = none) (hi : queueOf i = 0) (hn : ∀ y f, i ≠ .mma y f) (vals : State → List Word)
    (segs : State → List SegImage)
    {t : State} (hrun : (s.entered x i (vals s) (segs s)).runMatrix x.core (s.entryOf x i (vals s) (segs s)) = .done t)
    (ht : (t.modCore x.core fun k => k.popQ 0).quiet = true) :
    s.queueIn x i vals segs = .next (t.modCore x.core fun k => k.popQ 0) := by
  obtain ⟨hme, hv, hd, hst, hcr, hf, hb⟩ := (Core.quiet_iff _).1 (State.quiet_core hq x.core)
  have hk := State.core_entered s x i (vals s) (segs s)
  rw [hi] at hk
  simp only [Core.setQueue, Core.queue, hme, List.nil_append, Core.setThread] at hk
  rw [State.queueIn_ready h vals segs (by rw [hi]; simp [Core.queue, hme, queueCap])]
  refine congrArg _ (State.settle_one (State.quietBut_entered hq x i _ _) ?_ (State.pump_one ?_ ?_ ht) ht)
  · rw [hk]
    intro he
    exact absurd (congrArg (fun k => k.mq.entries) he) (by simp [Core.zero, Queue.empty])
  · simp [Core.work]
  · have hmq : ((s.entered x i (vals s) (segs s)).core x.core).mq =
        ⟨[s.entryOf x i (vals s) (segs s)], none, none⟩ := by
      rw [hk]
      simp [hs, hm]
    have hvq : ((s.entered x i (vals s) (segs s)).core x.core).vq.entries = [] := by rw [hk]; exact hv
    have hfe : ((s.entered x i (vals s) (segs s)).core x.core).fences = [] := by rw [hk]; exact hf
    have hhs : ((s.entered x i (vals s) (segs s)).core x.core).heldMem = [] := by rw [hk]; exact hst
    have hheld : (s.entered x i (vals s) (segs s)).matHeld x.core (s.entryOf x i (vals s) (segs s)) = false := by
      simp [State.matHeld, State.fenced, hfe, hvq]
    have hph : (s.entryOf x i (vals s) (segs s)).phase = .waiting := rfl
    have hin : inFlight [s.entryOf x i (vals s) (segs s)] = 0 := by simp [inFlight, hph]
    have hstep : (s.entered x i (vals s) (segs s)).stepMq x.core = some (t.modCore x.core fun k => k.popQ 0) := by
      simp only [State.stepMq, hmq, hin, List.getElem?_cons_zero, Queue.stops, hph, hheld]
      simp only [bne_self_eq_false, Bool.or_self, Bool.false_eq_true, if_false, Option.isSome_none]
      have hei : (s.entryOf x i (vals s) (segs s)).instr = i := rfl
      split
      · rename_i y f hy
        exact absurd (hei ▸ hy) (hn y f)
      · rw [hrun]
        simp
    simp [State.stepCore, State.stepMem, hhs, State.stepVq, hvq, hstep]

end Sys2Proof.Machine
end

