-- ==== Sys2Proof/Certificates/Slice0/Obligations.lean ====
section
/-! DEFINITION. The statements of this row: what the commands of the module do, by the numbered rules of the spec, and what every
step keeps. `Answers r P` says that `r` is a next state, and that it is one of `P`: each such conclusion is the completion of the
commands it names. What a command leaves as it was is said with the words of `Sys2Proof/Safety.lean` (`sameOutside`, `ends`, `puts`,
`stores` …). -/

open Sys2Proof Sys2Proof.Machine

/-- A step takes the command at the front of the queue and is its effect on the state with the queue's rest (the model's queue:
assumption log 6). -/
def Obligations.StepRunsFront : Prop := ∀ (c : Instr) (l : List Instr) (s : State),
  step { s with pending := c :: l } = exec c { s with pending := l }

/-- With no command waiting a step is one period of the root clock: core cycles pass as the divider of the power state and stretching
let them, the cycle under way keeping its length, and control cycles are counted in the state in force; but for those cycles and what
counts them, nothing depends on the divider: no core, memory, page configuration or result (R179, R462 to R465, R473, R478; that a
step is a period: assumption log 7). A current alert's floor is in force 210 control cycles after the assertion (R470). -/
def Obligations.IdleTick : Prop := ∀ s : State, s.pending = [] → risingFrom 0 s.cores = true →
  (s.running = false → step s = .next s) ∧
  (s.running = true → s.slowest ≠ s.powerState → s.alertAt + 8400 ≤ s.rootTick + 1 → Answers (step s) fun t =>
    t.rootTick = s.rootTick + 1 ∧ t.powerState = s.slowest) ∧
  (s.running = true → s.slowest = s.powerState ∨ s.rootTick + 1 < s.alertAt + 8400 → Answers (step s) fun t =>
    t.rootTick = s.rootTick + 1 ∧ t.pending = [] ∧ t.mem = s.mem ∧ t.near = s.near ∧ t.cxl = s.cxl ∧ t.poison = s.poison ∧
    t.staged = s.staged ∧ t.applied = s.applied ∧ t.out = s.out ∧
    (∀ c : CoreId, { t.core c with airCount := 0 } = { s.core c with airCount := 0 }) ∧
    (∀ h : HallId,
      let v := s.hall h
      let n : Nat := s.field 2 0x800 0 3
      let d : Nat := if n = 0 then 8 else if n = 1 then 10 else if n = 2 then 12 else if n = 3 then 16 else 32
      (v.corePhase + 1 < v.coreLen → t.hall h = { v with corePhase := v.corePhase + 1 }) ∧
      (v.corePhase + 1 = v.coreLen → v.stretch = 0 →
        t.hall h = { v with corePhase := 0, coreLen := d, stretched := false, cycles := v.cycles + 1 }) ∧
      (v.corePhase + 1 = v.coreLen → 0 < v.stretch →
        t.hall h = { v with corePhase := 0, coreLen := 2 * d, stretched := true, cycles := v.cycles + 1, stretch := v.stretch - 1 })) ∧
    t.live64 3 (0x880 + 8 * s.field 2 0x800 0 3) =
      (s.live64 3 (0x880 + 8 * s.field 2 0x800 0 3) + if (s.rootTick + 1) % 40 = 0 then 1 else 0) % 2 ^ 64)

/-- Every command, in every state, answers a next state: no error of software or data stops the module. Nothing but power, reference,
PERST_N, boundary scan and a bridge's failure, the keeper update, which ROM recovery serves too, and data of loads under way acts on a module
that does not run (R409, R480, R482, R484, R501); an instruction of a thread that does not issue it has no effect of its own (R160,
R168, R230). -/
def Obligations.CommandsAnswer : Prop :=
  (∀ (c : Instr) (s : State), ∃ t, exec c s = .next t) ∧
  (∀ s : State,
  (∀ c : Instr, s.running = false → wordOf c = none → actsAlways c = false → (actsInRecovery c = false ∨ s.updServed = false) →
    exec c s = .next s) ∧
  (∀ (i : Instr) (x : Site) (w : Word), ofWord x w = some i → s.canIssue x i = false → exec i s = .next s ∨ exec i s = .next s.settle))

/-- The state after reset: the module runs, at full power; every hall is stopped, open and in service; every thread is parked; chamber
and gallery memory read zero; nothing is recorded, counted, waiting or sent (R36, R37, R151, R153, R250, R419, R462 to R466, R482; a
register without a reset value: assumption log 4; start-up done: assumption log 8). The identity key is derived from SECRET and held,
and SECRET is unreadable (R405, R406). -/
def Obligations.ResetValues : Prop :=  let s := State.reset
  s.privKey = some (identityKey Config.secret) ∧ s.readSecret = none ∧ s.mesh = [] ∧ s.bar2Wait = [] ∧ s.streams = [] ∧
  s.running = true ∧ s.pending = [] ∧ s.out = [] ∧ s.mem = [] ∧ s.rootTick = 0 ∧ s.errSeq = 0 ∧ s.linkUp = false ∧ s.perst = true ∧
  s.liveWord 2 0x800 = 0 ∧ s.liveWord 0 0x01C = 0xFF ∧ s.liveWord 0 0x010 = 0 ∧
  (∀ h : HallId, s.hallState h = 0 ∧ s.hallMode h = 0 ∧ s.isOut h = false ∧ s.hall h = Hall.zero ∧
    s.liveWord (hallPage h 0) 0x010 = 0 ∧ s.liveWord (hallPage h 0) 0x01C = 0xFF ∧ s.liveWord (0x20 + h.val) 0x80C = 0x10000) ∧
  (∀ (x : Site) (r : BitVec 5), (s.thread x).run = .parked ∧ (s.thread x).reg r = 0 ∧ (s.thread x).ring = 0 ∧ (s.thread x).rsDepth = 0) ∧
  (∀ (c : CoreId) (n : Nat), (s.core c).com n = 0 ∧ (s.core c).tshape = [] ∧ (s.core c).quiet = true) ∧
  (∀ (h : HallId) (o : Nat), o < 0xC000000 → s.byteAt (galleryBase h + o) = 0) ∧
  (∀ (c : CoreId) (o : Nat), o < 0x100000 → s.byteAt (chamberBase c + o) = 0)

/-- Every command and every idle step keeps the forms of the tables of the state: memory canonical, keys rising, only cores that exist,
only tile shapes that TCFG admits; and exec leaves the queue as it is (R84 to R86; the tables and the queue are the model's). -/
def Obligations.InvariantKept : Prop := ∀ s : State, s.inv →
  (∀ c t, exec c s = .next t → t.inv ∧ t.pending = s.pending) ∧ (∀ t, step s = .next t → t.inv)

/-- The invariant holds after reset. -/
def Obligations.InvariantAtReset : Prop := State.reset.inv

/-- The words of the instructions: a word that decodes to an instruction is that instruction's word, so no bit of it is dropped, and the
word of every instruction decodes to it (R88, R95, R101, R103, R115, R134, R170, R172, R185, R186, R200, R203). -/
def Obligations.WordsRoundTrip : Prop :=  (∀ (x : Site) (w : Word) (i : Instr), ofWord x w = some i → wordOf i = some w) ∧
  (∀ (i : Instr) (w : Word), wordOf i = some w → ∃ x, ofWord x w = some i)

/-- s0 reads zero and discards writes, the other scalar registers hold what is written; a thread that ends an instruction goes on to the
next index, or to the next repetition of the word under its prefix, whose count register ends at zero (R183, R186, R204, R205). -/
def Obligations.ScalarRegisters : Prop := ∀ (t : Thread) (r q : BitVec 5) (v : Word),
  t.reg 0 = 0 ∧ t.setReg 0 v = t ∧ (r ≠ 0 → (t.setReg r v).reg q = if q = r then v else t.reg q) ∧
  (t.rep = none → t.retire = t.goOn (t.pc + 1)) ∧
  (∀ p, t.haltReq = false ∨ t.run ≠ .active → t.goOn p = { t with pc := p, wait := none, replCnt := none }) ∧
  (∀ p, t.rep = none → t.haltReq = true → t.run = .active →
    t.goOn p = { t with pc := p, wait := none, replCnt := none, run := .halted, haltReq := false }) ∧
  (∀ k : RepState, t.rep = some k → 1 < k.left →
    t.retire = { t with rep := some { k with left := k.left - 1 }, wait := none, replCnt := none }) ∧
  (∀ k : RepState, t.rep = some k → k.left ≤ 1 → t.retire.pc = t.pc + 2 ∧ t.retire.rep = none ∧
    (∀ g, k.reg = some g → t.retire.reg g = 0) ∧ (∀ q, k.reg ≠ some q → t.retire.reg q = t.reg q) ∧
    t.retire.run = if t.haltReq = true ∧ t.run = .active then .halted else t.run)

/-- The immediate forms, SHI and LUI give their results and change nothing but the thread that issues them (R188). OP gives the result
of its function (R187). -/
def Obligations.ArithmeticResults : Prop :=
  (∀ (s : State) (x : Site),
  (∀ f : FmtI,
    (s.ready x (.addi x f) = true → Answers (exec (.addi x f) s) (s.gives x f.rd (s.reg x f.ra + f.imm.signExtend 32))) ∧
    (s.ready x (.andi x f) = true → Answers (exec (.andi x f) s) (s.gives x f.rd (s.reg x f.ra &&& f.imm.zeroExtend 32))) ∧
    (s.ready x (.ori x f) = true → Answers (exec (.ori x f) s) (s.gives x f.rd (s.reg x f.ra ||| f.imm.zeroExtend 32))) ∧
    (s.ready x (.xori x f) = true → Answers (exec (.xori x f) s) (s.gives x f.rd (s.reg x f.ra ^^^ f.imm.zeroExtend 32))) ∧
    (s.ready x (.slti x f) = true → Answers (exec (.slti x f) s)
      (s.gives x f.rd (if (s.reg x f.ra).toInt < f.imm.toInt then 1 else 0))) ∧
    (s.ready x (.sltiu x f) = true → Answers (exec (.sltiu x f) s)
      (s.gives x f.rd (if (s.reg x f.ra).toNat < (f.imm.signExtend 32).toNat then 1 else 0)))) ∧
  (∀ f : FmtS, s.ready x (.shi x f) = true → ∃ v, Answers (exec (.shi x f) s) (s.gives x f.rd v) ∧
    (f.kind = 0 → v = s.reg x f.ra <<< f.sh.toNat) ∧ (f.kind = 1 → v = s.reg x f.ra >>> f.sh.toNat) ∧
    (f.kind = 2 → v = (s.reg x f.ra).sshiftRight f.sh.toNat) ∧ f.kind ≠ 3) ∧
  (∀ f : FmtU, s.ready x (.lui x f) = true → Answers (exec (.lui x f) s) (s.gives x f.rd (f.imm.zeroExtend 32 <<< 12)))) ∧
  (∀ (s : State) (x : Site) (f : FmtR), s.ready x (.op x f) = true →
  ∀ a b : Word, a = s.reg x f.ra → b = s.reg x f.rb → ∃ v, Answers (exec (.op x f) s) (s.gives x f.rd v) ∧
    (f.func = 0x00 → v = a + b) ∧ (f.func = 0x01 → v = a - b) ∧ (f.func = 0x02 → v = a &&& b) ∧
    (f.func = 0x03 → v = a ||| b) ∧ (f.func = 0x04 → v = a ^^^ b) ∧
    (f.func = 0x05 → v = if 32 ≤ b.toNat then 0 else a <<< b.toNat) ∧
    (f.func = 0x06 → v = if 32 ≤ b.toNat then 0 else a >>> b.toNat) ∧
    (f.func = 0x07 → v = a.sshiftRight b.toNat) ∧
    (f.func = 0x08 → v = if a.toInt < b.toInt then 1 else 0) ∧
    (f.func = 0x09 → v = if a.toNat < b.toNat then 1 else 0) ∧
    (f.func = 0x0A → v.toInt = min a.toInt b.toInt) ∧ (f.func = 0x0B → v.toInt = max a.toInt b.toInt) ∧
    (f.func = 0x0C → v.toNat = min a.toNat b.toNat) ∧ (f.func = 0x0D → v.toNat = max a.toNat b.toNat) ∧
    (f.func = 0x0E → v = a * b) ∧
    (f.func = 0x0F → v = BitVec.ofInt 32 (a.toInt * b.toInt / 2 ^ 32)) ∧
    (f.func = 0x10 → v = BitVec.ofNat 32 (a.toNat * b.toNat / 2 ^ 32)) ∧
    (f.func = 0x11 → v = if b = 0 then 0xFFFFFFFF else BitVec.ofInt 32 (a.toInt.tdiv b.toInt)) ∧
    (f.func = 0x12 → v = if b = 0 then 0xFFFFFFFF else BitVec.ofNat 32 (a.toNat / b.toNat)) ∧
    (f.func = 0x13 → v = if b = 0 then a else BitVec.ofInt 32 (a.toInt.tmod b.toInt)) ∧
    (f.func = 0x14 → v = if b = 0 then a else BitVec.ofNat 32 (a.toNat % b.toNat)) ∧
    (f.func = 0x15 → v = (a.extractLsb' 0 8).signExtend 32) ∧ (f.func = 0x16 → v = (a.extractLsb' 0 16).signExtend 32) ∧
    (f.func = 0x17 → v = (a.extractLsb' 0 8).zeroExtend 32) ∧ (f.func = 0x18 → v = (a.extractLsb' 0 16).zeroExtend 32) ∧
    f.func.toNat ≤ 0x18)

/-- FOP gives a float result, and a comparison with a NaN gives 0 (R189). -/
def Obligations.FopResults : Prop := ∀ (s : State) (x : Site) (f : FmtR), s.ready x (.fop x f) = true →
  ∀ (fmt : Nat) (a b : Machine.Num), fmt = (if f.func.getLsbD 5 then 10 else 9) →
    a = decodeNum fmt ((s.reg x f.ra).toNat % 2 ^ 16) → b = decodeNum fmt ((s.reg x f.rb).toNat % 2 ^ 16) →
  ∃ v, Answers (exec (.fop x f) s) (s.gives x f.rd v) ∧
    (f.func.toNat % 32 = 0 → v = BitVec.ofNat 32 (roundNE fmt (Num.sum [a, b])).bits) ∧
    (f.func.toNat % 32 = 1 → v = BitVec.ofNat 32 (roundNE fmt (Num.sum [a, b.neg])).bits) ∧
    (f.func.toNat % 32 = 2 → v = BitVec.ofNat 32 (roundNE fmt (a.mul b)).bits) ∧
    (f.func.toNat % 32 = 3 → v = BitVec.ofNat 32 (roundNE fmt (minNum a b)).bits) ∧
    (f.func.toNat % 32 = 4 → v = BitVec.ofNat 32 (roundNE fmt (maxNum a b)).bits) ∧
    (f.func.toNat % 32 = 5 → v = BitVec.ofNat 32 (roundNE fmt a.neg).bits) ∧
    (f.func.toNat % 32 = 6 → v = BitVec.ofNat 32 (roundNE fmt a.abs).bits) ∧
    (f.func.toNat % 32 = 7 → v = BitVec.ofNat 32 (roundNE (if fmt = 9 then 10 else 9) a).bits) ∧
    (f.func.toNat % 32 = 8 → a = .nan → v = 0) ∧
    (f.func.toNat % 32 = 8 → ∀ neg m e, a = .fin neg m e →
      v = BitVec.ofInt 32 (max (-(2 ^ 31 : Int)) (min (2 ^ 31 - 1) (roundIntNE neg m e)))) ∧
    (f.func.toNat % 32 = 9 →
      v = BitVec.ofNat 32
        (roundNE fmt (.fin (decide ((s.reg x f.ra).toInt < 0)) (s.reg x f.ra).toInt.natAbs 0)).bits) ∧
    (10 ≤ f.func.toNat % 32 → (a = .nan ∨ b = .nan) → v = 0) ∧
    (∀ c, a.cmp b = some c →
      (f.func.toNat % 32 = 10 → v = if c = 0 then 1 else 0) ∧ (f.func.toNat % 32 = 11 → v = if c < 0 then 1 else 0) ∧
      (f.func.toNat % 32 = 12 → v = if c ≤ 0 then 1 else 0)) ∧
    f.func.toNat % 32 ≤ 12

/-- Branches and jumps send the thread to their target (R197). CALL and CALLR push the return index, RET pops it; a push on a full stack
and a pop of an empty one overwrite or repeat an entry when WRAP is set (R197, R198). -/
def Obligations.JumpsAndCalls : Prop :=
  (∀ (s : State) (x : Site),
  (∀ f : FmtB, s.ready x (.br x f) = true → ∃ taken : Bool,
    Answers (exec (.br x f) s)
      (s.goes x id (if taken then (s.thread x).pc + f.off.signExtend 16 else (s.thread x).pc + 1)) ∧
    (f.cond = 0 → (taken = true ↔ s.reg x f.ra = s.reg x f.rb)) ∧ (f.cond = 1 → (taken = true ↔ s.reg x f.ra ≠ s.reg x f.rb)) ∧
    (f.cond = 2 → (taken = true ↔ (s.reg x f.ra).toInt < (s.reg x f.rb).toInt)) ∧
    (f.cond = 3 → (taken = true ↔ (s.reg x f.rb).toInt ≤ (s.reg x f.ra).toInt)) ∧
    (f.cond = 4 → (taken = true ↔ (s.reg x f.ra).toNat < (s.reg x f.rb).toNat)) ∧
    (f.cond = 5 → (taken = true ↔ (s.reg x f.rb).toNat ≤ (s.reg x f.ra).toNat)) ∧ f.cond.toNat < 6) ∧
  (∀ f : FmtJ, s.ready x (.jmp x f) = true → Answers (exec (.jmp x f) s) (s.goes x id f.target)) ∧
  (∀ f : FmtK, s.ready x (.jmpr x f) = true →
    Answers (exec (.jmpr x f) s) (s.goes x id ((s.reg x f.ra).extractLsb' 0 16)))) ∧
  (∀ (s : State) (x : Site) (h : Thread), h = s.thread x →
  let push (t : Thread) : Thread :=
    { t with rsTop := h.rsTop + 1, rsEntry := SMap.set h.rsEntry (h.rsTop + 1).toNat 0 (h.pc + 1), rsDepth := min 16 (h.rsDepth + 1) }
  (h.rsDepth < 16 ∨ h.rsDepth = 16 ∧ h.rsWrap = true →
    (∀ f : FmtJ, s.ready x (.call x f) = true → Answers (exec (.call x f) s) (s.goes x push f.target)) ∧
    (∀ f : FmtK, s.ready x (.callr x f) = true →
      Answers (exec (.callr x f) s) (s.goes x push ((s.reg x f.ra).extractLsb' 0 16)))) ∧
  (0 < h.rsDepth ∨ h.rsWrap = true → ∀ f : FmtK, s.ready x (.ret x f) = true →
    Answers (exec (.ret x f) s)
      (s.goes x (fun t => { t with rsTop := h.rsTop - 1, rsDepth := h.rsDepth - 1 }) (SMap.get h.rsEntry h.rsTop.toNat 0))))

/-- Common registers: reads, writes, exchange and addition, each as one step (R163). RSRD and RSWR read and write the entries and the
control word of the return stack (R199). Tallies: TRD.x reads a counter of the core's slot, TCLR clears the three counters of a
slot; slot 0 counts nothing (R80, R81). -/
def Obligations.RegistersOfACore : Prop :=
  (∀ (s : State) (x : Site) (f : FmtX) (n : Nat), n = f.n.toNat →
  let rest (k : Core) : Core := { k with common := [] }
  let now (v : Word) (t : State) : Prop := ∀ m, (t.core x.core).com m = if m = n then v else (s.core x.core).com m
  let old : Word := (s.core x.core).com n
  (s.ready x (.crd x f) = true → Answers (exec (.crd x f) s) (s.gives x f.rd old)) ∧
  (s.ready x (.cwr x f) = true →
    Answers (exec (.cwr x f) s) fun t => s.ends x id rest t ∧ now (s.reg x f.ra) t) ∧
  (s.ready x (.cswap x f) = true →
    Answers (exec (.cswap x f) s) fun t => s.ends x (fun h => h.setReg f.rd old) rest t ∧ now (s.reg x f.ra) t) ∧
  (s.ready x (.cadd x f) = true →
    Answers (exec (.cadd x f) s) fun t => s.ends x (fun h => h.setReg f.rd old) rest t ∧ now (old + s.reg x f.ra) t)) ∧
  (∀ (s : State) (x : Site) (f : FmtX) (n : Nat), n = f.n.toNat →
  let h := s.thread x
  let v : Word := s.reg x f.ra
  (s.ready x (.rsrd x f) = true →
    (n < 16 → Answers (exec (.rsrd x f) s) (s.gives x f.rd ((SMap.get h.rsEntry n 0).zeroExtend 32))) ∧
    (n = 16 → Answers (exec (.rsrd x f) s)
      (s.gives x f.rd (BitVec.ofNat 32 (h.rsTop.toNat + 2 ^ 4 * h.rsDepth + if h.rsWrap then 2 ^ 16 else 0)))) ∧ n ≤ 16) ∧
  (s.ready x (.rswr x f) = true →
    (n < 16 → Answers (exec (.rswr x f) s)
      (s.steps x fun g => { g with rsEntry := SMap.set g.rsEntry n 0 (v.extractLsb' 0 16) })) ∧
    (n = 16 → (v.extractLsb' 4 5).toNat ≤ 16 → v.extractLsb' 9 7 = 0 → v.extractLsb' 17 15 = 0 →
      Answers (exec (.rswr x f) s) (s.steps x fun g =>
        { g with rsTop := v.extractLsb' 0 4, rsDepth := (v.extractLsb' 4 5).toNat, rsWrap := v.getLsbD 16 })) ∧ n ≤ 16)) ∧
  (∀ (s : State) (x : Site) (f : FmtX) (n : Nat), n = f.n.toNat →
  let p := corePage x.core 2
  let read (k : Nat) : Word := if n = 0 then 0 else s.liveWord p (0x800 + 16 * n + k)
  (s.ready x (.trdZero x f) = true → Answers (exec (.trdZero x f) s) (s.gives x f.rd (read 0))) ∧
  (s.ready x (.trdSat x f) = true → Answers (exec (.trdSat x f) s) (s.gives x f.rd (read 4))) ∧
  (s.ready x (.trdNan x f) = true → Answers (exec (.trdNan x f) s) (s.gives x f.rd (read 8))) ∧
  (s.ready x (.tclr x f) = true → Answers (exec (.tclr x f) s) fun t => s.steps x id { t with live := s.live } ∧
    s.puts t (if n = 0 then [] else
      [((p, 0x800 + 16 * n), 0), ((p, 0x804 + 16 * n), 0), ((p, 0x808 + 16 * n), 0)])))

/-- SIGNAL sets, in the event register of thread t of the same core, every bit of sA, clears none and reaches no other core; beside that
the issuing thread only goes on (R164). -/
def Obligations.Signal : Prop := ∀ (s : State) (x : Site) (f : FmtX), s.ready x (.signal x f) = true →
  Answers (exec (.signal x f) s) fun t =>
    s.sameOutside t x.core ∧ (s.core x.core).sameBut (t.core x.core) ∧ ∀ n : Fin 4, t.thread ⟨x.core, n⟩ =
      let h := s.thread ⟨x.core, n⟩
      let g := if n.val = f.n.toNat then { h with ev := h.ev ||| s.reg x f.ra } else h
      if n = x.thread then g.retire else g

/-- WAIT.ANY and WAIT.ALL take the bits of their mask when their condition holds, and wait when it does not (R165). PARK, SETPRI, the
cycle counter, the timer, the version and the fault record of the issuing thread (R152, R162, R200). -/
def Obligations.WaitsAndThreadControls : Prop :=
  (∀ (s : State) (x : Site) (f : FmtX),
  let m : Word := s.reg x f.ra
  let ev : Word := (s.thread x).ev
  let takes : State → Prop := s.steps x fun h => { h with ev := ev &&& ~~~ m }.setReg f.rd (ev &&& m)
  let waits (w : WaitFor) (t : State) : Prop := s.onlyThread t x ∧ t.thread x = { s.thread x with wait := some w }
  (s.ready x (.waitAny x f) = true →
    (m = 0 ∨ ev &&& m ≠ 0 → Answers (exec (.waitAny x f) s) takes) ∧
    (m ≠ 0 ∧ ev &&& m = 0 → Answers (exec (.waitAny x f) s) (waits (.any m)))) ∧
  (s.ready x (.waitAll x f) = true →
    (ev &&& m = m → Answers (exec (.waitAll x f) s) takes) ∧
    (ev &&& m ≠ m → Answers (exec (.waitAll x f) s) (waits (.all m))))) ∧
  (∀ (s : State) (x : Site) (f : FmtX),
  let p := corePage x.core 0
  (s.ready x (.park x f) = true → Answers (exec (.park x f) s) (s.steps x fun h => { h with run := .parked })) ∧
  (s.ready x (.setpri x f) = true →
    Answers (exec (.setpri x f) s) (s.steps x fun h => { h with prio := f.n.extractLsb' 0 2 })) ∧
  (s.ready x (.rdcyc x f) = true → Answers (exec (.rdcyc x f) s)
    (s.steps x fun h => { h with cycLatch := BitVec.ofNat 32 (s.cycleOf x.core / 2 ^ 32) }.setReg f.rd
      (BitVec.ofNat 32 (s.cycleOf x.core)))) ∧
  (s.ready x (.rdcych x f) = true → Answers (exec (.rdcych x f) s) (s.gives x f.rd (s.thread x).cycLatch)) ∧
  (s.ready x (.settmr x f) = true →
    Answers (exec (.settmr x f) s) (s.steps x fun h => { h with tmrcmp := s.reg x f.n ++ s.reg x f.ra })) ∧
  (s.ready x (.rdver x f) = true → Answers (exec (.rdver x f) s) (s.gives x f.rd (s.liveWord p 0x9B0))) ∧
  (s.ready x (.rdflt x f) = true →
    Answers (exec (.rdflt x f) s) (s.gives x f.rd (s.liveWord p (0x9C0 + 16 * x.thread.val + 4 * f.n.toNat)))))

/-- FENCE and PUBLISH complete: with no set of accesses to order they have no effect, otherwise the fence stands until the accesses
before it are performed, and a fence that nothing stands against is gone at once; a fifth fence is not chosen until one of the four is
met (R262 to R264). REP and REP.L complete before a word that is fetched and may be repeated: a count of zero skips both, any other
begins the sequence, which for a REP.L that a return resumes has the repetitions of the frame (R204 to R206, R233); the fetch of the
word counts as an access. -/
def Obligations.FencesAndPrefixes : Prop :=
  (∀ (s : State) (x : Site) (f : FmtF),
  let k := s.core x.core
  let rest (k : Core) : Core := { k with fences := [] }
  let leaves (n : Fence) (t : State) : Prop := s.ends x id rest t ∧
    (t.core x.core).fences = (k.fences ++ [n]).filter fun g => s.outstanding x.core g.src g.seq
  let stays (t : State) : Prop := s.onlyThread t x ∧ t.thread x = { s.thread x with wait := none }
  (s.ready x (.fence x f) = true →
    (f.src = 0 ∨ f.dst = 0 → Answers (exec (.fence x f) s) (s.steps x id)) ∧
    (f.src ≠ 0 → f.dst ≠ 0 →
      (k.fences.length < 4 → Answers (exec (.fence x f) s) (leaves ⟨k.issueSeq, f.src, f.dst, false⟩)) ∧
      (4 ≤ k.fences.length → Answers (exec (.fence x f) s) stays))) ∧
  (s.ready x (.publish x f) = true →
    (f.src = 0 → Answers (exec (.publish x f) s) (s.steps x id)) ∧
    (f.src ≠ 0 →
      (k.fences.length < 4 → Answers (exec (.publish x f) s) (leaves ⟨k.issueSeq, f.src, 0, true⟩)) ∧
      (4 ≤ k.fences.length → Answers (exec (.publish x f) s) stays)))) ∧
  (∀ (s : State) (x : Site) (w : Word) (i : Instr) (h : Thread) (u : State), h = s.thread x →
  s.fetch x (h.pc + 1) = (u, .ok w) →
  let begins (r : Option (BitVec 5)) (n : Nat) (t : State) : Prop := u.onlyThread t x ∧
    t.thread x = { h with rep := some ⟨w, r, n⟩, replCnt := none, wait := none }
  (∀ f : FmtP, s.ready x (.rep x f) = true → underPrefix x h.ring (some f.ra) w = .ok i →
    (s.reg x f.ra = 0 → Answers (exec (.rep x f) s) (u.goes x id (h.pc + 2))) ∧
    (0 < (s.reg x f.ra).toNat → (s.reg x f.ra).toNat < 2 ^ 16 →
      Answers (exec (.rep x f) s) (begins (some f.ra) (s.reg x f.ra).toNat))) ∧
  (∀ (f : FmtL) (n : Nat), s.ready x (.repL x f) = true → underPrefix x h.ring none w = .ok i →
    n = h.replCnt.getD f.count.toNat →
    (n = 0 → Answers (exec (.repL x f) s) (u.goes x id (h.pc + 2))) ∧
    (0 < n → n ≤ 64 → Answers (exec (.repL x f) s) (begins none n))))

/-- The checks of an access through a segment register, in their order (R192): the access is admitted exactly when all hold, and the
first that fails names the cause. LD fixes the value of an admitted read and leaves its register pending until LOAD_DATA_ARRIVE
fills it (R195, R196); a fence holds the access of a load, which goes on (R263). LSEG loads a valid descriptor, not more privileged than the ring that loads it, from the core's own chamber
memory (R193). -/
def Obligations.SegmentsAndLoads : Prop :=
  (∀ (d : SegImage) (ring : Nat) (right : Right) (o : Int) (n align : Nat), 0 < align →
  let present : Prop := d.getLsbD 72 = true
  let inner : Prop := ring ≤ (d.extractLsb' 70 2).toNat
  let granted : Prop := d.getLsbD (match right with | .read => 67 | .write => 68 | .execute => 69) = true
  let within : Prop := 0 ≤ o ∧ o < 2 ^ 32 ∧ o + n ≤ segExtent d
  let even : Prop := ((d.extractLsb' 0 48).toNat + o.toNat) % align = 0
  (segCheck d ring right o n align = none ↔ present ∧ inner ∧ granted ∧ within ∧ even) ∧
  (¬present → segCheck d ring right o n align = some 3) ∧
  (present → ¬inner → segCheck d ring right o n align = some 7) ∧
  (present → inner → ¬granted → segCheck d ring right o n align = some 2) ∧
  (present → inner → granted → ¬within → segCheck d ring right o n align = some 1) ∧
  (present → inner → granted → within → ¬even → segCheck d ring right o n align = some 4)) ∧
  (∀ (s : State) (x : Site) (h : Thread), h = s.thread x →
  (∀ (f : FmtM) (n : Nat) (o : Int) (a : Nat), s.ready x (.ld x f) = true → n = 2 ^ f.size.toNat →
    o = (h.reg f.ra).toNat + f.disp.toInt * n → a = segBase (h.seg f.seg.toNat) + o.toNat →
    h.loads.length < 8 → segCheck (h.seg f.seg.toNat) h.ring.toNat .read o n n = none →
    (s.scalarHeld x.core = true → Answers (exec (.ld x f) s) fun t =>
      s.ends x (fun h =>
        let g : Thread := { h with loads := h.loads ++ [⟨f.rt, 0, some (s.core x.core).issueSeq⟩] }
        if f.pi = 1 then g.setReg f.ra (BitVec.ofInt 32 (o + n)) else g) (fun k => { k with heldMem := [] }) t ∧
      (t.core x.core).heldMem = (s.core x.core).heldMem ++ [{ seq := (s.core x.core).issueSeq, thread := x.thread, ring := h.ring
                                                              addr := a, kind := .load f.rt f.u n, seg := f.seg.toNat
                                                              size := f.size.toNat, off := offsetField o
                                                              pc := if h.rep.isSome then h.pc + 1 else h.pc, rep := h.rep.isSome
                                                              word := (wordOf (.ld x f)).getD 0 }]) ∧
    (s.scalarHeld x.core = false → s.takesRead (.core x) a n → ∃ v : Word, (f.u = 1 ∨ f.size = 2 → v = BitVec.ofNat 32 (bytesNat (s.bytesAt a n))) ∧
      (f.u = 0 → f.size = 0 → v = (BitVec.ofNat 8 (bytesNat (s.bytesAt a n))).signExtend 32) ∧
      (f.u = 0 → f.size = 1 → v = (BitVec.ofNat 16 (bytesNat (s.bytesAt a n))).signExtend 32) ∧
      Answers (exec (.ld x f) s) ((s.countLine (.core x) a false).steps x fun h =>
        let g : Thread := { h with loads := h.loads ++ [⟨f.rt, v, none⟩] }
        if f.pi = 1 then g.setReg f.ra (BitVec.ofInt 32 (o + n)) else g))) ∧
  (∀ (k : Fin 8) (l : LoadSlot), h.loads[k.val]? = some l → l.held = none →
    Answers (exec (.loadDataArrive x k) s) fun t => s.onlyThread t x ∧
      t.thread x = { h.setReg l.rd l.value with loads := h.loads.eraseIdx k.val })) ∧
  (∀ (s : State) (x : Site) (f : FmtX) (h : Thread) (a : Nat) (v : SegImage), h = s.thread x →
  s.ready x (.lseg x f) = true → a = segBase (h.seg f.rd.toNat) + (h.reg f.ra).toNat →
  segCheck (h.seg f.rd.toNat) h.ring.toNat .read (h.reg f.ra).toNat 16 16 = none →
  s.scalarHeld x.core = false → s.takesRead (.core x) a 16 → v = BitVec.ofNat 128 (bytesNat (s.bytesAt a 16)) →
  chamberBase x.core ≤ a → a + 16 ≤ chamberBase x.core + 0x200000 → segValid v = true → h.ring.toNat ≤ segRing v →
  Answers (exec (.lseg x f) s) ((s.countLine (.core x) a false).steps x fun h => h.setSeg f.n.toNat v))

/-- ST and SSEG store the bytes of their register, low byte first, at the address they compute, and no other byte (R194, R195). -/
def Obligations.Stores : Prop := ∀ (s : State) (x : Site) (h : Thread), h = s.thread x → s.quiet = true →
  (∀ (f : FmtM) (n : Nat) (o : Int) (a : Nat), s.ready x (.st x f) = true → n = 2 ^ f.size.toNat →
    o = (h.reg f.ra).toNat + f.disp.toInt * n → a = segBase (h.seg f.seg.toNat) + o.toNat →
    segCheck (h.seg f.seg.toNat) h.ring.toNat .write o n n = none → s.takesWrite (.core x) a n →
    Answers (exec (.st x f) s) fun t => s.stores t a (natBytes n (h.reg f.rt).toNat) ∧
      ∃ u, u = s.wroteLine (.core x) a ∧
        u.steps x (fun h => if f.pi = 1 then h.setReg f.ra (BitVec.ofInt 32 (o + n)) else h)
          { t with mem := u.mem, near := u.near, cxl := u.cxl }) ∧
  (∀ (f : FmtX) (a : Nat), s.ready x (.sseg x f) = true → a = segBase (h.seg f.rd.toNat) + (h.reg f.ra).toNat →
    segCheck (h.seg f.rd.toNat) h.ring.toNat .write (h.reg f.ra).toNat 16 16 = none → s.takesWrite (.core x) a 16 →
    Answers (exec (.sseg x f) s) fun t => s.stores t a (natBytes 16 (h.seg f.n.toNat).toNat) ∧
      ∃ u, u = s.wroteLine (.core x) a ∧ u.steps x id { t with mem := u.mem, near := u.near, cxl := u.cxl })

/-- Taking an exception: BRK, an interrupt, a fault of a queue entry, bad-air and a debug halt enter the handler that the table names;
the frame holds the segments, PC, ring, INH and what the return needs (R204, R225, R226, R230). A held access that the entry must follow
(R258) and a memory that takes no write let it wait. -/
def Obligations.Exceptions : Prop := ∀ (s : State) (x : Site),
  let enters (s0 : State) (v : Nat) (repl : Option Nat) (qtaken : Nat) (o : Outcome) : Prop :=
    ∀ s1 s2 s3 e code stk h, h = s0.thread x → s0.readsWait x (s0.entryUnits x v) = false →
      s0.chooseEntry x v h.ring.toNat = (s1, .ok e) →
      s1.handlerCode x e.codeSel e.hpc e.tring = (s2, some code) →
      s2.entryStack x e.stackSel e.tring h.ring.toNat = (s3, some stk) →
      s0.frameWaits x (segBase (frameWindow stk e.tring)) = false →
      let m := s3.memWrite (.core x) (segBase stk + segExtent stk - 96) (frameBytes
        { seg0 := h.seg 0, seg1 := if e.tring < h.ring.toNat then h.seg 1 else stk, seg2 := h.seg 2, pc := h.pc
          ring := h.ring.toNat, inh := h.inh, df := false, gate := false, repl := repl, vector := v, orig := 0, gateNum := 0
          cause := 0, nargs := 0, qtaken := qtaken, args := [] }) { seq := (s3.core x.core).issueSeq }
      Leads o ((m.abandon x.core).turns x id
        { (((m.thread x).setSeg 0 code).setSeg 1 (reducedStack stk)).setSeg 2 (frameWindow stk e.tring) with
          ring := BitVec.ofNat 2 e.tring, pc := BitVec.ofNat 16 e.hpc, inh := true, wait := none, rep := none, replCnt := none
          haltReq := false, run := if (m.thread x).haltReq then .halted else (m.thread x).run })
  let out : Outcome := exec (.exceptionEntry x) s
  let u : State := s.leaveRep x
  (∀ f : FmtX, s.ready x (.brk x f) = true → s.quiet = true →
    let h := s.thread x
    enters ((s.writeSflt x ⟨12, 10, 0, 0, false, false, 0, 0⟩ h.rep.isSome (if h.rep.isSome then h.pc + 1 else h.pc)
      ((wordOf (.brk x f)).getD 0)).leaveRep x) 12 h.replLeft 0 (exec (.brk x f) s)) ∧
  (s.running = true → s.atBoundary x = true →
    (∀ v, s.boundary x = some (.late v) →
      enters (u.modThread x fun h => { h with late := none }) v (s.thread x).replLeft 0 out) ∧
    (s.boundary x = some .debug → enters (u.modThread x fun h => { h with deliverReq := false }) 13 none 0 out) ∧
    (s.boundary x = some .badAir → enters (u.modThread x fun h => { h with badAir := false }) 11 none 0 out) ∧
    (∀ v, s.boundary x = some (.interrupt v) →
      enters (u.modThread x fun h => { h with intpend := h.intpend &&& ~~~ BitVec.ofNat 32 (2 ^ (v - 32)) }) v none 0 out) ∧
    (∀ q v, s.boundary x = some (.queue q v) →
      enters (u.modCore x.core fun k => k.markTaken q) v none ((u.core x.core).takenBits q) out))

/-- GATE calls through its entry of the gate table: a frame that holds the caller's segments, PC + 1, ring, INH and arguments is pushed,
and the thread enters the entry's ring and index, its INH as it was (R219 to R221). XRET and RETG restore what the frame in seg2
holds: segments, PC, ring, INH, the repetitions of a locked sequence; DF is cleared by a double fault's frame; queues that the
frame's exception stopped restart (R222, R232, R233). -/
def Obligations.GatesAndReturns : Prop :=
  (∀ (s : State) (x : Site) (f : FmtG) (n : Nat) (h : Thread) (gt : Word) (s1 s2 s3 : State)
  (v : BitVec 128) (g : GateEntry) (code stk : SegImage), n = f.gate.toNat → h = s1.thread x → s.ready x (.gate x f) = true →
  gt = s.liveWord (corePage x.core 0) 0xA0C → n < fieldOf gt 0 13 → s.scalarHeld x.core = false →
  s.chamber16 x (fieldOf gt 16 16 * 16 + n * 16) = (s1, some v) → g = gateOf v →
  g.p = true → g.reserved = false → g.nargs ≤ 8 →
  (∀ i, i < g.nargs → (s1.core x.core).regPending x.thread (BitVec.ofNat 5 (i + 1)) = false) → bitOf g.callers h.ring.toNat = true → g.ring ≤ h.ring.toNat →
  fieldOf (s1.liveWord (corePage x.core 0) 0xA0C) 13 2 ≤ g.ring →
  s1.handlerCode x g.codeSel g.entry g.ring = (s2, some code) → gateArg h g = none →
  s2.entryStack x g.stackSel g.ring h.ring.toNat = (s3, some stk) →
  s3.frameWaits x (segBase stk + segExtent stk - 96) = false →
  let m := s3.memWrite (.core x) (segBase stk + segExtent stk - 96) (frameBytes
    { seg0 := h.seg 0, seg1 := if g.ring < h.ring.toNat then h.seg 1 else stk, seg2 := h.seg 2, pc := h.pc + 1
      ring := h.ring.toNat, inh := h.inh, df := false, gate := true, repl := none, vector := 0, orig := 0, gateNum := n
      cause := 0, nargs := g.nargs, qtaken := 0, args := (List.range g.nargs).map fun i => h.reg (BitVec.ofNat 5 (i + 1)) })
    { seq := (s3.core x.core).issueSeq }
  Leads (exec (.gate x f) s) (m.turns x id
    { (((m.thread x).setSeg 0 code).setSeg 1 (reducedStack stk)).setSeg 2 (frameWindow stk g.ring) with
      ring := BitVec.ofNat 2 g.ring, pc := BitVec.ofNat 16 g.entry, wait := none, rep := none, replCnt := none
      haltReq := false, run := if (m.thread x).haltReq then .halted else (m.thread x).run })) ∧
  (∀ (s : State) (x : Site) (h : Thread) (f : FrameIn) (a : Nat), h = s.thread x → a = segBase (h.seg 2) →
  segCheck (h.seg 2) h.ring.toNat .read 0 96 16 = none → s.scalarHeld x.core = false → s.readStalls (.core x) a 96 = false →
  (s.busRead x a 96).poison = false → f = frameOf (s.busRead x a 96).data → h.ring.toNat ≤ f.ring → f.bad = false →
  let back : State → Prop := fun t => ∃ u : State, u = (s.busRead x a 96).st ∧
    u.turns x (fun k => { k with mq := .empty, vq := .empty, dq := .empty })
      { (((u.thread x).setSeg 0 f.seg0).setSeg 1 f.seg1).setSeg 2 f.seg2 with
        pc := f.pc, ring := BitVec.ofNat 2 f.ring, inh := f.inh, df := (u.thread x).df && !f.df, wait := none,
        replCnt := if f.repl then some f.replCnt else none } t ∧
    ∀ q, q < 3 → (t.core x.core).queue q =
      let l := (u.core x.core).queue q
      let left (e : QStop) : Bool := !(f.qtaken.testBit q && e.thread == x.thread && e.taken)
      { l with stop := l.stop.filter left, byMove := l.byMove.filter left }
  (∀ k : FmtK, s.ready x (.xret x k) = true → f.gate = false → Leads (exec (.xret x k) s) back) ∧
  (∀ k : FmtK, s.ready x (.retg x k) = true → f.gate = true → Leads (exec (.retg x k) s) back))

/-- A double fault enters ring 0 through vector 15 on the emergency stack, once; a thread already in one resets its core, which is a
core hard fault (R234, R235). CORE_RESET parks the threads, empties the queues and clears what counts from core reset; BAD_AIR and
CYCLE_TIMER_MATCH raise their exception and interrupt (R177, R180, R481). -/
def Obligations.DoubleFaultsAndCoreEvents : Prop :=
  (∀ (s : State) (x : Site) (fe : FailedEntry), s.running = true →
  (s.thread x).dfPend = some fe →
  ((s.thread x).df = false → s.readsWait x (s.emergencyUnits x) = false →
    (∀ s1, s.emergency x = (s1, none) → Leads (exec (.doubleFaultEntry x) s) (· = s1.resetByFault x.core)) ∧
    ∀ s1 e code stk h, s.emergency x = (s1, some (e, code, stk)) → h = s1.thread x →
    s.frameWaits x (segBase stk + segExtent stk - 96) = false →
    let m := (s1.writeRflt x 3 fe.cause 0 0 fe.pc).memWrite (.core x) (segBase stk + segExtent stk - 96) (frameBytes
      { seg0 := h.seg 0, seg1 := h.seg 1, seg2 := h.seg 2, pc := fe.pc, ring := h.ring.toNat, inh := h.inh, df := true
        gate := false, repl := fe.repl, vector := 15, orig := fe.vector, gateNum := 0, cause := fe.cause, nargs := 0
        qtaken := fe.qtaken, args := [] }) { seq := (s1.core x.core).issueSeq }
    Leads (exec (.doubleFaultEntry x) s) ((m.abandon x.core).turns x id
      { (((m.thread x).setSeg 0 code).setSeg 1 (reducedStack stk)).setSeg 2 (frameWindow stk 0) with
        ring := 0, pc := BitVec.ofNat 16 e.hpc, inh := true, df := true, dfPend := none, wait := none, rep := none
        replCnt := none, haltReq := false, run := if (m.thread x).haltReq then .halted else (m.thread x).run })) ∧
  ((s.thread x).df = true → Leads (exec (.doubleFaultEntry x) s) (· = s.resetByFault x.core))) ∧
  (∀ (s : State), s.running = true →
  (∀ c : CoreId, Leads (exec (.coreReset c) s) fun t =>
    s.onlyCore c (fun k => { k with threads := [], mq := .empty, vq := .empty, dq := .empty, tshape := [], common := []
                                    lastIssue := [], resting := true, latchA := none, latchB := none, airCount := 0, cycBase := 0 })
      { t with live := s.live } ∧
    (t.core c).mq = .empty ∧ (t.core c).vq = .empty ∧ (t.core c).dq = .empty ∧ (t.core c).lastIssue = [] ∧
    (∀ n, (t.core c).shape n = 0) ∧
    (∀ n, (t.core c).com n = 0) ∧ t.cycleOf c = 0 ∧ (t.core c).airCount = 0 ∧
    (∀ n, t.thread ⟨c, n⟩ = { s.thread ⟨c, n⟩ with run := .parked, wait := none, rep := none, replCnt := none, dfPend := none
                                                   haltReq := false, deliverReq := false, badAir := false, loads := [], late := none
                                                   rsTop := 0, rsDepth := 0, rsWrap := false, tmrcmp := 0 }) ∧
    (∀ o, 0x810 ≤ o → o < 0x900 → o % 4 = 0 → t.liveWord (corePage c 2) o = resetWord (corePage c 2) o) ∧
    ∀ p o, o < 4096 → o % 4 = 0 → p ≠ corePage c 0 → p ≠ corePage c 1 → p ≠ corePage c 2 → t.liveWord p o = s.liveWord p o) ∧
  (∀ (c : CoreId) (n : Fin 4), 1024 ≤ (s.core c).airCount → (s.core c).airCycle = true → (s.core c).airThread = some n →
    Leads (exec (.badAir c) s) fun t =>
      s.onlyCore c (fun k => { k with threads := [], airCount := 0 }) { t with live := s.live } ∧ (t.core c).airCount = 0 ∧
      (∀ m, t.thread ⟨c, m⟩ = if m = n then { s.thread ⟨c, m⟩ with badAir := true } else s.thread ⟨c, m⟩) ∧
      s.puts t [((corePage c 0, 0x988), BitVec.ofNat 32 (min 0xFFFFFFFF ((s.liveWord (corePage c 0) 0x988).toNat + 1)))]) ∧
  (∀ x : Site, (s.thread x).tmrcmp ≠ 0 → (s.thread x).tmrcmp.toNat ≤ s.cycleOf x.core →
    Leads (exec (.cycleTimerMatch x) s) fun t => s.onlyThread t x ∧
      t.thread x = { s.thread x with tmrcmp := 0, intpend := (s.thread x).intpend ||| 0x20 }))

/-- A queue instruction goes into its queue with the operands it captures, and its thread goes on; with the queue full the thread waits
(R94, R133, R167 to R169). A token at the head of its queue sets its event bit; QDISC drops the entry at fault of a stopped queue, or
with ALL set that entry and those behind it, and on the matrix queue that only a tile move stops, the move (R145, R164, R170, R171). -/
def Obligations.QueuesOfACore : Prop :=
  (∀ (s : State) (x : Site) (i : Instr) (vals : List Word) (segs : List SegImage) (q : Nat)
  (l : Queue) (h : Thread), h = s.thread x → captures h i = some (x, vals, segs) → q = queueOf i →
  l = (s.core x.core).queue q → s.ready x i = true →
  (l.entries.length < (if q = 2 then 8 else 16) → Leads (exec i s) fun t =>
    s.ends x id (fun k => k.setQueue q .empty) t ∧ (t.core x.core).queue q = { l with entries := l.entries ++
      [{ instr := i, seq := (s.core x.core).issueSeq, thread := x.thread, ring := h.ring
         pc := if h.rep.isSome then h.pc + 1 else h.pc, vals := vals, segs := segs, phase := .waiting, desc := [], row := 0
         byte := 0 }] }) ∧
  ((if q = 2 then 8 else 16) ≤ l.entries.length → Leads (exec i s) fun t =>
    s.onlyThread t x ∧ t.thread x = { h with wait := some (.queue (Fin.ofNat 3 q)) })) ∧
  (∀ (s : State),
  (∀ (c : CoreId) (q : Fin 3) (e : QEntry) (l : List QEntry) (y : Site) (f : FmtToken) (o : Queue), s.running = true →
    (s.core c).queue q.val = o → o.entries = e :: l → o.stop = none → (∀ m, o.byMove = some m → e.seq ≤ m.seq) →
    e.instr = .token y f → s.writesHeld c (if q = 0 then 2 else if q = 1 then 1 else 3) e.seq = false →
    Leads (exec (.tokenComplete c q) s) fun t => s.onlyCore c (fun k => { k.setQueue q.val .empty with threads := [] }) t ∧
      (t.core c).queue q.val = { o with entries := l } ∧ ∀ n : Fin 4, t.thread ⟨c, n⟩ = if n = e.thread then
        { s.thread ⟨c, n⟩ with ev := (s.thread ⟨c, n⟩).ev ||| BitVec.ofNat 32 (2 ^ f.evbit.toNat) } else s.thread ⟨c, n⟩) ∧
  (∀ (x : Site) (f : FmtX) (q : Nat) (l : Queue), s.ready x (.qdisc x f) = true → q = f.n.toNat % 4 → l = (s.core x.core).queue q →
    (l.stop = none → l.byMove = none → Leads (exec (.qdisc x f) s) (s.steps x id)) ∧
    (∀ e, l.stop = some e → Leads (exec (.qdisc x f) s) fun t =>
      (s.unawait x.core (if q = 0 then 2 else if q = 1 then 1 else 3) e.seq).ends x id (fun k => k.setQueue q .empty) t ∧
        (t.core x.core).queue q = { l with
          entries := l.entries.filter fun a => if f.n.getLsbD 2 then decide (a.seq < e.seq) else decide (a.seq ≠ e.seq) }) ∧
    (∀ e, l.stop = none → l.byMove = some e → q = 0 → Leads (exec (.qdisc x f) s) fun t =>
      s.ends x id (fun k => { k with mq := .empty, vq := .empty }) t ∧
        (t.core x.core).vq = { (s.core x.core).vq with entries := (s.core x.core).vq.entries.filter fun a => decide (a.seq ≠ e.seq) } ∧
        (t.core x.core).mq = if f.n.getLsbD 2 then { l with entries := l.entries.filter fun a => decide (a.seq ≤ e.seq) } else l)))

/-- Vector arithmetic in an idle vector engine: each active lane of the destination takes its result, the others keep theirs, and
nothing else changes (R132, R135, R136, R138, R142). -/
def Obligations.VectorResults : Prop := ∀ (s : State) (x : Site) (k : Core), k = s.core x.core → s.quiet = true → k.vq.stop = none →
  let lanes (vd : BitVec 4) (w : Nat) (on : Nat → Bool) (new : Nat → Nat) (t : State) : Prop :=
    s.ends x id (fun k => { k with vreg := [] }) t ∧ (∀ n, n ≠ vd.toNat → (t.core x.core).vr n = k.vr n) ∧
      ∀ i, i < 1024 / w → bitElem w ((t.core x.core).vr vd.toNat) i = if on i then new i % 2 ^ w else bitElem w (k.vr vd.toNat) i
  (∀ (f : FmtVop) (w fm : Nat) (a b : Nat → Nat), fm = f.fmt.toNat → w = fmtWidth fm → a = bitElem w (k.vr f.va.toNat) →
    b = bitElem w (k.vr f.vb.toNat) → s.ready x (.vop x f) = true →
    ∃ v : Nat → Nat, Answers (exec (.vop x f) s) (lanes f.vd w (k.active f.mask) v) ∧ ∀ i,
      (f.func = 0 → v i = (roundNE fm (Num.sum [decodeNum fm (a i), decodeNum fm (b i)])).bits) ∧
      (f.func = 1 → v i = (roundNE fm (Num.sum [decodeNum fm (a i), (decodeNum fm (b i)).neg])).bits) ∧
      (f.func = 2 → v i = (roundNE fm ((decodeNum fm (a i)).mul (decodeNum fm (b i)))).bits) ∧
      (f.func = 3 → v i = (roundNE fm (minNum (decodeNum fm (a i)) (decodeNum fm (b i)))).bits) ∧
      (f.func = 4 → v i = (roundNE fm (maxNum (decodeNum fm (a i)) (decodeNum fm (b i)))).bits) ∧
      (f.func = 5 → v i = (roundNE fm (decodeNum fm (a i)).abs).bits) ∧
      (f.func = 6 → v i = (roundNE fm (decodeNum fm (a i)).neg).bits) ∧ (f.func = 7 → v i = a i) ∧
      (f.func = 8 → v i = a i &&& b i) ∧ (f.func = 9 → v i = a i ||| b i) ∧ (f.func = 10 → v i = a i ^^^ b i) ∧
      (f.func = 11 → v i = if w ≤ b i then 0 else (a i <<< b i) % 2 ^ w) ∧
      (f.func = 12 → v i = if w ≤ b i then 0 else a i >>> b i) ∧
      (f.func = 13 → v i = ((BitVec.ofNat w (a i)).sshiftRight (b i)).toNat) ∧ (f.func = 14 → v i = 0) ∧ f.func.toNat ≤ 14) ∧
  (∀ (f : FmtVfma) (fm : Nat) (e : BitVec 4 → Nat → Machine.Num), fm = f.fmt.toNat →
    (∀ r i, e r i = decodeNum fm (bitElem 16 (k.vr r.toNat) i)) → s.ready x (.vfma x f) = true →
    Answers (exec (.vfma x f) s) (lanes f.vd 16 (k.active f.mask)
      fun i => (roundNE fm (Num.sum [(e f.va i).mul (e f.vb i), e f.vc i])).bits)) ∧
  (∀ (f : FmtVtr), s.ready x (.vtr x f) = true →
    Answers (exec (.vtr x f) s) (lanes f.vd 16 (k.active f.mask)
      fun i => (vtrElem f.fn.toNat f.fmt.toNat (bitElem 16 (k.vr f.va.toNat) i)).bits)) ∧
  (∀ (f : FmtVperm) (w n sv : Nat) (a b : Nat → Nat), w = (if f.w = 0 then 16 else 8) → n = 1024 / w →
    a = bitElem w (k.vr f.va.toNat) → b = bitElem w (k.vr f.vb.toNat) → sv = (s.reg x (reg4 f.vb)).toNat →
    s.ready x (.vperm x f) = true →
    (f.func = 0 → Answers (exec (.vperm x f) s)
      (lanes f.vd w (fun _ => true) fun i => if (k.mr (f.mask.toNat % 8)).getLsbD i then a i else b i)) ∧
    (f.func ≠ 0 → f.func ≠ 9 → ∃ v : Nat → Nat, Answers (exec (.vperm x f) s) (lanes f.vd w (k.active f.mask) v) ∧
      ∀ i, i < n → (f.func = 1 → v i = a (b i % n)) ∧
        (f.func = 2 → v i = if i % 2 = 0 then a (i / 2) else b (i / 2)) ∧
        (f.func = 3 → v i = if i % 2 = 0 then a (n / 2 + i / 2) else b (n / 2 + i / 2)) ∧
        (f.func = 4 → v i = if 2 * i < n then a (2 * i) else b (2 * i - n)) ∧
        (f.func = 5 → v i = if 2 * i + 1 < n then a (2 * i + 1) else b (2 * i + 1 - n)) ∧
        (f.func = 6 → v i = a ((i + sv) % n)) ∧ (f.func = 7 → v i = a (sv % n)) ∧ (f.func = 8 → v i = sv)) ∧
    (f.func = 9 → Answers (exec (.vperm x f) s)
      (s.turns x id ((s.thread x).retire.setReg (reg4 f.vd) (BitVec.ofNat 32 (a (sv % n)))))) ∧ f.func.toNat ≤ 9)

/-- VRED reduces the active lanes of a register, or of the products of two, and writes the one result to every lane; VCVT converts
packed elements between formats (R140, R141). VMAC and VADDAC accumulate each active lane exactly and round once, tally what they
write, and advance the drip counter with RM 0 (R66 to R72, R139). -/
def Obligations.VectorReductionAndAccumulation : Prop :=
  (∀ (s : State) (x : Site) (k : Core), k = s.core x.core → s.quiet = true → k.vq.stop = none →
  let others (vd : BitVec 4) (t : State) : Prop := ∀ n, n ≠ vd.toNat → (t.core x.core).vr n = k.vr n
  let rest (k : Core) : Core := { k with vreg := [] }
  (∀ (f : FmtVred) (w : Nat) (on : List Nat) (e : BitVec 4 → List Machine.Num), s.ready x (.vred x f) = true →
    w = fmtWidth f.sf.toNat → on = (List.range (1024 / w)).filter (k.active f.mask) →
    (∀ r, e r = on.map fun i => decodeNum f.sf.toNat (bitElem w (k.vr r.toNat) i)) →
    (on = [] → Answers (exec (.vred x f) s) (s.steps x id)) ∧
    (on ≠ [] → Answers (exec (.vred x f) s) fun t => s.ends x id rest t ∧ others f.vd t ∧
      ∀ i, i < 64 → bitElem 16 ((t.core x.core).vr f.vd.toNat) i =
        (roundNE (accFmt f.df.toNat) (vredNum f.rop.toNat (e f.va) (e f.vb))).bits % 2 ^ 16)) ∧
  (∀ (f : FmtVcvt) (ws wd n part : Nat) (es : List Elem), s.ready x (.vcvt x f) = true → ws = fmtWidth f.sf.toNat →
    wd = fmtWidth f.df.toNat → n = 1024 / max ws wd → part = (if ws < wd then n * f.part.toNat else 0) →
    es = (List.range n).map (fun i => roundNE f.df.toNat (decodeNum f.sf.toNat (bitElem ws (k.vr f.va.toNat) (part + i)))) →
    Answers (exec (.vcvt x f) s) fun t => s.ends x id rest { t with live := s.live } ∧ others f.vd t ∧
      t.live = (s.tally (.core x.core) f.tally.toNat f.df.toNat es).live ∧
      ∀ i, i < 1024 / wd → bitElem wd ((t.core x.core).vr f.vd.toNat) i =
        let at_ := if wd < ws then n * f.part.toNat else 0
        if at_ ≤ i ∧ i < at_ + n then (es.getD (i - at_) (Elem.ofBits 0)).bits % 2 ^ wd
        else bitElem wd (k.vr f.vd.toNat) i)) ∧
  (∀ (s : State) (x : Site) (f : FmtVmac) (k : Core) (c : CoreId) (sf df ctr : Nat)
  (e : Nat → BitVec 4 → Nat → Machine.Num) (on : List Nat), c = x.core → k = s.core c → s.quiet = true → k.vq.stop = none →
  sf = accFmt f.sf.toNat → df = accFmt f.df.toNat → ctr = (s.liveWord (corePage c 0) 0x884).toNat →
  (∀ g r i, e g r i = decodeNum g (bitElem 16 (k.vr r.toNat) i)) → on = (List.range 64).filter (k.active f.mask) →
  let ends (terms : Nat → List Machine.Num) (t : State) : Prop :=
    let new (i : Nat) : Elem :=
      roundAcc df (f.rm = 1) (dripBits (s.seed c.hall) (0x800 + c.val) ctr i) (Num.sum (e df f.vd i :: terms i))
    let u := s.tally (.core c) f.tally.toNat df (on.map new)
    s.ends x id (fun k => { k with vreg := [] }) { t with live := s.live } ∧
      t.live = (if f.rm = 0 then u.setLive (corePage c 0) 0x884 (BitVec.ofNat 32 (ctr + 1)) else u).live ∧
      (∀ n, n ≠ f.vd.toNat → (t.core c).vr n = k.vr n) ∧
      ∀ i, i < 64 → bitElem 16 ((t.core c).vr f.vd.toNat) i =
        if k.active f.mask i then (new i).bits % 2 ^ 16 else bitElem 16 (k.vr f.vd.toNat) i
  (s.ready x (.vmac x f) = true → Answers (exec (.vmac x f) s) (ends fun i => [(e sf f.va i).mul (e sf f.vb i)])) ∧
  (s.ready x (.vaddac x f) = true → Answers (exec (.vaddac x f) s) (ends fun i => [e sf f.va i, e sf f.vb i])))

/-- VCMP writes its tests to the active lanes of a mask register; VMASK combines, builds, counts and moves mask registers (R137, R146). -/
def Obligations.MaskResults : Prop := ∀ (s : State) (x : Site) (k : Core), k = s.core x.core → s.quiet = true → k.vq.stop = none →
  let writes (md : BitVec 3) (bit : Nat → Bool) (t : State) : Prop :=
    s.ends x id (fun k => { k with mreg := [] }) t ∧ (∀ n, n ≠ md.toNat → (t.core x.core).mr n = k.mr n) ∧
      ∀ i, i < 128 → ((t.core x.core).mr md.toNat).getLsbD i = bit i
  let gets (rd : BitVec 5) (v : Nat) : State → Prop := s.turns x id ((s.thread x).retire.setReg rd (BitVec.ofNat 32 v))
  (∀ (f : FmtVcmp) (w : Nat) (test : Nat → Bool) (old : Nat → Bool), s.ready x (.vcmp x f) = true → w = fmtWidth f.fmt.toNat →
    (∀ i, test i = vcmpTest f.cond.toNat f.fmt.toNat (bitElem w (k.vr f.va.toNat) i) (bitElem w (k.vr f.vb.toNat) i)) →
    (∀ i, old i = (k.mr f.md.toNat).getLsbD i) →
    Answers (exec (.vcmp x f) s) (writes f.md fun i =>
      if i < 1024 / w ∧ k.active f.mask i = true then
        (if f.mop = 0 then test i else if f.mop = 1 then old i && test i else old i || test i)
      else old i)) ∧
  (∀ (f : FmtVmask) (a b : Nat → Bool) (v : Word), s.ready x (.vmask x f) = true → (∀ i, a i = (k.mr f.ma.toNat).getLsbD i) →
    (∀ i, b i = (k.mr f.mb.toNat).getLsbD i) → v = s.reg x f.sn →
    (f.mfunc = 0 → Answers (exec (.vmask x f) s) (writes f.md fun i => a i && b i)) ∧
    (f.mfunc = 1 → Answers (exec (.vmask x f) s) (writes f.md fun i => a i || b i)) ∧
    (f.mfunc = 2 → Answers (exec (.vmask x f) s) (writes f.md fun i => a i != b i)) ∧
    (f.mfunc = 3 → Answers (exec (.vmask x f) s) (writes f.md fun i => a i && !b i)) ∧
    (f.mfunc = 4 → Answers (exec (.vmask x f) s) (writes f.md fun i => !a i)) ∧
    (f.mfunc = 5 → Answers (exec (.vmask x f) s) (writes f.md fun i => decide (i < v.toNat))) ∧
    (f.mfunc = 6 → Answers (exec (.vmask x f) s) (gets f.sn ((List.range 128).countP a))) ∧
    (f.mfunc = 7 → Answers (exec (.vmask x f) s) (writes f.md fun i =>
      if i / 32 = f.word.toNat then v.getLsbD (i % 32) else (k.mr f.md.toNat).getLsbD i)) ∧
    (f.mfunc = 8 → Answers (exec (.vmask x f) s) (gets f.sn ((k.mr f.ma.toNat).extractLsb' (32 * f.word.toNat) 32).toNat)) ∧
    f.mfunc.toNat ≤ 8)

/-- VLD and VST in an idle vector engine: each active lane is read from, or stored at, its place; no other lane and no other byte
changes (R143). -/
def Obligations.VectorMemory : Prop := ∀ (s : State) (x : Site) (f : FmtVls) (k : Core) (w wb base : Nat) (d : SegImage) (on : List Nat),
  k = s.core x.core → s.quiet = true → k.vq.stop = none → w = fmtWidth f.fmt.toNat → wb = w / 8 → d = (s.thread x).seg f.seg.toNat →
  base = segBase d + (s.reg x (reg4 f.sn)).toNat → on = (List.range (1024 / w)).filter (k.active f.mask) →
  let checks (right : Right) : Prop := ∀ i j, i ∈ on → j ∈ on → i ≤ j →
    segCheck d (s.thread x).ring.toNat right ((s.reg x (reg4 f.sn)).toNat + i * wb : Nat) ((j - i + 1) * wb) wb = none
  (s.ready x (.vld x f) = true → checks .read → (∀ i ∈ on, s.takesRead (.core x) (base + i * wb) wb) →
    Answers (exec (.vld x f) s) fun t => s.ends x id (fun k => { k with vreg := [] }) { t with live := s.live } ∧
      (∀ n, n ≠ f.vr.toNat → (t.core x.core).vr n = k.vr n) ∧
      ∀ i, i < 1024 / w → bitElem w ((t.core x.core).vr f.vr.toNat) i =
        if i ∈ on then bytesNat (s.bytesAt (base + i * wb) wb) else bitElem w (k.vr f.vr.toNat) i) ∧
  (s.ready x (.vst x f) = true → checks .write →
    (∀ i ∈ on, s.takesWrite (.core x) (base + i * wb) wb ∧ s.tierClean (base + i * wb)) →
    Answers (exec (.vst x f) s) fun t =>
      s.steps x id { t with live := s.live, mem := s.mem, near := s.near, cxl := s.cxl, poison := s.poison, cxlLost := s.cxlLost } ∧
      (∀ i ∈ on, t.bytesAt (base + i * wb) wb = natBytes wb (bitElem w (k.vr f.vr.toNat) i)) ∧
      ∀ b, (∀ i ∈ on, ¬(base + i * wb ≤ b ∧ b < base + i * wb + wb)) → t.byteAt b = s.byteAt b)

/-- TCFG writes a shape that R86 allows and TSHR reads one; TZERO clears the rows of the tiles it names; VMVF and VMVT move a row
between a tile and a vector register (R86, R88, R89, R103, R144). -/
def Obligations.TileOperations : Prop := ∀ (s : State) (x : Site) (k : Core), k = s.core x.core → s.quiet = true →
  k.mq.stop = none → k.mq.byMove = none → k.vq.stop = none → k.shapesOk = true →
  let rest (k : Core) : Core := { k with tile := [], tshape := [], opcA := [], opcB := [], latchA := none, latchB := none }
  (∀ (form : TcfgForm) (f : FmtTcfg) (v : Word), s.ready x (.tcfg x form f) = true →
    (form = .imm → v = BitVec.ofNat 32 (f.rows.toNat + f.bpr.toNat * 2 ^ 6 + f.fmt.toNat * 2 ^ 10 + f.scaled.toNat * 2 ^ 14 +
      f.stile.toNat * 2 ^ 15)) →
    (form = .reg → v = s.reg x (f.rows.extractLsb' 1 5)) → tcfgCode f.tile.toNat v = none →
    Answers (exec (.tcfg x form f) s) fun t => s.ends x id rest t ∧ (t.core x.core).tile = k.tile ∧
      ∀ n, (t.core x.core).shape n = if n = f.tile.toNat then (if tsRows v = 0 then 0 else v) else k.shape n) ∧
  (∀ f : FmtTcfg, s.ready x (.tshr x f) = true → Answers (exec (.tshr x f) s)
    (s.turns x id ((s.thread x).retire.setReg (f.rows.extractLsb' 1 5) (k.shape f.tile.toNat)))) ∧
  (∀ f : FmtTzero, s.ready x (.tzero x f) = true → (∀ n, n < 16 → f.mask.getLsbD n = true → tsRows (k.shape n) ≠ 0) →
    Answers (exec (.tzero x f) s) fun t => s.ends x id rest { t with live := s.live } ∧
      (t.core x.core).tshape = k.tshape ∧
      ∀ n r, n < 16 → r < 32 → ((t.core x.core).tileRow n r).toNat =
        if f.mask.getLsbD n = true ∧ r < tsRows (k.shape n) then
          (k.tileRow n r).toNat / 2 ^ (8 * tsBpr (k.shape n)) * 2 ^ (8 * tsBpr (k.shape n)) else (k.tileRow n r).toNat) ∧
  (∀ f : FmtVmv, tsRows (k.shape f.tile.toNat) ≠ 0 → f.row.toNat < tsRows (k.shape f.tile.toNat) →
    let m := 2 ^ (8 * tsBpr (k.shape f.tile.toNat))
    (s.ready x (.vmvf x f) = true → Answers (exec (.vmvf x f) s) fun t => s.ends x id (fun k => { k with vreg := [] }) t ∧
      ∀ n, (t.core x.core).vr n =
        if n = f.vr.toNat then (k.tileRow f.tile.toNat f.row.toNat).toNat % m else k.vr n) ∧
    (s.ready x (.vmvt x f) = true → Answers (exec (.vmvt x f) s) fun t => s.ends x id rest { t with live := s.live } ∧
      (t.core x.core).tshape = k.tshape ∧
      ∀ n r, n < 16 → r < 32 → ((t.core x.core).tileRow n r).toNat =
        if n = f.tile.toNat ∧ r = f.row.toNat then (k.tileRow n r).toNat / m * m + k.vr f.vr.toNat % m else (k.tileRow n r).toNat))

/-- TLD and TLDX fill the rows of a tile from memory: whole rows, columns when transposed, the active rows of a gather; an element whose
format differs is converted, and with a scale tile its scales are written beside it (R96 to R102). TST stores the rows of a tile, or
its columns when transposed, in ascending order; no other byte of memory changes (R96 to R100). -/
def Obligations.TileLoadsAndStores : Prop :=
  (∀ (s : State) (x : Site) (k : Core) (h : Thread), h = s.thread x → k = s.core x.core →
  s.quiet = true → k.mq.stop = none → k.mq.byMove = none → k.shapesOk = true →
  let rest (k : Core) : Core := { k with tile := [], opcA := [], opcB := [], latchA := none, latchB := none }
  let row (t : State) (n r : Nat) : Nat := ((t.core x.core).tileRow n r).toNat
  let filled (tile m : Nat) (w : Word) (src : List (Nat × List Nat)) (zeroed : Nat → Bool) (t : State) : Prop :=
    s.ends x id rest { t with live := s.live } ∧
    (∀ r encs, (r, encs) ∈ src → ∃ v, v = rowIn w m encs ∧
      (∀ i, i < tsElems w → bitElem (fmtWidth (tsFmt w)) (row t tile r) i = v.encs.getD i 0 % 2 ^ fmtWidth (tsFmt w)) ∧
      ∀ l, v.scales = some l → ∀ i, i < l.length → bitElem 8 (row t (tsStile w) r) i = l.getD i 0 % 2 ^ 8) ∧
    (∀ r, r < 32 → (∀ encs, (r, encs) ∉ src) → zeroed r = true →
      row t tile r = (k.tileRow tile r).toNat / 2 ^ (8 * tsBpr w) * 2 ^ (8 * tsBpr w) ∧
      (tsScaled w = true → row t (tsStile w) r = (k.tileRow (tsStile w) r).toNat / 2 ^ (8 * tsBpr (k.shape (tsStile w))) *
        2 ^ (8 * tsBpr (k.shape (tsStile w))))) ∧
    (∀ r, r < 32 → (∀ encs, (r, encs) ∉ src) → zeroed r = false → row t tile r = (k.tileRow tile r).toNat) ∧
    (∀ n r, n < 16 → r < 32 → n ≠ tile → (tsScaled w = true → n ≠ tsStile w) → row t n r = (k.tileRow n r).toNat)
  (∀ (f : FmtTls) (w : Word) (m n count : Nat) (a : Nat → Nat) (encs : Nat → List Nat) (d : SegImage), s.ready x (.tld x f) = true →
    w = k.shape f.tile.toNat → m = f.mfmt.toNat → k.transferFault f.tile.toNat m (f.t = 1) = none → d = h.seg f.seg.toNat →
    n = (if f.t = 1 then tsRows w else tsElems w) → count = (if f.t = 1 then tsElems w else tsRows w) →
    (∀ r, r < count → ∃ o : Int, o = (h.reg (pairLo f.pair)).toNat + r * (h.reg (pairHi f.pair)).toInt ∧
      a r = segBase d + o.toNat ∧ segCheck d h.ring.toNat .read o (n * fmtWidth m / 8) 16 = none ∧
      ∀ j, j < n * fmtWidth m / 8 → s.takesRead (.core x) (a r + j) 1) →
    (∀ r, encs r = bitElems (fmtWidth m) n (bytesNat (s.bytesAt (a r) (n * fmtWidth m / 8)))) →
    Answers (exec (.tld x f) s) (filled f.tile.toNat m w ((List.range (tsRows w)).map fun r =>
      (r, if f.t = 1 then (List.range count).map (fun i => (encs i).getD r 0) else encs r)) fun _ => false)) ∧
  (∀ (f : FmtTldx) (w : Word) (m n : Nat) (a : Nat → Nat) (d : SegImage) (on : Nat → Bool), s.ready x (.tldx x f) = true →
    w = k.shape f.tile.toNat → m = f.mfmt.toNat → k.transferFault f.tile.toNat m false = none → d = h.seg f.seg.toNat →
    n = tsElems w → (∀ r, on r = (f.masken == 0 || (k.mr f.mreg.toNat).getLsbD r)) →
    (∀ r, r < tsRows w → on r = true → ∃ o, o = bitElem 32 (k.vr f.vreg.toNat) r ∧ a r = segBase d + o ∧
      segCheck d h.ring.toNat .read (o : Int) (n * fmtWidth m / 8) 16 = none ∧
      ∀ j, j < n * fmtWidth m / 8 → s.takesRead (.core x) (a r + j) 1) →
    Answers (exec (.tldx x f) s) (filled f.tile.toNat m w
      (((List.range (tsRows w)).filter on).map fun r => (r, bitElems (fmtWidth m) n (bytesNat (s.bytesAt (a r) (n * fmtWidth m / 8)))))
      fun r => decide (r < tsRows w) && !on r && f.zm == 1))) ∧
  (∀ (s : State) (x : Site) (f : FmtTls) (k : Core) (h : Thread) (w : Word) (m n count len : Nat)
  (a : Nat → Nat) (d : SegImage) (out : Nat → Nat → Elem), h = s.thread x → k = s.core x.core → s.quiet = true → k.mq.stop = none →
  k.mq.byMove = none → k.shapesOk = true → s.ready x (.tst x f) = true → w = k.shape f.tile.toNat → m = f.mfmt.toNat → k.transferFault f.tile.toNat m (f.t = 1) = none →
  d = h.seg f.seg.toNat → n = (if f.t = 1 then tsRows w else tsElems w) → count = (if f.t = 1 then tsElems w else tsRows w) →
  len = n * fmtWidth m / 8 →
  (∀ r, r < count → ∃ o : Int, o = (h.reg (pairLo f.pair)).toNat + r * (h.reg (pairHi f.pair)).toInt ∧
    a r = segBase d + o.toNat ∧ segCheck d h.ring.toNat .write o len 16 = none ∧
    ∀ j, j < len → s.takesWrite (.core x) (a r + j) 1 ∧ s.tierClean (a r + j)) →
  (∀ r i, out r i = (if f.t = 1 then (rowOut k f.tile.toNat i m).getD r (Elem.ofBits 0)
    else (rowOut k f.tile.toNat r m).getD i (Elem.ofBits 0))) →
  Answers (exec (.tst x f) s) fun t =>
    s.steps x id { t with live := s.live, mem := s.mem, near := s.near, cxl := s.cxl, poison := s.poison, cxlLost := s.cxlLost } ∧
    (∀ r j, r < count → j < len → (∀ q, r < q → q < count → ¬(a q ≤ a r + j ∧ a r + j < a q + len)) →
      t.byteAt (a r + j) =
        (natBytes len (packElems (fmtWidth m) ((List.range n).map fun i => (out r i).bits))).getD j 0) ∧
    ∀ b, (∀ r, r < count → ¬(a r ≤ b ∧ b < a r + len)) → t.byteAt b = s.byteAt b)

/-- The matrix unit: an MMA commits its products to C, tallies them and advances the drip counter; a unit comes to rest 2,048 core cycles
after its last commit or abandonment, and is admitted in its group's slot of an open window, unless its queue has stopped (R106, R111
to R114, R123, R127, R128). -/
def Obligations.MatrixUnit : Prop := ∀ (s : State), s.running = true →
  (∀ (c : CoreId) (k : Core) (e : QEntry) (l : List QEntry) (y : Site) (f : FmtMma) (w : Word) (ctr : Nat), k = s.core c →
    k.shapesOk = true → k.mq.entries = e :: l → e.instr = .mma y f → e.phase = .underWay → w = k.shape f.ct.toNat →
    fmtWidth (tsFmt w) = 16 → ctr = (s.liveWord (corePage c 0) 0x880).toNat →
    let new (i j : Nat) : Elem := mmaElem (tsFmt w) (f.rm = 1) f.shift.toNat (dripBits (s.seed c.hall) c.val ctr (i * 32 + j))
      ((k.rowEncs f.ct.toNat i).getD j 0) (k.rowNums f.at_.toNat i) (k.rowNums f.bt.toNat j)
    Leads (exec (.mmaCommit c) s) fun t =>
      s.onlyCore c (fun k => { k with tile := [], opcA := [], opcB := [], latchA := none, latchB := none, mtxAt := 0, mq := .empty })
        { t with live := s.live } ∧
      (t.core c).mq = { k.mq with entries := l } ∧ (t.core c).mtxAt = (s.hall c.hall).cycles ∧
      (∀ i j, i < tsRows w → j < tsElems w →
        bitElem 16 ((t.core c).tileRow f.ct.toNat i).toNat j = (new i j).bits % 2 ^ 16) ∧
      (∀ n i, n < 16 → i < 32 → ¬(n = f.ct.toNat ∧ i < tsRows w) → (t.core c).tileRow n i = k.tileRow n i) ∧
      t.liveWord (corePage c 0) 0x880 = (if f.rm = 0 then BitVec.ofNat 32 (ctr + 1) else BitVec.ofNat 32 ctr) ∧
      ∀ o, o < 4096 → t.liveWord (corePage c 2) o = (s.tally (.core c) f.tally.toNat (tsFmt w)
        ((List.range (tsRows w)).flatMap fun i => (List.range (tsElems w)).map fun j => new i j)).liveWord (corePage c 2) o) ∧
  (∀ c : CoreId, (∀ e ∈ (s.core c).mq.entries, e.phase ≠ .underWay) →
    ((s.core c).mtxAt + 2048 ≤ (s.hall c.hall).cycles → Leads (exec (.matrixRest c) s) fun t =>
      s.onlyCore c (fun k => { k with resting := true }) t ∧ (t.core c).resting = true) ∧
    ((s.hall c.hall).cycles < (s.core c).mtxAt + 2048 → (s.core c).resting = false →
      Leads (exec (.matrixRest c) s) (· = s))) ∧
  (s.someWaits = true → (∀ w, s.window = some w → w + 768 ≤ (s.hall 0).cycles) →
    Leads (exec .admissionWindowOpen s) (· = { s with window := some (s.hall 0).cycles })) ∧
  (∀ (g : Fin 12) (w : Nat), s.window = some w → (s.hall 0).cycles = w + 64 * g.val → s.coresOk →
    Leads (exec (.admissionGroupSlot g) s) fun t =>
      (∀ d : CoreId, d.index % 12 ≠ g.val → t.core d = s.core d) ∧
      (∀ d : CoreId, (s.core d).mq.stop.isSome = true → t.core d = s.core d) ∧
      ∀ (c : CoreId) (k : Core) (pre post : List QEntry) (e : QEntry) (y : Site) (f : FmtMma) (n : Nat), c.index % 12 = g.val →
        k = s.core c → k.mq.entries = pre ++ e :: post → (∀ q ∈ pre, q.heldSince = none) → e.phase = .held n → e.instr = .mma y f →
        k.mq.stop = none → (∀ m, k.mq.byMove = some m → e.seq ≤ m.seq) →
        (t.core c).resting = false ∧ (t.core c).mq = { k.mq with entries := pre ++ { e with phase := .underWay } :: post } ∧
          (t.core c).latchA = some ⟨f.at_.toNat, tsRows (k.shape f.at_.toNat)⟩ ∧
          (t.core c).latchB = some ⟨f.bt.toNat, tsRows (k.shape f.bt.toNat)⟩)

/-- The core DMA engine reads its descriptor once, also across faults, and stops at a reserved value; it moves the rows and sets the
descriptor's event bit when it completes it, once no memory holds a write of it (R172 to R176, R256). -/
def Obligations.CoreDmaEngine : Prop := ∀ (s : State) (c : CoreId) (e : QEntry) (l : List QEntry), s.running = true →
  (s.core c).dq = ⟨e :: l, none, none⟩ →
  let rest (k : Core) : Core := { k with dq := .empty }
  (∀ y f s1 d, e.instr = .dmaq y f → e.phase = .waiting → s.fenced c 3 e.seq = false →
    (e.desc = [] ∧ s.readStalls (.core ⟨c, e.thread⟩) (segBase (e.segs.getD 0 0) + (e.vals.headD 0).toNat) 32 = false ∧
      s.readDmaDesc c e = (s1, .ok d) ∨ e.desc = d ∧ d ≠ [] ∧ s1 = s) →
    ((dmaDescOf d).reserved = false → Leads (exec (.coreDmaStart c) s) fun t => s1.onlyCore c rest t ∧
      (t.core c).dq = ⟨{ e with phase := .underWay, desc := d } :: l, none, none⟩) ∧
    ((dmaDescOf d).reserved = true → Leads (exec (.coreDmaStart c) s) fun t =>
      t.liveWord (corePage c 0) 0x930 = BitVec.ofNat 32 (6 + e.thread.val * 2 ^ 5) ∧
      (t.core c).dq = ⟨{ e with desc := d, row := 0, byte := 0 } :: l, some ⟨e.thread, 0, false, e.seq⟩, none⟩)) ∧
  (∀ d s1, e.phase = .underWay → d = dmaDescOf e.desc → s.dmaStalls c e d = false →
    s.dmaRows c e d (if d.rowLen = 0 then 0 else d.rows - e.row) e.row e.byte = (s1, none) →
    (s1.writesHeld c 3 (e.seq + 1) = true → Leads (exec (.coreDmaComplete c) s) fun t => s1.onlyCore c rest t ∧
      (t.core c).dq = ⟨{ e with row := d.rows, byte := 0 } :: l, none, none⟩) ∧
    (s1.writesHeld c 3 (e.seq + 1) = false → Leads (exec (.coreDmaComplete c) s) fun t =>
      s1.onlyCore c (fun k => { k with dq := .empty, threads := [] }) t ∧ (t.core c).dq = ⟨l, none, none⟩ ∧ ∀ n : Fin 4, t.thread ⟨c, n⟩ =
        match d.ev with
        | some b => if n = e.thread then { s1.thread ⟨c, n⟩ with ev := (s1.thread ⟨c, n⟩).ev ||| BitVec.ofNat 32 (2 ^ b) }
          else s1.thread ⟨c, n⟩
        | none => s1.thread ⟨c, n⟩)) ∧
  (∀ d a b, e.phase = .underWay → d = dmaDescOf e.desc → d.rows = 1 → e.row = 0 → e.byte = 0 → d.rowLen ≠ 0 →
    s.dmaStalls c e d = false → dmaRowCheck e d 0 0 = none → a = segBase (e.segs.getD 1 0) + d.src →
    b = segBase (e.segs.getD 2 0) + d.dst → (∀ j, j < d.rowLen → s.takesWrite (.core ⟨c, e.thread⟩) (b + j) 1) →
    (d.op = 1 → Leads (exec (.coreDmaComplete c) s) fun t =>
      s.stores t b ((List.range d.rowLen).map fun i => BitVec.ofNat 8 (d.fill / 2 ^ (8 * (i % 4))))) ∧
    (d.op = 0 → (∀ j, j < d.rowLen → s.takesRead (.core ⟨c, e.thread⟩) (a + j) 1) → a + d.rowLen ≤ b ∨ b + d.rowLen ≤ a →
      Leads (exec (.coreDmaComplete c) s) fun t => s.stores t b (s.bytesAt a d.rowLen)))

/-- WRCH and WRCHB write the staging buffer and open the channel; CLOSE closes the message, which is held until it departs (R281 to
R283). RECV takes the entry at RX or waits for one; RFREE frees entries and returns their credits; SUMPARM arms a sump (R279, R280,
R287). -/
def Obligations.ChannelTransfers : Prop :=
  (∀ (s : State) (x : Site) (f : FmtC) (h : Thread) (v : SendChan) (g : ChanCfg),
  f.id.toNat < 32 → h = s.thread x → v = (s.core x.core).chanOf f.id.toNat → g = s.chanCfg x.core f.id.toNat → g.kind ≠ 0 →
  v.openBy = some x.thread ∨ v.openBy = none ∧ 0 < v.avail → (h.openCh = none ∨ h.openCh = some (Fin.ofNat 32 f.id.toNat)) →
  let fresh : Bool := v.openBy != some x.thread
  let rest (k : Core) : Core := { k with chan := [] }
  let others (t : State) : Prop := ∀ n, n ≠ f.id.toNat → (t.core x.core).chanOf n = (s.core x.core).chanOf n
  let open_ (t : State) : Prop := others t ∧ (t.core x.core).chanOf f.id.toNat =
    { v with openBy := some x.thread, avail := if fresh then v.avail - 1 else v.avail }
  let stages (o : Nat) (d : List Byte) (t : State) : Prop := open_ t ∧ ∃ m : SMap Byte, s.ends x
    (fun h => { h with staging := m, openCh := if fresh then some (Fin.ofNat 32 f.id.toNat) else h.openCh }) rest { t with live := s.live } ∧
    ∀ i, SMap.get m i 0 = if o ≤ i ∧ i < o + d.length then d.getD (i - o) 0 else SMap.get h.staging i 0
  (s.ready x (.wrch x f) = true → (s.reg x f.rb).toNat % 4 = 0 → (s.reg x f.rb).toNat < 4096 →
    Leads (exec (.wrch x f) s) (stages (s.reg x f.rb).toNat (natBytes 4 (s.reg x f.ra).toNat))) ∧
  (s.ready x (.wrchb x f) = true → ∀ n o a, n = ((s.reg x f.rb).extractLsb' 16 16).toNat →
    o = ((s.reg x f.rb).extractLsb' 0 16).toNat → a = segBase (h.seg f.rd.toNat) + (s.reg x f.ra).toNat →
    (n = 0 → Leads (exec (.wrchb x f) s) (s.steps x id)) ∧
    (n ≠ 0 → o + n ≤ 4096 → segCheck (h.seg f.rd.toNat) h.ring.toNat .read (s.reg x f.ra).toNat n 1 = none →
      (∀ j, j < n → s.takesRead (.core x) (a + j) 1) → s.scalarHeld x.core = false →
      Leads (exec (.wrchb x f) s) (stages o (s.bytesAt a n)))) ∧
  (s.ready x (.close x f) = true → ∀ n, n = (s.reg x f.ra).toNat → n ≤ 4096 → n ≤ g.maxLen → (g.kind = 3 → n ≤ 64) →
    (g.kind = 3 → g.remote = false → s.chimneyForeign x.hall (g.core % 64) = false) →
    Leads (exec (.close x f) s) fun t => s.ends x (fun h => { h with openCh := none }) rest t ∧ others t ∧
      (t.core x.core).chanOf f.id.toNat =
        { v with openBy := none, avail := if fresh then v.avail - 1 else v.avail
                 held := v.held ++ [⟨(s.core x.core).issueSeq, (List.range n).map fun i => SMap.get h.staging i 0⟩] })) ∧
  (∀ (s : State) (x : Site) (f : FmtC) (u n : Nat) (k : Core), u = f.id.toNat → u < 32 →
  k = s.core x.core → n = s.ringEntries x.core u →
  let g : Ring := k.ringOf u
  let v : Sump := k.sumpOf u
  let cfg : SumpCfg := s.sumpCfg x.core u
  let rings (new : Ring) (t : State) : Prop := ∀ m, (t.core x.core).ringOf m = if m = u then new else k.ringOf m
  (s.ready x (.recv x f) = true → n ≠ 0 →
    (g.rx ≠ g.wr → ∀ e, e = SMap.get g.entry (g.rx % n) ⟨0, false, none⟩ → Leads (exec (.recv x f) s) fun t =>
      s.ends x (fun h => h.setReg f.rd (BitVec.ofNat 32 (g.rx % n + e.len * 2 ^ 8 + if e.trunc then 2 ^ 21 else 0)))
        (fun k => { k with ring := [] }) t ∧ rings { g with rx := (g.rx + 1) % 512 } t) ∧
    (g.rx = g.wr → Leads (exec (.recv x f) s) fun t => s.onlyThread t x ∧
      t.thread x = { s.thread x with wait := some (.recv (Fin.ofNat 32 u)) })) ∧
  (s.ready x (.rfree x f) = true → n ≠ 0 → ∀ m, m = (s.reg x f.ra).toNat → m ≤ ringDist g.rd g.rx →
    Leads (exec (.rfree x f) s) fun t => s.ends x id (fun k => { k with ring := [], heldCredits := [] }) t ∧
      rings { g with rd := (g.rd + m) % 512 } t ∧ (t.core x.core).heldCredits = k.heldCredits ++
        ((List.range m).filterMap fun i => (SMap.get g.entry ((g.rd + i) % n) ⟨0, false, none⟩).sender).map
          fun d => ⟨k.issueSeq, d⟩) ∧
  (s.ready x (.sumparm x f) = true → cfg.en = true → cfg.n ≠ 0 → (s.reg x f.ra).extractLsb' 14 18 = 0 → v.state ≠ 1 →
    let new : Sump := { v with state := 1, drained := 0, arg := s.reg x f.ra, stopped := false }
    Leads (exec (.sumparm x f) s) fun t => s.ends x id (fun k => { k with sump := [], heldCredits := [] }) t ∧
      (∀ m, (t.core x.core).sumpOf m = if m = u then
        (if v.state = 2 then { new with present := [], round := v.round + 1 } else new) else k.sumpOf m) ∧
      (t.core x.core).heldCredits = k.heldCredits ++ if v.state = 2 then
        ((List.range cfg.n).filterMap fun i => (SMap.get v.present i none).bind Prod.fst).map fun d => ⟨k.issueSeq, d⟩ else []))

/-- What arrives at a core: a message is written into its ring, a contribution into its slot, a credit to its channel; a message that
finds no room is dropped, counted, and its credit returned (R277, R278, R281, R287). A packet comes only from the mesh, and none
passes an earlier one of its source and class to the same core (R19). -/
def Obligations.Arrivals : Prop := ∀ (s : State) (c : CoreId), s.running = true → s.coreSealed c = false →
  let k := s.core c
  let p := corePage c 1
  let counts (o : Nat) (t : State) : Prop := t.liveWord p o = BitVec.ofNat 32 (min 0xFFFFFFFF ((s.liveWord p o).toNat + 1))
  (∀ (b : MeshBody) (pre post : List MeshPkt) (q : MeshPkt), q.dst = c → q.body = b →
    (∀ r ∈ pre, r.dst = c → r.body.isReply = b.isReply → r.body ≠ b ∧ r.src ≠ q.src) →
    takeFlow c b [] (pre ++ q :: post) = some (pre ++ post)) ∧
  (∀ (m : Message) (ch : Fin 32) (member : Nat),
    (takeFlow c (.message m) [] s.mesh = none → Leads (exec (.channelMessage c m) s) (· = s)) ∧
    (takeFlow c (.contribution m) [] s.mesh = none → Leads (exec (.sumpContribution c m) s) (· = s)) ∧
    (takeFlow c (.credit ch member) [] s.mesh = none → Leads (exec (.creditReturn c ch member) s) (· = s))) ∧
  (∀ (m : Message) (n : Nat) (g : Ring) (cfg : Word) (left : List MeshPkt), takeFlow c (.message m) [] s.mesh = some left →
    n = s.ringEntries c m.target.val → g = k.ringOf m.target.val →
    cfg = s.applWord p (0x104 + 8 * m.target.val) →
    (s.ringTakes c m.target.val = true → Leads (exec (.channelMessage c m) s) fun t => t.mesh = left ∧
      (∀ r, (t.core c).ringOf r = if r = m.target.val then { g with
        wr := (g.wr + 1) % 512
        entry := SMap.put g.entry (g.wr % n) ⟨m.data.length, decide (s.ringEsize c r < m.data.length), m.sender⟩ } else k.ringOf r) ∧
      (∀ a, t.byteAt a = (s.memWrite (.core ⟨c, 0⟩) (chamberBase c + s.ringBase c m.target.val + g.wr % n * s.ringEsize c m.target.val)
        (m.data.take (s.ringEsize c m.target.val))).byteAt a) ∧
      (cfg.getLsbD 15 = true → (t.thread ⟨c, Fin.ofNat 4 (cfg.extractLsb' 16 2).toNat⟩).intpend.getLsbD 0 = true)) ∧
    (s.ringTakes c m.target.val = false → Leads (exec (.channelMessage c m) s) fun t =>
      counts 0x8C0 t ∧ t.mem = s.mem ∧ (∀ r, (t.core c).ringOf r = k.ringOf r) ∧
        ∀ (d : Sender) (e : CoreId), m.sender = some d → d.module = none → d.core = e.val → s.samePart c.hall e.hall = true →
          t.out.getLast? = some (.credit c d) ∧ t.mesh = left ++ [⟨.core c, e, .credit d.ch c.val⟩])) ∧
  (∀ (m : Message) (u : Nat) (g : SumpCfg) (v : Sump) (left : List MeshPkt),
    takeFlow c (.contribution m) [] s.mesh = some left → u = m.target.val → g = s.sumpCfg c u → v = k.sumpOf u → g.en = true →
    s.stopped c.hall = false → m.rank < g.n → SMap.get v.present m.rank none = none →
    Leads (exec (.sumpContribution c m) s) fun t => t.mesh = left ∧
      (∀ w, (t.core c).sumpOf w = if w = u then { v with present := SMap.put v.present m.rank (some (m.sender, m.data.length)) }
        else k.sumpOf w) ∧
      ∀ a, t.byteAt a = (s.memWrite (.core ⟨c, 0⟩) (chamberBase c + g.slots + m.rank * g.stride)
        (m.data.take (g.len * 2))).byteAt a) ∧
  (∀ (ch : Fin 32) (member : Nat) (v : SendChan) (u : State) (left : List MeshPkt),
    takeFlow c (.credit ch member) [] s.mesh = some left → u = { s with mesh := left } → v = k.chanOf ch.val →
    ((s.chanCfg c ch.val).kind ≠ 3 → Leads (exec (.creditReturn c ch member) s) fun t =>
      u.onlyCore c (fun k => { k with chan := [] }) t ∧
        ∀ n, (t.core c).chanOf n = if n = ch.val then { v with avail := v.avail + 1 } else k.chanOf n) ∧
    ((s.chanCfg c ch.val).kind = 3 → ∀ (pre post : List (List Nat)) (l : List Nat), v.chim = pre ++ l :: post →
      (∀ q ∈ pre, member ∉ q) → member ∈ l → Leads (exec (.creditReturn c ch member) s) fun t =>
      u.onlyCore c (fun k => { k with chan := [] }) t ∧ ∀ n, (t.core c).chanOf n = if n = ch.val then
        (if l.filter (· ≠ member) = [] then { v with chim := pre ++ post, avail := v.avail + 1 }
         else { v with chim := pre ++ l.filter (· ≠ member) :: post }) else k.chanOf n))

/-- A held message departs when nothing before its CLOSE is outstanding, and goes onto the mesh or to the routing step; a core refuses at
its own router what lies in another partition (R24, that the access error names the core's chamber window: assumption log 56); an armed sump drains its slots in rank order, each element
rounded once (R264, R266, R283, R289, R290). -/
def Obligations.DeparturesAndDrains : Prop := ∀ (s : State) (c : CoreId) (k : Core), k = s.core c → s.running = true →
  (∀ (ch : Fin 32) (m : HeldMsg) (l : List HeldMsg) (v : SendChan) (g : ChanCfg), v = k.chanOf ch.val → v.held = m :: l →
    g = s.chanCfg c ch.val → g.kind ≠ 3 → s.outstanding c 0xF m.seq = false → s.published c m.seq = false →
    let msg : Message := { target := g.target, sender := some ⟨none, c.val, ch⟩, rank := g.rank, data := m.data }
    Leads (exec (.messageDepart c ch) s) fun t =>
      (∀ n, (t.core c).chanOf n = if n = ch.val then { v with held := l } else k.chanOf n) ∧
      (∀ d : CoreId, g.remote = false → g.core = d.val →
        (s.samePart c.hall d.hall = true → t.out = s.out ++ [.message c ch g.core (g.kind = 2) msg] ∧ t.routing = s.routing ∧
          t.mesh = s.mesh ++ [⟨.core c, d, if g.kind = 2 then .contribution msg else .message msg⟩]) ∧
        (s.samePart c.hall d.hall = false → t.routing = s.routing ∧ t.mesh = s.mesh ∧
          wbit (t.liveWord (hallPage c.hall 0) 0x010) 0 = true)) ∧
      (g.remote = true → t.mesh = s.mesh ∧ t.out = s.out ∧ t.routing = s.routing ++
        [⟨none, c.hall, s.msgPacket c ch (BitVec.ofNat 18 g.module) g.core (g.kind = 2) msg⟩])) ∧
  (∀ (u : Fin 32) (v : Sump) (g : SumpCfg) (d : Option Sender) (len res slot : Nat) (old : List Byte), v = k.sumpOf u.val →
    g = s.sumpCfg c u.val → v.state = 1 → v.stopped = false → SMap.get v.present v.drained none = some (d, len) →
    slot = chamberBase c + g.slots + v.drained * g.stride → res = chamberBase c + g.res → g.len ≠ 0 →
    (∀ j, j < g.len * 2 → s.takesRead (.core ⟨c, 0⟩) (slot + j) 1 ∧ s.takesRead (.core ⟨c, 0⟩) (res + j) 1 ∧
      s.takesWrite (.core ⟨c, 0⟩) (res + j) 1) →
    old = (if v.drained = 0 ∧ v.arg.getLsbD 4 = false then List.replicate (g.len * 2) 0 else s.bytesAt res (g.len * 2)) →
    let new (i : Nat) : Elem := roundAcc g.rfmt false
      (dripBits (s.seed c.hall) (0x1000 + c.val) ((v.round.toNat * 32 + u.val) % 2 ^ 32) (v.drained * 2048 + i))
      (Num.sum [decodeNum g.rfmt (bitElem 16 (bytesNat old) i), decodeNum g.sfmt (bitElem 16 (bytesNat
        ((s.bytesAt slot (g.len * 2)).take (len / 2 * 2))) i)])
    Leads (exec (.sumpDrain c u) s) fun t =>
      s.stores t res (natBytes (g.len * 2) (packElems 16 ((List.range g.len).map fun i => (new i).bits))) ∧
      (∀ n, n ≠ u.val → (t.core c).sumpOf n = k.sumpOf n) ∧
      (t.core c).sumpOf u.val = (if v.drained + 1 = g.n then { v with drained := v.drained + 1, state := 2 }
        else { v with drained := v.drained + 1 }) ∧
      (v.drained + 1 = g.n → v.arg.getLsbD 5 = true →
        (t.thread ⟨c, Fin.ofNat 4 (v.arg.extractLsb' 6 2).toNat⟩).intpend.getLsbD 1 = true))

/-- Barriers: ARRIVE counts an arrival and gives a ticket, WAITB waits for its round; an arrival travels the tree, one from a port counts
at the root hall in its round, and a release begins the core's next round (R302, R303, R307 to R310, R383). -/
def Obligations.Barriers : Prop := ∀ (s : State),
  (∀ (x : Site) (f : FmtC) (b : Nat) (v : BarRound) (t0 : Option Ticket), b = f.id.toNat → b < 80 → v = (s.core x.core).barOf b →
    s.barEn x.hall b = true →
    let rest (k : Core) : Core := { k with bar := [] }
    let bars (new : BarRound) (t : State) : Prop := ∀ n, (t.core x.core).barOf n = if n = b then new else (s.core x.core).barOf n
    let gives (r : BitVec 16) : Thread → Thread := fun h => { h with ticket := some ⟨BitVec.ofNat 7 b, r⟩ }
    (s.ready x (.arrive x f) = true →
      (s.barEmpty x.hall b = true → Leads (exec (.arrive x f) s) (s.steps x (gives (v.rel - 1)))) ∧
      (s.barEmpty x.hall b = false → s.barMember x.hall b x.core.index = true →
        (v.sent = true → v.next.toNat ≠ s.barArrivals x.hall b → Leads (exec (.arrive x f) s) fun t =>
          s.ends x (gives (v.rel + 1)) rest t ∧ bars { v with next := v.next + 1, nextSeq := (s.core x.core).issueSeq } t) ∧
        (v.sent = false → (v.arr + 1).toNat ≠ s.barArrivals x.hall b → Leads (exec (.arrive x f) s) fun t =>
          s.ends x (gives v.rel) rest t ∧ bars { v with arr := v.arr + 1 } t) ∧
        (v.sent = false → (v.arr + 1).toNat = s.barArrivals x.hall b → s.outstanding x.core 0xF (s.core x.core).issueSeq = false →
          s.published x.core (s.core x.core).issueSeq = false → Leads (exec (.arrive x f) s) fun t =>
          s.ends x (gives v.rel) rest { t with halls := s.halls } ∧
          bars { v with arr := v.arr + 1, sent := true, holdSeq := none } t ∧
          (t.hall x.hall).bar = { (s.hall x.hall).bar with wires := (s.hall x.hall).bar.wires ++
            [⟨b, s.routerOf x.hall x.core.index % 12, s.routerOf x.hall x.core.index / 12, 1⟩] }))) ∧
    (s.ready x (.waitb x f) = true → t0 = (s.thread x).ticket → ∀ k, t0 = some k → k.id.toNat = b →
      (k.round = v.rel ∨ k.round = v.rel + 1 → Leads (exec (.waitb x f) s) fun t => s.onlyThread t x ∧
        t.thread x = { s.thread x with wait := some .barrier }) ∧
      (k.round ≠ v.rel → k.round ≠ v.rel + 1 → Leads (exec (.waitb x f) s) (s.steps x fun h => { h with ticket := none })))) ∧
  (∀ (h : HallId) (b : Fin 80) (col : Fin 12) (row : Fin 13) (r m : Nat) (l : List BarWire) (q : BarCount), s.running = true →
    r = col.val + 12 * row.val → takeWire b.val r (s.hall h).bar.wires = some (m, l) →
    q = SMap.get (s.hall h).bar.count (b.val * 156 + r) ⟨0, 0⟩ →
    (q.branches + 1 < s.barBranches h b.val r → Leads (exec (.barrierArrive h b (.router col row)) s) fun t =>
      SMap.get (t.hall h).bar.count (b.val * 156 + r) ⟨0, 0⟩ = ⟨q.branches + 1, q.members + m⟩ ∧ (t.hall h).bar.wires = l) ∧
    (s.barBranches h b.val r ≤ q.branches + 1 → r ≠ s.barRoot h b.val →
      Leads (exec (.barrierArrive h b (.router col row)) s) fun t => (t.hall h).bar.wires = l ++
        [⟨b.val, nextRouter r (s.barRoot h b.val) % 12, nextRouter r (s.barRoot h b.val) / 12, q.members + m⟩] ∧
        SMap.get (t.hall h).bar.count (b.val * 156 + r) ⟨0, 0⟩ = ⟨0, 0⟩) ∧
    (s.barBranches h b.val r ≤ q.branches + 1 → r = s.barRoot h b.val → b.val < 64 →
      Leads (exec (.barrierArrive h b (.router col row)) s) fun t => (t.hall h).bar.wires = l ∧
        SMap.get (t.hall h).bar.rel b.val 0 = SMap.get (s.hall h).bar.rel b.val 0 + 1)) ∧
  (∀ (h : HallId) (b : Fin 80) (p : PortId) (r : BitVec 16) (u : State), s.running = true →
    (b.val, p.val, r) ∈ (s.hall h).bar.portWires → u = s.modHall h (fun v =>
      { v with bar := { v.bar with portWires := v.bar.portWires.erase (b.val, p.val, r) } }) →
    ((s.childPorts h b.val).contains p = false ∨ s.barRound h b.val ≠ r →
      Leads (exec (.barrierArrive h b (.port p r)) s) (· = u)) ∧
    ((s.childPorts h b.val).contains p = true → s.barRound h b.val = r → s.barHallsIn h b.val = false →
      Leads (exec (.barrierArrive h b (.port p r)) s) (· = u.modHall h fun v => { v with bar := { v.bar with
        halls := SMap.put v.bar.halls b.val ((SMap.get v.bar.halls b.val []).filter (· ≠ 8 + p.val) ++ [8 + p.val]) } }))) ∧
  (∀ (c : CoreId) (b : Fin 80) (v : BarRound) (g : Word), s.running = true → s.coreSealed c = false → v = (s.core c).barOf b.val →
    g = s.bcfg c.hall b.val → s.barMember c.hall b.val c.index = true → v.rel ≠ SMap.get (s.hall c.hall).bar.rel b.val 0 →
    v.next.toNat ≠ s.barArrivals c.hall b.val → Leads (exec (.barrierRelease c b) s) fun t =>
      s.onlyCore c (fun k => { k with bar := [], threads := [] }) t ∧
      (∀ n, (t.core c).barOf n = if n = b.val then
        { v with rel := v.rel + 1, arr := v.next, next := 0, sent := false, holdSeq := none } else (s.core c).barOf n) ∧
      (g.getLsbD 11 = true → (t.thread ⟨c, Fin.ofNat 4 (g.extractLsb' 12 2).toNat⟩).intpend.getLsbD 2 = true))

/-- The bank functions bit for bit; for a fixed row each is a permutation of the low line bits, so that different lines have different
places (R243). -/
def Obligations.BankFunctions : Prop := ∀ salt : BitVec 16,
  let gal (l : BitVec 22) : BitVec 6 :=
    let v : BitVec 16 := (l.extractLsb' 6 16).rotateLeft (salt.extractLsb' 0 4).toNat
    l.extractLsb' 0 6 ^^^ (v.extractLsb' 0 6 ^^^ v.extractLsb' 6 6 ^^^ (v.extractLsb' 12 4).setWidth 6) ^^^ salt.extractLsb' 4 6
  let cham (l : BitVec 14) : BitVec 4 :=
    let r : Nat := (salt.extractLsb' 12 4).toNat
    let v : BitVec 10 := (l.extractLsb' 4 10).rotateLeft (if 10 ≤ r then r - 10 else r)
    l.extractLsb' 0 4 ^^^ (v.extractLsb' 0 4 ^^^ v.extractLsb' 4 4 ^^^ (v.extractLsb' 8 2).setWidth 4) ^^^ salt.extractLsb' 8 4
  (∀ l : BitVec 22, galleryBank l.toNat salt.toNat = (gal l).toNat) ∧ (∀ l : BitVec 14, chamberBank l.toNat salt.toNat = (cham l).toNat) ∧
  (∀ row : BitVec 16, Function.Bijective fun low : BitVec 6 => gal (row ++ low)) ∧
  (∀ row : BitVec 10, Function.Bijective fun low : BitVec 4 => cham (row ++ low)) ∧
  (∀ o u : Nat, o < 0x10000000 → u < 0x10000000 → galleryPlace o salt.toNat = galleryPlace u salt.toNat → o = u) ∧
  (∀ o u : Nat, o < 0x100000 → u < 0x100000 → chamberPlace o salt.toNat = chamberPlace u salt.toNat → o = u)

/-- A bank promotes the requests that have waited 192 cycles, then serves the oldest promoted one, else the oldest of the lowest class of
its operation, of those no earlier request of whose source waits; a gallery bank answers with a read those of the same line that no
write to it and no earlier request of their source stands before; the others in its window grow older (R246 to R249, R447). That a read
behind a waiting write to its line answers only itself, and that ageing begins in the window: assumption log 54. -/
def Obligations.BankRequests : Prop := ∀ (s : State) (b : Bank), s.running = true →
  (∀ (arrivals : List BankReq) (det : CheckBits) (joined win : List WaitReq),
    joined = (s.bankQueue b).map (fun w => { w with promoted := w.promoted || decide (192 ≤ w.age) }) ++
      (arrivals.filter fun r => s.inBank b r.line).map (fun r => ⟨r, 0, false⟩) →
    win = (match b with | .chamber _ _ => joined | .gallery _ _ => joined.take 8) →
    let req (j : Nat) : WaitReq := joined.getD j ⟨⟨0, .unknown, none, 0⟩, 0, false⟩
    let cls (j : Nat) : Nat := match (req j).req.op with
      | .tileTransfer => 1
      | .coreDma | .hallDma | .engine | .attachment | .unknown => 2
      | .vectorMove => 3
      | .scalarMove | .segmentMove | .fetch => 4
    let may (j : Nat) : Prop :=
      j < win.length ∧ (∀ m, m < j → (req m).req.src ≠ (req j).req.src) ∧ s.bankWaits b (req j).req = false
    let before (i j : Nat) : Prop := if (req i).promoted then ((req j).promoted = true → i < j)
      else (req j).promoted = false ∧ (cls i < cls j ∨ (cls i = cls j ∧ i < j))
    let older (l : List Nat) : List WaitReq :=
      l.map fun j => if j < win.length then { req j with age := (req j).age + 1 } else req j
    ((∀ j, ¬may j) → Leads (exec (.bankAccess b arrivals det) s) fun t =>
      t.bankQueue b = older (List.range joined.length) ∧ t.mem = s.mem ∧ t.out = s.out) ∧
    (∀ (i a : Nat), may i → (∀ j, may j → j ≠ i → before i j) → a = bankAddr b (req i).req.line →
      s.inBank b (req i).req.line = true →
      let gone (served : List Nat) (j : Nat) : Prop := j = i ∨ ((∃ h n, b = .gallery h n) ∧ (req i).req.write = none ∧ i < j ∧
        j < win.length ∧ (req j).req.line = (req i).req.line ∧ (req j).req.write = none ∧ s.bankWaits b (req j).req = false ∧
        (∀ m, m < j → (req m).req.line = (req i).req.line → (req m).req.write = none) ∧
        ∀ m, m < j → (req m).req.src = (req j).req.src → m ∈ served)
      ∃ served left, List.Perm (served ++ left) (List.range joined.length) ∧ served.Pairwise (· < ·) ∧ left.Pairwise (· < ·) ∧
        (∀ j, j ∈ served ↔ gone served j) ∧
        Leads (exec (.bankAccess b arrivals det) s) fun t => t.bankQueue b = older left ∧
          (∀ off d, (req i).req.write = some (off, d) → d ≠ [] → off + d.length ≤ 64 → t.out = s.out ∧
            (s.protectedAt a = false ∧ s.behindHeld (heldAgent (match b with | .chamber c _ => c.hall | .gallery h _ => h)
              (req i).req.src) a = false → s.stores t (a + off) d)) ∧
          ((req i).req.write = none → t.mem = s.mem ∧ ∃ pre, (det ≠ .uncorrectable → pre = []) ∧
            t.out = s.out ++ pre ++ served.map fun j =>
              .reply (req j).req.src (s.bytesAt a 64) (s.poisoned a || decide (det = .uncorrectable))))) ∧
  (∀ (i : Nat) (w : WaitReq), (s.bankQueue b)[i]? = some w → 192 ≤ w.age → w.promoted = false →
    Leads (exec (.requestPromote b i) s) fun t => t.bankQueue b = (s.bankQueue b).set i { w with promoted := true } ∧
      t.mem = s.mem ∧ t.out = s.out)

/-- The controller of near memory performs, holds and answers requests in the order they reach it, and a request that it does not take
waits; repeats of a transfer count; its patrol reads every burst, and an interface that retrains counts (R349, R351 to R353, R355,
R356). A request to the CXL tier is performed on a link that is up; a read of the port for a part of a burst may return poison; a link
that fails loses its bursts (R360, R362 to R364). -/
def Obligations.MemoryTiers : Prop :=
  (∀ (s : State), s.running = true →
  (∀ (q : NearReq) (r : BurstReq) (h : HallId) (o : Nat), r = q.req → r.wf = true → winOf r.addr = .near h o →
    s.reaches r.who r.addr = true →
    let turn : Prop := ∃ w ∈ (s.hall h).nearWait, w.req.addr / 64 = r.addr / 64
    let full : Prop := 64 ≤ (s.hall h).nearHeld.length ∨ s.field (memPage h) 0x800 0 2 = 1
    let counted (t : State) : Prop := 0 < q.det.retries → q.det.retries ≤ 8 →
      t.liveWord (memPage h) 0x820 = (s.plus32 (memPage h) 0x820 q.det.retries).2
    (turn ∨ full ∨ r.write = none ∧ s.behindHeld r.who r.addr = true → Leads (exec (.nearMemoryAccess r q.det) s) fun t =>
      t = s.modHall h fun v => { v with nearWait := v.nearWait ++ [q] }) ∧
    (¬turn → ¬full →
      (∀ d, r.write = some d → s.behindHeld r.who r.addr = false → s.protectedAt r.addr = false →
        Leads (exec (.nearMemoryAccess r q.det) s) fun t => s.stores t r.addr d ∧ counted t ∧
          (t.poisoned r.addr = if d.length = 64 then false else s.poisoned r.addr || decide (q.det.bits = .uncorrectable))) ∧
      (∀ d, r.write = some d → (s.behindHeld r.who r.addr = true ∨ s.protectedAt r.addr = true) →
        Leads (exec (.nearMemoryAccess r q.det) s) fun t => t.near = s.near ∧ counted t ∧
          (t.hall h).nearHeld = (s.hall h).nearHeld ++ [⟨r.addr, d, r.who, 0, 0⟩]) ∧
      (r.write = none → s.behindHeld r.who r.addr = false →
        Leads (exec (.nearMemoryAccess r q.det) s) fun t => t.near = s.near ∧ counted t ∧
          ∃ pre, (q.det.bits ≠ .uncorrectable → q.det.retries ≤ 8 → pre = []) ∧
          t.out = s.out ++ pre ++ [.reply (agentSrc r.who) (s.bytesAt r.addr r.len)
            (s.poisoned r.addr || decide (q.det.bits = .uncorrectable))]))) ∧
  (∀ (h : HallId) (burst a : Nat) (det : CheckBits), a = nearBase h + burst * 64 → burst < 1207959552 →
    wbit (s.applWord (memPage h) 0x100) 3 = true →
    (burstIf burst).val = (burst % 4) ^^^ (burst / 1024 % 4) ∧
    (det = .good → Leads (exec (.patrolRead h burst ⟨det, 0⟩) s) (· = s)) ∧
    (∀ n, 0 < n → n ≤ 8 → Leads (exec (.patrolRead h burst ⟨.good, n⟩) s) fun t => t.mem = s.mem ∧ t.near = s.near ∧
      s.puts t [s.plus32 (memPage h) 0x820 n]) ∧
    (∀ n, 8 < n → burstIf burst ∉ (s.hall h).training → Leads (exec (.patrolRead h burst ⟨.good, n⟩) s) fun t =>
      t.near = s.near ∧ s.records t (memPage h) 1 ∧ t.liveWord (memPage h) 0x824 = (s.plus32 (memPage h) 0x824 1).2 ∧
      t.liveWord (memPage h) 0x820 = (s.plus32 (memPage h) 0x820 8).2) ∧
    (det = .correctable → Leads (exec (.patrolRead h burst ⟨det, 0⟩) s) fun t => t.mem = s.mem ∧ s.puts t [s.plus32 (memPage h) 0x818 1]) ∧
    (det = .uncorrectable → s.poisoned a = false → Leads (exec (.patrolRead h burst ⟨det, 0⟩) s) fun t =>
      t.poisoned a = true ∧ t.near = s.near ∧ s.records t (memPage h) 0 ∧
      t.liveWord (memPage h) 0x81C = (s.plus32 (memPage h) 0x81C 1).2 ∧
      (wbit (s.liveWord (memPage h) 0x010) 0 = false →
        t.liveWord (memPage h) 0x828 = BitVec.ofNat 32 (burst * 64) ∧ t.liveWord (memPage h) 0x82C = BitVec.ofNat 32 (burst * 64 / 2 ^ 32)))) ∧
  (∀ (h : HallId) (i : Fin 4) (crc : Bool), i ∈ (s.hall h).training → Leads (exec (.interfaceRetrain h i crc true) s) fun t =>
    t.near = s.near ∧ (t.hall h).training = (s.hall h).training.erase i ∧
    ((s.hall h).training.erase i = [] → s.field (memPage h) 0x800 0 2 = 1 → t.field (memPage h) 0x800 0 2 = 2)) ∧
  (∀ (h : HallId) (i : Fin 4), i ∉ (s.hall h).training → Leads (exec (.interfaceRetrain h i false true) s) fun t =>
    t.near = s.near ∧ s.puts t [s.plus32 (memPage h) 0x824 1]) ∧
  (∀ (h : HallId) (i : Fin 4), i ∉ (s.hall h).training → Leads (exec (.interfaceRetrain h i true true) s) fun t => t.near = s.near ∧ s.records t (memPage h) 1 ∧
    t.liveWord (memPage h) 0x824 = (s.plus32 (memPage h) 0x824 1).2 ∧ t.liveWord (memPage h) 0x820 = (s.plus32 (memPage h) 0x820 8).2) ∧
  (∀ (h : HallId) (i : Fin 4) (crc : Bool), Leads (exec (.interfaceRetrain h i crc false) s) fun t => ∃ u : State,
    t = u.outOfService h ∧ u.near = s.near ∧ wbit (u.liveWord (memPage h) 0x010) 2 = true ∧
    wbit (u.liveWord (memPage h) 0x800) (2 + i.val) = true ∧ u.field (memPage h) 0x800 0 2 = 3)) ∧
  (∀ (s : State), s.running = true →
  (∀ (r : BurstReq) (poison : Bool) (n o d g e : Nat), r.wf = true → winOf r.addr = .cxl o → s.reaches r.who r.addr = true →
    s.cxlDecode o = some (d, g, e) →
    let counted (t : State) : Prop := t.liveWord (0x30 + 4 * (g / 4)) 0x854 = (s.plus32 (0x30 + 4 * (g / 4)) 0x854 n).2
    let bad : Prop := s.poisoned r.addr = true ∨ poison = true
    (∀ l, r.write = some l → s.linkState g = 2 → Leads (exec (.cxlAccess r ⟨poison, n⟩) s) fun t => s.stores t r.addr l ∧ counted t ∧
      (l.length = 64 ∨ ¬bad → t.out = s.out) ∧
      (l.length ≠ 64 → bad → s.records t (0x30 + 4 * (g / 4)) 0 ∧ t.poisoned r.addr = true ∧
        t.liveWord (0x30 + 4 * (g / 4)) 0x850 = (s.plus32 (0x30 + 4 * (g / 4)) 0x850 1).2)) ∧
    (∀ l, r.write = some l → s.linkState g ≠ 2 → Leads (exec (.cxlAccess r ⟨poison, n⟩) s) fun t => t.cxl = s.cxl ∧ t.out = s.out) ∧
    (r.write = none → Leads (exec (.cxlAccess r ⟨poison, n⟩) s) fun t => counted t ∧ t.cxl = s.cxl ∧ ∃ pre,
      (s.poisoned r.addr = false → poison = false → pre = []) ∧ t.out = s.out ++ pre ++
        [.reply (agentSrc r.who) (s.bytesAt r.addr r.len) (s.poisoned r.addr || poison)] ∧
      (s.poisoned r.addr = true ∨ poison = true → s.records t (0x30 + 4 * (g / 4)) 0))) ∧
  (∀ (p : Fin 2) (l : Fin 4), s.linkState (4 * p.val + l.val) = 2 →
    let failed (t : State) (k : Nat) : Prop := t.linkState (4 * p.val + l.val) = 3 ∧ s.records t (linkPage p) k ∧ t.cxl = s.cxl ∧
      SMap.get t.cxlLost (4 * p.val + l.val) none = some [] ∧
      (∀ q : Nat, q ≠ 4 * p.val + l.val → SMap.get t.cxlLost q none = SMap.get s.cxlLost q none) ∧
      (∀ a o d e, winOf a = .cxl o → s.cxlDecode o = some (d, 4 * p.val + l.val, e) → t.poisoned a = true)
    Leads (exec (.cxlLinkDown p l) s) (failed · 1) ∧
    Leads (exec (.cxlRequestTimeout p l) s) fun t => failed t 2 ∧
      t.liveWord (linkPage p) 0x858 = (s.plus32 (linkPage p) 0x858 1).2) ∧
  (∀ (p : Fin 2) (l : Fin 4) (width : Nat) (rate : Fin 3) (cap : BitVec 16), s.linkState (4 * p.val + l.val) = 1 →
    (width = 4 ∨ width = 8 ∨ width = 16) → width ≤ 16 / 2 ^ fieldOf (s.applWord (linkPage p) 0x100) 1 2 →
    fieldOf (s.applWord (linkPage p) 0x100) 3 2 ≤ rate.val →
    Leads (exec (.cxlLinkTrained p l width rate cap) s) fun t => ∃ w, s.puts t [((linkPage p, 0x800 + 4 * l.val), w)] ∧
      fieldOf w 0 2 = 2 ∧ fieldOf w 2 5 = width ∧ fieldOf w 7 2 = rate.val ∧ fieldOf w 9 16 = cap.toNat ∧ fieldOf w 25 7 = 0))

/-- The device physical address map: each window in its place, and nothing outside them (R30, R31). -/
def Obligations.AddressMap : Prop := ∀ a : Nat,
  (∀ (h : HallId) (o : Nat), o < 0x1200000000 → winOf (h.val * 0x1200000000 + o) = .near h o) ∧
  (∀ o : Nat, o < 0x100000000000 → winOf (0x100000000000 + o) = .cxl o) ∧
  (∀ (h : HallId) (o : Nat), o < 0xC000000 → winOf (0xE00000000000 + h.val * 0x10000000 + o) = .gallery h o) ∧
  (∀ (c : CoreId) (o : Nat), o < 0x100000 → winOf (0xE10000000000 + c.val * 0x200000 + o) = .chamber c o) ∧
  (∀ n o : Nat, n < 0x4000 → o < 0x1000 → winOf (0xFF0000000000 + n * 0x1000 + o) = .control (n * 0x1000 + o)) ∧
  (winOf a ≠ .nothing → (∃ (h : HallId) (o : Nat), o < 0x1200000000 ∧ a = h.val * 0x1200000000 + o) ∨
    (∃ o, o < 0x100000000000 ∧ a = 0x100000000000 + o) ∨ (∃ (h : HallId) (o : Nat), o < 0xC000000 ∧ a = 0xE00000000000 + h.val * 0x10000000 + o) ∨
    (∃ (c : CoreId) (o : Nat), o < 0x100000 ∧ a = 0xE10000000000 + c.val * 0x200000 + o) ∨
    (∃ o, o < 0x4000000 ∧ a = 0xFF0000000000 + o))

/-- Cores and hall engines reach the control pages of the halls and cores of their own partition, and IDENT to read; every other page is
refused (R424; LANTERN pages of a confidential hall: R422; a hall whose last scrub failed: R428; a hall's function page counts as the hall's:
assumption log 31). -/
def Obligations.CoreReach : Prop := ∀ (s : State) (a : Agent) (g : HallId) (p off : Nat),
  (∃ x : Site, a = .core x ∧ x.core.hall = g) ∨ (∃ n, a = .engine g n) →
  let lantern : Prop := ∃ c : CoreId, p = corePage c 3
  let own (h : HallId) : Prop := (∃ k, k < 0x100 ∧ p = hallPage h k) ∨ (∃ (c : CoreId) (j : Nat), j < 4 ∧ c.hall = h ∧ p = corePage c j) ∨
    p = 0x20 + h.val
  (∀ h, own h → s.samePart g h = false ∨ s.scrubFailed h = true → s.reach a p off = .refused) ∧
  (∀ h, own h → s.samePart g h = true → s.scrubFailed h = false → (lantern → s.hallMode h ≠ 0 → s.reach a p off = .refused) ∧
    (¬lantern ∨ s.hallMode h = 0 → s.reach a p off = .all)) ∧
  (p = 1 → s.reach a p off = .readOnly) ∧
  (p < 0x100 → p ≠ 1 → ¬(0x20 ≤ p ∧ p < 0x28) → s.reach a p off = .refused)

/-- GO takes a snapshot that the check judges and that a safe point applies as a whole; a failed or timed-out commit leaves the
configuration as it was; REVERT brings the applied values back into the staged area (R43 to R50). POWER's safe point is the next interval
end, until which time passes (R474). -/
def Obligations.Commits : Prop := ∀ (s : State) (page : PageNo) (p : Nat), s.running = true → p = page.toNat → hasConfig p = true →
  firstPage p = p → risingFrom 0 s.staged = true → risingFrom 0 s.snap = true → risingFrom 0 s.waiting = true →
  risingFrom 0 s.applied = true →
  let word (m : SMap Word) (q o : Nat) : Word := SMap.get m (widx q o) (resetWord q o)
  let area (q o : Nat) : Prop := q ∈ blockPages p ∧ 0x100 ≤ o ∧ o < 0x800 ∧ o % 4 = 0
  let copied (m old new : SMap Word) : Prop := ∀ q o, o < 4096 → o % 4 = 0 →
    (area q o → word new q o = word m q o) ∧ (¬area q o → word new q o = word old q o)
  let stat (state reason off : Nat) (ov : Bool) : (Nat × Nat) × Word :=
    ((p, 0x024), BitVec.ofNat 32 (state + b2n ov * 4 + reason * 2 ^ 8 + off * 2 ^ 16))
  let dropped (t : State) : Prop := s.puts t [((p, 0x024), BitVec.ofNat 32 (setBits (s.liveWord p 0x024).toNat 2 1 1))] ∧
    t.staged = s.staged ∧ t.snap = s.snap ∧ t.waiting = s.waiting ∧ t.applied = s.applied ∧ t.commits = s.commits
  (∀ a : Agent, s.reach a p 0x020 = .all →
    (s.commitState p ≠ 1 → Leads (exec (.commitGo a page) s) fun t => copied s.staged s.snap t.snap ∧ t.staged = s.staged ∧
      t.applied = s.applied ∧ t.commitOf p = ⟨true, false⟩ ∧ s.puts t [stat 1 0 0 false]) ∧
    (s.commitState p = 1 → ctxBlock p = true → s.commitOf p = ⟨false, true⟩ → Leads (exec (.commitGo a page) s) fun t =>
      copied s.staged s.snap t.snap ∧ t.staged = s.staged ∧ t.applied = s.applied ∧ t.waiting = s.waiting ∧
      t.commitOf p = ⟨true, true⟩ ∧ t.live = s.live) ∧
    (s.commitState p = 1 → (ctxBlock p = false ∨ s.commitOf p ≠ ⟨false, true⟩) → Leads (exec (.commitGo a page) s) dropped) ∧
    (s.commitState p ≠ 1 → Leads (exec (.commitRevert a page) s) fun t => copied s.applied s.staged t.staged ∧
      t.applied = s.applied ∧ t.commits = s.commits ∧ t.live = s.live) ∧
    (s.commitState p = 1 → Leads (exec (.commitRevert a page) s) dropped)) ∧
  ((s.commitOf p).checking = true →
    (s.failing p = [] → Leads (exec (.commitCheckEnd page) s) fun t => copied s.snap s.waiting t.waiting ∧
      t.commitOf p = ⟨false, true⟩ ∧ t.applied = s.applied ∧ t.live = s.live) ∧
    (s.failing p ≠ [] → ∃ off reason, (off, reason) ∈ s.failing p ∧ (∀ f, f ∈ s.failing p → off ≤ f.1) ∧
      Leads (exec (.commitCheckEnd page) s) fun t => t.commitOf p = ⟨false, false⟩ ∧ t.applied = s.applied ∧ t.staged = s.staged ∧
        s.puts t [stat 3 reason off (s.commitOverrun p)])) ∧
  (s.commitOf p = ⟨false, true⟩ → s.safePoint p = true → Leads (exec (.commitApply page) s) fun t =>
    copied s.waiting s.applied t.applied ∧ t.staged = s.staged ∧ t.commitOf p = ⟨false, false⟩ ∧
    t.liveWord p 0x028 = s.liveWord p 0x028 + 1 ∧ t.liveWord p 0x024 = (stat 2 0 0 (s.commitOverrun p)).2 ∧
    (p = 0 → t.partLive = t.layout ∧ ∀ h : HallId, (t.hall h).outHeld = false)) ∧
  (s.commitOf p = ⟨false, true⟩ → p = 2 → Leads (exec (.commitApply page) s) fun t =>
    t.rootTick % 81920 = 0 ∧ s.rootTick ≤ t.rootTick ∧ t.rootTick < s.rootTick + 81920 ∧ copied s.waiting s.applied t.applied ∧
    t.liveWord p 0x028 = s.liveWord p 0x028 + 1 ∧ t.liveWord p 0x024 = (stat 2 0 0 (s.commitOverrun p)).2) ∧
  (s.commitOf p = ⟨false, true⟩ → ctxBlock p = false → Leads (exec (.commitTimeout page) s) fun t =>
    t.commitOf p = ⟨false, false⟩ ∧ t.applied = s.applied ∧ t.staged = s.staged ∧ s.puts t [stat 3 9 0x100 (s.commitOverrun p)])

/-- A write of ERR clears the bits it names; a write of ERR_INJ records each error kind it names that the block defines, in ascending
order; the first held in ERR_FIRST, and each that was neither set nor masked notified (R36, R38, R39, R228). A write of a register
acts at once or goes into the staged area, on which nothing acts; a read of the low half of a 64-bit counter latches its high half;
registers that a read clears are cleared; what has no register or is out of reach is an access error, and reads zero; what the host sends
while its function is reset or the link is not up is dropped (R7, R8, R40 to R44, R228, R401, R402, R458). -/
def Obligations.RegistersAndErrors : Prop :=
  (∀ (s : State) (a : Agent) (page : PageNo) (p : Nat) (v : Word), s.running = true →
  p = page.toNat → (pageBlock p).isSome = true →
  let err : Word := s.liveWord p 0x010
  let sets : Word := v &&& BitVec.ofNat 32 (errBits p)
  (s.reach a p 0x010 = .all → Leads (exec (.errClear a page v) s) fun t =>
    t = { s with live := t.live } ∧ s.puts t [((p, 0x010), err &&& ~~~v),
      ((p, 0x01C), if err &&& ~~~v = 0 then 0xFF else s.liveWord p 0x01C)]) ∧
  (s.reach a p 0x018 = .all →
    (sets = 0 → Leads (exec (.errInj a page v) s) (· = s)) ∧
    (sets ≠ 0 → Leads (exec (.errInj a page v) s) fun t => t.liveWord p 0x010 = err ||| sets ∧
      t.errSeq = s.errSeq + BitVec.ofNat 16 ((List.range 32).countP fun b => sets.getLsbD b) ∧
      (∀ b, err = 0 → sets.getLsbD b = true → (∀ m, m < b → sets.getLsbD m = false) →
        t.liveWord p 0x01C = BitVec.ofNat 32 (b + 0x100 + (s.errSeq + 1).toNat * 2 ^ 16)) ∧
      (err ≠ 0 → t.liveWord p 0x01C = s.liveWord p 0x01C) ∧
      ∀ h, pageHall p = some h → sets &&& ~~~err &&& ~~~s.liveWord p 0x014 ≠ 0 → ∀ i : Fin 144,
        (t.thread ⟨coreAt h i, 0⟩).intpend = (s.thread ⟨coreAt h i, 0⟩).intpend ||| 0x10))) ∧
  (∀ (s : State) (a : Agent) (page : PageNo) (p : Nat) (off : BitVec 12) (o : Nat),
  s.running = true → p = page.toNat → o = off.toNat →
  let said (t : State) (w : Word) : Prop := t.out = s.out ++ [.word a w]
  (∀ v, o % 4 = 0 → s.reach a p o = .all → hasConfig p = true → 0x100 ≤ o → o < 0x800 →
    Leads (exec (.registerWrite a page off v) s) fun t => { t with staged := s.staged } = s ∧
      ∀ q m, m < 4096 → m % 4 = 0 → t.stagedWord q m = if q = p ∧ m = o then v else s.stagedWord q m) ∧
  (∀ v, o = 0x014 → s.reach a p o = .all → (pageBlock p).isSome = true → Leads (exec (.registerWrite a page off v) s) fun t =>
    t = { s with live := t.live } ∧ s.puts t [((p, 0x014), v &&& BitVec.ofNat 32 (errBits p))]) ∧
  (∀ v, o % 4 = 0 → s.reach a p o = .all → 0x800 ≤ o → portHidden a p o = false → (∃ r n hi, regAt p o = some (r, n, hi) ∧ r.acc = .ro) →
    Leads (exec (.registerWrite a page off v) s) (· = s)) ∧
  (s.hostGone a = true → (∀ v, Leads (exec (.registerWrite a page off v) s) (· = s)) ∧
    Leads (exec (.counterLowHalfRead a page off) s) (· = s)) ∧
  (∀ v, (o % 4 ≠ 0 ∧ s.reach a p o = .all ∨ s.reach a p o = .readOnly ∨ s.reach a p o = .refused ∨ (s.reach a p o = .all ∧ pageBlock p = none)) →
    Leads (exec (.registerWrite a page off v) s) fun t => s.turnsAway t a (p * 4096 + o) true ∧ t.staged = s.staged ∧ t.mem = s.mem) ∧
  ((o % 4 ≠ 0 ∧ (s.reach a p o = .all ∨ s.reach a p o = .readOnly) ∨ s.reach a p o = .refused ∨ (s.reach a p o = .all ∧ pageBlock p = none)) →
    Leads (exec (.counterLowHalfRead a page off) s) fun t => s.turnsAway t a (p * 4096 + o) false ∧
      ∃ pre, t.out = s.out ++ pre ++ [.word a 0]) ∧
  (s.reach a p o = .busy → (∀ v, Leads (exec (.registerWrite a page off v) s) fun t => t = { s with live := t.live } ∧
      s.puts t [s.plus32 0xB 0x810 1]) ∧
    Leads (exec (.counterLowHalfRead a page off) s) fun t => said t 0xFFFFFFFF ∧ t = { s with out := t.out }) ∧
  (s.reach a p o = .unsupported → (∀ v, Leads (exec (.registerWrite a page off v) s) (· = s)) ∧
    Leads (exec (.counterLowHalfRead a page off) s) fun t => t = { s with out := s.out ++ [.hostReply [] .unsupported] }) ∧
  (∀ r n, o % 4 = 0 → 0x800 ≤ o → (s.reach a p o = .all ∨ s.reach a p o = .readOnly) → portHidden a p o = false →
    regAt p o = some (r, n, false) → r.wide = true → isCounter p o = true → r.acc ≠ .wo →
    Leads (exec (.counterLowHalfRead a page off) s) fun t => said t (s.regWord p o) ∧ t = { s with latch := t.latch, out := t.out } ∧
      ∀ k, SMap.get t.latch k 0 = if k = latchKey p o a then s.regWord p (o + 4) else SMap.get s.latch k 0) ∧
  (∀ r n, o % 4 = 0 → 0x800 ≤ o → (s.reach a p o = .all ∨ s.reach a p o = .readOnly) → portHidden a p o = false →
    regAt p o = some (r, n, true) → r.wide = true → isCounter p o = true → r.acc ≠ .wo →
    Leads (exec (.counterLowHalfRead a page off) s) fun t => said t (SMap.get s.latch (latchKey p (o - 4) a) 0) ∧
      t = { s with out := t.out }) ∧
  (∀ (h : HallId) (q m : Nat) (c : Instr), (q = hallPage h 0 ∧ m = 0x8C0 ∧ c = .exterrRead a h ∨
      q = hallPage h 0x84 ∧ m = 0x8BC ∧ c = .knoticeRead a h) → (s.reach a q m = .all ∨ s.reach a q m = .readOnly) →
    Leads (exec c s) fun t => said t (s.liveWord q m) ∧ t = { s with live := t.live, out := t.out } ∧ s.puts t [((q, m), 0)]))

/-- The lantern halts, delivers to and resumes a thread and aborts the open message of a halted one; a write of QCTL discards from the
stopped queues it names (R145, R171, R173, R298, R299). Direct-action registers of cores, engines and halls: drip counters, round
numbers and salts are written while the hall is stopped; table registers take the writer's ring; TALLY_CLR clears the slots it names
(R73, R74, R79, R81, R215, R242, R287). -/
def Obligations.DebugAndDirectRegisters : Prop :=
  (∀ (s : State) (a : Agent), s.running = true →
  (∀ (x : Site), s.reach a (corePage x.core 3) (0x800 + 4 * x.thread.val) = .all →
    let becomes (g : Thread) (t : State) : Prop := s.onlyThread t x ∧ t.thread x = g
    let g := s.thread x
    Leads (exec (.lanternHalt a x) s) (becomes (if g.run = .active then
      (if (∃ r, g.rep = some r ∧ r.reg = none) ∨ g.replCnt.isSome = true then { g with haltReq := true } else { g with run := .halted }) else g)) ∧
    Leads (exec (.lanternDeliver a x) s) (becomes (if g.run = .parked then g else { g with deliverReq := true })) ∧
    Leads (exec (.lanternResume a x) s) (becomes (if g.run = .halted then { g with run := .active } else g))) ∧
  (∀ (c : CoreId) (v : Word), s.reach a (corePage c 3) 0x810 = .all →
    let named (n : Fin 4) : Bool := v.getLsbD n.val
    let hit (n : Fin 4) : Bool := named n && decide ((s.thread ⟨c, n⟩).run = .halted)
    let after (n : Fin 4) : Thread :=
      if hit n then { s.thread ⟨c, n⟩ with openCh := none, staging := [] } else s.thread ⟨c, n⟩
    Leads (exec (.channelAbort a c v) s) fun t =>
      (∀ ch : Nat, (t.core c).chanOf ch =
        let k := (s.core c).chanOf ch
        let n := (List.finRange 4).countP fun n => hit n && decide ((s.thread ⟨c, n⟩).openCh.map (·.val) = some ch)
        { k with openBy := if n = 0 then k.openBy else none, avail := k.avail + n }) ∧
      ((∀ n, named n = true → hit n = true) → s.onlyCore c (fun k => { k with threads := [], chan := [] }) t ∧
        ∀ n, t.thread ⟨c, n⟩ = after n) ∧
      ((∃ n, named n = true ∧ hit n = false) → s.turnsAway t a (corePage c 3 * 4096 + 0x810) true ∧
        ∀ n, { t.thread ⟨c, n⟩ with intpend := 0 } = { after n with intpend := 0 })) ∧
  (∀ (c : CoreId) (v : Word), s.reach a (corePage c 0) 0x924 = .all →
    let all := v.getLsbD 8
    let disc (k : Core) (q : Nat) : Core := match (k.queue q).stop, (k.queue q).byMove with
      | some e, _ => k.setQueue q { k.queue q with
          entries := (k.queue q).entries.filter fun i => if all then decide (i.seq < e.seq) else decide (i.seq ≠ e.seq) }
      | none, some e => { k with
          vq := { k.vq with entries := k.vq.entries.filter fun i => decide (i.seq ≠ e.seq) }
          mq := if all then { k.mq with entries := k.mq.entries.filter fun i => decide (i.seq ≤ e.seq) } else k.mq }
      | none, none => k
    Leads (exec (.qctlDiscard a c v) s) fun t => s.sameOutside { t with halls := s.halls } c ∧
      t.core c = ([0, 1, 2].filter fun q => v.getLsbD q).foldl disc (s.core c))) ∧
  (∀ (s : State) (a : Agent) (v : Word), s.running = true →
  let wrote (t : State) (l : List ((Nat × Nat) × Word)) : Prop := t = { s with live := t.live } ∧ s.puts t l
  let away (t : State) (p o : Nat) : Prop := s.turnsAway t a (p * 4096 + o) true ∧ t.liveWord p o = s.liveWord p o
  (∀ (u : DripUnit) (p o : Nat) (h : HallId), dripPlace u = (p, o, h) → s.reach a p o = .all →
    (s.stopped h = true → Leads (exec (.dripWrite a u v) s) (wrote · [((p, o), v)])) ∧
    (s.stopped h = false → Leads (exec (.dripWrite a u v) s) (away · p o))) ∧
  (∀ (c : CoreId) (u : Fin 32), s.reach a (corePage c 1) (0x840 + 4 * u.val) = .all →
    (s.stopped c.hall = true → Leads (exec (.sumpRoundWrite a c u v) s) fun t =>
      s.onlyCore c (fun k => { k with sump := [] }) t ∧
      ∀ n : Nat, (t.core c).sumpOf n = if n = u.val then { (s.core c).sumpOf n with round := v } else (s.core c).sumpOf n) ∧
    (s.stopped c.hall = false → Leads (exec (.sumpRoundWrite a c u v) s) fun t => (t.core c).sump = (s.core c).sump ∧
      s.turnsAway t a (corePage c 1 * 4096 + 0x840 + 4 * u.val) true)) ∧
  (∀ (h : HallId) (host : Bool), s.reach a (hallPage h 0) 0x8A0 = .all →
    host = (match a with | .pf => true | .vf _ _ => true | _ => false) →
    (s.stopped h = true → (host = true → s.hallMode h = 0) → Leads (exec (.saltWrite a h v) s) fun t =>
      wrote t [((hallPage h 0, 0x8A0), BitVec.ofNat 32 (v.toNat % 2 ^ 16))]) ∧
    (s.stopped h = false ∨ (host = true ∧ s.hallMode h ≠ 0) →
      Leads (exec (.saltWrite a h v) s) (away · (hallPage h 0) 0x8A0))) ∧
  (∀ (u : TallyUnit) (p b : Nat), tallyBase u = (p, b) → s.reach a p b = .all → Leads (exec (.tallyClr a u v) s) fun t =>
    t = { s with live := t.live } ∧ ∀ q o, o < 4096 → o % 4 = 0 → t.liveWord q o =
      if q = p ∧ b + 16 ≤ o ∧ o < b + 256 ∧ (o - b) % 16 < 12 ∧ v.getLsbD ((o - b) / 16) then 0 else s.liveWord q o) ∧
  (∀ (c : CoreId) (r : TableReg) (ring : Nat),
    ring = (match a with | .core x => (s.thread x).ring.toNat | .engine _ _ => 3 | _ => 0) →
    s.reach a (corePage c 0) (tableOff r) = .all →
    let at_ : Nat × Nat := (corePage c 0, tableOff r)
    let reaches (n : Nat) (P : State → Prop) : Prop := if ring ≤ n then Leads (exec (.tableRegisterWrite a c r v) s) P
      else Leads (exec (.tableRegisterWrite a c r v) s) (away · (corePage c 0) (tableOff r))
    match r with
    | .vbase n => reaches n.val (wrote · [(at_, (v &&& 0xFFC01) ||| BitVec.ofNat 32 (2 * ring))])
    | .gtbl => reaches 1 (wrote · [(at_, (v &&& 0xFFFF1FFF) ||| BitVec.ofNat 32 (2 ^ 13 * ring))])
    | .emstack => reaches 0 (wrote · [(at_, v &&& 0x1FFFF)])
    | .inten n => reaches 1 fun t => s.onlyThread t ⟨c, n⟩ ∧ t.thread ⟨c, n⟩ = { s.thread ⟨c, n⟩ with inten := v }))

/-- START makes the context switch of a stopped hall or is refused with its reason; the columns then start their threads from the boot
descriptor; STOP lets what is under way end, and the hall is stopped once nothing is (R73, R153 to R155, R158, R159, R451, R483). -/
def Obligations.HallRuns : Prop := ∀ (s : State) (h : HallId) (p : Nat), s.running = true → p = hallPage h 0 →
  let state (n : Nat) : (Nat × Nat) × Word := ((p, 0x00C), BitVec.ofNat 32 (setBits (s.liveWord p 0x00C).toNat 0 2 n))
  (∀ (a : Agent) (host core : Bool), s.reach a p 0x008 = .all →
    host = (match a with | .keeper => true | .pf => true | .vf g _ => decide (g = h) | _ => false) →
    core = (match a with | .core x => decide (x.core.hall = h ∧ (s.thread x).ring.toNat ≤ 1) | _ => false) →
    let r : Nat := if s.isOut h ∨ (s.hall h).outHeld ∨ (s.commitOf 0).checking ∨ (s.commitOf 0).waiting then 4
      else if s.partLive = 7 ∨ (s.liveWord p 0x028 = 0 ∧ (s.commitOf p).waiting = false) then 7
      else if s.modesAdmit h then 0 else 8
    (host = true → s.hallState h = 0 → r ≠ 0 → Leads (exec (.hallStart a h) s) fun t => t.hallState h = 0 ∧
      t.field p 0x00C 8 8 = r ∧ s.records t p 5 ∧ t.mem = s.mem) ∧
    (host = true → s.hallState h = 0 → r = 0 → Leads (exec (.hallStart a h) s) fun t => t.hallState h = 1 ∧
      (t.hall h).columns = 0 ∧ t.liveWord (hallPage h 0x84) 0x8B0 = 0 ∧ t.mem = s.mem ∧
      (∀ x : Site, x.core.hall = h → (t.thread x).run = .parked) ∧
      (wbit (s.liveWord p 0x00C) 3 = true → wbit (t.liveWord p 0x00C) 3 = false ∧
        t.field p 0x00C 16 16 = s.field p 0x00C 16 16) ∧
      (wbit (s.liveWord p 0x00C) 3 = false → s.engBusy h = true → (t.hall h).switching = true ∧
        t.field p 0x00C 16 16 = s.field p 0x00C 16 16) ∧
      (wbit (s.liveWord p 0x00C) 3 = false → s.engBusy h = false → t.field p 0x00C 16 16 = (s.field p 0x00C 16 16 + 1) % 2 ^ 16 ∧
        (∀ u q o, dripPlace u = (q, o, h) → t.liveWord q o = 0) ∧
        (∀ q, (q = p ∨ q = hallPage h 0x20 ∨ ∃ c : CoreId, c.hall = h ∧ q = corePage c 1) → (t.commitOf q).waiting = false) ∧
        ∀ c : CoreId, c.hall = h → ∀ n, (t.core c).sumpOf n = .zero ∧ (t.core c).ringOf n = .zero)) ∧
    (host = false ∨ s.hallState h ≠ 0 → Leads (exec (.hallStart a h) s) fun t => s.turnsAway t a (p * 4096 + 8) true ∧
      t.liveWord p 0x00C = s.liveWord p 0x00C ∧ ∀ c : CoreId, (t.core c).mq = (s.core c).mq) ∧
    (host = true ∨ core = true → s.hallState h = 2 → Leads (exec (.hallStop a h) s) fun t => s.puts t [state 3] ∧ t.mem = s.mem ∧
      ∀ c : CoreId, t.core c =
        let k := s.core c
        let stop (q : Queue) : Queue := if q.stop.isSome then .empty
          else { q with entries := q.entries.filter fun e => decide (e.phase = .underWay) }
        if c.hall = h then { k with mq := stop k.mq, vq := stop k.vq, dq := stop k.dq } else k) ∧
    ((host = false ∧ core = false) ∨ s.hallState h ≠ 2 → Leads (exec (.hallStop a h) s) fun t =>
      s.turnsAway t a (p * 4096 + 8) true ∧ t.liveWord p 0x00C = s.liveWord p 0x00C)) ∧
  (s.hallState h = 3 → s.hallQuiet h = true → Leads (exec (.hallStopped h) s) fun t => s.puts t [state 0] ∧ t.mem = s.mem ∧
    ∀ c : CoreId, t.core c = if c.hall = h then { s.core c with mq := .empty, vq := .empty, dq := .empty } else s.core c) ∧
  (∀ (n due : Nat) (u : State), s.hallState h = 1 → (s.hall h).switching = false → (s.hall h).columns = n → n < 12 →
    (n ≠ 0 ∨ ∀ g : HallId, g.val < h.val → ¬(s.hallState g = 1 ∧ (s.hall g).columns = 0)) →
    (n ≠ 0 → due = (s.hall h).colAt + 16800) → (n = 0 → (∀ v, s.col0 ≠ some v) → due = 0) →
    (n = 0 → ∀ g at_, s.col0 = some (g, at_) → due = if g = h.val then 0 else at_ + 1680000) →
    u = s.passTo due → u.hallState h = 1 → u.running = true → u.columnTurn h = true →
    let addr (x : Site) : Nat := u.bootBase h + 256 * x.core.index + 64 * x.thread.val
    let entry (x : Site) : List Byte := u.bytesAt (addr x) 64
    let here (x : Site) : Prop := x.core.hall = h ∧ x.core.column = n
    let bad (x : Site) : Prop := u.reaches (.core x) (addr x) = false ∨
      u.poisoned (addr x) = true ∨ (bitOf (hdr (entry x) 50 1) 0 = true ∧ (bootCheck (entry x)).isSome = true)
    addr ⟨coreAt h 0, 0⟩ % 64 = 0 →
    Leads (exec (.hallColumnStart h) s) fun t => (t.hall h).columns = n + 1 ∧ t.hallState h = (if n = 11 then 2 else 1) ∧
      t.mem = s.mem ∧ t.rootTick = max s.rootTick due ∧ (t.hall h).colAt = t.rootTick ∧
      ((∃ x, here x ∧ bad x) → wbit (t.liveWord p 0x010) 1 = true) ∧
      (∀ x, ¬here x → { t.thread x with intpend := 0 } = { u.thread x with intpend := 0 }) ∧
      (∀ x, here x → bad x ∨ bitOf (hdr (entry x) 50 1) 0 = false → (t.thread x).run = .parked ∧ (t.thread x).regs = (u.thread x).regs) ∧
      (∀ x, here x → ¬bad x → bitOf (hdr (entry x) 50 1) 0 = true →
        let g := t.thread x
        let e := entry x
        g.run = .active ∧ g.wait = none ∧ g.ring.toNat = bitsOf (hdr e 50 1) 3 2 ∧ g.prio.toNat = bitsOf (hdr e 50 1) 1 2 ∧
        g.pc.toNat = hdr e 48 2 ∧ (∀ r : BitVec 5, g.reg r = if r = 1 then BitVec.ofNat 32 (hdr e 52 4) else 0) ∧
        (∀ i, g.seg i = if i < 3 then BitVec.ofNat 128 (hdr e (16 * i) 16) else 0) ∧ g.ev = 0 ∧ g.inh = false ∧ g.df = false ∧
        g.inten = 0 ∧ g.tmrcmp = 0 ∧ g.rsDepth = 0 ∧ g.rsWrap = false) ∧
      ((∀ x, here x → ¬bad x ∧ isControl (addr x) = false) → ∀ x, (t.thread x).intpend = (u.thread x).intpend))

/-- The queues of a hall engine: a write of PROD submits slots or is an access error; a submitted descriptor starts in slot order, or
stops its queue when it cannot be read or is in error; RESUME and DISCARD act on a stopped queue; a NOP ends at once; a descriptor
whose work has ended completes with its record and its signals (R319 to R328). -/
def Obligations.EngineQueues : Prop := ∀ (s : State) (h : HallId) (n : Fin 9) (q : Fin 4) (p : Nat) (r : EngRun), s.running = true →
  p = enginePage h n.val → r = s.engRun h n q →
  let prod := s.engProd h n q
  let cons := s.engCons h n q
  let size := s.engEntries h n q
  let word (o v : Nat) : (Nat × Nat) × Word := ((p, 0x800 + 16 * q.val + o), BitVec.ofNat 32 v)
  let dist (b : Nat) : Nat := (b % 512 + 512 - cons % 512) % 512
  let othersStay (t : State) : Prop := ∀ g m k, (g, m, k) ≠ (h, n, q) → t.engRun g m k = s.engRun g m k
  (∀ (a : Agent) (v : Word), s.reach a p (0x800 + 16 * q.val) = .all →
    (size ≠ 0 ∧ dist prod ≤ dist (v.toNat % 512) ∧ dist (v.toNat % 512) ≤ size → Leads (exec (.queueProdWrite a h n q v) s) fun t =>
      t = { s with live := t.live } ∧ s.puts t [word 0 (v.toNat % 512)]) ∧
    (¬(size ≠ 0 ∧ dist prod ≤ dist (v.toNat % 512) ∧ dist (v.toNat % 512) ≤ size) →
      Leads (exec (.queueProdWrite a h n q v) s) fun t => s.turnsAway t a (p * 4096 + 0x800 + 16 * q.val) true ∧
        t.engProd h n q = prod)) ∧
  (∀ a : Agent, s.reach a p (0x80C + 16 * q.val) = .all →
    (s.engState h n q ≠ 2 → Leads (exec (.queueResume a h n q) s) (· = s) ∧
      ∀ all, Leads (exec (.queueDiscard a h n q all) s) (· = s)) ∧
    (s.engState h n q = 2 → r.phase ≠ .unread → badHeader h n r.desc = false → Leads (exec (.queueResume a h n q) s) fun t =>
      s.puts t [word 8 1] ∧ t.mem = s.mem ∧ t.engRun h n q = { r with phase := .running } ∧ othersStay t) ∧
    (∀ all, s.engState h n q = 2 → Leads (exec (.queueDiscard a h n q all) s) fun t =>
      s.puts t [word 8 0, word 4 ((if all then prod else cons + 1) % 512)] ∧ t.mem = s.mem ∧ t.engRun h n q = .idle ∧ othersStay t ∧
      ∀ m, m ∈ t.remote ↔ m ∈ s.remote ∧ ¬(m.q = q ∧ ∃ d : Fin 4, m.who = .dma h d ∧ n.val = d.val + 5))) ∧
  (∀ (at_ last : Nat) (d : List Byte) (c : Instr), last = SMap.get (s.hall h).lastQ n.val 3 →
    (c = .descriptorStart h n q ∧ (s.hallState h = 1 ∨ s.hallState h = 2) ∧ (s.hall h).switching = false ∧
      s.engState h n q = 0 ∧ prod ≠ cons ∧ (∀ k : Fin 4, (k.val + 7 - last % 4) % 4 < (q.val + 7 - last % 4) % 4 → s.engCan h n k = false) ∨
      ∃ a, c = .queueResume a h n q ∧ s.reach a p (0x80C + 16 * q.val) = .all ∧
      s.engState h n q = 2 ∧ r.phase = .unread) → size ≠ 0 →
    at_ = s.engBase h n q + cons % size * 64 → d = s.bytesAt at_ 64 → isControl at_ = false → s.reaches (.engine h n) at_ = true →
    s.readStalls (.engine h n) at_ 64 = false → at_ % 64 = 0 →
    (s.poisoned at_ = true → Leads (exec c s) fun t => t.mem = s.mem ∧
      t.engRun h n q = { EngRun.idle with phase := .unread } ∧ t.liveWord p (0x808 + 16 * q.val) = 10 ∧
      wbit (t.liveWord p 0x010) 1 = true ∧ t.liveWord p 0x850 = (s.plus32 p 0x850 1).2 ∧ t.engCons h n q = cons) ∧
    (s.poisoned at_ = false → (drawsDrip n d = false ∨ s.dripBusy h n q = false) →
      (badHeader h n d = false → Leads (exec c s) fun t => t.mem = s.mem ∧ othersStay t ∧
        t.engRun h n q = { EngRun.idle with phase := .running, desc := d } ∧ t.liveWord p (0x808 + 16 * q.val) = 1 ∧
        t.engCons h n q = cons) ∧
      (badHeader h n d = true → s.recordStalls h n d = false → Leads (exec c s) fun t =>
        (∃ late, (dCrec d = 0 → late = s.engWrites h n q) ∧
          t.engRun h n q = { EngRun.idle with phase := .running, desc := d, sig := late }) ∧
        t.liveWord p (0x808 + 16 * q.val) = 6 ∧
        wbit (t.liveWord p 0x010) 0 = true ∧ t.liveWord p 0x850 = (s.plus32 p 0x850 1).2 ∧ t.engCons h n q = cons))) ∧
  (s.engState h n q = 1 → r.phase = .running → dOp r.desc = 0 → Leads (exec (.nop h n q) s) fun t =>
    { t with halls := s.halls } = s ∧ t.engRun h n q = { r with phase := .ended } ∧ othersStay t) ∧
  (∀ (c : Nat) (a : Agent), c = dCrec r.desc → a = .engine h n → s.engState h n q = 1 → s.engHeld h n q = false →
    let finished (t : State) : Prop := t.engRun h n q = .idle ∧ othersStay t ∧
      t.liveWord p (0x808 + 16 * q.val) = 0 ∧ t.engCons h n q = (cons + 1) % 512 ∧
      t.liveWord p 0x848 = BitVec.ofNat 32 (s.live64 p 0x848 + 1) ∧
      (badSignal h r.desc = false → ∀ x : Site, x.core.val = dget r.desc 4 2 % 2 ^ 11 → x.thread.val = dget r.desc 3 1 % 4 →
        (t.thread x).intpend = (if bitOf (dget r.desc 1 1) 1 then (s.thread x).intpend ||| 0x40 else (s.thread x).intpend) ∧
        (t.thread x).ev = if bitOf (dget r.desc 1 1) 2 then (s.thread x).ev ||| BitVec.ofNat 32 (2 ^ bitsOf (dget r.desc 1 1) 3 5)
          else (s.thread x).ev)
    (r.phase = .ended → s.recordStalls h n r.desc = false →
      (c = 0 ∨ s.reaches a c = false ∨ (s.protectedAt c = false ∧ s.behindHeld a c = false) →
        Leads (exec (.descriptorComplete h n q) s) fun t => finished t ∧
          (c = 0 → t.mem = s.mem ∧ t.near = s.near ∧ t.cxl = s.cxl) ∧
          (c ≠ 0 → c % 16 = 0 → c < 2 ^ 48 → s.takesWrite a c 16 → s.stores t c
            (natBytes 1 r.status ++ natBytes 1 (2 * q.val) ++ natBytes 2 cons ++ natBytes 4 r.result ++ natBytes 8 0))) ∧
      (c ≠ 0 → c % 16 = 0 → c < 2 ^ 48 → s.backs a c = true → s.protectedAt c = true ∨ s.behindHeld a c = true →
        Leads (exec (.descriptorComplete h n q) s) fun t => t.engRun h n q = { r with phase := .recorded } ∧ othersStay t ∧
          t.engCons h n q = cons ∧ t.engState h n q = 1 ∧ t.engHeld h n q = true ∧ (∀ x, t.thread x = s.thread x) ∧ t.mem = s.mem)) ∧
    (r.phase = .recorded → Leads (exec (.descriptorComplete h n q) s) fun t => finished t ∧ t.mem = s.mem ∧ t.near = s.near ∧
      t.cxl = s.cxl))

/-- SORT and TOPK write the keys and values in the total order of R338, equal keys in input order; SAMPLE writes one index a row (R337
to R340). -/
def Obligations.SortingAndSampling : Prop := ∀ (s : State) (h : HallId) (q : Fin 4) (e : Fin 9) (r : EngRun), s.running = true →
  r = s.engRun h e q → s.engState h e q = 1 → r.phase = .running →
  let a : Agent := .engine h e
  let reads (b n : Nat) : Prop := ∀ j, j < n → s.takesRead a (b + j) 1
  let takes (b n : Nat) : Prop := ∀ j, j < n → s.takesWrite a (b + j) 1
  (∀ (c : Instr) (g : SortDesc), e = 1 → (c = .sort h q ∧ dOp r.desc = 1 ∨ c = .topk h q ∧ dOp r.desc = 2) → g = sortDesc r.desc →
    s.sortBad h r.desc = false →
    (g.outN = 0 → Leads (exec c s) fun t => { t with halls := s.halls } = s ∧ t.engRun h e q = { r with phase := .ended }) ∧
    (g.outN ≠ 0 → reads g.keys (g.n * g.keyBytes) → (g.vals = true → reads g.vin (g.n * 4)) →
    takes g.okeys (g.outN * g.keyBytes) → takes g.ovals (g.outN * 4) → (g.topk = false → takes (g.scratch h) (8 * g.n)) →
    let key (i : Nat) : Nat := bytesNat (s.bytesAt (g.keys + i * g.keyBytes) g.keyBytes)
    let val (i : Nat) : Nat := if g.vals then bytesNat (s.bytesAt (g.vin + i * 4) 4) else i
    let within (b c n : Nat) : Prop := c ≤ b ∧ b < c + n
    ∃ order : List Nat, order.Perm (List.range g.n) ∧
      (order.Pairwise fun i j => keyBefore g (key i) (key j) = true ∨ (keyBefore g (key j) (key i) = false ∧ i < j)) ∧
      Leads (exec c s) fun t => t.engRun h e q = { r with phase := .ended, result := g.outN } ∧
        (∀ j, j < g.outN * 4 → t.byteAt (g.ovals + j) =
          ((order.take g.outN).flatMap fun i => natBytes 4 (val i)).getD j 0) ∧
        (∀ j, j < g.outN * g.keyBytes → ¬within (g.okeys + j) g.ovals (g.outN * 4) → t.byteAt (g.okeys + j) =
          ((order.take g.outN).flatMap fun i => natBytes g.keyBytes (key i)).getD j 0) ∧
        (∀ b, ¬within b g.ovals (g.outN * 4) → ¬within b g.okeys (g.outN * g.keyBytes) →
          ¬(g.topk = false ∧ within b (g.scratch h) (8 * g.n)) → t.byteAt b = s.byteAt b))) ∧
  (∀ g : SampleDesc, e = 2 → dOp r.desc = 1 → g = sampleDesc r.desc → sampleBad r.desc = false → g.n ≠ 0 → r.unit ≤ g.nvec →
    (∀ i, i < g.nvec → reads (g.logits + i * g.rstride) (2 * g.n) ∧
      (g.logits + i * g.rstride + 2 * g.n ≤ g.out ∨ g.out + 4 * g.nvec ≤ g.logits + i * g.rstride)) → takes g.out (4 * g.nvec) →
    let row (i : Nat) : Option Nat := sampleRow g (s.sampleBits h i)
      ((List.range g.n).map fun j => bytesNat (s.bytesAt (g.logits + i * g.rstride + 2 * j) 2))
    Leads (exec (.sample h q) s) fun t => s.stores t (g.out + 4 * r.unit)
        (((List.range g.nvec).drop r.unit).flatMap fun i => natBytes 4 ((row i).getD 0xFFFFFFFF)) ∧
      t.engRun h e q = { r with phase := .ended, unit := g.nvec, result := if r.unit < g.nvec then g.nvec else r.result
                                status := if ((List.range g.nvec).drop r.unit).any fun i => (row i).isNone then 10 else r.status })

/-- POOL reduces the rows of each bag into its output row; SCATTER adds its source rows, weighted, to the rows they name, one step after
another (R331 to R336). -/
def Obligations.SiphonOperations : Prop := ∀ (s : State) (h : HallId) (q : Fin 4) (r : EngRun) (g : SiphonDesc) (tb : SiphonTable)
    (place : Nat → Nat), s.running = true → r = s.engRun h 0 q → s.engState h 0 q = 1 → r.phase = .running → g = siphonDesc r.desc →
  tb = s.siphonTable h g.tab →
  let a : Agent := .engine h 0
  let reads (b n : Nat) : Prop := ∀ j, j < n → s.takesRead a (b + j) 1
  let takes (b n : Nat) : Prop := ∀ j, j < n → s.takesWrite a (b + j) 1
  let apart (b n c m : Nat) : Prop := b + n ≤ c ∨ c + m ≤ b ∨ n = 0 ∨ m = 0
  let iw : Nat := if g.idx64 then 8 else 4
  let index (k : Nat) : Nat := bytesNat (s.bytesAt (g.idx + k * iw) iw)
  let weight (used : Bool) (k : Nat) : Machine.Num :=
    if used then decodeNum g.wfmt (bytesNat (s.bytesAt (g.wts + k * 2) 2)) else .fin false 1 0
  let remap : Nat := if tb.remap then 2 ^ tb.logsets * 64 else 0
  reads g.idx (g.nidx * iw) → reads tb.rmap remap →
  (∀ k, k < g.nidx → index k < 2 ^ 40 ∧ (∃ u, s.rowAddr h tb (index k) = .ok u (place k)) ∧ reads (place k) tb.bytes) →
  (dOp r.desc = 1 → poolBad tb r.desc = false → (g.nbags = 0 → g.nidx = 0) → r.unit = 0 → r.kept = [] →
    reads g.list (2 * g.nbags) → (g.mode = 3 → reads g.wts (g.nidx * 2)) → (2 * tb.elems ≤ g.stride ∨ g.nbags ≤ 1) →
    let all : Nat := (g.nbags - 1) * g.stride + 2 * tb.elems
    takes g.out all → (g.acc = true → reads g.out all) → apart g.idx (g.nidx * iw) g.out all → apart tb.rmap remap g.out all →
    apart g.wts (if g.mode = 3 then g.nidx * 2 else 0) g.out all → (∀ k, k < g.nidx → apart (place k) tb.bytes g.out all) →
    let lens : List Nat := (List.range g.nbags).map fun b => bytesNat (s.bytesAt (g.list + 2 * b) 2)
    lens.sum = g.nidx →
    let row (k : Nat) : List Nat := bitElems (fmtWidth tb.fmt) tb.elems (bytesNat (s.bytesAt (place k) tb.bytes))
    let start (b : Nat) : List Elem := if g.acc then (List.range tb.elems).map fun i =>
        Elem.ofBits (bytesNat (s.bytesAt (g.out + b * g.stride + 2 * i) 2))
      else List.replicate tb.elems (Elem.ofBits 0)
    let step (b : Nat) (acc : List Elem) (j : Nat) : List Elem := (List.range tb.elems).map fun i =>
      let k := (lens.take b).sum + j
      let v := decodeNum g.fmt (acc.getD i (Elem.ofBits 0)).bits
      let x := decodeNum tb.fmt ((row k).getD i 0)
      roundStep g.fmt g.rm (s.siphonDrip h k i) (if g.mode = 2 then (if j = 0 ∧ g.acc = false then x else maxNum v x)
        else if g.mode = 3 then Machine.Num.sum [v, (weight true k).mul x] else Machine.Num.sum [v, x])
    let sums (b : Nat) : List Elem := (List.range (lens.getD b 0)).foldl (step b) (start b)
    let new (b : Nat) : Option (List Elem) :=
      if lens.getD b 0 = 0 then (if g.acc then none else some (List.replicate tb.elems (Elem.ofBits 0)))
      else some (if g.mode = 1 then (sums b).map fun v => roundNE g.fmt ((decodeNum g.fmt v.bits).divNat (lens.getD b 0)) else sums b)
    Leads (exec (.pool h q) s) fun t =>
      { t.engRun h 0 q with kept := [] } = { ((List.range g.nbags).filterMap new).foldl (fun r es => r.count g.fmt es) r with
        phase := .ended, unit := g.nbags, result := if g.nbags = 0 then r.result else g.nbags, kept := [] } ∧
      (∀ b es, b < g.nbags → new b = some es →
        t.bytesAt (g.out + b * g.stride) (2 * tb.elems) = es.flatMap fun v => natBytes 2 v.bits) ∧
      ∀ m, (∀ b, b < g.nbags → (new b).isSome = true → ¬(g.out + b * g.stride ≤ m ∧ m < g.out + b * g.stride + 2 * tb.elems)) →
        t.byteAt m = s.byteAt m) ∧
  (dOp r.desc = 2 → scatterBad tb r.desc = false → r.unit ≤ g.nidx → (g.wts ≠ 0 → reads g.wts (g.nidx * 2)) →
    let sw : Nat := tb.elems * fmtWidth g.fmt / 8
    (∀ k, k < g.nidx → takes (place k) tb.bytes ∧ reads (g.list + k * g.stride) sw ∧ apart (place k) tb.bytes g.idx (g.nidx * iw) ∧
      apart (place k) tb.bytes tb.rmap remap ∧ apart (place k) tb.bytes g.wts (if g.wts = 0 then 0 else g.nidx * 2) ∧
      ∀ j, j < g.nidx → apart (place k) tb.bytes (g.list + j * g.stride) sw) →
    let src (k : Nat) : List Nat := bitElems (fmtWidth g.fmt) tb.elems (bytesNat (s.bytesAt (g.list + k * g.stride) sw))
    let sum (m : Nat → Byte) (k i : Nat) : Elem :=
      let old := (m (place k + 2 * i)).toNat + 256 * (m (place k + 2 * i + 1)).toNat
      roundStep tb.fmt g.rm (s.siphonDrip h k i)
        (Machine.Num.sum [decodeNum tb.fmt old, (weight (g.wts != 0) k).mul (decodeNum g.fmt ((src k).getD i 0))])
    let next (m : Nat → Byte) (k : Nat) : Nat → Byte := fun b =>
      if place k ≤ b ∧ b < place k + tb.bytes then (natBytes 2 (sum m k ((b - place k) / 2)).bits).getD ((b - place k) % 2) 0 else m b
    Leads (exec (.scatter h q) s) fun t => (∀ b, t.byteAt b = (((List.range g.nidx).drop r.unit).foldl next s.byteAt) b) ∧
      (t.engRun h 0 q).phase = .ended ∧ (t.engRun h 0 q).unit = g.nidx ∧
      (t.engRun h 0 q).result = if r.unit < g.nidx then g.nidx else r.result)

/-- EXPAND writes the decoded blocks of its stream one after another; SM4 in each of its modes and SM3 write what the standards give
(R341 to R345). -/
def Obligations.StreamEngines : Prop := ∀ (s : State) (h : HallId) (q : Fin 4) (e : Fin 9) (r : EngRun), s.running = true →
  r = s.engRun h e q → s.engState h e q = 1 → r.phase = .running → r.unit = 0 → r.kept = [] →
  let a : Agent := .engine h e
  let reads (b n : Nat) : Prop := ∀ j, j < n → s.takesRead a (b + j) 1
  let takes (b n : Nat) : Prop := ∀ j, j < n → s.takesWrite a (b + j) 1
  let ends (t : State) (result status : Nat) : Prop :=
    (t.engRun h e q).phase = .ended ∧ (t.engRun h e q).result = result ∧ (t.engRun h e q).status = status
  (∀ (src dst slen : Nat) (blocks : List (List Byte × List Byte × List Byte)), e = 3 → dOp r.desc = 1 → s.expandBad h r.desc = false →
    r.pos = 0 → r.outPos = 0 → r.result = 0 → slen = dget r.desc 16 4 → src = dget r.desc 32 8 → dst = dget r.desc 40 8 →
    let pos (i : Nat) : Nat := ((blocks.take i).map fun b => (8 + b.2.1.length + 15) / 16 * 16).sum
    let out : List Byte := blocks.flatMap fun b => b.2.2
    (∀ i hd pd o, blocks[i]? = some (hd, pd, o) → hd.length = 8 ∧ hd ++ pd = s.bytesAt (src + pos i) (8 + pd.length) ∧
      dget hd 4 4 = pd.length ∧ pos i + 8 + pd.length ≤ slen ∧ dget hd 2 2 < 4096 ∧
      squeezeBlock (dget hd 0 1) (dget hd 1 1) (dget hd 2 2 + 1) pd = some o ∧ reads (src + pos i) (8 + pd.length)) →
    slen ≤ pos blocks.length → out.length ≤ dget r.desc 20 4 → takes dst out.length →
    (dTally r.desc = 0 ∨ out.length * 8 % fmtWidth (dEfmt r.desc) = 0) → (src + slen ≤ dst ∨ dst + out.length ≤ src) →
    Leads (exec (.expand h q) s) fun t => s.stores t dst out ∧ ends t out.length r.status) ∧
  (∀ (g : CipherDesc) (enc : Bool) (c : Instr), e = 4 → g = cipherDesc r.desc → sm4Bad r.desc = false →
    (c = .sm4Encrypt h q ∧ dOp r.desc = 1 ∧ enc = true ∨ c = .sm4Decrypt h q ∧ dOp r.desc = 2 ∧ enc = false) →
    (g.len ≠ 0 ∨ g.alen ≠ 0) → reads g.parm 48 → (g.mode = 3 → reads g.aad g.alen) → reads g.src g.len → takes g.dst g.len →
    (g.mode = 3 → enc = true → takes (g.parm + 32) 16) → r.result = 0 →
    let inp : List Byte := s.bytesAt g.src g.len
    let key : Nat := beNat (s.bytesAt g.parm 16)
    let iv : Nat := beNat (s.bytesAt (g.parm + 16) 16)
    let iv96 : Nat := beNat (s.bytesAt (g.parm + 16) 12)
    let blk (l : List Byte) (i : Nat) : Nat := beNat ((l.drop (16 * i)).take 16)
    let stream (i : Nat) : List Byte := beBytes 16 (sm4Enc key (if g.mode = 2 then (iv + i) % 2 ^ 128 else iv96 * 2 ^ 32 + (i + 2) % 2 ^ 32))
    ∃ out : List Byte, out.length = g.len ∧
      (g.mode = 0 → ∀ i, 16 * i < g.len → blk out i = (if enc then sm4Enc key (blk inp i) else sm4Dec key (blk inp i))) ∧
      (g.mode = 1 → ∀ i, 16 * i < g.len → blk out i =
        if enc then sm4Enc key ((blk inp i).xor (if i = 0 then iv else blk out (i - 1)))
        else (sm4Dec key (blk inp i)).xor (if i = 0 then iv else blk inp (i - 1))) ∧
      (2 ≤ g.mode → ∀ j, j < g.len → out.getD j 0 = inp.getD j 0 ^^^ (stream (j / 16)).getD (j % 16) 0) ∧
      let hk := sm4Enc key 0
      let cipher := if enc then out else inp
      let y := ghashStep hk (ghash hk (g.len / 16 + 1) (ghash hk (g.alen / 16 + 1) 0 (s.bytesAt g.aad g.alen)) cipher)
        (g.alen * 8 * 2 ^ 64 + g.len * 8)
      let tag := beBytes 16 (y.xor (sm4Enc key (iv96 * 2 ^ 32 + 1)))
      Leads (exec c s) fun t =>
        (∀ b, t.byteAt b = if g.dst ≤ b ∧ b < g.dst + g.len then out.getD (b - g.dst) 0
          else if g.mode = 3 ∧ enc = true ∧ g.parm + 32 ≤ b ∧ b < g.parm + 48 then tag.getD (b - (g.parm + 32)) 0 else s.byteAt b) ∧
        ends t g.len (if g.mode = 3 ∧ enc = false then (if tag = s.bytesAt (g.parm + 32) 16 then 0 else 9) else r.status)) ∧
  (∀ g : CipherDesc, e = 4 → dOp r.desc = 3 → g = cipherDesc r.desc → sm3Bad r.desc = false → g.len ≠ 0 → r.result = 0 →
    reads g.src g.len → takes g.dst 32 →
    Leads (exec (.sm3 h q) s) fun t => s.stores t g.dst (sm3 (s.bytesAt g.src g.len)) ∧ ends t g.len r.status)

/-- COPY moves its rows in order between device memory, host memory and another module; FILL writes its pattern; SCRUB writes zeros and
reads them back; a failed read of host memory stops the descriptor with status 5 (R346 to R348, R381, R400). -/
def Obligations.HallDmaEngines : Prop := ∀ (s : State) (h : HallId) (d q : Fin 4) (e : Fin 9) (r : EngRun) (g : HdmaDesc),
  s.running = true → e = hdmaEng d → r = s.engRun h e q → g = hdmaDesc r.desc → s.engState h e q = 1 → r.phase = .running →
  hdmaBad r.desc = false → g.rowLen ≠ 0 → r.unit = 0 → r.byte = 0 → r.result = 0 →
  let a : Agent := .engine h e
  let reads (b : Nat) : Prop := ∀ j, j < g.rowLen → s.takesRead a (b + j) 1
  let takes (b : Nat) : Prop := ∀ j, j < g.rowLen → s.takesWrite a (b + j) 1
  let open_ : Prop := s.hallMode h = 0 ∨ s.hallMode h = 2
  let ends (t : State) : Prop := (t.engRun h e q).phase = .ended ∧ (t.engRun h e q).result = g.rows
  (∀ (c : Instr) (host : List Byte), (c = .copy h d q host ∧ dOp r.desc = 1 ∨ c = .fill h d q ∧ dOp r.desc = 2) →
    let fill : Prop := dOp r.desc = 2
    let value (m : Nat → Byte) (k i : Nat) : Byte := if dOp r.desc = 2 then BitVec.ofNat 8 (g.fill / 2 ^ (8 * (i % 4)))
      else if g.sspace = 1 then host.getD (k * g.rowLen + i) 0 else m (g.srcRow k + i)
    let rowInto (m : Nat → Byte) (k : Nat) : Nat → Byte := fun b =>
      if g.dstRow k ≤ b ∧ b < g.dstRow k + g.rowLen then value m k (b - g.dstRow k) else m b
    let sent (m : Nat → Byte) (k : Nat) : Nat → Byte := fun b =>
      if g.dstRow k ≤ b ∧ b < g.dstRow k + g.rowLen then value s.byteAt k (b - g.dstRow k) else m b
    let part (m : Nat → Byte) (p : Nat × List Byte) : Nat → Byte := fun b =>
      if p.1 ≤ b ∧ b < p.1 + p.2.length then p.2.getD (b - p.1) 0 else m b
    (fill ∨ g.sspace ≠ 0 ∨ ∀ k, k < g.rows → reads (g.srcRow k)) →
    (fill ∨ g.sspace ≠ 1 ∨ (open_ ∧ g.rows * g.rowLen ≤ host.length)) →
    (g.dspace = 0 → (fill ∨ g.sspace ≠ 2) → (∀ k, k < g.rows → takes (g.dstRow k)) → Leads (exec c s) fun t =>
      (∀ b, t.byteAt b = ((List.range g.rows).foldl rowInto s.byteAt) b) ∧ ends t) ∧
    (g.dspace = 1 → (fill ∨ g.sspace ≠ 2) → open_ → Leads (exec c s) fun t => ∃ l : List (Nat × List Byte),
      t.out = s.out ++ l.map (fun p => .hostWrite (h.val + 1) p.1 p.2) ∧
      (∀ m b, (l.foldl part m) b = ((List.range g.rows).foldl sent m) b) ∧ t.mem = s.mem ∧ ends t) ∧
    ((s.remote.filter fun m => decide (m.who = .dma h d)).length + g.rows * (g.rowLen / 64 + g.rowLen / 4096 + 3) ≤ 256 →
      let asked (t : State) (l : List (RemReq × Packet)) : Prop := t.remote = s.remote ++ l.map (·.1) ∧
        t.routing = s.routing ++ l.map (fun p => ⟨none, h, p.2⟩) ∧ t.mem = s.mem ∧ ∀ p, p ∈ l → p.1.who = .dma h d ∧ p.1.q = q ∧
          p.2.tag.toNat = p.1.tag ∧ p.2.len = p.1.len ∧ p.2.dst = g.module ∧ p.2.src = s.myId ∧
          p.2.target.toNat % 4096 + p.1.len ≤ 4096 ∧ p.1.len ≤ 64
      (g.dspace = 2 → (fill ∨ g.sspace ≠ 2) → (∀ k, k < g.rows → g.dstRow k + g.rowLen ≤ 2 ^ 48) →
        Leads (exec c s) fun t => ∃ l, asked t l ∧ ends t ∧ (∀ p, p ∈ l → p.1.write = true ∧ p.2.kind = 0 ∧ p.2.data.length = p.1.len) ∧
          ∀ m b, ((l.map fun p => (p.2.target.toNat, p.2.data)).foldl part m) b = ((List.range g.rows).foldl sent m) b) ∧
      (¬fill → g.sspace = 2 → (g.dspace = 1 → open_) → (∀ k, k < g.rows → g.srcRow k + g.rowLen ≤ 2 ^ 48) →
        Leads (exec c s) fun t => ∃ l, asked t l ∧ ends t ∧
          (∀ p, p ∈ l → p.1.write = false ∧ p.1.host = decide (g.dspace = 1) ∧ p.2.kind = 1 ∧ p.2.data = []) ∧
          ∀ b : Nat, (l.foldl (fun (m : Nat → Option Nat) p b => if p.1.addr ≤ b ∧ b < p.1.addr + p.1.len
              then some (p.2.target.toNat + (b - p.1.addr)) else m b) fun _ => none) b =
            ((List.range g.rows).foldl (fun (m : Nat → Option Nat) k b => if g.dstRow k ≤ b ∧ b < g.dstRow k + g.rowLen
              then some (g.srcRow k + (b - g.dstRow k)) else m b) fun _ => none) b))) ∧
  (dOp r.desc = 3 → (∀ k, k < g.rows → takes (g.dstRow k)) →
    (∀ bad, (∀ n, bad = some n → g.rows * (g.rowLen / 64) ≤ n) → Leads (exec (.scrub h d q bad) s) fun t => ends t ∧
      ∀ b, t.byteAt b = if (List.range g.rows).any fun k => decide (g.dstRow k ≤ b ∧ b < g.dstRow k + g.rowLen) then 0
        else s.byteAt b) ∧
    (∀ n, n < g.rows * (g.rowLen / 64) → s.recordStalls h e r.desc = false → Leads (exec (.scrub h d q (some n)) s) fun t => t.engState h e q = 2 ∧
      t.field (enginePage h e.val) (0x808 + 16 * q.val) 2 8 = 7 ∧ wbit (t.liveWord (enginePage h e.val) 0x010) 6 = true ∧
      (t.engRun h e q).unit = n / (g.rowLen / 64) ∧ (t.engRun h e q).byte = n % (g.rowLen / 64) * 64)) ∧
  (dOp r.desc = 1 → g.sspace = 1 → g.rows ≠ 0 → s.recordStalls h e r.desc = false → Leads (exec (.hostReadFail h d q) s) fun t => t.engState h e q = 2 ∧
    t.field (enginePage h e.val) (0x808 + 16 * q.val) 2 8 = 5 ∧ wbit (t.liveWord (enginePage h e.val) 0x010) 4 = true ∧
    wbit (t.liveWord (0x20 + h.val) 0x010) 2 = true ∧
    ∃ late, (dCrec r.desc = 0 → late = s.engWrites h e q) ∧ t.engRun h e q = { r with sig := late })

/-- A Yarlink port comes up at its widest width, checks the flits it receives, answers a bad one with NAK and replays what is not
acknowledged; a lane that fails narrows it, a port that fails drops what it held (R366, R369 to R375). -/
def Obligations.YarlinkPorts : Prop := ∀ (s : State) (p : PortId) (g : Nat) (v : YPort), s.running = true → g = portPage p → v = s.port p →
  let width (l : BitVec 8) : Nat := if l = 0xFF then 8 else if l &&& 0x0F = 0x0F ∨ l &&& 0xF0 = 0xF0 then 4
    else if l &&& 3 = 3 ∨ l &&& 0xC = 0xC ∨ l &&& 0x30 = 0x30 ∨ l &&& 0xC0 = 0xC0 then 2 else 0
  let pstat (state w : Nat) (l : BitVec 8) : Word := BitVec.ofNat 32 (state + w * 2 ^ 3 + l.toNat * 2 ^ 7)
  let lanes : BitVec 8 := BitVec.ofNat 8 (s.field g 0x800 7 8)
  let failed (t : State) (l : BitVec 8) : Prop := t.liveWord g 0x800 = pstat 4 0 l ∧ t.port p = .zero ∧ s.records t g 0 ∧
    t.liveWord g 0x83C = (s.plus32 g 0x83C (v.queue.length + (if v.tail.isEmpty then 0 else 1) + (v.unacked.map TxFlit.ends).sum)).2
  let again (l : List TxFlit) : List Out := l.map fun f => .flit p f.bytes
  let crcGood (b : List Byte) : Prop := bytesNat ((b.drop 252).take 4) = (crc32 (b.take 252)).toNat
  let bare (b : List Byte) (typ : Nat) (ack : BitVec 12) : Prop := b.length = 256 ∧ crcGood b ∧
    bitsOf (bytesNat (b.take 4)) 0 12 = (v.txSeq - 1).toNat ∧ bitsOf (bytesNat (b.take 4)) 12 12 = ack.toNat ∧
    bitsOf (bytesNat (b.take 4)) 24 2 = typ
  let nothingWaits : Prop := v.queue = [] ∧ v.tail = []
  (∀ (l : BitVec 8) (proven : Bool), s.portState p = 1 ∨ s.portState p = 2 →
    (width l < s.minWidth p → ∀ m, Leads (exec (.yarlinkPortUp p m proven l) s) (failed · l)) ∧
    (s.minWidth p ≤ width l →
      (s.portState p = 1 → Leads (exec (.yarlinkPortUp p none proven l) s) fun t => t.liveWord g 0x800 = pstat 2 (width l) l ∧
        t.routing = s.routing ∧ ∃ b, t.out = s.out ++ [.flit p b] ∧ bare b 3 v.rxSeq) ∧
      (s.portState p = 2 → Leads (exec (.yarlinkPortUp p none proven l) s) (· = s))) ∧
    (∀ peer : BitVec 18, s.minWidth p ≤ width l →
      let known : Bool := wbit (s.applWord g 0x108) 18 || decide (peer.toNat = (s.applWord g 0x108).toNat % 2 ^ 18)
      (proven = false ∨ known = false → Leads (exec (.yarlinkPortUp p (some peer) proven l) s) fun t =>
        t.liveWord g 0x800 = pstat 0 0 l ∧ s.records t g 5 ∧ (s.portState p = 2 → t.port p = v)) ∧
      (proven = true → known = true → Leads (exec (.yarlinkPortUp p (some peer) proven l) s) fun t =>
        (∃ kt kr, t.port p = { YPort.zero with tx := ⟨kt, s.liveWord g 0x808, 0, none⟩, rx := ⟨kr, s.liveWord g 0x808, 0, none⟩ }) ∧
        (s.portState p = 2 → t.out = s.out) ∧
        s.puts t [((g, 0x800), pstat 3 (width l) l), ((g, 0x804), BitVec.ofNat 32 (peer.toNat + 2 ^ 18))]))) ∧
  (s.portState p = 1 ∨ s.portState p = 2 ∨ s.portState p = 3 → Leads (exec (.portFail p) s) (failed · lanes)) ∧
  (∀ (f : RxFlit) (hd : Nat) (seq ack : BitVec 12), s.portState p = 3 → wbit (s.liveWord g 0x008) 0 = false → f.wf = true →
    hd = bytesNat (f.bytes.take 4) → seq = BitVec.ofNat 12 hd → ack = BitVec.ofNat 12 (bitsOf hd 12 12) →
    let naks (t : State) (bad : Prop) : Prop := (t.port p).rxSeq = v.rxSeq ∧ (t.port p).discarding = true ∧ (t.port p).part = v.part ∧
      t.routing = s.routing ∧ (v.discarding = true → ¬bad → t.out = s.out) ∧
      (v.discarding = false ∨ bad → ∃ b, t.out = s.out ++ [.flit p b] ∧ bare b 2 v.rxSeq)
    let key : Option LinkKey := v.rx.ahead (seq - (v.rxSeq + 1)).toInt
    let seals (k : LinkKey) : Prop :=
      gcmTagOf k.key.toNat k.iv (f.bytes.take 4) ((f.bytes.drop 4).take 232) = (f.bytes.drop 236).take 16
    (¬crcGood f.bytes → Leads (exec (.flitReceive p f) s) fun t => naks t True ∧ t.liveWord g 0x82C = (s.plus32 g 0x82C 1).2) ∧
    (crcGood f.bytes → bitsOf hd 24 2 = 0 → (key = none → Leads (exec (.flitReceive p f) s) (naks · False)) ∧
      ∀ k, key = some k →
      (¬seals k → Leads (exec (.flitReceive p f) s) fun t => naks t True ∧ s.records t g 2 ∧
        t.liveWord g 0x830 = (s.plus32 g 0x830 1).2) ∧
      (seals k → seq ≠ v.rxSeq + 1 → Leads (exec (.flitReceive p f) s) (naks · False)) ∧
      (seals k → seq = v.rxSeq + 1 → ∀ (ks : List Packet) (rest : List Byte),
        v.part ++ gcmCrypt k.key.toNat k.iv ((f.bytes.drop 4).take 232) = ks.flatMap packetBytes ++ rest →
        (∀ m, m ∈ ks → m.wf = true ∧ m.kind.toNat < 8 ∧ (m.kind ≠ 0 ∨ m.len ≠ 0)) →
        ((∀ b, b ∈ rest → b = 0) ∨ (∃ b, b ∈ rest ∧ b ≠ 0) ∧
          (rest.length < 16 ∨ rest.length < 16 + payloadLen (bytesNat (rest.take 16)))) →
        Leads (exec (.flitReceive p f) s) fun t => (t.port p).rxSeq = seq ∧ (t.port p).rx = v.rx.next ∧ (t.port p).discarding = false ∧
          (t.port p).part = (if rest.all (· == 0) then [] else rest) ∧
          t.routing = s.routing ++ ks.map (fun m => ⟨some p, portHall p.val, m⟩) ∧
          (nothingWaits → (t.port p).unacked = dropAcked ack v.unacked ∧ ∃ b, t.out = s.out ++ [.flit p b] ∧ bare b 1 seq))) ∧
    (crcGood f.bytes → bitsOf hd 24 2 ≠ 0 → seq ≠ v.rxSeq → Leads (exec (.flitReceive p f) s) (naks · False)) ∧
    (crcGood f.bytes → bitsOf hd 24 2 ≠ 0 → seq = v.rxSeq → nothingWaits → Leads (exec (.flitReceive p f) s) fun t =>
      (t.port p).unacked = dropAcked ack v.unacked ∧ (t.port p).rxSeq = v.rxSeq ∧ t.routing = s.routing ∧
      t.out = s.out ++ (if bitsOf hd 24 2 = 2 then again (dropAcked ack v.unacked) else []) ∧
      SMap.get (t.port p).used (bitsOf hd 26 2) 0 = SMap.get v.used (bitsOf hd 26 2) 0 - bitsOf hd 28 4)) ∧
  (wbit (s.liveWord g 0x008) 0 = false → Leads (exec (.flitReplay p) s) fun t => t.out = s.out ++ again v.unacked ∧ t.ports = s.ports ∧
    s.puts t [s.plus32 g 0x834 v.unacked.length]) ∧
  (wbit (s.liveWord g 0x008) 0 = true → Leads (exec (.flitReplay p) s) (· = s) ∧ ∀ f, Leads (exec (.flitReceive p f) s) (· = s)) ∧
  (∀ (l : Fin 8), s.portState p = 3 → lanes.getLsbD l.val = true →
    let left : BitVec 8 := lanes &&& ~~~BitVec.ofNat 8 (2 ^ l.val)
    (width left < s.minWidth p → Leads (exec (.laneFail p l) s) (failed · left)) ∧
    (s.minWidth p ≤ width left → Leads (exec (.laneFail p l) s) fun t => t.liveWord g 0x800 = pstat 3 (width left) left ∧
      s.records t g 1 ∧ t.liveWord g 0x838 = (s.plus32 g 0x838 1).2 ∧
      ∃ sent, t.out = s.out ++ again v.unacked ++ sent ∧ (nothingWaits → sent = [] ∧ t.port p = v))) ∧
  (∀ a : Agent, s.reach a g 0x008 = .all → s.portState p = 3 → Leads (exec (.registerWrite a (BitVec.ofNat 14 g) 0x008 1) s) fun t =>
    t = { s with live := t.live } ∧ s.puts t [((g, 0x008), 1)]) ∧
  (∀ l : BitVec 8, s.portState p = 3 →
    (wbit (s.liveWord g 0x008) 0 = false → Leads (exec (.yarlinkRetrain p l) s) (· = s)) ∧
    (wbit (s.liveWord g 0x008) 0 = true → width l < s.minWidth p → Leads (exec (.yarlinkRetrain p l) s) (failed · l)) ∧
    (wbit (s.liveWord g 0x008) 0 = true → s.minWidth p ≤ width l → Leads (exec (.yarlinkRetrain p l) s) fun t =>
      t.liveWord g 0x800 = pstat 3 (width l) l ∧ t.liveWord g 0x008 = 0 ∧
      ∃ sent, t.out = s.out ++ again v.unacked ++ sent ∧ (nothingWaits → sent = [] ∧ t.port p = v))) ∧
  (∀ txAt rxAt : Nat, s.portState p = 3 → nothingWaits →
    (v.tx.roll = none → v.rx.roll = none → Leads (exec (.keyRollover ⟨p, txAt, rxAt⟩) s) fun t => ∃ kt kr,
      t.port p = { v with
        tx := if txAt ≤ v.tx.count then ⟨kt, v.tx.epoch + 1, 0, none⟩ else { v.tx with roll := some (txAt, kt) }
        rx := if rxAt ≤ v.rx.count then ⟨kr, v.rx.epoch + 1, 0, none⟩ else { v.rx with roll := some (rxAt, kr) } } ∧
      s.puts t [((g, 0x808), (t.port p).tx.epoch)] ∧ t.out = s.out) ∧
    (v.tx.roll ≠ none ∨ v.rx.roll ≠ none → Leads (exec (.keyRollover ⟨p, txAt, rxAt⟩) s) (· = s)))

/-- A packet is delivered here, goes to the port that the route tables name, or is dropped; requests of other modules are performed and
answered; an answer ends its request, and an error or a timeout stops the descriptor that made it (R376 to R381, R449). -/
def Obligations.PacketsAndRequests : Prop := ∀ (s : State), s.running = true →
  let answer (k : Packet) (err : Bool) (d : List Byte) : Packet :=
    { kind := if k.kind = 1 then 3 else 4, err := err, len := d.length, src := k.dst, dst := k.src, target := k.target, tag := k.tag
      data := d }
  (∀ (inp : Option PortId) (h : HallId) (k : Packet) (pre post : List RoutePkt), s.routing = pre ++ ⟨inp, h, k⟩ :: post →
    (∀ r, r ∈ pre → r.inp ≠ inp) →
    let rest := pre ++ post
    let home : Option PortId := match inp with
      | some p => some p
      | none => (List.finRange 12).find? fun p => s.samePart h (portHall p.val) && s.portEn p
    let dropped (tp : Option PortId) (t : State) : Prop := t.ports = s.ports ∧
      (∀ p, tp = some p → s.records t (portPage p) 3 ∧ t.liveWord (portPage p) 0x83C = (s.plus32 (portPage p) 0x83C 1).2) ∧
      t.routing = rest ++ if k.kind.toNat ≤ 2 then [⟨none, h, { answer k true [] with src := s.myId }⟩] else []
    let chan : Prop := k.kind = 5 ∨ k.kind = 6 ∨ k.kind = 7
    let core (o : Nat) : Nat := bitsOf k.target.toNat o 11
    (∀ p, k.dst = s.myId → inp = some p → s.refuses h k = false → Leads (exec (.packetRoute inp) s) fun t =>
      (¬chan → t = { s with routing := rest, out := s.out ++ [.packet inp k] }) ∧
      (chan → t = { s with routing := rest, out := s.out ++ [.packet inp k]
                           mesh := s.mesh ++ [⟨.port p, Fin.ofNat 1152 (core 0), packetBody k⟩] })) ∧
    (k.dst = s.myId → inp = none → Leads (exec (.packetRoute inp) s) fun t => t.routing = rest ∧ t.out = s.out ++ [.packet inp k] ∧
      (¬chan → t.mesh = s.mesh ∧ t.live = s.live) ∧
      (chan → ∀ x : CoreId, x.val = core 16 % 1152 →
        (core 0 < 1152 ∧ s.samePart x.hall (CoreId.hall (Fin.ofNat 1152 (core 0))) = true →
          t.mesh = s.mesh ++ [⟨.core x, Fin.ofNat 1152 (core 0), packetBody k⟩] ∧ t.live = s.live) ∧
        (¬(core 0 < 1152 ∧ s.samePart x.hall (CoreId.hall (Fin.ofNat 1152 (core 0))) = true) → t.mesh = s.mesh ∧
          wbit (t.liveWord 0 0x010) 0 = true ∧ wbit (t.liveWord (hallPage x.hall 0) 0x010) 0 = true))) ∧
    (k.dst = s.myId → inp ≠ none → s.refuses h k = true → Leads (exec (.packetRoute inp) s) fun t => t.mem = s.mem ∧
      (∀ p, inp = some p → s.records t (portPage p) 4 ∧ t.liveWord (portPage p) 0x840 = (s.plus32 (portPage p) 0x840 1).2) ∧
      (k.kind.toNat ≤ 2 → t.routing = rest ++ [⟨none, h, { answer k true [] with src := s.myId }⟩]) ∧
      (k.kind = 5 ∨ k.kind = 6 → ∃ m : Packet, t.routing = rest ++ [⟨none, h, m⟩] ∧ m.kind = 7 ∧ m.err = true ∧ m.dst = k.src ∧
        bitsOf m.target.toNat 0 11 = bitsOf k.target.toNat 16 11 ∧ bitsOf m.target.toNat 16 11 = bitsOf k.target.toNat 0 11 ∧
        bitsOf m.target.toNat 27 5 = bitsOf k.target.toNat 27 5)) ∧
    (k.dst ≠ s.myId → home = none → Leads (exec (.packetRoute inp) s)
      (dropped ((List.finRange 12).find? fun p => s.samePart h (portHall p.val)))) ∧
    (∀ tp, k.dst ≠ s.myId → home = some tp →
      let grp : Nat := k.dst.toNat / 1024
      let mem : Nat := k.dst.toNat % 1024
      let e : Nat := s.groupEntry tp grp
      let ports : List PortId := (List.finRange 12).filter fun p => bitOf e p.val
      let m : Nat := s.memberEntry tp mem
      let way : Option PortId := if grp ≠ s.myId.toNat / 1024 then (if bitOf e 15 then ports[mem % ports.length]? else none)
        else if bitOf m 7 ∧ m % 16 < 12 then some (Fin.ofNat 12 (m % 16)) else none
      (∀ p, way = some p → some p ≠ inp → s.portState p = 3 → Leads (exec (.packetRoute inp) s) fun t => t.routing = rest ∧
        let v := s.port p
        let cls := kindClass k.kind.toNat
        let key (i : Nat) : LinkKey := (List.range i).foldl (fun q _ => q.next) v.tx
        let plain (i : Nat) (f : TxFlit) : List Byte := gcmCrypt (key i).key.toNat (key i).iv ((f.bytes.drop 4).take 232)
        t.live64 (portRouter p) 0x808 = (s.live64 (portRouter p) 0x808 + 1) % 2 ^ 64 ∧
        (SMap.get v.used cls 0 + flitsOf k ≤ 96 → v.queue = [] → v.tail = [] → wbit (s.liveWord (portPage p) 0x008) 0 = false →
          v.unacked.length + flitsOf k ≤ 2048 → v.tx.count + flitsOf k ≤ 2 ^ 31 → (t.port p).queue = [] ∧ (t.port p).tail = [] ∧
          SMap.get (t.port p).used cls 0 = SMap.get v.used cls 0 + flitsOf k ∧
          ∃ fl : List TxFlit, (t.port p).unacked = v.unacked ++ fl ∧ fl.length = flitsOf k ∧
            t.out = s.out ++ fl.map (fun f => .flit p f.bytes) ∧
            (∀ i f, fl[i]? = some f → f.seq = v.txSeq + BitVec.ofNat 12 i ∧ f.bytes.length = 256 ∧
              bitsOf (bytesNat (f.bytes.take 4)) 0 12 = f.seq.toNat ∧ bitsOf (bytesNat (f.bytes.take 4)) 24 2 = 0 ∧
              gcmTagOf (key i).key.toNat (key i).iv (f.bytes.take 4) ((f.bytes.drop 4).take 232) = (f.bytes.drop 236).take 16 ∧
              (key i).iv = (key i).epoch.toNat * 2 ^ 64 + (key i).count % 2 ^ 64) ∧
            (fl.zipIdx.flatMap fun q => plain q.2 q.1).take (16 + k.data.length) = packetBytes k) ∧
        (2048 ≤ v.unacked.length ∨ wbit (s.liveWord (portPage p) 0x008) 0 = true ∨
            (96 ≤ SMap.get v.used cls 0 ∧ v.queue = [] ∧ v.tail = []) →
          t.port p = { v with queue := v.queue ++ [k] } ∧ t.out = s.out)) ∧
      ((∀ p, way = some p → some p = inp ∨ s.portState p ≠ 3) → Leads (exec (.packetRoute inp) s) (dropped (some tp))))) ∧
  (∀ (inp : Option PortId) (k : Packet) (c : Instr) (h : HallId) (b : Nat), k.wf = true → h = State.targetHall inp k →
    b = k.target.toNat → (c = .remoteWrite inp k ∧ k.kind = 0 ∨ c = .snapshotCopy inp k ∧ k.kind = 2) →
    let w : Agent := s.packetAgent inp k
    let turned : Prop := inp ≠ none ∧ s.refuses h k = true
    (inp ≠ none → w = .keeper) ∧
    (¬turned → (∀ j, j < k.data.length → s.takesWrite w (b + j) 1) →
      (s.rangeHeld b k.data.length = false → Leads (exec c s) fun t => s.stores t b k.data ∧
        t.routing = s.routing ++ [⟨none, h, answer k false []⟩] ∧ t.pendAcks = s.pendAcks)) ∧
    (¬turned → k.data ≠ [] → s.writeStalls w b k.data.length = false → b % 64 + k.data.length ≤ 64 →
      s.protectedAt b = true → s.reaches w b = true → isControl b = false → Leads (exec c s) fun t => t.mem = s.mem ∧ t.near = s.near ∧
        t.routing = s.routing ∧ t.pendAcks = s.pendAcks ++ [⟨b, k.data.length, h, inp, k⟩]) ∧
    (turned → Leads (exec c s) fun t => t.mem = s.mem ∧ t.near = s.near ∧ t.cxl = s.cxl ∧
      (∀ p, inp = some p → s.records t (portPage p) 4 ∧ t.liveWord (portPage p) 0x840 = (s.plus32 (portPage p) 0x840 1).2) ∧
      t.routing = s.routing ++ [⟨none, h, { answer k true [] with src := s.myId }⟩])) ∧
  (∀ (inp : Option PortId) (k : Packet) (h : HallId) (b : Nat), k.kind = 1 → k.wf = true → h = State.targetHall inp k →
    b = k.target.toNat →
    (inp = none ∨ s.refuses h k = false → (∀ j, j < k.len → s.takesRead (s.packetAgent inp k) (b + j) 1) →
      Leads (exec (.remoteReadRequest inp k) s) fun t => t.mem = s.mem ∧ t.routing = s.routing ++ [⟨none, h, answer k false (s.bytesAt b k.len)⟩]) ∧
    (inp ≠ none → s.refuses h k = true → Leads (exec (.remoteReadRequest inp k) s) fun t => t.mem = s.mem ∧
      t.routing = s.routing ++ [⟨none, h, { answer k true [] with src := s.myId }⟩])) ∧
  (∀ (h : HallId) (d : Fin 4) (e : Fin 9) (who : Requester) (k : Packet) (tag : BitVec 12) (m : RemReq), e = hdmaEng d →
    who = .dma h d → s.request who tag.toNat = some m →
    let gone (t : State) : Prop := t.remote = s.remote.filter fun n => !(decide (n.who = who) && n.tag == tag.toNat)
    let stops (c : Instr) : Prop := s.recordStalls h e (s.engRun h e m.q).desc = false → Leads (exec c s) fun t => t.engState h e m.q = 2 ∧
      t.field (enginePage h e.val) (0x808 + 16 * m.q.val) 2 8 = 6 ∧ wbit (t.liveWord (enginePage h e.val) 0x010) 5 = true ∧
      (∃ late, (dCrec (s.engRun h e m.q).desc = 0 → late = s.engWrites h e m.q) ∧ t.engRun h e m.q =
        { s.engRun h e m.q with phase := .running, unit := m.row, byte := m.byte, result := m.row, pos := 0, sig := late }) ∧
      ∀ n, n ∈ t.remote → n ∈ s.remote ∧ ¬(n.who = who ∧ n.tag = tag.toNat)
    (k.tag = tag → k.err = false → m.write = true → Leads (exec (.writeAcknowledgement who k) s) fun t => gone t ∧
      t = { s with remote := t.remote }) ∧
    (k.tag = tag → k.err = false → m.write = false → m.host = true → Leads (exec (.readReply who k) s) fun t => gone t ∧
      t.out = s.out ++ [.hostWrite (h.val + 1) m.addr (k.data.take m.len)] ∧ t.mem = s.mem) ∧
    (k.tag = tag → k.err = false → m.write = false → m.host = false →
      (∀ j, j < (k.data.take m.len).length → s.takesWrite (.engine h e) (m.addr + j) 1) →
      Leads (exec (.readReply who k) s) fun t => gone t ∧ s.stores t m.addr (k.data.take m.len)) ∧
    (k.tag = tag → k.err = true → m.write = true → stops (.writeAcknowledgement who k)) ∧
    (k.tag = tag → k.err = true → m.write = false → stops (.readReply who k)) ∧
    stops (.remoteRequestTimeout who tag)) ∧
  (∀ (who : Requester) (k : Packet) (tag : BitVec 12), s.request who tag.toNat = none → k.tag = tag →
    Leads (exec (.readReply who k) s) (· = s) ∧ Leads (exec (.writeAcknowledgement who k) s) (· = s) ∧
    Leads (exec (.remoteRequestTimeout who tag) s) (· = s))

/-- PROG_KICK makes a progress mark; a hall without one for its limit is reported, and restored when it asks for that (R439 to R441). A
restore of a running hall first stops its partition; one of a stopped hall makes the context switch that the next start takes, reads
the header, refuses an image that does not fit, writes the pages back and sets the counters of the header (R450 to R452). -/
def Obligations.ProgressAndRestores : Prop :=
  (∀ (s : State) (h : HallId) (p : Nat), s.running = true → p = hallPage h 0x84 →
  (∀ (a : Agent) (v : Word) (marks : Prop), s.reach a p 0x8B4 = .all →
    marks = (a = .keeper ∨ ∃ x : Site, a = .core x ∧ x.core.hall = h ∧ (s.thread x).ring.toNat ≤ 1) →
    (v.getLsbD 0 = false → Leads (exec (.progKick a h v) s) (· = s)) ∧
    (v.getLsbD 0 = true → marks → Leads (exec (.progKick a h v) s) fun t => s.puts t [((p, 0x8B0), 0)] ∧
      t.hall h = { s.hall h with progFired := false } ∧ t.mem = s.mem ∧ t.cores = s.cores) ∧
    (v.getLsbD 0 = true → ¬marks → Leads (exec (.progKick a h v) s) fun t => s.turnsAway t a (p * 4096 + 0x8B4) true ∧
      t.liveWord p 0x8B0 = s.liveWord p 0x8B0)) ∧
  (let w := s.applWord p 0x190
   let due : Prop := fieldOf w 0 16 ≠ 0 ∧ fieldOf w 0 16 * 65536 ≤ (s.liveWord p 0x8B0).toNat ∧ (s.hall h).progFired = false
   (¬due → Leads (exec (.progressFire h) s) (· = s)) ∧
   (due → Leads (exec (.progressFire h) s) fun t => s.records t p 0 ∧ (t.hall h).progFired = true ∧
     t.liveWord p 0x8B8 = (s.plus32 p 0x8B8 1).2 ∧ wbit (t.liveWord p 0x8BC) 2 = true ∧ t.mem = s.mem ∧
     (wbit w 16 = true → (s.hall h).task = none → (t.hall h).task = some .restore ∧ ∀ g, s.samePart h g = true →
       t.hallState g = if s.hallState g = 1 ∨ s.hallState g = 2 then 3 else s.hallState g) ∧
     (wbit w 16 = false ∨ (s.hall h).task ≠ none → (t.hall h).task = (s.hall h).task ∧ ∀ g, t.hallState g = s.hallState g)))) ∧
  (∀ (s : State) (h : HallId) (p : Nat), s.running = true → p = hallPage h 1 →
  (∀ (a : Agent) (v : Word), s.reach a p 0x950 = .all →
    let core : Prop := ∃ x : Site, a = .core x ∧ s.samePart x.hall h = true ∧ (s.thread x).ring.toNat ≤ 1
    let host : Prop := a = .pf ∨ ∃ b, a = .vf h b
    let idle : Prop := (s.hall h).restoring = none ∧ (s.hall h).task = none
    let runs : Prop := s.hallState h = 1 ∨ s.hallState h = 2
    (v.getLsbD 0 = false → (core ∨ host ∨ a = .keeper) → Leads (exec (.restore a h v) s) (· = s)) ∧
    (v.getLsbD 0 = true → idle → runs → (core ∨ a = .keeper) → Leads (exec (.restore a h v) s) fun t =>
      (t.hall h).task = some .restore ∧ wbit (t.liveWord (hallPage h 0x84) 0x8BC) 5 = true ∧ t.mem = s.mem ∧
      ∀ g, s.samePart h g = true → t.hallState g = if s.hallState g = 1 ∨ s.hallState g = 2 then 3 else s.hallState g) ∧
    (v.getLsbD 0 = true → idle → s.hallState h = 0 → (host ∨ a = .keeper) → Leads (exec (.restore a h v) s) fun t =>
      (t.hall h).restoring = some ⟨fieldOf v 1 1, false, none, true, none⟩ ∧ t.liveWord p 0x954 = 1 ∧ t.mem = s.mem ∧ t.hallState h = 0 ∧
      wbit (t.liveWord (hallPage h 0) 0x00C) 3 = true ∧
      t.field (hallPage h 0) 0x00C 16 16 = (s.field (hallPage h 0) 0x00C 16 16 + 1) % 2 ^ 16) ∧
    (v.getLsbD 0 = true → ¬((core ∨ host ∨ a = .keeper) ∧ idle ∧ ((runs ∧ (core ∨ a = .keeper)) ∨
        (s.hallState h = 0 ∧ (host ∨ a = .keeper)))) →
      Leads (exec (.restore a h v) s) fun t => s.turnsAway t a (p * 4096 + 0x950) true ∧ (t.hall h).restoring = (s.hall h).restoring)) ∧
  (∀ (r : RestoreRun) (g : SlotCfg) (image : Nat → List Byte), (s.hall h).restoring = some r → r.ended = none → g = s.slotCfg h r.slot →
    let read (o n : Nat) : Option (List Byte) → Prop := fun remote =>
      (g.remote = false ∧ (∀ j, j < n → s.reaches (snapAgent h) (g.addr + o + j) = true ∧ s.poisoned (g.addr + o + j) = false ∧
        isControl (g.addr + o + j) = false) ∧ image o = s.bytesAt (g.addr + o) n) ∨
      (g.remote = true ∧ ∃ l, remote = some l ∧ o + n ≤ l.length ∧ image o = (l.drop o).take n)
    let hd : List Byte := image 0
    let pages : List ImgPage := imagePages (hdrRanges hd 0x40) (hdrRanges hd 0x80)
    let near : Nat := ((hdrRanges hd 0x40).map (·.2)).sum
    let gal : Nat := ((hdrRanges hd 0x80).map (·.2)).sum
    let kcv : Nat := hdr hd 0x30 8
    let why : Nat := if hdr hd 0 4 ≠ 0x4E524143 ∨ hdr hd 4 1 ≠ 1 ∨ hdr hd 8 4 ≠ 1 then 1 else if kcv ≠ s.live64 p 0x948 then 2
      else if (r.keeper = true ∨ kcv = 0) ∧ hdr hd 6 2 ≠ s.field 8 (0x800 + 4 * h.val) 16 16 then 3
      else if hdr hd 0x28 4 ≠ near ∨ hdr hd 0x2C 4 ≠ gal ∨ (∃ w ∈ hdrRanges hd 0x40, 1179648 < w.1 + w.2) ∨
        (∃ w ∈ hdrRanges hd 0x80, 49152 < w.1 + w.2) then 4 else 0
    let ended (t : State) (ok : Bool) : Prop :=
      (t.hall h).restoring = if r.keeper then some { r with ended := some ok } else none
    let part (k : HallId) : Prop := s.samePart h k = true
    let last (k : HallId) : Prop := s.field (hallPage k 1) 0x904 4 1 = 1
    (∀ remote, r.begun = false → read 0 0x8000 remote → (∀ k, part k → k ≠ h → ∃ q, (s.hall k).restoring = some q ∧ q.step ≠ none) →
      let agree (k : HallId) : Prop := ∃ q, (s.hall k).restoring = some q ∧ q.step = some (hdr hd 0x10 8)
      ((∀ k, part k → last k) → (∀ k, part k → k ≠ h → agree k) → Leads (exec (.restoreComplete h remote) s) fun t =>
        ∀ k q, part k → k ≠ h → (s.hall k).restoring = some q → (t.hall k).restoring = some ⟨q.slot, true, none, true, none⟩ ∧
          t.liveWord (hallPage k 1) 0x954 = 1 ∧ wbit (t.liveWord (hallPage k 0) 0x00C) 3 = true) ∧
      ((∃ k, part k ∧ ¬last k) ∨ (∃ k, part k ∧ k ≠ h ∧ ¬agree k) → Leads (exec (.restoreComplete h remote) s) fun t =>
        (∀ k, part k → (t.hall k).restoring = none) ∧ t.mem = s.mem ∧ ∀ k, t.hallState k = s.hallState k)) ∧
    (∀ remote, r.begun = true → read 0 0x8000 remote → why ≠ 0 → Leads (exec (.restoreComplete h remote) s) fun t => ended t false ∧
      t.liveWord p 0x954 = BitVec.ofNat 32 (3 + why * 16) ∧ wbit (t.liveWord p 0x010) 5 = true ∧ t.mem = s.mem ∧ t.near = s.near) ∧
    (∀ remote, r.begun = true → read 0 0x8000 remote → why = 0 → (∀ q, q ∈ pages → read q.off q.len remote ∧ ∀ j, j < q.len →
        s.takesWrite (snapAgent h) (q.addr h + j) 1) → (pages.map fun q => q.addr h).Nodup →
      (g.remote = true ∨ ∀ q, q ∈ pages → q.addr h + q.len ≤ g.addr ∨ g.addr + 0x8000 + near * 0x10000 + gal * 0x1000 ≤ q.addr h) →
      Leads (exec (.restoreComplete h remote) s) fun t => ended t true ∧ t.liveWord p 0x954 = 2 ∧
        (∀ q, q ∈ pages → t.bytesAt (q.addr h) q.len =
          cairnUnits (s.hall h).cairnKey false (hdr hd 0xC 4) q.off (q.len / 4096) (image q.off)) ∧
        (∀ b, (∀ q, q ∈ pages → ¬(q.addr h ≤ b ∧ b < q.addr h + q.len)) → t.byteAt b = s.byteAt b) ∧
        t.liveWord (hallPage h 0) 0x880 = BitVec.ofNat 32 (hdr hd 0x18 4) ∧ t.liveWord (hallPage h 0) 0x884 = BitVec.ofNat 32 (hdr hd 0x1C 4) ∧
        t.live64 p 0x958 = hdr hd 0x10 8 ∧ wbit (t.liveWord (hallPage h 0x84) 0x8BC) 0 = true ∧
        ∀ (i : Fin 144) (u : Fin 32), t.liveWord (corePage (coreAt h i) 0) 0x880 = BitVec.ofNat 32 (hdr hd (0x400 + 8 * i.val) 4) ∧
          t.liveWord (corePage (coreAt h i) 0) 0x884 = BitVec.ofNat 32 (hdr hd (0x404 + 8 * i.val) 4) ∧
          ((t.core (coreAt h i)).sumpOf u.val).round = BitVec.ofNat 32 (hdr hd (0x1000 + 128 * i.val + 4 * u.val) 4))))

/-- A cairn writes its header, then its pages in turn, each ciphered under the cairn key, and marks the header complete; while it runs
writes to pages not yet copied are held; it fails when the slot, the source or the hall does (R356, R442 to R448). -/
def Obligations.Cairns : Prop := ∀ (s : State) (h : HallId) (p : Nat), s.running = true → p = hallPage h 1 →
  let pages : List ImgPage := imagePages (s.nearRanges h) (s.galRanges h)
  let key : List Byte := (s.hall h).cairnKey
  let stat (t : State) (lo w : Nat) : Nat := t.field p 0x904 lo w
  let writable (b n : Nat) : Prop := 0x100000000000 ≤ b ∧ b + n ≤ 0x200000000000 ∧ ∀ j, j < n → s.takesWrite (snapAgent h) (b + j) 1
  let failed (t : State) (why : Nat) : Prop := (t.hall h).cairn = none ∧ (t.hall h).nearProt = [] ∧ (t.hall h).galProt = [] ∧
    t.liveWord p 0x910 = 0 ∧ stat t 0 2 = 3 ∧ stat t 8 4 = why ∧ wbit (t.liveWord p 0x010) 4 = true ∧
    wbit (t.liveWord (hallPage h 0x84) 0x8BC) 3 = true ∧ (t.hall h).nearHeld = [] ∧ (t.hall h).galHeld = []
  (∀ (a : Agent) (v : Word) (slot : Nat) (g : SlotCfg), s.reach a p 0x900 = .all → slot = fieldOf v 1 1 → g = s.slotCfg h slot →
    let free : Prop := s.snapWriter a h = true ∧ (s.hall h).cairn = none ∧ (s.hall h).restoring = none ∧ s.hallState h ≠ 0 ∧ g.size ≠ 0
    (s.snapWriter a h = true → v.getLsbD 0 = false → Leads (exec (.cgo a h v) s) (· = s)) ∧
    (v.getLsbD 0 = true → ¬free → Leads (exec (.cgo a h v) s) fun t => s.turnsAway t a (p * 4096 + 0x900) true ∧
      (t.hall h).cairn = (s.hall h).cairn) ∧
    (v.getLsbD 0 = true → free → s.hallMode h ≠ 0 → key = [] → Leads (exec (.cgo a h v) s) fun t => stat t 0 2 = 3 ∧ stat t 8 4 = 4 ∧
      (t.hall h).cairn = none ∧ wbit (t.liveWord p 0x010) 4 = true ∧ t.mem = s.mem) ∧
    (v.getLsbD 0 = true → free → (s.hallMode h = 0 ∨ key ≠ []) → g.remote = false → writable g.addr 0x8000 →
      Leads (exec (.cgo a h v) s) fun t => (t.hall h).cairn.map (·.slot) = some slot ∧ stat t 0 2 = 1 ∧ stat t 2 1 = slot ∧ stat t 8 4 = 0 ∧
        t.liveWord p 0x914 = s.liveWord p 0x914 + 1 ∧ t.liveWord p 0x910 = BitVec.ofNat 32 pages.length ∧
        (stat s 3 1 = slot → stat t 4 1 = 0) ∧ (∀ q, q ∈ pages → t.pageProt h q = true) ∧
        (∃ d : List Byte, d.length = 0x8000 ∧ s.stores t g.addr d ∧ d.take 0x30 = natBytes 4 0x4E524143 ++ [1, BitVec.ofNat 8 h.val] ++
          natBytes 2 (s.field 8 (0x800 + 4 * h.val) 16 16) ++ natBytes 4 0 ++ natBytes 4 (s.liveWord p 0x914 + 1).toNat ++
          natBytes 4 (s.liveWord p 0x908).toNat ++ natBytes 4 (s.liveWord p 0x90C).toNat ++
          natBytes 4 (s.liveWord (hallPage h 0) 0x880).toNat ++ natBytes 4 (s.liveWord (hallPage h 0) 0x884).toNat ++
          natBytes 4 (s.liveWord (hallPage h 8) 0x8F0).toNat ++ natBytes 4 (s.liveWord (hallPage h 0xD) 0x8F0).toNat ++
          natBytes 4 (s.nearPages h) ++ natBytes 4 (s.galPages h)))) ∧
  (∀ (r : CairnRun) (q : ImgPage) (g : SlotCfg), (s.hall h).cairn = some r → s.nextPage h = some q → g = s.slotCfg h r.slot →
    g.remote = false → writable (g.addr + q.off) q.len →
    (∀ j, j < q.len → s.reaches (snapAgent h) (q.addr h + j) = true ∧ s.poisoned (q.addr h + j) = false) →
    let copy : List Byte := cairnUnits key true (s.liveWord p 0x914).toNat q.off (q.len / 4096) (s.bytesAt (q.addr h) q.len)
    Leads (exec (.cairnPageCopied h) s) fun t => t.pageProt h q = false ∧ (∀ w : ImgPage, w.addr h ≠ q.addr h →
        t.pageProt h w = s.pageProt h w) ∧ t.liveWord p 0x910 = s.liveWord p 0x910 - 1 ∧
      ((s.hall h).nearHeld = [] → (s.hall h).galHeld = [] → s.stores t (g.addr + q.off) copy) ∧
      (∀ w : HeldWrite, (s.hall h).nearHeld = [w] → (s.hall h).galHeld = [] → (∃ o, winOf w.addr = .near h o) → w.data ≠ [] →
        w.addr % 64 + w.data.length ≤ 64 → t.bytesAt (g.addr + q.off) q.len = copy ∧
        (s.pageHeld h q = true → (t.hall h).nearHeld = [] ∧ t.bytesAt w.addr w.data.length = w.data) ∧
        (s.pageHeld h q = false → s.protectedAt w.addr = true → (t.hall h).nearHeld = [w] ∧
          t.bytesAt w.addr w.data.length = s.bytesAt w.addr w.data.length))) ∧
  (∀ (r : CairnRun) (g : SlotCfg) (w : Word), (s.hall h).cairn = some r → s.pagesLeft h = [] → s.snapBusy h = false → g = s.slotCfg h r.slot →
    g.remote = false → r.head.length = 64 → writable g.addr 64 → w = s.applWord p 0x200 → fieldOf w 0 8 < 144 →
    Leads (exec (.cairnComplete h) s) fun t => (t.hall h).cairn = none ∧ stat t 0 2 = 2 ∧ stat t 3 1 = r.slot % 2 ∧ stat t 4 1 = 1 ∧
      s.stores t g.addr r.head ∧ ∀ x : Site, x.core.hall = h → x.core.index = fieldOf w 0 8 → x.thread.val = fieldOf w 8 2 →
        (t.thread x).ev = (if wbit w 10 then (s.thread x).ev ||| BitVec.ofNat 32 (2 ^ fieldOf w 11 5) else (s.thread x).ev) ∧
        (t.thread x).intpend = if wbit w 16 then (s.thread x).intpend ||| 0x40 else (s.thread x).intpend) ∧
  (∀ r : CairnRun, (s.hall h).cairn = some r → (∀ w, w ∈ (s.hall h).nearHeld ++ (s.hall h).galHeld →
      ∃ o, winOf w.addr = .near h o ∨ winOf w.addr = .gallery h o) →
    Leads (exec (.cairnFail h .slotWrite) s) (failed · 1) ∧
    (∀ q, s.nextPage h = some q → s.reaches (snapAgent h) (q.addr h) = true →
      s.reaches (snapAgent h) (q.addr h + q.len - 1) = true → s.poisoned (q.addr h) = true →
      Leads (exec (.cairnFail h .poison) s) (failed · 2)) ∧
    (s.hallState h = 0 ∨ s.hallState h = 3 → Leads (exec (.cairnFail h .stopped) s) (failed · 3))) ∧
  (∀ a : Agent, s.reach a p 0x940 = .all → s.snapWriter a h = true →
    let loaded : List Byte := (List.range 8).flatMap fun w => natBytes 4 (s.liveWord p (0x920 + 4 * w)).toNat
    let check : Nat := bytesNat ((beBytes 16 (sm4Enc (beNat (loaded.take 16)) 0)).take 8)
    let kcv (n v : Nat) : List ((Nat × Nat) × Word) :=
      [((p, 0x944), BitVec.ofNat 32 n), ((p, 0x948), BitVec.ofNat 32 v), ((p, 0x94C), BitVec.ofNat 32 (v / 2 ^ 32))]
    Leads (exec (.ckctlLoad a h) s) (fun t => s.puts t (kcv 1 check) ∧ t.hall h = { s.hall h with cairnKey := loaded } ∧ t.mem = s.mem) ∧
    Leads (exec (.ckctlClear a h) s) fun t => s.puts t (kcv 0 0) ∧ t.hall h = { s.hall h with cairnKey := [] } ∧ t.mem = s.mem)

/-- A core hard fault stops the partition and then seals the position; a self-test seals what fails and touches chambers only; a
position sealed in service can be readmitted; a bridge failure is a module failure (R20, R453 to R457). -/
def Obligations.FaultsAndRepair : Prop := ∀ (s : State) (h : HallId) (sp : Nat), sp = hallPage h 0x80 →
  let stops (t : State) : Prop := ∀ g, s.samePart h g = true → t.hallState g = if s.hallState g = 1 ∨ s.hallState g = 2 then 3 else s.hallState g
  let allStopped : Prop := ∀ g, s.samePart h g = true → s.hallState g = 0
  let map (u : State) (p : Position) : Word := u.liveWord (hallPage h 0) (0x800 + 4 * p.col.val)
  let posOf (p : Position) (w : Word) : Prop := fieldOf w 0 11 = h.val * 156 + p.row.val * 12 + p.col.val
  let host (a : Agent) : Prop := a = .keeper ∨ a = .pf ∨ ∃ b, a = .vf h b
  (∀ b, exec (.bridgeFailure b) s = .next (if s.pwrGood then { s with bridgeFail := true } else s)) ∧
  (∀ (p : Position) (cause : HardFault) (code : Nat), s.running = true → code = (match cause with | .coreReset => 1 | .internalCheck => 3) →
    let isSealed : Prop := wbit (map s p) (16 + p.row.val) = true
    let waits : Prop := (∃ n, (s.hall h).task = some (.repair p n)) ∨ ∃ n, (p, n) ∈ (s.hall h).faults
    (isSealed ∨ waits → Leads (exec (.coreHardFault h p cause) s) (· = s)) ∧
    (¬isSealed → ¬waits → (s.hall h).task = none → Leads (exec (.coreHardFault h p cause) s) fun t =>
      stops t ∧ (t.hall h).task = some (.repair p code) ∧ map t p = map s p ∧ t.mem = s.mem) ∧
    (¬isSealed → ¬waits → (s.hall h).task ≠ none → s.hallState h = 0 → Leads (exec (.coreHardFault h p cause) s) fun t =>
      s.sealsPosition t h p code ∧ t.mem = s.mem) ∧
    (¬isSealed → ¬waits → (s.hall h).task ≠ none → s.hallState h ≠ 0 → Leads (exec (.coreHardFault h p cause) s) fun t =>
      (t.hall h).faults = (s.hall h).faults ++ [(p, code)] ∧ map t p = map s p ∧ t.mem = s.mem) ∧
    (¬isSealed → allStopped → (s.hall h).task = some (.repair p code) → s.sealsPosition (s.keeperTask h) h p code ∧
      ((s.keeperTask h).isOut h = true → ((s.keeperTask h).hall h).task = none) ∧ (s.keeperTask h).mem = s.mem)) ∧
  (∀ (a : Agent) (v : Word), s.running = true → s.reach a sp 0x810 = .all →
    let may : Prop := host a ∨ ∃ x : Site, a = .core x ∧ x.core.hall = h ∧ (s.thread x).ring.toNat ≤ 1
    let idle : Prop := s.field sp 0x814 0 2 ≠ 1 ∧ (s.hall h).task = none ∧ s.hallState h ≠ 3
    (may → v.getLsbD 0 = false → Leads (exec (.suspect a h v) s) (· = s)) ∧
    (may → v.getLsbD 0 = true → idle → s.hallState h = 0 → Leads (exec (.suspect a h v) s) fun t =>
      s.puts t [((sp, 0x814), 1)] ∧ t.mem = s.mem ∧ t.cores = s.cores ∧ t.hall h = s.hall h) ∧
    (may → v.getLsbD 0 = true → idle → (s.hallState h = 1 ∨ s.hallState h = 2) → Leads (exec (.suspect a h v) s) fun t =>
      stops t ∧ t.liveWord sp 0x814 = 1 ∧ (t.hall h).task = some .selfTest ∧ t.mem = s.mem) ∧
    (¬may ∨ (v.getLsbD 0 = true ∧ ¬idle) → Leads (exec (.suspect a h v) s) fun t => s.turnsAway t a (sp * 4096 + 0x810) true ∧
      t.liveWord sp 0x814 = s.liveWord sp 0x814)) ∧
  (∀ failed : List Position, s.running = true →
    let due : Prop := s.field sp 0x814 0 2 = 1 ∧ allStopped
    (¬due → Leads (exec (.selfTestEnd h failed) s) (· = s)) ∧
    (due → Leads (exec (.selfTestEnd h failed) s) fun t =>
      t.field sp 0x814 0 2 = (if failed = [] then 2 else 3) ∧ t.field sp 0x814 2 8 = failed.length % 256 ∧
      wbit (t.liveWord (hallPage h 0x84) 0x8BC) 4 = true ∧ (failed ≠ [] → wbit (t.liveWord sp 0x010) 2 = true) ∧
      (∀ p, p ∈ failed → wbit (map t p) (16 + p.row.val) = true) ∧
      (∀ p, failed = [p] → wbit (map s p) (16 + p.row.val) = false → s.sealsPosition t h p 2) ∧
      (∀ b, (∀ i : Fin 144, b < chamberBase (coreAt h i) ∨ chamberBase (coreAt h i) + 0x100000 ≤ b) → t.byteAt b = s.byteAt b) ∧
      ((s.hall h).task = none → t.hallState h = 0 ∧ (t.hall h).restoring = (s.hall h).restoring))) ∧
  (∀ (a : Agent) (v : Word), s.running = true → s.reach a sp 0x818 = .all →
    let ok : Prop := ∃ p, posOf p v ∧ wbit (map s p) (16 + p.row.val) = true ∧
      wbit (Config.colmap h.val p.col.val) (16 + p.row.val) = false ∧ s.hallState h = 0 ∧ s.hallMode h = 0 ∧
      fieldOf (map s p) 4 2 = if p.row.val = 12 then 3 else 1
    (host a → v.getLsbD 31 = false → Leads (exec (.readmit a h v) s) (· = s)) ∧
    (host a → v.getLsbD 31 = true → s.field sp 0x81C 0 2 ≠ 1 → ok → Leads (exec (.readmit a h v) s) fun t =>
      s.puts t [((sp, 0x81C), 1), ((sp, 0x818), v)] ∧ t.mem = s.mem ∧ t.cores = s.cores) ∧
    (host a → v.getLsbD 31 = true → s.field sp 0x81C 0 2 ≠ 1 → ¬ok → Leads (exec (.readmit a h v) s) fun t =>
      s.puts t [((sp, 0x81C), 3)] ∧ t.mem = s.mem ∧ t.cores = s.cores) ∧
    (¬host a ∨ (v.getLsbD 31 = true ∧ s.field sp 0x81C 0 2 = 1) → Leads (exec (.readmit a h v) s) fun t =>
      s.turnsAway t a (sp * 4096 + 0x818) true ∧ t.liveWord sp 0x81C = s.liveWord sp 0x81C)) ∧
  ∀ (p : Position) (pass : Bool), s.running = true →
    (s.field sp 0x81C 0 2 ≠ 1 → Leads (exec (.readmitComplete h pass) s) (· = s)) ∧
    (s.field sp 0x81C 0 2 = 1 → posOf p (s.liveWord sp 0x818) → pass = false → Leads (exec (.readmitComplete h pass) s) fun t =>
      s.puts t [((sp, 0x81C), 3)] ∧ t.mem = s.mem ∧ t.cores = s.cores) ∧
    (s.field sp 0x81C 0 2 = 1 → pass = true → s.hallState h ≠ 0 → Leads (exec (.readmitComplete h pass) s) fun t =>
      t.live = s.live ∧ t.mem = s.mem ∧ t.hall h = { s.hall h with readmitted := some true }) ∧
    (s.field sp 0x81C 0 2 = 1 → posOf p (s.liveWord sp 0x818) → pass = true → s.hallState h = 0 →
      Leads (exec (.readmitComplete h pass) s) fun t => t.liveWord sp 0x81C = 2 ∧ fieldOf (map t p) 0 4 = 15 ∧ fieldOf (map t p) 4 2 = 0 ∧
      ∀ r : Nat, r < 13 → wbit (map t p) (16 + r) = if r = p.row.val then false else wbit (map s p) (16 + r))

/-- Indices of the rings of a function are written below ENTRIES; a submission that nothing outstanding announces sends a doorbell
message; a post writes a record of 32 bytes to the host and may raise entry 0; RAISE raises entry 2 or 3 (R392 to R400). -/
def Obligations.HostRings : Prop := ∀ (s : State) (a : Agent) (h : HallId) (p : Nat) (v : Word), s.running = true → p = 0x20 + h.val →
  let n (o : Nat) : Nat := fieldOf (s.applWord p o) 0 13
  let i : Nat := fieldOf v 0 13
  let free : Prop := s.reach a p 0x800 = .all
  let flr : Bool := wbit (s.liveWord p 0x820) 1
  let out3 (t : State) : Prop := wbit (t.liveWord p 0x820) 3 = true
  let c : CoreId := Fin.ofNat 1152 (fieldOf (s.applWord p 0x10C) 0 11)
  let r : Nat := fieldOf (s.applWord p 0x10C) 11 5
  let g : Ring := (s.core c).ringOf r
  let bell (t : State) (tail head : Nat) : Prop :=
    (s.coreSealed c = true → out3 t ∧ t.mem = s.mem ∧ wbit (t.liveWord (hallPage h 0x80) 0x010) 3 = true) ∧
    (s.coreSealed c = false → s.ringTakes c r = true → out3 t ∧ t.live64 p 0x830 = (s.live64 p 0x830 + 1) % 2 ^ 64 ∧
      (t.core c).ringOf r = { g with
        wr := (g.wr + 1) % 512, entry := SMap.put g.entry (g.wr % s.ringEntries c r) ⟨64, decide (s.ringEsize c r < 64), none⟩ } ∧
      ∀ b, t.byteAt b = (s.memWrite (.core ⟨c, 0⟩) (chamberBase c + s.ringBase c r + g.wr % s.ringEntries c r * s.ringEsize c r)
        ((natBytes 2 tail ++ natBytes 2 head ++ List.replicate 60 0).take (s.ringEsize c r))).byteAt b) ∧
    (s.coreSealed c = false → s.ringTakes c r = false → ¬out3 t ∧ t.mem = s.mem ∧ wbit (t.liveWord p 0x010) 1 = true ∧
      t.liveWord (corePage c 1) 0x8C0 = (s.plus32 (corePage c 1) 0x8C0 1).2)
  let sent (t : State) (e : Nat) (pre : List Out) : Prop :=
    (wbit (s.liveWord p (0xE0C + 16 * e)) 0 = true ∨ s.vfVisible h.val = false → t.out = s.out ++ pre ∧
      wbit (t.liveWord p 0xE40) e = true) ∧
    (wbit (s.liveWord p (0xE0C + 16 * e)) 0 = false → s.vfVisible h.val = true → t.out = s.out ++ pre ++ [.msix (h.val + 1) e
      ((s.liveWord p (0xE00 + 16 * e)).toNat + 2 ^ 32 * (s.liveWord p (0xE04 + 16 * e)).toNat) (s.liveWord p (0xE08 + 16 * e))])
  free →
  (flr = true → Leads (exec (.sqTailWrite a h v) s) (· = s) ∧ Leads (exec (.cqHeadWrite a h v) s) (· = s) ∧
    Leads (exec (.cqPost a h v) s) (· = s)) ∧
  (n 0x108 ≤ i → (flr = false → Leads (exec (.sqTailWrite a h v) s) fun t => s.turnsAway t a (p * 4096 + 0x800) true ∧
      t.liveWord p 0x800 = s.liveWord p 0x800) ∧
    Leads (exec (.sqHeadWrite a h v) s) fun t => s.turnsAway t a (p * 4096 + 0x804) true ∧ t.liveWord p 0x804 = s.liveWord p 0x804) ∧
  (flr = false → n 0x118 ≤ i → Leads (exec (.cqHeadWrite a h v) s) fun t => s.turnsAway t a (p * 4096 + 0x808) true ∧
    t.liveWord p 0x808 = s.liveWord p 0x808) ∧
  (flr = false → i < n 0x118 → Leads (exec (.cqHeadWrite a h v) s) fun t => t = { s with live := t.live } ∧
    s.puts t [((p, 0x808), BitVec.ofNat 32 i)]) ∧
  (flr = false → i < n 0x108 → Leads (exec (.sqTailWrite a h v) s) fun t => t.liveWord p 0x800 = BitVec.ofNat 32 i ∧
    (i = (s.liveWord p 0x804).toNat ∨ wbit (s.liveWord p 0x820) 3 = true → t.mem = s.mem ∧ t.cores = s.cores ∧
      t.liveWord p 0x820 = s.liveWord p 0x820) ∧
    (i ≠ (s.liveWord p 0x804).toNat → wbit (s.liveWord p 0x820) 3 = false → bell t i (s.liveWord p 0x804).toNat)) ∧
  (i < n 0x108 → Leads (exec (.sqHeadWrite a h v) s) fun t => t.liveWord p 0x804 = BitVec.ofNat 32 i ∧
    ((s.liveWord p 0x800).toNat = i → ¬out3 t ∧ t.mem = s.mem ∧ t.cores = s.cores) ∧
    ((s.liveWord p 0x800).toNat ≠ i → bell t (s.liveWord p 0x800).toNat i)) ∧
  (fieldOf v 0 2 < 2 → Leads (exec (.raise a h v) s) fun t => sent t (2 + fieldOf v 0 2) [] ∧ t.mem = s.mem ∧ t.cores = s.cores) ∧
  (2 ≤ fieldOf v 0 2 → Leads (exec (.raise a h v) s) fun t => s.turnsAway t a (p * 4096 + 0x814) true ∧ t.mem = s.mem) ∧
  (let x : Agent := .vf h false
   let body : Nat := galleryBase h + fieldOf v 4 24 * 16
   let tail : Nat := s.field p 0x80C 0 13
   let next : Nat := (tail + 1) % n 0x118
   let phase : Nat := s.field p 0x80C 16 1
   let base : Nat := (s.applWord p 0x110).toNat / 32 * 32 + (s.applWord p 0x114).toNat * 2 ^ 32
   let can : Prop := flr = false ∧ n 0x118 ≠ 0 ∧ s.postsOf h = []
   let kept (t : State) : Prop := t.liveWord p 0x80C = s.liveWord p 0x80C ∧ t.mem = s.mem
   (flr = false → n 0x118 = 0 → Leads (exec (.cqPost a h v) s) fun t => s.turnsAway t a (p * 4096 + 0x810) true ∧ kept t) ∧
   (can → s.readStalls x body 16 = true → Leads (exec (.cqPost a h v) s) fun t =>
      t.postsOf h = [v] ∧ kept t ∧ t.out = s.out) ∧
   (can → s.takesRead x body 16 → next = (s.liveWord p 0x808).toNat →
      Leads (exec (.cqPost a h v) s) fun t => s.records t p 0 ∧ kept t ∧ t.postsOf h = []) ∧
   (can → s.readStalls x body 16 = false → s.poisoned body = true →
      next ≠ (s.liveWord p 0x808).toNat →
      Leads (exec (.cqPost a h v) s) fun t => wbit (t.liveWord p 0x010) 2 = true ∧ kept t ∧ t.postsOf h = [] ∧
        wbit (t.liveWord 0 0x010) 0 = true) ∧
   (can → s.takesRead x body 16 → next ≠ (s.liveWord p 0x808).toNat →
      Leads (exec (.cqPost a h v) s) fun t =>
        t.liveWord p 0x80C = BitVec.ofNat 32 (next + (if next = 0 then 1 - phase else phase) * 2 ^ 16) ∧ t.mem = s.mem ∧
        t.live64 p 0x828 = (s.live64 p 0x828 + 1) % 2 ^ 64 ∧ t.postsOf h = [] ∧
        (let wrote : List Out := [.hostWrite (h.val + 1) (base + tail * 32) (s.bytesAt body 16 ++
            natBytes 8 (s.live64 2 0x808) ++ natBytes 2 (s.liveWord p 0x804).toNat ++ natBytes 1 phase ++ List.replicate 5 0)]
         (v.getLsbD 0 = true → wbit (s.applWord p 0x118) 13 = true → sent t 0 wrote) ∧
         (v.getLsbD 0 = false ∨ wbit (s.applWord p 0x118) 13 = false → t.out = s.out ++ wrote))))

/-- Requests of the host through BAR2 reach memory unless a reset runs or BAR2 is closed; those through BAR0 are accesses of the pages
that the window shows, of 4 or 8 bytes; configuration requests are answered, or deferred while a function resets (R386 to R391, R401
to R403, R422; what configuration space holds: assumption log 26). -/
def Obligations.HostAccesses : Prop := ∀ s : State, s.running = true →
  let came (r : HostReq) (l : List ((Nat × Nat) × Word)) (t : State) : Prop :=
    s.puts t (l ++ s.plus64 0x20 0xC08 1 ++ s.plus64 0x20 0xC18 r.replays) ∧ t.out = s.out ∧ s.mem = t.mem
  let held : Prop := ∃ h w, w ∈ (s.hall h).nearHeld ∧ w.agent = .pf
  let answers (b : List Byte) (st : HostStatus) (t : State) : Prop := t.out = s.out ++ [.hostReply b st]
  let closed : Prop := ∃ h, s.hallMode h ≠ 0
  (s.field 0x20 0xC00 0 2 ≠ 2 → (∀ r, Leads (exec (.bar2Access r) s) (· = s)) ∧
    (∀ w r, Leads (exec (.hostBar0Access w r) s) (· = s)) ∧ ∀ f r, Leads (exec (.configurationRequest f r) s) (· = s)) ∧
  (s.field 0x20 0xC00 0 2 = 2 →
    (∀ r : HostReq,
      (s.pf0Flr = true → Leads (exec (.bar2Access r) s) (came r [])) ∧
      (s.pf0Flr = false → closed → ∀ d, r.write = some d → Leads (exec (.bar2Access r) s) (came r [s.plus32 0x20 0xC20 1])) ∧
      (s.pf0Flr = false → closed → r.write = none → Leads (exec (.bar2Access r) s) fun t => answers [] .unsupported t ∧ t.mem = s.mem ∧
        t.liveWord 0x20 0xC20 = (s.plus32 0x20 0xC20 1).2) ∧
      (s.pf0Flr = false → ¬closed → s.bar2Wait ≠ [] ∨ held ∨ s.bar2Waits r = true →
        (∀ q l, s.bar2Wait = q :: l → s.bar2Waits q = true) →
        Leads (exec (.bar2Access r) s) fun t => came r [] t ∧ t.bar2Wait = s.bar2Wait ++ [r] ∧ t.near = s.near ∧ t.cxl = s.cxl) ∧
      (s.pf0Flr = false → ¬closed → s.bar2Wait = [] → ¬held →
        (∀ d, r.write = some d → (∀ j, j < d.length → s.takesWrite .pf (r.off + j) 1) → Leads (exec (.bar2Access r) s) fun t =>
          s.stores t r.off d ∧ t.out = s.out ∧ t.live64 0x20 0xC08 = (s.live64 0x20 0xC08 + 1) % 2 ^ 64) ∧
        (r.write = none → (∀ j, j < r.len → s.takesRead .pf (r.off + j) 1) → Leads (exec (.bar2Access r) s) fun t =>
          answers (s.bytesAt r.off r.len) .ok t ∧ t.mem = s.mem ∧ t.near = s.near ∧ t.cxl = s.cxl) ∧
        (r.write = none → isControl r.off = false → (∀ j, j < r.len → s.reaches .pf (r.off + j) = true) →
          s.readStalls .pf r.off r.len = false → 0 < r.len → s.poisoned r.off = true →
          Leads (exec (.bar2Access r) s) fun t => t.mem = s.mem ∧ t.near = s.near ∧ t.cxl = s.cxl ∧
            ∃ b, b.length = r.len ∧ t.out.getLast? = some (.hostReply b .poisoned)))) ∧
    (∀ (w : BarWin) (r : HostReq),
      let resets : Prop := (w = .pf ∧ s.pf0Flr = true) ∨ ∃ h b, w = .vf h b ∧ wbit (s.liveWord (0x20 + h.val) 0x820) 1 = true
      let hidden : Prop := ∃ h b, w = .vf h b ∧ ((s.vfEnable = false ∨ s.stageGen (0x20 + h.val) = 0) ∨
        (s.hallMode h ≠ 0 ∧ ¬(s.hallMode h = 2 ∧ b = true)))
      let busy : Prop := w = .pf ∧ s.field 0xB 0x808 0 3 = 5 ∧
        (r.off < 0x1000 ∨ (0x2000 ≤ r.off ∧ r.off < 0x20000) ∨ (0x28000 ≤ r.off ∧ r.off < 0x100000))
      let shape (m : Nat) : Prop := (m = 4 ∧ r.off % 4 = 0) ∨ (m = 8 ∧ r.off % 8 = 0)
      let at_ : State := (s.countReplays r.replays).rxTlp
      (resets → Leads (exec (.hostBar0Access w r) s) (came r [])) ∧
      (¬resets → hidden → (∀ d, r.write = some d → Leads (exec (.hostBar0Access w r) s) (came r [])) ∧
        (r.write = none → Leads (exec (.hostBar0Access w r) s) fun t => answers [] .unsupported t ∧ t.mem = s.mem)) ∧
      (¬resets → ¬hidden → busy → (∀ d, r.write = some d → Leads (exec (.hostBar0Access w r) s) (came r [s.plus32 0xB 0x810 1])) ∧
        (r.write = none → Leads (exec (.hostBar0Access w r) s) fun t => answers (List.replicate r.len 0xFF) .ok t ∧ t.mem = s.mem)) ∧
      (¬resets → ¬hidden → ¬busy → (∀ d, r.write = some d → ¬shape d.length → Leads (exec (.hostBar0Access w r) s) fun t =>
          wbit (t.liveWord 0 0x010) 0 = true ∧ t.mem = s.mem ∧ t.staged = s.staged) ∧
        (r.write = none → ¬shape r.len → Leads (exec (.hostBar0Access w r) s) fun t =>
          (∃ pre, t.out = s.out ++ pre ++ [.hostReply (List.replicate r.len 0) .ok]) ∧ wbit (t.liveWord 0 0x010) 0 = true ∧ t.mem = s.mem) ∧
        (∀ d o, r.write = some d → d.length = 4 → r.off % 4 = 0 → barOffset w r.off = some o →
          Leads (exec (.hostBar0Access w r) s) (· = at_.ctlWriteWord (barAgent w) o (BitVec.ofNat 32 (bytesNat d)))) ∧
        (∀ d o o', r.write = some d → d.length = 8 → r.off % 8 = 0 → barOffset w r.off = some o → barOffset w (r.off + 4) = some o' →
          Leads (exec (.hostBar0Access w r) s) (· = (at_.ctlWriteWord (barAgent w) o (BitVec.ofNat 32 (bytesNat (d.take 4)))).ctlWriteWord
            (barAgent w) o' (BitVec.ofNat 32 (bytesNat (d.drop 4))))) ∧
        (∀ o, r.write = none → r.len = 4 → r.off % 4 = 0 → barOffset w r.off = some o → Leads (exec (.hostBar0Access w r) s) fun t =>
          let q := at_.ctlReadWord (barAgent w) o
          t = q.st.emit (.hostReply (natBytes 4 q.val.toNat) .ok)) ∧
        (∀ o o', r.write = none → r.len = 8 → r.off % 8 = 0 → barOffset w r.off = some o → barOffset w (r.off + 4) = some o' →
          Leads (exec (.hostBar0Access w r) s) fun t =>
            let q := at_.ctlReadWord (barAgent w) o
            let q' := q.st.ctlReadWord (barAgent w) o'
            t = q'.st.emit (.hostReply (natBytes 4 q.val.toNat ++ natBytes 4 q'.val.toNat) .ok)) ∧
        (barOffset w r.off = none → (∀ d, r.write = some d → shape d.length → Leads (exec (.hostBar0Access w r) s) fun t =>
            wbit (t.liveWord 0 0x010) 0 = true ∧ t.mem = s.mem ∧ t.staged = s.staged) ∧
          (r.write = none → shape r.len → Leads (exec (.hostBar0Access w r) s) fun t =>
            (∃ pre, t.out = s.out ++ pre ++ [.hostReply (List.replicate r.len 0) .ok]) ∧ wbit (t.liveWord 0 0x010) 0 = true)))) ∧
    (∀ (f : Option HallId) (r : CfgReq),
      let off : Prop := ∃ h, f = some h ∧ (s.vfEnable = false ∨ s.stageGen (0x20 + h.val) = 0)
      let resets : Prop := (f = none ∧ s.pf0Flr = true) ∨ ∃ h, f = some h ∧ ((s.hall h).resetting = true ∨ (s.hall h).closing = true ∨
        ∃ q, (s.hall h).scrub = some q ∧ q.kind = .closing)
      (off → Leads (exec (.configurationRequest f r) s) (answers [] .unsupported)) ∧
      (¬off → resets → Leads (exec (.configurationRequest f r) s) (answers [] .retry)) ∧
      (¬off → ¬resets → (∀ on, r = .vfEnable on → Leads (exec (.configurationRequest f r) s) fun t => answers [] .ok t ∧
          t.vfEnable = if f = none then on else s.vfEnable) ∧
        (∀ o x, r = .write o x → Leads (exec (.configurationRequest f r) s) fun t => answers [] .ok t ∧ (f = none →
          (o = .bar 0 → t.cfgRead none (.bar 0) = some (x &&& 0xFC000000 ||| 4)) ∧
          (o = .bar 3 → t.cfgRead none (.bar 3) = some (x &&& 0xFFFFFF00)) ∧
          (o = .vfBar 0 → t.cfgRead none (.vfBar 0) = some (x &&& 0xFF800000 ||| 4)))) ∧
        (∀ o v, r = .read o → s.cfgRead f o = some v → Leads (exec (.configurationRequest f r) s) (answers (natBytes 4 v.toNat) .ok)) ∧
        (∀ o, r = .read o → Leads (exec (.configurationRequest f r) s) fun t => ∃ b, b.length = 4 ∧ answers b .ok t)))) ∧
  s.cfgRead none .totalVfs = some 8 ∧ s.cfgRead none .firstVfOffset = some 1 ∧ s.cfgRead none .vfStride = some 1 ∧
  (∀ (h : HallId) (b : Bool) (k x : Nat), x < 4096 →
    (k < 0x100 → barOffset (.vf h b) (k * 4096 + x) = some ((0x100 + h.val * 0x100 + k) * 4096 + x)) ∧
    (k < 576 → barOffset (.vf h b) (0x100000 + k * 4096 + x) = some ((0x1000 + h.val * 576 + k) * 4096 + x)) ∧
    barOffset (.vf h b) (0x340000 + x) = some (0x1000 + x) ∧ barOffset (.vf h b) (0x341000 + x) = some ((0x20 + h.val) * 4096 + x) ∧
    (0x342 ≤ k → barOffset (.vf h b) (k * 4096 + x) = none) ∧ barOffset .pf (k * 4096 + x) = some (k * 4096 + x))

/-- A function-level reset stops its hall and, when it has stopped, resets its cores and the function's indices; that of PF0 does so for
every function; a PCIe reset does the same and trains the link anew (R386, R401, R402, R480, R482). -/
def Obligations.HostResets : Prop := ∀ s : State, s.running = true →
  let begins (t : State) (h : HallId) : Prop := wbit (t.liveWord (0x20 + h.val) 0x820) 1 = true ∧ (t.hall h).resetting = true ∧
    wbit (t.liveWord (0x20 + h.val) 0x010) 3 = true ∧ (t.hallState h = 0 ∨ t.hallState h = 3) ∧
    (s.hallMode h = 1 ∨ s.hallMode h = 2 → (s.hall h).scrub = none → t.hallMode h = 3 ∧ (t.hall h).closing = true)
  let all (t : State) : Prop := (∀ h, begins t h) ∧ t.pf0Flr = true ∧ t.vfEnable = false ∧ t.mem = s.mem ∧
    ∀ o, o % 4 = 0 → (0xD00 ≤ o ∧ o < 0xE00 ∨ o = 0xCF0) → t.liveWord 0x20 o = if 0xD00 ≤ o ∧ o % 16 = 12 then 1 else 0
  let link (t : State) (st w r : Nat) : Prop := t.liveWord 0x20 0xC00 = BitVec.ofNat 32 (st + w * 4 + r * 128)
  (s.linkUp = false → Leads (exec .pf0Flr s) (· = s) ∧ ∀ h, Leads (exec (.vfFlr h) s) (· = s)) ∧
  (s.linkUp = true → ∀ h, Leads (exec (.vfFlr h) s) fun t => begins t h ∧ t.mem = s.mem ∧ t.pf0Flr = s.pf0Flr ∧
    ∀ g, g ≠ h → t.hall g = s.hall g ∧ t.hallState g = s.hallState g) ∧
  (∀ h : HallId, s.hallState h = 0 → (s.hall h).resetting = true →
    let t := s.hallReset h
    (t.hall h).resetting = false ∧ wbit (t.liveWord (0x20 + h.val) 0x820) 1 = false ∧ wbit (t.liveWord (0x20 + h.val) 0x820) 3 = false ∧
    t.mem = s.mem ∧ t.near = s.near ∧ t.postsOf h = [] ∧ t.liveWord (0x20 + h.val) 0x80C = 0x10000 ∧
    (∀ o, o = 0x800 ∨ o = 0x804 ∨ o = 0x808 → t.liveWord (0x20 + h.val) o = 0) ∧
    (∀ i : Fin 4, t.liveWord (0x20 + h.val) (0xE0C + 16 * i.val) = 1) ∧
    (∀ (c : CoreId) (n : Fin 4), c.hall = h → (t.thread ⟨c, n⟩).run = .parked ∧ (t.core c).mq.entries = [] ∧ (t.core c).tshape = []) ∧
    ∀ (n : Fin 9) (q : Fin 4), t.liveWord (enginePage h n) (0x800 + 16 * q.val) = 0 ∧ t.liveWord (enginePage h n) (0x804 + 16 * q.val) = 0) ∧
  (s.linkUp = true → Leads (exec .pf0Flr s) fun t => all t ∧ t.liveWord 0x20 0xC00 = s.liveWord 0x20 0xC00) ∧
  (∀ k, Leads (exec (.pcieReset k) s) fun t => t.streams = [] ∧ t.bar2Wait = s.bar2Wait.filter (fun r => r.write.isSome)) ∧
  Leads (exec (.pcieReset .perst) s) (fun t => all t ∧ t.perst = true ∧ link t 0 0 0) ∧
  (∀ k, k = .hotReset ∨ k = .linkDown → Leads (exec (.pcieReset k) s) fun t => all t ∧ t.perst = s.perst ∧
    link t (if s.perst then 0 else 1) 0 0) ∧
  (∀ u : LinkUp, (s.field 0x20 0xC00 0 2 = 1 → Leads (exec (.pcieLinkUp u) s) fun t => t = { s with live := t.live } ∧
      s.puts t [((0x20, 0xC00), BitVec.ofNat 32 (2 + (if u.x16 then 16 else 8) * 4 + u.rate.val * 128))]) ∧
    (s.field 0x20 0xC00 0 2 ≠ 1 → Leads (exec (.pcieLinkUp u) s) (· = s))) ∧
  (s.field 0x20 0xC00 0 2 = 1 → Leads (exec .pcieLinkNotBroughtUp s) fun t => s.records t 0x20 8 ∧ t.mem = s.mem ∧
    t.liveWord 0x20 0xC00 = s.liveWord 0x20 0xC00) ∧
  (s.field 0x20 0xC00 0 2 ≠ 1 → Leads (exec .pcieLinkNotBroughtUp s) (· = s)) ∧
  (s.perst = true → Leads (exec .perstNDeassert s) fun t => t = { s with live := t.live, perst := false } ∧
    s.puts t [((0x20, 0xC00), 1)]) ∧
  (s.perst = false → Leads (exec .perstNDeassert s) (· = s))

/-- A hall is locked, started and stopped through TDISP; an end of tenancy stops it and scrubs it; a scrub that ends clean zeroes the
hall's memory and registers, advances its epoch and lets the hall on, one that fails takes it out of service (R416, R419 to R421,
R426 to R434; a scrub asked for that a lock meets: assumption log 28). -/
def Obligations.Tenancies : Prop := ∀ (s : State) (h : HallId), s.running = true →
  let ans (m : SpdmMsg) (t : State) : Prop := t = { s with out := s.out ++ [.spdm m] }
  let served : Prop := s.field 0x20 0xC00 0 2 = 2 ∧ s.pf0Flr = false
  let handover : Prop := s.field 0xB 0x808 0 3 = 5
  let ok (g : HallId) : Prop := s.hallState g = 0 ∧ s.hallMode g = 0
  let kind (k : ScrubKind) : Prop := ∃ r, (s.hall h).scrub = some r ∧ r.kind = k
  let ends (t : State) (resp : Bool) : Prop := t.hallMode h = 3 ∧ t.hall h = { s.hall h with closing := true, stopResp := resp } ∧
    t.hallState h = (if s.hallState h = 1 ∨ s.hallState h = 2 then 3 else s.hallState h) ∧ t.out = s.out ∧ t.mem = s.mem
  let turns (t : State) (resp : Bool) : Prop := (∃ r, (s.hall h).scrub = some r ∧
    t.hall h = { s.hall h with scrub := some { r with kind := .closing }, stopResp := resp }) ∧ t.live = s.live ∧
    t.out = s.out ++ [.spdm .error]
  (∀ (n : Option Nat) (m : Nat) (k : Fin 8) (c : Instr), (c = .lockInterfaceRequest h n k ∨ c = .startInterfaceRequest h ∨
      c = .stopInterfaceRequest h ∨ c = .ideKm m (.key k) ∨ c = .ideKm m (.stop k)) →
    (¬served → Leads (exec c s) (· = s)) ∧ (served → handover → Leads (exec c s) (ans .busy))) ∧
  (served → ¬handover →
    (∀ (n : Option Nat) (k : Fin 8),
      let may : Prop := wbit (Config.bootstat.setWidth 32) 16 = true ∧ ok h ∧ s.isOut h = false ∧ s.stageGen (0x20 + h.val) ≠ 0 ∧
        (∃ m, n = some m ∧ m ∈ s.sessions) ∧ k.val ∈ s.streams
      let locked (t : State) : Prop := t.hallMode h = 3 ∧ (t.hall h).session = n ∧ (t.hall h).stream = some k.val ∧ t.mem = s.mem ∧
        t.out = s.out
      (s.activating = true → Leads (exec (.lockInterfaceRequest h n k) s) (ans .busy)) ∧
      (s.activating = false → ¬may → Leads (exec (.lockInterfaceRequest h n k) s) (ans .error)) ∧
      (s.activating = false → may → (s.hall h).scrub = none → Leads (exec (.lockInterfaceRequest h n k) s) fun t => locked t ∧
        (t.hall h).scrub = some ⟨.opening, 0, true⟩) ∧
      (s.activating = false → may → ∀ r, (s.hall h).scrub = some r → Leads (exec (.lockInterfaceRequest h n k) s) fun t => locked t ∧
        (t.hall h).scrub = some { r with kind := .opening })) ∧
    (s.hallMode h = 1 → Leads (exec (.startInterfaceRequest h) s) fun t => t = { s with live := t.live, out := t.out } ∧
      t.hallMode h = 2 ∧ t.out = s.out ++ [.spdm (.startResponse h)]) ∧
    (s.hallMode h ≠ 1 → Leads (exec (.startInterfaceRequest h) s) (ans .error)) ∧
    ((s.hallMode h = 1 ∨ s.hallMode h = 2) → (s.hall h).scrub = none → Leads (exec (.stopInterfaceRequest h) s) (ends · true)) ∧
    (kind .opening → Leads (exec (.stopInterfaceRequest h) s) (turns · true)) ∧
    (s.hallMode h ≠ 1 → s.hallMode h ≠ 2 → ¬kind .opening → Leads (exec (.stopInterfaceRequest h) s) (ans .error))) ∧
  ((s.hallMode h = 1 ∨ s.hallMode h = 2) → (s.hall h).scrub = none →
    Leads (exec (.endOfTenancy (.tdi h)) s) (ends · (s.hall h).stopResp)) ∧
  (kind .opening → Leads (exec (.endOfTenancy (.tdi h)) s) (turns · (s.hall h).stopResp)) ∧
  (s.hallMode h ≠ 1 → s.hallMode h ≠ 2 → ¬kind .opening → Leads (exec (.endOfTenancy (.tdi h)) s) (· = s)) ∧
  ((s.hall h).stream = none → Leads (exec (.endOfTenancy (.stream h)) s) (· = s)) ∧
  (∀ k, (s.hall h).stream = some k → Leads (exec (.endOfTenancy (.stream h)) s) fun t => (∀ n, n ∈ t.streams ↔ n ∈ s.streams ∧ n ≠ k) ∧
    t.mem = s.mem ∧ ∀ g : HallId, (s.hall g).scrub = none →
      ((s.hall g).stream = some k → s.hallMode g = 1 ∨ s.hallMode g = 2 → t.hallMode g = 3 ∧ (t.hall g).closing = true) ∧
      ((s.hall g).stream ≠ some k → t.hall g = s.hall g ∧ t.hallMode g = s.hallMode g)) ∧
  (∀ (a : Agent) (v : Word), s.reach a 8 0x830 = .all → Leads (exec (.scrubReq a v) s) fun t => t.mem = s.mem ∧ t.near = s.near ∧
    (∀ g : HallId, (t.hall g).scrub = if v.getLsbD g.val = true ∧ s.hallState g = 0 ∧ s.hallMode g = 0 ∧
      (s.hall g).scrub = none then some ⟨.request, 0, true⟩ else (s.hall g).scrub) ∧
    ((∃ g : HallId, v.getLsbD g.val = true ∧ ¬ok g) → s.turnsAway t a 0x8830 true)) ∧
  (∀ (bad : Bool) (c : Instr) (u : State), (c = .hallScrubEnd h bad ∧ u = s ∨ (c = .scrubTimeout h ∧ bad = true ∧
      ∀ r, (s.hall h).scrub = some r → u = s.passTo (r.start + 8400000000))) →
    let word (t : State) : Word := t.liveWord 0xA (0x800 + 32 * h.val)
    let epoch : Nat := s.field 8 (0x800 + 4 * h.val) 16 16
    ((s.hall h).scrub = none ∨ (∃ r, (s.hall h).scrub = some r ∧ r.waits = true) → Leads (exec c s) (· = s)) ∧
    (∀ r, (s.hall h).scrub = some r → r.waits = false →
      (bad = true ∨ r.start + 8400000000 < s.rootTick → Leads (exec c s) fun t => (t.hall h).scrub = none ∧ t.hallMode h = 3 ∧
        t.isOut h = true ∧ t.mem = u.mem ∧ t.near = u.near ∧ t.rootTick = u.rootTick ∧ word t = BitVec.ofNat 32 (epoch + 2 ^ 16 + 0x3F * 2 ^ 24) ∧
        (r.kind = .opening → ∃ l, t.out = u.out ++ [.spdm .error] ++ l)) ∧
      (bad = false → s.rootTick ≤ r.start + 8400000000 → Leads (exec c s) fun t => (t.hall h).scrub = none ∧ t.field 8 (0x800 + 4 * h.val) 16 16 = (epoch + 1) % 2 ^ 16 ∧
        word t = BitVec.ofNat 32 ((epoch + 1) % 2 ^ 16 + 0x3F * 2 ^ 24) ∧ (t.hall h).cairnKey = [] ∧
        (∀ i o, o < 0x100000 → t.byteAt (chamberBase (coreAt h i) + o) = 0) ∧ (∀ o, o < 0x10000000 → t.byteAt (galleryBase h + o) = 0) ∧
        (∀ o, o < 0x1200000000 → t.byteAt (nearBase h + o) = 0 ∧ t.poisoned (nearBase h + o) = false) ∧
        (∀ (g : HallId) (o : Nat), g ≠ h → o < 0x10000000 → t.byteAt (galleryBase g + o) = s.byteAt (galleryBase g + o)) ∧
        (∀ (g : HallId) (o : Nat), g ≠ h → o < 0x1200000000 → t.byteAt (nearBase g + o) = s.byteAt (nearBase g + o)) ∧
        (∀ (x : Site) (n : BitVec 5), x.core.hall = h → (t.thread x).reg n = 0 ∧ (t.core x.core).tile = [] ∧
          (t.core x.core).vreg = [] ∧ (t.core x.core).common = [] ∧ (t.thread x).ev = 0) ∧
        (r.kind = .request → t.hallMode h = s.hallMode h ∧ t.out = s.out) ∧
        (r.kind = .opening → t.hallMode h = 1 ∧ t.out = s.out ++ [.spdm (.lockResponse h)]) ∧
        (r.kind = .closing → t.hallMode h = 0 ∧ (t.hall h).session = none ∧ (t.hall h).stream = none ∧
          t.out = s.out ++ if (s.hall h).stopResp then [.spdm (.stopResponse h)] else []))))

/-- The SPDM responder negotiates its algorithms, gives its chain, signs challenges, measurements and key exchanges, and keys streams in
a secured session (R405, R411, R416 to R418, R434). -/
def Obligations.Attestation : Prop := ∀ s : State, s.running = true →
  let ans (m : SpdmMsg) (t : State) : Prop := t = { s with out := s.out ++ [.spdm m] }
  let signs (c : Instr) (text : List Byte) (m : List Byte → SpdmMsg) : Prop := (s.privKey = none → Leads (exec c s) (ans .error)) ∧
    ∀ d, s.privKey = some d → Leads (exec c s) (· = { s with
      fresh := s.fresh + 1, out := s.out ++ [.spdm (m (sm2Sign d (Config.transcript s.fresh text) s.fresh))] })
  let certs : List Byte := Config.certChain (sm2Pub (identityKey Config.secret))
  let served : Prop := s.field 0x20 0xC00 0 2 = 2 ∧ s.pf0Flr = false
  let handover : Prop := s.field 0xB 0x808 0 3 = 5
  let prod : Nat := if wbit (Config.bootstat.setWidth 32) 16 then 1 else 0
  (∀ (g : SpdmAlgs) (k : Fin 8) (l : List Byte) (i : List (BitVec 8)) (c : Instr), (c = .spdmNegotiateAlgorithms g ∨
      c = .spdmGetCertificate k ∨ c = .spdmChallenge k l ∨ c = .spdmGetMeasurements i l ∨ c = .spdmKeyExchange l) →
    (¬served → Leads (exec c s) (· = s)) ∧ (served → handover → Leads (exec c s) (ans .busy)) ∧
    (served → ¬handover → s.spdmReady = false → (∀ g, c ≠ .spdmNegotiateAlgorithms g) → Leads (exec c s) (ans .error))) ∧
  (served → ¬handover →
    (∀ g : SpdmAlgs, (g = ⟨true, true, true, true, true⟩ → Leads (exec (.spdmNegotiateAlgorithms g) s) fun t =>
        t = { s with spdmReady := true, out := s.out ++ [.spdm (.algorithms [.cert, .chal, .measSig, .keyEx, .encrypt, .mac, .hbeat])] }) ∧
      (g ≠ ⟨true, true, true, true, true⟩ → Leads (exec (.spdmNegotiateAlgorithms g) s) (ans .error))) ∧
    (∀ (m : Nat) (k : Fin 8), (m ∈ s.sessions → Leads (exec (.ideKm m (.key k)) s) fun t => k.val ∈ t.streams ∧
        t = { s with streams := t.streams, out := s.out ++ [.spdm (.ideKm k.val false)] } ∧ ∀ n, n ≠ k.val → (n ∈ t.streams ↔ n ∈ s.streams)) ∧
      (m ∈ s.sessions → (∀ g, (s.hall g).stream ≠ some k.val) → Leads (exec (.ideKm m (.stop k)) s) fun t =>
        t = { s with streams := t.streams, out := s.out ++ [.spdm (.ideKm k.val true)] } ∧ ∀ n, n ∈ t.streams ↔ n ∈ s.streams ∧ n ≠ k.val) ∧
      (m ∈ s.sessions → Leads (exec (.ideKm m (.stop k)) s) fun t => (k.val ∉ t.streams) ∧ t.out.getLast? = some (.spdm (.ideKm k.val true)) ∧
        ∀ g, (s.hall g).stream = some k.val → (s.hall g).scrub = none → s.hallMode g = 1 ∨ s.hallMode g = 2 →
          t.hallMode g = 3 ∧ (t.hall g).closing = true) ∧
      (m ∉ s.sessions → ∀ c, Leads (exec (.ideKm m c) s) (ans .error))) ∧
    (s.spdmReady = true →
      (∀ (k : Fin 8) (l : List Byte), (k = 0 → Leads (exec (.spdmGetCertificate k) s) (ans (.certificate certs)) ∧
          signs (.spdmChallenge k l) (sm3 certs ++ l) .challengeAuth) ∧
        (k ≠ 0 → Leads (exec (.spdmGetCertificate k) s) (ans .error) ∧ Leads (exec (.spdmChallenge k l) s) (ans .error))) ∧
      (∀ (i : List (BitVec 8)) (l : List Byte),
        let vals : List (Nat × Nat × List Byte) := i.filterMap fun n => (s.measurement n.toNat).map fun m => (n.toNat, m)
        signs (.spdmGetMeasurements i l) (l ++ vals.flatMap fun m => natBytes 1 m.1 ++ natBytes 1 m.2.1 ++ natBytes 2 m.2.2.length ++ m.2.2)
          (.measurements (vals.map fun m => (m.1, m.2.2)))) ∧
      (∀ l d, s.privKey = some d → Leads (exec (.spdmKeyExchange l) s) fun t => ∃ m, m ∉ s.sessions ∧ t = { s with
        sessions := s.sessions ++ [m], fresh := s.fresh + 1
        out := s.out ++ [.spdm (.keyExchange m (sm2Sign d (Config.transcript s.fresh (natBytes 2 m ++ l)) s.fresh))] }))) ∧
  1 ≤ identityKey Config.secret ∧ identityKey Config.secret ≤ sm2N - 2 ∧
  s.measurement 1 = some (0, Config.romDigest) ∧ s.measurement 2 = some (1, s.runDigest) ∧
  s.measurement 3 = some (7, [BitVec.ofNat 8 s.runSvn]) ∧
  s.measurement 4 = some (3, natBytes 4 (prod + ((List.finRange 8).map fun g => if s.hallMode g = 0 then 2 ^ (1 + g.val) else 0).sum)) ∧
  s.measurement 5 = some (2, s.measurePackage) ∧
  (∀ g : HallId, s.measurement (16 + g.val) = some (2, digestOr (s.hall g).measCfg) ∧
    s.measurement (24 + g.val) = some (1, digestOr (s.hall g).measRun) ∧
    s.measurement (32 + g.val) = some (3, (List.range 8).flatMap fun w => natBytes 4 (s.liveWord 0xA (0x800 + 32 * g.val + 4 * w)).toNat)) ∧
  s.measurement 40 = some (8, digestOr s.updLog) ∧ ∀ n, (n = 0 ∨ (5 < n ∧ n < 16) ∨ 40 < n) → s.measurement n = none

/-- A keeper update erases the inactive slot, takes an image, checks it under R408 and hands over to it; PLDM drives the same update and
reads the sensors; ROLLFWD advances the rollback count (R404, R407 to R410, R414, R432 to R434, R498 to R500; what an erased byte
reads, the states in which a control bit acts, and ROM recovery's part: assumption logs 9 and 27). -/
def Obligations.KeeperUpdate : Prop := ∀ s : State, s.updServed = true →
  let st : Nat := s.field 0xB 0x808 0 3
  let len : Nat := (s.liveWord 0xB 0x80C).toNat
  let base : Nat := if s.runSlot = 0 then 0x1900000 else 0x100000
  let idle : Nat := 1 - s.runSlot
  let say (m : PldmMsg) (t : State) : Prop := t = { s with out := s.out ++ [.pldm m] }
  let wiped (t : State) : Prop := (∀ b, t.flashAt b = if base ≤ b ∧ b < base + 25165824 then 0xFF else s.flashAt b) ∧ t.mem = s.mem
  (s.runSlot ≤ 1 → ∀ (a : Agent) (v : Word), (a = .keeper ∨ (s.running = true ∧ s.reach a 0xB 0x800 = .all)) →
    let away (t : State) (o : Nat) : Prop := s.turnsAway t a (0xB000 + o) true ∧ t.field 0xB 0x808 0 3 = st ∧ t.flash = s.flash
    (st = 0 → s.pldmUpd = false → Leads (exec (.updBegin a) s) fun t => wiped t ∧ s.puts t [((0xB, 0x808), 1), ((0xB, 0x80C), 0)]) ∧
    (st ≠ 0 ∨ s.pldmUpd = true → Leads (exec (.updBegin a) s) (away · 0x800)) ∧
    (st = 2 → len + 4 ≤ 25165824 → Leads (exec (.updData a v) s) fun t => s.puts t [((0xB, 0x80C), BitVec.ofNat 32 (len + 4))] ∧
      ∀ b, t.flashAt b = if base + len ≤ b ∧ b < base + len + 4
        then (natBytes 4 v.toNat).getD (b - base - len) 0 else s.flashAt b) ∧
    (st ≠ 2 ∨ 25165824 < len + 4 → Leads (exec (.updData a v) s) (away · 0x804)) ∧
    (st = 2 → Leads (exec (.updVerify a) s) fun t => t = { s with live := t.live } ∧ s.puts t [((0xB, 0x808), 3)]) ∧
    (st ≠ 2 → Leads (exec (.updVerify a) s) (away · 0x800)) ∧
    (st = 4 → s.activating = false → Leads (exec (.updActivate a) s) (· = { s with activating := true })) ∧
    (st ≠ 4 ∨ s.activating = true → Leads (exec (.updActivate a) s) (away · 0x800)) ∧
    (1 ≤ st → st ≠ 5 → Leads (exec (.updAbort a) s) fun t => wiped t ∧ s.puts t [((0xB, 0x808), 0)] ∧ t.pldmUpd = false ∧
      t.activating = false) ∧
    (st = 0 ∨ st = 5 → Leads (exec (.updAbort a) s) (away · 0x800))) ∧
  (∀ (a : Agent) (v : Word), s.running = true → s.reach a 8 0x824 = .all →
    (s.rollback ≤ fieldOf v 0 7 → fieldOf v 0 7 ≤ s.runSvn → Leads (exec (.rollfwd a v) s) fun t =>
      t = { s with blown := t.blown } ∧ t.rollback = fieldOf v 0 7) ∧
    (fieldOf v 0 7 < s.rollback ∨ s.runSvn < fieldOf v 0 7 → Leads (exec (.rollfwd a v) s) fun t => s.turnsAway t a 0x8824 true ∧
      t.blown = s.blown)) ∧
  (st = 1 → Leads (exec .updEraseComplete s) fun t => t = { s with live := t.live } ∧ s.puts t [((0xB, 0x808), 2)]) ∧
  (st ≠ 1 → Leads (exec .updEraseComplete s) (· = s)) ∧ (st ≠ 3 → Leads (exec .updVerifyComplete s) (· = s)) ∧
  (st = 3 → ∀ d : List Byte, d = s.flashBytes (slotBase idle) 256 →
    let f (o n : Nat) : Nat := bytesNat ((d.drop o).take n)
    let header : Prop := 256 ≤ len ∧ f 0 4 = 0x52504B59 ∧ f 4 1 ≤ 64 ∧ f 5 1 ≤ 3 ∧ f 6 2 = 0 ∧ 1 ≤ f 8 4 ∧ f 8 4 ≤ 25165568 ∧ f 12 20 = 0 ∧
      f 128 32 = 0 ∧ f 224 32 = 0 ∧ wbit (Config.bootstat.setWidth 32) (17 + f 5 1) = false ∧
      sm3 ((d.drop 64).take 64) = Config.vkey (f 5 1)
    let signed : Prop := sm2Verify ((d.drop 64).take 64) (d.take 160) ((d.drop 160).take 64) = true
    let body : Prop := len = 256 + f 8 4 ∧ sm3 (s.flashBytes (slotBase idle + 256) (f 8 4)) = (d.drop 32).take 32
    let ends (n : Nat) : Prop := Leads (exec .updVerifyComplete s) fun t => t = { s with live := t.live } ∧
      s.puts t [((0xB, 0x808), BitVec.ofNat 32 n)]
    (¬header → ends 0x106) ∧ (header → ¬signed → ends 0x206) ∧ (header → signed → ¬body → ends 0x306) ∧
    (header → signed → body → f 4 1 < s.rollback → ends 0x406) ∧ (header → signed → body → s.rollback ≤ f 4 1 → ends 4)) ∧
  (s.running = true →
    (s.activating = true → (∀ h r, (s.hall h).scrub = some r → r.waits = true) → (∀ p, p ∈ s.commits → p.1 < 0x100 → p.2.checking = false) →
      s.puts s.handoverWork [((0xB, 0x808), 5)] ∧ s.handoverWork = { s with
        live := s.handoverWork.live, activating := false, updAt := s.rootTick }) ∧
    (st ≠ 5 → Leads (exec .handoverComplete s) (· = s) ∧ Leads (exec .handoverTimeout s) (· = s)) ∧
    (st = 5 → s.rootTick ≤ s.updAt + 1680000000 → Leads (exec .handoverComplete s) fun t =>
        (∃ d : List Byte, d = s.flashBytes (slotBase idle) 256 ∧ t.keeper = some ⟨idle, bytesNat ((d.drop 4).take 1), (d.drop 32).take 32,
          s.fallback⟩ ∧ t.updLog = sm3 (digestOr s.updLog ++ s.runDigest ++ (d.drop 32).take 32 ++ natBytes 1 s.runSvn ++
            natBytes 1 (bytesNat ((d.drop 4).take 1)) ++ List.replicate 6 0)) ∧
        t.liveWord 0xB 0x808 = 0 ∧ t.pldmUpd = false ∧ (t.flashAt 0).toNat % 2 = idle % 2 ∧
        (∀ b, b ≠ 0 → t.flashAt b = s.flashAt b) ∧ t.halls = s.halls ∧ t.sessions = s.sessions ∧ t.streams = s.streams ∧ t.cores = s.cores ∧
        (∀ e, e < 16 → wbit (s.liveWord 0x20 0xCF0) e = true → wbit (s.liveWord 0x20 (0xD0C + 16 * e)) 0 = false →
          wbit (t.liveWord 0x20 0xCF0) e = false ∧ Out.msix 0 e ((s.liveWord 0x20 (0xD00 + 16 * e)).toNat + 2 ^ 32 *
            (s.liveWord 0x20 (0xD04 + 16 * e)).toNat) (s.liveWord 0x20 (0xD08 + 16 * e)) ∈ t.out)) ∧
    (∀ (c : Instr) (u : State), st = 5 → (c = .handoverComplete ∧ s.updAt + 1680000000 < s.rootTick ∧ u = s ∨
        c = .handoverTimeout ∧ u = s.passTo (s.updAt + 1680000000)) → Leads (exec c s) fun t => t.liveWord 0xB 0x808 = 0x506 ∧
      t.keeper = s.keeper ∧ t.flash = s.flash ∧ t.halls = u.halls ∧ t.rootTick = u.rootTick ∧ t.pldmUpd = false ∧
      t.updLog = s.updLog)) ∧
  (∀ n : BitVec 16,
    let reads (i v : Nat) : Prop := n.toNat = i → Leads (exec (.pldmGetSensorReading n) s) (say (.reading i v))
    (s.recovery = true → Leads (exec (.pldmGetSensorReading n) s) (say .invalid)) ∧
    (s.recovery = false → st = 5 → Leads (exec (.pldmGetSensorReading n) s) (say .notReady)) ∧
    (s.recovery = false → st ≠ 5 → reads 1 (s.field 2 0x818 0 16) ∧ reads 2 (s.field 2 0x818 16 16) ∧ reads 3 (s.liveWord 2 0x810).toNat ∧
      reads 4 (s.liveWord 2 0x814).toNat ∧ reads 5 (s.live64 2 0x808 / 1000000 % 2 ^ 32) ∧ reads 6 (s.field 2 0x81C 0 8) ∧
      reads 7 (s.field 2 0x800 0 3) ∧
      (∀ h : HallId, reads (16 + h.val) (s.field 2 (0x820 + 4 * h.val) 0 8) ∧ reads (24 + h.val) (s.field 2 (0x820 + 4 * h.val) 8 8) ∧
        reads (32 + h.val) (s.field 2 (0x820 + 4 * h.val) 16 8) ∧ reads (40 + h.val) (if s.isOut h then 4 else s.hallMode h)) ∧
      ((n = 0 ∨ (7 < n.toNat ∧ n.toNat < 16) ∨ 47 < n.toNat) → Leads (exec (.pldmGetSensorReading n) s) (say .invalid)))) ∧
  (st = 5 → Leads (exec .pldmRequestUpdate s) (say .notReady) ∧ Leads (exec .pldmActivateFirmware s) (say .notReady)) ∧
  (st ≠ 5 → st ≠ 0 → Leads (exec .pldmRequestUpdate s) (say .alreadyInUpdateMode)) ∧
  (s.runSlot ≤ 1 → st = 0 → Leads (exec .pldmRequestUpdate s) fun t => wiped t ∧ t.pldmUpd = true ∧ t.out = s.out ++ [.pldm .accepted] ∧
    s.puts t [((0xB, 0x808), 1), ((0xB, 0x80C), 0)]) ∧
  (st = 4 → s.pldmUpd = true → s.activating = false → s.recovery = false → Leads (exec .pldmActivateFirmware s)
    (· = { s with activating := true, out := s.out ++ [.pldm .accepted] })) ∧
  (st = 4 → s.pldmUpd = true → s.activating = false → s.recovery = true → Leads (exec .pldmActivateFirmware s) fun t =>
    t.out = s.out ++ [.pldm .accepted] ∧ t.mem = [] ∧ t.staged = [] ∧ t.flash = s.flash) ∧
  (st ≠ 5 → (st ≠ 4 ∨ s.pldmUpd = false ∨ s.activating = true) → Leads (exec .pldmActivateFirmware s) (say .invalid))

/-- At the end of an interval the power controller takes the telemetry and lowers the ceilings of the cap and the temperature; alerts
and SYS_THROT_N lower theirs at once; ceilings rise by one state; the state in force is the slowest ceiling (R464 to R478). -/
def Obligations.PowerControl : Prop := ∀ s : State, s.running = true →
  let inForce (u : State) : Nat := u.field 2 0x800 0 3
  let ceil (u : State) (r : Nat) : Nat := u.field 2 0x800 (3 + 3 * r) 3
  let thr (u : State) (r : Nat) : Prop := inForce u ≠ 0 ∧ ceil u r = inForce u
  let counted (s t : State) : Prop := ∀ r, r < 5 → (thr t r ∧ ¬thr s r → t.liveWord 3 (0x800 + 16 * r) = (s.plus32 3 (0x800 + 16 * r) 1).2) ∧
    (¬(thr t r ∧ ¬thr s r) → t.liveWord 3 (0x800 + 16 * r) = s.liveWord 3 (0x800 + 16 * r))
  let err (t : State) (b : Nat) : Prop := wbit (t.liveWord 2 0x010) b = true
  let slowest (u : State) : Nat := max (ceil u 0) (max (ceil u 1) (max (ceil u 2) (max (ceil u 3) (ceil u 4))))
  let only (s t : State) (r v : Nat) : Prop := (∀ q, q < 5 → ceil t q = if q = r then v else ceil s q) ∧ counted s t ∧ t.mem = s.mem ∧
    (v ≠ ceil s r → SMap.get t.ceilAt r none = some s.rootTick) ∧ ∀ q, q ≠ r → SMap.get t.ceilAt q none = SMap.get s.ceilAt q none
  (∀ (m : Telemetry) (due : Nat) (u : State), due = max ((s.rootTick + 81919) / 81920) (s.lastInt / 81920 + 1) * 81920 → u = s.passTo due →
    let cap : Nat := fieldOf (s.applWord 2 0x100) 0 11
    let run : Nat := if cap * 1000 < m.mw then min 508 (s.capRun + 1) else 0
    let win : List Nat := (s.pwrWin ++ [m.mw]).drop (s.pwrWin.length + 1 - 128)
    let at_ (d : Nat) : Nat := if d < 8 then (m.cdie.getD d 0).toNat else (m.bdie.getD (d - 8) 0).toNat
    let hot : Prop := ∃ d, d < 16 ∧ 105 < at_ d
    let high : Prop := 1750000 < m.mw ∨ run = 508
    let falls (r : Nat) (c : Prop) (t : State) : Prop := (c → ceil u r < 4 → ceil t r = ceil u r + 1) ∧
      (¬c ∨ 4 ≤ ceil u r → ceil t r = ceil u r)
    let steady : Prop := (¬high ∨ 4 ≤ ceil u 0) ∧ (¬hot ∨ 4 ≤ ceil u 2)
    Leads (exec (.intervalEnd m) s) fun t => t.rootTick = due ∧ t.lastInt = due ∧ t.pwrWin = win ∧ t.capRun = run ∧
      t.live64 2 0x808 = (s.live64 2 0x808 + m.uj) % 2 ^ 64 ∧
      t.liveWord 2 0x810 = BitVec.ofNat 32 m.mw ∧ t.liveWord 2 0x814 = BitVec.ofNat 32 (win.sum / win.length) ∧
      t.liveWord 2 0x818 = BitVec.ofNat 32 (m.vin.toNat + m.iin.toNat * 2 ^ 16) ∧
      (∀ h : HallId, t.liveWord 2 (0x820 + 4 * h.val) = BitVec.ofNat 32 ((m.cdie.getD h.val 0).toNat + (m.bdie.getD h.val 0).toNat * 2 ^ 8 +
        (m.mem.getD h.val 0).toNat * 2 ^ 16)) ∧
      (∀ d, d < 16 → (∀ e, e < 16 → at_ e ≤ at_ d) → (∀ e, e < d → at_ e < at_ d) →
        t.liveWord 2 0x81C = BitVec.ofNat 32 (at_ d + d * 2 ^ 8)) ∧
      falls 0 high t ∧ falls 2 hot t ∧ (steady → inForce t = inForce u) ∧ (¬steady → inForce t = slowest t) ∧ counted u t ∧
      (∀ q, q = 1 ∨ q = 3 ∨ q = 4 → ceil t q = ceil s q) ∧
      (high → ceil u 0 < 4 → err t 2) ∧ (hot → ceil u 2 < 4 → err t 1) ∧ t.mem = s.mem) ∧
  (∀ r : Fin 5,
    let floor : Nat := if r = 1 then 4 * s.field 2 0x800 18 1 else if r = 3 then s.field 2 0x800 19 1 * fieldOf (s.applWord 2 0x104) 4 3
      else if r = 4 then fieldOf (s.applWord 2 0x104) 0 3 else 0
    let paced (n : Nat) : Prop := ∀ k, SMap.get s.ceilAt r none = some k → k + 420000 ≤ n
    let decides : Prop := s.rootTick = s.lastInt ∧ paced s.rootTick ∧ s.pwrWin ≠ []
    let may : Prop := floor < ceil s r ∧ (r = 0 → decides ∧ (s.liveWord 2 0x814).toNat * 100 ≤
        95 * (fieldOf (s.applWord 2 0x100) 0 11 * 1000)) ∧ (r = 2 → decides ∧ s.field 2 0x81C 0 8 ≤ 100)
    (may → ∀ u, u = s.passTo (((SMap.get s.ceilAt r none).map (· + 420000)).getD 0) → Leads (exec (.ceilingRise r) s) fun t =>
      only u t r (ceil s r - 1) ∧ inForce t = slowest t ∧ paced t.rootTick ∧ t = { u with live := t.live, ceilAt := t.ceilAt }) ∧
    (¬may → Leads (exec (.ceilingRise r) s) (· = s))) ∧
  Leads (exec .powerStateChange s) (fun t => t = { s with live := t.live } ∧ counted s t ∧ (∀ q, q < 5 → ceil t q = ceil s q) ∧
    inForce t = slowest s ∧
    t.field 4 0x800 8 6 = if inForce t = 0 then 8 else if inForce t = 1 then 10 else if inForce t = 2 then 12 else if inForce t = 3 then 16
      else 32) ∧
  (s.field 2 0x800 18 1 = 1 → Leads (exec .currentAlert s) (· = s)) ∧
  (s.field 2 0x800 18 1 = 0 → Leads (exec .currentAlert s) fun t => only s t 1 4 ∧ inForce t = inForce s ∧ t.field 2 0x800 18 1 = 1 ∧
    err t 0 ∧ t.alertAt = s.rootTick) ∧
  (∀ n : Nat, s.alertAt + 8400 ≤ s.rootTick + n → inForce (s.advance n) = slowest s ∧ (s.advance n).rootTick = s.rootTick + n) ∧
  Leads (exec .currentAlertClear s) (fun t => t = { s with live := t.live } ∧ s.puts t [((2, 0x800), s.liveWord 2 0x800 &&& 0xFFFBFFFF)]) ∧
  (s.field 2 0x800 19 1 = 1 → Leads (exec .sysThrotAssert s) (· = s)) ∧
  (s.field 2 0x800 19 1 = 0 → Leads (exec .sysThrotAssert s) fun t => only s t 3 (max (ceil s 3) (fieldOf (s.applWord 2 0x104) 4 3)) ∧
    inForce t = slowest t ∧ t.field 2 0x800 19 1 = 1 ∧ err t 3) ∧
  Leads (exec .sysThrotDeassert s) (fun t => t = { s with live := t.live } ∧ s.puts t [((2, 0x800), s.liveWord 2 0x800 &&& 0xFFF7FFFF)]) ∧
  (∀ (h : HallId) (n : Nat), Leads (exec (.droopStretch h n) s) fun t => t = { s with halls := t.halls } ∧
    t.hall h = { s.hall h with stretch := (s.hall h).stretch + n } ∧ ∀ g, g ≠ h → t.hall g = s.hall g) ∧
  (∀ (v : Hall) (d n : Nat), 0 < d → v.corePhase < v.coreLen →
    (v.corePhase + n < v.coreLen → v.clock d n = ({ v with corePhase := v.corePhase + n }, 0, 0)) ∧
    (v.stretch = 0 → v.coreLen ≤ v.corePhase + n → v.clock d n = ({ v with
      corePhase := (v.corePhase + n - v.coreLen) % d, coreLen := d, stretched := false
      cycles := v.cycles + 1 + (v.corePhase + n - v.coreLen) / d }, 0, 0)) ∧
    (v.stretch ≠ 0 → v.corePhase + n = v.coreLen → v.clock d n = ({ v with
      corePhase := 0, coreLen := 2 * d, stretched := true, stretch := v.stretch - 1, cycles := v.cycles + 1 },
      if v.stretched then 0 else 1, 1)) ∧
    ∀ m, ((v.clock d n).1.clock d m).1 = (v.clock d (n + m)).1)

/-- Module reset, loss of the reference or of power, a thermal trip and the boundary-scan instructions that take the pins clear the
package but for fuses and flash; start-up boots a keeper and trains the port (R408, R409, R471, R479 to R487, R501). -/
def Obligations.ModuleResets : Prop := ∀ s : State,
  let forget (t : State) : State := { t with
    pending := State.reset.pending, fresh := State.reset.fresh, nearGen := State.reset.nearGen, cxlGen := State.reset.cxlGen
    vin := State.reset.vin, tripped := State.reset.tripped, refLost := State.reset.refLost, scanHold := State.reset.scanHold
    perst := State.reset.perst, flash := State.reset.flash, slotErased := State.reset.slotErased, blown := State.reset.blown
    keeper := State.reset.keeper, recovery := State.reset.recovery, keyBase := State.reset.keyBase, tap := State.reset.tap
    boundaryReg := State.reset.boundaryReg, out := State.reset.out
    privKey := State.reset.privKey, secretShut := State.reset.secretShut }
  let cleared (t : State) : Prop := forget t = State.reset ∧ t.flash = s.flash ∧ t.slotErased = s.slotErased ∧ t.blown = s.blown ∧
    t.keeper = s.keeper ∧ t.recovery = s.recovery ∧ t.perst = s.perst ∧ t.out = s.out ∧ t.pending = s.pending ∧
    t.privKey = none ∧ t.secretShut = false ∧ ∀ n, n < 8 → SMap.get t.nearGen n 1 = SMap.get s.nearGen n 1 + 1 ∧
      SMap.get t.cxlGen n 1 = SMap.get s.cxlGen n 1 + 1
  let pins (t : State) (vin trip ref scan : Bool) : Prop := t.vin = vin ∧ t.tripped = trip ∧ t.refLost = ref ∧ t.scanHold = scan
  let starts (u t : State) : Prop :=
    let on : Prop := u.vin = true ∧ u.tripped = false ∧ u.refLost = false ∧ u.scanHold = false
    (¬on → t = u) ∧ (on → t = { u with
        keeper := t.keeper, recovery := t.recovery, live := t.live, privKey := t.privKey, secretShut := t.secretShut } ∧
      (u.secretShut = false → t.privKey = some (identityKey Config.secret) ∧ t.secretShut = true) ∧
      (u.secretShut = true → t.privKey = u.privKey ∧ t.secretShut = true) ∧
      (∀ k, u.bootSlot = some k → t.keeper = some (u.imageOf k) ∧ t.recovery = false) ∧
      (u.bootSlot = none → t.recovery = true ∧ t.keeper = u.keeper) ∧ (t.recovery = true → t.live = u.live) ∧
      (t.recovery = false → u.puts t (if u.perst then [] else [((0x20, 0xC00), 1)])))
  let tap (t : State) (i : TapInstr) : Prop := t.tap = i ∧ t.boundaryReg = s.boundaryReg
  let dead (t : State) (vin trip : Bool) : Prop := cleared t ∧ pins t vin trip false false ∧ t.tap = .reset ∧ t.boundaryReg = []
  (s.vin = true → Answers (exec .thermalTrip s) (dead · true true)) ∧
  (s.vin = false → exec .thermalTrip s = .next s) ∧
  (s.pwrGood = true → Answers (exec .referenceLoss s) fun t => cleared t ∧ pins t s.vin s.tripped true s.scanHold ∧ tap t s.tap) ∧
  (s.pwrGood = false → exec .referenceLoss s = .next s) ∧
  (s.running = false → exec (.pcieReset .perst) s = .next { s with perst := true } ∧ exec .perstNDeassert s = .next { s with perst := false } ∧
    exec (.pcieReset .hotReset) s = .next s ∧ exec (.pcieReset .linkDown) s = .next s) ∧
  (s.refLost = false → exec .referenceRestored s = .next s) ∧
  (s.refLost = true → Answers (exec .referenceRestored s) (starts { s with refLost := false })) ∧
  Answers (exec .powerOff s) (dead · false false) ∧
  (∀ l, s.vin = true → exec (.powerOn l) s = .next s) ∧
  (s.vin = false → Answers (exec (.powerOn []) s) fun t => ∃ u, dead u true s.tripped ∧ starts u t) ∧
  (∀ l h i, s.vin = false → (h, i) ∈ l → Answers (exec (.powerOn l) s) fun t => t.vin = true ∧ t.mem = [] ∧ t.near = [] ∧
    (s.tripped = false → t.recovery = false → t.isOut h = true ∧ t.field (hallPage h 1) 0x800 0 2 = 3 ∧
      t.field (hallPage h 1) 0x800 (2 + i.val) 1 = 1)) ∧
  (∀ (a : Agent) (v : Word), s.running = true → s.reach a 4 0x810 = .all →
    ((a = .pf ∨ a = .keeper) → fieldOf v 0 16 = 0x4D52 → Leads (exec (.modrst a v) s) fun t => ∃ u, cleared u ∧
      pins u s.vin s.tripped s.refLost s.scanHold ∧ tap u s.tap ∧ starts u t) ∧
    (¬((a = .pf ∨ a = .keeper) ∧ fieldOf v 0 16 = 0x4D52) → Leads (exec (.modrst a v) s) fun t =>
      s.turnsAway t a 0x4810 true ∧ t.mem = s.mem ∧ t.staged = s.staged)) ∧
  (∀ (c : Instr) (l m : List Bool), (c = .bypass ∨ c = .idcode ∨ c = .samplePreload l m ∨ c = .extest ∨ c = .clamp ∨ c = .highz ∨
    c = .testLogicReset) → s.pwrGood = false → exec c s = .next s) ∧
  (s.pwrGood = true →
    exec .bypass s = .next { s with tap := .bypass } ∧
    exec .idcode s = .next { s with
      tap := .idcode, out := s.out ++ [.tdo ((List.range 32).map fun i =>
        (0x0A8F70B5 + Config.stepping.toNat % 16 * 2 ^ 28).testBit i)] } ∧
    (∀ l m, exec (.samplePreload l m) s = .next { s with tap := .sample, boundaryReg := m, out := s.out ++ [.tdo l] }) ∧
    (∀ (c : Instr) (i : TapInstr), (c = .extest ∧ i = .extest ∨ c = .clamp ∧ i = .clamp ∨ c = .highz ∧ i = .highz) →
      Answers (exec c s) fun t => cleared t ∧ pins t s.vin s.tripped s.refLost true ∧ tap t i) ∧
    (s.scanHold = false → exec .testLogicReset s = .next { s with tap := .reset }) ∧
    (s.scanHold = true → Answers (exec .testLogicReset s) (starts { s with tap := .reset, scanHold := false })))
end

