-- ==== Sys2Proof/Laws/Words.lean ====
section
/-!
SUPPORT. Words of the control pages: two offsets of pages name one word only when they are the same, and what a chain of writes leaves.
-/
namespace Sys2Proof.Machine

/-- Words of different pages, or of different aligned offsets, have different indices. -/
theorem widx_inj {p q o r : Nat} (ho : o < 4096) (hr : r < 4096) (ao : o % 4 = 0) (ar : r % 4 = 0) (h : widx p o = widx q r) :
    p = q ∧ o = r := by
  unfold widx at h
  omega

theorem State.puts_refl (s : State) : s.puts s [] := fun _ _ _ _ => rfl

theorem State.puts_of_live {s t : State} (h : t.live = s.live) : s.puts t [] := by
  intro p o _ _
  simp [State.liveWord, h]

/-- What a state with the same words puts. -/
theorem State.puts_live {s t u : State} {l : List ((Nat × Nat) × Word)} (h : s.puts t l) (hu : u.live = t.live) : s.puts u l := by
  intro p o ho ao
  rw [← h p o ho ao]
  simp [State.liveWord, hu]

/-- One more word written. -/
theorem State.puts_setLive {s t : State} {l : List ((Nat × Nat) × Word)} (h : s.puts t l) {p o : Nat} (v : Word) (ho : o < 4096)
    (ao : o % 4 = 0) : s.puts (t.setLive p o v) (((p, o), v) :: l) := by
  intro q r hr ar
  rw [List.lookup_cons]
  by_cases hq : (q, r) = (p, o)
  · obtain ⟨rfl, rfl⟩ := Prod.mk.inj hq
    simp
  · have : ((q, r) == (p, o)) = false := by simpa using hq
    rw [this, ← h q r hr ar, State.liveWord_setLive_ne]
    intro he
    obtain ⟨rfl, rfl⟩ := widx_inj hr ho ar ao he
    exact hq rfl

end Sys2Proof.Machine
end

