-- ==== Sys2Proof/Laws/Memory.lean ====
section
/-!
SUPPORT. The canonical form of memory: every operation of memory keeps it, and it holds after reset; what notices, errors and counters
leave of memory.
-/
namespace Sys2Proof.Machine

/-! ### Rising keys -/

theorem risingFrom_le {α : Type} {lo lo' : Nat} (m : SMap α) (h : risingFrom lo m = true) (hl : lo' ≤ lo) : risingFrom lo' m = true := by
  cases m with
  | nil => rfl
  | cons p t =>
    simp only [risingFrom, Bool.and_eq_true, decide_eq_true_eq] at h ⊢
    exact ⟨Nat.le_trans hl h.1, h.2⟩

theorem risingFrom_put {α : Type} {lo : Nat} (m : SMap α) (k : Nat) (v : α) (h : risingFrom lo m = true) (hk : lo ≤ k) :
    risingFrom lo (SMap.put m k v) = true := by
  induction m generalizing lo with
  | nil => simp [SMap.put, risingFrom, hk]
  | cons p t ih =>
    obtain ⟨j, w⟩ := p
    simp only [risingFrom, Bool.and_eq_true, decide_eq_true_eq] at h
    unfold SMap.put
    split
    · rename_i hlt
      simp only [risingFrom, Bool.and_eq_true, decide_eq_true_eq]
      exact ⟨hk, hlt, h.2⟩
    · split
      · rename_i he
        subst he
        simp only [risingFrom, Bool.and_eq_true, decide_eq_true_eq]
        exact ⟨hk, h.2⟩
      · simp only [risingFrom, Bool.and_eq_true, decide_eq_true_eq]
        exact ⟨h.1, ih h.2 (by omega)⟩

theorem risingFrom_erase {α : Type} {lo : Nat} (m : SMap α) (k : Nat) (h : risingFrom lo m = true) :
    risingFrom lo (SMap.erase m k) = true := by
  induction m generalizing lo with
  | nil => rfl
  | cons p t ih =>
    obtain ⟨j, w⟩ := p
    simp only [risingFrom, Bool.and_eq_true, decide_eq_true_eq] at h
    unfold SMap.erase
    split
    · exact ih (risingFrom_le t h.2 (by omega))
    · simp only [risingFrom, Bool.and_eq_true, decide_eq_true_eq]
      exact ⟨h.1, ih h.2⟩

theorem risingFrom_set {α : Type} [DecidableEq α] {lo : Nat} (m : SMap α) (k : Nat) (d v : α) (h : risingFrom lo m = true)
    (hk : lo ≤ k) : risingFrom lo (SMap.set m k d v) = true := by
  unfold SMap.set
  split
  · exact risingFrom_erase m k h
  · exact risingFrom_put m k v h hk

theorem risingFrom_clearRange {α : Type} {lo : Nat} (m : SMap α) (a b : Nat) (h : risingFrom lo m = true) :
    risingFrom lo (SMap.clearRange m a b) = true := by
  induction m generalizing lo with
  | nil => rfl
  | cons p t ih =>
    obtain ⟨j, w⟩ := p
    simp only [risingFrom, Bool.and_eq_true, decide_eq_true_eq] at h
    unfold SMap.clearRange
    split
    · exact ih (risingFrom_le t h.2 (by omega))
    · simp only [risingFrom, Bool.and_eq_true, decide_eq_true_eq]
      exact ⟨h.1, ih h.2⟩

theorem risingFrom_filter {α : Type} {lo : Nat} (f : Nat × α → Bool) (m : SMap α) (h : risingFrom lo m = true) :
    risingFrom lo (m.filter f) = true := by
  induction m generalizing lo with
  | nil => rfl
  | cons p t ih =>
    obtain ⟨j, w⟩ := p
    simp only [risingFrom, Bool.and_eq_true, decide_eq_true_eq] at h
    rw [List.filter_cons]
    split
    · simp only [risingFrom, Bool.and_eq_true, decide_eq_true_eq]
      exact ⟨h.1, ih h.2⟩
    · exact ih (risingFrom_le t h.2 (by omega))

/-! ### Cell lists -/

theorem Memory.wf_set0 {m : List Host.Cell} (a : Nat) (b : Byte) (h : Memory.wf m = true) : Memory.wf (cellSet0 m a b) = true := by
  simp only [Memory.wf, Bool.and_eq_true] at h ⊢
  refine ⟨risingFrom_set m a 0 b h.1 (Nat.zero_le _), ?_⟩
  unfold cellSet0 SMap.set
  split
  · exact SMap.all_erase _ _ _ h.2
  · exact SMap.all_put _ _ _ _ h.2 (by simpa)

theorem Memory.wf_clearRange {m : List Host.Cell} (a b : Nat) (h : Memory.wf m = true) : Memory.wf (SMap.clearRange m a b) = true := by
  simp only [Memory.wf, Bool.and_eq_true] at h ⊢
  exact ⟨risingFrom_clearRange m a b h.1, SMap.all_clearRange _ _ _ _ h.2⟩

/-! ### What leaves memory alone -/

/-- Memory and flash are as they were. -/
structure State.sameMem (s t : State) : Prop where
  mem : t.mem = s.mem
  near : t.near = s.near
  cxl : t.cxl = s.cxl
  flash : t.flash = s.flash

theorem State.memWf_same {s t : State} (h : s.sameMem t) (w : s.memWf = true) : t.memWf = true := by
  obtain ⟨h1, h2, h3, h4⟩ := h
  simpa [State.memWf, h1, h2, h3, h4] using w

theorem State.sameMem_refl (s : State) : s.sameMem s := ⟨rfl, rfl, rfl, rfl⟩

theorem State.sameMem.trans {s t u : State} (h : s.sameMem t) (k : t.sameMem u) : s.sameMem u :=
  ⟨k.1.trans h.1, k.2.trans h.2, k.3.trans h.3, k.4.trans h.4⟩

theorem State.sameMem_foldl {α : Type} (f : State → α → State) (hf : ∀ (s : State) (a : α), s.sameMem (f s a)) (l : List α) (s : State) :
    s.sameMem (l.foldl f s) := by
  induction l generalizing s with
  | nil => exact ⟨rfl, rfl, rfl, rfl⟩
  | cons a t ih => exact (hf s a).trans (ih (f s a))

theorem State.sameMem_setLive (s : State) (p o : Nat) (v : Word) : s.sameMem (s.setLive p o v) := ⟨rfl, rfl, rfl, rfl⟩

theorem State.sameMem_count64 (s : State) (p o n : Nat) : s.sameMem (s.count64 p o n) := ⟨rfl, rfl, rfl, rfl⟩

theorem State.sameMem_emit (s : State) (o : Out) : s.sameMem (s.emit o) := by
  unfold State.emit
  split <;> exact ⟨rfl, rfl, rfl, rfl⟩

theorem State.sameMem_raiseMsix (s : State) (fn e : Nat) : s.sameMem (s.raiseMsix fn e) := by
  unfold State.raiseMsix
  dsimp only
  split
  · exact ⟨rfl, rfl, rfl, rfl⟩
  · exact s.sameMem_emit _

theorem State.sameMem_pend (s : State) (x : Site) (v : Nat) : s.sameMem (s.pend x v) := ⟨rfl, rfl, rfl, rfl⟩

theorem State.sameMem_hallNotice (s : State) (h : HallId) : s.sameMem (s.hallNotice h) :=
  (State.sameMem_foldl _ (fun s _ => s.sameMem_pend _ _) _ _).trans (State.sameMem_raiseMsix _ _ _)

theorem State.sameMem_notice (s : State) (p b : Nat) : s.sameMem (s.notice p b) := by
  have mirrors (n : Nat) (l : List HallId) (s : State) : s.sameMem (l.foldl (fun s h => (s.mirror n h).hallNotice h) s) :=
    State.sameMem_foldl _ (fun s h => (State.sameMem_setLive s _ _ _).trans (State.sameMem_hallNotice (s.mirror n h) h)) _ _
  unfold State.notice
  split
  · exact s.sameMem_hallNotice _
  · split
    · exact (mirrors _ _ _).trans (State.sameMem_raiseMsix _ _ _)
    · exact (mirrors _ _ _).trans (State.sameMem_raiseMsix _ _ _)
    · split
      · exact s.sameMem_raiseMsix _ _
      · exact s.sameMem_hallNotice _
    · exact s.sameMem_raiseMsix _ _

theorem State.sameMem_recordErr (s : State) (p b : Nat) (i : Bool) : s.sameMem (s.recordErr p b i) := by
  have last (u : State) (q : Nat) (c : Bool) (h : s.sameMem u) : s.sameMem (if c then u else u.notice q b) := by
    cases c
    · exact h.trans (u.sameMem_notice q b)
    · exact h
  unfold State.recordErr
  refine last _ _ _ ?_
  split <;> exact ⟨rfl, rfl, rfl, rfl⟩

theorem State.sameMem_recordAccessIn (s : State) (p : Nat) (a : Agent) (n : Nat) (w o : Bool) :
    s.sameMem (s.recordAccessIn p a n w o) := by
  unfold State.recordAccessIn
  refine State.sameMem.trans ?_ (State.sameMem_recordErr _ _ _ _)
  split <;> exact ⟨rfl, rfl, rfl, rfl⟩

theorem State.sameMem_accessError (s : State) (a : Agent) (n : Nat) (w o : Bool) : s.sameMem (s.accessError a n w o) := by
  unfold State.accessError
  dsimp only
  split
  · exact (State.sameMem_recordAccessIn _ _ _ _ _ _).trans (State.sameMem_recordAccessIn _ _ _ _ _ _)
  · exact State.sameMem_recordAccessIn _ _ _ _ _ _

theorem State.sameMem_countLine (s : State) (a : Agent) (n : Nat) (w : Bool) : s.sameMem (s.countLine a n w) := by
  have three (p q r o m k n l : Nat) (j : Nat) : s.sameMem (((s.count64 p o n).count64 q m l).count64 r k j) :=
    ((s.sameMem_count64 p o n).trans (State.sameMem_count64 _ q m l)).trans (State.sameMem_count64 _ r k j)
  unfold State.countLine
  split
  · exact s.sameMem_count64 _ _ _
  · exact s.sameMem_count64 _ _ _
  · exact three _ _ _ _ _ _ _ _ _
  · split
    · exact three _ _ _ _ _ _ _ _ _
    · exact s.sameMem_refl
  · exact s.sameMem_refl

theorem State.sameMem_holdWrite (s : State) (a : Agent) (n : Nat) (d : List Byte) (g : WriteTag) (f : Bool) :
    s.sameMem (s.holdWrite a n d g f) := by
  have last (u : State) (q b : Nat) (c : Prop) [Decidable c] (h : s.sameMem u) : s.sameMem (if c then u.recordErr q b else u) := by
    split
    · exact h.trans (u.sameMem_recordErr q b _)
    · exact h
  unfold State.holdWrite
  split
  · exact last _ _ _ _ ⟨rfl, rfl, rfl, rfl⟩
  · exact ⟨rfl, rfl, rfl, rfl⟩
  · exact ⟨rfl, rfl, rfl, rfl⟩

/-! ### Writes keep the form -/

theorem State.memWf_setByte {s : State} (a : Nat) (b : Byte) (w : s.memWf = true) : (s.setByte a b).memWf = true := by
  simp only [State.memWf, Bool.and_eq_true] at w
  obtain ⟨⟨⟨h1, h2⟩, h3⟩, h4⟩ := w
  unfold State.setByte
  repeat' split
  all_goals simp only [State.memWf, Bool.and_eq_true]
  all_goals first
    | exact ⟨⟨⟨h1, h2⟩, h3⟩, h4⟩
    | exact ⟨⟨⟨h1, risingFrom_set _ _ _ _ h2 (Nat.zero_le _)⟩, h3⟩, h4⟩
    | exact ⟨⟨⟨h1, risingFrom_put _ _ _ h2 (Nat.zero_le _)⟩, h3⟩, h4⟩
    | exact ⟨⟨⟨h1, h2⟩, risingFrom_put _ _ _ h3 (Nat.zero_le _)⟩, h4⟩
    | exact ⟨⟨⟨Memory.wf_set0 _ _ h1, h2⟩, h3⟩, h4⟩

theorem State.memWf_setBytes {s : State} (a : Nat) (d : List Byte) (w : s.memWf = true) : (s.setBytes a d).memWf = true := by
  induction d generalizing s a with
  | nil => exact w
  | cons b t ih => exact ih _ (State.memWf_setByte a b w)

theorem State.memWf_soilBytes {s : State} (a n : Nat) (w : s.memWf = true) : (s.soilBytes a n).memWf = true := by
  induction n generalizing s a with
  | zero => exact w
  | succ n ih => exact ih _ (State.memWf_setByte _ _ w)

theorem State.memWf_tierPoison {s : State} (p : Nat) (w : s.memWf = true) : (s.tierPoison p).memWf = true :=
  State.memWf_same (State.sameMem.trans ⟨rfl, rfl, rfl, rfl⟩ (State.sameMem_recordErr _ _ _ _)) w

theorem State.memWf_performLine {s : State} (a : Agent) (n : Nat) (d : List Byte) (f : Bool) (w : s.memWf = true) :
    (s.performLine a n d f).memWf = true := by
  have hc : (if f then s.countLine a n true else s).memWf = true := by
    split
    · exact State.memWf_same (s.sameMem_countLine _ _ _) w
    · exact w
  unfold State.performLine
  dsimp only
  generalize (if f then s.countLine a n true else s) = u at hc
  have hs := State.memWf_setBytes n d hc
  have hp (p : Nat) := State.memWf_setBytes n d (State.memWf_tierPoison p hc)
  repeat' split
  all_goals first
    | exact hc
    | exact hs
    | exact hp _

theorem State.memWf_writeLine {s : State} (a : Agent) (n : Nat) (d : List Byte) (f : Bool) (g : WriteTag) (w : s.memWf = true) :
    (s.writeLine a n d f g).memWf = true := by
  unfold State.writeLine
  split
  · exact State.memWf_same (s.sameMem_holdWrite _ _ _ _ _) w
  · exact State.memWf_performLine a n d f w

theorem State.memWf_writePieces {s : State} (a : Agent) (g : WriteTag) (l : List (Nat × Nat)) (d : List Byte) (w : s.memWf = true) :
    (s.writePieces a g l d).memWf = true := by
  induction l generalizing s d with
  | nil => exact w
  | cons p t ih =>
    refine ih _ ?_
    split
    · exact State.memWf_writeLine _ _ _ _ _ w
    · exact w

/-- A write of memory by an agent keeps the canonical form. -/
theorem State.memWf_memWrite {s : State} (a : Agent) (n : Nat) (d : List Byte) (g : WriteTag) (w : s.memWf = true) :
    (s.memWrite a n d g).memWf = true := by
  have hw := State.memWf_writePieces a g (pieces n d.length) d w
  unfold State.memWrite State.lineErrors
  split
  · exact State.memWf_same (State.sameMem_accessError _ _ _ _ _) hw
  · exact hw

theorem State.memWf_newNearKeys {s : State} (h : HallId) (w : s.memWf = true) : (s.newNearKeys h).memWf = true := by
  simp only [State.memWf, Bool.and_eq_true] at w ⊢
  exact ⟨⟨⟨w.1.1.1, risingFrom_clearRange _ _ _ w.1.1.2⟩, w.1.2⟩, w.2⟩

theorem State.memWf_newTierKeys {s : State} (d : Nat) (w : s.memWf = true) : (s.newTierKeys d).memWf = true := by
  simp only [State.memWf, Bool.and_eq_true] at w ⊢
  exact ⟨⟨w.1.1, risingFrom_filter _ _ w.1.2⟩, w.2⟩

theorem State.memWf_setFlash {s : State} (a : Nat) (d : List Byte) (w : s.memWf = true) : (s.setFlash a d).memWf = true := by
  induction d generalizing s a with
  | nil => exact w
  | cons b t ih =>
    refine ih (s := { s with flash := SMap.put s.flash a b }) _ ?_
    simp only [State.memWf, Bool.and_eq_true] at w ⊢
    exact ⟨w.1, risingFrom_put _ _ _ w.2 (Nat.zero_le _)⟩

theorem State.memWf_wipeSlot {s : State} (w : s.memWf = true) : s.wipeSlot.memWf = true := by
  simp only [State.memWf, Bool.and_eq_true] at w ⊢
  exact ⟨w.1, risingFrom_clearRange _ _ _ w.2⟩

/-- Memory after reset is in canonical form. -/
theorem State.memWf_reset : State.reset.memWf = true := rfl

/-! ### Reading what was written -/

/-- Writing the byte that an address of chamber, gallery or near memory holds reads back. -/
theorem cellAt_set0 (m : List Host.Cell) (a c : Nat) (b : Byte) :
    (cellAt (cellSet0 m a b) c).getD 0 = if c = a then b else (cellAt m c).getD 0 := SMap.get_set m a c 0 b

theorem cellAt_put (m : List Host.Cell) (a c : Nat) (b : Byte) : cellAt (cellPut m a b) c = if c = a then some b else cellAt m c :=
  SMap.find?_put m a c b

end Sys2Proof.Machine
end

