-- ==== Sys2Proof/Laws/PerInstr.lean ====
section
/-!
SUPPORT. A statement made of each command as syntax: a command that has an instruction word is well formed, whatever its fields hold,
since a reserved field value has a meaning of its own (R207).
-/
namespace Sys2Proof.Laws.WordsFormed

/-- A command with an instruction word is well formed. -/
def Statement (i : Instr) : Prop := (wordOf i).isSome = true → i.wf = true

theorem op (x : Site) (f : FmtR) : Statement (.op x f) := fun _ => rfl
theorem addi (x : Site) (f : FmtI) : Statement (.addi x f) := fun _ => rfl
theorem andi (x : Site) (f : FmtI) : Statement (.andi x f) := fun _ => rfl
theorem ori (x : Site) (f : FmtI) : Statement (.ori x f) := fun _ => rfl
theorem xori (x : Site) (f : FmtI) : Statement (.xori x f) := fun _ => rfl
theorem slti (x : Site) (f : FmtI) : Statement (.slti x f) := fun _ => rfl
theorem sltiu (x : Site) (f : FmtI) : Statement (.sltiu x f) := fun _ => rfl
theorem shi (x : Site) (f : FmtS) : Statement (.shi x f) := fun _ => rfl
theorem lui (x : Site) (f : FmtU) : Statement (.lui x f) := fun _ => rfl
theorem fop (x : Site) (f : FmtR) : Statement (.fop x f) := fun _ => rfl
theorem ld (x : Site) (f : FmtM) : Statement (.ld x f) := fun _ => rfl
theorem loadDataArrive (x : Site) (k : Fin 8) : Statement (.loadDataArrive x k) := fun h => nomatch h
theorem st (x : Site) (f : FmtM) : Statement (.st x f) := fun _ => rfl
theorem br (x : Site) (f : FmtB) : Statement (.br x f) := fun _ => rfl
theorem jmp (x : Site) (f : FmtJ) : Statement (.jmp x f) := fun _ => rfl
theorem call (x : Site) (f : FmtJ) : Statement (.call x f) := fun _ => rfl
theorem jmpr (x : Site) (f : FmtK) : Statement (.jmpr x f) := fun _ => rfl
theorem callr (x : Site) (f : FmtK) : Statement (.callr x f) := fun _ => rfl
theorem ret (x : Site) (f : FmtK) : Statement (.ret x f) := fun _ => rfl
theorem xret (x : Site) (f : FmtK) : Statement (.xret x f) := fun _ => rfl
theorem retg (x : Site) (f : FmtK) : Statement (.retg x f) := fun _ => rfl
theorem gate (x : Site) (f : FmtG) : Statement (.gate x f) := fun _ => rfl
theorem rep (x : Site) (f : FmtP) : Statement (.rep x f) := fun _ => rfl
theorem repL (x : Site) (f : FmtL) : Statement (.repL x f) := fun _ => rfl
theorem crd (x : Site) (f : FmtX) : Statement (.crd x f) := fun _ => rfl
theorem cwr (x : Site) (f : FmtX) : Statement (.cwr x f) := fun _ => rfl
theorem cswap (x : Site) (f : FmtX) : Statement (.cswap x f) := fun _ => rfl
theorem cadd (x : Site) (f : FmtX) : Statement (.cadd x f) := fun _ => rfl
theorem signal (x : Site) (f : FmtX) : Statement (.signal x f) := fun _ => rfl
theorem waitAny (x : Site) (f : FmtX) : Statement (.waitAny x f) := fun _ => rfl
theorem waitAll (x : Site) (f : FmtX) : Statement (.waitAll x f) := fun _ => rfl
theorem park (x : Site) (f : FmtX) : Statement (.park x f) := fun _ => rfl
theorem setpri (x : Site) (f : FmtX) : Statement (.setpri x f) := fun _ => rfl
theorem lseg (x : Site) (f : FmtX) : Statement (.lseg x f) := fun _ => rfl
theorem sseg (x : Site) (f : FmtX) : Statement (.sseg x f) := fun _ => rfl
theorem rdcyc (x : Site) (f : FmtX) : Statement (.rdcyc x f) := fun _ => rfl
theorem rdcych (x : Site) (f : FmtX) : Statement (.rdcych x f) := fun _ => rfl
theorem settmr (x : Site) (f : FmtX) : Statement (.settmr x f) := fun _ => rfl
theorem trdZero (x : Site) (f : FmtX) : Statement (.trdZero x f) := fun _ => rfl
theorem trdSat (x : Site) (f : FmtX) : Statement (.trdSat x f) := fun _ => rfl
theorem trdNan (x : Site) (f : FmtX) : Statement (.trdNan x f) := fun _ => rfl
theorem tclr (x : Site) (f : FmtX) : Statement (.tclr x f) := fun _ => rfl
theorem qdisc (x : Site) (f : FmtX) : Statement (.qdisc x f) := fun _ => rfl
theorem rsrd (x : Site) (f : FmtX) : Statement (.rsrd x f) := fun _ => rfl
theorem rswr (x : Site) (f : FmtX) : Statement (.rswr x f) := fun _ => rfl
theorem rdver (x : Site) (f : FmtX) : Statement (.rdver x f) := fun _ => rfl
theorem rdflt (x : Site) (f : FmtX) : Statement (.rdflt x f) := fun _ => rfl
theorem brk (x : Site) (f : FmtX) : Statement (.brk x f) := fun _ => rfl
theorem fence (x : Site) (f : FmtF) : Statement (.fence x f) := fun _ => rfl
theorem publish (x : Site) (f : FmtF) : Statement (.publish x f) := fun _ => rfl
theorem wrch (x : Site) (f : FmtC) : Statement (.wrch x f) := fun _ => rfl
theorem wrchb (x : Site) (f : FmtC) : Statement (.wrchb x f) := fun _ => rfl
theorem close (x : Site) (f : FmtC) : Statement (.close x f) := fun _ => rfl
theorem messageDepart (c : CoreId) (ch : Fin 32) : Statement (.messageDepart c ch) := fun h => nomatch h
theorem recv (x : Site) (f : FmtC) : Statement (.recv x f) := fun _ => rfl
theorem rfree (x : Site) (f : FmtC) : Statement (.rfree x f) := fun _ => rfl
theorem sumparm (x : Site) (f : FmtC) : Statement (.sumparm x f) := fun _ => rfl
theorem arrive (x : Site) (f : FmtC) : Statement (.arrive x f) := fun _ => rfl
theorem waitb (x : Site) (f : FmtC) : Statement (.waitb x f) := fun _ => rfl
theorem vop (x : Site) (f : FmtVop) : Statement (.vop x f) := fun _ => rfl
theorem vfma (x : Site) (f : FmtVfma) : Statement (.vfma x f) := fun _ => rfl
theorem vcmp (x : Site) (f : FmtVcmp) : Statement (.vcmp x f) := fun _ => rfl
theorem vperm (x : Site) (f : FmtVperm) : Statement (.vperm x f) := fun _ => rfl
theorem vmac (x : Site) (f : FmtVmac) : Statement (.vmac x f) := fun _ => rfl
theorem vaddac (x : Site) (f : FmtVmac) : Statement (.vaddac x f) := fun _ => rfl
theorem vred (x : Site) (f : FmtVred) : Statement (.vred x f) := fun _ => rfl
theorem vcvt (x : Site) (f : FmtVcvt) : Statement (.vcvt x f) := fun _ => rfl
theorem vtr (x : Site) (f : FmtVtr) : Statement (.vtr x f) := fun _ => rfl
theorem vld (x : Site) (f : FmtVls) : Statement (.vld x f) := fun _ => rfl
theorem vst (x : Site) (f : FmtVls) : Statement (.vst x f) := fun _ => rfl
theorem vmvf (x : Site) (f : FmtVmv) : Statement (.vmvf x f) := fun _ => rfl
theorem vmvt (x : Site) (f : FmtVmv) : Statement (.vmvt x f) := fun _ => rfl
theorem vmask (x : Site) (f : FmtVmask) : Statement (.vmask x f) := fun _ => rfl
theorem tcfg (x : Site) (form : TcfgForm) (f : FmtTcfg) : Statement (.tcfg x form f) := fun _ => rfl
theorem tshr (x : Site) (f : FmtTcfg) : Statement (.tshr x f) := fun _ => rfl
theorem tld (x : Site) (f : FmtTls) : Statement (.tld x f) := fun _ => rfl
theorem tst (x : Site) (f : FmtTls) : Statement (.tst x f) := fun _ => rfl
theorem tldx (x : Site) (f : FmtTldx) : Statement (.tldx x f) := fun _ => rfl
theorem tzero (x : Site) (f : FmtTzero) : Statement (.tzero x f) := fun _ => rfl
theorem mma (x : Site) (f : FmtMma) : Statement (.mma x f) := fun _ => rfl
theorem mmaCommit (c : CoreId) : Statement (.mmaCommit c) := fun h => nomatch h
theorem matrixRest (c : CoreId) : Statement (.matrixRest c) := fun h => nomatch h
theorem admissionWindowOpen : Statement (.admissionWindowOpen) := fun h => nomatch h
theorem admissionGroupSlot (g : Fin 12) : Statement (.admissionGroupSlot g) := fun h => nomatch h
theorem token (x : Site) (f : FmtToken) : Statement (.token x f) := fun _ => rfl
theorem tokenComplete (c : CoreId) (q : Fin 3) : Statement (.tokenComplete c q) := fun h => nomatch h
theorem dmaq (x : Site) (f : FmtDmaq) : Statement (.dmaq x f) := fun _ => rfl
theorem coreDmaStart (c : CoreId) : Statement (.coreDmaStart c) := fun h => nomatch h
theorem coreDmaComplete (c : CoreId) : Statement (.coreDmaComplete c) := fun h => nomatch h
theorem exceptionEntry (x : Site) : Statement (.exceptionEntry x) := fun h => nomatch h
theorem doubleFaultEntry (x : Site) : Statement (.doubleFaultEntry x) := fun h => nomatch h
theorem coreReset (c : CoreId) : Statement (.coreReset c) := fun h => nomatch h
theorem badAir (c : CoreId) : Statement (.badAir c) := fun h => nomatch h
theorem cycleTimerMatch (x : Site) : Statement (.cycleTimerMatch x) := fun h => nomatch h
theorem bankAccess (b : Bank) (arrivals : List BankReq) (det : CheckBits) : Statement (.bankAccess b arrivals det) := fun h => nomatch h
theorem requestPromote (b : Bank) (i : Nat) : Statement (.requestPromote b i) := fun h => nomatch h
theorem nearMemoryAccess (r : BurstReq) (det : BurstCheck) : Statement (.nearMemoryAccess r det) := fun h => nomatch h
theorem patrolRead (h : HallId) (burst : Nat) (det : BurstCheck) : Statement (.patrolRead h burst det) := fun h => nomatch h
theorem interfaceRetrain (h : HallId) (i : Fin 4) (crc : Bool) (ok : Bool) : Statement (.interfaceRetrain h i crc ok) := fun h => nomatch h
theorem cxlAccess (r : BurstReq) (reply : CxlReply) : Statement (.cxlAccess r reply) := fun h => nomatch h
theorem cxlRequestTimeout (p : Fin 2) (l : Fin 4) : Statement (.cxlRequestTimeout p l) := fun h => nomatch h
theorem cxlLinkDown (p : Fin 2) (l : Fin 4) : Statement (.cxlLinkDown p l) := fun h => nomatch h
theorem cxlLinkTrained (p : Fin 2) (l : Fin 4) (width : Nat) (rate : Fin 3) (cap : BitVec 16) : Statement (.cxlLinkTrained p l width rate cap) := fun h => nomatch h
theorem channelMessage (c : CoreId) (m : Message) : Statement (.channelMessage c m) := fun h => nomatch h
theorem sumpContribution (c : CoreId) (m : Message) : Statement (.sumpContribution c m) := fun h => nomatch h
theorem creditReturn (c : CoreId) (ch : Fin 32) (member : Nat) : Statement (.creditReturn c ch member) := fun h => nomatch h
theorem sumpDrain (c : CoreId) (u : Fin 32) : Statement (.sumpDrain c u) := fun h => nomatch h
theorem barrierArrive (h : HallId) (b : Fin 80) (src : ArriveAt) : Statement (.barrierArrive h b src) := fun h => nomatch h
theorem barrierRelease (c : CoreId) (b : Fin 80) : Statement (.barrierRelease c b) := fun h => nomatch h
theorem commitGo (a : Agent) (page : PageNo) : Statement (.commitGo a page) := fun h => nomatch h
theorem commitRevert (a : Agent) (page : PageNo) : Statement (.commitRevert a page) := fun h => nomatch h
theorem commitCheckEnd (page : PageNo) : Statement (.commitCheckEnd page) := fun h => nomatch h
theorem commitApply (page : PageNo) : Statement (.commitApply page) := fun h => nomatch h
theorem commitTimeout (page : PageNo) : Statement (.commitTimeout page) := fun h => nomatch h
theorem errClear (a : Agent) (page : PageNo) (v : Word) : Statement (.errClear a page v) := fun h => nomatch h
theorem errInj (a : Agent) (page : PageNo) (v : Word) : Statement (.errInj a page v) := fun h => nomatch h
theorem registerWrite (a : Agent) (page : PageNo) (off : BitVec 12) (v : Word) : Statement (.registerWrite a page off v) := fun h => nomatch h
theorem counterLowHalfRead (a : Agent) (page : PageNo) (off : BitVec 12) : Statement (.counterLowHalfRead a page off) := fun h => nomatch h
theorem exterrRead (a : Agent) (h : HallId) : Statement (.exterrRead a h) := fun h => nomatch h
theorem knoticeRead (a : Agent) (h : HallId) : Statement (.knoticeRead a h) := fun h => nomatch h
theorem hallStart (a : Agent) (h : HallId) : Statement (.hallStart a h) := fun h => nomatch h
theorem hallColumnStart (h : HallId) : Statement (.hallColumnStart h) := fun h => nomatch h
theorem hallStop (a : Agent) (h : HallId) : Statement (.hallStop a h) := fun h => nomatch h
theorem hallStopped (h : HallId) : Statement (.hallStopped h) := fun h => nomatch h
theorem dripWrite (a : Agent) (u : DripUnit) (v : Word) : Statement (.dripWrite a u v) := fun h => nomatch h
theorem sumpRoundWrite (a : Agent) (c : CoreId) (u : Fin 32) (v : Word) : Statement (.sumpRoundWrite a c u v) := fun h => nomatch h
theorem saltWrite (a : Agent) (h : HallId) (v : Word) : Statement (.saltWrite a h v) := fun h => nomatch h
theorem tallyClr (a : Agent) (u : TallyUnit) (v : Word) : Statement (.tallyClr a u v) := fun h => nomatch h
theorem qctlDiscard (a : Agent) (c : CoreId) (v : Word) : Statement (.qctlDiscard a c v) := fun h => nomatch h
theorem tableRegisterWrite (a : Agent) (c : CoreId) (r : TableReg) (v : Word) : Statement (.tableRegisterWrite a c r v) := fun h => nomatch h
theorem lanternHalt (a : Agent) (x : Site) : Statement (.lanternHalt a x) := fun h => nomatch h
theorem lanternDeliver (a : Agent) (x : Site) : Statement (.lanternDeliver a x) := fun h => nomatch h
theorem lanternResume (a : Agent) (x : Site) : Statement (.lanternResume a x) := fun h => nomatch h
theorem channelAbort (a : Agent) (c : CoreId) (v : Word) : Statement (.channelAbort a c v) := fun h => nomatch h
theorem queueProdWrite (a : Agent) (h : HallId) (n : Fin 9) (q : Fin 4) (v : Word) : Statement (.queueProdWrite a h n q v) := fun h => nomatch h
theorem queueResume (a : Agent) (h : HallId) (n : Fin 9) (q : Fin 4) : Statement (.queueResume a h n q) := fun h => nomatch h
theorem queueDiscard (a : Agent) (h : HallId) (n : Fin 9) (q : Fin 4) (all : Bool) : Statement (.queueDiscard a h n q all) := fun h => nomatch h
theorem descriptorStart (h : HallId) (n : Fin 9) (q : Fin 4) : Statement (.descriptorStart h n q) := fun h => nomatch h
theorem descriptorComplete (h : HallId) (n : Fin 9) (q : Fin 4) : Statement (.descriptorComplete h n q) := fun h => nomatch h
theorem nop (h : HallId) (n : Fin 9) (q : Fin 4) : Statement (.nop h n q) := fun h => nomatch h
theorem pool (h : HallId) (q : Fin 4) : Statement (.pool h q) := fun h => nomatch h
theorem scatter (h : HallId) (q : Fin 4) : Statement (.scatter h q) := fun h => nomatch h
theorem sort (h : HallId) (q : Fin 4) : Statement (.sort h q) := fun h => nomatch h
theorem topk (h : HallId) (q : Fin 4) : Statement (.topk h q) := fun h => nomatch h
theorem sample (h : HallId) (q : Fin 4) : Statement (.sample h q) := fun h => nomatch h
theorem expand (h : HallId) (q : Fin 4) : Statement (.expand h q) := fun h => nomatch h
theorem sm4Encrypt (h : HallId) (q : Fin 4) : Statement (.sm4Encrypt h q) := fun h => nomatch h
theorem sm4Decrypt (h : HallId) (q : Fin 4) : Statement (.sm4Decrypt h q) := fun h => nomatch h
theorem sm3 (h : HallId) (q : Fin 4) : Statement (.sm3 h q) := fun h => nomatch h
theorem copy (h : HallId) (d : Fin 4) (q : Fin 4) (host : List Byte) : Statement (.copy h d q host) := fun h => nomatch h
theorem fill (h : HallId) (d : Fin 4) (q : Fin 4) : Statement (.fill h d q) := fun h => nomatch h
theorem scrub (h : HallId) (d : Fin 4) (q : Fin 4) (bad : Option Nat) : Statement (.scrub h d q bad) := fun h => nomatch h
theorem progKick (a : Agent) (h : HallId) (v : Word) : Statement (.progKick a h v) := fun h => nomatch h
theorem progressFire (h : HallId) : Statement (.progressFire h) := fun h => nomatch h
theorem cgo (a : Agent) (h : HallId) (v : Word) : Statement (.cgo a h v) := fun h => nomatch h
theorem cairnPageCopied (h : HallId) : Statement (.cairnPageCopied h) := fun h => nomatch h
theorem cairnComplete (h : HallId) : Statement (.cairnComplete h) := fun h => nomatch h
theorem cairnFail (h : HallId) (why : CairnWhy) : Statement (.cairnFail h why) := fun h => nomatch h
theorem ckctlLoad (a : Agent) (h : HallId) : Statement (.ckctlLoad a h) := fun h => nomatch h
theorem ckctlClear (a : Agent) (h : HallId) : Statement (.ckctlClear a h) := fun h => nomatch h
theorem restore (a : Agent) (h : HallId) (v : Word) : Statement (.restore a h v) := fun h => nomatch h
theorem restoreComplete (h : HallId) (remote : Option (List Byte)) : Statement (.restoreComplete h remote) := fun h => nomatch h
theorem coreHardFault (h : HallId) (p : Position) (cause : HardFault) : Statement (.coreHardFault h p cause) := fun h => nomatch h
theorem suspect (a : Agent) (h : HallId) (v : Word) : Statement (.suspect a h v) := fun h => nomatch h
theorem selfTestEnd (h : HallId) (failed : List Position) : Statement (.selfTestEnd h failed) := fun h => nomatch h
theorem readmit (a : Agent) (h : HallId) (v : Word) : Statement (.readmit a h v) := fun h => nomatch h
theorem bridgeFailure (b : Fin 126) : Statement (.bridgeFailure b) := fun h => nomatch h
theorem sqTailWrite (a : Agent) (h : HallId) (v : Word) : Statement (.sqTailWrite a h v) := fun h => nomatch h
theorem sqHeadWrite (a : Agent) (h : HallId) (v : Word) : Statement (.sqHeadWrite a h v) := fun h => nomatch h
theorem cqHeadWrite (a : Agent) (h : HallId) (v : Word) : Statement (.cqHeadWrite a h v) := fun h => nomatch h
theorem cqPost (a : Agent) (h : HallId) (v : Word) : Statement (.cqPost a h v) := fun h => nomatch h
theorem raise (a : Agent) (h : HallId) (v : Word) : Statement (.raise a h v) := fun h => nomatch h
theorem bar2Access (r : HostReq) : Statement (.bar2Access r) := fun h => nomatch h
theorem hostBar0Access (w : BarWin) (r : HostReq) : Statement (.hostBar0Access w r) := fun h => nomatch h
theorem hostReadFail (h : HallId) (d : Fin 4) (q : Fin 4) : Statement (.hostReadFail h d q) := fun h => nomatch h
theorem vfFlr (h : HallId) : Statement (.vfFlr h) := fun h => nomatch h
theorem pf0Flr : Statement (.pf0Flr) := fun h => nomatch h
theorem pcieReset (k : PcieReset) : Statement (.pcieReset k) := fun h => nomatch h
theorem pcieLinkUp (u : LinkUp) : Statement (.pcieLinkUp u) := fun h => nomatch h
theorem lockInterfaceRequest (h : HallId) (session : Option Nat) (stream : Fin 8) : Statement (.lockInterfaceRequest h session stream) := fun h => nomatch h
theorem startInterfaceRequest (h : HallId) : Statement (.startInterfaceRequest h) := fun h => nomatch h
theorem stopInterfaceRequest (h : HallId) : Statement (.stopInterfaceRequest h) := fun h => nomatch h
theorem endOfTenancy (e : TdiEnd) : Statement (.endOfTenancy e) := fun h => nomatch h
theorem scrubReq (a : Agent) (v : Word) : Statement (.scrubReq a v) := fun h => nomatch h
theorem hallScrubEnd (h : HallId) (bad : Bool) : Statement (.hallScrubEnd h bad) := fun h => nomatch h
theorem scrubTimeout (h : HallId) : Statement (.scrubTimeout h) := fun h => nomatch h
theorem spdmGetCertificate (slot : Fin 8) : Statement (.spdmGetCertificate slot) := fun h => nomatch h
theorem spdmChallenge (slot : Fin 8) (nonce : List Byte) : Statement (.spdmChallenge slot nonce) := fun h => nomatch h
theorem spdmGetMeasurements (idx : List (BitVec 8)) (nonce : List Byte) : Statement (.spdmGetMeasurements idx nonce) := fun h => nomatch h
theorem spdmKeyExchange (share : List Byte) : Statement (.spdmKeyExchange share) := fun h => nomatch h
theorem rollfwd (a : Agent) (v : Word) : Statement (.rollfwd a v) := fun h => nomatch h
theorem updBegin (a : Agent) : Statement (.updBegin a) := fun h => nomatch h
theorem updData (a : Agent) (v : Word) : Statement (.updData a v) := fun h => nomatch h
theorem updVerify (a : Agent) : Statement (.updVerify a) := fun h => nomatch h
theorem updActivate (a : Agent) : Statement (.updActivate a) := fun h => nomatch h
theorem updAbort (a : Agent) : Statement (.updAbort a) := fun h => nomatch h
theorem handoverTimeout : Statement (.handoverTimeout) := fun h => nomatch h
theorem yarlinkPortUp (p : PortId) (peer : Option (BitVec 18)) (proven : Bool) (lanes : BitVec 8) :
    Statement (.yarlinkPortUp p peer proven lanes) := fun h => nomatch h
theorem portFail (p : PortId) : Statement (.portFail p) := fun h => nomatch h
theorem flitReceive (p : PortId) (f : RxFlit) : Statement (.flitReceive p f) := fun h => nomatch h
theorem flitReplay (p : PortId) : Statement (.flitReplay p) := fun h => nomatch h
theorem laneFail (p : PortId) (l : Fin 8) : Statement (.laneFail p l) := fun h => nomatch h
theorem yarlinkRetrain (p : PortId) (lanes : BitVec 8) : Statement (.yarlinkRetrain p lanes) := fun h => nomatch h
theorem keyRollover (k : KeyRoll) : Statement (.keyRollover k) := fun h => nomatch h
theorem packetRoute (inp : Option PortId) : Statement (.packetRoute inp) := fun h => nomatch h
theorem remoteWrite (inp : Option PortId) (p : Packet) : Statement (.remoteWrite inp p) := fun h => nomatch h
theorem remoteReadRequest (inp : Option PortId) (p : Packet) : Statement (.remoteReadRequest inp p) := fun h => nomatch h
theorem snapshotCopy (inp : Option PortId) (p : Packet) : Statement (.snapshotCopy inp p) := fun h => nomatch h
theorem readReply (who : Requester) (p : Packet) : Statement (.readReply who p) := fun h => nomatch h
theorem writeAcknowledgement (who : Requester) (p : Packet) : Statement (.writeAcknowledgement who p) := fun h => nomatch h
theorem remoteRequestTimeout (who : Requester) (tag : BitVec 12) : Statement (.remoteRequestTimeout who tag) := fun h => nomatch h
theorem intervalEnd (m : Telemetry) : Statement (.intervalEnd m) := fun h => nomatch h
theorem ceilingRise (r : Fin 5) : Statement (.ceilingRise r) := fun h => nomatch h
theorem powerStateChange : Statement (.powerStateChange) := fun h => nomatch h
theorem currentAlert : Statement (.currentAlert) := fun h => nomatch h
theorem currentAlertClear : Statement (.currentAlertClear) := fun h => nomatch h
theorem thermalTrip : Statement (.thermalTrip) := fun h => nomatch h
theorem sysThrotAssert : Statement (.sysThrotAssert) := fun h => nomatch h
theorem sysThrotDeassert : Statement (.sysThrotDeassert) := fun h => nomatch h
theorem droopStretch (h : HallId) (n : Nat) : Statement (.droopStretch h n) := fun h => nomatch h
theorem modrst (a : Agent) (v : Word) : Statement (.modrst a v) := fun h => nomatch h
theorem referenceLoss : Statement (.referenceLoss) := fun h => nomatch h
theorem referenceRestored : Statement (.referenceRestored) := fun h => nomatch h
theorem powerOn (failed : List (HallId × Fin 4)) : Statement (.powerOn failed) := fun h => nomatch h
theorem powerOff : Statement (.powerOff) := fun h => nomatch h
theorem bypass : Statement (.bypass) := fun h => nomatch h
theorem idcode : Statement (.idcode) := fun h => nomatch h
theorem samplePreload (pins : List Bool) (load : List Bool) : Statement (.samplePreload pins load) := fun h => nomatch h
theorem extest : Statement (.extest) := fun h => nomatch h
theorem clamp : Statement (.clamp) := fun h => nomatch h
theorem highz : Statement (.highz) := fun h => nomatch h
theorem testLogicReset : Statement (.testLogicReset) := fun h => nomatch h
theorem pldmGetSensorReading (id : BitVec 16) : Statement (.pldmGetSensorReading id) := fun h => nomatch h
theorem pldmRequestUpdate : Statement (.pldmRequestUpdate) := fun h => nomatch h
theorem pldmActivateFirmware : Statement (.pldmActivateFirmware) := fun h => nomatch h
theorem updEraseComplete : Statement (.updEraseComplete) := fun h => nomatch h
theorem updVerifyComplete : Statement (.updVerifyComplete) := fun h => nomatch h
theorem handoverComplete : Statement (.handoverComplete) := fun h => nomatch h
theorem readmitComplete (h : HallId) (pass : Bool) : Statement (.readmitComplete h pass) := fun h => nomatch h
theorem pcieLinkNotBroughtUp : Statement (.pcieLinkNotBroughtUp) := fun h => nomatch h
theorem perstNDeassert : Statement (.perstNDeassert) := fun h => nomatch h
theorem configurationRequest (fn : Option HallId) (r : CfgReq) : Statement (.configurationRequest fn r) := fun h => nomatch h
theorem spdmNegotiateAlgorithms (g : SpdmAlgs) : Statement (.spdmNegotiateAlgorithms g) := fun h => nomatch h
theorem ideKm (session : Nat) (m : IdeKm) : Statement (.ideKm session m) := fun h => nomatch h

end Sys2Proof.Laws.WordsFormed
end

