-- ==== Sys2Proof/Tests/Slice0.lean ====
section
/-!
SUPPORT. Tests of the model: well-formed and ill-formed commands, words of instructions, single steps, and for each statement a state
and operands that meet its hypotheses.
-/
namespace Sys2Proof.Tests
open Sys2Proof.Machine

set_option maxRecDepth 20000
set_option exponentiation.threshold 4000

/-! ### States -/

/-- Thread 0 of core 0, which lies in hall 0. -/
def x0 : Site := ⟨0, 0⟩

/-- The whole chamber of core 0, readable, writable and executable from ring 3. -/
def own : SegImage := mkSeg (chamberBase 0) 0xFFFF 1 true true true 3 true

/-- A thread that runs in ring 0 at index 16, with registers 1 to 3 and segments 0 to 2. -/
def thr : Thread :=
  { Thread.zero with run := .active, pc := 16, regs := [(1, 5), (2, 64), (3, 0xFFFFFFFF)], segs := [(0, own), (1, own), (2, own)] }

/-- Core 0 with this thread 0. -/
def one (t : Thread) : Core := { Core.zero with threads := [(0, t)] }

/-- Hall 0 runs, and core 0 is `k`. -/
def runs (k : Core) : State := { (State.reset.setHallState 0 2) with cores := [(0, k)] }

/-- Hall 0 runs, and core 0 has thread 0 of `thr`. -/
def st : State := runs (one thr)

/-! ### Well-formed commands -/

def msg (n : Nat) : Message := { target := 0, sender := none, rank := 0, data := List.replicate n 0 }
def pkt (kind : BitVec 4) (len : Nat) (data : List Byte) : Packet :=
  { kind := kind, err := false, len := len, src := 0, dst := 0, target := 0, tag := 0, data := data }

theorem test_wf_instruction : (Instr.addi x0 ⟨1, 2, 3⟩).wf = true := by decide
theorem test_wf_credit : (Instr.creditReturn 0 0 1152).wf = false := by decide
theorem test_wf_burst : (Instr.nearMemoryAccess ⟨.keeper, 60, 8, none⟩ ⟨.good, 0⟩).wf = false := by decide
theorem test_wf_patrol : (Instr.patrolRead 0 1207959552 ⟨.good, 0⟩).wf = false := by decide
theorem test_wf_tier : (Instr.cxlAccess ⟨.keeper, 0, 2, some [1]⟩ ⟨false, 0⟩).wf = false := by decide
theorem test_wf_link : (Instr.cxlLinkTrained 0 0 5 0 0).wf = false := by decide
theorem test_wf_write : (Instr.remoteWrite none (pkt 0 1 [])).wf = false := by decide
theorem test_wf_read : (Instr.remoteReadRequest none (pkt 0 1 [])).wf = false := by decide
theorem test_wf_snapshot : (Instr.snapshotCopy none (pkt 0 1 [1])).wf = false := by decide
theorem test_wf_reply : (Instr.readReply (.dma 0 0) (pkt 4 0 [])).wf = false := by decide
theorem test_wf_ack : (Instr.writeAcknowledgement (.dma 0 0) (pkt 3 0 [])).wf = false := by decide

/-! ### Words, from the fields of R134, R170, R185, R186, R200, R202 and R203 -/

theorem test_word_addi : ofWord x0 0x0430FFFF = some (.addi x0 ⟨3, 1, 0x7FFF⟩) := by decide
theorem test_word_op : ofWord x0 0x02308800 = some (.op x0 ⟨3, 1, 2, 0⟩) := by decide
theorem test_word_ld : ofWord x0 0x20411801 = some (.ld x0 ⟨4, 2, 1, 2, 0, 0, 1⟩) := by decide
theorem test_word_br : ofWord x0 0x30111FFE = some (.br x0 ⟨1, 2, 1, 0xFFE⟩) := by decide
theorem test_word_gate : ofWord x0 0x3C000005 = some (.gate x0 ⟨0, 5⟩) := by decide
theorem test_word_rep : ofWord x0 0x38008000 = some (.rep x0 ⟨0, 1, 0⟩) := by decide
theorem test_word_repL : ofWord x0 0x3A000003 = some (.repL x0 ⟨0, 3⟩) := by decide
theorem test_word_fence : ofWord x0 0x48110000 = some (.fence x0 ⟨1, 1, 0⟩) := by decide
theorem test_word_publish : ofWord x0 0x49100000 = some (.publish x0 ⟨1, 0, 0⟩) := by decide
theorem test_word_signal : ofWord x0 0x40010408 = some (.signal x0 ⟨0, 2, 1⟩) := by decide
theorem test_word_arrive : ofWord x0 0x5000001E = some (.arrive x0 ⟨0, 0, 0, 3⟩) := by decide
theorem test_word_vop : ofWord x0 0xA0247300 = some (.vop x0 ⟨1, 2, 3, 9, 8, 0⟩) := by decide
theorem test_word_tzero : ofWord x0 0xC6000003 = some (.tzero x0 ⟨0, 3⟩) := by decide
theorem test_word_mma : ofWord x0 0xC8025000 = some (.mma x0 ⟨0, 1, 2, 1, 0, 0, 0⟩) := by decide
theorem test_word_token : ofWord x0 0xCA940000 = some (.token x0 ⟨1, 5, 0⟩) := by decide
/-- Opcode 0 is reserved (R186). -/
theorem test_word_zero : ofWord x0 0 = none := by decide

/-! ### Scalar instructions -/

theorem wit_IdleTick : st.pending = [] ∧ risingFrom 0 st.cores = true ∧ st.running = true ∧ st.slowest = st.powerState ∧
    (st.hall 0).corePhase + 1 < (st.hall 0).coreLen := by decide
theorem wit_IdleTick_cycle : let v : Hall := { Hall.zero with corePhase := 7 }
    v.corePhase + 1 = v.coreLen ∧ v.stretch = 0 := by decide
theorem wit_IdleTick_stretch : let v : Hall := { Hall.zero with corePhase := 7, stretch := 3 }
    v.corePhase + 1 = v.coreLen ∧ 0 < v.stretch := by decide
theorem wit_CommandsAnswer : ({ st with vin := false } : State).running = false ∧ wordOf (.coreReset 0) = none ∧
    actsAlways (.coreReset 0) = false ∧ actsInRecovery (.coreReset 0) = false := by decide
theorem wit_CommandsAnswer_park : State.reset.canIssue x0 (.addi x0 ⟨1, 2, 3⟩) = false := by decide
theorem wit_ScalarRegisters : ({ thr with rep := some ⟨0x0430FFFF, some 1, 2⟩ } : Thread).rep = some ⟨0x0430FFFF, some 1, 2⟩ ∧
    ({ thr with haltReq := true } : Thread).rep = none := by decide
theorem wit_ArithmeticResults : st.ready x0 (.addi x0 ⟨3, 1, 1⟩) = true ∧ st.ready x0 (.andi x0 ⟨3, 1, 1⟩) = true ∧
    st.ready x0 (.ori x0 ⟨3, 1, 1⟩) = true ∧ st.ready x0 (.xori x0 ⟨3, 1, 1⟩) = true ∧ st.ready x0 (.slti x0 ⟨3, 1, 1⟩) = true ∧
    st.ready x0 (.sltiu x0 ⟨3, 1, 1⟩) = true ∧ st.ready x0 (.shi x0 ⟨3, 1, 2, 0, 31⟩) = true ∧
    st.ready x0 (.lui x0 ⟨3, 1⟩) = true ∧ st.ready x0 (.op x0 ⟨3, 1, 2, 0x14⟩) = true := by decide
theorem wit_FopResults : st.ready x0 (.fop x0 ⟨3, 1, 2, 12⟩) = true := by decide
theorem wit_JumpsAndCalls : st.ready x0 (.br x0 ⟨1, 2, 5, 0xFFE⟩) = true ∧ st.ready x0 (.jmp x0 ⟨0, 9⟩) = true ∧
    st.ready x0 (.jmpr x0 ⟨0, 1, 0⟩) = true ∧ st.ready x0 (.call x0 ⟨0, 9⟩) = true ∧ st.ready x0 (.callr x0 ⟨0, 1, 0⟩) = true ∧
    (st.thread x0).rsDepth < 16 := by decide
theorem wit_JumpsAndCalls_ret : let s := runs (one { thr with rsDepth := 1 })
    s.ready x0 (.ret x0 ⟨0, 0, 0⟩) = true ∧ 0 < (s.thread x0).rsDepth := by decide
theorem wit_RegistersOfACore : st.ready x0 (.crd x0 ⟨3, 0, 15⟩) = true ∧ st.ready x0 (.cwr x0 ⟨0, 1, 15⟩) = true ∧
    st.ready x0 (.cswap x0 ⟨3, 1, 15⟩) = true ∧ st.ready x0 (.cadd x0 ⟨3, 1, 15⟩) = true ∧ st.ready x0 (.rsrd x0 ⟨3, 0, 16⟩) = true ∧
    st.ready x0 (.rswr x0 ⟨0, 1, 15⟩) = true ∧ st.ready x0 (.trdZero x0 ⟨3, 0, 15⟩) = true ∧
    st.ready x0 (.trdSat x0 ⟨3, 0, 0⟩) = true ∧ st.ready x0 (.trdNan x0 ⟨3, 0, 1⟩) = true ∧ st.ready x0 (.tclr x0 ⟨0, 0, 1⟩) = true := by
  decide
theorem wit_Signal : st.ready x0 (.signal x0 ⟨0, 1, 3⟩) = true := by decide
theorem wit_WaitsAndThreadControls : st.ready x0 (.waitAny x0 ⟨3, 1, 0⟩) = true ∧ st.ready x0 (.waitAll x0 ⟨3, 1, 0⟩) = true ∧
    st.ready x0 (.park x0 ⟨0, 0, 0⟩) = true ∧ st.ready x0 (.setpri x0 ⟨0, 0, 3⟩) = true ∧ st.ready x0 (.rdcyc x0 ⟨3, 0, 0⟩) = true ∧
    st.ready x0 (.rdcych x0 ⟨3, 0, 0⟩) = true ∧ st.ready x0 (.settmr x0 ⟨0, 1, 2⟩) = true ∧ st.ready x0 (.rdver x0 ⟨3, 0, 0⟩) = true ∧
    st.ready x0 (.rdflt x0 ⟨3, 0, 3⟩) = true := by decide

/-! ### FENCE, PUBLISH and the repeat prefixes -/

theorem wit_Fence : st.ready x0 (.fence x0 ⟨0, 1, 0⟩) = true ∧ st.ready x0 (.fence x0 ⟨9, 1, 0⟩) = true ∧
    (st.core x0.core).fences.length < 4 := by decide
theorem wit_Publish : st.ready x0 (.publish x0 ⟨0, 0, 0⟩) = true ∧ st.ready x0 (.publish x0 ⟨15, 0, 0⟩) = true ∧
    (st.core x0.core).fences.length < 4 := by decide
theorem wit_Fence_fifth : let s := runs { one thr with fences := List.replicate 4 ⟨0, 1, 1, false⟩ }
    s.ready x0 (.fence x0 ⟨1, 1, 0⟩) = true ∧ s.ready x0 (.publish x0 ⟨1, 0, 0⟩) = true ∧ 4 ≤ (s.core x0.core).fences.length := by
  decide

/-- A word lies behind the prefix at index 16. -/
def behind (w : Word) : State := st.setBytes (chamberBase 0 + 68) (natBytes 4 w.toNat)
/-- What a fetch answers. -/
def fetched (r : State × Except SFault Word) : Option Word := match r.2 with | .ok w => some w | .error _ => none
/-- The instruction behind a prefix. -/
def paired (r : Except Nat Instr) : Option Instr := match r with | .ok i => some i | .error _ => none

theorem wit_Rep : let s := behind 0x04211801
    fetched (s.fetch x0 ((s.thread x0).pc + 1)) = some 0x04211801 ∧ s.ready x0 (.rep x0 ⟨0, 1, 0⟩) = true ∧
    s.ready x0 (.rep x0 ⟨0, 4, 0⟩) = true ∧ (paired (underPrefix x0 0 (some 1) 0x04211801)).isSome = true ∧
    (paired (underPrefix x0 0 (some 4) 0x04211801)).isSome = true ∧ s.reg x0 4 = 0 ∧ 0 < (s.reg x0 1).toNat ∧
    (s.reg x0 1).toNat < 2 ^ 16 := by decide
theorem wit_RepL : let s := behind 0x04211801
    fetched (s.fetch x0 ((s.thread x0).pc + 1)) = some 0x04211801 ∧ s.ready x0 (.repL x0 ⟨0, 0⟩) = true ∧
    s.ready x0 (.repL x0 ⟨0, 64⟩) = true ∧ (paired (underPrefix x0 0 none 0x04211801)).isSome = true ∧
    (s.thread x0).replCnt = none := by decide

/-! ### Segments, loads and stores -/

theorem wit_Segments : segCheck own 3 .read 16 4 4 = none ∧ segCheck 0 3 .read 16 4 4 = some 3 ∧
    segCheck (mkSeg 0 0 0 true true true 2 true) 3 .read 0 1 1 = some 7 ∧
    segCheck (mkSeg 0 0 0 false true true 3 true) 3 .read 0 1 1 = some 2 ∧
    segCheck (mkSeg 0 0 0 true true true 3 true) 3 .read 0 2 1 = some 1 ∧
    segCheck (mkSeg 1 3 0 true true true 3 true) 3 .read 0 2 2 = some 4 := by decide

/-- Memory that takes reads of core 0's chamber at an offset. -/
theorem wit_Loads : let a := segBase own + 68
    st.ready x0 (.ld x0 ⟨4, 2, 1, 2, 1, 0, 1⟩) = true ∧ segCheck own 0 .read (68 : Nat) 4 4 = none ∧ st.scalarHeld 0 = false ∧
    (st.thread x0).loads.length < 8 ∧ st.takesRead (.core x0) a 4 := by unfold State.takesRead; decide
theorem wit_Loads_held : let s := runs { one thr with
      fences := [⟨1, 2, 1, false⟩], vq := ⟨[⟨.vld x0 ⟨0, 0, 0, 0, 0, 0, 0⟩, 0, 0, 0, 0, [], [], .underWay, [], 0, 0⟩], none, none⟩
      issueSeq := 2 }
    s.ready x0 (.ld x0 ⟨4, 2, 1, 2, 1, 0, 1⟩) = true ∧ s.scalarHeld 0 = true := by decide
theorem wit_Loads_arrive : ({ thr with loads := [⟨4, 9, none⟩] } : Thread).loads[0]? = some ⟨4, 9, none⟩ := by decide
theorem wit_Lseg : let s := st.setBytes (chamberBase 0 + 64) (natBytes 16 own.toNat)
    let a := segBase own + 64
    s.ready x0 (.lseg x0 ⟨1, 2, 4⟩) = true ∧ segCheck own 0 .read (64 : Nat) 16 16 = none ∧ s.scalarHeld 0 = false ∧
    s.takesRead (.core x0) a 16 ∧ BitVec.ofNat 128 (bytesNat (s.bytesAt a 16)) = own ∧ chamberBase 0 ≤ a ∧
    a + 16 ≤ chamberBase 0 + 0x200000 ∧ segValid own = true ∧ 0 ≤ segRing own := by unfold State.takesRead; decide

/-- Chamber memory takes a write. -/
theorem chamber_takes (s : State) {a : Agent} (o n : Nat) (w : winOf (chamberBase 0 + o) = .chamber 0 o)
    (h : s.allBack a (chamberBase 0 + o) n = true ∧ s.writeStalls a (chamberBase 0 + o) n = false ∧
      s.protectedAt (chamberBase 0 + o) = false ∧ s.behindHeld a (chamberBase 0 + o) = false) :
    s.takesWrite a (chamberBase 0 + o) n :=
  ⟨h.1, h.2.1, h.2.2.1, h.2.2.2, fun _ _ _ _ e => by rw [w] at e; cases e⟩

theorem wit_Stores : st.quiet = true ∧ st.ready x0 (.st x0 ⟨1, 2, 1, 2, 1, 0, 0xFF⟩) = true ∧ segCheck own 0 .write (60 : Nat) 4 4 = none ∧
    st.ready x0 (.sseg x0 ⟨1, 2, 0⟩) = true ∧ segCheck own 0 .write (64 : Nat) 16 16 = none := by decide
theorem wit_Stores_takes : st.takesWrite (.core x0) (chamberBase 0 + 60) 4 ∧ st.takesWrite (.core x0) (chamberBase 0 + 64) 16 :=
  ⟨chamber_takes st 60 4 (by decide) (by decide), chamber_takes st 64 16 (by decide) (by decide)⟩

/-! ### Exceptions, gates and returns -/

/-- A table entry: code descriptor 0x100, handler at index 2, stack descriptor 0x101, target ring 0, present. -/
def tabEntry : Nat := 0x100 + 2 * 2 ^ 16 + 0x101 * 2 ^ 32 + 2 ^ 50
/-- Ring 0's whole chamber. -/
def own0 : SegImage := mkSeg (chamberBase 0) 0xFFFF 1 true true true 0 true
/-- A state whose ring 0 table at 0 holds that entry for a vector, with the descriptors it selects. -/
def table (k : Core) (v : Nat) : State :=
  let s := (runs k).setLive (corePage 0 0) 0xA00 1
  let s := s.setBytes (chamberBase 0 + 16 * v) (natBytes 16 tabEntry)
  (s.setBytes (chamberBase 0 + 0x1000) (natBytes 16 own0.toNat)).setBytes (chamberBase 0 + 0x1010) (natBytes 16 own0.toNat)

/-- An entry through vector `v` goes its whole way. -/
def entry (s : State) (v : Nat) : Bool :=
  !s.readsWait x0 (s.entryUnits x0 v) &&
  match s.chooseEntry x0 v (s.thread x0).ring.toNat with
  | (s1, .ok e) => match s1.handlerCode x0 e.codeSel e.hpc e.tring with
    | (s2, some _) => match s2.entryStack x0 e.stackSel e.tring (s.thread x0).ring.toNat with
      | (_, some stk) => !s.frameWaits x0 (segBase (frameWindow stk e.tring))
      | _ => false
    | _ => false
  | _ => false

theorem wit_Exceptions_brk : let s := table (one thr) 12
    s.ready x0 (.brk x0 ⟨0, 0, 0⟩) = true ∧ s.quiet = true ∧ entry s 12 = true := by decide
theorem wit_Exceptions_debug : let s := table (one { thr with deliverReq := true }) 13
    s.atBoundary x0 = true ∧ s.boundary x0 = some .debug ∧ entry s 13 = true := by decide
theorem wit_Exceptions_badAir : let s := table (one { thr with badAir := true }) 11
    s.atBoundary x0 = true ∧ s.boundary x0 = some .badAir ∧ entry s 11 = true := by decide
theorem wit_Exceptions_interrupt : let s := table (one { thr with intpend := 2, inten := 2 }) 33
    s.atBoundary x0 = true ∧ s.boundary x0 = some (.interrupt 33) ∧ entry s 33 = true := by decide
theorem wit_Exceptions_late : let s := table (one { thr with late := some 4 }) 4
    s.atBoundary x0 = true ∧ s.boundary x0 = some (.late 4) ∧ entry s 4 = true := by decide
theorem wit_Exceptions_queue : let s := table { one thr with vq := ⟨[], some ⟨0, 2, false, 0⟩, none⟩ } 2
    s.atBoundary x0 = true ∧ s.boundary x0 = some (.queue 1 2) ∧ entry s 2 = true := by decide

/-- A gate table at 0x2000 of one entry, which callers of every ring may use. -/
def gated : State :=
  let s := (table (one thr) 12).setLive (corePage 0 0) 0xA0C (BitVec.ofNat 32 (1 + 0x200 * 2 ^ 16))
  s.setBytes (chamberBase 0 + 0x2000) (natBytes 16 (tabEntry + 0xF * 2 ^ 52))
theorem wit_Gate : let s := gated
    let v : BitVec 128 := BitVec.ofNat 128 (tabEntry + 0xF * 2 ^ 52)
    s.ready x0 (.gate x0 ⟨0, 0⟩) = true ∧ 0 < fieldOf (s.liveWord (corePage 0 0) 0xA0C) 0 13 ∧ s.scalarHeld 0 = false ∧
    (s.chamber16 x0 0x2000).2 = some v ∧ (gateOf v).p = true ∧ (gateOf v).reserved = false ∧ (gateOf v).nargs ≤ 8 ∧
    bitOf (gateOf v).callers 0 = true ∧ (gateOf v).ring ≤ 0 ∧ fieldOf (s.liveWord (corePage 0 0) 0xA0C) 13 2 ≤ (gateOf v).ring ∧
    (s.handlerCode x0 (gateOf v).codeSel (gateOf v).entry 0).2.isSome = true ∧ gateArg (s.thread x0) (gateOf v) = none ∧
    (s.entryStack x0 0x101 0 0).2 = some own ∧ s.frameWaits x0 (segBase own + segExtent own - 96) = false := by decide

/-- A frame lies at the start of the chamber. -/
def framed (gate : Bool) : State :=
  st.setBytes (chamberBase 0) (frameBytes
    { seg0 := own, seg1 := own, seg2 := own, pc := 7, ring := 1, inh := true, df := false, gate := gate, repl := none, vector := 0,
      orig := 0, gateNum := 0, cause := 0, nargs := 0, qtaken := 0, args := [] })
theorem wit_Returns : let s := framed false
    let f := frameOf (s.busRead x0 (chamberBase 0) 96).data
    segCheck own 0 .read 0 96 16 = none ∧ s.scalarHeld 0 = false ∧ s.readStalls (.core x0) (chamberBase 0) 96 = false ∧
    (s.busRead x0 (chamberBase 0) 96).poison = false ∧ f.ring = 1 ∧ f.bad = false ∧ f.gate = false ∧
    s.ready x0 (.xret x0 ⟨0, 0, 0⟩) = true := by decide
theorem wit_Returns_gate : let s := framed true
    let f := frameOf (s.busRead x0 (chamberBase 0) 96).data
    f.ring = 1 ∧ f.bad = false ∧ f.gate = true ∧ s.ready x0 (.retg x0 ⟨0, 0, 0⟩) = true := by decide

/-- The emergency stack is descriptor 0x101. -/
def failedEntry : State := (table (one { thr with dfPend := some ⟨12, 3, 16, none, 0⟩ }) 15).setLive (corePage 0 0) 0xA10 0x10101
theorem wit_DoubleFaults : let s := failedEntry
    (s.thread x0).dfPend = some ⟨12, 3, 16, none, 0⟩ ∧ (s.thread x0).df = false ∧ s.readsWait x0 (s.emergencyUnits x0) = false ∧
    (s.emergency x0).2.isSome = true ∧ s.frameWaits x0 (segBase own0 + segExtent own0 - 96) = false := by decide
theorem wit_DoubleFaults_none : let s := runs (one { thr with dfPend := some ⟨12, 3, 16, none, 0⟩ })
    (s.thread x0).df = false ∧ s.readsWait x0 (s.emergencyUnits x0) = false ∧ (s.emergency x0).2.isSome = false := by decide
theorem wit_CoreEvents : let k : Core := { one { thr with wait := some (.any 1) } with airCount := 1024 }
    1024 ≤ k.airCount ∧ k.airCycle = true ∧ k.airThread = some 0 := by decide
theorem wit_CoreEvents_timer : let s := runs { one { thr with tmrcmp := 0x1 } with cycBase := 0 }
    let t := s.modHall 0 fun v => { v with cycles := 5 }
    (t.thread x0).tmrcmp ≠ 0 ∧ (t.thread x0).tmrcmp.toNat ≤ t.cycleOf 0 := by decide

/-! ### Queues, vector and tile instructions -/

theorem wit_Queues : captures thr (.vop x0 ⟨1, 2, 3, 9, 8, 0⟩) = some (x0, [], []) ∧ queueOf (.vop x0 ⟨1, 2, 3, 9, 8, 0⟩) = 1 ∧
    st.ready x0 (.vop x0 ⟨1, 2, 3, 9, 8, 0⟩) = true ∧ (st.core 0).vq.entries.length < 16 := by decide

/-- An entry of a queue. -/
def ent (i : Instr) (n : Nat) : QEntry := ⟨i, n, 0, 0, 16, [], [], .waiting, [], 0, 0⟩
theorem wit_Queues_full : let s := runs { one thr with mq := ⟨List.replicate 16 (ent (.tzero x0 ⟨0, 1⟩) 0), none, none⟩ }
    s.ready x0 (.tzero x0 ⟨0, 1⟩) = true ∧ 16 ≤ ((s.core 0).queue 0).entries.length := by decide
theorem wit_Queues_token : let s := runs { one thr with mq := ⟨[ent (.token x0 ⟨0, 5, 0⟩) 3], none, some ⟨0, 2, true, 4⟩⟩ }
    ((s.core 0).queue 0).entries = [ent (.token x0 ⟨0, 5, 0⟩) 3] ∧ ((s.core 0).queue 0).stop = none ∧
    (∀ m, ((s.core 0).queue 0).byMove = some m → 3 ≤ m.seq) ∧ s.writesHeld 0 2 3 = false :=
  ⟨by decide, by decide, fun m h => by cases h; decide, by decide⟩
theorem wit_Queues_qdisc : let s := runs { one thr with vq := ⟨[ent (.vld x0 ⟨0, 0, 0, 0, 0, 0, 0⟩) 3], some ⟨0, 2, true, 3⟩, none⟩ }
    s.ready x0 (.qdisc x0 ⟨0, 0, 1⟩) = true ∧ ((s.core 0).queue 1).stop = some ⟨0, 2, true, 3⟩ ∧
    st.ready x0 (.qdisc x0 ⟨0, 0, 4⟩) = true ∧ ((st.core 0).queue 0).stop = none ∧ ((st.core 0).queue 0).byMove = none := by decide
theorem wit_Queues_move : let s := runs { one thr with mq := ⟨[], none, some ⟨0, 2, true, 3⟩⟩ }
    s.ready x0 (.qdisc x0 ⟨0, 0, 4⟩) = true ∧ ((s.core 0).queue 0).stop = none ∧ ((s.core 0).queue 0).byMove = some ⟨0, 2, true, 3⟩ := by
  decide
theorem wit_VectorResults : st.quiet = true ∧ (st.core 0).vq.stop = none ∧ st.ready x0 (.vop x0 ⟨1, 0, 0, 9, 8, 14⟩) = true ∧
    st.ready x0 (.vfma x0 ⟨1, 2, 3, 4, 9, 8, 0⟩) = true ∧ st.ready x0 (.vtr x0 ⟨1, 2, 0, 9, 8, 0⟩) = true ∧
    st.ready x0 (.vperm x0 ⟨1, 2, 3, 0, 8, 7, 0⟩) = true ∧ st.ready x0 (.vperm x0 ⟨1, 2, 3, 0, 0, 9, 0⟩) = true := by decide
theorem wit_VectorReduction : st.ready x0 (.vred x0 ⟨1, 2, 3, 9, 1, 1, 8⟩) = true ∧ st.ready x0 (.vcvt x0 ⟨1, 2, 9, 10, 0, 1, 0⟩) = true ∧
    st.ready x0 (.vmac x0 ⟨1, 2, 3, 0, 1, 8, 1, 1⟩) = true ∧ st.ready x0 (.vaddac x0 ⟨1, 2, 3, 1, 1, 8, 1, 1⟩) = true := by decide
theorem wit_MaskResults : st.ready x0 (.vcmp x0 ⟨1, 0, 2, 3, 9, 8, 5, 2⟩) = true ∧ st.ready x0 (.vmask x0 ⟨0, 2, 0, 8, 4, 3, 0⟩) = true ∧
    st.ready x0 (.vmask x0 ⟨1, 0, 0, 5, 4, 0, 0⟩) = true := by decide

/-- A mask register that selects lane 1 alone. -/
def lane1 : State := runs { one thr with mreg := [(0, 2)] }
theorem wit_VectorMemory : lane1.quiet = true ∧ (lane1.core 0).vq.stop = none ∧
    (List.range 64).filter ((lane1.core 0).active 8) = [1] ∧ lane1.ready x0 (.vld x0 ⟨1, 1, 2, 9, 0, 8, 0⟩) = true ∧
    lane1.ready x0 (.vst x0 ⟨1, 1, 2, 9, 0, 8, 0⟩) = true ∧ segCheck own 0 .read (66 : Nat) 2 2 = none ∧
    segCheck own 0 .write (66 : Nat) 2 2 = none ∧ lane1.takesRead (.core x0) (segBase own + 66) 2 := by
  unfold State.takesRead; decide
theorem wit_VectorMemory_st : lane1.takesWrite (.core x0) (chamberBase 0 + 66) 2 ∧ lane1.tierClean (chamberBase 0 + 66) :=
  ⟨chamber_takes lane1 66 2 (by decide) (by decide), fun o h => by
    have w : winOf (chamberBase 0 + 66) = .chamber 0 66 := by decide
    rw [w] at h; cases h⟩

/-- Tile 1 holds 4 rows of 16 bytes of format 9. -/
def tiled : State := runs { one thr with tshape := [(1, 4 + 1 * 2 ^ 6 + 9 * 2 ^ 10)] }
theorem wit_TileOperations : (tiled.core 0).shapesOk = true ∧ tcfgCode 2 (4 + 1 * 2 ^ 6 + 9 * 2 ^ 10) = none ∧
    tiled.ready x0 (.tcfg x0 .imm ⟨2, 4, 1, 9, 0, 0⟩) = true ∧ tiled.ready x0 (.tshr x0 ⟨1, 8, 0, 0, 0, 0⟩) = true ∧
    tiled.ready x0 (.tzero x0 ⟨0, 2⟩) = true ∧ tsRows ((tiled.core 0).shape 1) = 4 ∧ tiled.ready x0 (.vmvf x0 ⟨1, 2, 3, 0⟩) = true ∧
    tiled.ready x0 (.vmvt x0 ⟨1, 2, 3, 0⟩) = true := by decide

/-- Tile 1 holds one row of 16 bytes of format 9. -/
def tiled1 : State := runs { one thr with tshape := [(1, 1 + 1 * 2 ^ 6 + 9 * 2 ^ 10)] }
theorem wit_TileLoadsAndStores : tiled1.quiet = true ∧ (tiled1.core 0).shapesOk = true ∧ tiled1.ready x0 (.tld x0 ⟨1, 1, 1, 0, 9, 0, 0⟩) = true ∧
    tiled1.ready x0 (.tst x0 ⟨1, 1, 1, 0, 9, 0, 0⟩) = true ∧ tiled1.ready x0 (.tldx x0 ⟨1, 1, 2, 0, 0, 9, 0, 1, 0⟩) = true ∧
    (tiled1.core 0).transferFault 1 9 false = none ∧ tsRows ((tiled1.core 0).shape 1) = 1 ∧
    tsElems ((tiled1.core 0).shape 1) * fmtWidth 9 / 8 = 16 ∧ (thr.reg (pairLo 1)).toNat = 64 ∧
    segCheck own 0 .read (64 : Nat) 16 16 = none ∧ segCheck own 0 .write (64 : Nat) 16 16 = none ∧
    segCheck own 0 .read (0 : Nat) 16 16 = none := by decide

/-! ### The matrix unit and the core DMA engine -/

/-- A core whose matrix queue holds one MMA of tiles 1, 2 and 3. -/
def mmaCore (ph : Phase) : Core :=
  { one thr with mq := ⟨[{ ent (.mma x0 ⟨1, 2, 3, 0, 0, 0, 0⟩) 2 with phase := ph }], none, none⟩
                 tshape := [(1, 4 + 1 * 2 ^ 6 + 9 * 2 ^ 10)] }
theorem wit_MatrixUnit_commit : (runs (mmaCore .underWay)).running = true ∧ (mmaCore .underWay).shapesOk = true ∧
    fmtWidth (tsFmt ((mmaCore .underWay).shape 1)) = 16 := by decide
theorem wit_MatrixUnit_rest : let s := (runs (one thr)).modHall 0 fun v => { v with cycles := 2048 }
    (∀ e ∈ (s.core 0).mq.entries, e.phase ≠ .underWay) ∧ (s.core 0).mtxAt + 2048 ≤ (s.hall 0).cycles ∧
    (State.cycleOf st 0 < (st.core 0).mtxAt + 2048) := by decide
theorem wit_MatrixUnit_slot : let s := { runs (mmaCore (.held 0)) with window := some 0 }
    s.running = true ∧ s.someWaits = true ∧ (s.hall 0).cycles = 0 + 64 * (0 : Nat) ∧ (0 : CoreId).index % 12 = 0 ∧
    (s.core 0).mq.stop = none ∧ (s.core 0).mq.byMove = none := by decide
theorem wit_MatrixUnit_cores : ({ runs (mmaCore (.held 0)) with window := some 0 } : State).coresOk := by
  unfold State.coresOk; decide

/-- A DMA descriptor: a row of 16 bytes from segment offset 0 to 64, by op 0 copy or 1 fill, with event bit 3. -/
def dmaBytes (op : Nat) : List Byte := natBytes 32 (64 * 2 ^ 32 + 16 * 2 ^ 64 + 2 ^ 96 + op * 2 ^ 112 + 3 * 2 ^ 224 + 2 ^ 231)
def dmaState (ph : Phase) (d : List Byte) : State :=
  let s := st.setBytes (chamberBase 0 + 128) (dmaBytes 1)
  s.setCore 0 { one thr with
    dq := ⟨[{ ent (.dmaq x0 ⟨1, 2, 0, 0, 0⟩) 2 with phase := ph, desc := d, segs := [own, own, own], vals := [128] }], none, none⟩ }
theorem wit_CoreDmaEngine : let s := dmaState .waiting []
    let e := (s.core 0).dq.entries.headD (ent (.park x0 ⟨0, 0, 0⟩) 0)
    s.fenced 0 3 2 = false ∧ s.readStalls (.core ⟨0, 0⟩) (segBase own + 128) 32 = false ∧
    (match (s.readDmaDesc 0 e).2 with | .ok d => (dmaDescOf d).reserved | .error _ => true) = false := by decide
theorem wit_CoreDmaEngine_again : let s := dmaState .waiting (dmaBytes 2)
    s.fenced 0 3 2 = false ∧ dmaBytes 2 ≠ [] ∧ (dmaDescOf (dmaBytes 2)).reserved = true := by decide
theorem wit_CoreDmaEngine_row : let s := dmaState .underWay (dmaBytes 1)
    let e := (s.core 0).dq.entries.headD (ent (.park x0 ⟨0, 0, 0⟩) 0)
    let d := dmaDescOf e.desc
    e.phase = .underWay ∧ d.rows = 1 ∧ d.op = 1 ∧ d.rowLen = 16 ∧ s.dmaStalls 0 e d = false ∧ dmaRowCheck e d 0 0 = none ∧
    (s.dmaRows 0 e d 1 0 0).2.isNone = true ∧ (s.dmaRows 0 e d 1 0 0).1.writesHeld 0 3 3 = false := by decide

/-! ### Channels, rings, sumps and barriers -/

/-- A state with applied configuration words, and no sealed position in hall 0. -/
def appl (s : State) (l : List (Nat × Nat × Nat)) : State :=
  { s with
    applied := l.foldl (fun m w => SMap.put m (widx w.1 w.2.1) (BitVec.ofNat 32 w.2.2)) s.applied
    live := (List.range 12).foldl (fun m c => SMap.put m (widx (hallPage 0 0) (0x800 + 4 * c)) 0xF) s.live }
/-- Channel 2 of core 0 (a message channel to ring 5 of core 1), ring 5 of core 0 with 8 entries and sump 4 of two slots. -/
def chans (k : Core) : State := appl (runs k)
  [(corePage 0 1, 0x104 + 8 * 5, 8), (corePage 0 1, 0x220, 1 + 5 * 2 ^ 11 + 2 ^ 16), (corePage 0 1, 0x440, 0x40), (corePage 0 1, 0x444, 0x400),
   (corePage 0 1, 0x448, 2 + 8 * 2 ^ 12 + 2 ^ 28)]
/-- Core 0 with a credit of channel 2. -/
def paid : Core := { one thr with chan := [(2, { SendChan.zero with avail := 1 })] }
theorem wit_ChannelTransfers_send : let s := chans paid
    (s.chanCfg 0 2).kind = 1 ∧ ((s.core 0).chanOf 2).openBy = none ∧ 0 < ((s.core 0).chanOf 2).avail ∧ (s.thread x0).openCh = none ∧
    s.ready x0 (.wrch x0 ⟨0, 1, 2, 2⟩) = true ∧ (s.reg x0 2).toNat % 4 = 0 ∧ s.ready x0 (.wrchb x0 ⟨1, 0, 2, 2⟩) = true ∧
    s.ready x0 (.wrchb x0 ⟨1, 1, 2, 2⟩) = true ∧ s.ready x0 (.close x0 ⟨0, 1, 0, 2⟩) = true ∧ (s.reg x0 1).toNat ≤ (s.chanCfg 0 2).maxLen := by
  decide
theorem wit_ChannelTransfers_receive : let g : Ring := { wr := 2, rx := 1, rd := 0, entry := [(0, ⟨4, false, some ⟨none, 1, 0⟩⟩), (1, ⟨4, false, none⟩)] }
    let s := chans { one thr with ring := [(5, g)] }
    s.ringEntries 0 5 = 8 ∧ s.ready x0 (.recv x0 ⟨3, 0, 0, 5⟩) = true ∧ g.rx ≠ g.wr ∧ s.ready x0 (.rfree x0 ⟨0, 0, 0, 5⟩) = true ∧
    (s.reg x0 0).toNat ≤ ringDist g.rd g.rx ∧ (chans (one thr)).ready x0 (.recv x0 ⟨3, 0, 0, 5⟩) = true := by decide
theorem wit_ChannelTransfers_arm : let s := chans (one thr)
    s.ready x0 (.sumparm x0 ⟨0, 1, 0, 4⟩) = true ∧ (s.sumpCfg 0 4).en = true ∧ (s.sumpCfg 0 4).n ≠ 0 ∧ (s.reg x0 1).extractLsb' 14 18 = 0 := by
  decide
theorem wit_Arrivals : let m : Message := { msg 4 with target := 5 }
    let c : Message := { msg 4 with target := 4, rank := 1 }
    let s := { chans paid with mesh := [⟨.core 1, 0, .message m⟩, ⟨.core 2, 0, .contribution c⟩, ⟨.core 1, 0, .credit 2 1⟩] }
    s.running = true ∧ s.coreSealed 0 = false ∧ (takeFlow 0 (.message m) [] s.mesh).isSome = true ∧ s.ringTakes 0 5 = true ∧
    (takeFlow 0 (.contribution c) [] s.mesh).isSome = true ∧ (s.sumpCfg 0 4).en = true ∧ s.stopped 0 = false ∧ c.rank < (s.sumpCfg 0 4).n ∧
    (takeFlow 0 (.credit 2 1) [] s.mesh).isSome = true ∧ (s.chanCfg 0 2).kind ≠ 3 := by decide
theorem wit_Arrivals_full : let g : Ring := { wr := 8, rx := 0, rd := 0, entry := [] }
    let s := chans { one thr with ring := [(5, g)] }
    s.ringTakes 0 5 = false ∧ s.samePart (0 : CoreId).hall (1 : CoreId).hall = true ∧ takeFlow 0 (.credit 2 1) [] s.mesh = none := by decide
theorem wit_Arrivals_chimney : let s := appl (runs { one thr with chan := [(2, { SendChan.zero with chim := [[1, 2]] })] }) [(corePage 0 1, 0x220, 3 * 2 ^ 16)]
    (s.chanCfg 0 2).kind = 3 ∧ ((s.core 0).chanOf 2).chim = [] ++ [1, 2] :: [] ∧ 1 ∈ [1, 2] := by decide
theorem wit_DeparturesAndDrains : let s := chans { one thr with
      chan := [(2, { SendChan.zero with held := [⟨0, [1, 2]⟩] })], sump := [(4, { Sump.zero with state := 1, present := [(0, some (none, 16))] })] }
    s.outstanding 0 0xF 0 = false ∧ s.published 0 0 = false ∧ (s.chanCfg 0 2).kind ≠ 3 ∧ (s.chanCfg 0 2).core = (1 : CoreId).val ∧
    s.samePart (0 : CoreId).hall (1 : CoreId).hall = true ∧ SMap.get ((s.core 0).sumpOf 4).present 0 none = some (none, 16) ∧
    (s.sumpCfg 0 4).len = 8 := by decide

/-- Barrier 3 of hall 0 with one arrival a round, root core 0, members 0 and 12; member routers 0 and 12. -/
def barred (k : Core) (arr : Nat) : State := appl (runs k) [(hallPage 0 0x20, 0x160, 1 + arr * 2), (hallPage 0 0x20, 0x164, 1 + 2 ^ 12)]
theorem wit_Barriers : let s := barred (one thr) 0
    s.barEn 0 3 = true ∧ s.ready x0 (.arrive x0 ⟨0, 0, 0, 3⟩) = true ∧ s.barEmpty 0 3 = false ∧ s.barMember 0 3 0 = true ∧
    (((s.core 0).barOf 3).arr + 1).toNat = s.barArrivals 0 3 ∧ s.outstanding 0 0xF (s.core 0).issueSeq = false ∧
    s.published 0 (s.core 0).issueSeq = false := by decide
theorem wit_Barriers_first : let s := barred (one thr) 1
    s.ready x0 (.arrive x0 ⟨0, 0, 0, 3⟩) = true ∧ (((s.core 0).barOf 3).arr + 1).toNat ≠ s.barArrivals 0 3 := by decide
theorem wit_Barriers_wait : let s := barred (one { thr with ticket := some ⟨3, 0⟩ }) 0
    s.ready x0 (.waitb x0 ⟨0, 0, 0, 3⟩) = true ∧ ((s.core 0).barOf 3).rel = 0 := by decide
theorem wit_Barriers_router : let s := (barred (one thr) 0).modHall 0 fun v => { v with
      bar := { v.bar with wires := [⟨3, 0, 0, 1⟩, ⟨3, 0, 1, 1⟩], portWires := [(70, 2, 0)], rel := [(3, 1)] } }
    s.running = true ∧ takeWire 3 12 (s.hall 0).bar.wires = some (1, [⟨3, 0, 0, 1⟩]) ∧ s.barBranches 0 3 12 ≤ 0 + 1 ∧
    12 ≠ s.barRoot 0 3 ∧ 0 + 1 < s.barBranches 0 3 0 ∧ takeWire 3 0 (s.hall 0).bar.wires = some (1, [⟨3, 0, 1, 1⟩]) ∧
    (70, 2, 0) ∈ (s.hall 0).bar.portWires ∧ s.coreSealed 0 = false ∧ ((s.core 0).barOf 3).rel ≠ SMap.get (s.hall 0).bar.rel 3 0 ∧
    ((s.core 0).barOf 3).next.toNat ≠ s.barArrivals 0 3 := by decide

/-! ### Banks, near memory and the CXL tier -/

theorem wit_BankRequests : let b : Bank := .gallery 0 0
    let r : BankReq := ⟨0, .engine, none, 1⟩
    st.running = true ∧ st.bankQueue b = [] ∧ st.inBank b r.line = true ∧ st.bankWaits b r = false ∧
    st.inBank (.chamber 0 0) 0 = true := by decide
theorem wit_BankRequests_promote : let w : WaitReq := ⟨⟨0, .engine, none, 1⟩, 192, false⟩
    ((st.setBank (.gallery 0 0) [w]).bankQueue (.gallery 0 0))[0]? = some w ∧ 192 ≤ w.age ∧ w.promoted = false := by decide

theorem wit_MemoryTiers_near : let r : BurstReq := ⟨.keeper, nearBase 0 + 128, 64, none⟩
    r.wf = true ∧ winOf r.addr = .near 0 128 ∧ st.reaches r.who r.addr = true ∧ (st.hall 0).nearWait = [] ∧ (st.hall 0).nearHeld = [] ∧
    st.field (memPage 0) 0x800 0 2 ≠ 1 ∧ st.behindHeld r.who r.addr = false ∧ st.protectedAt r.addr = false ∧
    (⟨.keeper, nearBase 0 + 128, 2, some [1, 2]⟩ : BurstReq).wf = true := by decide
theorem wit_MemoryTiers_full : let s := st.setField (memPage 0) 0x800 0 2 1
    s.running = true ∧ s.field (memPage 0) 0x800 0 2 = 1 := by decide
theorem wit_MemoryTiers_held : let s := st.modHall 0 fun v => { v with nearHeld := [⟨nearBase 0 + 128, [1], .keeper, 0, 0⟩] }
    s.behindHeld .keeper (nearBase 0 + 128) = true := by decide
theorem wit_MemoryTiers_patrol : let s := appl st [(memPage 0, 0x100, 8)]
    wbit (s.applWord (memPage 0) 0x100) 3 = true ∧ burstIf 5 ∉ (s.hall 0).training ∧ s.poisoned (nearBase 0 + 5 * 64) = false := by decide
theorem wit_MemoryTiers_training : let s := (st.modHall 0 fun v => { v with training := [1] }).setField (memPage 0) 0x800 0 2 1
    1 ∈ (s.hall 0).training ∧ (s.hall 0).training.erase 1 = [] ∧ s.field (memPage 0) 0x800 0 2 = 1 ∧ 2 ∉ (s.hall 0).training := by decide
/-- Decoder 0 gives the tier's first 256 MiB to link 0 of port 0, which is in `state`. -/
def tiered (state : Nat) : State :=
  (appl st [(0x31, 0x100, 2 ^ 16), (0x31, 0x104, 4), (0x31, 0x108, 0), (0x31, 0x10C, 0)]).setLive 0x30 0x800 (BitVec.ofNat 32 state)
theorem wit_MemoryTiers_cxl : let s := tiered 2
    let r : BurstReq := ⟨.keeper, 0x100000000000, 4, some [1, 2, 3, 4]⟩
    r.wf = true ∧ winOf r.addr = .cxl 0 ∧ s.reaches r.who r.addr = true ∧ (s.cxlDecode 0).isSome = true ∧
    (s.cxlDecode 0).map (fun d => d.2.1) = some 0 ∧ s.linkState 0 = 2 ∧ (tiered 1).linkState 0 = 1 ∧
    4 ≤ 16 / 2 ^ fieldOf ((tiered 1).applWord (linkPage 0) 0x100) 1 2 ∧ s.poisoned 0x100000000000 = false := by decide
theorem wit_CoreReach : st.samePart 0 0 = true ∧ st.scrubFailed 0 = false ∧ st.hallMode 0 = 0 ∧
    (st.setLive 0xA 0x800 0x10000).scrubFailed 0 = true := by decide

/-! ### Commits and registers -/

theorem wit_Commits : let p : Nat := 0x100
    hasConfig p = true ∧ firstPage p = p ∧ risingFrom 0 st.staged = true ∧ risingFrom 0 st.applied = true ∧ st.reach .keeper p 0x020 = .all ∧
    st.commitState p ≠ 1 := by decide
theorem wit_Commits_wait : let s := (st.setCommitStat 0x100 1 0 0 false).setCommit 0x100 ⟨false, true⟩
    s.commitState 0x100 = 1 ∧ ctxBlock 0x100 = true ∧ s.commitOf 0x100 = ⟨false, true⟩ := by decide
theorem wit_Commits_check : let s := st.setCommit 3 ⟨true, false⟩
    hasConfig 2 = true ∧ firstPage 2 = 2 ∧ ctxBlock 2 = false ∧ (s.commitOf 3).checking = true := by decide
theorem wit_Registers_err : (pageBlock 0x100).isSome = true ∧ st.reach .keeper 0x100 0x010 = .all ∧ st.reach .keeper 0x100 0x018 = .all ∧
    (1 : Word) &&& BitVec.ofNat 32 (errBits 0x100) ≠ 0 ∧ pageHall 0x100 = some 0 := by decide
theorem wit_Registers_write : st.reach .keeper 0x100 0x180 = .all ∧ hasConfig 0x100 = true ∧ portHidden .keeper 0x100 0x00C = false ∧
    st.reach (.core x0) 1 0x800 = .readOnly ∧ st.reach (.core x0) 0 0x800 = .refused ∧ pageBlock 0x50 = none ∧
    st.hostGone .pf = true := by decide
theorem wit_Registers_counter : ∃ r n, regAt 2 0x808 = some (r, n, false) ∧ r.wide = true ∧ isCounter 2 0x808 = true ∧ r.acc ≠ .wo ∧
    st.reach .keeper 2 0x808 = .all ∧ portHidden .keeper 2 0x808 = false := by
  refine ⟨_, _, rfl, ?_⟩; decide
theorem wit_Registers_high : ∃ r n, regAt 2 0x80C = some (r, n, true) ∧ r.wide = true ∧ isCounter 2 0x80C = true ∧ r.acc ≠ .wo := by
  refine ⟨_, _, rfl, ?_⟩; decide
theorem wit_Registers_ro : ∃ r n hi, regAt 2 0x810 = some (r, n, hi) ∧ r.acc = .ro := ⟨_, _, _, rfl, rfl⟩
theorem wit_Debug : st.reach .keeper (corePage 0 3) 0x800 = .all ∧ st.reach .keeper (corePage 0 3) 0x810 = .all ∧
    st.reach .keeper (corePage 0 0) 0x924 = .all ∧ (runs (one { thr with run := .halted })).running = true := by decide
theorem wit_DirectRegisters : dripPlace (.matrix 0) = (corePage 0 0, 0x880, 0) ∧ st.reach .keeper (corePage 0 0) 0x880 = .all ∧
    st.stopped 0 = false ∧ State.reset.stopped 0 = true ∧ st.reach .keeper (corePage 0 1) 0x840 = .all ∧
    st.reach .keeper (hallPage 0 0) 0x8A0 = .all ∧ st.reach .keeper (corePage 0 2) 0x800 = .all ∧
    st.reach .keeper (corePage 0 0) (tableOff .gtbl) = .all := by decide

/-! ### Halls and their engines -/

/-- Hall 0 may start: a layout stands, and a configuration of the hall. -/
def startable : State := (State.reset.setField 0 0x800 0 3 0).setLive 0x100 0x028 1
theorem wit_HallRuns_start : let s := startable
    s.running = true ∧ s.reach .keeper 0x100 0x008 = .all ∧ s.hallState 0 = 0 ∧ s.isOut 0 = false ∧ (s.hall 0).outHeld = false ∧
    s.commitOf 0 = ⟨false, false⟩ ∧ s.partLive ≠ 7 ∧ s.liveWord 0x100 0x028 ≠ 0 ∧ s.modesAdmit 0 = true ∧ s.engBusy 0 = false ∧
    wbit (s.liveWord 0x100 0x00C) 3 = false ∧ State.reset.partLive = 7 ∧ st.hallState 0 = 2 := by decide
theorem wit_HallRuns_stopped : let s := startable.setHallState 0 3
    s.hallState 0 = 3 ∧ s.engBusy 0 = false := by decide
theorem wit_HallRuns_column : let s := startable.setHallState 0 1
    let u := s.passTo 0
    s.hallState 0 = 1 ∧ (s.hall 0).switching = false ∧ (s.hall 0).columns = 0 ∧ s.col0 = none ∧ u.hallState 0 = 1 ∧ u.running = true ∧
    u.columnTurn 0 = true ∧ (u.bootBase 0 + 256 * (0 : CoreId).index) % 64 = 0 := by decide

/-- A descriptor of 64 bytes: values at byte offsets. -/
def descr (l : List (Nat × Nat)) : List Byte := natBytes 64 (l.map fun p => p.2 * 2 ^ (8 * p.1)).sum
/-- An address in the chamber of core 0, as a descriptor's field. -/
def at0 (o : Nat) : Nat := chamberBase 0 + o
/-- Queue 0 of engine `e` of hall 0 has this descriptor under way, in a phase, in a state of the queue. -/
def works (e : Fin 9) (d : List Byte) (ph : EngPhase) (state : Nat) : State :=
  (appl st [(enginePage 0 e.val, 0x108, 8), (enginePage 0 e.val, 0x100, at0 0x1000 % 2 ^ 32), (enginePage 0 e.val, 0x104, at0 0x1000 / 2 ^ 32)]
    |>.setLive (enginePage 0 e.val) 0x808 (BitVec.ofNat 32 state) |>.setLive (enginePage 0 e.val) 0x800 1).setRun 0 e 0
    { EngRun.idle with phase := ph, desc := d }
theorem wit_EngineQueues : let s := works 1 [] .idle 0
    s.running = true ∧ s.reach .keeper (enginePage 0 1) 0x800 = .all ∧ s.reach .keeper (enginePage 0 1) 0x80C = .all ∧ s.engEntries 0 1 0 = 8 ∧
    s.engProd 0 1 0 = 1 ∧ s.engCons 0 1 0 = 0 ∧ s.engState 0 1 0 ≠ 2 ∧ (s.hall 0).switching = false ∧ s.hallState 0 = 2 ∧
    s.engBase 0 1 0 = at0 0x1000 ∧ isControl (at0 0x1000) = false ∧ s.reaches (.engine 0 1) (at0 0x1000) = true ∧
    s.readStalls (.engine 0 1) (at0 0x1000) 64 = false ∧ at0 0x1000 % 64 = 0 ∧ s.poisoned (at0 0x1000) = false ∧
    badHeader 0 1 (s.bytesAt (at0 0x1000) 64) = false ∧ drawsDrip 1 (s.bytesAt (at0 0x1000) 64) = false ∧
    (∀ k : Fin 4, (k.val + 7 - 3) % 4 < (0 + 7 - 3) % 4 → s.engCan 0 1 k = false) := by decide
theorem wit_EngineQueues_stopped : let s := works 1 (descr [(0, 1)]) .running 2
    s.engState 0 1 0 = 2 ∧ badHeader 0 1 (descr [(0, 1)]) = false ∧ (works 1 [] .unread 2).engState 0 1 0 = 2 := by decide
theorem wit_EngineQueues_ends : let d := descr [(8, at0 0x40)]
    let s := works 1 d .ended 1
    (works 1 [] .running 1).engState 0 1 0 = 1 ∧ dOp [] = 0 ∧ s.engState 0 1 0 = 1 ∧ s.engHeld 0 1 0 = false ∧
    s.recordStalls 0 1 d = false ∧ dCrec d = at0 0x40 ∧ s.protectedAt (at0 0x40) = false ∧ s.behindHeld (.engine 0 1) (at0 0x40) = false ∧
    badSignal 0 d = false ∧ s.backs (.engine 0 1) (at0 0x40) = true := by decide
theorem wit_EngineQueues_record : (works 1 (descr [(8, at0 0x40)]) .ended 1).takesWrite (.engine 0 1) (at0 0x40) 16 :=
  chamber_takes _ 0x40 16 (by decide) (by decide)

/-- TOPK of 2 pairs of UINT32 keys, of which it writes 1. -/
def topkDesc : List Byte := descr [(0, 2), (16, 2), (20, 2), (24, 1), (32, at0 0), (48, at0 64), (56, at0 128)]
theorem wit_Sorting : let s := works 1 topkDesc .running 1
    let g := sortDesc topkDesc
    s.engState 0 1 0 = 1 ∧ dOp topkDesc = 2 ∧ s.sortBad 0 topkDesc = false ∧ g.outN = 1 ∧ g.vals = false ∧ g.n * g.keyBytes = 8 ∧
    ∀ j, j < 8 → s.takesRead (.engine 0 1) (at0 0 + j) 1 := by unfold State.takesRead; decide
theorem wit_Sorting_writes : ∀ j, j < 4 → (works 1 topkDesc .running 1).takesWrite (.engine 0 1) (chamberBase 0 + (64 + j)) 1 :=
  fun j h => chamber_takes _ (64 + j) 1 (by revert j; decide) (by revert j; decide)
theorem wit_Sampling : let d := descr [(0, 1), (16, 2), (20, 1), (26, 9 + 16), (28, 0x3E00), (30, 0x3E00), (40, 16), (48, at0 0), (56, at0 64)]
    let s := works 2 d .running 1
    let g := sampleDesc d
    s.engState 0 2 0 = 1 ∧ dOp d = 1 ∧ sampleBad d = false ∧ g.n = 2 ∧ g.nvec = 1 ∧ g.logits + 2 * g.n ≤ g.out := by decide

/-- Table 0 of the siphon: 4 rows of 16 bytes of format 9. -/
def tabled (d : List Byte) : State :=
  let s := works 0 d .running 1
  let l := [(0x100, at0 0x800 % 2 ^ 32), (0x104, at0 0x800 / 2 ^ 32), (0x108, 4), (0x110, 1 + 9 * 2 ^ 9), (0x114, 16)]
  { s with applied := l.foldl (fun m w => SMap.put m (widx (hallPage 0 9) w.1) (BitVec.ofNat 32 w.2)) s.applied }
/-- Whether a row of a table is found. -/
def found (r : SiphonRes Nat) : Option Nat := match r with | .ok _ a => some a | _ => none
theorem wit_Siphon_pool : let d := descr [(0, 1), (18, 9), (20, 1), (24, 1), (28, 16), (32, at0 0), (40, at0 64), (56, at0 128)]
    let s := (tabled d).setBytes (at0 64) [1, 0]
    let g := siphonDesc d
    let tb := s.siphonTable 0 g.tab
    s.engState 0 0 0 = 1 ∧ dOp d = 1 ∧ poolBad tb d = false ∧ g.nidx = 1 ∧ g.nbags = 1 ∧ tb.remap = false ∧
    found (s.rowAddr 0 tb 0) = some (at0 0x800) ∧ bytesNat (s.bytesAt (g.list) 2) = g.nidx ∧ 2 * tb.elems = 16 := by decide
theorem wit_Siphon_scatter : let d := descr [(0, 2), (18, 9), (20, 1), (28, 16), (32, at0 0), (40, at0 64)]
    let s := tabled d
    let g := siphonDesc d
    let tb := s.siphonTable 0 g.tab
    dOp d = 2 ∧ scatterBad tb d = false ∧ g.wts = 0 ∧ tb.elems * fmtWidth g.fmt / 8 = 16 ∧
    ∀ j, j < 4 → s.takesRead (.engine 0 0) (at0 0 + j) 1 := by unfold State.takesRead; decide

theorem wit_Expand : let d := descr [(0, 1), (16, 16), (20, 64), (32, at0 0), (40, at0 64)]
    let s := works 3 d .running 1
    s.engState 0 3 0 = 1 ∧ dOp d = 1 ∧ s.expandBad 0 d = false ∧ dTally d = 0 ∧ at0 0 + 16 ≤ at0 64 := by decide
theorem wit_Cipher : let d := descr [(0, 1), (16, 3), (20, 16), (24, 16), (32, at0 0), (40, at0 64), (48, at0 128), (56, at0 192)]
    let s := works 4 d .running 1
    s.engState 0 4 0 = 1 ∧ dOp d = 1 ∧ sm4Bad d = false ∧ (cipherDesc d).len ≠ 0 ∧
    ∀ j, j < 48 → s.takesRead (.engine 0 4) (at0 128 + j) 1 := by unfold State.takesRead; decide
theorem wit_Digest : let d := descr [(0, 3), (20, 16), (32, at0 0), (40, at0 64)]
    dOp d = 3 ∧ sm3Bad d = false ∧ (cipherDesc d).len ≠ 0 := by decide

/-- A descriptor of hall DMA engine 0: operation, spaces, one row of 64 bytes. -/
def rowDesc (op spaces : Nat) : List Byte := descr [(0, op), (16, spaces), (20, 64), (24, 1), (32, at0 0), (40, at0 64)]
theorem wit_HallDma : let s := works 5 (rowDesc 1 0) .running 1
    hdmaEng 0 = 5 ∧ s.engState 0 5 0 = 1 ∧ dOp (rowDesc 1 0) = 1 ∧ hdmaBad (rowDesc 1 0) = false ∧ (hdmaDesc (rowDesc 1 0)).rowLen ≠ 0 ∧
    (hdmaDesc (rowDesc 1 0)).srcRow 0 = at0 0 ∧ (hdmaDesc (rowDesc 1 0)).dstRow 0 = at0 64 ∧ s.remote = [] ∧
    (∀ j, j < 64 → s.takesRead (.engine 0 5) (at0 0 + j) 1) := by unfold State.takesRead; decide
theorem wit_HallDma_writes : ∀ j, j < 64 → (works 5 (rowDesc 1 0) .running 1).takesWrite (.engine 0 5) (chamberBase 0 + (64 + j)) 1 :=
  fun j h => chamber_takes _ (64 + j) 1 (by revert j; decide) (by revert j; decide)
theorem wit_HallDma_forms : hdmaBad (rowDesc 2 0) = false ∧ hdmaBad (rowDesc 3 0) = false ∧ hdmaBad (rowDesc 1 1) = false ∧
    (hdmaDesc (rowDesc 1 1)).sspace = 1 ∧ hdmaBad (rowDesc 1 4) = false ∧ (hdmaDesc (rowDesc 1 4)).dspace = 1 ∧ hdmaBad (rowDesc 1 8) = false ∧
    hdmaBad (rowDesc 1 2) = false ∧ st.hallMode 0 = 0 ∧ (works 5 (rowDesc 3 0) .running 1).recordStalls 0 5 (rowDesc 3 0) = false := by decide

/-! ### The fabric -/

/-- Port 0 is in a state, with all lanes. -/
def linked (state : Nat) (v : YPort) : State := { st.setPstat 0 state 8 0xFF with ports := [(0, v)] }
theorem wit_Ports_train : (linked 1 .zero).portState 0 = 1 ∧ (linked 2 .zero).portState 0 = 2 ∧ (linked 3 .zero).portState 0 = 3 ∧
    st.minWidth 0 ≤ 8 ∧ wbit ((appl st [(0x10, 0x108, 2 ^ 18)]).applWord 0x10 0x108) 18 = true ∧ (linked 3 .zero).reach .keeper 0x10 0x008 = .all ∧
    (appl st [(0x10, 0x100, 4)]).minWidth 0 = 8 := by decide
theorem wit_Ports_flit : let s := linked 3 { YPort.zero with rxSeq := 0 }
    let f : List Byte := List.replicate 252 0 ++ natBytes 4 (crc32 (List.replicate 252 0)).toNat
    wbit (s.liveWord 0x10 0x008) 0 = false ∧ (⟨f, []⟩ : RxFlit).wf = true ∧
    bytesNat ((f.drop 252).take 4) = (crc32 (f.take 252)).toNat ∧ (s.port 0).rx.ahead (0 - ((s.port 0).rxSeq + 1)).toInt = none := by
  decide +kernel
theorem wit_Ports_seal : let s := linked 3 { YPort.zero with rxSeq := 0 }
    let f : List Byte := (s.port 0).rx.seal (flitHead 0 1 0 0 0) (List.replicate 232 0)
    f.length = 256 ∧ (s.port 0).rx.ahead ((1 : BitVec 12) - ((s.port 0).rxSeq + 1)).toInt = some (s.port 0).rx ∧
    gcmTagOf (s.port 0).rx.key.toNat (s.port 0).rx.iv (f.take 4) ((f.drop 4).take 232) = (f.drop 236).take 16 := by decide +kernel
theorem wit_Ports_retrain : let s := (linked 3 .zero).setLive 0x10 0x008 1
    s.portState 0 = 3 ∧ wbit (s.liveWord 0x10 0x008) 0 = true ∧ (BitVec.ofNat 8 (s.field 0x10 0x800 7 8)).getLsbD 3 = true := by decide
theorem wit_Ports_roll : (YPort.zero).tx.roll = none ∧ (YPort.zero).queue = [] ∧ (YPort.zero).tail = [] ∧
    ({ LinkKey.zero with roll := some (5, 7) } : LinkKey).roll ≠ none := by decide

/-- A packet of a kind to a module and an address. -/
def packet (kind : BitVec 4) (dst : BitVec 18) (target : BitVec 48) (d : List Byte) : Packet :=
  { pkt kind d.length d with dst := dst, target := target }
/-- Port 0 is enabled and up, its module is 1, and a packet waits to be routed. -/
def routed (inp : Option PortId) (k : Packet) : State :=
  let s := appl (linked 3 .zero) [(0x10, 0x100, 1), (0x10, 0x104, 1), (0x10, 0x400, 0x80 * 2 ^ 16)]
  { s with routing := [⟨inp, 0, k⟩] }
theorem wit_Packets_here : let k := packet 0 1 (BitVec.ofNat 48 (at0 0)) [1]
    (routed none k).myId = 1 ∧ (routed (some 0) k).refuses 0 k = false ∧ k.wf = true ∧
    (routed (some 0) (packet 0 1 0x300000000000 [1])).refuses 0 (packet 0 1 0x300000000000 [1]) = true := by decide
theorem wit_Packets_channel : let k := packet 5 1 0 (List.replicate 4 0)
    k.kind = 5 ∧ (routed none k).samePart 0 0 = true := by decide
theorem wit_Packets_away : let k := packet 0 2 0 [1]
    let s := routed none k
    k.dst ≠ s.myId ∧ ((List.finRange 12).find? fun p => s.samePart 0 (portHall p.val) && s.portEn p) = some 0 ∧
    k.dst.toNat / 1024 = s.myId.toNat / 1024 ∧ bitOf (s.memberEntry 0 2) 7 = true ∧ s.memberEntry 0 2 % 16 = 0 ∧ s.portState 0 = 3 ∧
    st.portEn 0 = false := by decide
theorem wit_Packets_write : let k := packet 0 1 (BitVec.ofNat 48 (at0 0)) [1]
    let s := routed (some 0) k
    s.packetAgent (some 0) k = .keeper ∧ s.rangeHeld (at0 0) 1 = false ∧ s.reaches .keeper (at0 0) = true ∧
    State.targetHall (some 0) k = portHall 0 := by decide
theorem wit_Packets_writes : st.takesWrite .keeper (chamberBase 0 + 0) 1 := chamber_takes st 0 1 (by decide) (by decide)
theorem wit_Packets_reply : let m : RemReq := ⟨.dma 0 0, 0, 7, true, false, at0 0, 1, 0, 0⟩
    let s := { works 5 (rowDesc 1 8) .running 1 with remote := [m] }
    s.request (.dma 0 0) 7 = some m ∧ s.recordStalls 0 5 (rowDesc 1 8) = false ∧ s.request (.dma 0 0) 8 = none := by decide

/-! ### Progress, cairns and restores -/

theorem wit_Progress : let s := (appl st [(hallPage 0 0x84, 0x190, 1 + 2 ^ 16)]).setLive (hallPage 0 0x84) 0x8B0 65536
    let w := s.applWord (hallPage 0 0x84) 0x190
    s.reach .keeper (hallPage 0 0x84) 0x8B4 = .all ∧ fieldOf w 0 16 ≠ 0 ∧
    fieldOf w 0 16 * 65536 ≤ (s.liveWord (hallPage 0 0x84) 0x8B0).toNat ∧ (s.hall 0).progFired = false ∧ wbit w 16 = true ∧
    (s.hall 0).task = none ∧ s.reach (.core x0) (hallPage 0 0x84) 0x8B4 = .all := by decide
theorem wit_Restore : (st.hall 0).restoring = none ∧ (st.hall 0).task = none ∧ st.hallState 0 = 2 ∧
    st.reach .keeper (hallPage 0 1) 0x950 = .all ∧ State.reset.hallState 0 = 0 := by decide

/-- The header of an image without pages, and the rest of its 32 KiB. -/
def image : List Byte := natBytes 4 0x4E524143 ++ [1, 0, 0, 0, 1, 0, 0, 0] ++ List.replicate 0x7FF4 0
/-- Hall 0 restores from a slot on another module. -/
def restoring (r : RestoreRun) : State :=
  (appl State.reset [(hallPage 0 1, 0x148, 2 ^ 18)]).modHall 0 fun v => { v with restoring := some r }
theorem wit_Restore_image : let s := restoring ⟨0, false, none, true, none⟩
    s.running = true ∧ (s.hall 0).restoring = some ⟨0, false, none, true, none⟩ ∧ (s.slotCfg 0 0).remote = true ∧
    hdr image 0 4 = 0x4E524143 ∧ hdr image 4 1 = 1 ∧ hdr image 8 4 = 1 ∧ hdr image 0x30 8 = s.live64 (hallPage 0 1) 0x948 ∧
    hdr image 6 2 = s.field 8 0x800 16 16 ∧ hdr image 0x28 4 = 0 ∧ hdr image 0x2C 4 = 0 ∧ ((hdrRanges image 0x40).map (·.2)).sum = 0 ∧
    ((hdrRanges image 0x80).map (·.2)).sum = 0 := by decide
theorem wit_Restore_length : 0 + 0x8000 ≤ image.length := by decide +kernel
theorem wit_Restore_agree : let s := restoring ⟨0, true, none, false, none⟩
    (s.hall 0).restoring = some ⟨0, true, none, false, none⟩ ∧ (∀ k, s.samePart 0 k = true → k ≠ 0 → False) := by decide

/-- A byte of the tier takes a write of an agent that decoder 0 admits. -/
theorem tier_takes (s : State) {a : Agent} (o e : Nat) (ho : o < 0x100000000000) (hd : s.cxlDecode o = some (0, 0, e))
    (ha : ∀ h, agentHall a = some h → s.decoderHas 0 h = true) (hl : s.linkState 0 = 2) :
    s.takesWrite a (0x100000000000 + o) 1 := by
  have hw : winOf (0x100000000000 + o) = .cxl o := by
    unfold winOf; split
    · omega
    · split
      · omega
      · split
        · rw [Nat.add_sub_cancel_left]
        · omega
  have hr : s.reaches a (0x100000000000 + o) = true := by
    simp only [State.reaches, hw, hd]
    cases h : agentHall a with
    | none => rfl
    | some g => exact ha g h
  have hp : pieces (0x100000000000 + o) 1 = [(0x100000000000 + o, 1)] := by
    have : 1 ≤ 64 - (0x100000000000 + o) % 64 := by omega
    simp [pieces, linePieces]
    omega
  refine ⟨?_, ?_, ?_, ?_, ?_⟩
  · simp [State.allBack, hp, State.backs, hr, isControl, hw]
  · simp [State.writeStalls, State.writesStall, hp, State.takesLines, hr, State.holdFull, hw, State.stackWaits]
  · simp [State.protectedAt, hw]
  · simp [State.behindHeld, hw]
  · intro o' d g e' h1 h2
    rw [hw] at h1; cases h1; rw [hd] at h2; cases h2; exact hl
/-- Decoder 0 of `tiered` decodes the first 256 MiB. -/
theorem tiered_decode (o : Nat) (ho : o < 2 ^ 28) : ∃ e, (tiered 2).cxlDecode o = some (0, 0, e) := by
  have h0 : (tiered 2).applWord 0x31 (0x100 + 16 * 0) = 65536 := by decide
  have h1 : (tiered 2).applWord 0x31 (0x104 + 16 * 0) = 4 := by decide
  have h2 : (tiered 2).applWord 0x31 (0x108 + 16 * 0) = 0 := by decide
  have hr : List.range 8 = 0 :: [1, 2, 3, 4, 5, 6, 7] := rfl
  unfold State.cxlDecode
  rw [hr, List.findSome?_cons, h0, h1, h2]
  have : fieldOf (65536 : Word) 0 16 = 0 := by decide
  have : fieldOf (65536 : Word) 16 16 = 1 := by decide
  have : fieldOf (0 : Word) (4 * (o / 4096 % 1)) 3 = 0 := by rw [Nat.mod_one]; decide
  have : fieldOf (4 : Word) 0 2 = 0 := by decide
  simp_all
/-- Hall 0 runs a cairn in slot 0 at the start of the tier, of one gallery page, or may begin one. -/
def cairned (r : Option CairnRun) : State :=
  let s := tiered 2
  let l : List (Nat × Nat) := [(0x144, 0x1000), (0x14C, 1), (0x1C4, 1)]
  let s := { s with applied := l.foldl (fun m (w : Nat × Nat) => SMap.put m (widx (hallPage 0 1) w.1) (BitVec.ofNat 32 w.2)) s.applied }
  s.modHall 0 fun v => { v with cairn := r, galProt := if r.isSome then [(0, true)] else [] }
theorem wit_Cairn_go : let s := cairned none
    s.reach .keeper (hallPage 0 1) 0x900 = .all ∧ s.snapWriter .keeper 0 = true ∧ (s.hall 0).restoring = none ∧ s.hallState 0 ≠ 0 ∧
    (s.slotCfg 0 0).size ≠ 0 ∧ (s.slotCfg 0 0).addr = 0x100000000000 ∧ (s.slotCfg 0 0).remote = false ∧ s.hallMode 0 = 0 ∧
    s.reach .keeper (hallPage 0 1) 0x940 = .all := by decide
theorem wit_Cairn_writes (o : Nat) (h : o < 0x8000) : (tiered 2).takesWrite (snapAgent 0) (0x100000000000 + o) 1 := by
  obtain ⟨e, he⟩ := tiered_decode o (by omega)
  refine tier_takes _ o e (by omega) he (fun g hg => ?_) (by decide)
  cases hg; decide
theorem wit_Cairn_locked : let s := (cairned none).setField 0xA 0x800 0 8 1
    s.reach .keeper (hallPage 0 1) 0x900 = .all ∧ (s.hall 0).cairnKey = [] := by decide
theorem wit_Cairn_copy : let s := cairned (some ⟨0, List.replicate 64 0, false⟩)
    (s.hall 0).cairn = some ⟨0, List.replicate 64 0, false⟩ ∧ (s.nextPage 0).map (fun q => (q.near, q.page, q.off, q.addr 0, q.len)) =
      some (false, 0, 0x8000, galleryBase 0, 0x1000) ∧ s.reaches (snapAgent 0) (galleryBase 0) = true ∧ s.poisoned (galleryBase 0) = false ∧
    s.snapBusy 0 = false ∧ (s.hall 0).nearHeld ++ (s.hall 0).galHeld = [] := by decide
theorem wit_Cairn_complete : let s := (cairned (some ⟨0, List.replicate 64 0, false⟩)).modHall 0 fun v => { v with galProt := [] }
    (s.pagesLeft 0).isEmpty = true ∧ fieldOf (s.applWord (hallPage 0 1) 0x200) 0 8 < 144 := by decide

/-! ### Faults and repair -/

theorem wit_Faults : let s := appl st []
    wbit (s.liveWord (hallPage 0 0) 0x800) 16 = false ∧ (s.hall 0).task = none ∧ (s.hall 0).faults = [] ∧
    s.reach .keeper (hallPage 0 0x80) 0x810 = .all ∧ s.field (hallPage 0 0x80) 0x814 0 2 ≠ 1 ∧ s.hallState 0 = 2 ∧
    s.reach .keeper (hallPage 0 0x80) 0x818 = .all := by decide
theorem wit_Faults_waits : let s := (appl st []).modHall 0 fun v => { v with task := some .selfTest }
    (s.hall 0).task ≠ none ∧ s.hallState 0 ≠ 0 ∧ (∀ n, (s.hall 0).task ≠ some (.repair ⟨0, 0⟩ n)) :=
  ⟨by decide, by decide, fun n h => by cases h⟩
theorem wit_Faults_repair : let s := (appl State.reset []).modHall 0 fun v => { v with task := some (.repair ⟨0, 0⟩ 1) }
    (∀ g, s.samePart 0 g = true → s.hallState g = 0) ∧ (s.hall 0).task = some (.repair ⟨0, 0⟩ 1) ∧
    wbit (s.liveWord (hallPage 0 0) 0x800) 16 = false := by decide
theorem wit_Faults_selfTest : let s := (appl State.reset []).setLive (hallPage 0 0x80) 0x814 1
    s.field (hallPage 0 0x80) 0x814 0 2 = 1 ∧ ∀ g, s.samePart 0 g = true → s.hallState g = 0 := by decide
theorem wit_Faults_readmit : let s := (appl State.reset []).setLive (hallPage 0 0x80) 0x81C 1
    s.field (hallPage 0 0x80) 0x81C 0 2 = 1 ∧ fieldOf (s.liveWord (hallPage 0 0x80) 0x818) 0 11 = (0 : HallId).val * 156 + 0 * 12 + 0 ∧
    s.hallState 0 = 0 := by decide

/-! ### The host interface -/

/-- Function 1 has 8 entries in its rings, its doorbell goes to ring 5 of core 0, and the link is up. -/
def hosted : State :=
  (appl st [(0x20, 0x108, 8), (0x20, 0x118, 8), (0x20, 0x10C, 5 * 2 ^ 11), (corePage 0 1, 0x104 + 8 * 5, 8)]).setLive 0x20 0xC00 2
theorem wit_HostRings : let s := hosted
    s.reach .keeper 0x20 0x800 = .all ∧ wbit (s.liveWord 0x20 0x820) 1 = false ∧ fieldOf (s.applWord 0x20 0x108) 0 13 = 8 ∧
    s.coreSealed 0 = false ∧ s.ringTakes 0 5 = true ∧ st.ringTakes 0 5 = false ∧ s.vfVisible 0 = false ∧
    wbit (s.liveWord 0x20 0xE0C) 0 = true := by decide
theorem wit_HostRings_post : let s := hosted
    s.postsOf 0 = [] ∧ s.readStalls (.vf 0 false) (galleryBase 0) 16 = false ∧ (0 + 1) % 8 ≠ (s.liveWord 0x20 0x808).toNat ∧
    s.takesRead (.vf 0 false) (galleryBase 0) 16 ∧ (s.setLive 0x20 0x808 1).liveWord 0x20 0x808 = 1 := by unfold State.takesRead; decide
theorem wit_HostRings_reset : let s := hosted.setLive 0x20 0x820 2
    wbit (s.liveWord 0x20 0x820) 1 = true ∧ s.reach .keeper 0x20 0x800 = .all := by decide
theorem wit_HostAccesses : let s := hosted
    s.running = true ∧ s.field 0x20 0xC00 0 2 = 2 ∧ st.field 0x20 0xC00 0 2 ≠ 2 ∧ s.pf0Flr = false ∧ (∀ h, s.hallMode h = 0) ∧ s.bar2Wait = [] ∧
    (∀ h : HallId, (s.hall h).nearHeld = []) ∧ isControl (at0 0) = false ∧ s.field 0xB 0x808 0 3 ≠ 5 ∧
    (s.setField 0xA 0x800 0 8 1).hallMode 0 = 0 ∧ s.cfgRead none (.bar 0) ≠ none ∧ barOffset .pf 0x10 = some 0x10 ∧
    barOffset (.vf 0 false) 0x345000 = none ∧ s.vfEnable = false := by decide
theorem wit_HostAccesses_bar2 : (∀ j, j < 2 → hosted.takesRead .pf (at0 0 + j) 1) := by unfold State.takesRead; decide
theorem wit_HostAccesses_write : ∀ j, j < 2 → hosted.takesWrite .pf (chamberBase 0 + (0 + j)) 1 :=
  fun j h => chamber_takes _ (0 + j) 1 (by revert j; decide) (by revert j; decide)
theorem wit_HostAccesses_waits : let s := hosted.modHall 0 fun v => { v with nearHeld := [⟨nearBase 0, [1], .pf, 0, 0⟩] }
    s.bar2Waits ⟨nearBase 0, 1, none, 0⟩ = true := by decide
theorem wit_HostResets : hosted.linkUp = true ∧ st.linkUp = false ∧ st.perst = true ∧ (st.setLive 0x20 0xC00 1).field 0x20 0xC00 0 2 = 1 ∧
    ((startable.modHall 0 fun v => { v with resetting := true }).hall 0).resetting = true ∧
    (startable.modHall 0 fun v => { v with resetting := true }).hallState 0 = 0 := by decide

/-! ### Tenancies, attestation and updates -/

/-- A hall in a mode, with a session and a stream. -/
def tenant (mode : Nat) (r : Option ScrubRun) : State :=
  let s := (appl startable []).setLive 0x20 0xC00 2 |>.setField 8 0x800 0 2 mode |>.setLive 0x20 0x028 1
  { s.modHall 0 fun v => { v with scrub := r, stream := some 3 } with sessions := [1], streams := [3] }
/-- The hypotheses of a lock but for PRODUCTION, which is a fuse of the part (Config.bootstat). -/
theorem wit_Tenancies_lock : let s := tenant 0 none
    s.running = true ∧ s.field 0x20 0xC00 0 2 = 2 ∧ s.pf0Flr = false ∧ s.field 0xB 0x808 0 3 ≠ 5 ∧ s.activating = false ∧ s.hallState 0 = 0 ∧
    s.hallMode 0 = 0 ∧ s.isOut 0 = false ∧ s.stageGen 0x20 ≠ 0 ∧ 1 ∈ s.sessions ∧ 3 ∈ s.streams ∧ (s.hall 0).scrub = none := by decide
theorem wit_Tenancies_modes : (tenant 1 none).hallMode 0 = 1 ∧ (tenant 2 none).hallMode 0 = 2 ∧
    ((tenant 3 (some ⟨.opening, 0, false⟩)).hall 0).scrub = some ⟨.opening, 0, false⟩ ∧ ((tenant 2 none).hall 0).stream = some 3 ∧
    (st.hall 0).stream = none ∧ (tenant 0 none).reach .keeper 8 0x830 = .all := by decide
theorem wit_Tenancies_scrub : let s := tenant 3 (some ⟨.closing, 0, false⟩)
    (s.hall 0).scrub = some ⟨.closing, 0, false⟩ ∧ s.rootTick ≤ 0 + 8400000000 ∧
    ({ s with rootTick := 8400000001 } : State).rootTick > 0 + 8400000000 := by decide
theorem wit_Attestation : let s := { tenant 0 none with spdmReady := true, privKey := some 5 }
    s.running = true ∧ s.field 0x20 0xC00 0 2 = 2 ∧ s.pf0Flr = false ∧ s.field 0xB 0x808 0 3 ≠ 5 ∧ s.spdmReady = true ∧ s.privKey = some 5 ∧
    1 ∈ s.sessions ∧ 2 ∉ s.sessions ∧ (s.hall 0).stream = some 3 ∧ (s.hall 1).stream ≠ some 3 := by decide

/-- A keeper from slot 0 runs, and the update is in a state with `len` bytes. -/
def updating (state len : Nat) : State :=
  { (State.reset.setLive 0xB 0x808 (BitVec.ofNat 32 state)).setLive 0xB 0x80C (BitVec.ofNat 32 len) with
    keeper := some ⟨0, 1, [], false⟩, pldmUpd := decide (state = 4) }
theorem wit_KeeperUpdate : let s := updating 2 8
    s.updServed = true ∧ s.runSlot ≤ 1 ∧ s.running = true ∧ s.reach .keeper 0xB 0x800 = .all ∧ s.field 0xB 0x808 0 3 = 2 ∧
    (s.liveWord 0xB 0x80C).toNat + 4 ≤ 25165824 ∧ s.reach .keeper 8 0x824 = .all ∧ s.pldmUpd = false ∧ s.recovery = false := by decide
theorem wit_KeeperUpdate_states : (updating 0 0).field 0xB 0x808 0 3 = 0 ∧ (updating 1 0).field 0xB 0x808 0 3 = 1 ∧
    (updating 3 8).field 0xB 0x808 0 3 = 3 ∧ (updating 4 8).pldmUpd = true ∧ (updating 4 8).activating = false ∧
    (updating 5 8).field 0xB 0x808 0 3 = 5 ∧ (updating 5 8).rootTick ≤ (updating 5 8).updAt + 1680000000 := by decide
theorem wit_KeeperUpdate_handover : let s := { updating 4 8 with activating := true }
    s.running = true ∧ s.activating = true ∧ (∀ h : HallId, (s.hall h).scrub = none) ∧ s.commits = [] := by decide

/-! ### Power and reset -/

theorem wit_PowerControl : let m : Telemetry :=
      { mw := 1000, uj := 5, vin := 48, iin := 2, cdie := List.replicate 8 40, bdie := List.replicate 8 40, mem := List.replicate 8 40 }
    State.reset.running = true ∧ State.reset.field 2 0x800 18 1 = 0 ∧ m.cdie.length = 8 := by decide
theorem wit_PowerControl_rise : let s := { State.reset.setField 2 0x800 6 3 2 with rootTick := 420000, ceilAt := [(1, some 0)] }
    s.running = true ∧ 4 * s.field 2 0x800 18 1 < s.field 2 0x800 (3 + 3 * 1) 3 := by decide
theorem wit_PowerControl_pins : (State.reset.setField 2 0x800 18 1 1).field 2 0x800 18 1 = 1 ∧
    (State.reset.setField 2 0x800 19 1 1).field 2 0x800 19 1 = 1 ∧ Hall.zero.corePhase < Hall.zero.coreLen := by decide
theorem wit_ModuleResets : State.reset.vin = true ∧ State.reset.pwrGood = true ∧ State.reset.refLost = false ∧
    ({ State.reset with vin := false } : State).pwrGood = false ∧ ({ State.reset with scanHold := true } : State).running = false ∧
    State.reset.reach .keeper 4 0x810 = .all ∧ fieldOf (0x4D52 : Word) 0 16 = 0x4D52 := by decide

/-! ### Standard examples: SM4 of GB/T 32907 and SM3 of GB/T 32905, example 1 of each; the check value of CRC-32 -/

theorem test_sm4 : sm4Enc 0x0123456789ABCDEFFEDCBA9876543210 0x0123456789ABCDEFFEDCBA9876543210 = 0x681EDF34D206965E86B3E94F536E4246 ∧
    sm4Dec 0x0123456789ABCDEFFEDCBA9876543210 0x681EDF34D206965E86B3E94F536E4246 = 0x0123456789ABCDEFFEDCBA9876543210 := by
  decide +kernel
theorem test_sm3 : beNat (sm3 [0x61, 0x62, 0x63]) = 0x66C7F0F462EEEDD9D1F2D46BDC10E4E24167C4875CF2F7A2297DA02B8F4BA8E0 := by
  decide +kernel
theorem test_crc32 : crc32 [0x31, 0x32, 0x33, 0x34, 0x35, 0x36, 0x37, 0x38, 0x39] = 0xCBF43926 := by decide +kernel
end Sys2Proof.Tests
end

