-- ==== Sys2Proof/Proofs/UnsupportedRead.lean ====
section
/-!
SUPPORT. A register read that meets Unsupported Request (R392, R422): its completion is a TLP of the PCIe port, so TX_TLP counts it
(R403; assumption log 24). This refutes O40, one clause of which has such a read leave every control word as it was.
-/
namespace Sys2Proof.Machine

/-- Where an agent meets Unsupported Request, what it sends has not been dropped before (R401, R402). -/
theorem State.hostGone_of_reach_unsupported {s : State} {a : Agent} {p off : Nat} (h : s.reach a p off = .unsupported) :
    s.hostGone a = false := by
  cases hg : s.hostGone a with
  | false => rfl
  | true => simp [State.reach, hg] at h

/-- A read that meets Unsupported Request answers that completion and does nothing else. -/
theorem State.reads_unsupported {s : State} {a : Agent} {p off : Nat} (hr : s.running = true)
    (h : s.reach a p off = .unsupported) : s.reads a p off = .next (s.emit (.hostReply [] .unsupported)).settle := by
  simp [State.reads, State.does, State.event, hr, State.hostGone_of_reach_unsupported h, h]

/-- A 64-bit counter counts in its low word modulo 2 ^ 32 (R42). -/
theorem State.liveWord_count64_low (s : State) {p o : Nat} (n : Nat) (ho : o + 4 < 4096) (ao : o % 4 = 0) :
    (s.count64 p o n).liveWord p o = s.liveWord p o + BitVec.ofNat 32 n := by
  have hne : widx p o ≠ widx p (o + 4) := fun h => by have := (widx_inj (by omega) ho ao (by omega) h).2; omega
  rw [State.count64, State.setLive64, State.liveWord_setLive_ne _ _ hne, State.liveWord_setLive_self]
  apply BitVec.eq_of_toNat_eq
  simp only [w32, State.live64, BitVec.toNat_ofNat, BitVec.toNat_add]
  omega

/-- TX_TLP counts a TLP that leaves the module (R403). -/
theorem State.liveWord_emit_tlp (s : State) {o : Out} (h : isTlp o = true) :
    (s.emit o).liveWord 0x20 0xC10 = s.liveWord 0x20 0xC10 + 1 := by
  have hc := s.liveWord_count64_low (p := 0x20) (o := 0xC10) 1 (by decide) (by decide)
  simp only [State.emit, h, if_true]
  exact hc

/-- In a quiet state, a read that meets Unsupported Request never leads to a state that differs only in what has been sent. -/
theorem State.not_leads_reads_unsupported {s : State} {a : Agent} {p off : Nat} (hr : s.running = true) (hq : s.quiet = true)
    (h : s.reach a p off = .unsupported) (l : List Out) : ¬ Leads (s.reads a p off) (· = { s with out := l }) := by
  rintro ⟨u, hu, rfl⟩
  have hout : ({ s with out := l } : State).quiet = true := hq
  have hemit : (s.emit (.hostReply [] .unsupported)).quiet = true := (s.quiet_emit _).trans hq
  rw [State.reads_unsupported hr h, State.settle_quiet hemit, State.settle_quiet hout] at hu
  injection hu with hst
  have hcount : s.liveWord 0x20 0xC10 + 1 = s.liveWord 0x20 0xC10 :=
    (s.liveWord_emit_tlp (o := .hostReply [] .unsupported) rfl).symm.trans (congrArg (·.liveWord 0x20 0xC10) hst)
  exact absurd hcount (by simp)

/-- The module after start-up, with the PCIe link up and no VF visible. -/
def linkedReset : State := State.reset.setLive 0x20 0xC00 2

theorem linkedReset_running : linkedReset.running = true := rfl

theorem linkedReset_quiet : linkedReset.quiet = true := rfl

/-- The VF of hall 0 is not visible, so a request in its window meets Unsupported Request (R52, R392). -/
theorem linkedReset_reach_vf : linkedReset.reach (.vf 0 false) 0x100 0x800 = .unsupported := by decide

end Sys2Proof.Machine

open Sys2Proof Sys2Proof.Machine

/-- Refutes O40: after start-up with the link up, the host reads a register of hall 0 through the VF of hall 0, which is not visible.
The Unsupported Request that answers is a TLP, which TX_TLP counts (R403), where the statement has only `State.out` differ. -/
theorem not_registersAndErrors : ¬ Obligations.RegistersAndErrors := by
  unfold Obligations.RegistersAndErrors
  rintro ⟨-, hregs⟩
  obtain ⟨-, -, -, -, -, -, -, hunsupported, -⟩ :=
    hregs linkedReset (.vf 0 false) 0x100 0x100 0x800 0x800 linkedReset_running rfl rfl
  obtain ⟨-, hread⟩ := hunsupported linkedReset_reach_vf
  exact linkedReset.not_leads_reads_unsupported linkedReset_running linkedReset_quiet linkedReset_reach_vf _ hread
end

