-- ==== Sys2Proof/Proofs/AddressMap.lean ====
section
/-!
SUPPORT. The windows of the device physical address map (R30): an address of each window lies in it at its own hall or core and offset,
and an address outside them all lies in none (R31). This settles O37.
-/
namespace Sys2Proof.Machine

/-- The number of an element of `Fin n` makes that element again. -/
theorem ofNat_eq_of_eq_val {n : Nat} [NeZero n] {i : Fin n} {k : Nat} (h : k = i.val) : Fin.ofNat n k = i := by
  subst h
  exact Fin.ofNat_val_eq_self i

/-! ### Where each window lies -/

theorem winOf_near (h : HallId) {o : Nat} (ho : o < 0x1200000000) : winOf (nearBase h + o) = .near h o := by
  have hh := h.isLt
  unfold winOf nearBase
  rw [if_pos (by omega), ofNat_eq_of_eq_val (by omega : _ = h.val), (by omega : (_ : Nat) % _ = o)]

theorem winOf_cxl {o : Nat} (ho : o < 0x100000000000) : winOf (0x100000000000 + o) = .cxl o := by
  unfold winOf
  rw [if_neg (by omega), if_neg (by omega), if_pos (by omega), Nat.add_sub_cancel_left]

theorem winOf_gallery (h : HallId) {o : Nat} (ho : o < 0xC000000) : winOf (galleryBase h + o) = .gallery h o := by
  have hh := h.isLt
  have hd : galleryBase h + o - 0xE00000000000 = h.val * 0x10000000 + o := by unfold galleryBase; omega
  have hm : (h.val * 0x10000000 + o) % 0x10000000 = o := by omega
  have hi : Fin.ofNat 8 ((h.val * 0x10000000 + o) / 0x10000000) = h := ofNat_eq_of_eq_val (by omega)
  have ha : galleryBase h + o = 0xE00000000000 + h.val * 0x10000000 + o := rfl
  unfold winOf
  rw [if_neg (by omega), if_neg (by omega), if_neg (by omega), if_neg (by omega), if_pos (by omega)]
  simp only [hd, hm, hi, if_pos ho]

theorem winOf_chamber (c : CoreId) {o : Nat} (ho : o < 0x100000) : winOf (chamberBase c + o) = .chamber c o := by
  have hc := c.isLt
  have hd : chamberBase c + o - 0xE10000000000 = c.val * 0x200000 + o := by unfold chamberBase; omega
  have hm : (c.val * 0x200000 + o) % 0x200000 = o := by omega
  have hi : Fin.ofNat 1152 ((c.val * 0x200000 + o) / 0x200000) = c := ofNat_eq_of_eq_val (by omega)
  have ha : chamberBase c + o = 0xE10000000000 + c.val * 0x200000 + o := rfl
  unfold winOf
  rw [if_neg (by omega), if_neg (by omega), if_neg (by omega), if_neg (by omega), if_neg (by omega), if_neg (by omega),
    if_pos (by omega)]
  simp only [hd, hm, hi, if_pos ho]

theorem winOf_control {o : Nat} (ho : o < 0x4000000) : winOf (controlBase + o) = .control o := by
  unfold winOf controlBase
  rw [if_neg (by omega), if_neg (by omega), if_neg (by omega), if_neg (by omega), if_neg (by omega), if_neg (by omega),
    if_neg (by omega), if_neg (by omega), if_pos (by omega), Nat.add_sub_cancel_left]

/-! ### Nothing outside them -/

/-- An address that lies in some window lies at an offset of one of the five. -/
theorem exists_of_winOf_ne_nothing {a : Nat} (ha : winOf a ≠ .nothing) :
    (∃ (h : HallId) (o : Nat), o < 0x1200000000 ∧ a = nearBase h + o) ∨
    (∃ o, o < 0x100000000000 ∧ a = 0x100000000000 + o) ∨
    (∃ (h : HallId) (o : Nat), o < 0xC000000 ∧ a = galleryBase h + o) ∨
    (∃ (c : CoreId) (o : Nat), o < 0x100000 ∧ a = chamberBase c + o) ∨
    (∃ o, o < 0x4000000 ∧ a = controlBase + o) := by
  unfold winOf at ha
  split at ha
  next near => exact .inl ⟨⟨a / 0x1200000000, by omega⟩, a % 0x1200000000, by omega, by dsimp only [nearBase]; omega⟩
  next =>
  split at ha
  next => exact absurd rfl ha
  next =>
  split at ha
  next cxl => exact .inr (.inl ⟨a - 0x100000000000, by omega, by omega⟩)
  next =>
  split at ha
  next => exact absurd rfl ha
  next =>
  split at ha
  next gallery =>
    dsimp only at ha
    split at ha
    next used =>
      exact .inr (.inr (.inl ⟨⟨(a - 0xE00000000000) / 0x10000000, by omega⟩, _, used, by dsimp only [galleryBase]; omega⟩))
    next => exact absurd rfl ha
  next =>
  split at ha
  next => exact absurd rfl ha
  next =>
  split at ha
  next chamber =>
    dsimp only at ha
    split at ha
    next used =>
      exact .inr (.inr (.inr (.inl ⟨⟨(a - 0xE10000000000) / 0x200000, by omega⟩, _, used, by dsimp only [chamberBase]; omega⟩)))
    next => exact absurd rfl ha
  next =>
  split at ha
  next => exact absurd rfl ha
  next =>
  split at ha
  next control => exact .inr (.inr (.inr (.inr ⟨a - 0xFF0000000000, by omega, by unfold controlBase; omega⟩)))
  next => exact absurd rfl ha

end Sys2Proof.Machine

open Sys2Proof Sys2Proof.Machine

/-- Settles O37: a lemma for each window of R30, and that a window that is not `nothing` is one of them (R31). -/
theorem addressMap : Obligations.AddressMap := by
  unfold Obligations.AddressMap
  intro a
  refine ⟨fun h _ ho => winOf_near h ho, fun _ ho => winOf_cxl ho, fun h _ ho => winOf_gallery h ho,
    fun c _ ho => winOf_chamber c ho, fun n o hn ho => ?_, exists_of_winOf_ne_nothing⟩
  rw [Nat.add_assoc]
  exact winOf_control (by omega)
end

