-- ==== Sys2Proof/Proofs/StepFront.lean ====
section
/-!
SUPPORT. What a step does with the queue of commands: it takes the front one. This settles O1.
-/
namespace Sys2Proof.Machine

/-- With a command at the front of the queue, a step is that command on the state with the queue's rest (assumption log 6). -/
theorem step_of_pending {s : State} {c : Instr} {l : List Instr} (h : s.pending = c :: l) :
    step s = exec c { s with pending := l } := by
  unfold step
  rw [h]

end Sys2Proof.Machine

open Sys2Proof Sys2Proof.Machine

/-- Settles O1: `step` matches on the queue, and the queue here has a front. -/
theorem stepRunsFront : Obligations.StepRunsFront := by
  unfold Obligations.StepRunsFront
  intro c l s
  exact step_of_pending rfl
end

