-- ==== Sys2Proof/Proofs/StrayFlitClass.lean ====
section
/-!
SUPPORT. A repair of a position whose partition is then restored (R451, R453): the restore makes a context switch (R154), a barrier
without members then sends its arrival through a Yarlink port (R303, R383), and the port sends the flit that waits there first. Each
packet that ends in a flit is counted at 0x868 + 8 × class of the port's page. The statement of O52 lets the class of the packet under
way be any number, so its counter may lie anywhere in the control space; here it is REPAIRS of hall 0. This refutes O52, whose repair
clause has REPAIRS count once. No command brings about such a class (`kindClass` is at most 3): a statement that admits only the classes
of R376 is not refuted by this state.
-/
namespace Sys2Proof.Machine

/-! ### What an operation carries over -/

/-- These words of the control pages, the applied configuration, the commits, the ports and the restores of halls are as they were. -/
structure State.Carries (W : List (Nat × Nat)) (s t : State) : Prop where
  word : ∀ w ∈ W, t.liveWord w.1 w.2 = s.liveWord w.1 w.2
  applied : t.applied = s.applied
  commits : t.commits = s.commits
  ports : t.ports = s.ports
  restoring : ∀ g, (t.hall g).restoring = (s.hall g).restoring

variable {W : List (Nat × Nat)}

theorem State.Carries.refl (s : State) : s.Carries W s := ⟨fun _ _ => rfl, rfl, rfl, rfl, fun _ => rfl⟩

theorem State.Carries.trans {s t u : State} (h : s.Carries W t) (k : t.Carries W u) : s.Carries W u :=
  ⟨fun w hw => (k.word w hw).trans (h.word w hw), k.applied.trans h.applied, k.commits.trans h.commits, k.ports.trans h.ports,
    fun g => (k.restoring g).trans (h.restoring g)⟩

theorem State.Carries.mono {V : List (Nat × Nat)} {s t : State} (h : s.Carries W t) (hv : ∀ w ∈ V, w ∈ W) : s.Carries V t :=
  ⟨fun w hw => h.word w (hv w hw), h.applied, h.commits, h.ports, h.restoring⟩

theorem State.Carries.of_live {s t : State} (hl : t.live = s.live) (ha : t.applied = s.applied) (hc : t.commits = s.commits)
    (hp : t.ports = s.ports) (hh : t.halls = s.halls) : s.Carries W t :=
  ⟨fun w _ => by rw [State.liveWord, State.liveWord, hl], ha, hc, hp, fun g => by rw [State.hall, State.hall, hh]⟩

theorem State.Carries.foldl {α : Type} {f : State → α → State} {l : List α} (hf : ∀ a ∈ l, ∀ s : State, s.Carries W (f s a))
    (s : State) : s.Carries W (l.foldl f s) := by
  induction l generalizing s with
  | nil => exact .refl s
  | cons a t ih => exact (hf a (by simp) s).trans (ih (fun b hb => hf b (by simp [hb])) _)

theorem State.Carries.setLive (s : State) {p o : Nat} (v : Word) (h : ∀ w ∈ W, widx w.1 w.2 ≠ widx p o) :
    s.Carries W (s.setLive p o v) := ⟨fun w hw => s.liveWord_setLive_ne v (h w hw), rfl, rfl, rfl, fun _ => rfl⟩

theorem State.Carries.setField (s : State) {p o : Nat} (lo w v : Nat) (h : ∀ w ∈ W, widx w.1 w.2 ≠ widx p o) :
    s.Carries W (s.setField p o lo w v) := .setLive s _ h

theorem State.Carries.count64 (s : State) {p o : Nat} (n : Nat) (h : ∀ w ∈ W, widx w.1 w.2 ≠ widx p o)
    (h' : ∀ w ∈ W, widx w.1 w.2 ≠ widx p (o + 4)) : s.Carries W (s.count64 p o n) :=
  (State.Carries.setLive s _ h).trans (.setLive _ _ h')

theorem State.Carries.modCore (s : State) (c : CoreId) (f : Core → Core) : s.Carries W (s.modCore c f) := .of_live rfl rfl rfl rfl rfl

theorem State.Carries.soilCore (s : State) (c : CoreId) : s.Carries W (s.soilCore c) := .of_live rfl rfl rfl rfl rfl

theorem State.Carries.modHall (s : State) (h : HallId) {f : Hall → Hall} (hf : ∀ v, (f v).restoring = v.restoring) :
    s.Carries W (s.modHall h f) := by
  refine ⟨fun _ _ => rfl, rfl, rfl, rfl, fun g => ?_⟩
  rw [State.hall_modHall]
  split
  next same => rw [hf, same]
  next => rfl

theorem State.Carries.modHallCores (s : State) (h : HallId) (f : Core → Core) : s.Carries W (s.modHallCores h f) :=
  .foldl (fun _ _ s => .modCore s _ _) s

theorem State.Carries.ite {c : Prop} [Decidable c] {s a b : State} (ha : s.Carries W a) (hb : s.Carries W b) :
    s.Carries W (if c then a else b) := by split <;> assumption

/-! ### The counters of a 64-bit register, wherever they lie -/

/-- Two names of one word that have one reset value read alike. -/
theorem State.liveWord_congr (s : State) {p o q r : Nat} (hk : widx p o = widx q r) (hr : resetWord p o = resetWord q r) :
    s.liveWord p o = s.liveWord q r := by rw [State.liveWord, State.liveWord, hk, hr]

/-- A 64-bit counter counts in its low word modulo 2 ^ 32 at any offset (R42). -/
theorem State.liveWord_count64_self (s : State) (p o n : Nat) :
    (s.count64 p o n).liveWord p o = s.liveWord p o + BitVec.ofNat 32 n := by
  have hne : widx p o ≠ widx p (o + 4) := by unfold widx; omega
  rw [State.count64, State.setLive64, State.liveWord_setLive_ne _ _ hne, State.liveWord_setLive_self]
  apply BitVec.eq_of_toNat_eq
  simp only [w32, State.live64, BitVec.toNat_ofNat, BitVec.toNat_add]
  omega

/-! ### Clearing a range -/

theorem SMap.find?_clearRange {α : Type} (m : SMap α) {lo hi k : Nat} (h : ¬(lo ≤ k ∧ k < hi)) :
    SMap.find? (SMap.clearRange m lo hi) k = SMap.find? m k := by
  induction m with
  | nil => rfl
  | cons q t ih =>
    obtain ⟨a, b⟩ := q
    unfold SMap.clearRange
    split
    next inRange =>
      have hne : k ≠ a := fun e => h (e ▸ inRange)
      rw [ih, SMap.find?, if_neg hne]
    next => simp only [SMap.find?, ih]

theorem State.Carries.clearLive (s : State) {p lo hi : Nat} (h : ∀ w ∈ W, widx w.1 w.2 < widx p lo) :
    s.Carries W (s.clearLive p lo hi) := by
  refine ⟨fun w hw => ?_, rfl, rfl, rfl, fun _ => rfl⟩
  have := h w hw
  rw [State.liveWord, State.liveWord, State.clearLive, SMap.get, SMap.get, SMap.find?_clearRange _ (by omega)]

/-! ### The counterexample -/

/-- A class with which the packet counter of port 0 is REPAIRS of hall 0. -/
def strayClass : Nat := 0x2DFF4

theorem widx_strayClass : widx (portPage 0) (0x868 + 8 * strayClass) = widx 0x180 0x808 := by decide

theorem resetWord_strayClass : resetWord (portPage 0) (0x868 + 8 * strayClass) = resetWord 0x180 0x808 := by decide

/-- A port with one byte of a packet of that class still to send, and no link credit for a barrier packet. -/
def strayPort : YPort := { YPort.zero with tail := [0], tailCls := strayClass, used := [(3, 96)] }

/-- Every hall is a partition of its own, and stopped. Port 0 is up and leads to the parent of barrier 64, which hall 0 enables without
members. The last cairn of hall 0 is valid. Row 0 of column 0 is to be repaired. -/
def strayState : State :=
  { State.reset with
    live := [(widx 0 0x800, 5), (widx 0x10 0x800, 3), (widx 0x100 0x800, 0xF), (widx 0x101 0x904, 0x10)]
    applied := [(widx 0x10 0x100, 1), (widx 0x10 0x180, 2), (widx 0x122 0x100, 1)]
    halls := [(0, { Hall.zero with task := some (.repair ⟨0, 0⟩ 1) })]
    ports := [(0, strayPort)] }

/-- The layout, the state of port 0 and the last cairn of hall 0: the words on which the way of the restore depends. -/
def wayWords : List (Nat × Nat) := [(0, 0x800), (0x10, 0x800), (0x10, 0x008), (0x101, 0x904)]

/-- Those words with REPAIRS of hall 0. -/
def repairWords : List (Nat × Nat) := (0x180, 0x808) :: wayWords

/-- Those words with the run state of hall 0. -/
def sealWords : List (Nat × Nat) := (0x100, 0x00C) :: repairWords

/-- A state from which a restore goes the way of the counterexample. -/
structure State.OnWay (s : State) : Prop where
  word : ∀ w ∈ wayWords, s.liveWord w.1 w.2 = strayState.liveWord w.1 w.2
  applied : s.applied = strayState.applied
  commits : s.commits = strayState.commits
  ports : s.ports = strayState.ports

theorem State.OnWay.carry {s t : State} (h : s.OnWay) (k : s.Carries W t) (hw : ∀ w ∈ wayWords, w ∈ W) : t.OnWay :=
  ⟨fun w m => (k.word w (hw w m)).trans (h.word w m), k.applied.trans h.applied, k.commits.trans h.commits, k.ports.trans h.ports⟩

theorem strayState_onWay : strayState.OnWay := ⟨fun _ _ => rfl, rfl, rfl, rfl⟩

/-- None of the words lies in page 0x0020, whose MSI-X table and TLP counters a raise touches. -/
theorem State.Carries.raiseMsix_vf0 (s : State) : s.Carries sealWords (s.raiseMsix 1 1) := by
  unfold State.raiseMsix
  dsimp only
  split
  · exact .setLive s _ (by decide)
  · unfold State.msixSend State.emit
    exact (State.Carries.count64 s 1 (by decide) (by decide)).trans (.of_live rfl rfl rfl rfl rfl)

theorem State.Carries.pend (s : State) (x : Site) (v : Nat) : s.Carries W (s.pend x v) := .of_live rfl rfl rfl rfl rfl

/-- The notice of a page of a hall goes to that hall (R228). -/
theorem State.notice_of_pageHall (s : State) {p : Nat} {h : HallId} (hp : pageHall p = some h) (b : Nat) :
    s.notice p b = s.hallNotice h := by simp only [State.notice, hp]

theorem State.Carries.hallNotice_zero (s : State) : s.Carries sealWords (s.hallNotice 0) :=
  (State.Carries.foldl (fun c _ s => .pend s ⟨c, 0⟩ 36) s).trans (State.Carries.raiseMsix_vf0 _)

/-- An error recorded in the SEAL page of hall 0 and its notice touch none of the words (R38, R228). -/
theorem State.Carries.recordSeal (s : State) : s.Carries sealWords (s.recordErr (sealPage 0) 0) := by
  have hp : firstPage (sealPage 0) = 0x180 := by decide
  have hnotice (t : State) : t.Carries sealWords (t.notice 0x180 0) := by
    rw [t.notice_of_pageHall (h := 0) (by decide)]
    exact .hallNotice_zero t
  have hseq : s.Carries sealWords { s with errSeq := s.errSeq + 1 } := .of_live rfl rfl rfl rfl rfl
  have hfirst (v : Word) (t : State) : t.Carries sealWords (t.setLive 0x180 0x01C v) := .setLive t v (by decide)
  have hbit (v : Word) (t : State) : t.Carries sealWords (t.setLive 0x180 0x010 v) := .setLive t v (by decide)
  unfold State.recordErr
  rw [hp]
  exact .ite (hseq.trans (.trans (.ite (hfirst _ _) (.refl _)) (hbit _ _)))
    (hseq.trans (.trans (.ite (hfirst _ _) (.refl _)) (.trans (hbit _ _) (hnotice _))))

/-! ### The repair -/

/-- A position of hall 0 is sealed, and nothing is done for its spare yet (R453, step 2). -/
def State.marked (s : State) : State :=
  ((s.setColmap 0 0 16 1 1).setLive (sealPage 0) 0x80C (w32 (physId 0 ⟨0, 0⟩ + 2 ^ 11 + 1 * 2 ^ 12))).recordErr (sealPage 0) 0

/-- The spare takes the place of row 0 of column 0 (R453, step 3). -/
def State.substituted (s : State) : State :=
  let t := (s.marked.setColmap 0 0 0 4 0).setColmap 0 0 4 2 1
  t.setLive (sealPage 0) 0x808 (t.liveWord (sealPage 0) 0x808 + 1)

theorem State.Carries.marked (s : State) : s.Carries sealWords s.marked :=
  (State.Carries.setField s _ _ _ (by decide)).trans ((State.Carries.setLive _ _ (by decide)).trans (.recordSeal _))

theorem sealPosition_strayState : ∃ c, strayState.sealPosition 0 ⟨0, 0⟩ 1 = strayState.substituted.soilCore c := by
  have hs : strayState.isSealed 0 ⟨0, 0⟩ = false := by decide
  have h0 : strayState.spareState 0 0 = 0 := by decide
  have hc : strayState.coreAtPosition 0 ⟨0, 0⟩ = some 0 := by decide
  refine ⟨0, ?_⟩
  unfold State.sealPosition
  rw [hs]
  simp only [Bool.false_eq_true, if_false, Fin.val_zero, h0, hc, if_true, Nat.zero_lt_succ]
  rfl

theorem State.Carries.substituted (s : State) : s.Carries ((0x100, 0x00C) :: wayWords) s.substituted :=
  ((State.Carries.marked s).mono (by decide)).trans ((State.Carries.setField _ _ _ _ (by decide)).trans
    ((State.Carries.setField _ _ _ _ (by decide)).trans (.setLive _ _ (by decide))))

/-- The repair of row 0 counts in REPAIRS (R453, step 3). -/
theorem liveWord_repairs_substituted (s : State) : s.substituted.liveWord 0x180 0x808 = s.liveWord 0x180 0x808 + 1 := by
  have hcolmap : s.Carries [(0x180, 0x808)] ((s.marked.setColmap 0 0 0 4 0).setColmap 0 0 4 2 1) :=
    ((State.Carries.marked s).mono (by decide)).trans
      ((State.Carries.setField _ _ _ _ (by decide)).trans (.setField _ _ _ _ (by decide)))
  have hw := hcolmap.word (0x180, 0x808) (by decide)
  exact (State.liveWord_setLive_self _ _ _ _).trans (congrArg (· + 1) hw)

/-- With the spare in its place: what the way of the restore depends on is as in the counterexample, and REPAIRS has counted once. -/
theorem sealed_strayState : strayState.Carries ((0x100, 0x00C) :: wayWords) (strayState.sealPosition 0 ⟨0, 0⟩ 1) ∧
    (strayState.sealPosition 0 ⟨0, 0⟩ 1).liveWord 0x180 0x808 = 1 := by
  obtain ⟨c, hc⟩ := sealPosition_strayState
  rw [hc]
  refine ⟨(State.Carries.substituted _).trans (.soilCore _ c), ?_⟩
  have h0 : strayState.liveWord 0x180 0x808 + 1 = 1 := by decide
  have hsoil := (State.Carries.soilCore (W := [(0x180, 0x808)]) strayState.substituted c).word (0x180, 0x808) (by decide)
  exact hsoil.trans ((liveWord_repairs_substituted _).trans h0)

/-! ### The restore begins -/

/-- Under layout 5 a hall is a partition of its own (R22). -/
theorem State.partHalls_zero {s : State} (h : s.liveWord 0 0x800 = 5) : s.partHalls 0 = [0] := by
  have hp : s.partLive = 5 := by rw [State.partLive, State.field, h]; decide
  have hs : s.samePart 0 = fun g => partOf 5 0 == partOf 5 g.val := by
    funext g
    rw [State.samePart, hp]
    rfl
  rw [State.partHalls, hs]
  decide

/-- The last cairn, in slot 0, is valid. -/
theorem State.lastSlot_zero {s : State} (h : s.liveWord 0x101 0x904 = 0x10) : s.lastSlot 0 = some 0 := by
  have hm : memPage 0 = 0x101 := by decide
  have hv : s.field (memPage 0) 0x904 4 1 = 1 := by rw [State.field, hm, h]; decide
  have hl : s.field (memPage 0) 0x904 3 1 = 0 := by rw [State.field, hm, h]; decide
  rw [State.lastSlot, if_pos hv, hl]

/-- STEP of a header in a slot of this module is read at once. -/
theorem State.lastStep_isNone {s : State} (hl : s.liveWord 0x101 0x904 = 0x10) (hr : (s.slotCfg 0 0).remote = false) :
    (s.lastStep 0).isNone = false := by
  rw [State.lastStep, State.lastSlot_zero hl]
  simp [hr]

/-- The keeper's task for hall 0 is to end its restore, whose check comes first (R451). -/
def State.tasked (s : State) : State := s.modHall 0 fun v => { v with task := some (.finishing true) }

/-- The keeper has read STEP of the last cairn of hall 0 and is to restore the hall (R451). -/
def State.armed (s : State) : State := s.modHall 0 fun v => { v with restoring := some ⟨0, true, s.lastStep 0, false, none⟩ }

theorem State.restoreCheck_armed {s : State} (hp : s.liveWord 0 0x800 = 5) (hl : s.liveWord 0x101 0x904 = 0x10)
    (hr : (s.slotCfg 0 0).remote = false) : s.armed.restoreCheck 0 = s.armed.beginRestore 0 0 true := by
  have hhalls : s.armed.partHalls 0 = [0] := State.partHalls_zero hp
  have hslot : s.armed.lastSlot 0 = some 0 := State.lastSlot_zero hl
  have hrun : (s.armed.hall 0).restoring = some ⟨0, true, s.lastStep 0, false, none⟩ := by
    rw [State.armed, State.hall_modHall_self]
  unfold State.restoreCheck
  simp [hhalls, hslot, hrun, State.lastStep_isNone hl hr, List.eraseDups_cons]

/-- The keeper's work on a hall that stands alone and whose last cairn is valid begins its restore (R450, R451). -/
theorem State.launchRestore_alone {s : State} (hp : s.liveWord 0 0x800 = 5) (hl : s.liveWord 0x101 0x904 = 0x10)
    (hout : s.isOut 0 = false) (hrun : (s.hall 0).restoring = none) (hr : (s.slotCfg 0 0).remote = false) :
    s.launchRestore 0 true = s.tasked.armed.beginRestore 0 0 true := by
  have hpart : s.partRestoring 0 = false := by simp [State.partRestoring, State.partHalls_zero hp, hrun]
  have hslot : s.tasked.lastSlot 0 = some 0 := State.lastSlot_zero hl
  have harm : s.tasked.modHall 0 (fun v =>
      { v with restoring := some ⟨(s.tasked.lastSlot 0).getD 0, true, s.tasked.lastStep 0, false, none⟩ }) = s.tasked.armed := by
    rw [hslot]
    rfl
  rw [← State.restoreCheck_armed (s := s.tasked) hp hl hr, ← harm]
  simp [State.launchRestore, State.partHalls_zero hp, hout, hpart]
  rfl

/-! ### The context switch -/

theorem State.Carries.engSwitch (s : State) : s.Carries repairWords (s.engSwitch 0) := by
  have hwords : ∀ (n : Fin 9) (q : Fin 4), ∀ w ∈ repairWords, ∀ o ∈ [0x800, 0x804, 0x808],
      widx w.1 w.2 ≠ widx (enginePage 0 n.val) (o + 16 * q.val) := by decide
  refine (State.Carries.modHall s 0 (f := fun v => { v with engines := [] }) fun _ => rfl).trans
    (.foldl (fun n _ s => .foldl (fun q _ s => ?_) s) _)
  exact (State.Carries.of_live rfl rfl rfl rfl rfl : s.Carries repairWords (s.dropRequests 0 n q)).trans
    ((State.Carries.setLive _ _ fun w hw => hwords n q w hw 0x800 (by decide)).trans
      ((State.Carries.setLive _ _ fun w hw => hwords n q w hw 0x804 (by decide)).trans
        (.setLive _ _ fun w hw => hwords n q w hw 0x808 (by decide))))

theorem State.Carries.switchChannels (s : State) (c : CoreId) : s.Carries W (s.switchChannels c) :=
  .of_live rfl rfl rfl rfl rfl

theorem State.Carries.clearDrips (s : State) : s.Carries repairWords (s.clearDrips 0) := by
  have hcore (c : CoreId) : ∀ w ∈ repairWords, widx w.1 w.2 < widx (corePage c 0) 0x880 := by
    have hlow : ∀ w ∈ repairWords, widx w.1 w.2 < 0x400000 := by decide
    intro w hw
    have := hlow w hw
    simp only [widx, corePage] at *
    omega
  exact (State.Carries.foldl (fun c _ s => .clearLive s (hcore c)) s).trans
    ((State.Carries.setLive _ _ (by decide)).trans (.setLive _ _ (by decide)))

/-- Where no commit waits, a context switch applies none (R48, R154). -/
theorem State.applyContext_idle {s : State} (h : s.commits = []) (g : HallId) : s.applyContext g = s := by
  unfold State.applyContext
  refine foldl_fixed _ _ _ fun p _ => ?_
  simp [State.commitOf, h, SMap.get, Commit.zero]

theorem State.Carries.takeMeasures (s : State) (h : HallId) : s.Carries W (s.takeMeasures h) := by
  unfold State.takeMeasures
  exact .modHall s h fun _ => rfl

/-! ### The flit that waits -/

/-- A packet that gets no link credit leaves the flit with the byte that was still to be sent. -/
theorem fill_strayPort (k : Packet) (hk : k.kind = 8) : Pack.fill 4 ⟨{ strayPort with queue := [k] }, [], [], []⟩ =
    ⟨{ strayPort with queue := [k], tail := [] }, [0], [strayClass], [strayClass]⟩ := by
  obtain ⟨kind, err, len, src, dst, target, tag, data⟩ := k
  subst hk
  rfl

/-- A barrier packet without a link credit puts nothing into a flit. -/
theorem fill_blocked {v : YPort} {k : Packet} (ht : v.tail = []) (hq : v.queue = [k]) (hk : k.kind = 8)
    (hu : SMap.get v.used 3 0 = 96) : (Pack.fill (2 * v.queue.length + 2) ⟨v, [], [], []⟩).out = [] := by
  have hc : kindClass k.kind.toNat = 3 := by rw [hk]; rfl
  have hn : nextPacket (Pack.may ⟨v, [], [], []⟩) [] [k] = none := by simp [nextPacket, hc, Pack.may, hu]
  rw [hq, show 2 * [k].length + 2 = 3 + 1 from rfl, Pack.fill]
  simp [ht, hq, hn, flitBytes]

theorem State.pumpPortN_idle {s : State} {p : PortId}
    (h : (Pack.fill (2 * (s.port p).queue.length + 2) ⟨s.port p, [], [], []⟩).out = []) (n : Nat) : s.pumpPortN p n = s := by
  cases n with
  | zero => rfl
  | succ n => simp [State.pumpPortN, h]

theorem State.port_setPort_self (s : State) (p : PortId) (v : YPort) : (s.setPort p v).port p = v := by
  simp [State.port, State.setPort]

theorem State.port_emit (s : State) (o : Out) (p : PortId) : (s.emit o).port p = s.port p := by
  unfold State.emit
  split <;> rfl

theorem State.port_setLive (s : State) (q o : Nat) (v : Word) (p : PortId) : (s.setLive q o v).port p = s.port p := rfl

theorem State.port_count64 (s : State) (q o n : Nat) (p : PortId) : (s.count64 q o n).port p = s.port p := rfl

theorem State.live_setPort (s : State) (p : PortId) (v : YPort) : (s.setPort p v).live = s.live := rfl

theorem State.applied_setPort (s : State) (p : PortId) (v : YPort) : (s.setPort p v).applied = s.applied := rfl

theorem YPort.takeOwed_keeps (v : YPort) :
    v.takeOwed.2.2.tail = v.tail ∧ v.takeOwed.2.2.queue = v.queue ∧ v.takeOwed.2.2.used = v.used := by
  unfold YPort.takeOwed
  split <;> exact ⟨rfl, rfl, rfl⟩

/-- A data flit leaves what its port has still to send, and what of its link credits is in use. -/
theorem State.port_sendFlit (s : State) (p : PortId) (n : Nat) (l : List Byte) :
    ((s.sendFlit p n l).port p).tail = (s.port p).tail ∧ ((s.sendFlit p n l).port p).queue = (s.port p).queue ∧
      ((s.sendFlit p n l).port p).used = (s.port p).used := by
  obtain ⟨htail, hqueue, hused⟩ := (s.port p).takeOwed_keeps
  unfold State.sendFlit
  dsimp only
  split
  · rw [State.port_count64, State.port_emit, State.port_setPort_self]
    exact ⟨htail, hqueue, hused⟩
  · rw [State.port_setLive, State.port_count64, State.port_emit, State.port_setPort_self]
    exact ⟨htail, hqueue, hused⟩

theorem State.applied_emit (s : State) (o : Out) : (s.emit o).applied = s.applied := by
  unfold State.emit
  split <;> rfl

theorem State.applied_count64 (s : State) (p o n : Nat) : (s.count64 p o n).applied = s.applied := rfl

theorem State.liveWord_emit_flit (s : State) (p : PortId) (b : List Byte) (q o : Nat) :
    (s.emit (.flit p b)).liveWord q o = s.liveWord q o := rfl

/-- A data flit of port 0 leaves REPAIRS of hall 0, and the applied configuration. -/
theorem State.sendFlit_keeps (s : State) (n : Nat) (l : List Byte) :
    (s.sendFlit 0 n l).liveWord 0x180 0x808 = s.liveWord 0x180 0x808 ∧ (s.sendFlit 0 n l).applied = s.applied := by
  have hcount (t : State) : (t.count64 (portPage 0) 0x810 1).liveWord 0x180 0x808 = t.liveWord 0x180 0x808 :=
    (State.Carries.count64 (W := [(0x180, 0x808)]) t 1 (by decide) (by decide)).word (0x180, 0x808) (by decide)
  have hepoch (t : State) (v : Word) : (t.setLive (portPage 0) 0x808 v).liveWord 0x180 0x808 = t.liveWord 0x180 0x808 :=
    State.liveWord_setLive_ne _ _ (by decide)
  unfold State.sendFlit
  dsimp only
  split
  · rw [hcount, State.liveWord_emit_flit, State.applied_count64, State.applied_emit]
    exact ⟨rfl, rfl⟩
  · rw [hepoch, hcount, State.liveWord_emit_flit, State.setLive_applied, State.applied_count64, State.applied_emit]
    exact ⟨rfl, rfl⟩

/-- A flit in which one packet ends uses a link credit of its class and counts it. -/
theorem State.sendPack_one (s : State) (p : PortId) (v : YPort) (l : List Byte) (c : Nat) :
    s.sendPack p ⟨v, l, [c], [c]⟩ = ((s.setPort p { v with used := SMap.set v.used c 0 (SMap.get v.used c 0 + 1) }).sendFlit p 1
      (l ++ List.replicate (flitBytes - l.length) 0)).count64 (portPage p) (0x868 + 8 * c) 1 := rfl

/-- A flit of port 0 counts the packet that ends in it, and so counts in REPAIRS where its counter lies there. -/
theorem State.sendPack_counts (s : State) (v : YPort) (l : List Byte) {c : Nat}
    (hk : widx (portPage 0) (0x868 + 8 * c) = widx 0x180 0x808) (hr : resetWord (portPage 0) (0x868 + 8 * c) = resetWord 0x180 0x808) :
    (s.sendPack 0 ⟨v, l, [c], [c]⟩).liveWord 0x180 0x808 = s.liveWord 0x180 0x808 + 1 ∧
      (s.sendPack 0 ⟨v, l, [c], [c]⟩).applied = s.applied := by
  rw [State.sendPack_one]
  obtain ⟨hword, happlied⟩ := State.sendFlit_keeps
    (s.setPort 0 { v with used := SMap.set v.used c 0 (SMap.get v.used c 0 + 1) }) 1 (l ++ List.replicate (flitBytes - l.length) 0)
  refine ⟨?_, (State.applied_count64 _ _ _ _).trans happlied⟩
  rw [← State.liveWord_congr _ hk hr, State.liveWord_count64_self, State.liveWord_congr _ hk hr, hword]
  rfl

/-- After a flit in which the packet under way ends, a port whose next packet has no link credit has nothing more to send. -/
theorem State.pumpPortN_sendPack (s : State) (p : PortId) {v : YPort} (l : List Byte) {c : Nat} {k : Packet} (ht : v.tail = [])
    (hq : v.queue = [k]) (hk : k.kind = 8) (hu : SMap.get v.used 3 0 = 96) (hc : c ≠ 3) (n : Nat) :
    (s.sendPack p ⟨v, l, [c], [c]⟩).pumpPortN p n = s.sendPack p ⟨v, l, [c], [c]⟩ := by
  rw [State.sendPack_one]
  obtain ⟨htail, hqueue, hused⟩ := State.port_sendFlit
    (s.setPort p { v with used := SMap.set v.used c 0 (SMap.get v.used c 0 + 1) }) p 1 (l ++ List.replicate (flitBytes - l.length) 0)
  rw [State.port_setPort_self] at htail hqueue hused
  refine State.pumpPortN_idle ?_ n
  rw [State.port_count64]
  refine fill_blocked (htail.trans ht) (hqueue.trans hq) hk ?_
  rw [hused, SMap.get_set_ne _ _ _ _ (Ne.symm hc), hu]

/-- Port 0 may send: it is up and does not pause. -/
theorem State.maySend_stray {s : State} {k : Packet} (hup : s.liveWord 0x10 0x800 = 3) (hctl : s.liveWord 0x10 0x008 = 0)
    (hport : s.port 0 = { strayPort with queue := [k] }) : s.maySend 0 = true := by
  have hpage : portPage 0 = 0x10 := rfl
  have h3 : (fieldOf (3 : Word) 0 3 == 3) = true := by decide
  have h0 : wbit (0 : Word) 0 = false := by decide
  have hu : decide (({ strayPort with queue := [k] } : YPort).unacked.length < 2048) = true := rfl
  have hn : decide (({ strayPort with queue := [k] } : YPort).tx.count < 2 ^ 31) = true := rfl
  simp only [State.maySend, State.portUp, State.portState, State.field, State.retraining, hpage, hup, hctl, hport, h3, h0, hu, hn]
  rfl

/-- Port 0 with a barrier packet sends the flit that waits, and no more. -/
theorem State.pumpPort_stray {s : State} {k : Packet} (hk : k.kind = 8) (hup : s.liveWord 0x10 0x800 = 3)
    (hctl : s.liveWord 0x10 0x008 = 0) (hport : s.port 0 = { strayPort with queue := [k] }) :
    s.pumpPort 0 = s.sendPack 0 ⟨{ strayPort with queue := [k], tail := [] }, [0], [strayClass], [strayClass]⟩ := by
  obtain ⟨m, hm⟩ : ∃ m, s.pumpPort 0 = s.pumpPortN 0 (m + 1) :=
    ⟨(s.port 0).tail.length / flitBytes + ((s.port 0).queue.map flitsOf).sum + (s.port 0).queue.length, by
      rw [State.pumpPort]
      congr 1
      omega⟩
  have hfill : Pack.fill (2 * (s.port 0).queue.length + 2) ⟨s.port 0, [], [], []⟩ =
      ⟨{ strayPort with queue := [k], tail := [] }, [0], [strayClass], [strayClass]⟩ := by
    rw [hport]
    exact fill_strayPort k hk
  rw [hm, State.pumpPortN, if_pos (State.maySend_stray hup hctl hport)]
  simp only [hfill]
  exact State.pumpPortN_sendPack s 0 [0] rfl rfl hk rfl (by decide) m

/-- A barrier packet that goes to port 0 makes REPAIRS count. -/
theorem State.queuePacket_stray {s : State} {k : Packet} (hk : k.kind = 8) (hup : s.liveWord 0x10 0x800 = 3)
    (hctl : s.liveWord 0x10 0x008 = 0) (hport : s.port 0 = strayPort) :
    (s.queuePacket 0 k).liveWord 0x180 0x808 = s.liveWord 0x180 0x808 + 1 ∧ (s.queuePacket 0 k).applied = s.applied := by
  have hcount : s.Carries repairWords (s.count64 (portRouter 0) 0x808 1) := .count64 s 1 (by decide) (by decide)
  obtain ⟨t, ht, htport, hlive, happ⟩ : ∃ t : State, s.queuePacket 0 k = t.pumpPort 0 ∧ t.port 0 = { strayPort with queue := [k] } ∧
      t.live = (s.count64 (portRouter 0) 0x808 1).live ∧ t.applied = s.applied := by
    refine ⟨(s.count64 (portRouter 0) 0x808 1).setPort 0 { strayPort with queue := [k] }, ?_, State.port_setPort_self _ _ _,
      State.live_setPort _ _ _, (State.applied_setPort _ _ _).trans (State.applied_count64 _ _ _ _)⟩
    unfold State.queuePacket
    dsimp only
    rw [State.port_count64, hport]
    rfl
  have hword (w : Nat × Nat) (hw : w ∈ repairWords) : t.liveWord w.1 w.2 = s.liveWord w.1 w.2 := by
    rw [← hcount.word w hw, State.liveWord, State.liveWord, hlive]
  have hpump := State.pumpPort_stray hk ((hword (0x10, 0x800) (by decide)).trans hup)
    ((hword (0x10, 0x008) (by decide)).trans hctl) htport
  obtain ⟨hrep, hsame⟩ := t.sendPack_counts { strayPort with queue := [k], tail := [] } [0] widx_strayClass resetWord_strayClass
  rw [ht, hpump, hrep, hsame, happ]
  exact ⟨congrArg (· + 1) (hword (0x180, 0x808) (by decide)), rfl⟩

/-! ### The barrier that is complete at once -/

/-- Of the barriers only number 64 has a parent behind a port. -/
theorem State.barAtOnce_other {s : State} (ha : s.applied = strayState.applied) {b : Nat} (hb : b ∈ (List.range' 65 15)) :
    s.barAtOnce 0 b = s := by
  have hrole : ∀ b ∈ List.range' 65 15, ∀ p : PortId, (strayState.xbarRole p b == 2) = false := by decide
  have hsame (p : PortId) : s.xbarRole p b = strayState.xbarRole p b := by
    simp only [State.xbarRole, State.applWord, ha]
  have hnone : s.parentPort 0 b = none := by
    rw [State.parentPort, List.find?_eq_none]
    intro p _
    rw [hsame p, hrole b hb p, Bool.and_false]
    decide
  rw [State.barAtOnce, hnone]

/-- An arrival that goes to a port that is up is a packet of kind 8 (R377). -/
theorem State.sendBarrier_arrival {s : State} {p : PortId} (hup : s.portUp p = true) (b : Nat) (r : BitVec 16) :
    ∃ k : Packet, k.kind = 8 ∧ s.sendBarrier p false b r = s.queuePacket p k := by
  refine ⟨{ kind := 8, err := false, len := 0, src := s.myId, dst := (s.liveWord (portPage p) 0x804).setWidth 18,
            target := BitVec.ofNat 48 (b + r.toNat * 2 ^ 7), tag := 0, data := [] }, rfl, ?_⟩
  simp [State.sendBarrier, hup]

/-- Barrier 64 is complete at once, and its arrival goes to port 0. -/
theorem State.barAtOnce_stray {s : State} (h : s.OnWay) : ∃ k : Packet, k.kind = 8 ∧
    s.barAtOnce 0 64 = s.queuePacket 0 k := by
  have happ (p o : Nat) : s.applWord p o = strayState.applWord p o := by rw [State.applWord, State.applWord, h.applied]
  have hlive : s.partLive = strayState.partLive := congrArg (fieldOf · 0 3) (h.word (0, 0x800) (by decide))
  have hparent : s.parentPort 0 64 = some 0 := by
    have : s.parentPort 0 64 = strayState.parentPort 0 64 := by
      simp only [State.parentPort, State.partPorts, State.samePart, State.portEn, State.xbarRole, happ, hlive]
    rw [this]
    decide
  have hroot : s.barRootHall 0 64 = 0 := by
    have : s.barRootHall 0 64 = strayState.barRootHall 0 64 := by simp only [State.barRootHall, State.bcfg, happ]
    rw [this]
    decide
  have hen : s.barEn 0 64 = true := by
    have : s.barEn 0 64 = strayState.barEn 0 64 := by simp only [State.barEn, State.bcfg, happ]
    rw [this]
    decide
  have hempty : s.barEmpty 0 64 = true := by
    have hpart : s.samePart 0 = strayState.samePart 0 := by
      funext g
      simp only [State.samePart, hlive]
    have hmember (g : HallId) : s.barMember g 64 = strayState.barMember g 64 := by
      funext i
      simp only [State.barMember, happ]
    have : s.barEmpty 0 64 = strayState.barEmpty 0 64 := by
      simp only [State.barEmpty, State.barHalls, State.barMembers, State.barEn, State.bcfg, State.partHalls, happ, hpart, hmember]
      rfl
    rw [this]
    decide
  have hchild : s.childPorts 0 64 = [] := by
    have hrole : ∀ p : PortId, (strayState.xbarRole p 64 == 1) = false := by decide
    have hsame (p : PortId) : s.xbarRole p 64 = strayState.xbarRole p 64 := by simp only [State.xbarRole, happ]
    simp [State.childPorts, hsame, hrole]
  have hup : s.portUp 0 = true := by
    have : s.portUp 0 = strayState.portUp 0 :=
      congrArg (fun w => fieldOf w 0 3 == 3) (h.word (0x10, 0x800) (by decide))
    rw [this]
    decide
  obtain ⟨k, hk, hsend⟩ := State.sendBarrier_arrival hup 64 (s.barRound 0 64)
  refine ⟨k, hk, ?_⟩
  rw [State.barAtOnce, hparent, ← hsend]
  exact if_pos ⟨hroot, hen, hempty, hchild⟩

/-- The barriers of a context switch make REPAIRS count. -/
theorem State.foldl_barAtOnce_stray {s : State} (h : s.OnWay) :
    ((List.range 16).foldl (fun s i => s.barAtOnce 0 (64 + i)) s).liveWord 0x180 0x808 = s.liveWord 0x180 0x808 + 1 := by
  have hup : s.liveWord 0x10 0x800 = 3 := (h.word (0x10, 0x800) (by decide)).trans (by decide)
  have hctl : s.liveWord 0x10 0x008 = 0 := (h.word (0x10, 0x008) (by decide)).trans (by decide)
  have hport : s.port 0 = strayPort := (congrArg (SMap.get · 0 YPort.zero) h.ports).trans (by decide)
  obtain ⟨k, hk, hsend⟩ := State.barAtOnce_stray h
  obtain ⟨hrep, happ⟩ := State.queuePacket_stray hk hup hctl hport
  have hlist : (List.range 16).map (64 + ·) = 64 :: List.range' 65 15 := by decide
  rw [← List.foldl_map (f := (64 + ·)) (g := fun s b => State.barAtOnce s 0 b), hlist, List.foldl_cons, hsend,
    foldl_fixed _ _ _ fun b hb => State.barAtOnce_other (happ.trans h.applied) hb, hrep]

theorem State.switchBarriers_stray {s : State} (h : s.OnWay) :
    (s.switchBarriers 0).liveWord 0x180 0x808 = s.liveWord 0x180 0x808 + 1 := by
  have hcarry (f : Core → Core) {W : List (Nat × Nat)} :
      s.Carries W ((s.modHall 0 fun v => { v with bar := BarTree.zero }).modHallCores 0 f) :=
    (State.Carries.modHall s 0 (f := fun v => { v with bar := BarTree.zero }) fun _ => rfl).trans (.modHallCores _ 0 f)
  unfold State.switchBarriers
  rw [State.foldl_barAtOnce_stray (h.carry (hcarry _) fun _ hw => hw)]
  exact congrArg (· + 1) ((hcarry _).word (0x180, 0x808) (List.mem_singleton.2 rfl))

/-! ### The repair and the restore -/

/-- The context switch of the restore makes REPAIRS count. -/
theorem State.contextSwitch_stray {s : State} (h : s.OnWay) :
    (s.contextSwitch 0).liveWord 0x180 0x808 = s.liveWord 0x180 0x808 + 1 := by
  have hcarry {W : List (Nat × Nat)} : s.Carries W ((hallCores 0).foldl (fun s c => s.switchChannels c) (s.dropFlights 0)) :=
    (State.Carries.of_live rfl rfl rfl rfl rfl : s.Carries W (s.dropFlights 0)).trans (.foldl (fun c _ s => .switchChannels s c) _)
  have hswitch := State.switchBarriers_stray (h.carry hcarry fun _ hw => hw)
  have hstat (u : State) (v : Nat) : u.Carries repairWords ((u.setField (hallPage 0 0) 0x00C 16 16 v).takeMeasures 0) :=
    (State.Carries.setField u _ _ _ (by decide)).trans (.takeMeasures _ 0)
  unfold State.contextSwitch
  rw [State.applyContext_idle (h.commits.trans rfl)]
  dsimp only
  rw [(hstat _ _).word (0x180, 0x808) (by decide), (State.Carries.engSwitch _).word (0x180, 0x808) (by decide),
    (State.Carries.clearDrips _).word (0x180, 0x808) (by decide), hswitch]
  exact congrArg (· + 1) (hcarry.word (0x180, 0x808) (List.mem_singleton.2 rfl))

/-- The restore that follows the repair makes REPAIRS count a second time. -/
theorem State.beginRestore_stray {s : State} (h : s.OnWay) :
    (s.beginRestore 0 0 true).liveWord 0x180 0x808 = s.liveWord 0x180 0x808 + 1 := by
  have hswitch := State.contextSwitch_stray (h.carry (State.Carries.engSwitch s) (by decide))
  have hstat (u : State) : u.Carries repairWords ((u.setField (hallPage 0 0) 0x00C 3 1 1).setRstat 0 1 0) :=
    (State.Carries.setField u _ _ _ (by decide)).trans (.setLive _ _ (by decide))
  unfold State.beginRestore
  dsimp only
  rw [State.liveWord_modHall, (hstat _).word (0x180, 0x808) (by decide), hswitch,
    (State.Carries.engSwitch s).word (0x180, 0x808) (by decide)]

/-- The keeper's work on the counterexample: REPAIRS has counted twice. -/
theorem liveWord_repairs_keeperTask : (strayState.keeperTask 0).liveWord 0x180 0x808 = 2 := by
  obtain ⟨hseal, hrep⟩ := sealed_strayState
  have hway := strayState_onWay.carry hseal (by decide)
  have htask : strayState.keeperTask 0 = (strayState.sealPosition 0 ⟨0, 0⟩ 1).launchRestore 0 true := by
    have hstop : (strayState.partHalls 0).all strayState.stopped = true := by decide
    have hrepair : (strayState.hall 0).task = some (.repair ⟨0, 0⟩ 1) := rfl
    simp only [State.keeperTask, hstop, hrepair, Bool.not_true, Bool.false_eq_true, if_false]
  rw [htask]
  generalize strayState.sealPosition 0 ⟨0, 0⟩ 1 = s at *
  have hlayout : s.liveWord 0 0x800 = 5 := (hway.word (0, 0x800) (by decide)).trans (by decide)
  have hslot : s.liveWord 0x101 0x904 = 0x10 := (hway.word (0x101, 0x904) (by decide)).trans (by decide)
  have hout : s.isOut 0 = false := (congrArg (wbit · 2) (hseal.word (0x100, 0x00C) (by decide))).trans (by decide)
  have hrun : (s.hall 0).restoring = none := (hseal.restoring 0).trans rfl
  have hremote : (s.slotCfg 0 0).remote = false := by
    have : (s.slotCfg 0 0).remote = (strayState.slotCfg 0 0).remote := by simp only [State.slotCfg, State.applWord, hway.applied]
    rw [this]
    decide
  have harmed : s.tasked.armed.OnWay := ⟨hway.word, hway.applied, hway.commits, hway.ports⟩
  rw [State.launchRestore_alone hlayout hslot hout hrun hremote, State.beginRestore_stray harmed]
  exact (congrArg (· + 1) hrep).trans (by decide)

end Sys2Proof.Machine

open Sys2Proof Sys2Proof.Machine

/-- Refutes O52: in `strayState` the repair of row 0 of column 0 of hall 0 leaves REPAIRS at 2, where its clause on the keeper's work
has it count once from 0. The second count is that of the packet under way at port 0, whose class is no class of R376. -/
theorem not_faultsAndRepair : ¬ Obligations.FaultsAndRepair := by
  unfold Obligations.FaultsAndRepair
  intro h
  obtain ⟨-, hfault, -⟩ := h strayState 0 0x180 rfl
  obtain ⟨-, -, -, -, hwork⟩ := hfault ⟨0, 0⟩ .coreReset 1 rfl rfl
  obtain ⟨hseals, -, -⟩ := hwork (by decide) (by decide) rfl
  obtain ⟨-, -, -, -, hspare, -⟩ := hseals
  obtain ⟨-, -, hrepairs, -⟩ := hspare (by decide) (by decide)
  have htwo : (2 : Word) = strayState.liveWord 0x180 0x808 + 1 := liveWord_repairs_keeperTask.symm.trans hrepairs
  exact absurd htwo (by decide)
end

