-- ==== Sys2Proof/Proofs/ResetState.lean ====
section
/-!
SUPPORT. The state after reset, read through the model's accessors: no core, hall or byte of memory is listed, so each reads as its zero
(R151, R250; assumption logs 4 and 8). This settles O4.
-/
namespace Sys2Proof.Machine

/-! ### What is not listed reads as zero -/

theorem State.core_reset (c : CoreId) : State.reset.core c = Core.zero := rfl

theorem State.hall_reset (h : HallId) : State.reset.hall h = Hall.zero := rfl

theorem State.thread_reset (x : Site) : State.reset.thread x = Thread.zero := rfl

theorem Thread.reg_zero_thread (r : BitVec 5) : Thread.zero.reg r = 0 := by
  simp [Thread.reg, Thread.zero, SMap.get]

theorem State.cellAt_mem_reset (a : Nat) : cellAt State.reset.mem a = none := rfl

/-! ### Bytes by window -/

/-- A byte of the gallery is that of its place in the banks. -/
theorem State.byteAt_of_gallery (s : State) {a o : Nat} {h : HallId} (hw : winOf a = .gallery h o) :
    s.byteAt a = (cellAt s.mem (s.placeOf (.gallery h o))).getD 0 := by
  simp only [State.byteAt, hw]

/-- A byte of a chamber is that of its place in the banks. -/
theorem State.byteAt_of_chamber (s : State) {a o : Nat} {c : CoreId} (hw : winOf a = .chamber c o) :
    s.byteAt a = (cellAt s.mem (s.placeOf (.chamber c o))).getD 0 := by
  simp only [State.byteAt, hw]

/-! ### Control words -/

/-- Full power, and no error recorded (R36, R464). -/
theorem State.liveWord_reset_module :
    State.reset.liveWord 2 0x800 = 0 ∧ State.reset.liveWord 0 0x01C = 0xFF ∧ State.reset.liveWord 0 0x010 = 0 := by decide

/-- Every hall is stopped, open and in service (R153, R419). -/
theorem State.hallState_reset (h : HallId) :
    State.reset.hallState h = 0 ∧ State.reset.hallMode h = 0 ∧ State.reset.isOut h = false := by
  revert h; decide

/-- No error of a hall is recorded, and its completion queue is empty with its phase bit 1 (R36, R37). -/
theorem State.liveWord_reset_hall (h : HallId) : State.reset.liveWord (hallPage h 0) 0x010 = 0 ∧
    State.reset.liveWord (hallPage h 0) 0x01C = 0xFF ∧ State.reset.liveWord (0x20 + h.val) 0x80C = 0x10000 := by
  revert h; decide

end Sys2Proof.Machine

open Sys2Proof Sys2Proof.Machine

/-- Settles O4: the fields of the reset state as it lists them, and a lemma for each accessor that the statement reads through. -/
theorem resetValues : Obligations.ResetValues := by
  unfold Obligations.ResetValues
  obtain ⟨hpower, hfirst, herr⟩ := State.liveWord_reset_module
  refine ⟨rfl, rfl, rfl, rfl, rfl, rfl, rfl, rfl, rfl, rfl, rfl, rfl, rfl, hpower, hfirst, herr, fun h => ?_, fun x r => ?_,
    fun c n => ?_, fun h o ho => ?_, fun c o ho => ?_⟩
  case refine_1 =>
    obtain ⟨hstopped, hopen, hin⟩ := State.hallState_reset h
    exact ⟨hstopped, hopen, hin, State.hall_reset h, State.liveWord_reset_hall h⟩
  case refine_2 =>
    rw [State.thread_reset]
    exact ⟨rfl, Thread.reg_zero_thread r, rfl, rfl⟩
  case refine_3 =>
    rw [State.core_reset]
    exact ⟨rfl, rfl, rfl⟩
  case refine_4 => rw [State.byteAt_of_gallery _ (winOf_gallery h ho), State.cellAt_mem_reset, Option.getD_none]
  case refine_5 => rw [State.byteAt_of_chamber _ (winOf_chamber c ho), State.cellAt_mem_reset, Option.getD_none]
end

