-- ==== Sys2Proof/Proofs/CopiedAreas.lean ====
section
/-!
SUPPORT. GO, the check, the application and REVERT of a configuration copy the staged areas of a block's pages from one table to another
(R47 to R49). What a word of the table reads after such a copy: inside the areas the source's word, elsewhere the word of before. The
keys of the source must rise, as they do in every table of the model.
-/
namespace Sys2Proof.Machine

/-! ### Copying a range of a table -/

/-- A table whose keys rise from above a key holds nothing under it. -/
theorem SMap.find?_eq_none_of_rising {α : Type} {lo k : Nat} (m : SMap α) (h : risingFrom lo m = true) (hk : k < lo) :
    SMap.find? m k = none := by
  induction m generalizing lo with
  | nil => rfl
  | cons p t ih =>
    obtain ⟨a, b⟩ := p
    simp only [risingFrom, Bool.and_eq_true, decide_eq_true_eq] at h
    obtain ⟨hlo, ht⟩ := h
    rw [SMap.find?, if_neg (by omega)]
    exact ih ht (by omega)

theorem SMap.find?_clearRange_of_mem {α : Type} (m : SMap α) {lo hi k : Nat} (h : lo ≤ k ∧ k < hi) :
    SMap.find? (SMap.clearRange m lo hi) k = none := by
  induction m with
  | nil => rfl
  | cons q t ih =>
    obtain ⟨a, b⟩ := q
    unfold SMap.clearRange
    split
    next => exact ih
    next outside =>
      have hne : k ≠ a := fun e => outside (e ▸ h)
      rw [SMap.find?, if_neg hne]
      exact ih

/-- The entries of a range of a table with rising keys, put one after the other into another table. -/
theorem SMap.find?_foldl_put_range {α : Type} {lo hi n : Nat} (src dst : SMap α) (k : Nat) (h : risingFrom n src = true) :
    SMap.find? ((SMap.range src lo hi).foldl (fun m p => SMap.put m p.1 p.2) dst) k =
      if lo ≤ k ∧ k < hi then (SMap.find? src k).or (SMap.find? dst k) else SMap.find? dst k := by
  induction src generalizing dst n with
  | nil => simp [SMap.range]
  | cons p t ih =>
    obtain ⟨a, b⟩ := p
    simp only [risingFrom, Bool.and_eq_true, decide_eq_true_eq] at h
    obtain ⟨-, ht⟩ := h
    have honce : SMap.find? t a = none := SMap.find?_eq_none_of_rising t ht (Nat.lt_succ_self a)
    simp only [SMap.range, SMap.find?]
    split
    next inRange =>
      rw [List.foldl_cons, ih _ ht, SMap.find?_put]
      by_cases hk : k = a
      · simp [hk, honce, inRange]
      · simp [hk]
    next outside =>
      rw [ih _ ht]
      by_cases hk : k = a
      · simp [hk, outside]
      · simp [hk]

/-- A copied range reads as in the source, all else as before. -/
theorem SMap.find?_copyRange {α : Type} {lo hi n : Nat} (src dst : SMap α) (k : Nat) (h : risingFrom n src = true) :
    SMap.find? (SMap.copyRange src dst lo hi) k = if lo ≤ k ∧ k < hi then SMap.find? src k else SMap.find? dst k := by
  rw [SMap.copyRange, SMap.find?_foldl_put_range _ _ _ h]
  split
  next inRange => rw [SMap.find?_clearRange_of_mem _ inRange, Option.or_none]
  next outside => rw [SMap.find?_clearRange _ outside]

/-! ### The staged areas of a block -/

/-- The index of an aligned word lies in the staged area of a page when the word is one of that area (R43). -/
theorem widx_mem_area_iff {p q o : Nat} (ho : o < 4096) (ao : o % 4 = 0) :
    areaLo p ≤ widx q o ∧ widx q o < areaHi p ↔ p = q ∧ 0x100 ≤ o ∧ o < 0x800 := by
  unfold areaLo areaHi widx
  omega

/-- An aligned word after the staged areas of pages have been copied. -/
theorem find?_copyAreas {n : Nat} (src dst : SMap Word) (ps : List Nat) (h : risingFrom n src = true) {q o : Nat} (ho : o < 4096)
    (ao : o % 4 = 0) : SMap.find? (copyAreas src dst ps) (widx q o) =
      if q ∈ ps ∧ 0x100 ≤ o ∧ o < 0x800 then SMap.find? src (widx q o) else SMap.find? dst (widx q o) := by
  unfold copyAreas
  induction ps generalizing dst with
  | nil => simp
  | cons p t ih =>
    rw [List.foldl_cons, ih, SMap.find?_copyRange _ _ _ h, ← ite_or]
    simp only [widx_mem_area_iff ho ao, List.mem_cons]
    exact if_congr (by grind) rfl rfl

/-- Table `new` reads in the staged areas of the block of page `p` as `m` does, and elsewhere as `old` does (R43). -/
def CopiesBlock (p : Nat) (m old new : SMap Word) : Prop :=
  ∀ q o, o < 4096 → o % 4 = 0 →
    (q ∈ blockPages p ∧ 0x100 ≤ o ∧ o < 0x800 ∧ o % 4 = 0 →
      SMap.get new (widx q o) (resetWord q o) = SMap.get m (widx q o) (resetWord q o)) ∧
    (¬(q ∈ blockPages p ∧ 0x100 ≤ o ∧ o < 0x800 ∧ o % 4 = 0) →
      SMap.get new (widx q o) (resetWord q o) = SMap.get old (widx q o) (resetWord q o))

theorem copiesBlock_copyAreas {n : Nat} (p : Nat) (m old : SMap Word) (h : risingFrom n m = true) :
    CopiesBlock p m old (copyAreas m old (blockPages p)) := by
  intro q o ho ao
  simp only [SMap.get, find?_copyAreas _ _ _ h ho ao]
  constructor
  · rintro ⟨hq, hlo, hhi, -⟩
    rw [if_pos ⟨hq, hlo, hhi⟩]
  · intro hnot
    rw [if_neg fun ⟨hq, hlo, hhi⟩ => hnot ⟨hq, hlo, hhi, ao⟩]

end Sys2Proof.Machine
end

