-- ==== Sys2Proof/Proofs/CommitFrame.lean ====
section
/-!
SUPPORT. What leaves the commits of every block as they are: time that passes (R462, R470), and what the application of a configuration
does to its block besides the applied values (R48). Both write control words at offsets other than COMMIT_STAT's and STAGE_GEN's.
-/
namespace Sys2Proof.Machine

/-- The configurations and commit phases of every block, its COMMIT_STAT and STAGE_GEN, and the time are as they were. -/
structure State.KeepsCommits (s t : State) : Prop where
  staged : t.staged = s.staged
  waiting : t.waiting = s.waiting
  applied : t.applied = s.applied
  commits : t.commits = s.commits
  rootTick : t.rootTick = s.rootTick
  stat : ∀ p, t.liveWord p 0x024 = s.liveWord p 0x024
  gen : ∀ p, t.liveWord p 0x028 = s.liveWord p 0x028

/-- The state so many periods of the root clock later, nothing else changed. -/
def State.after (s : State) (n : Nat) : State := { s with rootTick := s.rootTick + n }

/-- An offset at which neither COMMIT_STAT nor STAGE_GEN of any page lies (R36). -/
abbrev offCommit (o : Nat) : Prop := o / 4 % 1024 ≠ 9 ∧ o / 4 % 1024 ≠ 10

namespace State.KeepsCommits

theorem refl (s : State) : s.KeepsCommits s := ⟨rfl, rfl, rfl, rfl, rfl, fun _ => rfl, fun _ => rfl⟩

theorem trans {s t u : State} (h : s.KeepsCommits t) (k : t.KeepsCommits u) : s.KeepsCommits u :=
  ⟨k.staged.trans h.staged, k.waiting.trans h.waiting, k.applied.trans h.applied, k.commits.trans h.commits,
    k.rootTick.trans h.rootTick, fun p => (k.stat p).trans (h.stat p), fun p => (k.gen p).trans (h.gen p)⟩

/-- Some periods of the root clock, and then some more. -/
theorem later {s t u : State} {m n : Nat} (h : (s.after m).KeepsCommits t) (k : (t.after n).KeepsCommits u) :
    (s.after (m + n)).KeepsCommits u where
  staged := k.staged.trans h.staged
  waiting := k.waiting.trans h.waiting
  applied := k.applied.trans h.applied
  commits := k.commits.trans h.commits
  rootTick := (k.rootTick.trans (congrArg (· + n) h.rootTick)).trans (Nat.add_assoc _ _ _)
  stat p := (k.stat p).trans (h.stat p)
  gen p := (k.gen p).trans (h.gen p)

/-! ### Updates of the state -/

theorem foldl {α : Type} {f : State → α → State} {l : List α} (hf : ∀ a ∈ l, ∀ s : State, s.KeepsCommits (f s a)) (s : State) :
    s.KeepsCommits (l.foldl f s) := by
  induction l generalizing s with
  | nil => exact refl s
  | cons a t ih => exact (hf a (by simp) s).trans (ih (fun b hb => hf b (by simp [hb])) _)

theorem ite {c : Prop} [Decidable c] {s a b : State} (ha : s.KeepsCommits a) (hb : s.KeepsCommits b) :
    s.KeepsCommits (if c then a else b) := by split <;> assumption

theorem setLive (s : State) (p : Nat) {o : Nat} (v : Word) (h : offCommit o) : s.KeepsCommits (s.setLive p o v) := by
  have hword {r : Nat} (hr : r = 0x024 ∨ r = 0x028) (q : Nat) : (s.setLive p o v).liveWord q r = s.liveWord q r :=
    s.liveWord_setLive_ne v (by unfold widx; omega)
  exact ⟨rfl, rfl, rfl, rfl, rfl, hword (.inl rfl), hword (.inr rfl)⟩

theorem setField (s : State) (p : Nat) {o : Nat} (lo w v : Nat) (h : offCommit o) : s.KeepsCommits (s.setField p o lo w v) :=
  setLive s p _ h

theorem countSat (s : State) (p : Nat) {o : Nat} (n : Nat) (h : offCommit o) : s.KeepsCommits (s.countSat p o n) := setLive s p _ h

theorem setLive64 (s : State) (p : Nat) {o : Nat} (n : Nat) (h : offCommit o) (h' : offCommit (o + 4)) :
    s.KeepsCommits (s.setLive64 p o n) := (setLive s p _ h).trans (setLive _ p _ h')

theorem counts64 (s : State) (p : Nat) {o : Nat} (n : Nat) (h : offCommit o) (h' : offCommit (o + 4)) :
    s.KeepsCommits (s.counts64 p o n) := ite (refl s) (setLive64 s p _ h h')

theorem setHall (s : State) (h : HallId) (v : Hall) : s.KeepsCommits (s.setHall h v) :=
  ⟨rfl, rfl, rfl, rfl, rfl, fun _ => rfl, fun _ => rfl⟩

theorem modHall (s : State) (h : HallId) (f : Hall → Hall) : s.KeepsCommits (s.modHall h f) := setHall s h _

theorem cores (s : State) (m : SMap Core) : s.KeepsCommits { s with cores := m } :=
  ⟨rfl, rfl, rfl, rfl, rfl, fun _ => rfl, fun _ => rfl⟩

theorem setPort (s : State) (p : PortId) (v : YPort) : s.KeepsCommits (s.setPort p v) :=
  ⟨rfl, rfl, rfl, rfl, rfl, fun _ => rfl, fun _ => rfl⟩

/-! ### The slower clocks -/

theorem coreClock (s : State) (h : HallId) (n : Nat) : s.KeepsCommits (s.coreClock h n) := by
  have hstretches (t : State) (k : Nat) : t.KeepsCommits (t.counts64 3 (0x900 + 16 * h.val) k) :=
    counts64 t 3 k (by omega) (by omega)
  have hstretched (t : State) (k : Nat) : t.KeepsCommits (t.counts64 3 (0x908 + 16 * h.val) k) :=
    counts64 t 3 k (by omega) (by omega)
  exact (setHall s h _).trans ((hstretches _ _).trans ((hstretched _ _).trans (cores _ _)))

theorem meshClock (s : State) (n : Nat) : s.KeepsCommits (s.meshClock n) := by
  have hstarved (p : PortId) (s : State) :
      s.KeepsCommits ((s.port p).starved.foldl (fun s c => s.counts64 (portPage p) (0x848 + 8 * c) n) s) := by
    refine foldl (fun c hc s => ?_) s
    have hclass : c ∈ [0, 1, 2, 3] := (List.mem_filter.1 hc).1
    have hlt : c < 4 := (by decide : ∀ c ∈ [0, 1, 2, 3], c < 4) c hclass
    exact counts64 s _ n (by omega) (by omega)
  have hheld (s : State) := foldl (l := List.finRange 8) (fun h _ s => ite (c := (s.hall h).nearHeld.isEmpty = true) (refl s)
    (counts64 s (memPage h) (o := 0x848) n (by decide) (by decide))) s
  have hwaits (s : State) := foldl (l := List.finRange 8) (fun h _ s => foldl (l := s.ejWaits h) (fun k _ s =>
    counts64 s (hallPage h (0x90 + k)) (o := 0x818) n (by decide) (by decide)) s) s
  exact (hheld s).trans ((hwaits _).trans (foldl (fun p _ s => ite (hstarved p s) (refl s)) _))

theorem engClock (s : State) (n : Nat) : s.KeepsCommits (s.engClock n) :=
  foldl (fun _ _ s => foldl (fun _ _ s => ite (counts64 s _ n (by decide) (by decide)) (refl s)) s) s

theorem progClock (s : State) (h : HallId) (n : Nat) : s.KeepsCommits (s.progClock h n) :=
  ite (setLive s _ _ (by decide)) (refl s)

theorem ctlClock (s : State) (n : Nat) : s.KeepsCommits (s.ctlClock n) := by
  have hresidency (s : State) : s.KeepsCommits (s.counts64 3 (0x880 + 8 * s.powerState) n) := by
    have hlt : s.powerState < 8 := Nat.mod_lt _ (by decide)
    exact counts64 s 3 n (by omega) (by omega)
  have hreason : ∀ r ∈ [0, 1, 2, 3, 4], offCommit (0x808 + 16 * r) ∧ offCommit (0x808 + 16 * r + 4) := by decide
  unfold State.ctlClock
  exact (foldl (fun h _ s => progClock s h n) s).trans ((hresidency _).trans
    (foldl (fun r hr s => ite (setLive64 s 3 _ (hreason r hr).1 (hreason r hr).2) (refl s)) _))

/-! ### Power states -/

theorem setCeiling (s : State) (r v : Nat) : s.KeepsCommits (s.setCeiling r v) :=
  ite (refl s) ((setField s 2 _ _ _ (by decide)).trans ⟨rfl, rfl, rfl, rfl, rfl, fun _ => rfl, fun _ => rfl⟩)

theorem follow (s : State) : s.KeepsCommits s.follow :=
  (setField s 2 _ _ _ (by decide)).trans (setField _ 4 _ _ _ (by decide))

theorem powerStep (s : State) {f : State → State} (hf : s.KeepsCommits (f s)) : s.KeepsCommits (s.powerStep f) := by
  have hreason : ∀ r ∈ [0, 1, 2, 3, 4], offCommit (0x800 + 16 * r) := by decide
  exact hf.trans (foldl (fun r hr s => ite (countSat s 3 1 (hreason r hr)) (refl s)) _)

theorem dropCeiling (s : State) (r : Nat) : s.KeepsCommits (s.dropCeiling r) :=
  powerStep s ((setCeiling s r _).trans (follow _))

theorem powerChange (s : State) : s.KeepsCommits s.powerChange := powerStep s (follow s)

/-! ### Time -/

/-- Periods of the root clock with one power state in force. -/
theorem pass (s : State) (n : Nat) : (s.after n).KeepsCommits (s.pass n) :=
  (foldl (fun h _ s => coreClock s h n) _).trans ((ite (refl _) (meshClock _ _)).trans ((ite (refl _) (engClock _ _)).trans
    (ite (refl _) (ctlClock _ _))))

/-- Periods of the root clock, also where the ceiling of a current alert comes into force in them (R470). -/
theorem advance {s : State} (hr : s.running = true) (n : Nat) : (s.after n).KeepsCommits (s.advance n) := by
  unfold State.advance
  rw [hr, Bool.not_true, if_neg Bool.false_ne_true]
  dsimp only
  split
  next => exact pass s n
  next due =>
    have hsum : s.alertAt + 210 * 40 - s.rootTick + (n - (s.alertAt + 210 * 40 - s.rootTick)) = n := by omega
    have htwice := ((pass s (s.alertAt + 210 * 40 - s.rootTick)).trans (powerChange _)).later
      (pass _ (n - (s.alertAt + 210 * 40 - s.rootTick)))
    rwa [hsum] at htwice

/-! ### Effects of an application -/

theorem renewDecoders (s : State) (new : SMap Word) : s.KeepsCommits (s.renewDecoders new) := by
  have hkeys (t : State) (d : Nat) : t.KeepsCommits (t.newTierKeys d) := ⟨rfl, rfl, rfl, rfl, rfl, fun _ => rfl, fun _ => rfl⟩
  exact foldl (fun d _ t => ite (hkeys t d) (refl t)) s

theorem progMark (s : State) (h : HallId) : s.KeepsCommits (s.progMark h) := (modHall s h _).trans (setLive _ _ _ (by decide))

theorem dropPort (s : State) (p : PortId) : s.KeepsCommits (s.dropPort p) :=
  (setPort s p _).trans ((setLive _ _ _ (by decide)).trans (countSat _ _ _ (by decide)))

theorem setPstat (s : State) (p : PortId) (state width ok : Nat) : s.KeepsCommits (s.setPstat p state width ok) :=
  setLive s _ _ (by decide)

theorem applyYarlink (s old : State) (p : PortId) : s.KeepsCommits (s.applyYarlink old p) := by
  have hdown : s.KeepsCommits (((s.dropPort p).setPstat p 0 0 0).setLive (portPage p) 0x804 0) :=
    (dropPort s p).trans ((setPstat _ _ _ _ _).trans (setLive _ _ _ (by decide)))
  unfold State.applyYarlink
  dsimp only
  exact (ite hdown (refl s)).trans (ite (setPstat _ _ _ _ _) (refl _))

theorem applyCxlPort (s old : State) (p : Nat) : s.KeepsCommits (s.applyCxlPort old p) := by
  have hlink : ∀ l ∈ List.range 4, offCommit (0x800 + 4 * l) := by decide
  unfold State.applyCxlPort
  refine foldl (fun l hl s => ?_) s
  dsimp only
  exact ite (refl s) (setLive s _ _ (hlink l hl))

/-- PROD and CONS of an engine's queues are set to zero (R319). -/
theorem emptyQueues (s : State) (h : HallId) (n : Fin 9) :
    s.KeepsCommits ((List.finRange 4).foldl (fun s q => (s.setProd h n q 0).setCons h n q 0) s) := by
  have hqueue : ∀ q : Fin 4, offCommit (0x800 + 16 * q.val) ∧ offCommit (0x804 + 16 * q.val) := by decide
  exact foldl (fun q _ s => (setLive s _ _ (hqueue q).1).trans (setLive _ _ _ (hqueue q).2)) s

theorem applyEffects (s old : State) (p : Nat) : s.KeepsCommits (s.applyEffects old p) := by
  unfold State.applyEffects
  cases pageBlock p with
  | none => exact refl s
  | some r =>
    obtain ⟨b, k, i⟩ := r
    cases b with
    | keeper => exact (setLive s _ _ (by decide)).trans (foldl (fun h _ s => modHall s h _) _)
    | hall => exact (setLive s _ _ (by decide)).trans ((setLive _ _ _ (by decide)).trans ((setLive _ _ _ (by decide)).trans
        (setLive _ _ _ (by decide))))
    | siphon => exact emptyQueues s _ _
    | sort => exact emptyQueues s _ _
    | sampler => exact emptyQueues s _ _
    | squeeze => exact emptyQueues s _ _
    | cipher => exact emptyQueues s _ _
    | hdma => exact emptyQueues s _ _
    | memctl => exact ite (refl s) ((setField s _ _ _ _ (by decide)).trans
        (ite ((setField _ _ _ _ _ (by decide)).trans (modHall _ _ _)) (refl _)))
    | cxl => exact applyCxlPort s old _
    | yarlink => exact applyYarlink s old _
    | host => exact (setLive s _ _ (by decide)).trans ((setLive _ _ _ (by decide)).trans ((setLive _ _ _ (by decide)).trans
        (setLive _ _ _ (by decide))))
    | security =>
      have hhall : ∀ h : HallId, offCommit (0x800 + 4 * h.val) := by decide
      exact foldl (fun h _ s => setField s _ _ _ _ (hhall h)) s
    | progress => exact progMark s _
    | power => exact (dropCeiling s 3).trans (dropCeiling _ 4)
    | _ => exact refl s

end State.KeepsCommits
end Sys2Proof.Machine
end

