-- ==== Sys2Proof/Proofs/Commits.lean ====
section
/-!
SUPPORT. The life of a commit (R45 to R50): what GO, REVERT, the end of the check, the application and the time-out do, one equation for
each case, and what each command leads to. This settles O39.
-/
namespace Sys2Proof.Machine

/-! ### The commands -/

theorem exec_commitGo (a : Agent) (page : PageNo) (s : State) : exec (.commitGo a page) s = execCommitGo a page s := rfl

theorem exec_commitRevert (a : Agent) (page : PageNo) (s : State) : exec (.commitRevert a page) s = execCommitRevert a page s := rfl

theorem exec_commitCheckEnd (page : PageNo) (s : State) : exec (.commitCheckEnd page) s = execCommitCheckEnd page s := rfl

theorem exec_commitApply (page : PageNo) (s : State) : exec (.commitApply page) s = execCommitApply page s := rfl

theorem exec_commitTimeout (page : PageNo) (s : State) : exec (.commitTimeout page) s = execCommitTimeout page s := rfl

/-- A write of COMMIT by an agent that reaches the page (R45, R46). -/
theorem State.ctlWriteWord_commit {s : State} {a : Agent} {p : Nat} (hreach : s.reach a p 0x020 = .all) (hc : hasConfig p = true)
    (v : Word) : s.ctlWriteWord a (p * 4096 + 0x020) v = s.writeCommit p v := by
  have hpage : (p * 4096 + 0x020) / 4096 = p := by omega
  have hoff : (p * 4096 + 0x020) % 4096 = 0x020 := by omega
  simp only [State.ctlWriteWord, State.writeWord, hpage, hoff, hreach]
  cases hb : pageBlock p with
  | none => simp [hasConfig, blockPages, hb] at hc
  | some r => simp [State.writeHeader]

theorem State.writeCommit_go (s : State) (p : Nat) : s.writeCommit p 1 = s.commitGo p := rfl

theorem State.writeCommit_revert (s : State) (p : Nat) : s.writeCommit p 2 = s.commitRevert p := rfl

section
variable {s : State} {page : PageNo} {P : State → Prop} (hr : s.running = true)
include hr

theorem leads_commitGo {a : Agent} (hreach : s.reach a page.toNat 0x020 = .all) (hc : hasConfig page.toNat = true)
    (h : P (s.commitGo page.toNat)) : Leads (exec (.commitGo a page) s) P := by
  rw [exec_commitGo]
  refine leads_does hr ?_
  rwa [State.ctlWriteWord_commit hreach hc, State.writeCommit_go]

theorem leads_commitRevert {a : Agent} (hreach : s.reach a page.toNat 0x020 = .all) (hc : hasConfig page.toNat = true)
    (h : P (s.commitRevert page.toNat)) : Leads (exec (.commitRevert a page) s) P := by
  rw [exec_commitRevert]
  refine leads_does hr ?_
  rwa [State.ctlWriteWord_commit hreach hc, State.writeCommit_revert]

theorem leads_commitCheckEnd (h : P (s.commitCheckEnd page.toNat)) : Leads (exec (.commitCheckEnd page) s) P := by
  rw [exec_commitCheckEnd]
  exact leads_does hr h

theorem leads_commitApply (h : P ((s.passToSafe page.toNat).commitApply page.toNat)) : Leads (exec (.commitApply page) s) P := by
  rw [exec_commitApply]
  exact leads_does hr h

theorem leads_commitTimeout (h : P (s.commitTimeout page.toNat)) : Leads (exec (.commitTimeout page) s) P := by
  rw [exec_commitTimeout]
  exact leads_does hr h

end

/-! ### Phase and COMMIT_STAT -/

@[simp] theorem State.commitOf_setCommit (s : State) (p : Nat) (c : Commit) : (s.setCommit p c).commitOf p = c :=
  SMap.get_set_self _ _ _ _

@[simp] theorem State.commitOf_setLive (s : State) (p q o : Nat) (v : Word) : (s.setLive q o v).commitOf p = s.commitOf p := rfl

@[simp] theorem State.commitOf_setCommitStat (s : State) (p q state reason off : Nat) (ov : Bool) :
    (s.setCommitStat q state reason off ov).commitOf p = s.commitOf p := State.commitOf_setLive _ _ _ _ _

/-- With a COMMIT_STAT written, that word alone differs from a state with the same words. -/
theorem State.puts_setCommitStat {s t : State} (h : t.live = s.live) (p state reason off : Nat) (ov : Bool) :
    s.puts (t.setCommitStat p state reason off ov)
      [((p, 0x024), BitVec.ofNat 32 (state + b2n ov * 4 + reason * 2 ^ 8 + off * 2 ^ 16))] :=
  State.puts_setLive (State.puts_of_live h) _ (by decide) (by decide)

/-- OVERRUN is set (R46). -/
def State.overrun (s : State) (p : Nat) : State := s.setField p 0x024 2 1 1

theorem State.puts_overrun (s : State) (p : Nat) :
    s.puts (s.overrun p) [((p, 0x024), BitVec.ofNat 32 (setBits (s.liveWord p 0x024).toNat 2 1 1))] :=
  State.puts_setLive s.puts_refl _ (by decide) (by decide)

/-- A commit ends without effect, for a reason that a register gives (R48, R49). -/
def State.commitFail (s : State) (p reason off : Nat) : State :=
  (s.setCommit p Commit.zero).setCommitStat p 3 reason off (s.commitOverrun p)

/-- A commit that fails leaves the configuration as it was (R49). -/
theorem State.commitFail_keeps (s : State) (p reason off : Nat) :
    (s.commitFail p reason off).commitOf p = ⟨false, false⟩ ∧ (s.commitFail p reason off).applied = s.applied ∧
    (s.commitFail p reason off).staged = s.staged ∧ s.puts (s.commitFail p reason off)
      [((p, 0x024), BitVec.ofNat 32 (3 + b2n (s.commitOverrun p) * 4 + reason * 2 ^ 8 + off * 2 ^ 16))] :=
  ⟨by simp [State.commitFail, Commit.zero], State.setLive_applied _ _ _ _, State.setLive_staged _ _ _ _,
    State.puts_setCommitStat rfl _ _ _ _ _⟩

section
variable {s : State} {p : Nat}

/-! ### GO and REVERT -/

theorem State.commitGo_of_idle (hc : hasConfig p = true) (hp : firstPage p = p) (h : s.commitState p ≠ 1) : s.commitGo p =
    ({ s with snap := copyAreas s.staged s.snap (blockPages p) }.setCommit p ⟨true, false⟩).setCommitStat p 1 0 0 false := by
  simp [State.commitGo, hc, hp, h]

/-- A GO replaces a commit that has passed its check and waits for a context switch (R47). -/
theorem State.commitGo_of_waiting (hc : hasConfig p = true) (hp : firstPage p = p) (h : s.commitState p = 1)
    (hx : ctxBlock p = true) (hw : s.commitOf p = ⟨false, true⟩) :
    s.commitGo p = { s with snap := copyAreas s.staged s.snap (blockPages p) }.setCommit p ⟨true, true⟩ := by
  simp [State.commitGo, hc, hp, h, hx, hw]

theorem State.commitGo_of_busy (hc : hasConfig p = true) (hp : firstPage p = p) (h : s.commitState p = 1)
    (hn : ctxBlock p = false ∨ s.commitOf p ≠ ⟨false, true⟩) : s.commitGo p = s.overrun p := by
  have hnot : ¬(ctxBlock p && (s.commitOf p).waiting && !(s.commitOf p).checking) = true := by
    simp only [Bool.and_eq_true, Bool.not_eq_true']
    rintro ⟨⟨hctx, hwaits⟩, hchecked⟩
    have hphase : s.commitOf p = ⟨false, true⟩ := congrArg₂ Commit.mk hchecked hwaits
    exact hn.elim (by simp [hctx]) (absurd hphase)
  unfold State.commitGo
  dsimp only
  rw [if_neg (by simp [hc, hp]), if_neg (not_not.2 h), if_neg hnot, State.overrun]

theorem State.commitRevert_of_idle (hc : hasConfig p = true) (hp : firstPage p = p) (h : s.commitState p ≠ 1) :
    s.commitRevert p = { s with staged := copyAreas s.applied s.staged (blockPages p) } := by
  simp [State.commitRevert, hc, hp, h]

theorem State.commitRevert_of_busy (hc : hasConfig p = true) (hp : firstPage p = p) (h : s.commitState p = 1) :
    s.commitRevert p = s.overrun p := by
  simp [State.commitRevert, State.overrun, hc, hp, h]

/-! ### The check -/

theorem lowest_eq_none_iff (l : Failing) : lowest l = none ↔ l = [] := by
  cases l with
  | nil => simp [lowest]
  | cons f t =>
    simp only [lowest]
    split
    · split <;> simp
    · simp

/-- The failure that is shown is one of them, and none lies at a lower offset (R50). -/
theorem lowest_eq_some {l : Failing} {f : Nat × Nat} (h : lowest l = some f) : f ∈ l ∧ ∀ g ∈ l, f.1 ≤ g.1 := by
  induction l generalizing f with
  | nil => simp [lowest] at h
  | cons e t ih =>
    simp only [lowest] at h
    split at h
    next g hg =>
      obtain ⟨hmem, hleast⟩ := ih hg
      split at h
      next less =>
        obtain rfl := Option.some.inj h
        exact ⟨List.mem_cons_of_mem e hmem, List.forall_mem_cons.2 ⟨less.le, hleast⟩⟩
      next notLess =>
        obtain rfl := Option.some.inj h
        exact ⟨List.mem_cons_self, List.forall_mem_cons.2 ⟨le_rfl, fun k hk => (Nat.le_of_not_lt notLess).trans (hleast k hk)⟩⟩
    next hnone =>
      obtain rfl := (lowest_eq_none_iff t).1 hnone
      obtain rfl := Option.some.inj h
      simp

theorem State.commitCheckEnd_of_passed (hk : (s.commitOf p).checking = true) (h : s.failing p = []) :
    s.commitCheckEnd p = { s with waiting := copyAreas s.snap s.waiting (blockPages p) }.setCommit p ⟨false, true⟩ := by
  simp [State.commitCheckEnd, hk, (lowest_eq_none_iff _).2 h]

theorem State.commitCheckEnd_of_failed {off reason : Nat} (hk : (s.commitOf p).checking = true)
    (h : lowest (s.failing p) = some (off, reason)) : s.commitCheckEnd p = s.commitFail p reason off := by
  simp [State.commitCheckEnd, State.commitFail, hk, h]

theorem State.commitTimeout_of_waiting (hw : s.commitOf p = ⟨false, true⟩) (hx : ctxBlock p = false) :
    s.commitTimeout p = s.commitFail p 9 0x100 := by
  rw [State.commitTimeout, if_pos (by simp [hw, hx]), State.commitFail]

/-! ### Applying -/

/-- What the application of a waiting configuration leaves, where no other is being checked (R48). -/
structure State.Applies (s : State) (p : Nat) (t : State) : Prop where
  copied : CopiesBlock p s.waiting s.applied t.applied
  staged : t.staged = s.staged
  phase : t.commitOf p = ⟨false, false⟩
  gen : t.liveWord p 0x028 = s.liveWord p 0x028 + 1
  stat : t.liveWord p 0x024 = BitVec.ofNat 32 (2 + b2n (s.commitOverrun p) * 4 + 0 * 2 ^ 8 + 0 * 2 ^ 16)
  rootTick : t.rootTick = s.rootTick

/-- The waiting configuration of a block has taken the place of the applied one, and COMMIT_STAT and STAGE_GEN show it; the effects on
the block are still to come. -/
def State.takeUp (s : State) (p : Nat) : State :=
  let new := copyAreas s.waiting s.applied (blockPages p)
  let t := if p = 0x30 then s.renewDecoders new else s
  (({ t with applied := new }.setCommit p ⟨false, false⟩).setLive p 0x028 (s.liveWord p 0x028 + 1)).setCommitStat p 2 0 0
    (s.commitOverrun p)

theorem State.applyWaiting_eq (hw : s.commitOf p = ⟨false, true⟩) : s.applyWaiting p = (s.takeUp p).applyEffects s p := by
  simp [State.applyWaiting, State.takeUp, hw]

theorem State.takeUp_applies (hrise : risingFrom 0 s.waiting = true) : s.Applies p (s.takeUp p) := by
  have hkeys : s.KeepsCommits (if p = 0x30 then s.renewDecoders (copyAreas s.waiting s.applied (blockPages p)) else s) :=
    .ite (.renewDecoders _ _) (.refl _)
  have hne : widx p 0x028 ≠ widx p 0x024 := by unfold widx; omega
  constructor
  case copied =>
    dsimp only [State.takeUp, State.setCommitStat, State.setLive, State.setCommit]
    exact copiesBlock_copyAreas p _ _ hrise
  case staged =>
    dsimp only [State.takeUp, State.setCommitStat, State.setLive, State.setCommit]
    exact hkeys.staged
  case phase => simp [State.takeUp]
  case gen => rw [State.takeUp, State.setCommitStat, State.liveWord_setLive_ne _ _ hne, State.liveWord_setLive_self]
  case stat => rw [State.takeUp, State.setCommitStat, State.liveWord_setLive_self, w32]
  case rootTick =>
    dsimp only [State.takeUp, State.setCommitStat, State.setLive, State.setCommit]
    exact hkeys.rootTick

/-- What keeps the commits after an application leaves it as it is. -/
theorem State.Applies.keeps {t u : State} (h : s.Applies p t) (k : t.KeepsCommits u) : s.Applies p u where
  copied := k.applied ▸ h.copied
  staged := k.staged.trans h.staged
  phase := (congrArg (SMap.get · p Commit.zero) k.commits).trans h.phase
  gen := (k.gen p).trans h.gen
  stat := (k.stat p).trans h.stat
  rootTick := k.rootTick.trans h.rootTick

/-- What keeps the commits before an application does not change what is applied. -/
theorem State.KeepsCommits.applies {t u : State} (k : s.KeepsCommits t) (h : t.Applies p u) : s.Applies p u where
  copied := k.waiting ▸ k.applied ▸ h.copied
  staged := h.staged.trans k.staged
  phase := h.phase
  gen := h.gen.trans (by rw [k.gen])
  stat := h.stat.trans (by rw [State.commitOverrun, State.commitOverrun, k.stat])
  rootTick := h.rootTick.trans k.rootTick

theorem State.applyWaiting_applies (hrise : risingFrom 0 s.waiting = true) (hw : s.commitOf p = ⟨false, true⟩) :
    s.Applies p (s.applyWaiting p) :=
  State.applyWaiting_eq hw ▸ (State.takeUp_applies hrise).keeps (.applyEffects _ _ _)

theorem State.commitApply_of_safe (hw : s.commitOf p = ⟨false, true⟩) (hs : s.safePoint p = true) :
    s.commitApply p = s.applyWaiting p := by
  simp [State.commitApply, hw, hs]

/-! ### KEEPER -/

theorem State.live_foldl_modHall (l : List HallId) (f : Hall → Hall) (s : State) :
    (l.foldl (fun s h => s.modHall h f) s).live = s.live := by
  induction l generalizing s with
  | nil => rfl
  | cons g t ih => exact ih (s.modHall g f)

theorem State.outHeld_foldl_modHall (l : List HallId) (s : State) {h : HallId} (hl : h ∈ l ∨ (s.hall h).outHeld = false) :
    ((l.foldl (fun s h => s.modHall h fun v => { v with outHeld := false }) s).hall h).outHeld = false := by
  induction l generalizing s with
  | nil => simpa using hl
  | cons g t ih =>
    refine ih _ ?_
    rw [State.hall_modHall]
    by_cases hg : h = g
    · simp [hg]
    · simpa [hg] using hl

theorem State.partLive_congr {s t : State} (h : t.live = s.live) : t.partLive = s.partLive := by
  simp only [State.partLive, State.field, State.liveWord, h]

/-- The applied layout is in force, and nothing keeps a hall stopped any longer (R21, R22; assumption log 40). -/
theorem State.applyEffects_keeper (s old : State) : (s.applyEffects old 0).partLive = (s.applyEffects old 0).layout ∧
    ∀ h : HallId, ((s.applyEffects old 0).hall h).outHeld = false := by
  have heffects : s.applyEffects old 0 = (List.finRange 8).foldl (fun s h => s.modHall h fun v => { v with outHeld := false })
    (s.setLive 0 0x800 (w32 s.layout)) := rfl
  have hlayout : (s.applyEffects old 0).layout = s.layout := by
    simp only [State.layout, State.applWord, (State.KeepsCommits.applyEffects s old 0).applied]
  have hlt : s.layout < 8 := Nat.mod_lt _ (by decide)
  refine ⟨?_, fun h => heffects ▸ State.outHeld_foldl_modHall _ _ (.inl (List.mem_finRange h))⟩
  rw [hlayout, heffects, State.partLive_congr (State.live_foldl_modHall _ _ _), State.partLive, State.field,
    State.liveWord_setLive_self]
  simp only [fieldOf, w32, BitVec.toNat_ofNat, bitsOf]
  omega

/-! ### POWER -/

/-- At a safe point no time has to pass. -/
theorem State.passToSafe_of_safe (hs : s.safePoint p = true) : s.passToSafe p = s := by
  unfold State.passToSafe
  split
  next power =>
    obtain ⟨rfl, -, -⟩ := power
    have hend : s.rootTick % 81920 = 0 := by simpa [State.safePoint, pageBlock] using hs
    exact if_neg (by unfold intervalTicks; omega)
  next => rfl

/-- Time passes to the first end of an interval that is not past (R474). -/
theorem State.passToSafe_power (hr : s.running = true) (hw : s.commitOf 2 = ⟨false, true⟩) :
    ∃ n < 81920, (s.after n).KeepsCommits (s.passToSafe 2) ∧ (s.rootTick + n) % 81920 = 0 := by
  have hpass : s.passToSafe 2 = s.passTo ((s.rootTick + (intervalTicks - 1)) / intervalTicks * intervalTicks) := by
    simp [State.passToSafe, hw]
  have hticks : intervalTicks = 81920 := rfl
  rw [hpass, State.passTo, hticks]
  split
  next => exact ⟨_, by omega, .advance hr _, by omega⟩
  next => exact ⟨0, by omega, .refl s, by omega⟩

/-- The application of POWER is that of the state at the end of the interval. -/
theorem State.commitApply_power (hr : s.running = true) (hrise : risingFrom 0 s.waiting = true)
    (hw : s.commitOf 2 = ⟨false, true⟩) :
    ∃ n < 81920, (s.after n).Applies 2 ((s.passToSafe 2).commitApply 2) ∧ (s.rootTick + n) % 81920 = 0 := by
  obtain ⟨n, hn, hkeeps, hend⟩ := State.passToSafe_power hr hw
  have htime : (s.passToSafe 2).rootTick = s.rootTick + n := hkeeps.rootTick
  have hphase : (s.passToSafe 2).commitOf 2 = ⟨false, true⟩ := (congrArg (SMap.get · 2 Commit.zero) hkeeps.commits).trans hw
  have hsafe : (s.passToSafe 2).safePoint 2 = true := by simp [State.safePoint, pageBlock, htime, hend]
  have hwaits : risingFrom 0 (s.passToSafe 2).waiting = true := hkeeps.waiting ▸ hrise
  rw [State.commitApply_of_safe hphase hsafe]
  exact ⟨n, hn, hkeeps.applies (State.applyWaiting_applies hwaits hphase), hend⟩

end
end Sys2Proof.Machine

open Sys2Proof Sys2Proof.Machine

/-- Settles O39: each case of GO, REVERT, the check, the application and the time-out by its equation. A copy of staged areas reads as
the statement says because keys rise; POWER's time passes without touching a commit. -/
theorem commits : Obligations.Commits := by
  unfold Obligations.Commits
  intro s page p hrun hp hconf hfirst hstaged hsnap hwaiting happlied
  subst hp
  dsimp only
  refine ⟨fun a hreach => ⟨fun idle => leads_commitGo hrun hreach hconf ?goIdle,
      fun busy hctx hw => leads_commitGo hrun hreach hconf ?goReplaces, fun busy hn => leads_commitGo hrun hreach hconf ?goOverruns,
      fun idle => leads_commitRevert hrun hreach hconf ?revert, fun busy => leads_commitRevert hrun hreach hconf ?revertOverruns⟩,
    fun hcheck => ⟨fun passed => leads_commitCheckEnd hrun ?passes, fun failed => ?fails⟩,
    fun hw safe => leads_commitApply hrun ?applies, fun hw hpower => leads_commitApply hrun ?power,
    fun hw hctx => leads_commitTimeout hrun ?timeout⟩
  case goIdle =>
    rw [State.commitGo_of_idle hconf hfirst idle]
    exact ⟨copiesBlock_copyAreas _ _ _ hstaged, rfl, rfl, by simp, State.puts_setCommitStat rfl _ _ _ _ _⟩
  case goReplaces =>
    rw [State.commitGo_of_waiting hconf hfirst busy hctx hw]
    exact ⟨copiesBlock_copyAreas _ _ _ hstaged, rfl, rfl, rfl, by simp, rfl⟩
  case goOverruns =>
    rw [State.commitGo_of_busy hconf hfirst busy hn]
    exact ⟨s.puts_overrun _, rfl, rfl, rfl, rfl, rfl⟩
  case revert =>
    rw [State.commitRevert_of_idle hconf hfirst idle]
    exact ⟨copiesBlock_copyAreas _ _ _ happlied, rfl, rfl, rfl⟩
  case revertOverruns =>
    rw [State.commitRevert_of_busy hconf hfirst busy]
    exact ⟨s.puts_overrun _, rfl, rfl, rfl, rfl, rfl⟩
  case passes =>
    rw [State.commitCheckEnd_of_passed hcheck passed]
    exact ⟨copiesBlock_copyAreas _ _ _ hsnap, by simp, rfl, rfl⟩
  case fails =>
    obtain ⟨⟨off, reason⟩, hl⟩ := Option.ne_none_iff_exists'.1 (mt (lowest_eq_none_iff _).1 failed)
    obtain ⟨hmem, hleast⟩ := lowest_eq_some hl
    refine ⟨off, reason, hmem, hleast, leads_commitCheckEnd hrun ?_⟩
    rw [State.commitCheckEnd_of_failed hcheck hl]
    exact s.commitFail_keeps _ _ _
  case applies =>
    rw [State.passToSafe_of_safe safe, State.commitApply_of_safe hw safe]
    obtain ⟨hcopied, hstays, hphase, hgen, hstat, -⟩ := State.applyWaiting_applies hwaiting hw
    refine ⟨hcopied, hstays, hphase, hgen, hstat, fun hkeeper => ?_⟩
    rw [hkeeper] at hw ⊢
    rw [State.applyWaiting_eq hw]
    exact State.applyEffects_keeper _ _
  case power =>
    rw [hpower] at hw ⊢
    obtain ⟨n, hn, ⟨hcopied, -, -, hgen, hstat, htick⟩, hend⟩ := State.commitApply_power hrun hwaiting hw
    have htime : ((s.passToSafe 2).commitApply 2).rootTick = s.rootTick + n := htick
    exact ⟨htime ▸ hend, by omega, by omega, hcopied, hgen, hstat⟩
  case timeout =>
    rw [State.commitTimeout_of_waiting hw hctx]
    exact s.commitFail_keeps _ _ _
end

