-- ==== Sys2Proof/Proofs/LiveWords.lean ====
section
/-!
SUPPORT. States that differ from one another in live words of the control pages alone: registers written and counters counted (R42, R81).
-/
namespace Sys2Proof.Machine

/-- Nothing differs but live words of the control pages. -/
def State.liveOnly (s t : State) : Prop := t = { s with live := t.live }

theorem State.liveOnly_refl (s : State) : s.liveOnly s := rfl

theorem State.liveOnly_setLive {s t : State} (h : s.liveOnly t) (p o : Nat) (v : Word) : s.liveOnly (t.setLive p o v) := by
  unfold State.liveOnly at h ⊢
  rw [h]
  rfl

theorem State.liveOnly_trans {s t u : State} (h : s.liveOnly t) (k : t.liveOnly u) : s.liveOnly u := by
  unfold State.liveOnly at *
  rw [k, h]

theorem State.liveOnly_foldl {α : Type} {f : State → α → State} (hf : ∀ (s : State) (a : α), s.liveOnly (f s a)) (l : List α) (s : State) :
    s.liveOnly (l.foldl f s) := by
  induction l generalizing s with
  | nil => exact State.liveOnly_refl s
  | cons a l ih => exact State.liveOnly_trans (hf s a) (ih _)

theorem State.liveOnly_tallyClear (s : State) (u : TallyUnit) (n : Nat) : s.liveOnly (s.tallyClear u n) := by
  simp only [State.tallyClear]
  split
  · exact State.liveOnly_refl s
  · exact State.liveOnly_setLive (State.liveOnly_setLive (State.liveOnly_setLive (State.liveOnly_refl s) _ _ _) _ _ _) _ _ _

theorem State.liveOnly_tallyAdd (s : State) (u : TallyUnit) (slot cls n : Nat) : s.liveOnly (s.tallyAdd u slot cls n) := by
  unfold State.tallyAdd
  dsimp only
  split
  · exact State.liveOnly_refl s
  · exact State.liveOnly_setLive (State.liveOnly_refl s) _ _ _

theorem State.liveOnly_tally (s : State) (u : TallyUnit) (slot f : Nat) (es : List Elem) : s.liveOnly (s.tally u slot f es) := by
  unfold State.tally
  split
  · exact State.liveOnly_refl s
  · exact State.liveOnly_trans (State.liveOnly_trans (s.liveOnly_tallyAdd _ _ _ _) (State.liveOnly_tallyAdd _ _ _ _ _))
      (State.liveOnly_tallyAdd _ _ _ _ _)

theorem State.core_liveOnly {s t : State} (h : s.liveOnly t) (c : CoreId) : t.core c = s.core c := by rw [h]; rfl

theorem State.hall_liveOnly {s t : State} (h : s.liveOnly t) (g : HallId) : t.hall g = s.hall g := by rw [h]; rfl

theorem State.quiet_liveOnly {s t : State} (h : s.liveOnly t) : t.quiet = s.quiet := by rw [h]; rfl

/-- Words of the control pages do not enter into how an instruction ends. -/
theorem State.steps_live {s t : State} (x : Site) (h : s.liveOnly t) : s.steps x id { t.retire x with live := s.live } := by
  rw [h]
  refine ⟨State.onlyThread_issued (State.onlyThread_modThread s x Thread.retire), ?_⟩
  change (s.retire x).thread x = _
  rw [State.retire, State.thread_issued, State.thread_modThread_self]
  rfl

end Sys2Proof.Machine
end

