-- ==== Sys2Proof/Proofs/CoreRegisters.lean ====
section
/-!
SUPPORT. Instructions on the common registers of a core (R163), the return stack (R199) and the core's tallies (R80, R81): each changes
its thread and, beside it, one table of the core or three words of its tally page. This settles O12.
-/
namespace Sys2Proof.Machine

/-! ### Common registers -/

theorem State.com_setCom (s : State) (c : CoreId) (n m : Nat) (v : Word) :
    ((s.setCom c n v).core c).com m = if m = n then v else (s.core c).com m := by
  rw [State.setCom, State.core_modCore_self]
  exact SMap.get_set (s.core c).common n m 0 v

theorem State.thread_setCom (s : State) (c : CoreId) (n : Nat) (v : Word) (y : Site) : (s.setCom c n v).thread y = s.thread y := by
  simp only [State.thread, State.setCom, State.core_modCore]
  split
  next h => rw [h]; rfl
  next => rfl

/-- The common registers of a core do not belong to its threads. -/
theorem Core.com_eq_of_sameBut {k l : Core} (h : k.sameBut l) (m : Nat) : l.com m = k.com m := congrArg (fun b => b.com m) h

/-- A ready thread's instruction that writes a common register and changes its own thread by `g` (R163). -/
theorem State.ends_setCom {s u : State} {x : Site} {i : Instr} (h : s.ready x i = true) {n : Nat} {v : Word} {g : Thread → Thread}
    {f : State → Res} (hf : f s = .done u) (hu : (s.setCom x.core n v).onlyThread u x) (hg : u.thread x = g (s.thread x)) :
    Answers (s.run x i f) fun t => s.ends x g (fun k => { k with common := [] }) t ∧
      ∀ m, (t.core x.core).com m = if m = n then v else (s.core x.core).com m := by
  obtain ⟨houter, hcore, hothers⟩ := hu
  have hrest : (u.core x.core).bare = ((s.setCom x.core n v).core x.core).bare := hcore
  refine State.run_ends h hf (State.sameOutside_trans (State.sameOutside_modCore s _ _) houter) ?_ (fun m hm => ?_) hg fun m => ?_
  · rw [hrest, State.setCom, State.core_modCore_self]
    rfl
  · rw [hothers m hm, State.thread_setCom]
  · rw [State.com_retire, Core.com_eq_of_sameBut hcore, State.com_setCom]

/-- A ready thread's instruction that writes a common register and a scalar register (R163). -/
theorem State.ends_setCom_setReg {s : State} {x : Site} {i : Instr} (h : s.ready x i = true) (n : Nat) (v w : Word) (rd : BitVec 5)
    {f : State → Res} (hf : f s = .done ((s.setCom x.core n v).setReg x rd w)) :
    Answers (s.run x i f) fun t => s.ends x (fun g => g.setReg rd w) (fun k => { k with common := [] }) t ∧
      ∀ m, (t.core x.core).com m = if m = n then v else (s.core x.core).com m :=
  State.ends_setCom h hf (State.onlyThread_modThread _ x _)
    (by rw [State.setReg, State.thread_modThread_self, State.thread_setCom])

/-! ### The return stack's registers -/

/-- A field below 2 ^ 32 of a word as its bits. -/
theorem fieldOf_eq_extract (v : Word) (lo w : Nat) : fieldOf v lo w = (v.extractLsb' lo w).toNat := by
  simp [fieldOf, bitsOf, Nat.shiftRight_eq_div_pow]

theorem wbit_eq_getLsbD (v : Word) (i : Nat) : wbit v i = v.getLsbD i := by
  rw [wbit, bitOf, BitVec.getLsbD, Nat.testBit_eq_decide_div_mod_eq]
  rfl

theorem Thread.rsWord_entry (t : Thread) {n : Nat} (hn : n < 16) : t.rsWord n = (SMap.get t.rsEntry n 0).zeroExtend 32 := by
  rw [Thread.rsWord, if_pos hn]

theorem Thread.rsWord_control (t : Thread) :
    t.rsWord 16 = BitVec.ofNat 32 (t.rsTop.toNat + 2 ^ 4 * t.rsDepth + if t.rsWrap then 2 ^ 16 else 0) := by
  rw [Thread.rsWord, if_neg (by decide), w32]
  cases t.rsWrap <;> simp [b2n, Nat.mul_comm]

/-- A ready thread's N of a SYS function lies below the function's bound (R200, R207). -/
theorem sysBad_bound {d a : Bool} {n : Nat} {f : FmtX} (h : sysBad d a n f = false) : f.n.toNat < n := by
  simp only [sysBad, Bool.or_eq_false_iff, decide_eq_false_iff_not, Nat.not_le] at h
  exact h.2

theorem State.ready_trap {s : State} {x : Site} {i : Instr} (h : s.ready x i = true) : trapOf (s.thread x).ring i = none := by
  simp only [State.ready, Bool.and_eq_true, Option.isNone_iff_eq_none] at h
  exact h.1.1.2

theorem reservedIf_none {b : Bool} (h : reservedIf b = none) : b = false := by
  cases b
  · rfl
  · exact absurd h (by simp [reservedIf])

theorem ringTrap_none {b c : Bool} (h : ringTrap b c = none) : b = false := by
  cases b
  · rfl
  · exact absurd h (by simp [ringTrap])

/-! ### Tallies -/

theorem State.tallyClear_zero (s : State) (u : TallyUnit) : s.tallyClear u 0 = s := rfl

theorem State.tallyClear_core (s : State) (c : CoreId) {n : Nat} (hn : n ≠ 0) :
    s.tallyClear (.core c) n = ((s.setLive (corePage c 2) (0x800 + 16 * n) 0).setLive (corePage c 2) (0x804 + 16 * n) 0).setLive
      (corePage c 2) (0x808 + 16 * n) 0 := by
  simp only [State.tallyClear, tallyBase, if_neg hn]
  rw [Nat.add_right_comm, Nat.add_right_comm _ _ 8]

/-- TCLR writes zero to the three words of a slot, and to none for slot 0 (R81). -/
theorem State.puts_tallyClear (s : State) (c : CoreId) {n : Nat} (h16 : n < 16) :
    s.puts (s.tallyClear (.core c) n) (if n = 0 then [] else
      [((corePage c 2, 0x800 + 16 * n), 0), ((corePage c 2, 0x804 + 16 * n), 0), ((corePage c 2, 0x808 + 16 * n), 0)]) := by
  by_cases hn : n = 0
  · subst hn
    exact State.puts_refl s
  · rw [if_neg hn, State.tallyClear_core s c hn]
    have hput := State.puts_setLive (State.puts_setLive (State.puts_setLive (State.puts_refl s) (p := corePage c 2)
      (o := 0x800 + 16 * n) 0 (by omega) (by omega)) (p := corePage c 2) (o := 0x804 + 16 * n) 0 (by omega) (by omega))
      (p := corePage c 2) (o := 0x808 + 16 * n) 0 (by omega) (by omega)
    intro q o ho ao
    rw [hput q o ho ao]
    simp only [List.lookup_cons, List.lookup_nil]
    cases (q, o) == (corePage c 2, 0x800 + 16 * n) <;> cases (q, o) == (corePage c 2, 0x804 + 16 * n) <;>
      cases (q, o) == (corePage c 2, 0x808 + 16 * n) <;> rfl

end Sys2Proof.Machine

open Sys2Proof Sys2Proof.Machine

/-- Settles O12: CRD, CWR, CSWAP and CADD by the one lemma on a common register written; RSRD and RSWR by what the control word and the
entries read; TRD and TCLR by the words of the core's tally page. -/
theorem registersOfACore : Obligations.RegistersOfACore := by
  unfold Obligations.RegistersOfACore
  refine ⟨fun s x f n hn => ⟨?crd, ?cwr, ?cswap, ?cadd⟩, fun s x f n hn => ⟨?rsrd, ?rswr⟩, fun s x f n hn => ⟨?zero, ?sat, ?nan, ?tclr⟩⟩ <;>
    subst hn <;> intro hr
  case crd => exact State.steps_run hr _ rfl
  case cwr => exact State.ends_setCom hr rfl (State.onlyThread_refl _ x) (State.thread_setCom s _ _ _ x)
  case cswap => exact State.ends_setCom_setReg hr _ _ _ _ rfl
  case cadd => exact State.ends_setCom_setReg hr _ _ _ _ rfl
  case rsrd =>
    have hbound : f.n.toNat < 17 := sysBad_bound (reservedIf_none (State.ready_trap hr))
    have hread : Answers (exec (.rsrd x f) s) (s.gives x f.rd ((s.thread x).rsWord f.n.toNat)) := State.steps_run hr _ rfl
    refine ⟨fun hn => ?_, fun hn => ?_, by omega⟩
    · rwa [Thread.rsWord_entry _ hn] at hread
    · rwa [hn, Thread.rsWord_control] at hread
  case rswr =>
    have hbound : f.n.toNat < 17 := sysBad_bound (ringTrap_none (State.ready_trap hr))
    refine ⟨fun hn => State.steps_run hr _ ?_, fun hn hdepth hlow hhigh => State.steps_run hr _ ?_, by omega⟩
    · exact (if_pos hn).trans rfl
    · have hctl : ¬(16 < fieldOf (s.reg x f.ra) 4 5 ∨ fieldOf (s.reg x f.ra) 9 7 ≠ 0 ∨ fieldOf (s.reg x f.ra) 17 15 ≠ 0) := by
        simp only [fieldOf_eq_extract, hlow, hhigh]
        simpa using hdepth
      rw [← fieldOf_eq_extract, ← wbit_eq_getLsbD]
      exact (if_neg (by omega)).trans ((if_neg hctl).trans rfl)
  case zero => exact State.steps_run hr _ rfl
  case sat => exact State.steps_run hr _ rfl
  case nan => exact State.steps_run hr _ rfl
  case tclr =>
    have hbound : f.n.toNat < 16 := sysBad_bound (reservedIf_none (State.ready_trap hr))
    refine ⟨_, State.run_ready hr _, ?_, ?_⟩
    · exact State.steps_live x (s.liveOnly_tallyClear _ _)
    · exact State.puts_live (State.puts_tallyClear s x.core hbound) rfl
end

