-- ==== Sys2Proof/Proofs/PackedLanes.lean ====
section
/-!
SUPPORT. Bit fields of numbers, and the lanes of a vector register (R85, R130): what a lane reads after a register, or a part of it, has
been packed anew.
-/
namespace Sys2Proof.Machine

/-! ### Bit fields -/

/-- A number with a field replaced: what lies above, the field, what lies below. -/
theorem setBits_eq (v lo w x : Nat) : setBits v lo w x = 2 ^ lo * (2 ^ w * (v / 2 ^ (lo + w)) + x % 2 ^ w) + v % 2 ^ lo := by
  have hlow : v = 2 ^ lo * (v / 2 ^ lo) + v % 2 ^ lo := (Nat.div_add_mod v (2 ^ lo)).symm
  have hmid : v / 2 ^ lo = 2 ^ w * (v / 2 ^ (lo + w)) + v / 2 ^ lo % 2 ^ w := by
    rw [Nat.pow_add, ← Nat.div_div_eq_div_mul]
    exact (Nat.div_add_mod _ _).symm
  unfold setBits bitsOf
  generalize v / 2 ^ lo % 2 ^ w = m at *
  generalize v % 2 ^ lo = r at *
  generalize v / 2 ^ (lo + w) = high at *
  generalize v / 2 ^ lo = q at *
  subst hlow hmid
  simp only [Nat.mul_add, Nat.mul_comm _ (2 ^ lo)]
  omega

theorem testBit_setBits (v lo w x j : Nat) :
    (setBits v lo w x).testBit j = if lo ≤ j ∧ j < lo + w then x.testBit (j - lo) else v.testBit j := by
  rw [setBits_eq, Nat.testBit_two_pow_mul_add _ (Nat.mod_lt _ (Nat.two_pow_pos lo)),
    Nat.testBit_two_pow_mul_add _ (Nat.mod_lt _ (Nat.two_pow_pos w))]
  simp only [Nat.testBit_mod_two_pow, Nat.testBit_div_two_pow]
  by_cases h1 : j < lo
  · simp [h1, show ¬lo ≤ j by omega]
  · by_cases h2 : j - lo < w
    · simp [h1, h2, show lo ≤ j ∧ j < lo + w by omega]
    · simp [h1, h2, show ¬(lo ≤ j ∧ j < lo + w) by omega, show j - lo - w + (lo + w) = j by omega]

theorem testBit_bitElem (w row n j : Nat) : (bitElem w row n).testBit j = (decide (j < w) && row.testBit (w * n + j)) := by
  rw [bitElem, Nat.testBit_mod_two_pow, Nat.testBit_div_two_pow, Nat.add_comm]

/-! ### Packed elements -/

/-- Element `i` of a packed list (R85). -/
theorem bitElem_packElems (w : Nat) (l : List Nat) (i : Nat) : bitElem w (packElems w l) i = l.getD i 0 % 2 ^ w := by
  induction l generalizing i with
  | nil => simp [packElems, bitElem]
  | cons x t ih =>
    have hpos := Nat.two_pow_pos w
    cases i with
    | zero => simp [packElems, bitElem]
    | succ i =>
      rw [List.getD_cons_succ, ← ih i]
      rw [packElems, bitElem, bitElem, Nat.mul_succ, Nat.add_comm (w * i), Nat.pow_add, ← Nat.div_div_eq_div_mul, Nat.add_mul_div_right _ _ hpos,
        Nat.div_eq_of_lt (Nat.mod_lt _ hpos), Nat.zero_add]

theorem bitElem_ofNat {w i k : Nat} (v : Nat) (h : w * i + w ≤ k) : bitElem w (BitVec.ofNat k v).toNat i = bitElem w v i := by
  apply Nat.eq_of_testBit_eq
  intro j
  rw [BitVec.toNat_ofNat, testBit_bitElem, testBit_bitElem, Nat.testBit_mod_two_pow]
  by_cases hj : j < w
  · simp [show w * i + j < k by omega]
  · simp [hj]

/-- A lane of a register holds what was packed there: 1,024 bits hold every lane below 1024 / w (R130). -/
theorem bitElem_register (w v : Nat) {i : Nat} (hi : i < 1024 / w) : bitElem w (BitVec.ofNat 1024 v).toNat i = bitElem w v i := by
  have hlane := Nat.mul_le_mul_left w (Nat.succ_le_of_lt hi)
  have hall := Nat.mul_div_le 1024 w
  exact bitElem_ofNat v (by rw [Nat.mul_succ] at hlane; omega)

theorem getD_map_range {n i : Nat} (hi : i < n) (f : Nat → Nat) : ((List.range n).map f).getD i 0 = f i := by
  simp [List.getD_eq_getElem?_getD, hi]

/-- A lane of a register that `laneMap` makes. -/
theorem bitElem_laneMap (w old : Nat) (f : Nat → Option Nat) {i : Nat} (hi : i < 1024 / w) :
    bitElem w (laneMap w old f) i = (f i).getD (bitElem w old i) % 2 ^ w := by
  rw [laneMap, bitElem_packElems, lanesOf, getD_map_range hi]

theorem bitElem_mod_self (w row i : Nat) : bitElem w row i % 2 ^ w = bitElem w row i := Nat.mod_mod _ _

/-- Elements of a part of a register, from element `m` on. -/
theorem bitElem_div (w row m i : Nat) : bitElem w (row / 2 ^ (w * m)) i = bitElem w row (m + i) := by
  rw [bitElem, bitElem, Nat.div_div_eq_div_mul, ← Nat.pow_add, ← Nat.mul_add]

/-- A lane of a register of which the elements `m` to `m + n` are packed anew. -/
theorem bitElem_setBits (w row m n bits i : Nat) : bitElem w (setBits row (w * m) (w * n) bits) i =
    if m ≤ i ∧ i < m + n then bitElem w bits (i - m) else bitElem w row i := by
  apply Nat.eq_of_testBit_eq
  intro j
  rw [testBit_bitElem, testBit_setBits]
  by_cases hin : m ≤ i ∧ i < m + n
  · rw [if_pos hin, testBit_bitElem]
    obtain ⟨d, rfl⟩ := Nat.exists_eq_add_of_le hin.1
    have hle : w * (d + 1) ≤ w * n := Nat.mul_le_mul_left w (by omega)
    rw [Nat.add_sub_cancel_left, Nat.mul_add]
    by_cases hj : j < w
    · rw [if_pos (by rw [Nat.mul_succ] at hle; omega), show w * m + w * d + j - w * m = w * d + j by omega]
    · simp [hj]
  · rw [if_neg hin, testBit_bitElem]
    by_cases hj : j < w
    · rw [if_neg]
      rintro ⟨hlo, hhi⟩
      rcases Nat.lt_or_ge i m with h | h
      · have := Nat.mul_le_mul_left w (Nat.succ_le_of_lt h)
        rw [Nat.mul_succ] at this
        omega
      · have := Nat.mul_le_mul_left w (show m + n ≤ i by omega)
        rw [Nat.mul_add] at this
        omega
    · simp [hj]

/-! ### Vector registers -/

/-- Vector register `n` after a write of register `m` (R130). -/
theorem State.vr_setV (s : State) (c : CoreId) (m n v : Nat) :
    ((s.setV c m v).core c).vr n = if n = m then (BitVec.ofNat 1024 v).toNat else (s.core c).vr n := by
  rw [State.setV, State.core_modCore_self, Core.vr, Core.vr]
  simp only [SMap.get_set, apply_ite BitVec.toNat]

end Sys2Proof.Machine
end

