-- ==== Sys2Proof/Proofs/VectorRun.lean ====
section
/-!
SUPPORT. A vector instruction issued into the idle vector engine of a quiet module (R133, R168): what it answers differs from before only
in its thread, the vector registers that its run writes, and the live words that its run counts.
-/
namespace Sys2Proof.Machine

/-! ### Quiet once a core is -/

theorem SMap.erase_put {α : Type} (m : SMap α) (k : Nat) (v : α) : SMap.erase (SMap.put m k v) k = SMap.erase m k := by
  induction m with
  | nil => simp [SMap.put, SMap.erase]
  | cons p t ih =>
    obtain ⟨j, w⟩ := p
    by_cases hlt : k < j
    · simp [SMap.put, SMap.erase, hlt]
    · by_cases he : k = j
      · simp [SMap.put, SMap.erase, he]
      · simp [SMap.put, SMap.erase, hlt, he, ih]

/-- The state is quiet as soon as core `c` is. -/
def State.quietOver (s : State) (c : CoreId) : Prop := ∀ k : Core, k.quiet = true → (s.setCore c k).quiet = true

theorem State.quietOver_of_quiet {s : State} (h : s.quiet = true) (c : CoreId) : s.quietOver c := fun _ hk => State.quiet_setCore h c hk

/-- What core `c` holds does not enter into whether the state is quiet once the core is. -/
theorem State.quietOver_setCore {s : State} {c : CoreId} (h : s.quietOver c) (v : Core) : (s.setCore c v).quietOver c := by
  have hzero : Core.zero.quiet = true := by decide
  intro k hk
  obtain ⟨hp, hcores, hrest⟩ := (State.quiet_iff _).1 (h k hk)
  obtain ⟨-, herase, -⟩ := (State.quiet_iff _).1 (h Core.zero hzero)
  refine (State.quiet_iff _).2 ⟨hp, ?_, hrest⟩
  simp only [State.setCore, SMap.set, if_true] at hcores herase ⊢
  by_cases hv : v = Core.zero <;> by_cases hz : k = Core.zero
  · rw [if_pos hv, if_pos hz]
    exact SMap.all_erase _ _ _ herase
  · rw [if_pos hv, if_neg hz]
    exact SMap.all_put _ _ _ _ herase hk
  · rw [if_neg hv, if_pos hz, SMap.erase_put]
    exact herase
  · rw [if_neg hv, if_neg hz, SMap.put_put]
    rwa [if_neg hz] at hcores

theorem State.quietOver_retire {s : State} {x : Site} (h : s.quietOver x.core) : (s.retire x).quietOver x.core :=
  State.quietOver_setCore (State.quietOver_setCore h _) _

theorem State.quietOver_entered {s : State} (h : s.quiet = true) (x : Site) (i : Instr) (vals : List Word) (segs : List SegImage) :
    (s.entered x i vals segs).quietOver x.core :=
  State.quietOver_retire (State.quietOver_setCore (State.quietOver_of_quiet h _) _)

theorem State.quietOver_liveOnly {s t : State} {c : CoreId} (h : s.quietOver c) (k : s.liveOnly t) : t.quietOver c := by
  rw [k]
  exact h

/-! ### What a run may change -/

/-- Nothing differs but vector registers of core `c` and live words of the control pages. -/
structure State.WritesV (s t : State) (c : CoreId) : Prop where
  outer : { t with cores := [], live := [] } = { s with cores := [], live := [] }
  other : ∀ d, d ≠ c → t.core d = s.core d
  core : t.core c = { s.core c with vreg := (t.core c).vreg }
  rests : s.quietOver c → t.quietOver c

theorem State.WritesV.refl (s : State) (c : CoreId) : s.WritesV s c := ⟨rfl, fun _ _ => rfl, rfl, id⟩

theorem State.WritesV.setV (s : State) (c : CoreId) (n v : Nat) : s.WritesV (s.setV c n v) c := by
  refine ⟨rfl, fun d hd => ?_, ?_, fun h => State.quietOver_setCore h _⟩
  · rw [State.setV, State.core_modCore, if_neg hd]
  · rw [State.setV, State.core_modCore_self]

theorem State.WritesV.liveOnly {s t u : State} {c : CoreId} (h : s.WritesV t c) (k : t.liveOnly u) : s.WritesV u c := by
  refine ⟨?_, fun d hd => ?_, ?_, fun hs => State.quietOver_liveOnly (h.rests hs) k⟩
  · rw [k, ← h.outer]
  · rw [State.core_liveOnly k, h.other d hd]
  · rw [State.core_liveOnly k]
    exact h.core

/-! ### The instruction that runs -/

theorem Core.thread_popQ (k : Core) (q : Nat) (n : Fin 4) : (k.popQ q).thread n = k.thread n := by
  unfold Core.popQ Core.setQueue
  split <;> rfl

theorem Core.thread_of_vreg {k l : Core} {V : SMap (BitVec 1024)} (h : l = { k with vreg := V }) (n : Fin 4) : l.thread n = k.thread n := by
  rw [h]
  rfl

/-- Threads and vector registers do not enter into whether a core is quiet. -/
theorem Core.quiet_of_bare {k l : Core} {V : SMap (BitVec 1024)} (h : l.bare = { k.bare with vreg := V }) : l.quiet = k.quiet := by
  have hq := congrArg Core.quiet h
  exact hq

theorem State.thread_entered (s : State) (x : Site) (i : Instr) (vals : List Word) (segs : List SegImage) (n : Fin 4) :
    (s.entered x i vals segs).thread ⟨x.core, n⟩ = if n = x.thread then (s.thread x).retire else s.thread ⟨x.core, n⟩ := by
  unfold State.thread
  rw [State.core_entered]
  change Core.thread (Core.setThread _ _ _) n = _
  rw [Core.thread_setThread]
  congr 1
  unfold Core.setQueue
  split <;> rfl

theorem State.sameOutside_entered (s : State) (x : Site) (i : Instr) (vals : List Word) (segs : List SegImage) :
    s.sameOutside (s.entered x i vals segs) x.core :=
  State.sameOutside_trans (State.sameOutside_modCore s x.core fun _ => _)
    (State.onlyThread_issued (State.onlyThread_modThread _ x Thread.retire)).1

/-- The issuing core while its vector instruction runs: beside the queue and the threads as it was. -/
theorem State.core_entered_vector {s : State} {x : Site} {i : Instr} (hi : queueOf i = 1) (vals : List Word) (segs : List SegImage) :
    ((s.entered x i vals segs).core x.core).bare =
      { (s.core x.core).bare with vq := { (s.core x.core).vq with
          entries := (s.core x.core).vq.entries ++ [s.entryOf x i vals segs] } } := by
  rw [State.core_entered, hi]
  simp only [Core.setQueue, Core.setThread, Core.bare, Core.queue]

theorem Core.bare_of_vreg {k l : Core} {V : SMap (BitVec 1024)} (h : l = { k with vreg := V }) : l.bare = { k.bare with vreg := V } := by
  rw [h]
  rfl

/-- The issuing core after the run, its entry gone. -/
theorem State.bare_popQ_vector {s t : State} {x : Site} {i : Instr} (hi : queueOf i = 1) (hv : (s.core x.core).vq.entries = [])
    (vals : List Word) (segs : List SegImage) (h : (s.entered x i vals segs).WritesV t x.core) :
    ((t.core x.core).popQ 1).bare = { (s.core x.core).bare with vreg := (t.core x.core).vreg } := by
  have hbare : (t.core x.core).bare = { ((s.entered x i vals segs).core x.core).bare with vreg := (t.core x.core).vreg } :=
    Core.bare_of_vreg h.core
  rw [State.core_entered_vector hi] at hbare
  have hpop : ((t.core x.core).popQ 1).bare =
      { (t.core x.core).bare with vq := { (t.core x.core).bare.vq with entries := (t.core x.core).bare.vq.entries.tail } } := rfl
  rw [hpop, hbare, hv]
  have hvq : (s.core x.core).vq = { (s.core x.core).vq with entries := [] } := by rw [← hv]
  simp only [List.nil_append, List.tail_cons, Core.bare]
  rw [← hvq]

/-- Outside cores and live words the state is as it was: so is it with those words put back. -/
theorem State.outer_with_live {s t : State} (h : { t with cores := [], live := [] } = { s with cores := [], live := [] }) :
    { ({ t with live := s.live } : State) with cores := [] } = { s with cores := [] } :=
  congrArg (fun r : State => { r with live := s.live }) h

theorem State.outer_of_sameOutside {s t : State} {c : CoreId} (h : s.sameOutside t c) :
    { t with cores := [], live := [] } = { s with cores := [], live := [] } :=
  congrArg (fun r : State => { r with live := [] }) h.1

theorem State.outer_modCore (t : State) (c : CoreId) (f : Core → Core) :
    { t.modCore c f with cores := [], live := [] } = { t with cores := [], live := [] } := rfl

/-- A vector instruction issued into an idle vector engine, whose run writes vector registers and live words (R133, R168). -/
theorem State.answers_vector {s : State} {x : Site} {i : Instr} (h : s.ready x i = true) (hq : s.quiet = true)
    (hs : (s.core x.core).vq.stop = none) (hi : queueOf i = 1) (vals : State → List Word) (segs : State → List SegImage) {t : State}
    (hrun : (s.entered x i (vals s) (segs s)).runVector x.core (s.entryOf x i (vals s) (segs s)) = .done t)
    (ht : (s.entered x i (vals s) (segs s)).WritesV t x.core) :
    Answers (s.queueIn x i vals segs) fun u => u.live = t.live ∧ s.ends x id (fun k => { k with vreg := [] }) { u with live := s.live } ∧
      (u.core x.core).bare = { (s.core x.core).bare with vreg := (t.core x.core).vreg } := by
  obtain ⟨hm, hv, hd, hmem, hcr, hf, hb⟩ := (Core.quiet_iff _).1 (State.quiet_core hq x.core)
  have hbare := State.bare_popQ_vector hi hv (vals s) (segs s) ht
  have hquiet : ((t.core x.core).popQ 1).quiet = true := (Core.quiet_of_bare hbare).trans (State.quiet_core hq x.core)
  have hdone : (t.modCore x.core fun k => k.popQ 1).quiet = true := by
    rw [State.modCore]
    exact ht.rests (State.quietOver_entered hq x i _ _) _ hquiet
  refine ⟨_, State.queueIn_vector h hq hs hi vals segs hrun hdone, rfl, ?_, ?_⟩
  · have hin := s.sameOutside_entered x i (vals s) (segs s)
    have hthread (n : Fin 4) : (t.modCore x.core fun k => k.popQ 1).thread ⟨x.core, n⟩ =
        (s.entered x i (vals s) (segs s)).thread ⟨x.core, n⟩ := by
      unfold State.thread
      rw [State.core_modCore_self, Core.thread_popQ]
      exact Core.thread_of_vreg ht.core n
    refine ⟨⟨?_, fun d hd => ?_⟩, ?_, fun n hn => ?_, ?_⟩
    · exact State.outer_with_live ((State.outer_modCore t _ _).trans (ht.outer.trans (State.outer_of_sameOutside hin)))
    · change (t.modCore x.core fun k => k.popQ 1).core d = s.core d
      rw [State.core_modCore, if_neg hd, ht.other d hd, hin.2 d hd]
    · change ({ ((t.modCore x.core fun k => k.popQ 1).core x.core).bare with vreg := [] } : Core) = _
      rw [State.core_modCore_self, hbare]
    · exact (hthread n).trans (by rw [State.thread_entered, if_neg hn])
    · exact (hthread x.thread).trans (by rw [State.thread_entered, if_pos rfl]; rfl)
  · rw [State.core_modCore_self, hbare]

end Sys2Proof.Machine
end

