-- ==== Sys2Proof/Proofs/VectorReduction.lean ====
section
/-!
SUPPORT. VRED, VCVT, VMAC and VADDAC in an idle vector engine (R139 to R141): the run of each, seen from the state in which it was issued,
and what the lanes of its destination hold. This settles O23.
-/
namespace Sys2Proof.Machine

/-! ### The state in which the instruction was issued -/

theorem Core.vr_of_bare {k l : Core} {q : Queue} (h : l.bare = { k.bare with vq := q }) : l.vr = k.vr := by
  funext n
  have hv := congrArg (fun b : Core => b.vr n) h
  exact hv

theorem Core.vreg_of_bare {k l : Core} {q : Queue} (h : l.bare = { k.bare with vq := q }) : l.vreg = k.vreg := by
  have hv := congrArg Core.vreg h
  exact hv

theorem Core.active_of_bare {k l : Core} {q : Queue} (h : l.bare = { k.bare with vq := q }) : l.active = k.active := by
  funext m i
  have hv := congrArg (fun b : Core => b.active m i) h
  exact hv

/-- The vector registers are as they were when the instruction was issued. -/
theorem State.vr_entered {s : State} {x : Site} {i : Instr} (hi : queueOf i = 1) (vals : List Word) (segs : List SegImage) :
    ((s.entered x i vals segs).core x.core).vr = (s.core x.core).vr := Core.vr_of_bare (State.core_entered_vector hi vals segs)

theorem State.active_entered {s : State} {x : Site} {i : Instr} (hi : queueOf i = 1) (vals : List Word) (segs : List SegImage) :
    ((s.entered x i vals segs).core x.core).active = (s.core x.core).active := Core.active_of_bare (State.core_entered_vector hi vals segs)

theorem State.live_entered (s : State) (x : Site) (i : Instr) (vals : List Word) (segs : List SegImage) :
    (s.entered x i vals segs).live = s.live := by
  simp only [State.entered, State.retire, State.issued, State.modThread, State.setThread, State.modCore, State.setCore]

theorem State.liveWord_entered (s : State) (x : Site) (i : Instr) (vals : List Word) (segs : List SegImage) (p o : Nat) :
    (s.entered x i vals segs).liveWord p o = s.liveWord p o := by rw [State.liveWord, State.live_entered, State.liveWord]

theorem State.live_setV (s : State) (c : CoreId) (n v : Nat) : (s.setV c n v).live = s.live := rfl

/-! ### Counts of equal words -/

theorem State.live_setLive_congr {s t : State} (h : t.live = s.live) (p o : Nat) (v : Word) :
    (t.setLive p o v).live = (s.setLive p o v).live := by
  simp only [State.setLive, h]

theorem State.live_tallyAdd_congr {s t : State} (h : t.live = s.live) (u : TallyUnit) (slot cls n : Nat) :
    (t.tallyAdd u slot cls n).live = (s.tallyAdd u slot cls n).live := by
  simp only [State.tallyAdd]
  split
  · exact h
  · simp only [State.countSat, State.liveWord, h]
    exact State.live_setLive_congr h _ _ _

/-- What a tally counts depends on the words of the control pages alone. -/
theorem State.live_tally_congr {s t : State} (h : t.live = s.live) (u : TallyUnit) (slot f : Nat) (es : List Elem) :
    (t.tally u slot f es).live = (s.tally u slot f es).live := by
  simp only [State.tally]
  split
  · exact h
  · exact State.live_tallyAdd_congr (State.live_tallyAdd_congr (State.live_tallyAdd_congr h _ _ _ _) _ _ _ _) _ _ _ _

/-- Vector registers after the instruction: those that its run left. -/
theorem Core.vr_of_vreg {k l m : Core} (h : l.bare = { k.bare with vreg := m.vreg }) : l.vr = m.vr := by
  funext n
  have hv := congrArg (fun b : Core => b.vr n) h
  exact hv

/-- A core whose vector registers are those of before too. -/
theorem Core.sameBut_of_vreg {k l : Core} {V : SMap (BitVec 1024)} (h : l.bare = { k.bare with vreg := V }) (hV : V = k.vreg) :
    k.sameBut l := by
  subst hV
  exact h

/-! ### A result in every lane, or in a register -/

/-- A vector instruction whose run writes register `vd` with `v`, from state `e`, and live words. -/
theorem State.answers_setV {s : State} {x : Site} {i : Instr} (h : s.ready x i = true) (hq : s.quiet = true)
    (hs : (s.core x.core).vq.stop = none) (hi : queueOf i = 1) {vals : State → List Word} {segs : State → List SegImage} {vd : BitVec 4}
    {v : Nat} {t : State} (hrun : (s.entered x i (vals s) (segs s)).runVector x.core (s.entryOf x i (vals s) (segs s)) = .done t)
    (ht : ((s.entered x i (vals s) (segs s)).setV x.core vd.toNat v).liveOnly t) :
    Answers (s.queueIn x i vals segs) fun u => u.live = t.live ∧ s.ends x id (fun k => { k with vreg := [] }) { u with live := s.live } ∧
      (∀ n, n ≠ vd.toNat → (u.core x.core).vr n = (s.core x.core).vr n) ∧ (u.core x.core).vr vd.toNat = (BitVec.ofNat 1024 v).toNat := by
  obtain ⟨u, hu, hlive, hends, hbare⟩ := State.answers_vector h hq hs hi vals segs hrun ((State.WritesV.setV _ _ _ _).liveOnly ht)
  have hvr (n : Nat) : (u.core x.core).vr n = if n = vd.toNat then (BitVec.ofNat 1024 v).toNat else (s.core x.core).vr n := by
    rw [Core.vr_of_vreg hbare, State.core_liveOnly ht, State.vr_setV, State.vr_entered hi]
  exact ⟨u, hu, hlive, hends, fun n hn => by rw [hvr, if_neg hn], by rw [hvr, if_pos rfl]⟩

/-! ### VRED -/

/-- The lanes over which VRED reduces. -/
def Core.vredLanes (k : Core) (f : FmtVred) : List Nat := (List.range (lanesOf (fmtWidth f.sf.toNat))).filter (k.active f.mask)

/-- The elements of a register over which VRED reduces. -/
def Core.vredElems (k : Core) (f : FmtVred) (r : BitVec 4) : List Num :=
  (k.vredLanes f).map fun i => decodeNum f.sf.toNat (bitElem (fmtWidth f.sf.toNat) (k.vr r.toNat) i)

theorem State.runVred_none {e : State} {c : CoreId} {f : FmtVred} (h : (e.core c).vredLanes f = []) : e.runVred c f = .done e :=
  if_pos (by rw [List.isEmpty_iff]; exact h)

theorem State.runVred_some {e : State} {c : CoreId} {f : FmtVred} (h : (e.core c).vredLanes f ≠ []) :
    e.runVred c f = .done (e.setV c f.vd.toNat (laneMap 16 0 fun _ => some (roundNE (accFmt f.df.toNat)
      (vredNum f.rop.toNat ((e.core c).vredElems f f.va) ((e.core c).vredElems f f.vb))).bits)) :=
  if_neg (by rw [List.isEmpty_iff]; exact h)

theorem Core.vredLanes_congr {k l : Core} (h : l.active = k.active) (f : FmtVred) : l.vredLanes f = k.vredLanes f := by
  rw [Core.vredLanes, Core.vredLanes, h]

theorem Core.vredElems_congr {k l : Core} (hv : l.vr = k.vr) (ha : l.active = k.active) (f : FmtVred) : l.vredElems f = k.vredElems f := by
  funext r
  rw [Core.vredElems, Core.vredElems, Core.vredLanes_congr ha, hv]

/-- With no active lane VRED does nothing (R140). -/
theorem State.vred_none {s : State} {x : Site} {f : FmtVred} (h : s.ready x (.vred x f) = true) (hq : s.quiet = true)
    (hs : (s.core x.core).vq.stop = none) (hno : (s.core x.core).vredLanes f = []) : Answers (exec (.vred x f) s) (s.steps x id) := by
  have hi : queueOf (.vred x f) = 1 := rfl
  have hlanes := (Core.vredLanes_congr (State.active_entered (s := s) (x := x) hi [] []) f).trans hno
  obtain ⟨u, hu, hlive, ⟨houter, -, hothers, hthread⟩, hbare⟩ :=
    State.answers_vector h hq hs hi (fun _ => []) (fun _ => []) (State.runVred_none hlanes) (State.WritesV.refl _ _)
  rw [State.live_entered] at hlive
  have hu' : ({ u with live := s.live } : State) = u := by rw [← hlive]
  rw [hu'] at houter hothers hthread
  have hvreg := Core.vreg_of_bare (State.core_entered_vector (s := s) (x := x) hi [] [])
  refine ⟨u, hu, ⟨houter, Core.sameBut_of_vreg hbare hvreg, hothers⟩, hthread⟩

/-- VRED writes the one result to every lane (R140). -/
theorem State.vred_some {s : State} {x : Site} {f : FmtVred} (h : s.ready x (.vred x f) = true) (hq : s.quiet = true)
    (hs : (s.core x.core).vq.stop = none) (hsome : (s.core x.core).vredLanes f ≠ []) :
    Answers (exec (.vred x f) s) fun t => s.ends x id (fun k => { k with vreg := [] }) t ∧
      (∀ n, n ≠ f.vd.toNat → (t.core x.core).vr n = (s.core x.core).vr n) ∧ ∀ i, i < 64 → bitElem 16 ((t.core x.core).vr f.vd.toNat) i =
        (roundNE (accFmt f.df.toNat) (vredNum f.rop.toNat ((s.core x.core).vredElems f f.va) ((s.core x.core).vredElems f f.vb))).bits
          % 2 ^ 16 := by
  have hi : queueOf (.vred x f) = 1 := rfl
  have hact := State.active_entered (s := s) (x := x) hi [] []
  have helems := Core.vredElems_congr (State.vr_entered (s := s) (x := x) hi [] []) hact f
  have hlanes := (Core.vredLanes_congr hact f).symm ▸ hsome
  obtain ⟨u, hu, hlive, hends, hothers, hvd⟩ :=
    State.answers_setV h hq hs hi (vals := fun _ => []) (segs := fun _ => []) (State.runVred_some hlanes) (State.liveOnly_refl _)
  have hu' : ({ u with live := s.live } : State) = u := by
    have hl : u.live = s.live := hlive.trans ((State.live_setV _ _ _ _).trans (State.live_entered s x _ _ _))
    rw [← hl]
  refine ⟨u, hu, hu' ▸ hends, hothers, fun i hi => ?_⟩
  rw [hvd, bitElem_register 16 _ hi, bitElem_laneMap 16 _ _ hi, helems]
  rfl

/-! ### VCVT -/

/-- The elements that VCVT converts (R141). -/
def Core.vcvtElems (k : Core) (f : FmtVcvt) : List Elem :=
  let ws := fmtWidth f.sf.toNat
  let n := 1024 / max ws (fmtWidth f.df.toNat)
  (List.range n).map fun i => roundNE f.df.toNat (decodeNum f.sf.toNat (bitElem ws (k.vr f.va.toNat)
    ((if ws < fmtWidth f.df.toNat then n * f.part.toNat else 0) + i)))

/-- What VCVT writes to its destination: to a part of it when the result is narrower (R141). -/
def Core.vcvtResult (k : Core) (f : FmtVcvt) : Nat :=
  let wd := fmtWidth f.df.toNat
  let n := 1024 / max (fmtWidth f.sf.toNat) wd
  let bits := packElems wd ((k.vcvtElems f).map Elem.bits)
  if wd < fmtWidth f.sf.toNat then setBits (k.vr f.vd.toNat) (wd * (n * f.part.toNat)) (wd * n) bits else bits

theorem State.runVcvt_eq (e : State) (c : CoreId) (f : FmtVcvt) : e.runVcvt c f =
    .done ((e.setV c f.vd.toNat ((e.core c).vcvtResult f)).tally (.core c) f.tally.toNat f.df.toNat ((e.core c).vcvtElems f)) := by
  have hsrc (i : Nat) : bitElem (fmtWidth f.sf.toNat) ((e.core c).vr f.va.toNat / 2 ^ (if fmtWidth f.sf.toNat < fmtWidth f.df.toNat then
      1024 / max (fmtWidth f.sf.toNat) (fmtWidth f.df.toNat) * fmtWidth f.sf.toNat * f.part.toNat else 0)) i =
      bitElem (fmtWidth f.sf.toNat) ((e.core c).vr f.va.toNat) ((if fmtWidth f.sf.toNat < fmtWidth f.df.toNat then
        1024 / max (fmtWidth f.sf.toNat) (fmtWidth f.df.toNat) * f.part.toNat else 0) + i) := by
    rw [← bitElem_div]
    split
    · rw [Nat.mul_comm _ (fmtWidth f.sf.toNat), Nat.mul_assoc]
    · rfl
  simp only [State.runVcvt, Core.vcvtResult, Core.vcvtElems, hsrc]
  rw [Nat.mul_comm (1024 / max (fmtWidth f.sf.toNat) (fmtWidth f.df.toNat)) (fmtWidth f.df.toNat), Nat.mul_assoc (fmtWidth f.df.toNat)]

theorem Core.vcvtElems_congr {k l : Core} (h : l.vr = k.vr) (f : FmtVcvt) : l.vcvtElems f = k.vcvtElems f := by
  rw [Core.vcvtElems, Core.vcvtElems, h]

theorem Core.vcvtResult_congr {k l : Core} (h : l.vr = k.vr) (f : FmtVcvt) : l.vcvtResult f = k.vcvtResult f := by
  rw [Core.vcvtResult, Core.vcvtResult, Core.vcvtElems_congr h, h]

theorem Core.length_vcvtElems (k : Core) (f : FmtVcvt) :
    (k.vcvtElems f).length = 1024 / max (fmtWidth f.sf.toNat) (fmtWidth f.df.toNat) := by
  rw [Core.vcvtElems, List.length_map, List.length_range]

theorem getD_map_bits (l : List Elem) (i : Nat) : (l.map Elem.bits).getD i 0 = (l.getD i (Elem.ofBits 0)).bits := by
  rw [List.getD_eq_getElem?_getD, List.getD_eq_getElem?_getD, List.getElem?_map]
  cases l[i]? <;> rfl

/-- The lanes of VCVT's destination: converted elements, in the part that a narrower result takes (R141). -/
theorem Core.bitElem_vcvtResult (k : Core) (f : FmtVcvt) {i n m : Nat} (hn : n = 1024 / max (fmtWidth f.sf.toNat) (fmtWidth f.df.toNat))
    (hm : m = if fmtWidth f.df.toNat < fmtWidth f.sf.toNat then n * f.part.toNat else 0) (hi : i < 1024 / fmtWidth f.df.toNat) :
    bitElem (fmtWidth f.df.toNat) (k.vcvtResult f) i =
      if m ≤ i ∧ i < m + n then ((k.vcvtElems f).getD (i - m) (Elem.ofBits 0)).bits % 2 ^ fmtWidth f.df.toNat
      else bitElem (fmtWidth f.df.toNat) (k.vr f.vd.toNat) i := by
  subst hn
  by_cases hw : fmtWidth f.df.toNat < fmtWidth f.sf.toNat
  · rw [if_pos hw] at hm
    subst hm
    simp only [Core.vcvtResult, if_pos hw]
    rw [bitElem_setBits, bitElem_packElems, getD_map_bits]
  · rw [if_neg hw] at hm
    subst hm
    have hmax : max (fmtWidth f.sf.toNat) (fmtWidth f.df.toNat) = fmtWidth f.df.toNat := by omega
    simp only [Core.vcvtResult, if_neg hw]
    rw [bitElem_packElems, getD_map_bits, hmax, if_pos ⟨Nat.zero_le i, by omega⟩, Nat.sub_zero]

/-- VCVT converts packed elements and counts them (R141). -/
theorem State.vcvt_answers {s : State} {x : Site} {f : FmtVcvt} (h : s.ready x (.vcvt x f) = true) (hq : s.quiet = true)
    (hs : (s.core x.core).vq.stop = none) :
    Answers (exec (.vcvt x f) s) fun t => s.ends x id (fun k => { k with vreg := [] }) { t with live := s.live } ∧
      (∀ n, n ≠ f.vd.toNat → (t.core x.core).vr n = (s.core x.core).vr n) ∧
      t.live = (s.tally (.core x.core) f.tally.toNat f.df.toNat ((s.core x.core).vcvtElems f)).live ∧
      (t.core x.core).vr f.vd.toNat = (BitVec.ofNat 1024 ((s.core x.core).vcvtResult f)).toNat := by
  have hi : queueOf (.vcvt x f) = 1 := rfl
  have hvr := State.vr_entered (s := s) (x := x) hi [] []
  obtain ⟨u, hu, hlive, hends, hothers, hvd⟩ := State.answers_setV h hq hs hi (vals := fun _ => []) (segs := fun _ => [])
    (State.runVcvt_eq _ x.core f) (State.liveOnly_tally _ _ _ _ _)
  refine ⟨u, hu, hends, hothers, ?_, ?_⟩
  · rw [hlive, Core.vcvtElems_congr hvr]
    exact State.live_tally_congr ((State.live_setV _ _ _ _).trans (State.live_entered s x _ _ _)) _ _ _ _
  · rw [hvd, Core.vcvtResult_congr hvr]

/-! ### VMAC and VADDAC -/

/-- A lane of a register as the value of an accumulator format. -/
def Core.accNum (k : Core) (g : Nat) (r : BitVec 4) (i : Nat) : Num := decodeNum g (bitElem 16 (k.vr r.toNat) i)

/-- What VMAC (`mac`) or VADDAC adds to a lane of its destination (R139). -/
def Core.accTerms (k : Core) (mac : Bool) (f : FmtVmac) (i : Nat) : List Num :=
  let sf := accFmt f.sf.toNat
  if mac then [(k.accNum sf f.va i).mul (k.accNum sf f.vb i)] else [k.accNum sf f.va i, k.accNum sf f.vb i]

/-- The drip counter of a core's vector unit (R73). -/
def State.vecDrip (s : State) (c : CoreId) : Nat := (s.liveWord (corePage c 0) 0x884).toNat

/-- What a lane of the destination becomes: the exact sum of `terms` and the lane itself, rounded once (R66 to R72). -/
def State.accLane (s : State) (c : CoreId) (f : FmtVmac) (terms : Nat → List Num) (i : Nat) : Elem :=
  let df := accFmt f.df.toNat
  roundAcc df (f.rm = 1) (dripBits (s.seed c.hall) (0x800 + c.val) (s.vecDrip c) i) (Num.sum ((s.core c).accNum df f.vd i :: terms i))

/-- The destination register with its active lanes replaced. -/
def Core.accResult (k : Core) (f : FmtVmac) (lane : Nat → Elem) : Nat :=
  laneMap 16 (k.vr f.vd.toNat) fun i => if k.active f.mask i then some (lane i).bits else none

/-- The words that VMAC and VADDAC count: the tally, and the drip counter with RM 0 (R72, R139). -/
def State.accCounts (s : State) (c : CoreId) (f : FmtVmac) (ctr : Nat) (es : List Elem) : State :=
  let u := s.tally (.core c) f.tally.toNat (accFmt f.df.toNat) es
  if f.rm = 0 then u.setLive (corePage c 0) 0x884 (BitVec.ofNat 32 (ctr + 1)) else u

theorem State.liveOnly_accCounts (s : State) (c : CoreId) (f : FmtVmac) (ctr : Nat) (es : List Elem) : s.liveOnly (s.accCounts c f ctr es) := by
  simp only [State.accCounts]
  split
  · exact State.liveOnly_setLive (s.liveOnly_tally _ _ _ _) _ _ _
  · exact s.liveOnly_tally _ _ _ _

theorem State.live_accCounts_congr {s t : State} (h : t.live = s.live) (c : CoreId) (f : FmtVmac) (ctr : Nat) (es : List Elem) :
    (t.accCounts c f ctr es).live = (s.accCounts c f ctr es).live := by
  have hu := State.live_tally_congr h (.core c) f.tally.toNat (accFmt f.df.toNat) es
  simp only [State.accCounts]
  split
  · exact State.live_setLive_congr hu _ _ _
  · exact hu

/-- The lanes that an operation under MASK changes. -/
def Core.accLanes (k : Core) (f : FmtVmac) : List Nat := (List.range 64).filter (k.active f.mask)

theorem State.runVacc_eq (e : State) (c : CoreId) (mac : Bool) (f : FmtVmac) : e.runVacc c mac f =
    .done ((e.setV c f.vd.toNat ((e.core c).accResult f (e.accLane c f ((e.core c).accTerms mac f)))).accCounts c f (e.vecDrip c)
      (((e.core c).accLanes f).map (e.accLane c f ((e.core c).accTerms mac f)))) := by
  have hlane (i : Nat) : Num.sum (if mac then [decodeNum (accFmt f.df.toNat) (bitElem 16 ((e.core c).vr f.vd.toNat) i),
        (decodeNum (accFmt f.sf.toNat) (bitElem 16 ((e.core c).vr f.va.toNat) i)).mul
          (decodeNum (accFmt f.sf.toNat) (bitElem 16 ((e.core c).vr f.vb.toNat) i))]
      else [decodeNum (accFmt f.df.toNat) (bitElem 16 ((e.core c).vr f.vd.toNat) i),
        decodeNum (accFmt f.sf.toNat) (bitElem 16 ((e.core c).vr f.va.toNat) i),
        decodeNum (accFmt f.sf.toNat) (bitElem 16 ((e.core c).vr f.vb.toNat) i)]) =
      Num.sum ((e.core c).accNum (accFmt f.df.toNat) f.vd i :: (e.core c).accTerms mac f i) := by
    cases mac <;> rfl
  simp only [State.runVacc, hlane]
  rfl

theorem Core.accTerms_congr {k l : Core} (h : l.vr = k.vr) (mac : Bool) (f : FmtVmac) : l.accTerms mac f = k.accTerms mac f := by
  funext i
  simp only [Core.accTerms, Core.accNum, h]

theorem Core.accResult_congr {k l : Core} (hv : l.vr = k.vr) (ha : l.active = k.active) (f : FmtVmac) (lane : Nat → Elem) :
    l.accResult f lane = k.accResult f lane := by
  simp only [Core.accResult, hv, ha]

theorem State.vecDrip_congr {s t : State} (h : t.live = s.live) (c : CoreId) : t.vecDrip c = s.vecDrip c := by
  simp only [State.vecDrip, State.liveWord, h]

theorem State.accLane_congr {s t : State} {c : CoreId} (h : t.live = s.live) (hv : (t.core c).vr = (s.core c).vr) (f : FmtVmac)
    (terms : Nat → List Num) : t.accLane c f terms = s.accLane c f terms := by
  funext i
  simp only [State.accLane, Core.accNum, hv, State.vecDrip_congr h, State.seed, State.liveWord, h]

theorem Core.bitElem_accResult (k : Core) (f : FmtVmac) (lane : Nat → Elem) {i : Nat} (hi : i < 64) :
    bitElem 16 (k.accResult f lane) i = if k.active f.mask i then (lane i).bits % 2 ^ 16 else bitElem 16 (k.vr f.vd.toNat) i := by
  rw [Core.accResult, bitElem_laneMap 16 _ _ hi]
  split
  · rfl
  · exact bitElem_mod_self _ _ _

/-- VMAC or VADDAC in an idle vector engine (R139). -/
theorem State.vacc_answers {s : State} {x : Site} {i : Instr} (mac : Bool) {f : FmtVmac} (h : s.ready x i = true) (hq : s.quiet = true)
    (hs : (s.core x.core).vq.stop = none) (hi : queueOf i = 1)
    (hrun : ∀ e : State, e.runVector x.core (s.entryOf x i [] []) = e.runVacc x.core mac f) {lane : Nat → Elem}
    (hlane : lane = s.accLane x.core f ((s.core x.core).accTerms mac f)) :
    Answers (s.queueIn x i (fun _ => []) fun _ => []) fun t =>
      s.ends x id (fun k => { k with vreg := [] }) { t with live := s.live } ∧
      t.live = (s.accCounts x.core f (s.vecDrip x.core) (((s.core x.core).accLanes f).map lane)).live ∧
      (∀ n, n ≠ f.vd.toNat → (t.core x.core).vr n = (s.core x.core).vr n) ∧
      ∀ i, i < 64 → bitElem 16 ((t.core x.core).vr f.vd.toNat) i =
        if (s.core x.core).active f.mask i then (lane i).bits % 2 ^ 16 else bitElem 16 ((s.core x.core).vr f.vd.toNat) i := by
  subst hlane
  have hvr := State.vr_entered (s := s) (x := x) hi [] []
  have hact := State.active_entered (s := s) (x := x) hi [] []
  have hlive := State.live_entered s x i [] []
  obtain ⟨u, hu, hl, hends, hothers, hvd⟩ := State.answers_setV h hq hs hi (vals := fun _ => []) (segs := fun _ => [])
    ((hrun _).trans (State.runVacc_eq _ x.core mac f)) (State.liveOnly_accCounts _ _ _ _ _)
  rw [Core.accTerms_congr hvr, State.accLane_congr hlive hvr] at hl hvd
  refine ⟨u, hu, hends, ?_, hothers, fun i hi => ?_⟩
  · rw [hl, State.vecDrip_congr hlive, Core.accLanes, hact]
    exact State.live_accCounts_congr ((State.live_setV _ _ _ _).trans hlive) _ _ _ _
  · rw [hvd, Core.accResult_congr hvr hact, bitElem_register 16 _ hi, Core.bitElem_accResult _ _ _ hi]

end Sys2Proof.Machine

open Sys2Proof Sys2Proof.Machine

/-- Settles O23: each instruction by its run from the state in which it was issued; a run writes one vector register and counts in live
words alone. -/
theorem vectorReductionAndAccumulation : Obligations.VectorReductionAndAccumulation := by
  unfold Obligations.VectorReductionAndAccumulation
  constructor
  · rintro s x k rfl hq hs
    constructor
    · rintro f w on e hr rfl rfl he
      have helems (r : BitVec 4) : e r = (s.core x.core).vredElems f r := he r
      refine ⟨fun hno => State.vred_none hr hq hs hno, fun hsome => ?_⟩
      rw [helems, helems]
      exact State.vred_some hr hq hs hsome
    · rintro f ws wd n part es hr rfl rfl hn rfl rfl
      obtain ⟨t, ht, hends, hothers, hlive, hvd⟩ := State.vcvt_answers hr hq hs
      refine ⟨t, ht, hends, hothers, ?_, fun i hi => ?_⟩
      · subst hn
        exact hlive
      · rw [hvd, bitElem_register _ _ hi, Core.bitElem_vcvtResult _ _ hn rfl hi]
        subst hn
        rfl
  · rintro s x f k c sf df ctr e on rfl rfl hq hs rfl rfl rfl he rfl
    have hnum (g : Nat) (r : BitVec 4) (i : Nat) : e g r i = (s.core x.core).accNum g r i := he g r i
    refine ⟨fun hr => ?_, fun hr => ?_⟩
    · exact State.vacc_answers true hr hq hs rfl (fun _ => rfl) (by simp only [hnum]; rfl)
    · exact State.vacc_answers false hr hq hs rfl (fun _ => rfl) (by simp only [hnum]; rfl)
end

