-- ==== Sys2Proof/Proofs/ErrorFrame.lean ====
section
/-!
SUPPORT. What the record of an error leaves as it was (R38 to R40, R228): an error of the keeper page or of a HALL page is recorded in the
error registers of that page, and its notice reaches interrupts pending in threads, the MSI-X registers of the function pages, and what
the module sends.
-/
namespace Sys2Proof.Machine

/-- A page that is no function page: a notice of the keeper or of a hall leaves its words alone (R394). -/
abbrev noFunPage (p : Nat) : Prop := p < 0x20 ∨ 0x28 ≤ p

/-! ### Cores -/

theorem State.sameCores_refl (s : State) : s.sameCores s := fun _ => ⟨rfl, fun _ => rfl⟩

theorem State.sameCores_trans {s t u : State} (h : s.sameCores t) (k : t.sameCores u) : s.sameCores u := fun d =>
  ⟨(k d).1.trans (h d).1, fun n => by rw [(k d).2 n, (h d).2 n]⟩

theorem State.sameCores_of_cores {s t : State} (h : t.cores = s.cores) : s.sameCores t := fun d => by
  have hcore : t.core d = s.core d := by rw [State.core, State.core, h]
  refine ⟨by rw [hcore], fun n => ?_⟩
  have hthread : t.thread ⟨d, n⟩ = s.thread ⟨d, n⟩ := by rw [State.thread, State.thread, hcore]
  rw [hthread]

theorem State.sameCores_pend (s : State) (x : Site) (v : Nat) : s.sameCores (s.pend x v) := by
  intro d
  constructor
  · simp only [State.pend, State.modThread, State.setThread, State.core_modCore]
    split
    next h => rw [h]; rfl
    next => rfl
  · intro n
    by_cases hx : (⟨d, n⟩ : Site) = x
    · rw [hx, State.pend, State.thread_modThread_self]
    · rw [State.pend, State.thread_modThread_ne _ _ hx]

/-! ### Notices -/

/-- Nothing differs but interrupts pending, words of the function pages, and what has been sent. -/
structure State.Notified (s t : State) : Prop where
  cores : s.sameCores t
  word : ∀ p o, o < 4096 → noFunPage p → t.liveWord p o = s.liveWord p o
  rest : { t with cores := [], live := [], out := [] } = { s with cores := [], live := [], out := [] }

theorem State.Notified.refl (s : State) : s.Notified s := ⟨s.sameCores_refl, fun _ _ _ _ => rfl, rfl⟩

theorem State.Notified.trans {s t u : State} (h : s.Notified t) (k : t.Notified u) : s.Notified u :=
  ⟨State.sameCores_trans h.cores k.cores, fun p o ho hp => (k.word p o ho hp).trans (h.word p o ho hp), k.rest.trans h.rest⟩

theorem State.Notified.foldl {α : Type} {f : State → α → State} (hf : ∀ (s : State) (a : α), s.Notified (f s a)) (l : List α)
    (s : State) : s.Notified (l.foldl f s) := by
  induction l generalizing s with
  | nil => exact .refl s
  | cons a l ih => exact (hf s a).trans (ih _)

theorem State.Notified.pend (s : State) (x : Site) (v : Nat) : s.Notified (s.pend x v) :=
  ⟨s.sameCores_pend x v, fun _ _ _ _ => rfl, rfl⟩

theorem State.Notified.setLive (s : State) {p o : Nat} (v : Word) (hp : 0x20 ≤ p ∧ p < 0x28) (ho : o < 4096) :
    s.Notified (s.setLive p o v) :=
  ⟨State.sameCores_of_cores rfl, fun q r hr hq => s.liveWord_setLive_ne v (by unfold widx; omega), rfl⟩

theorem State.Notified.emit (s : State) (o : Out) : s.Notified (s.emit o) := by
  have hcount : s.Notified (s.count64 0x20 0xC10 1) :=
    (State.Notified.setLive s _ (by decide) (by decide)).trans (.setLive _ _ (by decide) (by decide))
  have hout (t : State) (l : List Out) : t.Notified { t with out := l } := ⟨State.sameCores_of_cores rfl, fun _ _ _ _ => rfl, rfl⟩
  unfold State.emit
  split
  · exact hcount.trans (hout _ _)
  · exact hout _ _

theorem State.Notified.raiseMsix (s : State) {fn : Nat} (hf : fn ≤ 8) (e : Nat) : s.Notified (s.raiseMsix fn e) := by
  have hpage : 0x20 ≤ msixPage fn ∧ msixPage fn < 0x28 := by unfold msixPage; split <;> omega
  have hoff : pbaOff fn < 4096 := by unfold pbaOff; split <;> omega
  unfold State.raiseMsix
  dsimp only
  split
  · exact .setLive s _ hpage hoff
  · exact .emit s _

theorem State.Notified.hallNotice (s : State) (h : HallId) : s.Notified (s.hallNotice h) :=
  (State.Notified.foldl (fun s c => .pend s ⟨c, 0⟩ 36) _ s).trans (.raiseMsix _ (by omega) _)

/-! ### The pages in which access errors are recorded -/

/-- The keeper page, or the HALL page of a hall. -/
def errPage (q : Nat) : Prop := q = 0 ∨ ∃ h : HallId, q = hallPage h 0

theorem errPage.noFunPage {q : Nat} (h : errPage q) : noFunPage q := by
  rcases h with rfl | ⟨g, rfl⟩
  · exact .inl (by decide)
  · exact .inr (by unfold hallPage; omega)

theorem firstPage_hallPage (h : HallId) : firstPage (hallPage h 0) = hallPage h 0 := by revert h; decide

theorem pageHall_hallPage (h : HallId) : pageHall (hallPage h 0) = some h := by revert h; decide

theorem errPage.firstPage {q : Nat} (h : errPage q) : firstPage q = q := by
  rcases h with rfl | ⟨g, rfl⟩
  · decide
  · exact firstPage_hallPage g

/-- The notice of an error of such a page (R228). -/
theorem State.Notified.notice (s : State) {q : Nat} (h : errPage q) (b : Nat) : s.Notified (s.notice q b) := by
  rcases h with rfl | ⟨g, rfl⟩
  · exact .raiseMsix s (fn := 0) (by decide) 6
  · rw [State.notice_of_pageHall s (pageHall_hallPage g)]
    exact .hallNotice s g

/-! ### What stays when an error is recorded -/

/-- The offsets of the error registers that a record writes (R36, R40). -/
abbrev errOffset (o : Nat) : Prop := o = 0x010 ∨ o = 0x01C ∨ o = 0x840 ∨ o = 0x844 ∨ o = 0x848

/-- Nothing differs but what the record of an error in page `q` and its notice write. -/
structure State.ErrorIn (q : Nat) (s t : State) : Prop where
  cores : s.sameCores t
  word : ∀ p o, o < 4096 → o % 4 = 0 → noFunPage p → p ≠ q ∨ ¬errOffset o → t.liveWord p o = s.liveWord p o
  rest : { t with cores := [], live := [], out := [], errSeq := 0 } = { s with cores := [], live := [], out := [], errSeq := 0 }

theorem State.ErrorIn.trans {q : Nat} {s t u : State} (h : State.ErrorIn q s t) (k : State.ErrorIn q t u) : State.ErrorIn q s u :=
  ⟨State.sameCores_trans h.cores k.cores, fun p o ho ao hp hq => (k.word p o ho ao hp hq).trans (h.word p o ho ao hp hq),
    k.rest.trans h.rest⟩

theorem State.ErrorIn.refl (q : Nat) (s : State) : State.ErrorIn q s s := ⟨s.sameCores_refl, fun _ _ _ _ _ _ => rfl, rfl⟩

theorem State.Notified.errorIn {s t : State} (h : s.Notified t) (q : Nat) : State.ErrorIn q s t :=
  ⟨h.cores, fun p o ho _ hp _ => h.word p o ho hp, congrArg (fun r : State => { r with errSeq := 0 }) h.rest⟩

theorem State.ErrorIn.setLive (s : State) (q : Nat) {o : Nat} (v : Word) (h : errOffset o) : State.ErrorIn q s (s.setLive q o v) :=
  ⟨State.sameCores_of_cores rfl, fun p r hr ar hp hq => s.liveWord_setLive_ne v (by unfold widx; omega), rfl⟩

theorem State.ErrorIn.ite {q : Nat} {c : Prop} [Decidable c] {s a b : State} (ha : State.ErrorIn q s a) (hb : State.ErrorIn q s b) :
    State.ErrorIn q s (if c then a else b) := by split <;> assumption

/-! ### An error of a page -/

/-- The registers of an error written, its notice not yet made (R38, R39). -/
def State.errWritten (s : State) (q b : Nat) : State :=
  let n := s.errSeq + 1
  let t : State := { s with errSeq := n }
  (if s.liveWord q 0x010 = 0 then t.setLive q 0x01C (w32 (b + n.toNat * 2 ^ 16)) else t).setLive q 0x010 (setWBit (s.liveWord q 0x010) b)

theorem State.recordErr_of_errPage (s : State) {q : Nat} (h : errPage q) (b : Nat) : s.recordErr q b =
    if wbit (s.liveWord q 0x010) b || wbit ((s.errWritten q b).liveWord q 0x014) b then s.errWritten q b
    else (s.errWritten q b).notice q b := by
  unfold State.recordErr
  rw [h.firstPage]
  simp only [State.errWritten, b2n, Bool.false_eq_true, if_false, Nat.zero_mul, Nat.add_zero]
  rfl

theorem State.notified_recordErr (s : State) {q : Nat} (h : errPage q) (b : Nat) : (s.errWritten q b).Notified (s.recordErr q b) := by
  rw [State.recordErr_of_errPage s h]
  split
  · exact .refl _
  · exact .notice _ h b

theorem State.errorIn_errWritten (s : State) (q b : Nat) : State.ErrorIn q s (s.errWritten q b) := by
  have hseq (n : BitVec 16) : State.ErrorIn q s { s with errSeq := n } :=
    ⟨State.sameCores_of_cores rfl, fun _ _ _ _ _ _ => rfl, rfl⟩
  exact (State.ErrorIn.ite ((hseq _).trans (.setLive _ q _ (.inr (.inl rfl)))) (hseq _)).trans (.setLive _ q _ (.inl rfl))

theorem State.errorIn_recordErr (s : State) {q : Nat} (h : errPage q) (b : Nat) : State.ErrorIn q s (s.recordErr q b) :=
  (s.errorIn_errWritten q b).trans ((s.notified_recordErr h b).errorIn q)

/-- An error recorded in such a page (R38, R39). -/
theorem State.records_recordErr (s : State) {q : Nat} (h : errPage q) (b : Nat) : s.records (s.recordErr q b) q b := by
  have hn := s.notified_recordErr h b
  have hseq : (s.recordErr q b).errSeq = (s.errWritten q b).errSeq := by
    have hs := congrArg State.errSeq hn.rest
    exact hs
  have hkey : widx q 0x01C ≠ widx q 0x010 := by unfold widx; omega
  refine ⟨?_, ?_, fun he => ?_⟩
  · rw [hseq]
    unfold State.errWritten
    dsimp only
    split <;> rfl
  · rw [hn.word q 0x010 (by decide) h.noFunPage]
    exact State.liveWord_setLive_self _ _ _ _
  · rw [hn.word q 0x01C (by decide) h.noFunPage]
    unfold State.errWritten
    dsimp only
    rw [if_pos he, State.liveWord_setLive_ne _ _ hkey, State.liveWord_setLive_self]
    rfl

/-! ### Access errors (R40) -/

/-- A page holds an access error: its ACCESS bit is set, and an error that is the first since the bit was clear is in its registers. -/
def State.held (s t : State) (a : Agent) (o : Nat) (write : Bool) (q : Nat) : Prop :=
  wbit (t.liveWord q 0x010) 0 = true ∧ (wbit (s.liveWord q 0x010) 0 = false →
    t.liveWord q 0x840 = BitVec.ofNat 32 (controlBase + o) ∧ t.liveWord q 0x844 = BitVec.ofNat 32 ((controlBase + o) / 2 ^ 32)
      ∧ t.liveWord q 0x848 = BitVec.ofNat 32 (agentSrc a + b2n write * 2 ^ 16))

/-- A page that holds an access error goes on to hold that one. -/
def State.keepsHeld (s t : State) (q : Nat) : Prop :=
  wbit (s.liveWord q 0x010) 0 = true → wbit (t.liveWord q 0x010) 0 = true ∧
    ∀ o, o = 0x840 ∨ o = 0x844 ∨ o = 0x848 → t.liveWord q o = s.liveWord q o

theorem State.keepsHeld_of_words {s t : State} {q : Nat} (h : ∀ o, o < 4096 → o % 4 = 0 → t.liveWord q o = s.liveWord q o) :
    s.keepsHeld t q := fun hb => ⟨by rwa [h 0x010 (by decide) (by decide)], fun o ho => h o (by omega) (by omega)⟩

theorem State.keepsHeld_trans {s t u : State} {q : Nat} (h : s.keepsHeld t q) (k : t.keepsHeld u q) : s.keepsHeld u q := fun hb =>
  ⟨(k (h hb).1).1, fun o ho => ((k (h hb).1).2 o ho).trans ((h hb).2 o ho)⟩

theorem State.held_keepsHeld {s t u : State} {a : Agent} {o q : Nat} {w : Bool} (h : s.held t a o w q) (k : t.keepsHeld u q) :
    s.held u a o w q := by
  obtain ⟨hb, hw⟩ := h
  obtain ⟨kb, kw⟩ := k hb
  exact ⟨kb, fun h0 => by rw [kw _ (.inl rfl), kw _ (.inr (.inl rfl)), kw _ (.inr (.inr rfl))]; exact hw h0⟩

theorem State.held_of_word {s t u : State} {a : Agent} {o q : Nat} {w : Bool} (h : t.liveWord q 0x010 = s.liveWord q 0x010)
    (k : t.held u a o w q) : s.held u a o w q := ⟨k.1, fun h0 => k.2 (by rwa [h])⟩

/-- The registers of an access error written, where it is the first (R40). -/
def State.accWritten (s : State) (q : Nat) (a : Agent) (addr : Nat) (write : Bool) : State :=
  if !wbit (s.liveWord q 0x010) 0 then
    ((s.setLive q 0x840 (w32 addr)).setLive q 0x844 (w32 (addr / 2 ^ 32 % 2 ^ 16))).setLive q 0x848
      (w32 (agentSrc a + b2n write * 2 ^ 16 + b2n false * 2 ^ 17))
  else s

theorem State.errorIn_accWritten (s : State) (q : Nat) (a : Agent) (addr : Nat) (w : Bool) :
    State.ErrorIn q s (s.accWritten q a addr w) :=
  .ite (((State.ErrorIn.setLive s q _ (.inr (.inr (.inl rfl)))).trans (.setLive _ q _ (.inr (.inr (.inr (.inl rfl)))))).trans
    (.setLive _ q _ (.inr (.inr (.inr (.inr rfl)))))) (.refl q s)

theorem State.recordAccessIn_eq (s : State) (q : Nat) (a : Agent) (addr : Nat) (w : Bool) :
    s.recordAccessIn q a addr w false = (s.accWritten q a addr w).recordErr q 0 := rfl

theorem State.errorIn_recordAccessIn (s : State) {q : Nat} (h : errPage q) (a : Agent) (addr : Nat) (w : Bool) :
    State.ErrorIn q s (s.recordAccessIn q a addr w false) :=
  (s.errorIn_accWritten q a addr w).trans (State.errorIn_recordErr _ h 0)

/-- Recording an error leaves the registers of access errors alone, unless they lie elsewhere. -/
theorem State.liveWord_recordErr_acc (s : State) {q : Nat} (h : errPage q) (b : Nat) {o : Nat} (ho : 0x840 ≤ o) (ho' : o < 4096) :
    (s.recordErr q b).liveWord q o = s.liveWord q o := by
  rw [(s.notified_recordErr h b).word q o ho' h.noFunPage]
  have h10 : widx q o ≠ widx q 0x010 := by unfold widx; omega
  have h1c : widx q o ≠ widx q 0x01C := by unfold widx; omega
  unfold State.errWritten
  dsimp only
  split
  · rw [State.liveWord_setLive_ne _ _ h10, State.liveWord_setLive_ne _ _ h1c]
    rfl
  · rw [State.liveWord_setLive_ne _ _ h10]
    rfl

theorem wbit_or_two_pow (v : Word) (b : Nat) (hb : b < 32) : wbit (v ||| BitVec.ofNat 32 (2 ^ b)) b = true := by
  rw [wbit_eq_getLsbD, BitVec.getLsbD_or, BitVec.getLsbD_ofNat]
  simp [hb]

theorem State.access_recordAccessIn (s : State) {q : Nat} (h : errPage q) (a : Agent) (addr : Nat) (w : Bool) :
    wbit ((s.recordAccessIn q a addr w false).liveWord q 0x010) 0 = true := by
  obtain ⟨-, hbit, -⟩ := (s.accWritten q a addr w).records_recordErr h 0
  rw [State.recordAccessIn_eq, hbit]
  exact wbit_or_two_pow _ 0 (by decide)

theorem State.held_recordAccessIn (s : State) {q : Nat} (h : errPage q) (a : Agent) {o : Nat} (ho : o < 2 ^ 32) (w : Bool) :
    s.held (s.recordAccessIn q a (controlBase + o) w false) a o w q := by
  refine ⟨s.access_recordAccessIn h a _ w, fun h0 => ?_⟩
  have hne {i j : Nat} (hij : i / 4 ≠ j / 4) (hi : i < 4096) (hj : j < 4096) : widx q i ≠ widx q j := by unfold widx; omega
  have hhigh : (controlBase + o) / 2 ^ 32 % 2 ^ 16 = (controlBase + o) / 2 ^ 32 := by unfold controlBase; omega
  simp only [State.recordAccessIn_eq, State.liveWord_recordErr_acc _ h 0 (o := 0x840) (by decide) (by decide),
    State.liveWord_recordErr_acc _ h 0 (o := 0x844) (by decide) (by decide),
    State.liveWord_recordErr_acc _ h 0 (o := 0x848) (by decide) (by decide), State.accWritten, h0, Bool.not_false, if_true]
  refine ⟨?_, ?_, ?_⟩
  · rw [State.liveWord_setLive_ne _ _ (hne (by decide) (by decide) (by decide)),
      State.liveWord_setLive_ne _ _ (hne (by decide) (by decide) (by decide)), State.liveWord_setLive_self]
    rfl
  · rw [State.liveWord_setLive_ne _ _ (hne (by decide) (by decide) (by decide)), State.liveWord_setLive_self, hhigh]
    rfl
  · rw [State.liveWord_setLive_self]
    rfl

theorem State.keepsHeld_recordAccessIn (s : State) {q : Nat} (h : errPage q) (a : Agent) (addr : Nat) (w : Bool) {r : Nat}
    (hr : errPage r) : s.keepsHeld (s.recordAccessIn q a addr w false) r := by
  by_cases hqr : r = q
  · subst hqr
    refine fun h1 => ⟨s.access_recordAccessIn h a addr w, fun o ho => ?_⟩
    rw [State.recordAccessIn_eq, State.liveWord_recordErr_acc _ h 0 (by omega) (by omega), State.accWritten, h1]
    rfl
  · exact State.keepsHeld_of_words fun o ho ha => (s.errorIn_recordAccessIn h a addr w).word r o ho ha hr.noFunPage (.inl hqr)

/-! ### A control-page access turned away -/

/-- Nothing differs but what an access error writes in the keeper page and in HALL pages. -/
structure State.Turned (s t : State) : Prop where
  cores : s.sameCores t
  word : ∀ p o, o < 4096 → o % 4 = 0 → noFunPage p → ¬errPage p ∨ ¬errOffset o → t.liveWord p o = s.liveWord p o
  rest : { t with cores := [], live := [], out := [], errSeq := 0 } = { s with cores := [], live := [], out := [], errSeq := 0 }
  keeps : ∀ q, errPage q → s.keepsHeld t q

theorem State.Turned.trans {s t u : State} (h : s.Turned t) (k : t.Turned u) : s.Turned u :=
  ⟨State.sameCores_trans h.cores k.cores, fun p o ho ao hp hq => (k.word p o ho ao hp hq).trans (h.word p o ho ao hp hq),
    k.rest.trans h.rest, fun q hq => State.keepsHeld_trans (h.keeps q hq) (k.keeps q hq)⟩

theorem State.turned_recordAccessIn (s : State) {q : Nat} (h : errPage q) (a : Agent) (addr : Nat) (w : Bool) :
    s.Turned (s.recordAccessIn q a addr w false) := by
  have he := s.errorIn_recordAccessIn h a addr w
  refine ⟨he.cores, fun p o ho ao hp hq => he.word p o ho ao hp ?_, he.rest, fun r hr => s.keepsHeld_recordAccessIn h a addr w hr⟩
  exact hq.imp_left fun hn (hpq : p = q) => hn (hpq ▸ h)

theorem errPage_zero : errPage 0 := .inl rfl

theorem errPage_hallPage (h : HallId) : errPage (hallPage h 0) := .inr ⟨h, rfl⟩

theorem State.turned_ctlError (s : State) (a : Agent) (o : Nat) (w : Bool) : s.Turned (s.ctlError a o w) := by
  have h0 := s.turned_recordAccessIn errPage_zero a (controlBase + o) w
  unfold State.ctlError State.accessError
  split
  next h _ => exact h0.trans (State.turned_recordAccessIn _ (errPage_hallPage h) a _ w)
  next => exact h0

/-- An access error is held in the keeper page and in the page of the issuing hall (R40). -/
theorem State.turnsAway_ctlError (s : State) (a : Agent) {o : Nat} (ho : o < 2 ^ 32) (w : Bool) :
    s.turnsAway (s.ctlError a o w) a o w := by
  have h0 := s.held_recordAccessIn errPage_zero a ho w
  have he := s.errorIn_recordAccessIn errPage_zero a (controlBase + o) w
  unfold State.ctlError State.accessError
  rintro q (rfl | ⟨h, ha, rfl⟩)
  · split
    next h _ => exact State.held_keepsHeld h0 (State.keepsHeld_recordAccessIn _ (errPage_hallPage h) a _ w errPage_zero)
    next => exact h0
  · rw [ha]
    have hpage : hallPage h 0 ≠ 0 := by unfold hallPage; omega
    exact State.held_of_word (he.word _ 0x010 (by decide) (by decide) (errPage_hallPage h).noFunPage (.inl hpage))
      (State.held_recordAccessIn _ (errPage_hallPage h) a ho w)

/-- An access turned away stays so recorded through further errors. -/
theorem State.turnsAway_of_turned {s t u : State} {a : Agent} {o : Nat} {w : Bool} (h : s.turnsAway t a o w)
    (k : ∀ q, errPage q → t.keepsHeld u q) : s.turnsAway u a o w := fun q hq =>
  State.held_keepsHeld (h q hq) (k q (by rcases hq with rfl | ⟨g, -, rfl⟩; exacts [errPage_zero, errPage_hallPage g]))

theorem State.turnsAway_of_live {s t u : State} {a : Agent} {o : Nat} {w : Bool} (h : t.live = s.live) (k : t.turnsAway u a o w) :
    s.turnsAway u a o w := fun q hq => State.held_of_word (by rw [State.liveWord, State.liveWord, h]) (k q hq)

/-- A write turned away leaves its register as it was. -/
theorem State.away_ctlError (s : State) (a : Agent) {p o : Nat} (hp : p < 0x10000) (ho : o < 4096) (ao : o % 4 = 0) (hf : noFunPage p)
    (he : ¬errOffset o) : s.turnsAway (s.ctlError a (p * 4096 + o) true) a (p * 4096 + o) true ∧
      (s.ctlError a (p * 4096 + o) true).liveWord p o = s.liveWord p o :=
  ⟨s.turnsAway_ctlError a (by omega) true, (s.turned_ctlError a _ true).word p o ho ao hf (.inr he)⟩

end Sys2Proof.Machine
end

