-- ==== Sys2Proof/Proofs/LiveRegisters.lean ====
section
/-!
SUPPORT. A write of a live register by an agent that reaches it (R7, R40): the block and the number of the pages of cores and halls
(R33 to R35), and what such a write leads to.
-/
namespace Sys2Proof.Machine

/-! ### Pages -/

/-- The block of page `j` of a core (R35). -/
def coreBlock : Fin 4 → Block
  | 0 => .core
  | 1 => .channel
  | 2 => .tally
  | 3 => .lantern

theorem pageBlock_corePage (c : CoreId) (j : Fin 4) : pageBlock (corePage c j.val) = some (coreBlock j, c.val, 0) := by
  have hc := c.isLt
  have hj := j.isLt
  have hn : (corePage c j.val - 0x1000) / 4 = c.val := by unfold corePage; omega
  have hm : (corePage c j.val - 0x1000) % 4 = j.val := by unfold corePage; omega
  have hlo : 0x1000 ≤ corePage c j.val := by unfold corePage; omega
  have hhi : corePage c j.val < 0x2200 := by unfold corePage; omega
  generalize corePage c j.val = p at *
  have hne (n : Nat) (h : n < 0x1000) : p ≠ n := by omega
  have hnl (n : Nat) (h : n ≤ 0x1000) : ¬p < n := by omega
  simp only [pageBlock, hne 0 (by decide), hne 1 (by decide), hne 4 (by decide), hnl 4 (by decide), hnl 8 (by decide),
    hnl 0x10 (by decide), hnl 0x1C (by decide), hnl 0x20 (by decide), hnl 0x28 (by decide), hnl 0x30 (by decide), hnl 0x38 (by decide),
    hnl 0x100 (by decide), hnl 0x900 (by decide), hnl 0x1000 (by decide), hhi, if_false, if_true, hn, hm]
  clear hn hm
  fin_cases j <;> rfl

/-! ### Registers -/

/-- Whether the register at an offset of a table takes writes (R7). -/
def rowTakes (rows : List RegRow) (off : Nat) : Bool :=
  match rowAt rows off with
  | some (r, _, _) => decide (r.acc = .rw ∨ r.acc = .wo)
  | none => false

/-- At this offset of this page lies a live register that takes writes, other than those of the PCIe port. -/
structure LivePlace (p off : Nat) (b : Block) (inst ord : Nat) : Prop where
  live : 0x800 ≤ off
  offset : off < 4096
  aligned : off % 4 = 0
  page : p ≠ 0x20
  block : pageBlock p = some (b, inst, ord)
  takes : rowTakes (regRows b inst ord) off = true

theorem State.writeWord_live (s : State) (a : Agent) {p off : Nat} {b : Block} {inst ord : Nat} (v : Word)
    (h : LivePlace p off b inst ord) : s.writeWord a (p * 4096 + off) v = s.writeReg a p off b inst ord v := by
  obtain ⟨hlive, ho, ha, hp, hb, ht⟩ := h
  have hpage : (p * 4096 + off) / 4096 = p := by omega
  have hoff : (p * 4096 + off) % 4096 = off := by omega
  have hidden : portHidden a p off = false := by simp [portHidden, hp]
  simp only [State.writeWord, hpage, hoff, hb, hidden, ha, ne_eq, not_true_eq_false, if_false, Bool.false_eq_true]
  rw [if_neg (by omega), if_neg (by omega), if_neg (by omega), regAt, hb]
  unfold rowTakes at ht
  dsimp only
  split at ht
  next r n hi hrow =>
    rw [hrow]
    exact if_pos (of_decide_eq_true ht)
  next => exact absurd ht Bool.false_ne_true

/-- A write of a live register by an agent that reaches it. -/
theorem State.leads_writes_live {s : State} {a : Agent} {p off : Nat} {b : Block} {inst ord : Nat} {v : Word} {P : State → Prop}
    (h : LivePlace p off b inst ord) (hr : s.running = true) (hreach : s.reach a p off = .all)
    (hP : P (s.writeReg a p off b inst ord v)) : Leads (s.writes a p off v) P := by
  have hpage : (p * 4096 + off) / 4096 = p := by have := h.offset; omega
  have hoff : (p * 4096 + off) % 4096 = off := by have := h.offset; omega
  refine leads_does hr ?_
  rwa [State.ctlWriteWord, hpage, hoff, hreach, State.writeWord_live s a v h]

theorem LivePlace.of_core (c : CoreId) (j : Fin 4) {off : Nat} (h : 0x800 ≤ off) (ho : off < 4096) (ha : off % 4 = 0)
    (ht : rowTakes (regRows (coreBlock j) c.val 0) off = true) : LivePlace (corePage c j.val) off (coreBlock j) c.val 0 :=
  ⟨h, ho, ha, by unfold corePage; omega, pageBlock_corePage c j, ht⟩

end Sys2Proof.Machine
end

