-- ==== Sys2Proof/Proofs/DebugCommands.lean ====
section
/-!
SUPPORT. The commands that write a direct-action register of a core, an engine or a hall (R74, R81, R171, R215, R242, R293, R298, R299):
each writes a live register, and so leads to what a write of that register does where its agent reaches it.
-/
namespace Sys2Proof.Machine

/-! ### Registers of cores -/

theorem ofNat_coreId (c : CoreId) : (Fin.ofNat 1152 c.val : CoreId) = c := Fin.ext (Nat.mod_eq_of_lt c.isLt)

theorem ofNat_hallId (h : HallId) : (Fin.ofNat 8 h.val : HallId) = h := Fin.ext (Nat.mod_eq_of_lt h.isLt)

theorem livePlace_core (c : CoreId) {off : Nat} (h : 0x800 ≤ off ∧ off < 4096 ∧ off % 4 = 0) (ht : rowTakes regsCore0 off = true) :
    LivePlace (corePage c 0) off .core c.val 0 := LivePlace.of_core c 0 h.1 h.2.1 h.2.2 ht

theorem livePlace_tally (c : CoreId) : LivePlace (corePage c 2) 0x800 .tally c.val 0 :=
  LivePlace.of_core c 2 (by decide) (by decide) (by decide) (by decide : rowTakes regsTally0 0x800 = true)

theorem livePlace_sumpRound (c : CoreId) (u : Fin 32) : LivePlace (corePage c 1) (0x840 + 4 * u.val) .channel c.val 0 :=
  LivePlace.of_core c 1 (by omega) (by omega) (by omega) ((by decide : ∀ u : Fin 32, rowTakes regsChannel0 (0x840 + 4 * u.val) = true) u)

theorem livePlace_lhalt (c : CoreId) (n : Fin 4) : LivePlace (corePage c 3) (0x800 + 4 * n.val) .lantern c.val 0 :=
  LivePlace.of_core c 3 (by omega) (by omega) (by omega) ((by decide : ∀ n : Fin 4, rowTakes regsLantern0 (0x800 + 4 * n.val) = true) n)

theorem livePlace_lchabort (c : CoreId) : LivePlace (corePage c 3) 0x810 .lantern c.val 0 :=
  LivePlace.of_core c 3 (by decide) (by decide) (by decide) (by decide : rowTakes regsLantern0 0x810 = true)

section Commands
variable {s : State} {a : Agent} {v : Word} {P : State → Prop} (hr : s.running = true)
include hr

theorem State.leads_coreWrite {c : CoreId} {off : Nat} (hreach : s.reach a (corePage c 0) off = .all)
    (h : 0x800 ≤ off ∧ off < 4096 ∧ off % 4 = 0) (ht : rowTakes regsCore0 off = true) (hP : P (s.writeCore a c off v)) :
    Leads (s.writes a (corePage c 0) off v) P := by
  refine State.leads_writes_live (livePlace_core c h ht) hr hreach ?_
  rwa [State.writeReg, ofNat_coreId]

theorem State.leads_lhalt {x : Site} (hreach : s.reach a (corePage x.core 3) (0x800 + 4 * x.thread.val) = .all)
    (hP : P (s.writeLhalt x v)) : Leads (s.writes a (corePage x.core 3) (0x800 + 4 * x.thread.val) v) P := by
  refine State.leads_writes_live (livePlace_lhalt x.core x.thread) hr hreach ?_
  have hn := x.thread.isLt
  have hoff : 0x800 + 4 * x.thread.val < 0x810 := by omega
  have hthread : (Fin.ofNat 4 ((0x800 + 4 * x.thread.val - 0x800) / 4) : Fin 4) = x.thread :=
    (by decide : ∀ n : Fin 4, (Fin.ofNat 4 ((0x800 + 4 * n.val - 0x800) / 4) : Fin 4) = n) x.thread
  rwa [State.writeReg, State.writeLantern, if_pos hoff, hthread, ofNat_coreId]

theorem State.leads_channelAbort {c : CoreId} (hreach : s.reach a (corePage c 3) 0x810 = .all) (hP : P (s.writeLchabort a c v)) :
    Leads (exec (.channelAbort a c v) s) P := by
  refine State.leads_writes_live (livePlace_lchabort c) hr hreach ?_
  rwa [State.writeReg, ofNat_coreId]

theorem State.leads_qctlDiscard {c : CoreId} (hreach : s.reach a (corePage c 0) 0x924 = .all) (hP : P (s.writeCoreQctl c v)) :
    Leads (exec (.qctlDiscard a c v) s) P := State.leads_coreWrite hr hreach (by decide) (by decide) hP

theorem State.leads_sumpRoundWrite {c : CoreId} {u : Fin 32} (hreach : s.reach a (corePage c 1) (0x840 + 4 * u.val) = .all)
    (hP : P (s.writeRound a c u v)) : Leads (exec (.sumpRoundWrite a c u v) s) P := by
  refine State.leads_writes_live (livePlace_sumpRound c u) hr hreach ?_
  have hu : (Fin.ofNat 32 ((0x840 + 4 * u.val - 0x840) / 4) : Fin 32) = u :=
    (by decide : ∀ n : Fin 32, (Fin.ofNat 32 ((0x840 + 4 * n.val - 0x840) / 4) : Fin 32) = n) u
  rwa [State.writeReg, hu, ofNat_coreId]

theorem State.leads_tableRegisterWrite {c : CoreId} {r : TableReg} (hreach : s.reach a (corePage c 0) (tableOff r) = .all)
    (hP : P (s.writeTable a c r v)) : Leads (exec (.tableRegisterWrite a c r v) s) P := by
  cases r with
  | vbase n =>
    have hn := n.isLt
    refine State.leads_coreWrite hr hreach ?_ ((by decide : ∀ n : Fin 3, rowTakes regsCore0 (0xA00 + 4 * n.val) = true) n) ?_
    · simp only [tableOff]
      omega
    · have hreg : (Fin.ofNat 3 ((0xA00 + 4 * n.val - 0xA00) / 4) : Fin 3) = n :=
        (by decide : ∀ n : Fin 3, (Fin.ofNat 3 ((0xA00 + 4 * n.val - 0xA00) / 4) : Fin 3) = n) n
      rwa [tableOff, State.writeCore, if_neg (by omega), if_neg (by omega), if_neg (by omega), if_pos (by omega), hreg]
  | gtbl => exact State.leads_coreWrite hr hreach (by decide) (by decide) hP
  | emstack => exact State.leads_coreWrite hr hreach (by decide) (by decide) hP
  | inten n =>
    have hn := n.isLt
    refine State.leads_coreWrite hr hreach ?_ ((by decide : ∀ n : Fin 4, rowTakes regsCore0 (0xA20 + 4 * n.val) = true) n) ?_
    · simp only [tableOff]
      omega
    · have hreg : (Fin.ofNat 4 ((0xA20 + 4 * n.val - 0xA20) / 4) : Fin 4) = n :=
        (by decide : ∀ n : Fin 4, (Fin.ofNat 4 ((0xA20 + 4 * n.val - 0xA20) / 4) : Fin 4) = n) n
      rwa [tableOff, State.writeCore, if_neg (by omega), if_neg (by omega), if_neg (by omega), if_neg (by omega), if_neg (by omega),
        if_neg (by omega), hreg]

end Commands

/-! ### Registers of halls and engines -/

theorem livePlace_salt (h : HallId) : LivePlace (hallPage h 0) 0x8A0 .hall h.val 0 :=
  ⟨by decide, by decide, by decide, by unfold hallPage; omega,
    (by decide : ∀ h : HallId, pageBlock (hallPage h 0) = some (.hall, h.val, 0)) h, (by decide : rowTakes regsHall0 0x8A0 = true)⟩

/-- The block of an engine, by its number (R34, R317). -/
def engineBlock : Fin 9 → Block
  | 0 => .siphon
  | 1 => .sort
  | 2 => .sampler
  | 3 => .squeeze
  | 4 => .cipher
  | _ => .hdma

theorem pageBlock_enginePage (h : HallId) (n : Fin 9) : pageBlock (enginePage h n.val) = some (engineBlock n, h.val, 0) := by
  revert h n
  decide

theorem livePlace_engine (h : HallId) (n : Fin 9) {off : Nat} (ho : 0x800 ≤ off ∧ off < 4096 ∧ off % 4 = 0)
    (ht : rowTakes (regRows (engineBlock n) h.val 0) off = true) : LivePlace (enginePage h n.val) off (engineBlock n) h.val 0 :=
  ⟨ho.1, ho.2.1, ho.2.2, (by decide : ∀ (h : HallId) (n : Fin 9), enginePage h n.val ≠ 0x20) h n, pageBlock_enginePage h n, ht⟩

theorem rowTakes_tallyClr (h : HallId) (n : Fin 9) : rowTakes (regRows (engineBlock n) h.val 0) 0xF00 = true := by
  revert h n
  decide

theorem State.writeReg_engine (s : State) (a : Agent) (h : HallId) (n : Fin 9) (off : Nat) (v : Word) :
    s.writeReg a (enginePage h n.val) off (engineBlock n) h.val 0 v = s.writeEngine a h n off v := by
  have hdma : ∀ (h : HallId) (k : Fin 4),
      (Fin.ofNat 9 (enginePage h (5 + k.val) % 0x100 - 0x10 + 5) : Fin 9) = Fin.ofNat 9 (5 + k.val) := by decide
  unfold State.writeReg
  rw [ofNat_hallId]
  fin_cases n
  iterate 5 rfl
  · exact congrArg (s.writeEngine a h · off v) (hdma h 0)
  · exact congrArg (s.writeEngine a h · off v) (hdma h 1)
  · exact congrArg (s.writeEngine a h · off v) (hdma h 2)
  · exact congrArg (s.writeEngine a h · off v) (hdma h 3)

section Commands
variable {s : State} {a : Agent} {v : Word} {P : State → Prop} (hr : s.running = true)
include hr

theorem State.leads_saltWrite {h : HallId} (hreach : s.reach a (hallPage h 0) 0x8A0 = .all) (hP : P (s.writeSalt a h v)) :
    Leads (exec (.saltWrite a h v) s) P := by
  refine State.leads_writes_live (livePlace_salt h) hr hreach ?_
  rwa [State.writeReg, ofNat_hallId]

theorem State.leads_engineWrite {h : HallId} {n : Fin 9} {off : Nat} (hreach : s.reach a (enginePage h n.val) off = .all)
    (ho : 0x800 ≤ off ∧ off < 4096 ∧ off % 4 = 0) (ht : rowTakes (regRows (engineBlock n) h.val 0) off = true)
    (hP : P (s.writeEngine a h n off v)) : Leads (s.writes a (enginePage h n.val) off v) P :=
  State.leads_writes_live (livePlace_engine h n ho ht) hr hreach (by rwa [State.writeReg_engine])

theorem State.leads_tallyClr {u : TallyUnit} (hreach : s.reach a (tallyBase u).1 (tallyBase u).2 = .all) (hP : P (s.writeTallyClr u v)) :
    Leads (exec (.tallyClr a u v) s) P := by
  cases u with
  | core c =>
    refine State.leads_writes_live (livePlace_tally c) hr hreach ?_
    rwa [State.writeReg, ofNat_coreId]
  | engine h n => exact State.leads_engineWrite (off := 0xF00) hr hreach (by decide) (rowTakes_tallyClr h n) hP

theorem State.leads_dripWrite {u : DripUnit} (hreach : s.reach a (dripPlace u).1 (dripPlace u).2.1 = .all) (hP : P (s.writeDrip a u v)) :
    Leads (exec (.dripWrite a u v) s) P := by
  cases u with
  | matrix c => exact State.leads_coreWrite (off := 0x880) hr hreach (by decide) (by decide) hP
  | vector c => exact State.leads_coreWrite (off := 0x884) hr hreach (by decide) (by decide) hP
  | siphon h =>
    exact State.leads_engineWrite (n := 0) (off := 0x8F0) hr hreach (by decide) (by decide : rowTakes regsSiphon0 0x8F0 = true) hP
  | sampler h =>
    exact State.leads_engineWrite (n := 2) (off := 0x8F0) hr hreach (by decide) (by decide : rowTakes regsSampler0 0x8F0 = true) hP

end Commands

end Sys2Proof.Machine
end

