-- ==== Sys2Proof/Proofs/DirectRegisters.lean ====
section
/-!
SUPPORT. What a write of a direct-action register does (R73, R74, R79, R81, R171, R215, R242, R287, R298): the words, threads and sumps
that it changes, and that an access turned away changes none of them.
-/
namespace Sys2Proof.Machine

/-! ### Words -/

/-- Only words differ, and of them those listed. -/
theorem State.wrote_setLive (s : State) (p : Nat) {o : Nat} (v : Word) (ho : o < 4096 ∧ o % 4 = 0) :
    s.liveOnly (s.setLive p o v) ∧ s.puts (s.setLive p o v) [((p, o), v)] :=
  ⟨State.liveOnly_setLive s.liveOnly_refl p o v, State.puts_setLive s.puts_refl v ho.1 ho.2⟩

/-! ### Registers written while the hall is stopped -/

theorem State.whileStopped_of_stopped {s : State} {h : HallId} (hs : s.stopped h = true) (a : Agent) (p o : Nat) (f : State → State) :
    s.whileStopped a h p o f = f s := if_pos hs

theorem State.whileStopped_of_not_stopped {s : State} {h : HallId} (hs : s.stopped h = false) (a : Agent) (p o : Nat)
    (f : State → State) : s.whileStopped a h p o f = s.ctlError a (p * 4096 + o) true := if_neg (by simp [hs])

/-- The drip counters are words of core and engine pages, none of them an error register. -/
theorem dripPlace_bounds (u : DripUnit) : (dripPlace u).1 < 0x10000 ∧ noFunPage (dripPlace u).1 ∧ (dripPlace u).2.1 < 4096 ∧
    (dripPlace u).2.1 % 4 = 0 ∧ ¬errOffset (dripPlace u).2.1 := by
  have hoff : (dripPlace u).2.1 = 0x880 ∨ (dripPlace u).2.1 = 0x884 ∨ (dripPlace u).2.1 = 0x8F0 := by cases u <;> simp [dripPlace]
  have hpage : 0x100 ≤ (dripPlace u).1 ∧ (dripPlace u).1 < 0x10000 := by
    cases u <;> simp only [dripPlace, corePage, hallPage] <;> omega
  exact ⟨hpage.2, .inr (by omega), by omega, by omega, by unfold errOffset; omega⟩

theorem State.writeDrip_eq (s : State) (a : Agent) (u : DripUnit) (v : Word) : s.writeDrip a u v =
    s.whileStopped a (dripPlace u).2.2 (dripPlace u).1 (dripPlace u).2.1 fun s => s.setLive (dripPlace u).1 (dripPlace u).2.1 v := rfl

theorem Core.sumpOf_setSump (k : Core) (u n : Nat) (v : Sump) : (k.setSump u v).sumpOf n = if n = u then v else k.sumpOf n :=
  SMap.get_set k.sump u n Sump.zero v

/-- SUMP_ROUND writes the round number of one sump (R287). -/
theorem State.onlyCore_setSump (s : State) (c : CoreId) (u : Nat) (f : Core → Sump) :
    s.onlyCore c (fun k => { k with sump := [] }) (s.modCore c fun k => k.setSump u (f k)) :=
  ⟨State.sameOutside_modCore s c _, by rw [State.core_modCore_self]; rfl⟩

theorem State.sump_sameCores {s t : State} (h : s.sameCores t) (c : CoreId) : (t.core c).sump = (s.core c).sump := by
  have hk := congrArg Core.sump (h c).1
  exact hk

/-! ### Tallies -/

/-- The words of the counters of a slot. -/
abbrev slotWord (u : TallyUnit) (n q o : Nat) : Prop :=
  q = (tallyBase u).1 ∧ n ≠ 0 ∧ (tallyBase u).2 + 16 * n ≤ o ∧ o < (tallyBase u).2 + 16 * n + 12

theorem tallyBase_bounds (u : TallyUnit) : (tallyBase u).2 + 256 ≤ 4096 ∧ (tallyBase u).2 % 16 = 0 := by
  cases u <;> simp [tallyBase]

theorem State.liveWord_setLive (s : State) (p o q r : Nat) (v : Word) (ho : o < 4096) (ao : o % 4 = 0) (hr : r < 4096) (ar : r % 4 = 0) :
    (s.setLive p o v).liveWord q r = if q = p ∧ r = o then v else s.liveWord q r := by
  split
  next h => rw [h.1, h.2, State.liveWord_setLive_self]
  next h => exact State.liveWord_setLive_ne s v fun he => h (widx_inj hr ho ar ao he)

theorem State.liveWord_tallyClear (s : State) (u : TallyUnit) {n : Nat} (hn : n < 16) (q : Nat) {o : Nat} (ho : o < 4096) (ao : o % 4 = 0) :
    (s.tallyClear u n).liveWord q o = if slotWord u n q o then 0 else s.liveWord q o := by
  obtain ⟨hb, ab⟩ := tallyBase_bounds u
  unfold State.tallyClear slotWord
  dsimp only
  by_cases h0 : n = 0
  · rw [if_pos h0, if_neg fun h => h.2.1 h0]
  · rw [if_neg h0, State.liveWord_setLive _ _ _ _ _ _ (by omega) (by omega) ho ao,
      State.liveWord_setLive _ _ _ _ _ _ (by omega) (by omega) ho ao, State.liveWord_setLive _ _ _ _ _ _ (by omega) (by omega) ho ao]
    rw [← ite_or, ← ite_or]
    exact if_congr (by omega) rfl rfl

theorem State.liveOnly_writeTallyClr (s : State) (u : TallyUnit) (v : Word) : s.liveOnly (s.writeTallyClr u v) :=
  State.liveOnly_foldl (fun t n => by split; exacts [State.liveOnly_tallyClear t u n, t.liveOnly_refl]) _ s

/-- The words of the slots named in a list are zero, the others as they were. -/
theorem State.liveWord_foldl_tallyClear (u : TallyUnit) (v : Word) (q : Nat) {o : Nat} (ho : o < 4096) (ao : o % 4 = 0) (l : List Nat)
    (hl : ∀ n ∈ l, n < 16) (s : State) : (l.foldl (fun s n => if wbit v n then s.tallyClear u n else s) s).liveWord q o =
      if ∃ n ∈ l, wbit v n = true ∧ slotWord u n q o then 0 else s.liveWord q o := by
  induction l generalizing s with
  | nil => simp
  | cons n l ih =>
    have hword : (if wbit v n then s.tallyClear u n else s).liveWord q o =
        if wbit v n = true ∧ slotWord u n q o then 0 else s.liveWord q o := by
      by_cases hv : wbit v n = true
      · rw [if_pos hv, State.liveWord_tallyClear s u (hl n (by simp)) q ho ao]
        simp only [hv, true_and]
      · rw [if_neg hv, if_neg fun h => hv h.1]
    rw [List.foldl_cons, ih (fun m hm => hl m (by simp [hm])), hword]
    by_cases ht : ∃ m ∈ l, wbit v m = true ∧ slotWord u m q o
    · rw [if_pos ht, if_pos]
      obtain ⟨m, hm, h⟩ := ht
      exact ⟨m, by simp [hm], h⟩
    · rw [if_neg ht]
      refine if_congr ⟨fun h => ⟨n, by simp, h⟩, ?_⟩ rfl rfl
      rintro ⟨m, hm, h⟩
      rcases List.mem_cons.mp hm with rfl | hm
      · exact h
      · exact absurd ⟨m, hm, h⟩ ht

/-- A write of TALLY_CLR clears the three counters of each slot from 1 on that it names (R79, R81). -/
theorem State.liveWord_writeTallyClr (s : State) (u : TallyUnit) (v : Word) (q : Nat) {o b : Nat} (hb : (tallyBase u).2 = b) (ho : o < 4096)
    (ao : o % 4 = 0) : (s.writeTallyClr u v).liveWord q o =
      if q = (tallyBase u).1 ∧ b + 16 ≤ o ∧ o < b + 256 ∧ (o - b) % 16 < 12 ∧ v.getLsbD ((o - b) / 16) = true then 0
      else s.liveWord q o := by
  obtain ⟨-, ab⟩ := tallyBase_bounds u
  rw [State.writeTallyClr, State.liveWord_foldl_tallyClear u v q ho ao _ (fun n hn => List.mem_range.mp hn)]
  refine if_congr ⟨?_, ?_⟩ rfl rfl
  · rintro ⟨n, hn, hv, hq, h0, hlo, hhi⟩
    have hn16 := List.mem_range.mp hn
    have hslot : (o - b) / 16 = n := by omega
    exact ⟨hq, by omega, by omega, by omega, by rwa [hslot, ← wbit_eq_getLsbD]⟩
  · rintro ⟨hq, hlo, hhi, hm, hv⟩
    exact ⟨(o - b) / 16, List.mem_range.mpr (by omega), by rwa [wbit_eq_getLsbD], hq, by omega, by omega, by omega⟩

/-! ### Table registers -/

/-- A field set in a masked word whose mask leaves the field clear. -/
theorem w32_setBits_land (v : Word) (m lo w x : Nat) (hm : ∀ j, lo ≤ j → j < lo + w → m.testBit j = false) (hx : x < 2 ^ w) :
    w32 (setBits (v.toNat.land m) lo w x) = (v &&& BitVec.ofNat 32 m) ||| BitVec.ofNat 32 (2 ^ lo * x) := by
  refine BitVec.eq_of_getLsbD_eq fun j hj => ?_
  have hland : (v.toNat.land m).testBit j = (v.toNat.testBit j && m.testBit j) := Nat.testBit_land _ _ j
  simp only [w32, BitVec.getLsbD_or, BitVec.getLsbD_and, BitVec.getLsbD_ofNat, hj, decide_true, Bool.true_and, testBit_setBits, hland,
    Nat.testBit_two_pow_mul]
  rw [show v.getLsbD j = v.toNat.testBit j from rfl]
  by_cases hlo : lo ≤ j
  · by_cases hhi : j < lo + w
    · simp [hlo, hhi, hm j hlo hhi]
    · have hbit : x.testBit (j - lo) = false :=
        Nat.testBit_lt_two_pow (Nat.lt_of_lt_of_le hx (Nat.pow_le_pow_right (by decide) (by omega)))
      simp [hhi, hbit]
  · simp [hlo]

theorem w32_land (v : Word) (m : Nat) : w32 (v.toNat.land m) = v &&& BitVec.ofNat 32 m := by
  refine BitVec.eq_of_getLsbD_eq fun j hj => ?_
  simp only [w32, BitVec.getLsbD_and, BitVec.getLsbD_ofNat, hj, decide_true, Bool.true_and]
  exact Nat.testBit_land _ _ j

theorem tableOff_bounds (r : TableReg) : tableOff r < 4096 ∧ tableOff r % 4 = 0 ∧ ¬errOffset (tableOff r) := by
  cases r with
  | vbase n => simp only [tableOff, errOffset]; omega
  | gtbl => decide
  | emstack => decide
  | inten n => simp only [tableOff, errOffset]; omega

/-- A table register takes no write of a ring above its own (R215). -/
theorem State.writeTable_of_lt {s : State} {a : Agent} {r : TableReg} (h : tableRing r < s.writerRing a) (c : CoreId) (v : Word) :
    s.writeTable a c r v = s.ctlError a (corePage c 0 * 4096 + tableOff r) true := if_pos h

/-- VBASEr takes the writer's ring as its owner (R215). -/
theorem State.writeTable_vbase {s : State} {a : Agent} {n : Fin 3} (h : s.writerRing a ≤ n.val) (c : CoreId) (v : Word) :
    s.writeTable a c (.vbase n) v =
      s.setLive (corePage c 0) (tableOff (.vbase n)) ((v &&& 0xFFC01) ||| BitVec.ofNat 32 (2 * s.writerRing a)) := by
  refine (if_neg (Nat.not_lt.mpr h)).trans ?_
  rw [w32_setBits_land v _ 1 2 _ (by decide) (by omega)]
  rfl

/-- GTBL takes the writer's ring as its owner (R215). -/
theorem State.writeTable_gtbl {s : State} {a : Agent} (h : s.writerRing a ≤ 1) (c : CoreId) (v : Word) :
    s.writeTable a c .gtbl v =
      s.setLive (corePage c 0) (tableOff .gtbl) ((v &&& 0xFFFF1FFF) ||| BitVec.ofNat 32 (2 ^ 13 * s.writerRing a)) := by
  refine (if_neg (Nat.not_lt.mpr h)).trans ?_
  rw [w32_setBits_land v _ 13 2 _ (by decide) (by omega)]
  rfl

theorem State.writeTable_emstack {s : State} {a : Agent} (h : s.writerRing a ≤ 0) (c : CoreId) (v : Word) :
    s.writeTable a c .emstack v = s.setLive (corePage c 0) (tableOff .emstack) (v &&& 0x1FFFF) := by
  refine (if_neg (Nat.not_lt.mpr h)).trans ?_
  rw [w32_land]
  rfl

theorem State.writeTable_inten {s : State} {a : Agent} {n : Fin 4} (h : s.writerRing a ≤ 1) (c : CoreId) (v : Word) :
    s.writeTable a c (.inten n) v = s.modThread ⟨c, n⟩ fun t => { t with inten := v } := if_neg (Nat.not_lt.mpr h)

/-! ### The lantern -/

/-- A write of LHALTn changes its thread alone. -/
theorem State.becomes_modThread (s : State) (x : Site) (f : Thread → Thread) :
    s.onlyThread (s.modThread x f) x ∧ (s.modThread x f).thread x = f (s.thread x) :=
  ⟨State.onlyThread_modThread s x f, State.thread_modThread_self s x f⟩

/-- A thread within a REP.L sequence, or with one to go on with after a return (R205, R233). -/
theorem Thread.locked_iff (t : Thread) : t.locked = true ↔ (∃ r, t.rep = some r ∧ r.reg = none) ∨ t.replCnt.isSome = true := by
  cases hrep : t.rep <;> simp [Thread.locked, hrep]

/-- HALT of a thread (R298). -/
theorem Thread.halt_eq (t : Thread) : t.halt = if t.run = .active then
    (if (∃ r, t.rep = some r ∧ r.reg = none) ∨ t.replCnt.isSome = true then { t with haltReq := true } else { t with run := .halted })
    else t := by
  by_cases hrun : t.run = .active
  · rw [Thread.halt, if_neg (not_not.mpr hrun), if_pos hrun]
    exact if_congr t.locked_iff rfl rfl
  · rw [Thread.halt, if_pos hrun, if_neg hrun]

end Sys2Proof.Machine
end

