-- ==== Sys2Proof/Proofs/QueueDiscard.lean ====
section
/-!
SUPPORT. A write of QCTL (R145, R171, R173): the entries that the discard action takes from the queues it names, and that besides only
writes held by memories differ.
-/
namespace Sys2Proof.Machine

/-- A core from one of whose stopped queues entries have been discarded (R145, R171). -/
def Core.discarded (all : Bool) (k : Core) (q : Nat) : Core :=
  match (k.queue q).stop, (k.queue q).byMove with
  | some e, _ => k.setQueue q { k.queue q with
      entries := (k.queue q).entries.filter fun i => if all then decide (i.seq < e.seq) else decide (i.seq ≠ e.seq) }
  | none, some e => { k with
      vq := { k.vq with entries := k.vq.entries.filter fun i => decide (i.seq ≠ e.seq) }
      mq := if all then { k.mq with entries := k.mq.entries.filter fun i => decide (i.seq ≤ e.seq) } else k.mq }
  | none, none => k

/-- Nothing differs but core `c` and the halls. -/
def State.coreAndHalls (s t : State) (c : CoreId) : Prop := s.sameOutside { t with halls := s.halls } c

theorem State.coreAndHalls_refl (s : State) (c : CoreId) : s.coreAndHalls s c := ⟨rfl, fun _ _ => rfl⟩

theorem State.coreAndHalls_trans {s t u : State} {c : CoreId} (h : s.coreAndHalls t c) (k : t.coreAndHalls u c) : s.coreAndHalls u c :=
  ⟨(congrArg (fun r : State => { r with halls := s.halls }) k.1).trans h.1, fun d hd => (k.2 d hd).trans (h.2 d hd)⟩

theorem State.coreAndHalls_setCore (s : State) (c : CoreId) (k : Core) : s.coreAndHalls (s.setCore c k) c :=
  ⟨rfl, fun d hd => (s.core_setCore c d k).trans (if_neg hd)⟩

theorem State.unawait_eq (s : State) (c : CoreId) (obs seq : Nat) : ∃ m, s.unawait c obs seq = { s with halls := m } := by
  unfold State.unawait
  generalize List.finRange 8 = l
  induction l generalizing s with
  | nil => exact ⟨_, rfl⟩
  | cons h l ih =>
    obtain ⟨m, hm⟩ := ih (s.modHall h _)
    exact ⟨m, hm⟩

theorem State.core_unawait (s : State) (c d : CoreId) (obs seq : Nat) : (s.unawait c obs seq).core d = s.core d := by
  obtain ⟨m, hm⟩ := s.unawait_eq c obs seq
  rw [hm]
  rfl

theorem State.coreAndHalls_unawait {s t : State} {c : CoreId} (h : s.coreAndHalls t c) (obs seq : Nat) :
    s.coreAndHalls (t.unawait c obs seq) c := by
  obtain ⟨m, hm⟩ := t.unawait_eq c obs seq
  rw [hm]
  exact h

theorem State.coreAndHalls_discard (s : State) (c : CoreId) (q : Nat) (all : Bool) : s.coreAndHalls (s.discard c q all) c := by
  unfold State.discard
  dsimp only
  split
  · exact State.coreAndHalls_unawait (s.coreAndHalls_setCore c _) _ _
  · exact s.coreAndHalls_setCore c _
  · exact s.coreAndHalls_refl c

/-- The entries kept: those before the stopped one, or with one discarded all others. -/
theorem discard_kept (all : Bool) (i e : Nat) :
    (!(i == e || (all && decide (e < i)))) = (if all then decide (i < e) else decide (i ≠ e)) := by
  rw [Bool.eq_iff_iff]
  cases all
  · simp
  · simp
    omega

theorem State.core_discard (s : State) (c : CoreId) (q : Nat) (all : Bool) :
    (s.discard c q all).core c = (s.core c).discarded all q := by
  unfold State.discard Core.discarded
  dsimp only
  cases hstop : ((s.core c).queue q).stop with
  | some e =>
    simp only [State.core_unawait, State.core_setCore_self, Core.removeQ, discard_kept, hstop]
  | none =>
    cases hmove : ((s.core c).queue q).byMove with
    | none => rfl
    | some e =>
      have hvq : ((s.core c).removeQ 1 fun i => i.seq == e.seq) = { s.core c with
          vq := { (s.core c).vq with entries := (s.core c).vq.entries.filter fun i => decide (i.seq ≠ e.seq) } } := by
        have hkept (i : Nat) : (!(i == e.seq)) = decide (i ≠ e.seq) := by rw [Bool.eq_iff_iff]; simp
        simp only [Core.removeQ, hkept]
        rfl
      have hmq (k : Core) : (k.removeQ 0 fun i => decide (e.seq < i.seq)) =
          { k with mq := { k.mq with entries := k.mq.entries.filter fun i => decide (i.seq ≤ e.seq) } } := by
        have hkept (i : Nat) : (!decide (e.seq < i)) = decide (i ≤ e.seq) := by rw [Bool.eq_iff_iff]; simp
        simp only [Core.removeQ, hkept]
        rfl
      simp only [State.core_setCore_self, hvq, hmq]
      cases all <;> rfl

/-- A write of QCTL: the discard action on each queue named, in order (R171, R173). -/
theorem State.core_writeCoreQctl (s : State) (c : CoreId) (v : Word) :
    (s.writeCoreQctl c v).core c = ([0, 1, 2].filter fun q => v.getLsbD q).foldl (Core.discarded (v.getLsbD 8)) (s.core c) := by
  rw [List.foldl_filter, State.writeCoreQctl]
  refine (List.foldl_hom (fun t : State => t.core c) fun t q => ?_).symm
  rw [wbit_eq_getLsbD, wbit_eq_getLsbD]
  split
  · exact (t.core_discard c q _).symm
  · rfl

theorem State.coreAndHalls_writeCoreQctl (s : State) (c : CoreId) (v : Word) : s.coreAndHalls (s.writeCoreQctl c v) c := by
  unfold State.writeCoreQctl
  generalize [0, 1, 2] = l
  induction l generalizing s with
  | nil => exact s.coreAndHalls_refl c
  | cons q l ih =>
    refine State.coreAndHalls_trans ?_ (ih _)
    dsimp only
    split
    · exact s.coreAndHalls_discard c q _
    · exact s.coreAndHalls_refl c

end Sys2Proof.Machine
end

