-- ==== Sys2Proof/Proofs/ChannelAbort.lean ====
section
/-!
SUPPORT. A write of LCHABORT (R299): the open messages that it takes from the halted threads it names, and the access error for a thread
named that is not halted.
-/
namespace Sys2Proof.Machine

/-! ### The abort of one message -/

/-- A thread whose open message has been aborted (R299). -/
def Thread.aborted (t : Thread) : Thread := { t with openCh := none, staging := [] }

/-- A send channel to which aborts have returned `n` slots (R299). -/
def SendChan.freed (k : SendChan) (n : Nat) : SendChan := { k with openBy := if n = 0 then k.openBy else none, avail := k.avail + n }

/-- A core without its threads and its send channels. -/
abbrev Core.noThreadsChans (k : Core) : Core := { k with threads := [], chan := [] }

theorem SendChan.freed_zero (k : SendChan) : k.freed 0 = k := rfl

theorem SendChan.freed_freed (k : SendChan) (m n : Nat) : (k.freed m).freed n = k.freed (m + n) := by
  unfold SendChan.freed
  by_cases hm : m = 0 <;> by_cases hn : n = 0 <;> simp [hm, hn, Nat.add_assoc]

theorem Core.chanOf_setChan (k : Core) (i ch : Nat) (v : SendChan) : (k.setChan i v).chanOf ch = if ch = i then v else k.chanOf ch :=
  SMap.get_set k.chan i ch SendChan.zero v

/-- A core without the channel of a message that is aborted. -/
def Core.closed (k : Core) (o : Option (Fin 32)) : Core :=
  match o with
  | some i => k.setChan i.val ((k.chanOf i.val).freed 1)
  | none => k

theorem Core.chanOf_closed (k : Core) (o : Option (Fin 32)) (ch : Nat) :
    (k.closed o).chanOf ch = (k.chanOf ch).freed (if o.map (·.val) = some ch then 1 else 0) := by
  cases o with
  | none => rfl
  | some i =>
    rw [Core.closed, Core.chanOf_setChan]
    by_cases h : ch = i.val
    · subst h
      simp
    · have hi : ¬(Option.map (·.val) (some i) = some ch) := fun he => h (Option.some.inj he).symm
      rw [if_neg h, if_neg hi, SendChan.freed_zero]

/-- The channel of the open message of a thread closed, the thread itself not yet changed (R299). -/
def State.closeOpen (s : State) (x : Site) : State :=
  match (s.thread x).openCh with
  | some _ => s.setCore x.core ((s.core x.core).closed (s.thread x).openCh)
  | none => s

theorem State.abortMsg_eq (s : State) (x : Site) : s.abortMsg x = (s.closeOpen x).modThread x Thread.aborted := by
  unfold State.abortMsg State.closeOpen
  cases hopen : (s.thread x).openCh <;> rfl

theorem State.sameOutside_closeOpen (s : State) (x : Site) : s.sameOutside (s.closeOpen x) x.core := by
  unfold State.closeOpen
  split
  · exact ⟨rfl, fun d hd => (s.core_setCore x.core d _).trans (if_neg hd)⟩
  · exact ⟨rfl, fun _ _ => rfl⟩

theorem State.core_closeOpen (s : State) (x : Site) : (s.closeOpen x).core x.core = (s.core x.core).closed (s.thread x).openCh := by
  unfold State.closeOpen
  cases hopen : (s.thread x).openCh with
  | none => rfl
  | some i => exact s.core_setCore_self x.core _

theorem Core.noThreadsChans_closed (k : Core) (o : Option (Fin 32)) : (k.closed o).noThreadsChans = k.noThreadsChans := by
  cases o <;> rfl

theorem Core.threads_closed (k : Core) (o : Option (Fin 32)) : (k.closed o).threads = k.threads := by cases o <;> rfl

theorem State.thread_closeOpen (s : State) (x : Site) (n : Fin 4) : (s.closeOpen x).thread ⟨x.core, n⟩ = s.thread ⟨x.core, n⟩ := by
  have hk := congrArg Core.threads (s.core_closeOpen x)
  rw [Core.threads_closed] at hk
  simp only [State.thread, Core.thread, hk]

theorem State.live_abortMsg (s : State) (x : Site) : (s.abortMsg x).live = s.live := by
  rw [State.abortMsg_eq]
  unfold State.closeOpen
  split <;> rfl

theorem State.core_modThread_parts (s : State) (x : Site) (f : Thread → Thread) :
    ((s.modThread x f).core x.core).noThreadsChans = (s.core x.core).noThreadsChans ∧
      ((s.modThread x f).core x.core).chan = (s.core x.core).chan := by
  simp only [State.modThread, State.setThread, State.core_modCore_self]
  exact ⟨rfl, rfl⟩

/-- The channel abort on a thread changes its channel and its open message only (R299). -/
theorem State.onlyCore_abortMsg (s : State) (x : Site) : s.onlyCore x.core Core.noThreadsChans (s.abortMsg x) := by
  rw [State.abortMsg_eq]
  refine ⟨State.sameOutside_trans (s.sameOutside_closeOpen x) (State.sameOutside_modCore _ _ _), ?_⟩
  rw [(State.core_modThread_parts _ x _).1, State.core_closeOpen, Core.noThreadsChans_closed]

theorem State.chanOf_abortMsg (s : State) (x : Site) (ch : Nat) : ((s.abortMsg x).core x.core).chanOf ch =
    ((s.core x.core).chanOf ch).freed (if (s.thread x).openCh.map (·.val) = some ch then 1 else 0) := by
  rw [State.abortMsg_eq, Core.chanOf, (State.core_modThread_parts _ x _).2, State.core_closeOpen]
  exact Core.chanOf_closed _ _ ch

theorem State.thread_abortMsg (s : State) (c : CoreId) (m n : Fin 4) : (s.abortMsg ⟨c, m⟩).thread ⟨c, n⟩ =
    if n = m then (s.thread ⟨c, n⟩).aborted else s.thread ⟨c, n⟩ := by
  rw [State.abortMsg_eq]
  split
  next h =>
    subst h
    rw [State.thread_modThread_self]
    exact congrArg Thread.aborted (s.thread_closeOpen ⟨c, n⟩ n)
  next h =>
    rw [State.thread_modThread_ne _ _ fun he => h (congrArg Site.thread he)]
    exact s.thread_closeOpen ⟨c, m⟩ n

/-! ### A write of LCHABORT -/

/-- Whether the abort takes place on a thread: named, and halted (R299). -/
def State.abortsAt (s : State) (c : CoreId) (v : Word) (n : Fin 4) : Bool :=
  v.getLsbD n.val && decide ((s.thread ⟨c, n⟩).run = .halted)

/-- Whether the abort on a thread frees a channel. -/
def State.freesChan (s : State) (c : CoreId) (v : Word) (ch : Nat) (n : Fin 4) : Bool :=
  s.abortsAt c v n && decide ((s.thread ⟨c, n⟩).openCh.map (·.val) = some ch)

/-- A thread after the abort on the threads listed. -/
def State.afterAbort (s : State) (c : CoreId) (v : Word) (l : List (Fin 4)) (n : Fin 4) : Thread :=
  if n ∈ l ∧ s.abortsAt c v n = true then (s.thread ⟨c, n⟩).aborted else s.thread ⟨c, n⟩

/-- A thread but for its pending interrupts. -/
abbrev Thread.noPending (t : Thread) : Thread := { t with intpend := 0 }

/-- A thread is named on which the abort does not take place. -/
abbrev State.abortFails (s : State) (c : CoreId) (v : Word) (l : List (Fin 4)) : Prop :=
  ∃ n ∈ l, v.getLsbD n.val = true ∧ s.abortsAt c v n = false

/-- What the abort on the threads listed does (R40, R299). -/
structure State.Aborts (s t : State) (a : Agent) (c : CoreId) (v : Word) (l : List (Fin 4)) : Prop where
  chan : ∀ ch, (t.core c).chanOf ch = ((s.core c).chanOf ch).freed (l.countP (s.freesChan c v ch))
  threads : ∀ n, (t.thread ⟨c, n⟩).noPending = (s.afterAbort c v l n).noPending
  only : ¬s.abortFails c v l → s.onlyCore c Core.noThreadsChans t ∧ ∀ n, t.thread ⟨c, n⟩ = s.afterAbort c v l n
  away : s.abortFails c v l → s.turnsAway t a (corePage c 3 * 4096 + 0x810) true
  words : ¬s.abortFails c v l → t.live = s.live
  keeps : ∀ q, errPage q → s.keepsHeld t q

theorem State.onlyCore_refl (s : State) (c : CoreId) (p : Core → Core) : s.onlyCore c p s := ⟨⟨rfl, fun _ _ => rfl⟩, rfl⟩

theorem State.onlyCore_trans {s t u : State} {c : CoreId} {p : Core → Core} (h : s.onlyCore c p t) (k : t.onlyCore c p u) :
    s.onlyCore c p u := ⟨State.sameOutside_trans h.1 k.1, k.2.trans h.2⟩

/-- No thread named: nothing happens. -/
theorem State.Aborts.refl (s : State) (a : Agent) (c : CoreId) (v : Word) {l : List (Fin 4)} (h : ∀ n ∈ l, v.getLsbD n.val = false) :
    s.Aborts s a c v l := by
  have hat (n : Fin 4) (hn : n ∈ l) : s.abortsAt c v n = false := by simp [State.abortsAt, h n hn]
  have hfail : ¬s.abortFails c v l := fun ⟨n, hn, hv, _⟩ => by simp [h n hn] at hv
  have hafter (n : Fin 4) : s.afterAbort c v l n = s.thread ⟨c, n⟩ := if_neg fun ⟨hn, hb⟩ => by simp [hat n hn] at hb
  have hcount (ch : Nat) : l.countP (s.freesChan c v ch) = 0 := List.countP_eq_zero.mpr fun n hn => by simp [State.freesChan, hat n hn]
  exact ⟨fun ch => by rw [hcount ch, SendChan.freed_zero], fun n => by rw [hafter],
    fun _ => ⟨s.onlyCore_refl c _, fun n => (hafter n).symm⟩,
    fun hf => absurd hf hfail, fun _ => rfl, fun q _ => State.keepsHeld_of_words fun _ _ _ => rfl⟩

/-- A thread named that is halted: its open message is aborted. -/
theorem State.Aborts.abortMsg (s : State) (a : Agent) {c : CoreId} {v : Word} {n : Fin 4} (h : s.abortsAt c v n = true) :
    s.Aborts (s.abortMsg ⟨c, n⟩) a c v [n] := by
  have hfail : ¬s.abortFails c v [n] := by
    rintro ⟨m, hm, -, hb⟩
    rw [List.mem_singleton.mp hm, h] at hb
    exact Bool.noConfusion hb
  have hafter (m : Fin 4) : (s.abortMsg ⟨c, n⟩).thread ⟨c, m⟩ = s.afterAbort c v [n] m := by
    rw [State.thread_abortMsg, State.afterAbort]
    refine if_congr ⟨fun hm => ⟨List.mem_singleton.mpr hm, hm ▸ h⟩, fun hm => List.mem_singleton.mp hm.1⟩ rfl rfl
  refine ⟨fun ch => ?_, fun m => by rw [hafter], fun _ => ⟨s.onlyCore_abortMsg ⟨c, n⟩, hafter⟩, fun hf => absurd hf hfail,
    fun _ => s.live_abortMsg _, fun q _ => State.keepsHeld_of_words fun o _ _ => by rw [State.liveWord, State.liveWord, s.live_abortMsg]⟩
  rw [s.chanOf_abortMsg ⟨c, n⟩ ch, List.countP_singleton]
  simp only [State.freesChan, h, Bool.true_and, decide_eq_true_eq]

/-- A thread named that is not halted: an access error (R299). -/
theorem State.Aborts.ctlError (s : State) (a : Agent) {c : CoreId} {v : Word} {n : Fin 4} (hv : v.getLsbD n.val = true)
    (h : s.abortsAt c v n = false) : s.Aborts (s.ctlError a (corePage c 3 * 4096 + 0x810) true) a c v [n] := by
  have hfail : s.abortFails c v [n] := ⟨n, List.mem_singleton.mpr rfl, hv, h⟩
  have hturn := s.turned_ctlError a (corePage c 3 * 4096 + 0x810) true
  refine ⟨fun ch => ?_, fun m => ?_, fun hf => absurd hfail hf, fun _ => s.turnsAway_ctlError a (by unfold corePage; omega) true,
    fun hf => absurd hfail hf, hturn.keeps⟩
  · have hchan := congrArg Core.chan (hturn.cores c).1
    rw [List.countP_singleton, State.freesChan, h, Core.chanOf, hchan]
    rfl
  · have hafter : s.afterAbort c v [n] m = s.thread ⟨c, m⟩ := if_neg fun ⟨hm, hb⟩ => by
      rw [List.mem_singleton.mp hm, h] at hb
      exact Bool.noConfusion hb
    rw [hafter, (hturn.cores c).2 m]

/-- One thread of a write of LCHABORT. -/
theorem State.Aborts.one (s : State) (a : Agent) (c : CoreId) (v : Word) (n : Fin 4) :
    s.Aborts (if !wbit v n.val then s else if (s.thread ⟨c, n⟩).run = .halted then s.abortMsg ⟨c, n⟩
      else s.ctlError a (corePage c 3 * 4096 + 0x810) true) a c v [n] := by
  rw [wbit_eq_getLsbD]
  cases hv : v.getLsbD n.val with
  | false => exact .refl s a c v fun m hm => List.mem_singleton.mp hm ▸ hv
  | true =>
    by_cases hrun : (s.thread ⟨c, n⟩).run = .halted
    · simpa [hrun] using State.Aborts.abortMsg s a (v := v) (n := n) (by simp [State.abortsAt, hv, hrun])
    · simpa [hrun] using State.Aborts.ctlError s a hv (by simp [State.abortsAt, hrun])

section Trans
variable {s t u : State} {a : Agent} {c : CoreId} {v : Word} {n : Fin 4} {l : List (Fin 4)} (h : s.Aborts t a c v [n])
include h

/-- The abort on another thread leaves a thread as it was, but for its pending interrupts. -/
theorem State.Aborts.other {m : Fin 4} (hm : m ≠ n) : (t.thread ⟨c, m⟩).noPending = (s.thread ⟨c, m⟩).noPending := by
  rw [h.threads m, State.afterAbort, if_neg fun hb => hm (List.mem_singleton.mp hb.1)]

theorem State.Aborts.abortsAt_other {m : Fin 4} (hm : m ≠ n) : t.abortsAt c v m = s.abortsAt c v m := by
  have hrun := congrArg Thread.run (h.other hm)
  unfold State.abortsAt
  rw [show (t.thread ⟨c, m⟩).run = (s.thread ⟨c, m⟩).run from hrun]

theorem State.Aborts.freesChan_other {m : Fin 4} (hm : m ≠ n) (ch : Nat) : t.freesChan c v ch m = s.freesChan c v ch m := by
  have hopen := congrArg Thread.openCh (h.other hm)
  unfold State.freesChan
  rw [h.abortsAt_other hm, show (t.thread ⟨c, m⟩).openCh = (s.thread ⟨c, m⟩).openCh from hopen]

theorem State.Aborts.abortFails_iff (hn : n ∉ l) : s.abortFails c v (n :: l) ↔ s.abortFails c v [n] ∨ t.abortFails c v l := by
  have hl : t.abortFails c v l ↔ s.abortFails c v l := by
    refine exists_congr fun m => and_congr_right fun hm => ?_
    rw [h.abortsAt_other fun he => hn (he ▸ hm)]
  rw [hl]
  simp only [State.abortFails, List.exists_mem_cons_iff, List.not_mem_nil, false_and, exists_false, or_false]

/-- The thread listed first, after the others. -/
theorem State.Aborts.afterAbort_cons (hn : n ∉ l) (m : Fin 4) : s.afterAbort c v (n :: l) m =
    if m = n then s.afterAbort c v [n] m else s.afterAbort c v l m := by
  by_cases hm : m = n
  · subst hm
    simp [State.afterAbort]
  · simp [State.afterAbort, hm]

theorem State.Aborts.cons (k : t.Aborts u a c v l) (hn : n ∉ l) : s.Aborts u a c v (n :: l) := by
  have hcount (ch : Nat) : l.countP (t.freesChan c v ch) = l.countP (s.freesChan c v ch) :=
    List.countP_congr fun m hm => by rw [h.freesChan_other fun he => hn (he ▸ hm)]
  have hfails := h.abortFails_iff hn
  have hafter (m : Fin 4) (f : Thread → Thread) (hf : f (t.thread ⟨c, m⟩) = f (s.afterAbort c v [n] m))
      (hab : ∀ g : Thread, f (g.aborted) = (f g).aborted) : f (t.afterAbort c v l m) = f (s.afterAbort c v (n :: l) m) := by
    rw [h.afterAbort_cons hn]
    by_cases hm : m = n
    · subst hm
      rw [if_pos rfl, State.afterAbort, if_neg fun hb => hn hb.1, hf]
    · rw [State.afterAbort, if_neg fun hb => hm (List.mem_singleton.mp hb.1)] at hf
      rw [if_neg hm, State.afterAbort, State.afterAbort, h.abortsAt_other hm]
      split
      · rw [hab, hab, hf]
      · exact hf
  refine ⟨fun ch => ?_, fun m => ?_, fun hf => ?_, fun hf => ?_, fun hf => ?_,
    fun q hq => State.keepsHeld_trans (h.keeps q hq) (k.keeps q hq)⟩
  · rw [k.chan, h.chan, SendChan.freed_freed, hcount, ← List.countP_append, List.singleton_append]
  · rw [k.threads]
    exact hafter m Thread.noPending (h.threads m) fun _ => rfl
  · rw [hfails, not_or] at hf
    exact ⟨State.onlyCore_trans (h.only hf.1).1 (k.only hf.2).1, fun m =>
      ((k.only hf.2).2 m).trans (hafter m id ((h.only hf.1).2 m) fun _ => rfl)⟩
  · by_cases hone : s.abortFails c v [n]
    · exact State.turnsAway_of_turned (h.away hone) k.keeps
    · exact State.turnsAway_of_live (h.words hone) (k.away ((hfails.mp hf).resolve_left hone))
  · rw [hfails, not_or] at hf
    rw [k.words hf.2, h.words hf.1]

end Trans

theorem State.Aborts.foldl (a : Agent) (c : CoreId) (v : Word) (l : List (Fin 4)) (hl : l.Nodup) (s : State) :
    s.Aborts (l.foldl (fun s n => if !wbit v n.val then s else if (s.thread ⟨c, n⟩).run = .halted then s.abortMsg ⟨c, n⟩
      else s.ctlError a (corePage c 3 * 4096 + 0x810) true) s) a c v l := by
  induction l generalizing s with
  | nil => exact .refl s a c v fun n hn => absurd hn (List.not_mem_nil)
  | cons n l ih =>
    obtain ⟨hn, hl⟩ := List.nodup_cons.mp hl
    exact (State.Aborts.one s a c v n).cons (ih hl _) hn

/-- A write of LCHABORT (R299). -/
theorem State.aborts_writeLchabort (s : State) (a : Agent) (c : CoreId) (v : Word) :
    s.Aborts (s.writeLchabort a c v) a c v (List.finRange 4) := State.Aborts.foldl a c v _ (List.nodup_finRange 4) s

end Sys2Proof.Machine
end

