-- ==== Sys2Proof/Proofs/DebugRegisters.lean ====
section
/-!
The lantern, and the registers that act directly (O41): each command writes a live register that its agent reaches, and what it leads to
is what the write of that register does.
-/
namespace Sys2Proof.Machine

variable {s : State} {a : Agent} {v : Word} (hr : s.running = true)
include hr

/-! ### The lantern -/

/-- A command of the lantern that changes its thread by `f` (R298). -/
theorem State.leads_lantern {x : Site} (hreach : s.reach a (corePage x.core 3) (0x800 + 4 * x.thread.val) = .all) (f : Thread → Thread)
    (hw : s.writeLhalt x v = s.modThread x f) {g : Thread} (hg : f (s.thread x) = g) :
    Leads (s.writes a (corePage x.core 3) (lhaltOff x.thread) v) fun t => s.onlyThread t x ∧ t.thread x = g :=
  State.leads_lhalt hr hreach (hw ▸ hg ▸ s.becomes_modThread x f)

/-! ### Accesses turned away -/

/-- A table register refuses a ring above its own (R215). -/
theorem State.leads_table_away {c : CoreId} {r : TableReg} (hreach : s.reach a (corePage c 0) (tableOff r) = .all)
    (h : ¬s.writerRing a ≤ tableRing r) : Leads (exec (.tableRegisterWrite a c r v) s) fun t =>
      s.turnsAway t a (corePage c 0 * 4096 + tableOff r) true ∧
        t.liveWord (corePage c 0) (tableOff r) = s.liveWord (corePage c 0) (tableOff r) := by
  obtain ⟨ho, ao, he⟩ := tableOff_bounds r
  refine State.leads_tableRegisterWrite hr hreach ?_
  rw [State.writeTable_of_lt (Nat.not_le.mp h)]
  exact s.away_ctlError a (by unfold corePage; omega) ho ao (.inr (by unfold corePage; omega)) he

/-- A table register written from a ring that it admits, and refused to the others (R215). -/
theorem State.leads_table {c : CoreId} {r : TableReg} (hreach : s.reach a (corePage c 0) (tableOff r) = .all) {P : State → Prop} {n : Nat}
    (hn : tableRing r = n) (hP : s.writerRing a ≤ n → P (s.writeTable a c r v)) :
    if s.writerRing a ≤ n then Leads (exec (.tableRegisterWrite a c r v) s) P
    else Leads (exec (.tableRegisterWrite a c r v) s) fun t => s.turnsAway t a (corePage c 0 * 4096 + tableOff r) true ∧
      t.liveWord (corePage c 0) (tableOff r) = s.liveWord (corePage c 0) (tableOff r) := by
  split
  next h => exact State.leads_tableRegisterWrite hr hreach (hP h)
  next h => exact State.leads_table_away hr hreach (hn ▸ h)

/-- A drip counter, written while the hall is stopped and refused otherwise (R74). -/
theorem State.leads_drip {u : DripUnit} (hreach : s.reach a (dripPlace u).1 (dripPlace u).2.1 = .all) :
    (s.stopped (dripPlace u).2.2 = true → Leads (exec (.dripWrite a u v) s) fun t =>
      s.liveOnly t ∧ s.puts t [(((dripPlace u).1, (dripPlace u).2.1), v)]) ∧
    (s.stopped (dripPlace u).2.2 = false → Leads (exec (.dripWrite a u v) s) fun t =>
      s.turnsAway t a ((dripPlace u).1 * 4096 + (dripPlace u).2.1) true ∧
        t.liveWord (dripPlace u).1 (dripPlace u).2.1 = s.liveWord (dripPlace u).1 (dripPlace u).2.1) := by
  obtain ⟨hp, hf, ho, ao, he⟩ := dripPlace_bounds u
  refine ⟨fun hs => State.leads_dripWrite hr hreach ?_, fun hs => State.leads_dripWrite hr hreach ?_⟩
  · rw [State.writeDrip_eq, State.whileStopped_of_stopped hs]
    exact s.wrote_setLive _ v ⟨ho, ao⟩
  · rw [State.writeDrip_eq, State.whileStopped_of_not_stopped hs]
    exact s.away_ctlError a hp ho ao hf he

end Sys2Proof.Machine

open Sys2Proof Sys2Proof.Machine

/-- Settles O41: the lantern by the thread that LHALTn changes, LCHABORT by induction over the threads it may name, QCTL by induction over
the queues; the direct-action registers by the words that their write sets, or by the access error that is recorded in its stead. -/
theorem debugAndDirectRegisters : Obligations.DebugAndDirectRegisters := by
  unfold Obligations.DebugAndDirectRegisters
  refine ⟨fun s a hr => ⟨?lantern, ?abort, ?qctl⟩, fun s a v hr => ⟨?drip, ?round, ?salt, ?tally, ?table⟩⟩
  case lantern =>
    intro x hreach
    exact ⟨State.leads_lantern hr hreach Thread.halt rfl (Thread.halt_eq _), State.leads_lantern hr hreach Thread.deliver rfl rfl,
      State.leads_lantern hr hreach Thread.resume rfl rfl⟩
  case abort =>
    intro c v hreach
    have h := s.aborts_writeLchabort a c v
    have hafter (n : Fin 4) : s.afterAbort c v (List.finRange 4) n =
        if s.abortsAt c v n = true then (s.thread ⟨c, n⟩).aborted else s.thread ⟨c, n⟩ :=
      if_congr (and_iff_right (List.mem_finRange n)) rfl rfl
    have hfails : s.abortFails c v (List.finRange 4) ↔ ∃ n : Fin 4, v.getLsbD n.val = true ∧ s.abortsAt c v n = false :=
      exists_congr fun n => and_iff_right (List.mem_finRange n)
    refine State.leads_channelAbort hr hreach ⟨h.chan, fun hall => ?_, fun hex => ⟨h.away (hfails.mpr hex), fun n => ?_⟩⟩
    · obtain ⟨honly, hthreads⟩ := h.only fun hf => by
        obtain ⟨n, hv, hn⟩ := hfails.mp hf
        exact Bool.noConfusion ((hall n hv).symm.trans hn)
      exact ⟨honly, fun n => (hthreads n).trans (hafter n)⟩
    · exact (h.threads n).trans (congrArg Thread.noPending (hafter n))
  case qctl =>
    intro c v hreach
    exact State.leads_qctlDiscard hr hreach ⟨s.coreAndHalls_writeCoreQctl c v, s.core_writeCoreQctl c v⟩
  case drip =>
    rintro u p o h hu hreach
    have hdrip := State.leads_drip (u := u) (v := v) hr (by rwa [hu])
    rwa [hu] at hdrip
  case round =>
    intro c u hreach
    refine ⟨fun hs => State.leads_sumpRoundWrite hr hreach ?_, fun hs => State.leads_sumpRoundWrite hr hreach ?_⟩
    · rw [State.writeRound, State.whileStopped_of_stopped hs]
      refine ⟨s.onlyCore_setSump c _ _, fun n => ?_⟩
      rw [State.core_modCore_self, Core.sumpOf_setSump]
      split
      next hn => rw [hn]
      next => rfl
    · rw [State.writeRound, State.whileStopped_of_not_stopped hs, chanPage, ← Nat.add_assoc]
      exact ⟨State.sump_sameCores (s.turned_ctlError a _ true).cores c, s.turnsAway_ctlError a (by unfold corePage; omega) true⟩
  case salt =>
    intro h host hreach hhost
    have haway : s.turnsAway (s.ctlError a (hallPage h 0 * 4096 + 0x8A0) true) a (hallPage h 0 * 4096 + 0x8A0) true ∧
        (s.ctlError a (hallPage h 0 * 4096 + 0x8A0) true).liveWord (hallPage h 0) 0x8A0 = s.liveWord (hallPage h 0) 0x8A0 :=
      s.away_ctlError a (by unfold hallPage; omega) (by decide) (by decide) (.inr (by unfold hallPage; omega)) (by decide)
    have hsalt : s.writeSalt a h v = if host && s.hallMode h != 0 then s.ctlError a (hallPage h 0 * 4096 + 0x8A0) true
        else s.whileStopped a h (hallPage h 0) 0x8A0 fun s => s.setLive (hallPage h 0) 0x8A0 (w32 (fieldOf v 0 16)) := by
      rw [hhost]
      rfl
    refine ⟨fun hs hm => State.leads_saltWrite hr hreach ?_, fun hs => State.leads_saltWrite hr hreach ?_⟩
    · have hmode : (host && s.hallMode h != 0) = false := by
        cases host
        · rfl
        · simp [hm rfl]
      have hword : fieldOf v 0 16 = v.toNat % 2 ^ 16 := by simp [fieldOf, bitsOf]
      rw [hsalt, hmode, State.whileStopped_of_stopped hs, hword]
      exact s.wrote_setLive _ _ (by decide)
    · rw [hsalt]
      split
      next => exact haway
      next hb =>
        rw [State.whileStopped_of_not_stopped (hs.resolve_right fun hm => hb (by simp [hm.1, hm.2]))]
        exact haway
  case tally =>
    rintro u p b hu hreach
    have hp : (tallyBase u).1 = p := by rw [hu]
    have hb : (tallyBase u).2 = b := by rw [hu]
    refine State.leads_tallyClr hr (by rwa [hp, hb]) ⟨s.liveOnly_writeTallyClr u v, fun q o ho ao => ?_⟩
    rw [State.liveWord_writeTallyClr s u v q hb ho ao, hp]
  case table =>
    rintro c r ring hring hreach
    have hw : ring = s.writerRing a := by
      rw [hring]
      cases a <;> rfl
    subst hw
    have hoff := tableOff_bounds r
    cases r with
    | vbase n =>
      exact State.leads_table hr hreach rfl fun h => by
        rw [State.writeTable_vbase h]
        exact s.wrote_setLive _ _ ⟨hoff.1, hoff.2.1⟩
    | gtbl =>
      exact State.leads_table hr hreach rfl fun h => by
        rw [State.writeTable_gtbl h]
        exact s.wrote_setLive _ _ ⟨hoff.1, hoff.2.1⟩
    | emstack =>
      exact State.leads_table hr hreach rfl fun h => by
        rw [State.writeTable_emstack h]
        exact s.wrote_setLive _ _ ⟨hoff.1, hoff.2.1⟩
    | inten n =>
      exact State.leads_table hr hreach rfl fun h => by
        rw [State.writeTable_inten h]
        exact s.becomes_modThread ⟨c, n⟩ _
end

