-- ==== Sys2Proof/Proofs/Sound.lean ====
section
/-!
SUPPORT. A state is sound for a queue when the invariant holds of it and its queue is that one. The lemmas of the namespace `State.Sound` say,
operation by operation, that a sound state stays sound; a result that carries a state is sound when that state is.
-/
namespace Sys2Proof.Machine

/-- The invariant holds of a state, and the commands `l` wait in it. -/
def State.Sound (l : List Instr) (s : State) : Prop := s.inv ∧ s.pending = l

/-- If there is a state, it is sound. -/
inductive SoundOpt (l : List Instr) : Option State → Prop
  | none : SoundOpt l none
  | some {s : State} (h : s.Sound l) : SoundOpt l (some s)

/-- A state that an instruction leaves is sound. -/
inductive Res.Sound (l : List Instr) : Res → Prop
  | done {s : State} (h : s.Sound l) : Res.Sound l (.done s)
  | jump {s : State} {pc} (h : s.Sound l) : Res.Sound l (.jump s pc)
  | entered {s : State} (h : s.Sound l) : Res.Sound l (.entered s)
  | wait {w} : Res.Sound l (.wait w)
  | held : Res.Sound l .held
  | fault {s : State} {f} (h : s.Sound l) : Res.Sound l (.fault s f)
  | faultNext {s : State} {f w} (h : s.Sound l) : Res.Sound l (.faultNext s f w)
  | raise {s : State} {v} (h : s.Sound l) : Res.Sound l (.raise s v)

/-- The state after a command is sound. -/
inductive Outcome.Sound (l : List Instr) : Outcome → Prop
  | next {s : State} (h : s.Sound l) : Outcome.Sound l (.next s)

/-- A state that a queue entry leaves is sound. -/
inductive QRes.Sound (l : List Instr) : QRes → Prop
  | done {s : State} (h : s.Sound l) : QRes.Sound l (.done s)
  | stall : QRes.Sound l .stall
  | tile {s : State} {f} (h : s.Sound l) : QRes.Sound l (.tile s f)
  | fault {s : State} {v} (h : s.Sound l) : QRes.Sound l (.fault s v)

/-- A state that a unit of an engine leaves is sound. -/
inductive UnitRes.Sound (l : List Instr) : UnitRes → Prop
  | go {s : State} {r} (h : s.Sound l) : UnitRes.Sound l (.go s r)
  | fin {s : State} {r} (h : s.Sound l) : UnitRes.Sound l (.fin s r)
  | stall : UnitRes.Sound l .stall
  | stop {s : State} {r k d} (h : s.Sound l) : UnitRes.Sound l (.stop s r k d)

/-- A state that an engine's read leaves is sound. -/
inductive ERead.Sound (l : List Instr) : ERead → Prop
  | stall : ERead.Sound l .stall
  | poison {s : State} {o} (h : s.Sound l) : ERead.Sound l (.poison s o)
  | ok {s : State} {o} (h : s.Sound l) : ERead.Sound l (.ok s o)

/-- A state that a read of the siphon leaves is sound. -/
inductive SiphonRes.Sound (l : List Instr) {α : Type} : SiphonRes α → Prop
  | ok {s : State} {v} (h : s.Sound l) : SiphonRes.Sound l (.ok s v)
  | stall : SiphonRes.Sound l .stall
  | stop {s : State} {k d} (h : s.Sound l) : SiphonRes.Sound l (.stop s k d)

/-- A state that the read of a piece leaves is sound. -/
inductive PieceSrc.Sound (l : List Instr) : PieceSrc → Prop
  | wait : PieceSrc.Sound l .wait
  | poison {s : State} {d} (h : s.Sound l) : PieceSrc.Sound l (.poison s d)
  | data {s : State} {d} (h : s.Sound l) : PieceSrc.Sound l (.data s d)

/-- If something has been read, the state after it is sound. -/
inductive SoundRead (l : List Instr) : Option (State × List Byte) → Prop
  | none : SoundRead l none
  | some {s : State} {d : List Byte} (h : s.Sound l) : SoundRead l (some (s, d))

/-! ### What a sound result holds -/

theorem SoundOpt.of_eq {l : List Instr} {t : State} {o : Option State} (h : SoundOpt l o) (e : o = Option.some t) : t.Sound l := by
  subst e
  cases h
  assumption

theorem of_fst {β : Type} {l : List Instr} {t : State} {b : β} {p : State × β} (h : p.1.Sound l) (e : p = (t, b)) : t.Sound l := by
  subst e
  exact h

theorem SoundOpt.getD {l : List Instr} {s : State} {o : Option State} (h : SoundOpt l o) (hs : s.Sound l) : (o.getD s).Sound l := by
  cases h <;> assumption

theorem QRes.Sound.of_done {l : List Instr} {r : QRes} {t : State} (h : r.Sound l) (e : r = .done t) : t.Sound l := by
  subst e
  cases h
  assumption

theorem QRes.Sound.of_tile {l : List Instr} {r : QRes} {t : State} {f} (h : r.Sound l) (e : r = .tile t f) : t.Sound l := by
  subst e
  cases h
  assumption

theorem QRes.Sound.of_fault {l : List Instr} {r : QRes} {t : State} {v} (h : r.Sound l) (e : r = .fault t v) : t.Sound l := by
  subst e
  cases h
  assumption

theorem UnitRes.Sound.of_go {l : List Instr} {r : UnitRes} {t : State} {u} (h : r.Sound l) (e : r = .go t u) : t.Sound l := by
  subst e
  cases h
  assumption

theorem UnitRes.Sound.of_fin {l : List Instr} {r : UnitRes} {t : State} {u} (h : r.Sound l) (e : r = .fin t u) : t.Sound l := by
  subst e
  cases h
  assumption

theorem UnitRes.Sound.of_stop {l : List Instr} {r : UnitRes} {t : State} {u k d} (h : r.Sound l) (e : r = .stop t u k d) : t.Sound l := by
  subst e
  cases h
  assumption

theorem ERead.Sound.of_poison {l : List Instr} {r : ERead} {t : State} {o} (h : r.Sound l) (e : r = .poison t o) : t.Sound l := by
  subst e
  cases h
  assumption

theorem ERead.Sound.of_ok {l : List Instr} {r : ERead} {t : State} {d} (h : r.Sound l) (e : r = .ok t d) : t.Sound l := by
  subst e
  cases h
  assumption

theorem SiphonRes.Sound.of_ok {l : List Instr} {α : Type} {r : SiphonRes α} {t : State} {v} (h : r.Sound l) (e : r = .ok t v) : t.Sound l := by
  subst e
  cases h
  assumption

theorem SiphonRes.Sound.of_stop {l : List Instr} {α : Type} {r : SiphonRes α} {t : State} {k d} (h : r.Sound l)
    (e : r = .stop t k d) : t.Sound l := by
  subst e
  cases h
  assumption

theorem PieceSrc.Sound.of_poison {l : List Instr} {r : PieceSrc} {t : State} {d} (h : r.Sound l) (e : r = .poison t d) : t.Sound l := by
  subst e
  cases h
  assumption

theorem PieceSrc.Sound.of_data {l : List Instr} {r : PieceSrc} {t : State} {d} (h : r.Sound l) (e : r = .data t d) : t.Sound l := by
  subst e
  cases h
  assumption

theorem SoundRead.of_eq {l : List Instr} {o : Option (State × List Byte)} {t : State} {d : List Byte} (h : SoundRead l o)
    (e : o = Option.some (t, d)) : t.Sound l := by
  subst e
  cases h
  assumption

theorem SiphonRes.Sound.bind {l : List Instr} {α β : Type} {r : SiphonRes α} {f : State → α → SiphonRes β} (h : r.Sound l)
    (hf : ∀ t v, t.Sound l → (f t v).Sound l) : (r.bind f).Sound l := by
  cases h with
  | ok h => exact hf _ _ h
  | stall => exact .stall
  | stop h => exact .stop h

/-! ### The state and its tables -/

theorem ite_both {α : Type} {P : α → Prop} {c : Prop} [Decidable c] {a b : α} (ha : P a) (hb : P b) : P (if c then a else b) := by
  split <;> assumption

@[simp] theorem Core.tshape_setQueue (k : Core) (q : Nat) (v : Queue) : (k.setQueue q v).tshape = k.tshape := by
  unfold Core.setQueue
  split <;> rfl

theorem Core.tshape_popQ (k : Core) (q : Nat) : (k.popQ q).tshape = k.tshape := k.tshape_setQueue q _

theorem Core.tshape_removeQ (k : Core) (q : Nat) (p : QEntry → Bool) : (k.removeQ q p).tshape = k.tshape := k.tshape_setQueue q _

@[simp] theorem Core.tshape_markTaken (k : Core) (q : Nat) : (k.markTaken q).tshape = k.tshape := by
  unfold Core.markTaken
  split <;> simp

@[simp] theorem Core.tshape_restartTaken (k : Core) (n : Nat) (t : Fin 4) : (k.restartTaken n t).tshape = k.tshape := by
  have hone (k : Core) (q : Nat) : (if bitOf n q then k.restartQueue q t else k).tshape = k.tshape := by
    split
    · exact k.tshape_setQueue q _
    · rfl
  simp [Core.restartTaken, hone]

theorem Core.tshape_foldl_setSump (k : Core) (us : List Nat) (f : Core → Nat → Sump) :
    (us.foldl (fun k u => k.setSump u (f k u)) k).tshape = k.tshape := by
  induction us generalizing k with
  | nil => rfl
  | cons u us ih => exact ih _

theorem risingFrom_filterMap {α β : Type} {n : Nat} {f : Nat × α → Option (Nat × β)} (hf : ∀ p q, f p = some q → q.1 = p.1) (m : SMap α)
    (h : risingFrom n m = true) : risingFrom n (m.filterMap f) = true := by
  induction m generalizing n with
  | nil => rfl
  | cons p t ih =>
    simp only [risingFrom, Bool.and_eq_true, decide_eq_true_eq] at h
    rw [List.filterMap_cons]
    split
    · exact risingFrom_le _ (ih h.2) (by omega)
    · next q hq =>
      rw [risingFrom, Bool.and_eq_true, decide_eq_true_eq, hf p q hq]
      exact ⟨h.1, ih h.2⟩

theorem Core.tshape_airStep (k : Core) (n : Nat) : (k.airStep n).tshape = k.tshape := by
  unfold Core.airStep
  split
  · rfl
  · split <;> rfl

theorem risingFrom_airHall {lo : Nat} (h : HallId) (n : Nat) (m : SMap Core) (hm : risingFrom lo m = true) :
    risingFrom lo (airHall h n m) = true := by
  unfold airHall
  split
  · exact hm
  · refine risingFrom_filterMap (fun p q hq => ?_) m hm
    split at hq
    · split at hq
      · exact absurd hq nofun
      · exact (Option.some.inj hq) ▸ rfl
    · exact (Option.some.inj hq) ▸ rfl

/-- A core that the bad-air detectors leave in the table stood there with the same tile shapes. -/
theorem mem_airHall {h : HallId} {n : Nat} {m : SMap Core} {p : Nat × Core} (hp : p ∈ airHall h n m) :
    ∃ q ∈ m, p.1 = q.1 ∧ p.2.tshape = q.2.tshape := by
  unfold airHall at hp
  split at hp
  · exact ⟨p, hp, rfl, rfl⟩
  · obtain ⟨q, hq, he⟩ := List.mem_filterMap.1 hp
    refine ⟨q, hq, ?_⟩
    split at he
    · split at he
      · exact absurd he nofun
      · obtain rfl := Option.some.inj he
        exact ⟨rfl, Core.tshape_airStep _ _⟩
    · obtain rfl := Option.some.inj he
      exact ⟨rfl, rfl⟩

theorem risingFrom_copyRange {α : Type} {n : Nat} (src dst : SMap α) (lo hi : Nat) (h : risingFrom n dst = true) (hlo : n ≤ lo) :
    risingFrom n (SMap.copyRange src dst lo hi) = true := by
  have hput (ps : SMap α) (hps : ∀ p ∈ ps, lo ≤ p.1) (m : SMap α) (hm : risingFrom n m = true) :
      risingFrom n (ps.foldl (fun m p => SMap.put m p.1 p.2) m) = true := by
    induction ps generalizing m with
    | nil => exact hm
    | cons p ps ih =>
      exact ih (fun q hq => hps q (.tail _ hq)) _ (risingFrom_put m _ _ hm (hlo.trans (hps p (.head _))))
  refine hput _ ?_ _ (risingFrom_clearRange dst lo hi h)
  induction src with
  | nil => simp [SMap.range]
  | cons p t ih =>
    unfold SMap.range
    split
    · next hp => simpa [hp.1] using ih
    · exact ih

theorem risingFrom_copyAreas (src dst : SMap Word) (ps : List Nat) (h : risingFrom 0 dst = true) :
    risingFrom 0 (copyAreas src dst ps) = true := by
  unfold copyAreas
  induction ps generalizing dst with
  | nil => exact h
  | cons p ps ih => exact ih _ (risingFrom_copyRange src dst _ _ h (Nat.zero_le _))

/-- What the invariant says something of besides memory, and the queue. -/
def State.tables (s : State) : List Instr × SMap Word × SMap Word × SMap Word × SMap Word × SMap Core :=
  (s.pending, s.staged, s.applied, s.snap, s.waiting, s.cores)

theorem State.tables_setFlash (s : State) (a : Nat) (d : List Byte) : (s.setFlash a d).tables = s.tables := by
  induction d generalizing s a with
  | nil => rfl
  | cons b t ih => exact ih _ _

namespace State.Sound
variable {l : List Instr} {s : State}

/-- What the invariant says nothing of may change. -/
theorem other (h : s.Sound l) {fresh nearZero nearGen cxlGen poison live commits errSeq latch halls banks rootTick window cxlLost posted ports mesh
    routing remote pendAcks posts vin tripped refLost scanHold recovery bridgeFail perst vfEnable pf0Flr lastInt ceilAt alertAt col0 cfgBar
    bar2Wait capRun pwrWin slotErased blown keeper privKey secretShut updLog updAt pldmUpd activating spdmReady sessions streams keyBase
    tap boundaryReg out} :
    State.Sound l (State.mk s.pending fresh s.mem s.near nearZero nearGen s.cxl cxlGen poison live s.staged s.applied s.snap s.waiting
      commits errSeq latch s.cores halls banks rootTick window cxlLost posted ports mesh routing remote pendAcks posts vin tripped refLost
      scanHold recovery bridgeFail perst vfEnable pf0Flr lastInt ceilAt alertAt col0 cfgBar bar2Wait capRun pwrWin s.flash slotErased
      blown keeper privKey secretShut updLog updAt pldmUpd activating spdmReady sessions streams keyBase tap boundaryReg out) := h

theorem foldl {α : Type} {f : State → α → State} {m : List α} (h : s.Sound l) (hf : ∀ s a, s.Sound l → (f s a).Sound l) :
    (m.foldl f s).Sound l := by
  induction m generalizing s with
  | nil => exact h
  | cons a t ih => exact ih (hf s a h)

theorem rising_staged (h : s.Sound l) : risingFrom 0 s.staged = true := h.1.2.1

theorem rising_applied (h : s.Sound l) : risingFrom 0 s.applied = true := h.1.2.2.1

theorem rising_snap (h : s.Sound l) : risingFrom 0 s.snap = true := h.1.2.2.2.1

theorem rising_waiting (h : s.Sound l) : risingFrom 0 s.waiting = true := h.1.2.2.2.2.1

theorem rising_cores (h : s.Sound l) : risingFrom 0 s.cores = true := h.1.2.2.2.2.2.1

theorem mem_cores (h : s.Sound l) {p : Nat × Core} (hp : p ∈ s.cores) : p.1 < 1152 ∧ p.2.shapesOk = true := h.1.2.2.2.2.2.2 p hp

theorem shapesOk_core (h : s.Sound l) (c : CoreId) : (s.core c).shapesOk = true :=
  SMap.get_of_all Core.shapesOk s.cores c.val Core.zero (List.all_eq_true.2 fun _ hp => (h.mem_cores hp).2) rfl

theorem setCore_of_shapesOk (h : s.Sound l) {c : CoreId} {k : Core} (hk : k.shapesOk = true) : (s.setCore c k).Sound l := by
  obtain ⟨⟨hm, hst, hap, hsn, hwa, hr, hc⟩, hq⟩ := h
  refine ⟨⟨hm, hst, hap, hsn, hwa, risingFrom_set _ _ _ _ hr (Nat.zero_le _), fun p hp => ?_⟩, hq⟩
  have hall := SMap.all_set (fun p => decide (p.1 < 1152) && p.2.shapesOk) s.cores c.val Core.zero k
    (List.all_eq_true.2 fun p hp => by simpa using hc p hp) (by simp [hk])
  simpa using List.all_eq_true.1 hall p hp

/-- A core may be replaced by one with its tile shapes. -/
theorem setCore (h : s.Sound l) {c : CoreId} {k : Core} (hk : k.tshape = (s.core c).tshape) : (s.setCore c k).Sound l :=
  h.setCore_of_shapesOk (by rw [Core.shapesOk, hk]; exact h.shapesOk_core c)

theorem modCore (h : s.Sound l) {c : CoreId} {f : Core → Core} (hf : ∀ k, (f k).tshape = k.tshape) :
    (s.modCore c f).Sound l := h.setCore (hf _)

/-- A core whose tiles lose their shapes. -/
theorem modCore_of_unshaped (h : s.Sound l) {c : CoreId} {f : Core → Core} (hf : ∀ k, (f k).tshape = []) :
    (s.modCore c f).Sound l := h.setCore_of_shapesOk (by rw [Core.shapesOk, hf]; rfl)

theorem setThread (h : s.Sound l) {x t} : (s.setThread x t).Sound l := h.modCore fun _ => rfl

theorem modThread (h : s.Sound l) {x f} : (s.modThread x f).Sound l := h.setThread

theorem setHall (h : s.Sound l) {g v} : (s.setHall g v).Sound l := h

theorem modHall (h : s.Sound l) {g f} : (s.modHall g f).Sound l := h

theorem modHallCores_of_unshaped (h : s.Sound l) {g f} (hf : ∀ k, (f k).tshape = []) : (s.modHallCores g f).Sound l :=
  h.foldl fun _ _ h => h.modCore_of_unshaped hf

theorem modHallCores (h : s.Sound l) {g f} (hf : ∀ k, (f k).tshape = k.tshape) : (s.modHallCores g f).Sound l :=
  h.foldl fun _ _ h => h.modCore hf

theorem setLive (h : s.Sound l) {p o v} : (s.setLive p o v).Sound l := h

theorem takeFresh (h : s.Sound l) : (s.takeFresh).2.Sound l := h

theorem memWf (h : s.Sound l) : s.memWf = true := h.1.1

/-- Memory that keeps its form may change. -/
theorem of_memWf {t : State} (h : s.Sound l) (hm : t.memWf = true) (ht : t.tables = s.tables) : t.Sound l := by
  obtain ⟨⟨_, hst, hap, hsn, hwa, hr, hc⟩, hq⟩ := h
  simp only [State.tables, Prod.mk.injEq] at ht
  obtain ⟨hp, h1, h2, h3, h4, h5⟩ := ht
  exact ⟨⟨hm, by rwa [h1], by rwa [h2], by rwa [h3], by rwa [h4], by rwa [h5], by rwa [h5]⟩, by rwa [hp]⟩

theorem setByte (h : s.Sound l) {a b} : (s.setByte a b).Sound l := by
  refine h.of_memWf (memWf_setByte a b h.memWf) ?_
  unfold State.setByte
  split
  · rfl
  · split <;> rfl
  · rfl
  · rfl
  · rfl

theorem setBytes {s : State} (h : s.Sound l) {a d} : (s.setBytes a d).Sound l :=
  match d with
  | [] => h
  | _ :: _ => h.setByte.setBytes

theorem newNearKeys (h : s.Sound l) {g} : (s.newNearKeys g).Sound l := h.of_memWf (memWf_newNearKeys g h.memWf) rfl

theorem newTierKeys (h : s.Sound l) {d} : (s.newTierKeys d).Sound l := h.of_memWf (memWf_newTierKeys d h.memWf) rfl

theorem setFlash (h : s.Sound l) {a d} : (s.setFlash a d).Sound l := h.of_memWf (memWf_setFlash a d h.memWf) (State.tables_setFlash s a d)

theorem wipeSlot (h : s.Sound l) : s.wipeSlot.Sound l := h.of_memWf (memWf_wipeSlot h.memWf) rfl

theorem withStaged (h : s.Sound l) {m : SMap Word} (hm : risingFrom 0 m = true) : State.Sound l { s with staged := m } := by
  obtain ⟨⟨hw, _, hap, hsn, hwa, hc⟩, hq⟩ := h
  exact ⟨⟨hw, hm, hap, hsn, hwa, hc⟩, hq⟩

theorem withApplied (h : s.Sound l) {m : SMap Word} (hm : risingFrom 0 m = true) : State.Sound l { s with applied := m } := by
  obtain ⟨⟨hw, hst, _, hsn, hwa, hc⟩, hq⟩ := h
  exact ⟨⟨hw, hst, hm, hsn, hwa, hc⟩, hq⟩

theorem withSnap (h : s.Sound l) {m : SMap Word} (hm : risingFrom 0 m = true) : State.Sound l { s with snap := m } := by
  obtain ⟨⟨hw, hst, hap, _, hwa, hc⟩, hq⟩ := h
  exact ⟨⟨hw, hst, hap, hm, hwa, hc⟩, hq⟩

theorem withWaiting (h : s.Sound l) {m : SMap Word} (hm : risingFrom 0 m = true) : State.Sound l { s with waiting := m } := by
  obtain ⟨⟨hw, hst, hap, hsn, _, hc⟩, hq⟩ := h
  exact ⟨⟨hw, hst, hap, hsn, hm, hc⟩, hq⟩

theorem withCores (h : s.Sound l) {m : SMap Core} (hm : risingFrom 0 m = true) (hc : ∀ p, p ∈ m → p.1 < 1152 ∧ p.2.shapesOk = true) :
    State.Sound l { s with cores := m } := by
  obtain ⟨⟨hw, hst, hap, hsn, hwa, _⟩, hq⟩ := h
  exact ⟨⟨hw, hst, hap, hsn, hwa, hm, hc⟩, hq⟩

theorem setStaged (h : s.Sound l) {p o v} : (s.setStaged p o v).Sound l :=
  h.withStaged (risingFrom_set _ _ _ _ h.rising_staged (Nat.zero_le _))

/-- A state that is changed only if a condition holds. -/
theorem thenIf {t : State} {c : Prop} [Decidable c] (h : s.Sound l) (ht : s.Sound l → t.Sound l) : (if c then t else s).Sound l :=
  ite_both (ht h) h

/-- A state that is changed only if a condition does not hold. -/
theorem elseIf {t : State} {c : Prop} [Decidable c] (h : s.Sound l) (ht : s.Sound l → t.Sound l) : (if c then s else t).Sound l :=
  ite_both h (ht h)

end State.Sound

end Sys2Proof.Machine
end

