-- ==== Sys2Proof/Proofs/SoundCore.lean ====
section
/-!
SUPPORT. The operations of cores keep a state sound: memory, registers, tiles, vectors, queues, channels, barriers and traps.
-/
namespace Sys2Proof.Machine
namespace State.Sound
variable {l : List Instr} {s : State}

/-! ### Operations of Machine/Ops.lean -/

theorem setLive64 (h : s.Sound l) {page off n} : (s.setLive64 page off n).Sound l :=
  h.setLive.setLive

theorem count64 (h : s.Sound l) {page off n} : (s.count64 page off n).Sound l :=
  h.setLive64

theorem countSat (h : s.Sound l) {page off n} : (s.countSat page off n).Sound l :=
  h.setLive

theorem setField (h : s.Sound l) {page off lo w v} : (s.setField page off lo w v).Sound l :=
  h.setLive

theorem progMark (h : s.Sound l) {g} : (s.progMark g).Sound l :=
  h.modHall.setLive

/-! ### Operations of Machine/Flags.lean -/

theorem pend (h : s.Sound l) {x v} : (s.pend x v).Sound l :=
  h.modThread

theorem setEvent (h : s.Sound l) {x b} : (s.setEvent x b).Sound l :=
  h.modThread

theorem rxTlp (h : s.Sound l) : (s.rxTlp).Sound l :=
  h.count64

theorem txRequest (h : s.Sound l) : (s.txRequest).Sound l :=
  h.count64

theorem emit (h : s.Sound l) {o} : (s.emit o).Sound l :=
  (ite_both h.count64 h).other

theorem msixSend (h : s.Sound l) {fn entry} : (s.msixSend fn entry).Sound l :=
  h.emit

theorem raiseMsix (h : s.Sound l) {fn entry} : (s.raiseMsix fn entry).Sound l :=
  ite_both h.setLive h.msixSend

theorem hallNotice (h : s.Sound l) {g} : (s.hallNotice g).Sound l :=
  (h.foldl fun _ _ h => h.pend).raiseMsix

theorem mirror (h : s.Sound l) {b g} : (s.mirror b g).Sound l :=
  h.setLive

theorem notice (h : s.Sound l) {page bit} : (s.notice page bit).Sound l := by
  unfold State.notice
  split
  · exact h.hallNotice
  · split
    · exact (h.foldl fun _ _ h => h.mirror.hallNotice).raiseMsix
    · exact (h.foldl fun _ _ h => h.mirror.hallNotice).raiseMsix
    · exact ite_both h.raiseMsix h.hallNotice
    · exact h.raiseMsix

theorem recordErr (h : s.Sound l) {page bit inj} : (s.recordErr page bit inj).Sound l :=
  ite_both ((h.other.thenIf (·.setLive)).setLive) (((h.other.thenIf (·.setLive)).setLive).notice)

theorem recordAccessIn (h : s.Sound l) {page a addr write vfoff} : (s.recordAccessIn page a addr write vfoff).Sound l :=
  (ite_both h.setLive.setLive.setLive h).recordErr

theorem accessError (h : s.Sound l) {a addr write vfoff} : (s.accessError a addr write vfoff).Sound l := by
  unfold State.accessError
  split
  · exact h.recordAccessIn.recordAccessIn
  · exact h.recordAccessIn

theorem tallyAdd (h : s.Sound l) {u slot cls n} : (s.tallyAdd u slot cls n).Sound l := by
  unfold State.tallyAdd
  split
  exact ite_both h h.countSat

theorem tally (h : s.Sound l) {u slot f es} : (s.tally u slot f es).Sound l :=
  ite_both h h.tallyAdd.tallyAdd.tallyAdd

theorem tallyClear (h : s.Sound l) {u slot} : (s.tallyClear u slot).Sound l := by
  unfold State.tallyClear
  split
  exact ite_both h h.setLive.setLive.setLive

/-! ### Operations of Machine/MemMap.lean -/

theorem countLine (h : s.Sound l) {a addr write} : (s.countLine a addr write).Sound l := by
  unfold State.countLine
  split
  · exact h.count64
  · exact h.count64
  · exact h.count64.count64.count64
  · split
    · exact h.count64.count64.count64
    · exact h
  · exact h

theorem holdWrite (h : s.Sound l) {a addr d tag first} : (s.holdWrite a addr d tag first).Sound l := by
  unfold State.holdWrite
  split
  · exact h.modHall.count64.thenIf (·.recordErr)
  · exact h.modHall.count64
  · exact h

theorem tierPoison (h : s.Sound l) {p} : (s.tierPoison p).Sound l :=
  h.countSat.recordErr

theorem performLine (h : s.Sound l) {a addr d first} : (s.performLine a addr d first).Sound l := by
  unfold State.performLine
  dsimp only
  have hc : (if first then s.countLine a addr true else s).Sound l := ite_both h.countLine h
  generalize (if first = true then s.countLine a addr true else s) = u at hc
  split
  · split
    · exact hc
    · next t _ _ =>
      have hw : ((if d.length < 64 ∧ u.poisoned addr = true then u.tierPoison (t / 4) else u).setBytes addr d).Sound l :=
        (ite_both hc.tierPoison hc).setBytes
      split
      · exact hc
      · split
        · split
          · exact hw.other
          · exact hw.other
        · exact hw
  · exact ite_both hc.setBytes.other hc.setBytes

theorem writeLine (h : s.Sound l) {a addr d first tag} : (s.writeLine a addr d first tag).Sound l :=
  ite_both h.holdWrite h.performLine

theorem writePieces {s : State} (h : s.Sound l) {a tag ps d} : (s.writePieces a tag ps d).Sound l :=
  match ps with
  | [] => h
  | _ :: _ => (ite_both h.writeLine h).writePieces

theorem lineErrors (h : s.Sound l) {a addr n write} : (s.lineErrors a addr n write).Sound l := by
  unfold State.lineErrors
  split
  · exact h.accessError
  · exact h

theorem memWrite (h : s.Sound l) {a addr d tag} : (s.memWrite a addr d tag).Sound l :=
  h.writePieces.lineErrors

theorem readLine (h : s.Sound l) {a addr} : (s.readLine a addr).Sound l := by
  unfold State.readLine
  split
  · split
    · exact h.countLine.thenIf (·.tierPoison)
    · exact h.countLine
  · exact h.countLine

theorem memRead (h : s.Sound l) {a addr n} : (s.memRead a addr n).st.Sound l :=
  (h.foldl fun _ _ h => h.readLine).lineErrors

theorem poisonLine (h : s.Sound l) {addr} : (s.poisonLine addr).Sound l := by
  unfold State.poisonLine
  split
  · exact h
  · split
    · exact h.other.countSat.recordErr
    · exact h.other.countSat.recordErr
    · exact ((ite_both h.other h.other.setLive.setLive).countSat).recordErr
    · exact h.other

/-! ### Operations of Machine/Operands.lean -/

theorem chamber16 (h : s.Sound l) {x off} : (s.chamber16 x off).1.Sound l := by
  unfold State.chamber16
  split
  · exact h
  · exact h.memRead

theorem selected (h : s.Sound l) {x sel} : (s.selected x sel).1.Sound l :=
  h.chamber16

/-! ### Operations of Machine/Rings.lean -/

theorem abandon (h : s.Sound l) {c} : (s.abandon c).Sound l := h.modCore fun k => by
  unfold Core.abandon
  split <;> rfl

theorem pushFrame (h : s.Sound l) {x stk code ring pc f} : (s.pushFrame x stk code ring pc f).Sound l := by
  unfold State.pushFrame
  exact h.memWrite.modThread

theorem tableEntry (h : s.Sound l) {x r v} : (s.tableEntry x r v).1.Sound l :=
  h.chamber16

theorem chooseEntry (h : s.Sound l) {x v f} : (s.chooseEntry x v f).1.Sound l := by
  unfold State.chooseEntry
  dsimp only
  split
  · exact h.tableEntry
  · split <;> exact h.tableEntry.tableEntry

theorem handlerCode (h : s.Sound l) {x sel pc ring} : (s.handlerCode x sel pc ring).1.Sound l :=
  h.selected

theorem entryStack (h : s.Sound l) {x sel new old} : (s.entryStack x sel new old).1.Sound l := by
  unfold State.entryStack
  split
  · exact h.selected
  · exact h

/-! ### Operations of Machine/Rings.lean -/

theorem tryEnter (h : s.Sound l) {x v pc repl qtaken} : (s.tryEnter x v pc repl qtaken).1.Sound l := by
  unfold State.tryEnter
  dsimp only
  split
  next s _ e2 => exact (of_fst h.chooseEntry e2)
  next s _ e2 =>
    split
    next s e3 => exact (of_fst ((of_fst h.chooseEntry e2).handlerCode) e3)
    next s _ e3 =>
      split
      next s e4 => exact (of_fst (((of_fst ((of_fst h.chooseEntry e2).handlerCode) e3)).entryStack) e4)
      next s _ e4 => exact ((((of_fst (((of_fst ((of_fst h.chooseEntry e2).handlerCode) e3)).entryStack) e4)).pushFrame).modThread).abandon

theorem takeException (h : s.Sound l) {x v pc repl qtaken} : SoundOpt l (s.takeException x v pc repl qtaken) := by
  unfold State.takeException
  split
  · exact .none
  · split
    next t e1 => exact ite_both .none (.some (of_fst h.tryEnter e1))
    next t _ e1 => exact .some ((of_fst h.tryEnter e1).modThread)

theorem writeSflt (h : s.Sound l) {x f rep pc word} : (s.writeSflt x f rep pc word).Sound l :=
  h.setLive.setLive.setLive.setLive

theorem writeRflt (h : s.Sound l) {x kind code arg gate pc} : (s.writeRflt x kind code arg gate pc).Sound l :=
  h.setLive.setLive

theorem leaveRep (h : s.Sound l) {x} : (s.leaveRep x).Sound l :=
  h.modThread

theorem takeBoundary (h : s.Sound l) {x b} : SoundOpt l (s.takeBoundary x b) :=
  match b with
  | .late _ => h.leaveRep.modThread.takeException
  | .debug => h.leaveRep.modThread.takeException
  | .queue q _ => (h.leaveRep.modCore fun k => k.tshape_markTaken q).takeException
  | .badAir => h.leaveRep.modThread.takeException
  | .interrupt _ => h.leaveRep.modThread.takeException

theorem restoreFrame (h : s.Sound l) {x f} : (s.restoreFrame x f).Sound l :=
  h.modThread.modCore fun k => k.tshape_restartTaken _ _

/-! ### Operations of Machine/Measure.lean -/

theorem takeMeasures (h : s.Sound l) {g} : (s.takeMeasures g).Sound l :=
  h.modHall

/-! ### Operations of Machine/CtlRead.lean -/

theorem ctlError (h : s.Sound l) {a o write} : (s.ctlError a o write).Sound l :=
  h.accessError

theorem readReg (h : s.Sound l) {a p off r hi} : (s.readReg a p off r hi).st.Sound l := by
  unfold State.readReg
  split
  · exact h
  · split
    · split
      · exact h
      · exact h.other
    · split
      · exact h.setLive
      · exact h

theorem readWord (h : s.Sound l) {a o} : (s.readWord a o).st.Sound l := by
  unfold State.readWord
  dsimp only
  split
  · exact h.ctlError
  · split
    · exact h.ctlError
    · split
      · exact h
      · split
        · exact h.ctlError
        · split
          · split
            · exact h
            · exact h.ctlError
          · split
            · exact h
            · split
              · exact h.readReg
              · exact h.ctlError

theorem ctlReadWord (h : s.Sound l) {a o} : (s.ctlReadWord a o).st.Sound l := by
  unfold State.ctlReadWord
  split
  · exact h.readWord
  · exact h.readWord
  · exact h.ctlError
  · exact h
  · exact h
  · exact h

theorem agentRead (h : s.Sound l) {a addr n} : (s.agentRead a addr n).st.Sound l := by
  unfold State.agentRead
  split
  · split
    · exact h.ctlReadWord
    · exact h.ctlReadWord.ctlReadWord
  · exact h.memRead

theorem agentWrite (h : s.Sound l) {a addr d tag} : (s.agentWrite a addr d tag).Sound l :=
  ite_both h.other h.memWrite

theorem busRead (h : s.Sound l) {x addr n} : (s.busRead x addr n).st.Sound l :=
  h.agentRead

theorem busWrite (h : s.Sound l) {x addr d} : (s.busWrite x addr d).Sound l :=
  h.agentWrite

theorem entryWrite (h : s.Sound l) {c e obs addr d} : (s.entryWrite c e obs addr d).Sound l :=
  h.agentWrite

/-! ### Operations of Machine/Issue.lean -/

theorem issued (h : s.Sound l) {x} : (s.issued x).Sound l :=
  h.modCore fun _ => by rfl

theorem retire (h : s.Sound l) {x} : (s.retire x).Sound l :=
  h.modThread.issued

theorem jumpTo (h : s.Sound l) {x pc} : (s.jumpTo x pc).Sound l :=
  h.modThread.issued

theorem setWait (h : s.Sound l) {x w} : (s.setWait x w).Sound l :=
  h.modThread

theorem notChosen (h : s.Sound l) {x} : (s.notChosen x).Sound l :=
  h.modThread

theorem raiseAt (h : s.Sound l) {x v} : SoundOpt l (s.raiseAt x v) :=
  h.leaveRep.takeException

theorem faultAt (h : s.Sound l) {x f w} : SoundOpt l (s.faultAt x f w) :=
  h.writeSflt.raiseAt

theorem faultBehind (h : s.Sound l) {x f w} : SoundOpt l (s.faultBehind x f w) :=
  ite_both h.writeSflt.leaveRep.takeException h.writeSflt.raiseAt

theorem applyRes (h : s.Sound l) {r : Res} (hr : r.Sound l) {x i} : (r.apply s x i).Sound l := by
  cases hr with
  | done h' => exact h'.retire
  | jump h' => exact h'.jumpTo
  | entered h' => exact h'.issued
  | wait => exact h.setWait
  | held => exact h.notChosen
  | fault h' => exact h'.faultAt.getD h.notChosen
  | faultNext h' => exact h'.faultBehind.getD h.notChosen
  | raise h' => exact h'.raiseAt.getD h.notChosen

theorem issueS (h : s.Sound l) {x i trap f} (hf : ∀ s : State, s.Sound l → Res.Sound l (f s)) : (s.issueS x i trap f).Sound l := by
  unfold State.issueS
  split
  · exact h
  · split
    · exact h.faultAt.getD h.notChosen
    · split
      · exact h.setWait
      · exact ite_both h.notChosen (h.applyRes (hf s h))

theorem issue (h : s.Sound l) {x i trap f} (hf : ∀ s : State, s.Sound l → Res.Sound l (f s)) : Outcome.Sound l (s.issue x i trap f) :=
  .next (h.issueS hf)

theorem setReg (h : s.Sound l) {x r v} : (s.setReg x r v).Sound l :=
  h.modThread

theorem fetch (h : s.Sound l) {x pc} : (s.fetch x pc).1.Sound l := by
  unfold State.fetch
  dsimp only
  split
  · exact h
  · split <;> exact h.busRead

theorem dropMet (h : s.Sound l) {c} : (s.dropMet c).Sound l :=
  ite_both h (h.modCore fun _ => by rfl)

theorem holdAccess (h : s.Sound l) {x i kind addr seg size o} : (s.holdAccess x i kind addr seg size o).Sound l :=
  h.modCore fun _ => by rfl

/-! ### Operations of Machine/Tiles.lean -/

theorem putRow (h : s.Sound l) {c t r n v} : (s.putRow c t r n v).Sound l :=
  (h.modCore fun _ => by rfl).count64

theorem writeTfault (h : s.Sound l) {c e f} : (s.writeTfault c e f).Sound l :=
  h.setLive.setLive.setLive.setLive

/-- TCFG admits the shape that it writes, of a tile that exists (R86). -/
theorem runTcfg (h : s.Sound l) {c : CoreId} {t : Nat} {w : Word} (ht : t < 16) : (s.runTcfg c t w).Sound l := by
  unfold State.runTcfg
  split
  · exact .tile h
  · next hw =>
    refine .done (h.setCore_of_shapesOk (SMap.all_set _ _ _ _ _ (h.shapesOk_core c) ?_))
    split
    · simp [ht, tcfgCode, fieldOf, bitsOf, tsRows]
    · simp [ht, hw]

theorem readRows {s : State} (h : s.Sound l) {site x t trans ks} : (s.readRows site x t trans ks).st.Sound l := by
  induction ks generalizing s with
  | nil => exact h
  | cons k ks ih =>
    unfold State.readRows
    split
    · exact h
    · dsimp only
      split
      · exact h.busRead
      · exact ih h.busRead

theorem writeRowIn (h : s.Sound l) {c t r w v} : (s.writeRowIn c t r w v).Sound l := by
  unfold State.writeRowIn
  split
  · exact h.putRow.putRow
  · exact h.putRow

theorem fillRows {s : State} (h : s.Sound l) {c t w m rs} : (s.fillRows c t w m rs).1.Sound l :=
  match rs with
  | [] => h
  | _ :: _ => h.writeRowIn.fillRows

theorem freeRows (h : s.Sound l) {n} : (s.freeRows n).2.Sound l :=
  h.takeFresh

theorem runTld (h : s.Sound l) {c e f} : (s.runTld c e f).Sound l := by
  unfold State.runTld
  dsimp only
  split
  · exact .tile h
  · refine ite_both .stall ?_
    split
    · exact ite_both (.tile h.readRows) (.tile h.readRows.freeRows.fillRows)
    · exact .done h.readRows.fillRows.tally

theorem storeRows {s : State} (h : s.Sound l) {c e x rs} : (s.storeRows c e x rs).Sound l :=
  match rs with
  | [] => h
  | _ :: _ => h.entryWrite.storeRows

theorem runTst (h : s.Sound l) {c e f} : (s.runTst c e f).Sound l := by
  unfold State.runTst
  dsimp only
  split
  · exact .tile h
  · refine ite_both .stall ?_
    split
    · exact .tile h.freeRows.storeRows
    · exact .done h.storeRows.tally

theorem zeroTileRow (h : s.Sound l) {c t r w} : (s.zeroTileRow c t r w).Sound l :=
  h.putRow.thenIf (·.putRow)

theorem runTldx (h : s.Sound l) {c e f} : (s.runTldx c e f).Sound l := by
  have hzero {s : State} {rows : List Nat} {w : Word} (h : s.Sound l) :
      (if f.zm = 1 then rows.foldl (fun s r => s.zeroTileRow c f.tile.toNat r w) s else s).Sound l :=
    ite_both (h.foldl fun _ _ h => h.zeroTileRow) h
  unfold State.runTldx
  dsimp only
  split
  · exact .tile h
  · refine ite_both .stall ?_
    split
    · exact .tile (hzero h.readRows.freeRows.fillRows)
    · exact .done (hzero h.readRows.fillRows).tally

theorem runTzero (h : s.Sound l) {c f} : (s.runTzero c f).Sound l := by
  unfold State.runTzero
  dsimp only
  split
  · exact .tile h
  · exact .done (h.foldl fun _ _ h => h.foldl fun _ _ h => h.putRow)

/-! ### Operations of Machine/Matrix.lean -/

theorem commitMma (h : s.Sound l) {c f} : (s.commitMma c f).Sound l := by
  have hrows {rows : List (List Elem × Nat)} {v : Word} :
      (rows.foldl (fun s (es, i) => s.putRow c f.ct.toNat i (tsBpr v) (packElems 16 (es.map Elem.bits))) s).Sound l :=
    h.foldl fun _ _ h => h.putRow
  exact (hrows.tally.modCore fun _ => by rfl).thenIf (·.setLive)

theorem readOperands (h : s.Sound l) {c f} : (s.readOperands c f).Sound l :=
  (h.setCore (by rfl)).count64.count64.count64

/-! ### Operations of Machine/Vector.lean -/

theorem setV (h : s.Sound l) {c n v} : (s.setV c n v).Sound l :=
  h.modCore fun _ => by rfl

theorem setM (h : s.Sound l) {c n v} : (s.setM c n v).Sound l :=
  h.modCore fun _ => by rfl

theorem runVop (h : s.Sound l) {c f} : (s.runVop c f).Sound l :=
  .done h.setV

theorem runVfma (h : s.Sound l) {c f} : (s.runVfma c f).Sound l :=
  .done h.setV

theorem runVcmp (h : s.Sound l) {c f} : (s.runVcmp c f).Sound l :=
  .done h.setM

theorem runVperm (h : s.Sound l) {c e f} : (s.runVperm c e f).Sound l :=
  ite_both (.done h.setReg) (.done h.setV)

theorem runVacc (h : s.Sound l) {c mac f} : (s.runVacc c mac f).Sound l :=
  .done (h.setV.tally.thenIf (·.setLive))

theorem runVred (h : s.Sound l) {c f} : (s.runVred c f).Sound l :=
  ite_both (.done h) (.done h.setV)

theorem runVcvt (h : s.Sound l) {c f} : (s.runVcvt c f).Sound l :=
  .done h.setV.tally

theorem runVtr (h : s.Sound l) {c f} : (s.runVtr c f).Sound l :=
  .done h.setV

theorem runVmask (h : s.Sound l) {c e f} : (s.runVmask c e f).Sound l := by
  unfold State.runVmask
  split
  · exact .done h.setM
  · exact .done h.setM
  · exact .done h.setM
  · exact .done h.setM
  · exact .done h.setM
  · exact .done h.setM
  · exact .done h.setReg
  · exact .done h.setM
  · exact .done h.setReg

theorem vecFault (h : s.Sound l) {c e st cause lane off} : (s.vecFault c e st cause lane off).Sound l :=
  .fault h.setLive.setLive.setLive

theorem readLanes (h : s.Sound l) {x base wb g} : (s.readLanes x base wb g).1.Sound l :=
  h.busRead

theorem readLineLanes {s : State} (h : s.Sound l) {x base wb gs} : (s.readLineLanes x base wb gs).1.Sound l := by
  induction gs generalizing s with
  | nil => exact h
  | cons g gs ih =>
    unfold State.readLineLanes
    dsimp only
    split
    · exact h.readLanes
    · exact ih h.readLanes

theorem storeRuns {s : State} (h : s.Sound l) {c e base wb v first rs} : (s.storeRuns c e base wb v first rs).Sound l :=
  match rs with
  | [] => h
  | _ :: _ => (ite_both h.entryWrite h.writeLine).storeRuns

theorem runVls (h : s.Sound l) {c e st f} : (s.runVls c e st f).Sound l := by
  unfold State.runVls
  dsimp only
  split
  · exact .done h
  · split
    · exact h.vecFault
    · refine ite_both (ite_both .stall (.done ((h.foldl fun _ _ h => h.storeRuns).tally))) ?_
      refine ite_both .stall ?_
      split
      · exact h.readLineLanes.vecFault
      · exact .done h.readLineLanes.setV

theorem runVmv (h : s.Sound l) {c toTile f} : (s.runVmv c toTile f).Sound l :=
  ite_both (.tile h) (ite_both (.tile h) (ite_both (.done h.putRow) (.done h.setV)))

/-! ### Operations of Machine/CoreDma.lean -/

theorem writeDfault (h : s.Sound l) {c e f} : (s.writeDfault c e f).Sound l :=
  h.setLive.setLive.setLive.setLive

theorem readDmaDesc (h : s.Sound l) {c e} : (s.readDmaDesc c e).1.Sound l := by
  unfold State.readDmaDesc
  dsimp only
  split
  · exact h
  · split <;> exact h.busRead

theorem readDmaRow {s : State} (h : s.Sound l) {x a ps} : (s.readDmaRow x a ps).1.Sound l := by
  induction ps generalizing s with
  | nil => exact h
  | cons p ps ih =>
    unfold State.readDmaRow
    dsimp only
    split
    · exact h.busRead
    · exact ih h.busRead

theorem writeDmaRow {s : State} (h : s.Sound l) {c e a ps} : (s.writeDmaRow c e a ps).Sound l :=
  match ps with
  | [] => h
  | _ :: _ => h.entryWrite.writeDmaRow

theorem dmaRow (h : s.Sound l) {c e d k b} : (s.dmaRow c e d k b).1.Sound l := by
  unfold State.dmaRow
  split
  · exact h
  · refine writeDmaRow ?_
    split
    · exact h.readDmaRow
    · exact h

theorem dmaRows {s : State} (h : s.Sound l) {c e d n k b} : (s.dmaRows c e d n k b).1.Sound l := by
  induction n generalizing s k b with
  | zero => exact h
  | succ n ih =>
    unfold State.dmaRows
    split
    next e' => exact of_fst h.dmaRow e'
    next e' => exact ih (of_fst h.dmaRow e')

theorem stopDma (h : s.Sound l) {c e f} : (s.stopDma c e f).Sound l :=
  h.writeDfault.modCore fun _ => by rfl

theorem beginDma (h : s.Sound l) {c e} : (s.beginDma c e).Sound l :=
  ite_both h.stopDma (h.modCore fun _ => by rfl)

theorem startDma (h : s.Sound l) {c} : (s.startDma c).Sound l := by
  unfold State.startDma
  dsimp only
  split
  · split
    · refine ite_both h ?_
      refine ite_both h.beginDma ?_
      refine ite_both h ?_
      split
      next s _ e6 => exact (of_fst h.readDmaDesc e6).stopDma
      next s _ e6 => exact (of_fst h.readDmaDesc e6).beginDma
    · exact h
  · exact h

theorem completeDma (h : s.Sound l) {c} : (s.completeDma c).Sound l := by
  unfold State.completeDma
  dsimp only
  split
  · refine ite_both h ?_
    split
    next s _ e4 => exact (of_fst h.dmaRows e4).stopDma
    next s e4 =>
      refine ite_both (((of_fst h.dmaRows e4).modCore fun _ => by rfl)) ?_
      split
      · exact (((of_fst h.dmaRows e4).modCore fun _ => by rfl)).setEvent
      · exact ((of_fst h.dmaRows e4).modCore fun _ => by rfl)
  · exact h

/-! ### Operations of Machine/Queues.lean -/

theorem runVector (h : s.Sound l) {c e} : (s.runVector c e).Sound l := by
  unfold State.runVector
  split
  · exact h.runVop
  · exact h.runVfma
  · exact h.runVcmp
  · exact h.runVperm
  · exact h.runVacc
  · exact h.runVacc
  · exact h.runVred
  · exact h.runVcvt
  · exact h.runVtr
  · exact h.runVmask
  · exact h.runVls
  · exact h.runVls
  · exact h.runVmv
  · exact h.runVmv
  · exact .stall

theorem runMatrix (h : s.Sound l) {c e} : (s.runMatrix c e).Sound l := by
  unfold State.runMatrix
  split
  · exact h.runTcfg (BitVec.isLt _)
  · exact .done h.setReg
  · exact h.runTld
  · exact h.runTst
  · exact h.runTldx
  · exact h.runTzero
  · exact .stall

theorem stepVq (h : s.Sound l) {c} : SoundOpt l (s.stepVq c) := by
  unfold State.stepVq
  dsimp only
  split
  · refine ite_both .none ?_
    split
    next s e3 => exact .some (((h.runVector.of_done e3).modCore fun _ => by rfl))
    · exact .none
    next s _ e3 => exact .some ((((h.runVector.of_tile e3).writeTfault).modCore fun _ => by rfl))
    next s _ e3 => exact .some (((h.runVector.of_fault e3).modCore fun _ => by rfl))
  · exact .none

theorem startMma (h : s.Sound l) {c n f} : (s.startMma c n f).Sound l :=
  h.readOperands.modCore fun _ => by rfl

theorem stepMq (h : s.Sound l) {c} : SoundOpt l (s.stepMq c) := by
  unfold State.stepMq
  dsimp only
  split
  · exact .none
  · refine ite_both .none ?_
    split
    · refine ite_both .none ?_
      split
      · exact ite_both .none (.some (h.writeTfault.modCore fun _ => by rfl))
      · exact ite_both (.some (h.modCore fun _ => by rfl).count64) (.some h.startMma)
    · refine ite_both .none ?_
      split
      next s e6 => exact .some (((h.runMatrix.of_done e6).modCore fun _ => by rfl))
      · exact .none
      next s _ e6 => exact .some ((((h.runMatrix.of_tile e6).writeTfault).modCore fun _ => by rfl))
      next s _ e6 => exact .some (((h.runMatrix.of_fault e6).modCore fun _ => by rfl))

theorem lateFault (h : s.Sound l) {c g cause} : (s.lateFault c g cause).Sound l :=
  h.writeSflt.modThread

theorem performAccess (h : s.Sound l) {c g} : (s.performAccess c g).Sound l := by
  unfold State.performAccess
  dsimp only
  split
  · exact h.agentWrite
  · exact ite_both h.busRead.lateFault.modThread h.busRead.modThread
  · split
    · exact h.busRead.lateFault
    · exact h.busRead.modThread

theorem stepMem (h : s.Sound l) {c} : SoundOpt l (s.stepMem c) := by
  unfold State.stepMem
  split
  · exact .none
  · exact ite_both .none (.some (h.modCore fun _ => by rfl).performAccess)

theorem stepCore (h : s.Sound l) {c} : SoundOpt l (s.stepCore c) := by
  unfold State.stepCore
  split
  next s e0 => exact .some (h.stepMem.of_eq e0)
  · split
    next s e1 => exact .some (h.stepVq.of_eq e1)
    · exact h.stepMq

theorem pumpN {s : State} (h : s.Sound l) {c n} : (s.pumpN c n).Sound l := by
  induction n generalizing s with
  | zero => exact h
  | succ n ih =>
    unfold State.pumpN
    split
    next e => exact ih (h.stepCore.of_eq e)
    next => exact h

theorem pump (h : s.Sound l) {c} : (s.pump c).Sound l :=
  h.pumpN.dropMet

theorem enqueue (h : s.Sound l) {x i vals segs} : (s.enqueue x i vals segs).Sound l :=
  ite_both .wait (.done (h.setCore (Core.tshape_setQueue _ _ _)))

theorem completeToken (h : s.Sound l) {c q} : (s.completeToken c q).Sound l := by
  unfold State.completeToken
  dsimp only
  split
  · split
    · exact ite_both h (h.modCore fun k => k.tshape_popQ q).setEvent
    · exact h
  · exact h

theorem unawait (h : s.Sound l) {c obs seq} : (s.unawait c obs seq).Sound l :=
  h.foldl fun _ _ h => h.modHall

theorem discard (h : s.Sound l) {c q all} : (s.discard c q all).Sound l := by
  unfold State.discard
  dsimp only
  split
  · exact (h.setCore (Core.tshape_removeQ _ _ _)).unawait
  · refine h.setCore ?_
    split
    · exact (Core.tshape_removeQ _ _ _).trans (Core.tshape_removeQ _ _ _)
    · exact Core.tshape_removeQ _ _ _
  · exact h

/-! ### Operations of Machine/Channels.lean -/

theorem chanFault (h : s.Sound l) {x cause id func} : (s.chanFault x cause id func).Sound l :=
  .raise h.setLive.setLive

theorem openChan (h : s.Sound l) {x ch} : SoundOpt l (s.openChan x ch) :=
  ite_both (.some h) (ite_both .none (.some (h.modCore fun _ => by rfl).modThread))

theorem wrch (h : s.Sound l) {x ch v o} : (s.wrch x ch v o).Sound l := by
  unfold State.wrch
  split
  · exact h.chanFault
  · refine ite_both h.chanFault ?_
    split
    · exact .held
    next s e2 => exact .done ((h.openChan.of_eq e2).modThread)

theorem wrchb (h : s.Sound l) {x ch seg src v} : (s.wrchb x ch seg src v).Sound l := by
  unfold State.wrchb
  dsimp only
  refine ite_both (.done h) ?_
  split
  · exact h.chanFault
  · refine ite_both h.chanFault ?_
    split
    · exact .held
    next s1 e5 =>
      split
      · exact .fault h.takeFresh
      · exact ite_both .held (ite_both (.fault h.takeFresh) (.done (((h.openChan.of_eq e5).busRead).modThread)))

theorem closeMsg (h : s.Sound l) {x ch n} : (s.closeMsg x ch n).Sound l := by
  unfold State.closeMsg
  split
  · exact h.chanFault
  · split
    · exact h.chanFault
    · split
      · exact .held
      next s e2 => exact .done ((((h.openChan.of_eq e2).modCore fun _ => by rfl)).modThread)

theorem toFabric (h : s.Sound l) {g inp p} : (s.toFabric g inp p).Sound l :=
  h.other

theorem toCore (h : s.Sound l) {c dst b} : (s.toCore c dst b).Sound l :=
  ite_both h.other h.accessError

theorem meshArrive (h : s.Sound l) {c b f} (hf : ∀ s : State, s.Sound l → (f s).Sound l) : (s.meshArrive c b f).Sound l := by
  unfold State.meshArrive
  split
  · exact hf _ h.other
  · exact h

theorem dropFlights (h : s.Sound l) {g} : (s.dropFlights g).Sound l :=
  h.other

theorem returnCredit (h : s.Sound l) {c dest err} : (s.returnCredit c dest err).Sound l := by
  unfold State.returnCredit
  split
  · exact h
  · split
    · exact h.emit.toCore
    · exact h.toFabric

theorem sendOut (h : s.Sound l) {c ch module core sump m} : (s.sendOut c ch module core sump m).Sound l := by
  unfold State.sendOut
  refine count64 ?_
  split
  · exact h.emit.toCore
  · exact h.toFabric

theorem depart (h : s.Sound l) {c ch} : (s.depart c ch).Sound l := by
  unfold State.depart
  dsimp only
  split
  · exact h
  · exact ite_both h (ite_both (ite_both (h.setCore (by rfl)) ((h.setCore (by rfl)).foldl fun _ _ h => h.sendOut)) (h.setCore (by rfl)).sendOut)

theorem creditBack (h : s.Sound l) {c ch member} : (s.creditBack c ch member).Sound l :=
  ite_both (h.modCore fun _ => by rfl) (h.modCore fun _ => by rfl)

theorem releaseCredits (h : s.Sound l) {c} : (s.releaseCredits c).Sound l :=
  (ite_both h (h.modCore fun _ => by rfl)).foldl fun _ _ h => h.returnCredit

theorem chanCount (h : s.Sound l) {c n} : (s.chanCount c n).Sound l :=
  h.countSat.recordErr

theorem dropArrival (h : s.Sound l) {c n m} : (s.dropArrival c n m).Sound l :=
  h.chanCount.returnCredit

theorem receive (h : s.Sound l) {c m} : (s.receive c m).Sound l :=
  ite_both h.dropArrival (((h.memWrite.thenIf (·.chanCount)).count64.modCore fun _ => by rfl).thenIf (·.pend))

theorem recv (h : s.Sound l) {x rd r} : (s.recv x rd r).Sound l :=
  ite_both h.chanFault (ite_both .wait (.done (h.modCore fun _ => by rfl).setReg))

theorem rfree (h : s.Sound l) {x r count} : (s.rfree x r count).Sound l :=
  ite_both h.chanFault (ite_both h.chanFault (.done (h.setCore (by rfl))))

theorem contribute (h : s.Sound l) {c m} : (s.contribute c m).Sound l :=
  ite_both h.dropArrival ((((h.memWrite.elseIf (·.chanCount)).count64).modCore fun _ => by rfl))

theorem sumpComplete (h : s.Sound l) {c u es} : (s.sumpComplete c u es).Sound l :=
  ((h.tally.modCore fun _ => by rfl).thenIf (·.pend)).thenIf (·.setEvent)

theorem drain (h : s.Sound l) {c u} : (s.drain c u).Sound l := by
  unfold State.drain
  refine ite_both h ?_
  split
  · exact h
  · refine ite_both ?_ ?_
    · refine recordErr ?_
      refine modCore ?_ fun _ => rfl
      split
      · exact h.memRead
      · exact h.memRead.memRead
    · refine ite_both ?_ ?_
      · refine sumpComplete ?_
        refine modCore ?_ fun _ => rfl
        refine memWrite ?_
        split
        · exact h.memRead
        · exact h.memRead.memRead
      · refine modCore ?_ fun _ => rfl
        refine memWrite ?_
        split
        · exact h.memRead
        · exact h.memRead.memRead

theorem sumpArm (h : s.Sound l) {c u v arg} : (s.sumpArm c u v arg).Sound l :=
  ite_both (h.modCore fun _ => by rfl) (ite_both (h.modCore fun _ => by rfl).sumpComplete (h.modCore fun _ => by rfl).memWrite.sumpComplete)

theorem sumparm (h : s.Sound l) {x u arg} : (s.sumparm x u arg).Sound l :=
  ite_both (.fault h) (ite_both h.chanFault (ite_both h.chanFault (ite_both (.done (h.setCore (by rfl)).sumpArm) (.done h.sumpArm))))

theorem abortMsg (h : s.Sound l) {x} : (s.abortMsg x).Sound l := by
  unfold State.abortMsg
  refine modThread ?_
  split
  · exact h.modCore fun _ => by rfl
  · exact h

theorem switchChannels (h : s.Sound l) {c} : (s.switchChannels c).Sound l :=
  h.modCore fun _ => by rfl

/-! ### Operations of Machine/Links.lean -/

theorem setPort (h : s.Sound l) {p v} : (s.setPort p v).Sound l :=
  h.other

theorem setPstat (h : s.Sound l) {p state width ok} : (s.setPstat p state width ok).Sound l :=
  h.setLive

theorem sendBare (h : s.Sound l) {p typ payload} : (s.sendBare p typ payload).Sound l :=
  h.setPort.emit

theorem sendFlit (h : s.Sound l) {p ends payload} : (s.sendFlit p ends payload).Sound l :=
  h.setPort.emit.count64.elseIf (·.setLive)

theorem sendPack (h : s.Sound l) {p k} : (s.sendPack p k).Sound l :=
  h.setPort.sendFlit.foldl fun _ _ h => h.count64

theorem pumpPortN {s : State} (h : s.Sound l) {p n} : (s.pumpPortN p n).Sound l :=
  match n with
  | 0 => h
  | _ + 1 => ite_both (ite_both h h.sendPack.pumpPortN) h

theorem pumpPort (h : s.Sound l) {p} : (s.pumpPort p).Sound l :=
  h.pumpPortN

theorem queuePacket (h : s.Sound l) {p k} : (s.queuePacket p k).Sound l :=
  h.count64.setPort.pumpPort

theorem dropPort (h : s.Sound l) {p} : (s.dropPort p).Sound l :=
  h.setPort.setLive.countSat

theorem sendBarrier (h : s.Sound l) {p release b round} : (s.sendBarrier p release b round).Sound l :=
  ite_both h h.queuePacket

/-! ### Operations of Machine/Barriers.lean -/

theorem barWire (h : s.Sound l) {g b r members} : (s.barWire g b r members).Sound l :=
  h.modHall

theorem barToRootHall (h : s.Sound l) {g b} : (s.barToRootHall g b).Sound l :=
  ite_both h.accessError h.modHall

theorem barMark (h : s.Sound l) {g b} : (s.barMark g b).Sound l :=
  ite_both h.progMark h

theorem barReleaseHall (h : s.Sound l) {g b} : (s.barReleaseHall g b).Sound l :=
  h.modHall.count64.barMark

theorem barAtRouter (h : s.Sound l) {g b r members} : (s.barAtRouter g b r members).Sound l :=
  ite_both h.modHall.barWire (ite_both h.modHall (ite_both h.modHall.barReleaseHall h.modHall.barToRootHall))

theorem barAtOnce (h : s.Sound l) {g b} : (s.barAtOnce g b).Sound l := by
  unfold State.barAtOnce
  split
  · exact h
  · exact ite_both h.sendBarrier h

theorem barReleaseAll (h : s.Sound l) {g b} : (s.barReleaseAll g b).Sound l :=
  ((h.modHall.foldl fun _ _ h => h.sendBarrier).foldl fun _ _ h => h.barReleaseHall).barAtOnce

theorem barAtRootHall (h : s.Sound l) {g b src} : (s.barAtRootHall g b src).Sound l := by
  unfold State.barAtRootHall
  refine ite_both ?_ h.modHall
  split
  · exact h.modHall.sendBarrier
  · exact h.modHall.barReleaseAll

theorem barFromParent (h : s.Sound l) {p b round} : (s.barFromParent p b round).Sound l := by
  unfold State.barFromParent
  split
  · exact h
  · exact ite_both h.barReleaseAll h

theorem barArriveAt (h : s.Sound l) {g b a} : (s.barArriveAt g b a).Sound l := by
  unfold State.barArriveAt
  dsimp only
  split
  · split
    · exact h
    · exact h.modHall.barAtRouter
  · exact ite_both h.modHall.barAtRootHall h
  · exact ite_both (h.modHall.thenIf (·.barAtRootHall)) h

theorem barFromChild (h : s.Sound l) {p b round} : (s.barFromChild p b round).Sound l := by
  unfold State.barFromChild
  split
  · exact h
  · exact h.modHall

theorem barPortFailed (h : s.Sound l) {p} : (s.barPortFailed p).Sound l := by
  unfold State.barPortFailed
  dsimp only
  refine foldl ?_ fun _ _ h => ?_
  · exact h
  · split
    · exact h
    · exact ite_both h.modHall h

theorem barSend (h : s.Sound l) {c b seq} : (s.barSend c b seq).Sound l :=
  ite_both (h.modCore fun _ => by rfl) (h.modCore fun _ => by rfl).barWire

theorem releaseArrivals (h : s.Sound l) {c} : (s.releaseArrivals c).Sound l := by
  unfold State.releaseArrivals
  refine foldl ?_ fun _ _ h => ?_
  · exact h
  · split
    · exact h.barSend
    · exact h

theorem barFault (h : s.Sound l) {x cause id waitb} : (s.barFault x cause id waitb).Sound l :=
  .raise h.setLive.recordErr

theorem setTicket (h : s.Sound l) {x t} : (s.setTicket x t).Sound l :=
  h.modThread

theorem arrive (h : s.Sound l) {x b} : (s.arrive x b).Sound l :=
  ite_both h.barFault <| ite_both (.done h.setTicket) <| ite_both h.barFault <| ite_both h.barFault <|
    ite_both (.done (h.setCore (by rfl)).setTicket) (.done ((h.setCore (by rfl)).setTicket.thenIf (·.barSend)))

theorem waitb (h : s.Sound l) {x b} : (s.waitb x b).Sound l := by
  unfold State.waitb
  refine ite_both h.barFault ?_
  split
  · exact h.barFault
  · exact ite_both h.barFault (ite_both .wait (.done h.setTicket))

theorem barReleased (h : s.Sound l) {c b} : (s.barReleased c b).Sound l :=
  h.elseIf fun h => (((h.modCore fun _ => by rfl).thenIf (·.pend)).thenIf (·.setEvent)).thenIf (·.barSend)

theorem switchBarriers (h : s.Sound l) {g} : (s.switchBarriers g).Sound l :=
  (h.modHall.modHallCores fun _ => by rfl).foldl fun _ _ h => h.barAtOnce

/-! ### Operations of Machine/Traps.lean -/

theorem run (h : s.Sound l) {x i f} (hf : ∀ s : State, s.Sound l → Res.Sound l (f s)) : Outcome.Sound l (s.run x i f) := h.issue hf

theorem prefixed (h : s.Sound l) {x cnt limit n} : (s.prefixed x cnt limit n).Sound l := by
  unfold State.prefixed
  dsimp only
  split
  next s _ e1 => exact .faultNext (of_fst h.fetch e1)
  next s _ e1 =>
    split
    · exact .faultNext (of_fst h.fetch e1)
    · exact ite_both (.fault (of_fst h.fetch e1)) (ite_both (.jump (of_fst h.fetch e1)) (.entered ((of_fst h.fetch e1).modThread)))

end State.Sound
end Sys2Proof.Machine
end

