-- ==== Sys2Proof/Proofs/SoundHall.lean ====
section
/-!
SUPPORT. The operations of halls keep a state sound: engines, commits, starts and stops, cairns, the keeper, stacks and fabric.
-/
namespace Sys2Proof.Machine
namespace State.Sound
variable {l : List Instr} {s : State}

/-! ### Operations of Machine/Engines.lean -/

theorem setProd (h : s.Sound l) {g n q v} : (s.setProd g n q v).Sound l :=
  h.setLive

theorem setCons (h : s.Sound l) {g n q v} : (s.setCons g n q v).Sound l :=
  h.setLive

theorem setQStat (h : s.Sound l) {g n q state status} : (s.setQStat g n q state status).Sound l :=
  h.setLive

theorem setRun (h : s.Sound l) {g n q r} : (s.setRun g n q r).Sound l :=
  h.modHall

theorem writeRecord (h : s.Sound l) {g n q r status resume detail stopped} : (s.writeRecord g n q r status resume detail stopped).Sound l :=
  ite_both h h.agentWrite

theorem engSignal (h : s.Sound l) {g d} : (s.engSignal g d).Sound l :=
  ite_both h (ite_both ((ite_both h.pend h).setEvent) (ite_both h.pend h))

theorem engStop (h : s.Sound l) {g n q r status detail} : (s.engStop g n q r status detail).Sound l :=
  h.writeRecord.setRun.setQStat.countSat.recordErr.elseIf (·.engSignal)

theorem engLate (h : s.Sound l) {g} : (s.engLate g).Sound l :=
  h.foldl fun _ _ h => h.foldl fun _ _ h => ite_both h.setRun.engSignal h

theorem engUnread (h : s.Sound l) {g n q} : (s.engUnread g n q).Sound l :=
  h.setRun.setQStat.countSat.recordErr

theorem engFinish (h : s.Sound l) {g n q} : (s.engFinish g n q).Sound l :=
  ((h.setRun.setQStat.setCons.count64.elseIf fun h => h.tallyAdd.tallyAdd.tallyAdd).thenIf (·.setLive)).engSignal

theorem engComplete (h : s.Sound l) {g n q} : (s.engComplete g n q).Sound l :=
  ite_both h.writeRecord.setRun h.writeRecord.engFinish

theorem writeProd (h : s.Sound l) {a g n q v} : (s.writeProd a g n q v).Sound l :=
  ite_both h.setProd h.ctlError

theorem engRead (h : s.Sound l) {g n q} : (s.engRead g n q).Sound l :=
  ite_both h (ite_both h.agentRead.engUnread (ite_both h.agentRead.engStop h.agentRead.setRun.setQStat))

theorem engStart (h : s.Sound l) {g n q} : (s.engStart g n q).Sound l :=
  ite_both h.modHall.engRead h

theorem engResume (h : s.Sound l) {g n q} : (s.engResume g n q).Sound l := by
  unfold State.engResume
  dsimp only
  refine ite_both h ?_
  split
  · exact h.setRun.setQStat.engRead
  · exact ite_both (ite_both h h.engStop) h.setRun.setQStat

theorem dropRequests (h : s.Sound l) {g n q} : (s.dropRequests g n q).Sound l :=
  h.other

theorem engDiscard (h : s.Sound l) {g n q all} : (s.engDiscard g n q all).Sound l :=
  ite_both h h.dropRequests.setRun.setQStat.setCons

theorem writeQCtl (h : s.Sound l) {g n q v} : (s.writeQCtl g n q v).Sound l :=
  ite_both h (ite_both h.engResume (ite_both h.engDiscard h))

theorem engSwitch (h : s.Sound l) {g} : (s.engSwitch g).Sound l :=
  h.modHall.foldl fun _ _ h => h.foldl fun _ _ h => h.dropRequests.setProd.setCons.setQStat

theorem runUnits {s : State} (h : s.Sound l) {f g n q k r} (hf : ∀ s r, s.Sound l → UnitRes.Sound l (f s r)) :
    (runUnits f g n q k s r).Sound l := by
  induction k generalizing s r with
  | zero => exact h.setRun
  | succ k ih =>
    unfold Machine.runUnits
    split
    next e => exact ih ((hf s r h).of_go e)
    next e => exact ((hf s r h).of_fin e).setRun
    next => exact h.setRun
    next e => exact ite_both h.setRun ((hf s r h).of_stop e).engStop

theorem engWork (h : s.Sound l) {g n q op fuel f} (hf : ∀ s r, s.Sound l → UnitRes.Sound l (f s r)) :
    (s.engWork g n q op fuel f).Sound l := ite_both (h.runUnits hf) h

theorem eread (h : s.Sound l) {a addr n} : (s.eread a addr n).Sound l :=
  ite_both .stall (ite_both (.poison h.agentRead) (.ok h.agentRead))

/-! ### Operations of Machine/Siphon.lean -/

theorem siphonRead (h : s.Sound l) {g addr n} : (s.siphonRead g addr n).Sound l := by
  unfold State.siphonRead
  split
  · exact .stall
  next s _ e0 => exact .stop (h.eread.of_poison e0)
  next s _ e0 => exact .ok (h.eread.of_ok e0)

theorem rowAddr (h : s.Sound l) {g t i} : (s.rowAddr g t i).Sound l := by
  refine ite_both (.stop h) (ite_both (.ok h) (h.siphonRead.bind fun _ _ h => ?_))
  split
  · exact .ok h.count64
  · split
    · exact .ok h.count64
    · exact .stop h.count64

theorem indexAt (h : s.Sound l) {g d n} : (s.indexAt g d n).Sound l :=
  h.siphonRead.bind fun _ _ h => ite_both (.stop h) (.ok h)

theorem weightAt (h : s.Sound l) {g d used n} : (s.weightAt g d used n).Sound l :=
  ite_both (h.siphonRead.bind fun _ _ h => .ok h) (.ok h)

theorem poolStep (h : s.Sound l) {g d t acc n first} : (s.poolStep g d t acc n first).Sound l :=
  h.indexAt.bind fun _ _ h => h.weightAt.bind fun _ _ h => h.rowAddr.bind fun _ _ h => h.siphonRead.bind fun _ _ h => .ok h

theorem poolSteps {s : State} (h : s.Sound l) {g d t acc i first n} : (s.poolSteps g d t acc i first n).Sound l :=
  match n with
  | 0 => .ok h
  | _ + 1 => h.poolStep.bind fun _ _ h => h.poolSteps

theorem bagStart (h : s.Sound l) {g d t b} : (s.bagStart g d t b).Sound l :=
  ite_both (h.siphonRead.bind fun _ _ h => .ok h) (.ok h)

theorem bagRow (h : s.Sound l) {g d t b n len} : (s.bagRow g d t b n len).Sound l :=
  ite_both (.ok h) (h.bagStart.bind fun _ _ h => h.poolSteps.bind fun _ _ h => .ok h)

theorem poolList (h : s.Sound l) {g r} : (State.poolList g s r).Sound l := by
  unfold State.poolList
  dsimp only
  split
  · exact .stall
  next s _ _ e1 => exact .stop (h.siphonRead.of_stop e1)
  next st _ e1 => exact ite_both (.stop (h.siphonRead.of_ok e1)) (.go (h.siphonRead.of_ok e1))

theorem poolBag (h : s.Sound l) {g q r} : (State.poolBag g q s r).Sound l := by
  unfold State.poolBag
  dsimp only
  split
  · exact .stall
  next s _ _ e4 => exact .stop (h.bagRow.of_stop e4)
  next st e4 => exact .go (h.bagRow.of_ok e4)
  next st _ e4 => exact ite_both .stall (.go ((h.bagRow.of_ok e4).agentWrite))

theorem poolUnit (h : s.Sound l) {g q r} : (State.poolUnit g q s r).Sound l :=
  ite_both (.stop h) (ite_both (.fin h) (ite_both h.poolList h.poolBag))

theorem scatterStep (h : s.Sound l) {g d t n} : (s.scatterStep g d t n).Sound l :=
  h.indexAt.bind fun _ _ h => h.weightAt.bind fun _ _ h => h.rowAddr.bind fun _ _ h => h.siphonRead.bind fun _ _ h =>
    h.siphonRead.bind fun _ _ h => .ok h

theorem scatterUnit (h : s.Sound l) {g q r} : (State.scatterUnit g q s r).Sound l := by
  unfold State.scatterUnit
  refine ite_both (.stop h) ?_
  refine ite_both (.fin h) ?_
  split
  · exact .stall
  next s _ _ e4 => exact .stop (h.scatterStep.of_stop e4)
  next st _ _ e4 => exact ite_both .stall (.go ((h.scatterStep.of_ok e4).agentWrite))

/-! ### Operations of Machine/Commit.lean -/

theorem setCommit (h : s.Sound l) {p c} : (s.setCommit p c).Sound l :=
  h.other

theorem setCommitStat (h : s.Sound l) {p state reason off overrun} : (s.setCommitStat p state reason off overrun).Sound l :=
  h.setLive

theorem commitGo (h : s.Sound l) {p} : (s.commitGo p).Sound l := by
  have htaken : State.Sound l { s with snap := copyAreas s.staged s.snap (blockPages p) } :=
    h.withSnap (risingFrom_copyAreas _ _ _ h.rising_snap)
  exact ite_both h (ite_both htaken.setCommit.setCommitStat (ite_both htaken.setCommit h.setField))

theorem commitRevert (h : s.Sound l) {p} : (s.commitRevert p).Sound l :=
  ite_both h (ite_both h.setField (h.withStaged (risingFrom_copyAreas _ _ _ h.rising_staged)))

theorem commitCheckEnd (h : s.Sound l) {p} : (s.commitCheckEnd p).Sound l := by
  refine ite_both h ?_
  split
  · exact h.setCommit.setCommitStat
  · exact (h.withWaiting (risingFrom_copyAreas _ _ _ h.rising_waiting)).setCommit

theorem applyCxlPort (h : s.Sound l) {old p} : (s.applyCxlPort old p).Sound l :=
  h.foldl fun _ _ h => ite_both h h.setLive

theorem applyYarlink (h : s.Sound l) {old p} : (s.applyYarlink old p).Sound l :=
  ite_both ((ite_both h.dropPort.setPstat.setLive h).setPstat) (ite_both h.dropPort.setPstat.setLive h)

theorem powerStep (h : s.Sound l) {f} (hf : ∀ s : State, s.Sound l → (f s).Sound l) : (s.powerStep f).Sound l :=
  (hf s h).foldl fun _ _ h => ite_both h.countSat h

theorem setCeiling (h : s.Sound l) {r v} : (s.setCeiling r v).Sound l :=
  ite_both h h.setField.other

theorem follow (h : s.Sound l) : (s.follow).Sound l :=
  h.setField.setField

theorem dropCeiling (h : s.Sound l) {r} : (s.dropCeiling r).Sound l := h.powerStep fun _ h => h.setCeiling.follow

theorem applyEffects (h : s.Sound l) {old p} : (s.applyEffects old p).Sound l := by
  have heng (g : HallId) (n : Fin 9) : ((List.finRange 4).foldl (fun s q => (s.setProd g n q 0).setCons g n q 0) s).Sound l :=
    h.foldl fun _ _ h => h.setProd.setCons
  unfold State.applyEffects
  dsimp only
  split
  · exact h.setLive.foldl fun _ _ h => h.modHall
  · exact h.setLive.setLive.setLive.setLive
  · exact heng _ _
  · exact heng _ _
  · exact heng _ _
  · exact heng _ _
  · exact heng _ _
  · exact heng _ _
  · exact ite_both h (ite_both h.setField.setField.modHall h.setField)
  · exact h.applyCxlPort
  · exact h.applyYarlink
  · exact h.setLive.setLive.setLive.setLive
  · exact h.foldl fun _ _ h => h.setField
  · exact h.progMark
  · exact h.dropCeiling.dropCeiling
  · exact h

theorem renewDecoders (h : s.Sound l) {new} : (s.renewDecoders new).Sound l :=
  h.foldl fun _ _ h => ite_both h.newTierKeys h

theorem applyWaiting (h : s.Sound l) {p} : (s.applyWaiting p).Sound l := by
  have hnew : risingFrom 0 (copyAreas s.waiting s.applied (blockPages p)) = true := risingFrom_copyAreas _ _ _ h.rising_applied
  have hset {t : State} (ht : t.Sound l) {c v} : (({ t with applied := copyAreas s.waiting s.applied (blockPages p) } : State).setCommit p c
      |>.setLive p 0x028 v).Sound l := (ht.withApplied hnew).setCommit.setLive
  have hold : (if p = 0x30 then s.renewDecoders (copyAreas s.waiting s.applied (blockPages p)) else s).Sound l :=
    ite_both h.renewDecoders h
  unfold State.applyWaiting
  dsimp only
  exact (ite_both (hset hold) (hset hold).setCommitStat).applyEffects

theorem commitApply (h : s.Sound l) {p} : (s.commitApply p).Sound l :=
  ite_both h.applyWaiting h

theorem commitTimeout (h : s.Sound l) {p} : (s.commitTimeout p).Sound l :=
  ite_both h.setCommit.setCommitStat h

theorem applyContext (h : s.Sound l) {g} : (s.applyContext g).Sound l :=
  h.foldl fun _ _ h => ite_both h.applyWaiting h

/-! ### Operations of Machine/Halls.lean -/

theorem keeperNotice (h : s.Sound l) {g bit} : (s.keeperNotice g bit).Sound l :=
  h.setLive.thenIf (·.pend)

theorem setHallState (h : s.Sound l) {g n} : (s.setHallState g n).Sound l :=
  h.setField

theorem clearLive (h : s.Sound l) {page lo hi} : (s.clearLive page lo hi).Sound l :=
  h.other

theorem coreReset (h : s.Sound l) {c} : (s.coreReset c).Sound l :=
  (h.modCore_of_unshaped fun _ => by rfl).clearLive.clearLive.clearLive.clearLive

theorem clearDrips (h : s.Sound l) {g} : (s.clearDrips g).Sound l :=
  ((h.foldl fun _ _ h => h.clearLive).setLive).setLive

theorem contextSwitch (h : s.Sound l) {g} : (s.contextSwitch g).Sound l :=
  (((((h.applyContext.dropFlights.foldl fun _ _ h => h.switchChannels).switchBarriers).clearDrips).engSwitch).setField).takeMeasures

theorem beginStart (h : s.Sound l) {g} : (s.beginStart g).Sound l :=
  ((ite_both h.setHallState.setField <| ite_both h.setHallState.modHall h.setHallState.contextSwitch).modHallCores fun _ => by rfl).modHall.progMark

theorem lateSwitch (h : s.Sound l) {g} : (s.lateSwitch g).Sound l :=
  ite_both h.modHall.contextSwitch h

theorem startHall (h : s.Sound l) {g} : (s.startHall g).Sound l :=
  ite_both h.setField.recordErr h.beginStart

theorem bootFail (h : s.Sound l) {g i t check} : (s.bootFail g i t check).Sound l :=
  (ite_both h h.setLive).recordErr

theorem bootThread (h : s.Sound l) {x} : (s.bootThread x).Sound l := by
  refine ite_both h.memRead.bootFail.modThread (ite_both h.memRead.modThread ?_)
  split
  · exact h.memRead.bootFail.modThread
  · exact h.memRead.modThread

theorem bootColumn (h : s.Sound l) {g col} : (s.bootColumn g col).Sound l :=
  h.foldl fun _ _ h => h.foldl fun _ _ h => h.bootThread

theorem columnStart (h : s.Sound l) {g} : (s.columnStart g).Sound l :=
  h.thenIf fun h => (h.bootColumn.modHall.thenIf fun h => h.other).thenIf (·.setHallState)

theorem beginStop (h : s.Sound l) {g} : (s.beginStop g).Sound l :=
  h.setHallState.modHall.modHallCores fun _ => by rfl

theorem keeperStop (h : s.Sound l) {g} : (s.keeperStop g).Sound l :=
  ite_both h.beginStop h

theorem stopPart (h : s.Sound l) {g} : (s.stopPart g).Sound l :=
  h.foldl fun _ _ h => h.keeperStop

theorem hallStopped (h : s.Sound l) {g} : (s.hallStopped g).Sound l :=
  ite_both (h.setHallState.modHallCores fun _ => by rfl) h

theorem writeHallCtl (h : s.Sound l) {a g v} : (s.writeHallCtl a g v).Sound l :=
  ite_both h (ite_both (ite_both h.startHall h.ctlError) (ite_both (ite_both h.beginStop h.ctlError) (ite_both h h.ctlError)))

theorem endTenancy (h : s.Sound l) {g} : (s.endTenancy g).Sound l := by
  unfold State.endTenancy
  split
  · exact ite_both h.modHall.emit h
  · exact ite_both h.setField.modHall.keeperStop h

theorem streamEnd (h : s.Sound l) {k} : (s.streamEnd k).Sound l :=
  h.other.foldl fun _ _ h => ite_both h.endTenancy h

theorem streamFails (h : s.Sound l) {g} : (s.streamFails g).Sound l := by
  unfold State.streamFails
  split
  · exact h.streamEnd
  · exact h

theorem holdSiblings (h : s.Sound l) {g} : (s.holdSiblings g).Sound l :=
  h.foldl fun _ _ h => ite_both h h.modHall

theorem outOfService (h : s.Sound l) {g} : (s.outOfService g).Sound l :=
  ite_both h h.setField.setField.recordErr.stopPart.holdSiblings.endTenancy.raiseMsix

/-! ### Operations of Machine/Cairn.lean -/

theorem performHeld {s : State} (h : s.Sound l) {g kept ws} : (s.performHeld g kept ws).1.Sound l := by
  induction ws generalizing s kept with
  | nil => exact h
  | cons w ws ih =>
    unfold State.performHeld
    split
    · exact ih h
    · exact ih h.performLine

theorem releaseHeld (h : s.Sound l) {g} : (s.releaseHeld g).Sound l :=
  h.performHeld.performHeld.modHall

theorem setProt (h : s.Sound l) {g p b} : (s.setProt g p b).Sound l :=
  h.modHall

theorem sendRequest (h : s.Sound l) {g r kind dst target data} : (s.sendRequest g r kind dst target data).Sound l :=
  h.other.toFabric

theorem snapSend (h : s.Sound l) {g dst addr d} : (s.snapSend g dst addr d).Sound l :=
  h.foldl fun _ _ h => h.sendRequest

theorem slotWrite (h : s.Sound l) {g slot off d} : SoundOpt l (s.slotWrite g slot off d) :=
  ite_both (.some h.count64.snapSend) (ite_both (.some h.count64.memWrite) .none)

theorem cairnField (h : s.Sound l) {g lo w v} : (s.cairnField g lo w v).Sound l :=
  h.setField

theorem cairnReport (h : s.Sound l) {g why} : (s.cairnReport g why).Sound l :=
  h.cairnField.cairnField.recordErr.keeperNotice.raiseMsix

theorem unprotect (h : s.Sound l) {g} : (s.unprotect g).Sound l :=
  h.modHall.releaseHeld

theorem cairnFail (h : s.Sound l) {g why} : (s.cairnFail g why).Sound l :=
  ite_both h h.modHall.setLive.unprotect.other.cairnReport

theorem cairnHead (h : s.Sound l) {g} : (s.cairnHead g).Sound l := by
  unfold State.cairnHead
  split
  · exact ite_both h.modHall.count64.snapSend h
  · exact h

theorem cairnStart (h : s.Sound l) {g slot} : (s.cairnStart g slot).Sound l := by
  have hprot {ps : List ImgPage} : (ps.foldl (fun s q => s.setProt g q true) s).Sound l := h.foldl fun _ _ h => h.setProt
  unfold State.cairnStart
  dsimp only
  split
  next e => exact ((hprot.setLive.cairnField.cairnField.cairnField.setLive.thenIf (·.cairnField)).modHall.slotWrite.of_eq e).cairnHead
  next => exact (hprot.setLive.cairnField.cairnField.cairnField.setLive.thenIf (·.cairnField)).modHall.cairnFail

theorem writeCgo (h : s.Sound l) {a g v} : (s.writeCgo a g v).Sound l :=
  ite_both h.ctlError (ite_both h (ite_both h.ctlError (ite_both h.cairnReport h.cairnStart)))

theorem copyPage (h : s.Sound l) {g} : (s.copyPage g).Sound l := by
  unfold State.copyPage
  dsimp only
  split
  · refine ite_both h ?_
    refine ite_both h.memRead.cairnFail ?_
    split
    · exact h.memRead.cairnFail
    next s e7 => exact ((((h.memRead.slotWrite.of_eq e7).setProt).releaseHeld).setLive).cairnHead
  · exact h

theorem cairnComplete (h : s.Sound l) {g} : (s.cairnComplete g).Sound l := by
  unfold State.cairnComplete
  split
  · exact h
  · refine h.elseIf fun h => ?_
    split
    · exact h.cairnFail
    next e =>
      have hhead := SoundOpt.of_eq (ite_both (.some h) h.slotWrite) e
      exact (hhead.modHall.cairnField.cairnField.cairnField.thenIf (·.setEvent)).thenIf (·.pend)

theorem setCairnKey (h : s.Sound l) {g key} : (s.setCairnKey g key).Sound l :=
  h.modHall.setLive.setLive64

theorem writeCkctl (h : s.Sound l) {a g v} : (s.writeCkctl a g v).Sound l :=
  ite_both h.ctlError (ite_both h.setCairnKey (ite_both h.setCairnKey h))

theorem setRstat (h : s.Sound l) {g state reason} : (s.setRstat g state reason).Sound l :=
  h.setLive

theorem beginRestore (h : s.Sound l) {g slot keeper} : (s.beginRestore g slot keeper).Sound l := by
  unfold State.beginRestore
  exact h.engSwitch.contextSwitch.setField.setRstat.modHall

theorem endRestore (h : s.Sound l) {g r reason} : (s.endRestore g r reason).Sound l :=
  (ite_both h.modHall.setRstat.keeperNotice h.modHall.setRstat.recordErr).raiseMsix

theorem slotRead (h : s.Sound l) {g slot off n} : SoundRead l (s.slotRead g slot off n) :=
  ite_both (ite_both .none (.some h.memRead)) .none

theorem imageRead (h : s.Sound l) {g slot remote off n} : SoundRead l (s.imageRead g slot remote off n) := by
  unfold State.imageRead
  refine ite_both ?_ h.slotRead
  split
  · exact ite_both (.some h) .none
  · exact .none

theorem writeBack {s : State} (h : s.Sound l) {g slot remote seq ps} : SoundOpt l (s.writeBack g slot remote seq ps) := by
  induction ps generalizing s with
  | nil => exact .some h
  | cons p ps ih =>
    unfold State.writeBack
    split
    next => exact .none
    next e => exact ih (h.imageRead.of_eq e).memWrite

theorem soilBytes {s : State} (h : s.Sound l) {a n} : (s.soilBytes a n).Sound l :=
  match n with
  | 0 => h
  | _ + 1 => h.takeFresh.setByte.soilBytes

theorem restoreCounters (h : s.Sound l) {g hd} : (s.restoreCounters g hd).Sound l :=
  h.setLive.setLive.setLive.setLive.foldl fun _ _ h => h.setLive.setLive.modCore fun k => k.tshape_foldl_setSump _ _

theorem dropRestore (h : s.Sound l) {g} : (s.dropRestore g).Sound l :=
  h.foldl fun _ _ h => h.modHall

theorem restoreCheck (h : s.Sound l) {g} : (s.restoreCheck g).Sound l := by
  unfold State.restoreCheck
  refine ite_both h.dropRestore ?_
  refine ite_both h ?_
  refine ite_both ?_ h.dropRestore
  refine foldl ?_ fun _ _ h => ?_
  · exact h
  · split
    · exact h.beginRestore
    · exact h

theorem headerKnown (h : s.Sound l) {g r remote} : (s.headerKnown g r remote).Sound l := by
  unfold State.headerKnown
  split
  next t _ e0 => exact ((h.imageRead.of_eq e0).modHall).restoreCheck
  · exact h.dropRestore

theorem performRestore (h : s.Sound l) {g remote} : (s.performRestore g remote).Sound l := by
  unfold State.performRestore
  dsimp only
  split
  · exact h
  · refine ite_both h ?_
    split
    · exact h.endRestore
    next s1 _ e2 =>
      refine ite_both ((h.imageRead.of_eq e2).endRestore) ?_
      split
      · exact ((h.imageRead.of_eq e2).foldl fun _ _ h => h.soilBytes).endRestore
      next s e6 => exact ((((((h.imageRead.of_eq e2).writeBack).of_eq e6)).restoreCounters).setLive64).endRestore

theorem restoreImage (h : s.Sound l) {g remote} : (s.restoreImage g remote).Sound l := by
  unfold State.restoreImage
  refine performRestore ?_
  split
  · exact ite_both h h.headerKnown
  · exact h

theorem writeRestore (h : s.Sound l) {a g v} : (s.writeRestore a g v).Sound l :=
  ite_both h.ctlError (ite_both h (ite_both h.ctlError (ite_both h.modHall.keeperNotice.stopPart (ite_both h.beginRestore h.ctlError))))

/-! ### Operations of Machine/Keeper.lean -/

theorem setColmap (h : s.Sound l) {g c lo w v} : (s.setColmap g c lo w v).Sound l :=
  h.setField

theorem sealDrop (h : s.Sound l) {g} : (s.sealDrop g).Sound l :=
  h.count64.recordErr

theorem soilCore (h : s.Sound l) {c} : (s.soilCore c).Sound l :=
  h.other.modCore fun _ => by rfl

theorem soilChamber (h : s.Sound l) {c} : (s.soilChamber c).Sound l :=
  h.other.soilBytes

theorem sealPosition (h : s.Sound l) {g p cause} : (s.sealPosition g p cause).Sound l := by
  have hsealed {c i k : Nat} {v : Word} {q b : Nat} : (((s.setColmap g c i k 1).setLive q 0x80C v).recordErr q b).Sound l :=
    h.setColmap.setLive.recordErr
  unfold State.sealPosition
  refine ite_both h (ite_both (ite_both ?_ hsealed.recordErr.outOfService) (ite_both hsealed.setColmap hsealed.setColmap.recordErr.outOfService))
  split
  · exact hsealed.setColmap.setColmap.setLive.soilCore
  · exact hsealed.setColmap.setColmap.setLive

theorem launchRestore (h : s.Sound l) {g repaired} : (s.launchRestore g repaired).Sound l :=
  ite_both h.modHall (ite_both h.modHall ((h.modHall.foldl fun _ _ h => h.modHall).restoreCheck))

theorem finishRestore (h : s.Sound l) {g} : (s.finishRestore g).Sound l :=
  ite_both h (ite_both h.dropRestore ((h.dropRestore.foldl fun _ _ h => h.startHall).foldl fun _ _ h => h.keeperNotice.raiseMsix))

theorem keeperTask (h : s.Sound l) {g} : (s.keeperTask g).Sound l := by
  unfold State.keeperTask
  refine ite_both h ?_
  split
  · exact h
  · exact h.launchRestore
  · exact h.sealPosition.launchRestore
  · exact h
  · exact h.finishRestore

theorem hardFault (h : s.Sound l) {g p cause} : (s.hardFault g p cause).Sound l :=
  ite_both h (ite_both (ite_both h.sealPosition h.modHall) h.modHall.stopPart)

theorem setStstat (h : s.Sound l) {g state failed} : (s.setStstat g state failed).Sound l :=
  h.setLive

theorem writeSuspect (h : s.Sound l) {a g v} : (s.writeSuspect a g v).Sound l :=
  ite_both h.ctlError (ite_both h (ite_both h.ctlError (ite_both h.setStstat h.setStstat.modHall.stopPart)))

theorem selfTestEnd (h : s.Sound l) {g failed} : (s.selfTestEnd g failed).Sound l := by
  have hsoil {cs : List CoreId} : (cs.foldl (fun s c => (s.soilCore c).soilChamber c) s).Sound l := h.foldl fun _ _ h => h.soilCore.soilChamber
  have hseal {t : State} (h : t.Sound l) : (failed.foldl (fun s p => s.sealPosition g p 2) t).Sound l := h.foldl fun _ _ h => h.sealPosition
  unfold State.selfTestEnd
  dsimp only
  refine ite_both h ?_
  split
  · exact ((hseal hsoil.setStstat).elseIf (·.recordErr)).keeperNotice.raiseMsix.launchRestore
  · exact ((hseal hsoil.setStstat).elseIf (·.recordErr)).keeperNotice.raiseMsix

theorem setRdstat (h : s.Sound l) {g n} : (s.setRdstat g n).Sound l :=
  h.setLive

theorem writeReadmit (h : s.Sound l) {a g v} : (s.writeReadmit a g v).Sound l := by
  unfold State.writeReadmit
  refine ite_both h.ctlError ?_
  refine ite_both h ?_
  refine ite_both h.ctlError ?_
  split
  · exact ite_both h.setLive.setRdstat h.setRdstat
  · exact h.setRdstat

theorem readmitEnd (h : s.Sound l) {g pass} : (s.readmitEnd g pass).Sound l := by
  unfold State.readmitEnd
  refine ite_both h ?_
  refine ite_both h.modHall ?_
  split
  · exact h
  · refine ite_both h.setRdstat ?_
    refine setRdstat ?_
    split
    · exact h.setColmap.setColmap.setColmap.coreReset.soilCore.soilChamber
    · exact h.setColmap.setColmap.setColmap

theorem scrubBegin (h : s.Sound l) {g} : (s.scrubBegin g).Sound l := by
  unfold State.scrubBegin
  split
  · exact h
  · exact ite_both h ((h.engSwitch.newNearKeys.foldl fun _ _ h => ite_both h.newTierKeys h).modHall)

theorem scrubAsk (h : s.Sound l) {g k} : (s.scrubAsk g k).Sound l :=
  h.modHall

theorem scrubAll (h : s.Sound l) {g} : (s.scrubAll g).Sound l := by
  have hm := h.memWf
  simp only [State.memWf, Bool.and_eq_true] at hm
  obtain ⟨⟨⟨hmem, hnear⟩, hcxl⟩, hflash⟩ := hm
  unfold State.scrubAll
  refine setCairnKey (setLive (setLive (modHall (engSwitch (clearDrips (switchBarriers
    (foldl (foldl (modHallCores_of_unshaped ?_ fun _ => rfl) ?_) ?_)))))))
  · refine h.of_memWf ?_ rfl
    simp only [State.memWf, Bool.and_eq_true]
    exact ⟨⟨⟨Memory.wf_clearRange _ _ (Memory.wf_clearRange _ _ hmem), risingFrom_clearRange _ _ _ hnear⟩, hcxl⟩, hflash⟩
  · exact fun _ _ h => h.clearLive.switchChannels
  · exact fun _ _ h => h.clearLive

theorem scrubRecord (h : s.Sound l) {g r bad n} : (s.scrubRecord g r bad n).Sound l :=
  h.setLive.setLive.setLive.setLive.setLive.setLive.setLive.setLive

theorem setMode (h : s.Sound l) {g m} : (s.setMode g m).Sound l :=
  h.setField

theorem scrubEnd (h : s.Sound l) {g bad} : (s.scrubEnd g bad).Sound l := by
  unfold State.scrubEnd
  split
  · exact h
  · refine ite_both h ?_
    refine ite_both ((h.modHall.scrubRecord.setMode.thenIf (·.emit)).outOfService) ?_
    split
    · exact h.modHall.scrubAll.setField.scrubRecord
    · exact h.modHall.scrubAll.setField.scrubRecord.setMode.emit
    · exact h.modHall.scrubAll.setField.scrubRecord.setMode.modHall.thenIf (·.emit)

theorem writeScrubReq (h : s.Sound l) {a v} : (s.writeScrubReq a v).Sound l :=
  h.foldl fun _ _ h => ite_both h (ite_both (ite_both h h.scrubAsk) h.ctlError)

theorem resetFunction (h : s.Sound l) {g} : (s.resetFunction g).Sound l :=
  h.other.clearLive.clearLive.setField.setField

theorem flrBegin (h : s.Sound l) {g} : (s.flrBegin g).Sound l :=
  h.setField.recordErr.modHall.endTenancy.keeperStop

theorem hallReset (h : s.Sound l) {g} : (s.hallReset g).Sound l := by
  unfold State.hallReset
  exact ((h.engSwitch.contextSwitch.foldl fun _ _ h => h.coreReset).resetFunction).modHall

theorem spareWork (h : s.Sound l) {g} : (s.spareWork g).Sound l := by
  unfold State.spareWork
  refine ite_both h ?_
  refine foldl ?_ fun _ _ h => ?_
  · split
    · exact h.modHall.readmitEnd
    · exact h.modHall
  · exact h.sealPosition

theorem hallWork (h : s.Sound l) {g} : (s.hallWork g).Sound l :=
  h.engLate.lateSwitch.elseIf fun h =>
    ((h.cairnFail.spareWork.thenIf (·.hallReset)).thenIf fun h => h.modHall.scrubAsk).scrubBegin.keeperTask

theorem pf0Work (h : s.Sound l) : (s.pf0Work).Sound l :=
  ite_both h.other h

theorem keeperWork (h : s.Sound l) : (s.keeperWork).Sound l :=
  (h.foldl fun _ _ h => h.hallWork).pf0Work

/-! ### Operations of Machine/BankMem.lean -/

theorem setBank (h : s.Sound l) {b ls} : (s.setBank b ls).Sound l :=
  h.other

theorem checkLine (h : s.Sound l) {b line det} : (s.checkLine b line det).Sound l := by
  unfold State.checkLine
  split
  · exact h
  · exact h.countSat
  · exact h.poisonLine

theorem serveBank (h : s.Sound l) {b r det} : (s.serveBank b r det).Sound l := by
  unfold State.serveBank
  split
  · exact h.writeLine
  · exact h.count64.checkLine.emit

theorem serveMerged (h : s.Sound l) {b ls} : (s.serveMerged b ls).Sound l := by
  unfold State.serveMerged
  refine foldl ?_ fun _ _ h => ?_
  · split
    · exact h.count64
    · exact h
  · exact h.emit

theorem promoteDue (h : s.Sound l) {b} : (s.promoteDue b).Sound l :=
  h.setBank.count64

theorem bankCycle (h : s.Sound l) {b arrivals det} : (s.bankCycle b arrivals det).Sound l := by
  unfold State.bankCycle
  dsimp only
  split
  · exact (h.promoteDue.elseIf (·.count64)).setBank
  · exact (h.promoteDue.serveBank.serveMerged.elseIf (·.count64)).setBank

theorem promote (h : s.Sound l) {b i} : (s.promote b i).Sound l := by
  unfold State.promote
  dsimp only
  split
  · exact ite_both h.setBank.count64 h
  · exact h

theorem checkBurst (h : s.Sound l) {g addr det} : (s.checkBurst g addr det).Sound l := by
  unfold State.checkBurst
  split
  · exact h
  · exact h.countSat
  · exact h.poisonLine

theorem ifFailed (h : s.Sound l) {g i} : (s.ifFailed g i).Sound l :=
  h.setField.setField.recordErr.outOfService

theorem retrainIf (h : s.Sound l) {g i crc ok} : (s.retrainIf g i crc ok).Sound l :=
  ite_both (ite_both h.modHall.ifFailed (h.modHall.thenIf (·.setField)))
    ((h.countSat.thenIf fun h => h.countSat.recordErr).elseIf (·.ifFailed))

theorem linkRetries (h : s.Sound l) {g b n} : (s.linkRetries g b n).Sound l :=
  ite_both h (ite_both h.countSat h.retrainIf)

theorem nearPerform (h : s.Sound l) {g o q} : (s.nearPerform g o q).Sound l := by
  unfold State.nearPerform
  dsimp only
  split
  · exact (h.linkRetries.elseIf (·.checkBurst)).memWrite
  · exact h.linkRetries.checkBurst.memRead.emit

theorem nearServe {s : State} (h : s.Sound l) {g kept qs} : (s.nearServe g kept qs).1.Sound l := by
  induction qs generalizing s kept with
  | nil => exact h
  | cons q qs ih =>
    unfold State.nearServe
    split
    · exact ih h
    · exact ih h.nearPerform

theorem nearWork (h : s.Sound l) {g} : (s.nearWork g).Sound l :=
  ite_both h h.nearServe.modHall

theorem nearAccess (h : s.Sound l) {q} : (s.nearAccess q).Sound l := by
  unfold State.nearAccess
  dsimp only
  split
  · exact ite_both h.accessError.emit (ite_both h.modHall h.nearPerform)
  · exact h

theorem patrol (h : s.Sound l) {g burst det} : (s.patrol g burst det).Sound l :=
  ite_both h.linkRetries.checkBurst h

theorem cxlAccess (h : s.Sound l) {r reply} : (s.cxlAccess r reply).Sound l := by
  unfold State.cxlAccess
  dsimp only
  split
  · refine ite_both h.accessError.emit ?_
    split
    · refine memWrite ?_
      split
      · exact ite_both ((ite_both h h.countSat).other) (ite_both h h.countSat)
      · exact h
    · refine emit ?_
      refine memRead ?_
      split
      · exact ite_both ((ite_both h h.countSat).other) (ite_both h h.countSat)
      · exact h
  · exact h

theorem linkFail (h : s.Sound l) {p ls err} : (s.linkFail p ls err).Sound l :=
  ite_both h h.setField.other.recordErr

theorem linkTimeout (h : s.Sound l) {p ls} : (s.linkTimeout p ls).Sound l :=
  ite_both h h.countSat.linkFail

theorem linkTrained (h : s.Sound l) {p ls width rate cap} : (s.linkTrained p ls width rate cap).Sound l :=
  ite_both h.setLive h

/-! ### Operations of Machine/Fabric.lean -/

theorem portUpEnd (h : s.Sound l) {p peer proven lanes} : (s.portUpEnd p peer proven lanes).Sound l := by
  unfold State.portUpEnd
  dsimp only
  refine ite_both h (ite_both h.dropPort.setPstat.recordErr ?_)
  have hid {c : Prop} [Decidable c] {v : List Byte} {q n w : Nat} :
      (if c then (s.takeFresh.2.setPstat p q n w).sendBare p 3 v else s).Sound l :=
    h.thenIf fun h => h.takeFresh.setPstat.sendBare
  split
  · exact hid
  · exact ite_both hid.setPstat.recordErr hid.takeFresh.setPort.setPstat.setLive

theorem failPort (h : s.Sound l) {p ok} : (s.failPort p ok).Sound l :=
  (((ite_both h.barPortFailed h).dropPort).setPstat).recordErr

theorem portFail (h : s.Sound l) {p} : (s.portFail p).Sound l :=
  ite_both h.failPort h

theorem replay (h : s.Sound l) {p} : (s.replay p).Sound l :=
  (h.foldl fun _ _ h => h.emit).countSat

theorem retrainPort (h : s.Sound l) {p ok degrade} : (s.retrainPort p ok degrade).Sound l :=
  ite_both h.failPort (((ite_both h.setPstat.setLive.countSat.recordErr h.setPstat.setLive).replay).pumpPort)

theorem laneFail (h : s.Sound l) {p ls} : (s.laneFail p ls).Sound l :=
  ite_both h.retrainPort h

theorem writeRetrain (h : s.Sound l) {p v} : (s.writeRetrain p v).Sound l :=
  ite_both h.setLive h

theorem retrainEnd (h : s.Sound l) {p lanes} : (s.retrainEnd p lanes).Sound l :=
  ite_both h.retrainPort h

theorem keyRollover (h : s.Sound l) {p txAt rxAt} : (s.keyRollover p txAt rxAt).Sound l :=
  ite_both h.takeFresh.setPort.setLive.pumpPort h

theorem arrivePacket (h : s.Sound l) {p k} : (s.arrivePacket p k).Sound l :=
  ite_both h.count64.barFromParent (ite_both h.count64.emit.barFromChild h.count64.toFabric)

theorem takePayload (h : s.Sound l) {p d} : (s.takePayload p d).Sound l :=
  h.setPort.foldl fun _ _ h => h.arrivePacket

theorem discardFlit (h : s.Sound l) {p failed} : (s.discardFlit p failed).Sound l :=
  ite_both h h.setPort.sendBare

theorem takeHeader (h : s.Sound l) {p hd} : (s.takeHeader p hd).Sound l :=
  h.setPort

theorem countFec (h : s.Sound l) {p errs} : (s.countFec p errs).Sound l :=
  ite_both (ite_both h h.count64) ((ite_both h h.count64).countSat)

theorem dataFlit (h : s.Sound l) {p b} : (s.dataFlit p b).Sound l := by
  unfold State.dataFlit
  dsimp only
  split
  · exact h.discardFlit
  · exact ite_both h.countSat.recordErr.discardFlit (ite_both h.discardFlit h.takeHeader.setPort.count64.takePayload.sendBare.pumpPort)

theorem flitArrive (h : s.Sound l) {p f} : (s.flitArrive p f).Sound l :=
  h.elseIf fun h => ite_both h.countFec.countSat.discardFlit <| ite_both h.countFec.dataFlit <| ite_both h.countFec.discardFlit
    (h.countFec.takeHeader.thenIf (·.replay)).pumpPort

theorem dropPacket (h : s.Sound l) {g t k} : (s.dropPacket g t k).Sound l := by
  unfold State.dropPacket
  refine ite_both ?_ ?_
  · refine toFabric ?_
    split
    · exact h.countSat.recordErr
    · exact h
  · split
    · exact h.countSat.recordErr
    · exact h

theorem refusePacket (h : s.Sound l) {g inp k} : (s.refusePacket g inp k).Sound l := by
  unfold State.refusePacket
  refine ite_both ?_ ?_
  · refine toFabric ?_
    split
    · exact h.countSat.recordErr
    · exact h
  · refine ite_both ?_ ?_
    · refine toFabric ?_
      split
      · exact h.countSat.recordErr
      · exact h
    · split
      · exact h.countSat.recordErr
      · exact h

theorem deliver (h : s.Sound l) {g inp k} : (s.deliver g inp k).Sound l := by
  unfold State.deliver
  split
  · exact h.emit.thenIf (·.toCore)
  · exact ite_both h.refusePacket (h.emit.thenIf (·.other))

theorem routeOne (h : s.Sound l) {r} : (s.routeOne r).Sound l := by
  unfold State.routeOne
  dsimp only
  refine ite_both h.deliver ?_
  split
  · exact h.dropPacket
  · split
    · exact ite_both h.dropPacket h.queuePacket
    · exact h.dropPacket

theorem packetRoute (h : s.Sound l) {inp} : (s.packetRoute inp).Sound l := by
  unfold State.packetRoute
  split
  · exact h.other.routeOne
  · exact h

theorem remoteWrite (h : s.Sound l) {inp k} : (s.remoteWrite inp k).Sound l :=
  ite_both h.refusePacket (ite_both h (ite_both h.memWrite.other h.memWrite.toFabric))

theorem releaseAcks (h : s.Sound l) : (s.releaseAcks).Sound l :=
  h.other.foldl fun _ _ h => h.toFabric

theorem remoteRead (h : s.Sound l) {inp k} : (s.remoteRead inp k).Sound l :=
  ite_both h.refusePacket (ite_both h h.memRead.toFabric)

/-! ### Operations of Machine/HallDma.lean -/

theorem toHost (h : s.Sound l) {g addr d} : (s.toHost g addr d).Sound l :=
  h.count64.emit

theorem hostRead (h : s.Sound l) {g} : (s.hostRead g).Sound l :=
  h.count64.count64.txRequest.rxTlp

theorem hostFail (h : s.Sound l) {g n q r detail} : (s.hostFail g n q r detail).Sound l :=
  ite_both h (h.engStop.recordErr.txRequest.takeFresh.elseIf (·.rxTlp))

theorem dmaPut (h : s.Sound l) {g d q c k b data} : SoundOpt l (s.dmaPut g d q c k b data) :=
  ite_both (.some h.toHost) (ite_both (ite_both (.some h.sendRequest) .none) (ite_both .none (.some h.agentWrite)))

theorem readParts {s : State} (h : s.Sound l) {a addr ps} : (s.readParts a addr ps).Sound l := by
  induction ps generalizing s with
  | nil => exact .data h
  | cons p ps ih =>
    unfold State.readParts
    split
    next => exact .wait
    next e => exact .poison (h.eread.of_poison e)
    next e =>
      have hrest := ih (h.eread.of_ok e)
      split
      next => exact .wait
      next e' => exact .poison (hrest.of_poison e')
      next e' => exact .data (hrest.of_data e')

theorem pieceSrc (h : s.Sound l) {g d c r b n host} : (s.pieceSrc g d c r b n host).Sound l :=
  ite_both (.data h) (ite_both (ite_both (.data h.hostRead) .wait) h.readParts)

theorem putPiece (h : s.Sound l) {g d q c r b data} : (s.putPiece g d q c r b data).Sound l := by
  unfold State.putPiece
  split
  · exact .stall
  next s e0 => exact .go (h.dmaPut.of_eq e0)

theorem movePiece (h : s.Sound l) {g d q c r b n host} : (s.movePiece g d q c r b n host).Sound l := by
  unfold State.movePiece
  split
  next => exact .stall
  next e => exact (h.pieceSrc.of_data e).putPiece
  next t data e =>
    refine ite_both (.stop (h.pieceSrc.of_poison e)) ?_
    have hput : (t.putPiece g d q c r b data).Sound l := (h.pieceSrc.of_poison e).putPiece
    split
    next e' => exact .stop (hput.of_go e')
    next => exact hput

theorem askPiece (h : s.Sound l) {g d q c r b n} : (s.askPiece g d q c r b n).Sound l :=
  ite_both (.go h.sendRequest) .stall

theorem writePiecesOf {s : State} (h : s.Sound l) {a q addr b ps d} : (s.writePiecesOf a q addr b ps d).Sound l :=
  match ps with
  | [] => h
  | _ :: _ => ite_both h h.agentWrite.writePiecesOf

theorem moveRow (h : s.Sound l) {g d q c r b} : (s.moveRow g d q c r b).Sound l := by
  unfold State.moveRow
  refine ite_both .stall ?_
  split
  · exact .stall
  next s _ e5 => exact .go ((h.readParts.of_data e5).writePiecesOf)
  next s _ e5 => exact .stop ((h.readParts.of_poison e5).writePiecesOf)

theorem scrubLine (h : s.Sound l) {g d q c r b bad} : (s.scrubLine g d q c r b bad).Sound l := by
  unfold State.scrubLine
  dsimp only
  refine ite_both .stall ?_
  split
  · exact .stall
  next s _ e5 => exact .stop (h.agentWrite.eread.of_poison e5)
  next s _ e5 => exact ite_both (.stop (h.agentWrite.eread.of_ok e5)) (.go (h.agentWrite.eread.of_ok e5))

theorem dmaUnit (h : s.Sound l) {g d q host bad r} : (State.dmaUnit g d q host bad s r).Sound l :=
  ite_both (.stop h) (ite_both (.fin h) (ite_both h.scrubLine (ite_both (.stop h.recordErr) (ite_both h.askPiece (ite_both h.moveRow h.movePiece)))))

theorem dmaWork (h : s.Sound l) {g d q op host bad} : (s.dmaWork g d q op host bad).Sound l :=
  h.setRun.engWork fun _ _ h => h.dmaUnit

theorem hostReadFail (h : s.Sound l) {g d q} : (s.hostReadFail g d q).Sound l :=
  ite_both h.hostFail h

theorem descComplete (h : s.Sound l) {g n q} : (s.descComplete g n q).Sound l := by
  unfold State.descComplete
  refine ite_both h ?_
  split
  · exact ite_both h h.engComplete
  · exact h.engFinish
  · exact h

theorem dropRequest (h : s.Sound l) {r} : (s.dropRequest r).Sound l :=
  h.other

theorem requestFail (h : s.Sound l) {r} : (s.requestFail r).Sound l := by
  unfold State.requestFail
  split
  · exact h.dropRequest.cairnFail
  · exact h.dropRequest.other.engStop

theorem requestFails (h : s.Sound l) {r} : (s.requestFails r).Sound l := by
  unfold State.requestFails
  split
  · exact ite_both h h.requestFail
  · exact h.requestFail

theorem replyWrite (h : s.Sound l) {g d r data} : SoundOpt l (s.replyWrite g d r data) :=
  ite_both (.some h.toHost) (ite_both .none (.some h.agentWrite))

theorem readReply (h : s.Sound l) {who k} : (s.readReply who k).Sound l := by
  unfold State.readReply
  dsimp only
  split
  · exact h
  · refine ite_both h ?_
    refine ite_both h.requestFails ?_
    split
    · exact h
    · split
      · exact h
      next s e5 => exact ((h.replyWrite.of_eq e5).setRun).dropRequest

theorem writeAck (h : s.Sound l) {who k} : (s.writeAck who k).Sound l := by
  unfold State.writeAck
  split
  · exact h
  · refine ite_both h ?_
    refine ite_both h.requestFails ?_
    split
    · exact h.dropRequest.cairnHead
    · exact h.dropRequest

theorem requestTimeout (h : s.Sound l) {who tag} : (s.requestTimeout who tag).Sound l := by
  unfold State.requestTimeout
  split
  · exact h
  · exact h.requestFails

end State.Sound
end Sys2Proof.Machine
end

