-- ==== Sys2Proof/Proofs/SoundModule.lean ====
section
/-!
SUPPORT. The operations of the module keep a state sound: the host, updates, power and time, control writes, settling, and what the commands
add to them.
-/
namespace Sys2Proof.Machine
namespace State.Sound
variable {l : List Instr} {s : State}

/-! ### Operations of Machine/Host.lean -/

theorem setDbout (h : s.Sound l) {g b} : (s.setDbout g b).Sound l :=
  h.setField

theorem doorbell (h : s.Sound l) {g} : (s.doorbell g).Sound l :=
  ite_both h (ite_both h.setDbout.sealDrop (ite_both h.setDbout.receive.count64 h.setDbout.receive.recordErr.setDbout))

theorem writeIndex (h : s.Sound l) {a g off entries v} : (s.writeIndex a g off entries v).1.Sound l := by
  unfold State.writeIndex
  split
  · exact h.setLive
  · exact h.ctlError

theorem writeSqTail (h : s.Sound l) {a g v} : (s.writeSqTail a g v).Sound l := by
  unfold State.writeSqTail
  refine ite_both h ?_
  split
  next s e1 => exact (of_fst h.writeIndex e1).doorbell
  next s e1 => exact (of_fst h.writeIndex e1)

theorem writeSqHead (h : s.Sound l) {a g v} : (s.writeSqHead a g v).Sound l := by
  unfold State.writeSqHead
  split
  next s e0 => exact ((of_fst h.writeIndex e0).setDbout).doorbell
  next s e0 => exact (of_fst h.writeIndex e0)

theorem writeCqHead (h : s.Sound l) {a g v} : (s.writeCqHead a g v).Sound l :=
  ite_both h h.writeIndex

theorem writeRaise (h : s.Sound l) {a g v} : (s.writeRaise a g v).Sound l :=
  ite_both h.raiseMsix h.ctlError

theorem setPosts (h : s.Sound l) {g ls} : (s.setPosts g ls).Sound l :=
  h.other

theorem makePost (h : s.Sound l) {g v} : (s.makePost g v).Sound l :=
  ite_both h.ctlError <| ite_both h.recordErr <| ite_both h.memRead.recordErr <| ite_both h.memRead.accessError.recordErr <|
    h.memRead.toHost.count64.setLive.thenIf (·.raiseMsix)

theorem runPosts {s : State} (h : s.Sound l) {g n} : (s.runPosts g n).Sound l := by
  induction n generalizing s with
  | zero => exact h
  | succ n ih =>
    unfold State.runPosts
    split
    · exact h
    · exact ite_both h (ih h.setPosts.makePost)

theorem allPosts (h : s.Sound l) : (s.allPosts).Sound l :=
  h.foldl fun _ _ h => h.runPosts

theorem writeCqPost (h : s.Sound l) {a g v} : (s.writeCqPost a g v).Sound l :=
  ite_both h (ite_both h.ctlError h.setPosts.runPosts)

theorem unmask (h : s.Sound l) {fn entry} : (s.unmask fn entry).Sound l :=
  ite_both h.setField.msixSend h

theorem writeMsix (h : s.Sound l) {fn off v} : (s.writeMsix fn off v).Sound l :=
  h.setLive.unmask

theorem freeBytes {s : State} (h : s.Sound l) {n} : (s.freeBytes n).1.Sound l :=
  match n with
  | 0 => h
  | _ + 1 => h.takeFresh.freeBytes

theorem countBar2 (h : s.Sound l) {a n} : (s.countBar2 a n).Sound l :=
  h.count64.count64

theorem countReplays (h : s.Sound l) {n} : (s.countReplays n).Sound l :=
  ite_both h h.count64

theorem bar2Serve (h : s.Sound l) {r} : (s.bar2Serve r).Sound l := by
  unfold State.bar2Serve
  split
  · exact h.countBar2.memWrite
  · exact ite_both h.countBar2.memRead.freeBytes.emit h.countBar2.memRead.emit

theorem bar2Work {s : State} (h : s.Sound l) {n} : (s.bar2Work n).Sound l := by
  induction n generalizing s with
  | zero => exact h
  | succ n ih =>
    unfold State.bar2Work
    split
    · exact h
    · exact ite_both h (ih h.other.bar2Serve)

theorem bar2 (h : s.Sound l) {r} : (s.bar2 r).Sound l :=
  h.elseIf fun h => h.countReplays.rxTlp.elseIf fun h => ite_both (h.countSat.thenIf (·.emit)) h.other.bar2Work

theorem pf0FlrBegin (h : s.Sound l) : (s.pf0FlrBegin).Sound l :=
  (((h.foldl fun _ _ h => h.flrBegin).clearLive).clearLive).other

theorem setLstat (h : s.Sound l) {state width rate} : (s.setLstat state width rate).Sound l :=
  h.setLive

theorem pcieReset (h : s.Sound l) {k} : (s.pcieReset k).Sound l := by
  unfold State.pcieReset
  split
  · exact h.pf0FlrBegin.other.other.setLstat
  · exact ite_both h.pf0FlrBegin.other.setLstat h.pf0FlrBegin.other.setLstat

theorem perstDeassert (h : s.Sound l) : (s.perstDeassert).Sound l :=
  ite_both h.other.setLstat h

theorem pcieUp (h : s.Sound l) {u} : (s.pcieUp u).Sound l :=
  ite_both h.setLstat h

theorem pcieNotUp (h : s.Sound l) : (s.pcieNotUp).Sound l :=
  ite_both h.recordErr h

theorem cfgWrite (h : s.Sound l) {fn r v} : (s.cfgWrite fn r v).Sound l := by
  unfold State.cfgWrite
  dsimp only
  split
  · split
    · exact h.other
    · exact h
  · split
    · exact h.other
    · exact h
  · exact h

theorem config (h : s.Sound l) {fn r} : (s.config fn r).Sound l := by
  unfold State.config
  dsimp only
  refine ite_both h (ite_both h.rxTlp.emit (ite_both h.rxTlp.emit ?_))
  split
  · exact (rxTlp (ite_both h.other h)).emit
  · split
    · exact h.rxTlp.emit
    · exact (h.freeBytes (n := 4)).rxTlp.emit
  · exact h.cfgWrite.rxTlp.emit

/-! ### Operations of Machine/Update.lean -/

theorem setUpd (h : s.Sound l) {state reason} : (s.setUpd state reason).Sound l :=
  h.setLive

theorem updBegin (h : s.Sound l) : (s.updBegin).Sound l :=
  h.wipeSlot.setUpd.setLive

theorem updErased (h : s.Sound l) : (s.updErased).Sound l :=
  ite_both h.setUpd h

theorem updAppend (h : s.Sound l) {v} : (s.updAppend v).Sound l :=
  h.setFlash.setLive

theorem writeUpdData (h : s.Sound l) {a v} : (s.writeUpdData a v).Sound l :=
  ite_both h.updAppend h.ctlError

theorem updVerified (h : s.Sound l) : (s.updVerified).Sound l :=
  ite_both h (ite_both h.setUpd h.setUpd)

theorem updAbort (h : s.Sound l) : (s.updAbort).Sound l :=
  h.wipeSlot.setUpd.other

theorem updControl (h : s.Sound l) {a bit} : (s.updControl a bit).Sound l := by
  unfold State.updControl
  refine ite_both h.ctlError ?_
  split
  · exact h.updBegin
  · exact h.setUpd
  · exact h.other
  · exact h.updAbort

theorem writeUpdCtl (h : s.Sound l) {a v} : (s.writeUpdCtl a v).Sound l :=
  h.foldl fun _ _ h => ite_both h.updControl h

theorem handoverWork (h : s.Sound l) : (s.handoverWork).Sound l :=
  ite_both h.setUpd.other h

theorem sendDeferred (h : s.Sound l) : (s.sendDeferred).Sound l :=
  h.foldl fun _ _ h => h.unmask

theorem handoverEnd (h : s.Sound l) : (s.handoverEnd).Sound l :=
  ite_both h h.other.setFlash.setUpd.sendDeferred

theorem handoverLate (h : s.Sound l) : (s.handoverLate).Sound l :=
  ite_both h h.other.setUpd.sendDeferred

theorem writeRollfwd (h : s.Sound l) {a v} : (s.writeRollfwd a v).Sound l :=
  ite_both h.other h.ctlError

theorem spdm (h : s.Sound l) {f} (hf : ∀ s : State, s.Sound l → (f s).Sound l) : (s.spdm f).Sound l :=
  ite_both h (ite_both h.emit (hf s h))

theorem spdmError (h : s.Sound l) : (s.spdmError).Sound l :=
  h.emit

theorem signed (h : s.Sound l) {content f} : (s.signed content f).Sound l := by
  unfold State.signed
  split
  · exact h.takeFresh.emit
  · exact h.spdmError

theorem negotiate (h : s.Sound l) {g} : (s.negotiate g).Sound l :=
  ite_both h.other.emit h.spdmError

theorem certificate (h : s.Sound l) {slot} : (s.certificate slot).Sound l :=
  ite_both h.emit h.spdmError

theorem challenge (h : s.Sound l) {slot nonce} : (s.challenge slot nonce).Sound l :=
  ite_both h.signed h.spdmError

theorem measurements (h : s.Sound l) {idx nonce} : (s.measurements idx nonce).Sound l :=
  ite_both h.spdmError h.signed

theorem keyExchange (h : s.Sound l) {share} : (s.keyExchange share).Sound l :=
  ite_both h.spdmError h.other.signed

theorem keyStream (h : s.Sound l) {session m} : (s.keyStream session m).Sound l := by
  unfold State.keyStream
  refine ite_both h.spdmError ?_
  split
  · exact h.streamEnd.emit
  · exact h.other.emit

theorem lockHall (h : s.Sound l) {g session stream} : (s.lockHall g session stream).Sound l := by
  unfold State.lockHall
  dsimp only
  refine ite_both h.emit ?_
  refine ite_both h.spdmError ?_
  split
  · exact h.setMode.modHall.modHall
  · exact h.setMode.modHall.scrubAsk

theorem startTdi (h : s.Sound l) {g} : (s.startTdi g).Sound l :=
  ite_both h.setMode.emit h.spdmError

theorem stopTdi (h : s.Sound l) {g} : (s.stopTdi g).Sound l :=
  ite_both h.modHall.endTenancy h.spdmError

theorem sensorReading (h : s.Sound l) {id} : (s.sensorReading id).Sound l := by
  unfold State.sensorReading
  refine ite_both h.emit ?_
  refine ite_both h.emit ?_
  split <;> exact h.emit

theorem pldmRequest (h : s.Sound l) : (s.pldmRequest).Sound l :=
  ite_both h.emit (ite_both h.emit h.updBegin.other.emit)

/-! ### Operations of Machine/Power.lean -/

theorem fallAll (h : s.Sound l) {ls} : (s.fallAll ls).Sound l :=
  ite_both h ((h.powerStep fun _ h => (h.foldl fun _ _ h => h.setCeiling).follow).foldl fun _ _ h => h.recordErr)

theorem sensorEvent (h : s.Sound l) {id old new} : (s.sensorEvent id old new).Sound l :=
  ite_both h.emit h

theorem takeTemps (h : s.Sound l) {m g} : (s.takeTemps m g).Sound l :=
  (h.foldl fun _ _ h => h.sensorEvent).setLive

theorem telemetry (h : s.Sound l) {m} : (s.telemetry m).Sound l :=
  h.other.count64.setLive.setLive.setLive.setLive.foldl fun _ _ h => h.takeTemps

theorem intervalEnd (h : s.Sound l) {m} : (s.intervalEnd m).Sound l :=
  h.telemetry.other.fallAll

theorem ceilingRise (h : s.Sound l) {r} : (s.ceilingRise r).Sound l :=
  ite_both (h.powerStep fun _ h => h.setCeiling.follow) h

theorem powerChange (h : s.Sound l) : (s.powerChange).Sound l :=
  h.powerStep fun _ h => h.follow

theorem alertOn (h : s.Sound l) : (s.alertOn).Sound l :=
  ite_both h (h.setField.recordErr.other.powerStep fun _ h => h.setCeiling)

theorem alertOff (h : s.Sound l) : (s.alertOff).Sound l :=
  h.setField

theorem throtOn (h : s.Sound l) : (s.throtOn).Sound l :=
  ite_both h h.setField.recordErr.dropCeiling

theorem throtOff (h : s.Sound l) : (s.throtOff).Sound l :=
  h.setField

theorem droop (h : s.Sound l) {g n} : (s.droop g n).Sound l :=
  h.modHall

theorem cleared (h : s.Sound l) : s.cleared.Sound l := by
  have hm := h.memWf
  simp only [State.memWf, Bool.and_eq_true] at hm
  refine ⟨⟨?_, rfl, rfl, rfl, rfl, rfl, fun p hp => absurd hp List.not_mem_nil⟩, h.2⟩
  simp only [State.memWf, State.cleared, Bool.and_eq_true]
  exact ⟨⟨⟨rfl, rfl⟩, rfl⟩, hm.2⟩

theorem unpowered (h : s.Sound l) : (s.unpowered).Sound l :=
  h.cleared.other

theorem romKey (h : s.Sound l) : (s.romKey).Sound l := by
  unfold State.romKey
  split
  · exact h.other
  · exact h

theorem romBoot (h : s.Sound l) : (s.romBoot).Sound l := by
  unfold State.romBoot
  dsimp only
  split <;> exact h.romKey.other

theorem startUp (h : s.Sound l) {failed} : (s.startUp failed).Sound l :=
  ite_both (ite_both h.romBoot (ite_both (h.romBoot.foldl fun _ _ h => h.ifFailed) ((h.romBoot.foldl fun _ _ h => h.ifFailed).setLstat))) h

theorem moduleReset (h : s.Sound l) : (s.moduleReset).Sound l :=
  h.cleared.startUp

theorem writeModrst (h : s.Sound l) {a v} : (s.writeModrst a v).Sound l :=
  ite_both h.moduleReset h.ctlError

theorem loseRef (h : s.Sound l) : (s.loseRef).Sound l :=
  ite_both h.cleared.other h

theorem regainRef (h : s.Sound l) : (s.regainRef).Sound l :=
  ite_both h.other.startUp h

theorem trip (h : s.Sound l) : (s.trip).Sound l :=
  ite_both h.unpowered.other h

theorem powerOn (h : s.Sound l) {failed} : (s.powerOn failed).Sound l :=
  ite_both h h.unpowered.other.startUp

theorem powerOff (h : s.Sound l) : (s.powerOff).Sound l :=
  h.unpowered.other

theorem pldmActivate (h : s.Sound l) : (s.pldmActivate).Sound l :=
  ite_both h.emit (ite_both (ite_both h.emit.moduleReset h.other.emit) h.emit)

theorem tapLoad (h : s.Sound l) {i} : (s.tapLoad i).Sound l :=
  ite_both h.other h

theorem tapIdcode (h : s.Sound l) : (s.tapIdcode).Sound l :=
  ite_both h.other.emit h

theorem tapSample (h : s.Sound l) {pins load} : (s.tapSample pins load).Sound l :=
  ite_both h.other.emit h

theorem tapHold (h : s.Sound l) {i} : (s.tapHold i).Sound l :=
  ite_both h.cleared.other h

theorem tapReset (h : s.Sound l) : (s.tapReset).Sound l :=
  ite_both h (ite_both h.other.startUp h.other)

theorem counts64 (h : s.Sound l) {page off n} : (s.counts64 page off n).Sound l :=
  ite_both h h.count64

theorem withAirHall (h : s.Sound l) {g n} : State.Sound l { s with cores := airHall g n s.cores } := by
  refine h.withCores (risingFrom_airHall _ _ _ h.rising_cores) fun p hp => ?_
  obtain ⟨q, hq, h1, h2⟩ := mem_airHall hp
  obtain ⟨hlt, hok⟩ := h.mem_cores hq
  exact ⟨h1 ▸ hlt, by rwa [Core.shapesOk, h2]⟩

theorem coreClock (h : s.Sound l) {g n} : (s.coreClock g n).Sound l :=
  h.setHall.counts64.counts64.withAirHall

theorem meshClock (h : s.Sound l) {n} : (s.meshClock n).Sound l :=
  have held := h.foldl fun _ _ h => h.elseIf (·.counts64)
  have waiting := held.foldl fun _ _ h => h.foldl fun _ _ h => h.counts64
  waiting.foldl fun _ _ h => h.thenIf fun h => h.foldl fun _ _ h => h.counts64

theorem engClock (h : s.Sound l) {n} : (s.engClock n).Sound l :=
  h.foldl fun _ _ h => h.foldl fun _ _ h => ite_both h.counts64 h

theorem progClock (h : s.Sound l) {g n} : (s.progClock g n).Sound l :=
  ite_both h.setLive h

theorem ctlClock (h : s.Sound l) {n} : (s.ctlClock n).Sound l :=
  ((h.foldl fun _ _ h => h.progClock).counts64).foldl fun _ _ h => ite_both h.setLive64 h

theorem pass (h : s.Sound l) {n} : (s.pass n).Sound l :=
  (((h.other.foldl fun _ _ h => h.coreClock).elseIf (·.meshClock)).elseIf (·.engClock)).elseIf (·.ctlClock)

theorem advance (h : s.Sound l) {n} : (s.advance n).Sound l :=
  ite_both h (ite_both h.pass h.pass.powerChange.pass)

theorem tick (h : s.Sound l) : (s.tick).Sound l :=
  h.advance

theorem passTo (h : s.Sound l) {t} : (s.passTo t).Sound l :=
  ite_both h.advance h

/-! ### Operations of Machine/CtlWrite.lean -/

theorem clearErr (h : s.Sound l) {p v} : (s.clearErr p v).Sound l :=
  h.setLive.thenIf (·.setLive)

theorem injectErr (h : s.Sound l) {p v} : (s.injectErr p v).Sound l :=
  h.foldl fun _ _ h => ite_both h.recordErr h

theorem writeCommit (h : s.Sound l) {p v} : (s.writeCommit p v).Sound l :=
  ite_both h.commitGo (ite_both h.commitRevert h)

theorem writeCtl (h : s.Sound l) {a b inst v} : (s.writeCtl a b inst v).Sound l := by
  unfold State.writeCtl
  split
  · exact h.writeHallCtl
  · exact h.writeRetrain
  · exact h

theorem writeHeader (h : s.Sound l) {a p off b inst v} : (s.writeHeader a p off b inst v).Sound l :=
  ite_both h.writeCtl (ite_both h.clearErr (ite_both h.setLive (ite_both h.injectErr (ite_both h.writeCommit h))))

theorem writeTable (h : s.Sound l) {a c r v} : (s.writeTable a c r v).Sound l := by
  unfold State.writeTable
  refine ite_both h.ctlError ?_
  split
  · exact h.setLive
  · exact h.setLive
  · exact h.setLive
  · exact h.modThread

theorem writeCoreQctl (h : s.Sound l) {c v} : (s.writeCoreQctl c v).Sound l :=
  h.foldl fun _ _ h => ite_both h.discard h

theorem whileStopped (h : s.Sound l) {a g p off f} (hf : ∀ s : State, s.Sound l → (f s).Sound l) : (s.whileStopped a g p off f).Sound l :=
  ite_both (hf s h) h.ctlError

theorem writeDrip (h : s.Sound l) {a u v} : (s.writeDrip a u v).Sound l := h.whileStopped fun _ h => h.setLive

theorem writeRound (h : s.Sound l) {a c u v} : (s.writeRound a c u v).Sound l := h.whileStopped fun _ h => h.modCore fun _ => by rfl

theorem writeTallyClr (h : s.Sound l) {u v} : (s.writeTallyClr u v).Sound l :=
  h.foldl fun _ _ h => ite_both h.tallyClear h

theorem writeLhalt (h : s.Sound l) {x v} : (s.writeLhalt x v).Sound l :=
  ite_both h (ite_both h.modThread (ite_both h.modThread (ite_both h.modThread h)))

theorem writeLchabort (h : s.Sound l) {a c v} : (s.writeLchabort a c v).Sound l :=
  h.foldl fun _ _ h => ite_both h (ite_both h.abortMsg h.ctlError)

theorem writeSalt (h : s.Sound l) {a g v} : (s.writeSalt a g v).Sound l :=
  ite_both h.ctlError (h.whileStopped fun _ h => h.setLive)

theorem writeKick (h : s.Sound l) {a g v} : (s.writeKick a g v).Sound l :=
  ite_both h (ite_both h.progMark h.ctlError)

theorem writeSnapReg (h : s.Sound l) {a g off v} : (s.writeSnapReg a g off v).Sound l :=
  ite_both h.setLive h.ctlError

theorem writeMemctl (h : s.Sound l) {a g off v} : (s.writeMemctl a g off v).Sound l :=
  ite_both h.setLive (ite_both h.writeCgo (ite_both h.writeCkctl (ite_both h.writeRestore h.writeSnapReg)))

theorem writeEngine (h : s.Sound l) {a g n off v} : (s.writeEngine a g n off v).Sound l :=
  ite_both h.writeTallyClr (ite_both h.writeDrip (ite_both h.writeProd h.writeQCtl))

theorem writeHost (h : s.Sound l) {a g off v} : (s.writeHost a g off v).Sound l :=
  ite_both h.writeSqTail <| ite_both h.writeSqHead <| ite_both h.writeCqHead <| ite_both h.writeCqPost <| ite_both h.writeRaise <|
    ite_both h.writeMsix h.writeMsix

theorem writeSecurity (h : s.Sound l) {a ord off v} : (s.writeSecurity a ord off v).Sound l :=
  ite_both (ite_both h.writeRollfwd h.writeScrubReq) (ite_both h.setLive (ite_both h.writeUpdCtl h.writeUpdData))

theorem writeCore (h : s.Sound l) {a c off v} : (s.writeCore a c off v).Sound l :=
  ite_both h.writeDrip <| ite_both h.writeDrip <| ite_both h.writeCoreQctl <| ite_both h.writeTable <| ite_both h.writeTable <|
    ite_both h.writeTable h.writeTable

theorem writeLantern (h : s.Sound l) {a c off v} : (s.writeLantern a c off v).Sound l :=
  ite_both h.writeLhalt (ite_both h.writeLchabort h.setLive)

theorem writeReg (h : s.Sound l) {a p off b inst ord v} : (s.writeReg a p off b inst ord v).Sound l := by
  unfold State.writeReg
  split
  · exact h.writeModrst
  · exact h.writeSecurity
  · exact h.writeHost
  · exact h.writeSalt
  · exact h.writeMemctl
  · exact h.writeEngine
  · exact h.writeEngine
  · exact h.writeEngine
  · exact h.writeEngine
  · exact h.writeEngine
  · exact h.writeEngine
  · exact ite_both h.writeSuspect h.writeReadmit
  · exact h.writeKick
  · exact h.writeCore
  · exact h.writeRound
  · exact h.writeTallyClr
  · exact h.writeLantern
  · exact h

theorem writeWord (h : s.Sound l) {a o v} : (s.writeWord a o v).Sound l := by
  unfold State.writeWord
  refine ite_both h.ctlError ?_
  split
  · exact h.ctlError
  · refine ite_both h.writeHeader ?_
    refine ite_both h.ctlError ?_
    refine ite_both (ite_both h.setStaged h.ctlError) ?_
    refine ite_both h ?_
    split
    · exact h.ctlError
    · exact ite_both h.writeReg h

theorem ctlWriteWord (h : s.Sound l) {a o v} : (s.ctlWriteWord a o v).Sound l := by
  unfold State.ctlWriteWord
  split
  · exact h.writeWord
  · exact h.countSat
  · exact h
  · exact h
  · exact h.ctlError
  · exact h.ctlError

/-! ### Operations of Machine/Settle.lean -/

theorem asRing (h : s.Sound l) {a ring f} (hf : ∀ s : State, s.Sound l → (f s).Sound l) : (s.asRing a ring f).Sound l := by
  unfold State.asRing
  split
  · exact ite_both (hf s h) (hf _ h.modThread).modThread
  · exact hf s h

theorem performPosted {s : State} (h : s.Sound l) {fuel} : (s.performPosted fuel).Sound l := by
  induction fuel generalizing s with
  | zero => exact h
  | succ n ih =>
    unfold State.performPosted
    split
    · exact h
    · exact ih (asRing h.other fun _ h => h.ctlWriteWord)

theorem settleCore (h : s.Sound l) {c} : (s.settleCore c).Sound l :=
  h.pump.releaseCredits.releaseArrivals.dropMet

theorem settleRound (h : s.Sound l) : (s.settleRound).Sound l :=
  ((((h.performPosted.keeperWork.handoverWork.foldl fun _ _ h => h.settleCore).foldl fun _ _ h => h.nearWork).bar2Work).releaseAcks).allPosts

theorem settleN {s : State} (h : s.Sound l) {fuel} : (s.settleN fuel).Sound l := by
  induction fuel generalizing s with
  | zero => exact h
  | succ n ih =>
    unfold State.settleN
    dsimp only
    split
    · exact h.settleRound
    · exact ih h.settleRound

theorem settle (h : s.Sound l) : (s.settle).Sound l :=
  h.settleN

theorem event (h : s.Sound l) {f} (hf : ∀ s : State, s.Sound l → (f s).Sound l) : (s.event f).Sound l := ite_both (hf s h).settle h

theorem does (h : s.Sound l) {f} (hf : ∀ s : State, s.Sound l → (f s).Sound l) : Outcome.Sound l (s.does f) := .next (h.event hf)

end State.Sound

theorem Outcome.Sound.settled {l : List Instr} {o : Outcome} (h : Outcome.Sound l o) : Outcome.Sound l (settled o) := by
  cases h with
  | next h => exact .next h.settle

namespace State.Sound
variable {l : List Instr} {s : State}

theorem writes (h : s.Sound l) {a page off v} : Outcome.Sound l (s.writes a page off v) := h.does fun _ h => h.ctlWriteWord

theorem reads (h : s.Sound l) {a page off} : Outcome.Sound l (s.reads a page off) :=
  h.does fun _ h => ite_both h (ite_both h.emit h.ctlReadWord.emit)

theorem barError (h : s.Sound l) {w off write} : (s.barError w off write).Sound l := by
  unfold State.barError
  split
  · exact h.ctlError
  · exact h.accessError

theorem barRead (h : s.Sound l) {w off} : (s.barRead w off).st.Sound l := by
  unfold State.barRead
  split
  · exact h.ctlReadWord
  · exact h.barError

theorem barWrite (h : s.Sound l) {w off v} : (s.barWrite w off v).Sound l := by
  unfold State.barWrite
  split
  · exact h.ctlWriteWord
  · exact h.barError

theorem barReads (h : s.Sound l) {w off n} : (s.barReads w off n).Sound l :=
  ite_both h.emit (ite_both h.barError.emit (ite_both h.barRead.emit h.barRead.barRead.emit))

theorem barWrites (h : s.Sound l) {w off d} : (s.barWrites w off d).Sound l :=
  ite_both h.countSat (ite_both h.barError (h.barWrite.elseIf (·.barWrite)))

theorem bar0 (h : s.Sound l) {w r} : (s.bar0 w r).Sound l := by
  unfold State.bar0
  refine ite_both h ?_
  refine ite_both h.countReplays.rxTlp ?_
  refine ite_both (h.countReplays.rxTlp.thenIf (·.emit)) ?_
  split
  · exact h.countReplays.rxTlp.barWrites
  · exact h.countReplays.rxTlp.barReads

/-! ### Operations of Machine/Access.lean -/

theorem postInc (h : s.Sound l) {x f o} : (s.postInc x f o).Sound l :=
  ite_both h.setReg h

theorem addLoad (h : s.Sound l) {x rd v held} : (s.addLoad x rd v held).Sound l :=
  h.modThread

theorem load (h : s.Sound l) {x f} : (s.load x f).Sound l := by
  unfold State.load
  refine ite_both .wait ?_
  split
  · exact .fault h
  · exact ite_both (.done h.holdAccess.addLoad.postInc) (ite_both .held (ite_both (.fault h.busRead) (.done h.busRead.addLoad.postInc)))

theorem store (h : s.Sound l) {x f} : (s.store x f).Sound l := by
  unfold State.store
  dsimp only
  split
  · exact .fault h
  · exact ite_both (.done h.holdAccess.postInc) (ite_both .held (.done h.busWrite.postInc))

theorem loadSeg (h : s.Sound l) {x i dst src off} : (s.loadSeg x i dst src off).Sound l := by
  unfold State.loadSeg
  dsimp only
  split
  · exact .fault h
  · refine ite_both (.done h.holdAccess) (ite_both .held ?_)
    split
    · exact .fault h.busRead
    · exact .done h.busRead.modThread

theorem storeSeg (h : s.Sound l) {x i src dst off} : (s.storeSeg x i src dst off).Sound l := by
  unfold State.storeSeg
  dsimp only
  split
  · exact .fault h
  · exact ite_both (.done h.holdAccess) (ite_both .held (.done h.busWrite))

theorem ringReturn (h : s.Sound l) {x gate} : (s.ringReturn x gate).Sound l := by
  unfold State.ringReturn
  dsimp only
  split
  · exact .fault h
  · refine ite_both .held (ite_both (.fault h.busRead) ?_)
    split
    · exact .raise h.busRead.writeRflt
    · exact .entered h.busRead.restoreFrame.modThread

theorem gateFault (h : s.Sound l) {x n code arg} : (s.gateFault x n code arg).Sound l :=
  .raise h.writeRflt

theorem gateEnter (h : s.Sound l) {x n g} : (s.gateEnter x n g).Sound l := by
  unfold State.gateEnter
  dsimp only
  refine ite_both h.gateFault ?_
  split
  next => exact .wait
  next =>
    refine ite_both h.gateFault (ite_both h.gateFault ?_)
    split
    next e => exact (of_fst h.handlerCode e).gateFault
    next e =>
      have hcode := of_fst h.handlerCode e
      split
      next => exact hcode.gateFault
      next =>
        split
        next e' => exact (of_fst hcode.entryStack e').gateFault
        next e' => exact ite_both .held (.entered (of_fst hcode.entryStack e').pushFrame)

theorem gateCall (h : s.Sound l) {x n} : (s.gateCall x n).Sound l := by
  unfold State.gateCall
  refine ite_both .held ?_
  refine ite_both h.gateFault ?_
  split
  next s e3 => exact (of_fst h.chamber16 e3).gateFault
  next s _ e3 => exact (of_fst h.chamber16 e3).gateEnter

/-! ### Operations of Machine/Control.lean -/

theorem callTo (h : s.Sound l) {x target} : (s.callTo x target).Sound l := by
  unfold State.callTo
  split
  · exact .fault h
  · exact .jump h.setThread

/-! ### Operations of Machine/Cipher.lean -/

theorem sm4Begin (h : s.Sound l) {g r} : (State.sm4Begin g s r).Sound l := by
  unfold State.sm4Begin
  dsimp only
  split
  · exact .stall
  next s _ e2 => exact .stop (h.eread.of_poison e2)
  next s _ e2 =>
    split
    · exact .stall
    next s _ e3 => exact .stop (((ite_both ((h.eread.of_ok e2).eread) (.ok (h.eread.of_ok e2))).of_poison e3))
    next s _ e3 => exact .go (((ite_both ((h.eread.of_ok e2).eread) (.ok (h.eread.of_ok e2))).of_ok e3))

theorem sm4End (h : s.Sound l) {g q enc r} : (State.sm4End g q enc s r).Sound l :=
  ite_both (.fin h) (ite_both (ite_both .stall (.fin h.agentWrite)) (.fin h))

theorem sm4Unit (h : s.Sound l) {g q enc r} : (State.sm4Unit g q enc s r).Sound l := by
  unfold State.sm4Unit
  refine ite_both (.stop h) ?_
  refine ite_both (.fin h) ?_
  refine ite_both h.sm4Begin ?_
  refine ite_both h.sm4End ?_
  refine ite_both .stall ?_
  split
  · exact .stall
  next s _ e9 => exact .stop (h.eread.of_poison e9)
  next s _ e9 => exact .go ((h.eread.of_ok e9).agentWrite)

theorem sm3Unit (h : s.Sound l) {g q r} : (State.sm3Unit g q s r).Sound l := by
  unfold State.sm3Unit
  refine ite_both (.stop h) ?_
  refine ite_both (.fin h) ?_
  refine ite_both .stall ?_
  split
  · exact .stall
  next s _ e7 => exact .stop (((ite_both (.ok h) h.eread).of_poison e7))
  next s _ e7 => exact ite_both (.go (((ite_both (.ok h) h.eread).of_ok e7))) (.fin ((((ite_both (.ok h) h.eread).of_ok e7)).agentWrite))

/-! ### Operations of Machine/Events.lean -/

theorem wordFault (h : s.Sound l) {x} : (s.wordFault x).Sound l := by
  unfold State.wordFault
  refine ite_both h ?_
  split
  next s' _ e2 => exact ((of_fst h.fetch e2).faultAt).getD h
  next s' _ e2 =>
    refine ite_both (((of_fst h.fetch e2).faultAt).getD h) ?_
    split
    · exact ((of_fst h.fetch e2).faultAt).getD h
    · exact h

theorem enterException (h : s.Sound l) {x} : (s.enterException x).Sound l := by
  unfold State.enterException
  refine ite_both h ?_
  split
  · exact h.takeBoundary.getD h
  · exact h.wordFault

theorem emergency (h : s.Sound l) {x} : (s.emergency x).1.Sound l := by
  unfold State.emergency
  dsimp only
  split
  next s e1 => exact (of_fst h.tableEntry e1)
  next s _ e1 =>
    split
    · exact (of_fst h.tableEntry e1)
    · split
      next s e3 => exact (of_fst ((of_fst h.tableEntry e1).handlerCode) e3)
      next s _ e3 =>
        split
        next s e4 => exact (of_fst (((of_fst ((of_fst h.tableEntry e1).handlerCode) e3)).selected) e4)
        next s _ e4 => split <;> exact (of_fst (((of_fst ((of_fst h.tableEntry e1).handlerCode) e3)).selected) e4)

theorem resetByFault (h : s.Sound l) {c} : (s.resetByFault c).Sound l :=
  h.coreReset.hardFault

theorem enterDouble (h : s.Sound l) {x fe e code stk} : (s.enterDouble x fe e code stk).Sound l :=
  h.writeRflt.pushFrame.modThread.abandon

theorem doubleFault (h : s.Sound l) {x} : (s.doubleFault x).Sound l := by
  unfold State.doubleFault
  split
  · exact h
  · refine ite_both h.resetByFault ?_
    refine ite_both h ?_
    split
    next s e3 => exact (of_fst h.emergency e3).resetByFault
    next t _ _ _ e3 => exact ite_both h ((of_fst h.emergency e3).enterDouble)

theorem badAir (h : s.Sound l) {c} : (s.badAir c).Sound l := by
  unfold State.badAir
  refine ite_both ?_ h
  split
  · exact (h.setCore (by rfl)).modThread.countSat
  · exact h

theorem timerMatch (h : s.Sound l) {x} : (s.timerMatch x).Sound l :=
  ite_both h.modThread.pend h

/-! ### Operations of Machine/QueueOps.lean -/

theorem queueIn (h : s.Sound l) {x i vals segs} : Outcome.Sound l (s.queueIn x i vals segs) :=
  (h.run fun _ h => h.enqueue).settled

theorem commitOldest (h : s.Sound l) {c} : (s.commitOldest c).Sound l := by
  unfold State.commitOldest
  split
  · split
    · exact ite_both (h.commitMma.modCore fun _ => by rfl) h
    · exact h
  · exact h

theorem comeToRest (h : s.Sound l) {c} : (s.comeToRest c).Sound l :=
  ite_both (h.modCore fun _ => by rfl) h

theorem openWindow (h : s.Sound l) : (s.openWindow).Sound l :=
  ite_both h.other h

theorem grant (h : s.Sound l) {c} : (s.grant c).Sound l := by
  unfold State.grant
  split
  · exact h
  · split
    · exact h
    · split
      · exact (h.count64.modCore fun _ => by rfl).startMma
      · exact h

theorem groupSlot (h : s.Sound l) {g} : (s.groupSlot g).Sound l := by
  unfold State.groupSlot
  split
  · exact h
  · exact ite_both h (h.foldl fun _ _ h => h.grant)

/-! ### Operations of Machine/MsgOps.lean -/

theorem atCore (h : s.Sound l) {c f} (hf : ∀ s : State, s.Sound l → (f s).Sound l) : (s.atCore c f).Sound l := ite_both h.sealDrop (hf s h)

/-! ### Operations of Machine/PageOps.lean -/

theorem passToSafe (h : s.Sound l) {p} : (s.passToSafe p).Sound l :=
  ite_both h.passTo h

/-! ### Operations of Machine/Sorting.lean -/

theorem freshBytes {s : State} (h : s.Sound l) {n} : (s.freshBytes n).1.Sound l :=
  match n with
  | 0 => h
  | _ + 1 => h.takeFresh.freshBytes

theorem soilScratch (h : s.Sound l) {g q d} : (s.soilScratch g q d).Sound l :=
  ite_both h h.freshBytes.agentWrite

theorem writeSorted (h : s.Sound l) {g q d ls} : (s.writeSorted g q d ls).Sound l :=
  h.soilScratch.agentWrite.agentWrite

theorem sortUnit (h : s.Sound l) {g q r} : (State.sortUnit g q s r).Sound l := by
  unfold State.sortUnit
  refine ite_both (.stop h) ?_
  refine ite_both (.fin h) ?_
  refine ite_both .stall ?_
  split
  · exact .stall
  next s _ e5 => exact .stop (h.eread.of_poison e5)
  next s _ e5 =>
    split
    · exact .stall
    next s _ e6 => exact .stop (((ite_both ((h.eread.of_ok e5).eread) (.ok (h.eread.of_ok e5))).of_poison e6))
    next s _ e6 => exact .fin ((((ite_both ((h.eread.of_ok e5).eread) (.ok (h.eread.of_ok e5))).of_ok e6)).writeSorted)

theorem sampleUnit (h : s.Sound l) {g q r} : (State.sampleUnit g q s r).Sound l := by
  unfold State.sampleUnit
  refine ite_both (.stop h) ?_
  refine ite_both (.fin h) ?_
  refine ite_both .stall ?_
  split
  · exact .stall
  next s _ e5 => exact .stop (h.eread.of_poison e5)
  next s _ e5 => exact .go ((h.eread.of_ok e5).agentWrite)

/-! ### Operations of Machine/Squeeze.lean -/

theorem expandEnd (h : s.Sound l) {r} : (expandEnd s r).Sound l :=
  ite_both (.stop h) (.fin h)

theorem expandWrite (h : s.Sound l) {g q r plen out} : (State.expandWrite g q s r plen out).Sound l :=
  ite_both .stall (.go h.agentWrite)

theorem expandUnit (h : s.Sound l) {g q r} : (State.expandUnit g q s r).Sound l := by
  unfold State.expandUnit
  refine ite_both (.stop h) ?_
  refine ite_both h.expandEnd ?_
  split
  · exact .stall
  next s _ e6 => exact .stop (h.eread.of_poison e6)
  next s _ e6 =>
    refine ite_both (.stop (h.eread.of_ok e6)) ?_
    split
    · exact .stall
    next s _ e10 => exact .stop ((((h.eread.of_ok e6).eread).of_poison e10))
    next s _ e10 =>
      split
      · exact .stop ((((h.eread.of_ok e6).eread).of_ok e10))
      · exact ite_both (.stop ((((h.eread.of_ok e6).eread).of_ok e10))) (((((h.eread.of_ok e6).eread).of_ok e10)).expandWrite)

/-! ### Operations of Machine/KeeperOps.lean -/

theorem progressFire (h : s.Sound l) {g} : (s.progressFire g).Sound l :=
  ite_both h (ite_both h.modHall.recordErr.countSat.keeperNotice.raiseMsix.modHall.stopPart h.modHall.recordErr.countSat.keeperNotice.raiseMsix)

theorem cairnFails (h : s.Sound l) {g a} : (s.cairnFails g a).Sound l := by
  unfold State.cairnFails
  split
  · exact h.cairnFail
  · split
    · exact ite_both h.cairnFail h
    · exact h
  · exact ite_both h.cairnFail h

theorem scrubLate (h : s.Sound l) {g} : (s.scrubLate g).Sound l := by
  unfold State.scrubLate
  split
  · exact ite_both h h.passTo.scrubEnd
  · exact h

theorem updDoes (h : s.Sound l) {f} (hf : ∀ s : State, s.Sound l → (f s).Sound l) : Outcome.Sound l (s.updDoes f) :=
  .next (ite_both (hf s h).settle h)

theorem updWrites (h : s.Sound l) {a off v} : Outcome.Sound l (s.updWrites a off v) :=
  ite_both (h.updDoes fun _ h => h.ctlWriteWord) h.writes

/-! ### Operations of Machine/Scalar.lean -/

theorem compute (h : s.Sound l) {x i rd v} : Outcome.Sound l (s.compute x i rd v) :=
  h.run fun _ h => .done h.setReg

/-! ### Operations of Machine/System.lean -/

theorem setCom (h : s.Sound l) {c n v} : (s.setCom c n v).Sound l :=
  h.modCore fun _ => by rfl

theorem takeEvents (h : s.Sound l) {x rd m} : (s.takeEvents x rd m).Sound l :=
  h.modThread

theorem putFence (h : s.Sound l) {x src dst publish} : (s.putFence x src dst publish).Sound l :=
  ite_both .held (.done (h.setCore (by rfl)).dropMet)

end State.Sound
end Sys2Proof.Machine
end

