-- ==== Sys2Proof/Proofs/InvariantKept.lean ====
section
/-!
SUPPORT. Every command and the idle step keep a state sound, and the reset state is.
-/
namespace Sys2Proof.Machine

/-- Every command keeps the invariant and the queue: one arm per way in which commands are made of the state's operations. -/
theorem exec_sound {l : List Instr} {s : State} (h : s.Sound l) (c : Instr) : Outcome.Sound l (exec c s) := by
  cases c with
  | op | addi | andi | ori | xori | slti | sltiu | shi | lui | fop => exact h.compute
  | ld => exact h.run fun _ h => h.load
  | loadDataArrive =>
    refine .next ?_
    split
    · exact ite_both h h.modThread
    · exact h
  | st => exact (h.run fun _ h => h.store).settled
  | br | jmp | jmpr => exact h.run fun _ h => .jump h
  | call | callr => exact h.run fun _ h => h.callTo
  | ret =>
    refine h.run fun _ h => ?_
    split
    · exact .fault h
    · exact .jump h.setThread
  | xret | retg => exact (h.run fun _ h => h.ringReturn).settled
  | gate => exact (h.run fun _ h => h.gateCall).settled
  | rep | repL => exact h.run fun _ h => h.prefixed
  | crd | rdcych | trdZero | trdSat | trdNan | rsrd | rdver | rdflt => exact h.run fun _ h => .done h.setReg
  | cwr => exact h.run fun _ h => .done h.setCom
  | cswap | cadd => exact h.run fun _ h => .done h.setCom.setReg
  | signal | park | setpri | settmr => exact h.run fun _ h => .done h.modThread
  | waitAny => exact h.run fun _ h => ite_both .wait (.done h.takeEvents)
  | waitAll => exact h.run fun _ h => ite_both (.done h.takeEvents) .wait
  | lseg => exact h.run fun _ h => h.loadSeg
  | sseg => exact (h.run fun _ h => h.storeSeg).settled
  | rdcyc => exact h.run fun _ h => .done h.modThread.setReg
  | tclr => exact h.run fun _ h => .done h.tallyClear
  | qdisc => exact (h.run fun _ h => .done h.discard).settled
  | rswr => exact h.run fun _ h => ite_both (.done h.modThread) (ite_both (.fault h) (.done h.modThread))
  | brk => exact h.run fun _ h => .fault h
  | fence | publish => exact h.run fun _ h => ite_both (.done h) h.putFence
  | wrch => exact (h.run fun _ h => h.wrch).settled
  | wrchb => exact (h.run fun _ h => h.wrchb).settled
  | close => exact (h.run fun _ h => h.closeMsg).settled
  | messageDepart => exact h.does fun _ h => h.depart
  | recv => exact (h.run fun _ h => h.recv).settled
  | rfree => exact (h.run fun _ h => h.rfree).settled
  | sumparm => exact (h.run fun _ h => h.sumparm).settled
  | arrive => exact (h.run fun _ h => h.arrive).settled
  | waitb => exact (h.run fun _ h => h.waitb).settled
  | vop | vfma | vcmp | vperm | vmac | vaddac | vred | vcvt | vtr | vld | vst | vmvf | vmvt | vmask | tcfg | tshr | tld | tst |
    tldx | tzero | mma | token | dmaq => exact h.queueIn
  | mmaCommit => exact h.does fun _ h => h.commitOldest
  | matrixRest => exact h.does fun _ h => h.comeToRest
  | admissionWindowOpen => exact h.does fun _ h => h.openWindow
  | admissionGroupSlot => exact h.does fun _ h => h.groupSlot
  | tokenComplete => exact h.does fun _ h => h.completeToken
  | coreDmaStart => exact h.does fun _ h => h.startDma
  | coreDmaComplete => exact h.does fun _ h => h.completeDma
  | exceptionEntry => exact h.does fun _ h => h.enterException
  | doubleFaultEntry => exact h.does fun _ h => h.doubleFault
  | coreReset => exact h.does fun _ h => h.coreReset
  | badAir => exact h.does fun _ h => h.badAir
  | cycleTimerMatch => exact h.does fun _ h => h.timerMatch
  | bankAccess => exact h.does fun _ h => h.bankCycle
  | requestPromote => exact h.does fun _ h => h.promote
  | nearMemoryAccess => exact h.does fun _ h => h.nearAccess
  | patrolRead => exact h.does fun _ h => h.patrol
  | interfaceRetrain => exact h.does fun _ h => h.retrainIf
  | cxlAccess => exact h.does fun _ h => h.cxlAccess
  | cxlRequestTimeout => exact h.does fun _ h => h.linkTimeout
  | cxlLinkDown => exact h.does fun _ h => h.linkFail
  | cxlLinkTrained => exact h.does fun _ h => h.linkTrained
  | channelMessage => exact h.does fun _ h => h.meshArrive fun _ h => h.atCore fun _ h => h.receive
  | sumpContribution => exact h.does fun _ h => h.meshArrive fun _ h => h.atCore fun _ h => h.contribute
  | creditReturn => exact h.does fun _ h => h.meshArrive fun _ h => h.atCore fun _ h => h.creditBack
  | sumpDrain => exact h.does fun _ h => h.drain
  | barrierArrive => exact h.does fun _ h => h.barArriveAt
  | barrierRelease => exact h.does fun _ h => h.atCore fun _ h => h.barReleased
  | commitGo | commitRevert | errClear | errInj | registerWrite | hallStart | hallStop | dripWrite | sumpRoundWrite | saltWrite |
    tallyClr | qctlDiscard | tableRegisterWrite | lanternHalt | lanternDeliver | lanternResume | channelAbort | queueProdWrite |
    queueResume | queueDiscard | progKick | cgo | ckctlLoad | ckctlClear | restore | suspect | readmit | sqTailWrite | sqHeadWrite
    | cqHeadWrite | cqPost | raise | scrubReq | rollfwd | modrst => exact h.writes
  | commitCheckEnd => exact h.does fun _ h => h.commitCheckEnd
  | commitApply => exact h.does fun _ h => h.passToSafe.commitApply
  | commitTimeout => exact h.does fun _ h => h.commitTimeout
  | counterLowHalfRead | exterrRead | knoticeRead => exact h.reads
  | hallColumnStart => exact h.does fun _ h => ite_both h.passTo.columnStart h
  | hallStopped => exact h.does fun _ h => h.hallStopped
  | descriptorStart => exact h.does fun _ h => h.engStart
  | descriptorComplete => exact h.does fun _ h => h.descComplete
  | nop => exact h.does fun _ h => h.engWork fun _ _ h => .fin h
  | pool => exact h.does fun _ h => h.engWork fun _ _ h => h.poolUnit
  | scatter => exact h.does fun _ h => h.engWork fun _ _ h => h.scatterUnit
  | sort | topk => exact h.does fun _ h => h.engWork fun _ _ h => h.sortUnit
  | sample => exact h.does fun _ h => h.engWork fun _ _ h => h.sampleUnit
  | expand => exact h.does fun _ h => h.engWork fun _ _ h => h.expandUnit
  | sm4Encrypt | sm4Decrypt => exact h.does fun _ h => h.engWork fun _ _ h => h.sm4Unit
  | sm3 => exact h.does fun _ h => h.engWork fun _ _ h => h.sm3Unit
  | copy | fill | scrub => exact h.does fun _ h => h.dmaWork
  | progressFire => exact h.does fun _ h => h.progressFire
  | cairnPageCopied => exact h.does fun _ h => h.copyPage
  | cairnComplete => exact h.does fun _ h => h.cairnComplete
  | cairnFail => exact h.does fun _ h => h.cairnFails
  | restoreComplete => exact h.does fun _ h => h.restoreImage
  | coreHardFault => exact h.does fun _ h => h.hardFault
  | selfTestEnd => exact h.does fun _ h => h.selfTestEnd
  | bridgeFailure => exact .next (ite_both h.other h)
  | bar2Access => exact h.does fun _ h => h.bar2
  | hostBar0Access => exact h.does fun _ h => h.bar0
  | hostReadFail => exact h.does fun _ h => h.hostReadFail
  | vfFlr => exact h.does fun _ h => ite_both h.flrBegin h
  | pf0Flr => exact h.does fun _ h => ite_both h.pf0FlrBegin h
  | pcieReset => exact ite_both (h.does fun _ h => h.pcieReset) (.next (ite_both h.other h))
  | pcieLinkUp => exact h.does fun _ h => h.pcieUp
  | lockInterfaceRequest => exact h.does fun _ h => h.spdm fun _ h => h.lockHall
  | startInterfaceRequest => exact h.does fun _ h => h.spdm fun _ h => h.startTdi
  | stopInterfaceRequest => exact h.does fun _ h => h.spdm fun _ h => h.stopTdi
  | endOfTenancy =>
    refine h.does fun _ h => ?_
    split
    · exact h.endTenancy
    · exact h.streamFails
  | hallScrubEnd => exact h.does fun _ h => h.scrubEnd
  | scrubTimeout => exact h.does fun _ h => h.scrubLate
  | spdmGetCertificate => exact h.does fun _ h => h.spdm fun _ h => h.certificate
  | spdmChallenge => exact h.does fun _ h => h.spdm fun _ h => h.challenge
  | spdmGetMeasurements => exact h.does fun _ h => h.spdm fun _ h => h.measurements
  | spdmKeyExchange => exact h.does fun _ h => h.spdm fun _ h => h.keyExchange
  | updBegin | updData | updVerify | updActivate | updAbort => exact h.updWrites
  | handoverTimeout => exact h.does fun _ h => ite_both h.passTo.handoverLate h
  | yarlinkPortUp => exact h.does fun _ h => h.portUpEnd
  | portFail => exact h.does fun _ h => h.portFail
  | flitReceive => exact h.does fun _ h => h.flitArrive
  | flitReplay => exact h.does fun _ h => ite_both h h.replay
  | laneFail => exact h.does fun _ h => h.laneFail
  | yarlinkRetrain => exact h.does fun _ h => h.retrainEnd
  | keyRollover => exact h.does fun _ h => h.keyRollover
  | packetRoute => exact h.does fun _ h => h.packetRoute
  | remoteWrite | snapshotCopy => exact h.does fun _ h => h.remoteWrite
  | remoteReadRequest => exact h.does fun _ h => h.remoteRead
  | readReply => exact h.does fun _ h => h.readReply
  | writeAcknowledgement => exact h.does fun _ h => h.writeAck
  | remoteRequestTimeout => exact h.does fun _ h => h.requestTimeout
  | intervalEnd => exact h.does fun _ h => h.passTo.intervalEnd
  | ceilingRise => exact h.does fun _ h => ite_both h.passTo.ceilingRise h
  | powerStateChange => exact h.does fun _ h => h.powerChange
  | currentAlert => exact h.does fun _ h => h.alertOn
  | currentAlertClear => exact h.does fun _ h => h.alertOff
  | thermalTrip => exact .next h.trip
  | sysThrotAssert => exact h.does fun _ h => h.throtOn
  | sysThrotDeassert => exact h.does fun _ h => h.throtOff
  | droopStretch => exact h.does fun _ h => h.droop
  | referenceLoss => exact .next h.loseRef
  | referenceRestored => exact .next h.regainRef
  | powerOn => exact .next h.powerOn
  | powerOff => exact .next h.powerOff
  | bypass => exact .next h.tapLoad
  | idcode => exact .next h.tapIdcode
  | samplePreload => exact .next h.tapSample
  | extest | clamp | highz => exact .next h.tapHold
  | testLogicReset => exact .next h.tapReset
  | pldmGetSensorReading id => exact (h.updDoes fun _ h => h.sensorReading : Outcome.Sound l (execPldmGetSensorReading id s))
  | pldmRequestUpdate => exact h.updDoes fun _ h => h.pldmRequest
  | pldmActivateFirmware => exact h.updDoes fun _ h => h.pldmActivate
  | updEraseComplete => exact h.updDoes fun _ h => h.updErased
  | updVerifyComplete => exact h.updDoes fun _ h => h.updVerified
  | handoverComplete => exact h.does fun _ h => ite_both h.handoverEnd h.handoverLate
  | readmitComplete => exact h.does fun _ h => h.readmitEnd
  | pcieLinkNotBroughtUp => exact h.does fun _ h => h.pcieNotUp
  | perstNDeassert => exact ite_both (h.does fun _ h => h.perstDeassert) (.next h.other)
  | configurationRequest => exact h.does fun _ h => h.config
  | spdmNegotiateAlgorithms => exact h.does fun _ h => h.spdm fun _ h => h.negotiate
  | ideKm => exact h.does fun _ h => h.spdm fun _ h => h.keyStream

theorem Outcome.Sound.of_next {l : List Instr} {o : Outcome} {t : State} (h : Outcome.Sound l o) (e : o = .next t) : t.Sound l := by
  subst e
  cases h
  assumption

theorem exec_inv {c : Instr} {s t : State} (h : s.inv) (e : exec c s = .next t) : t.inv ∧ t.pending = s.pending :=
  (exec_sound ⟨h, rfl⟩ c).of_next e

/-- The queue is none of what the invariant speaks of. -/
theorem step_inv {s t : State} (h : s.inv) (e : step s = .next t) : t.inv := by
  unfold step at e
  split at e
  · exact Host.Outcome.next.inj e ▸ (State.Sound.tick ⟨h, rfl⟩).1
  · next c rest _ =>
    have hrest : State.Sound rest { s with pending := rest } := ⟨h, rfl⟩
    exact ((exec_sound hrest c).of_next e).1

theorem State.inv_reset : State.reset.inv := by
  refine ⟨State.memWf_reset, rfl, rfl, rfl, rfl, rfl, ?_⟩
  exact fun _ h => absurd h List.not_mem_nil

end Sys2Proof.Machine

open Sys2Proof Sys2Proof.Machine

/-- Settles O5: each operation of the state keeps it sound, hence so does each command, which is made of them. -/
theorem invariantKept : Obligations.InvariantKept := by
  unfold Obligations.InvariantKept
  exact fun _ h => ⟨fun _ _ => exec_inv h, fun _ => step_inv h⟩

/-- Settles O6: the tables are empty, and memory is canonical. -/
theorem invariantAtReset : Obligations.InvariantAtReset := by
  unfold Obligations.InvariantAtReset
  exact State.inv_reset

end

