-- ==== Sys2Proof/Proofs/Encoding.lean ====
section
/-!
SUPPORT. The formats of R88, R95, R101, R103, R115, R134, R170, R172, R185 and R203: the fields laid side by side give back the bits they
were read from, and the fields read back are those laid side by side. The three rules say of library lemmas how simp finds them: where the
width of a concatenation stands as one number, the sum in their statement is no key.
-/
namespace Sys2Proof

/-- Neighbouring fields of a word are one field. -/
theorem append_extract {w n m : Nat} (b : BitVec w) (j i : Nat) (h : j = i + m) :
    HAppend.hAppend (γ := BitVec (no_index (n + m))) (b.extractLsb' j n) (b.extractLsb' i m) = b.extractLsb' i (n + m) := by
  ext k hk
  simp only [BitVec.getElem_append, BitVec.getElem_extractLsb', h]
  split
  · rfl
  · congr 1; omega

theorem extract_append_hi {n m : Nat} (a : BitVec n) (b : BitVec m) (i k : Nat) (h : m ≤ i) :
    (HAppend.hAppend (γ := BitVec (no_index (n + m))) a b).extractLsb' i k = a.extractLsb' (i - m) k :=
  BitVec.extractLsb'_append_eq_of_le h

theorem extract_append_lo {n m : Nat} (a : BitVec n) (b : BitVec m) (i k : Nat) (h : i + k ≤ m) :
    (HAppend.hAppend (γ := BitVec (no_index (n + m))) a b).extractLsb' i k = b.extractLsb' i k :=
  BitVec.extractLsb'_append_eq_of_add_le h

/-! ### The formats -/

@[simp] theorem fmtRBits_fmtROfBits (b) : fmtRBits (fmtROfBits b) = b := by
  simp [fmtRBits, fmtROfBits, append_extract]

@[simp] theorem fmtROfBits_fmtRBits (f) : fmtROfBits (fmtRBits f) = f := by
  simp [fmtRBits, fmtROfBits, extract_append_hi, extract_append_lo]

@[simp] theorem fmtIBits_fmtIOfBits (b) : fmtIBits (fmtIOfBits b) = b := by
  simp [fmtIBits, fmtIOfBits, append_extract]

@[simp] theorem fmtIOfBits_fmtIBits (f) : fmtIOfBits (fmtIBits f) = f := by
  simp [fmtIBits, fmtIOfBits, extract_append_hi, extract_append_lo]

@[simp] theorem fmtSBits_fmtSOfBits (b) : fmtSBits (fmtSOfBits b) = b := by
  simp [fmtSBits, fmtSOfBits, append_extract]

@[simp] theorem fmtSOfBits_fmtSBits (f) : fmtSOfBits (fmtSBits f) = f := by
  simp [fmtSBits, fmtSOfBits, extract_append_hi, extract_append_lo]

@[simp] theorem fmtUBits_fmtUOfBits (b) : fmtUBits (fmtUOfBits b) = b := by
  simp [fmtUBits, fmtUOfBits, append_extract]

@[simp] theorem fmtUOfBits_fmtUBits (f) : fmtUOfBits (fmtUBits f) = f := by
  simp [fmtUBits, fmtUOfBits, extract_append_hi, extract_append_lo]

@[simp] theorem fmtMBits_fmtMOfBits (b) : fmtMBits (fmtMOfBits b) = b := by
  simp [fmtMBits, fmtMOfBits, append_extract]

@[simp] theorem fmtMOfBits_fmtMBits (f) : fmtMOfBits (fmtMBits f) = f := by
  simp [fmtMBits, fmtMOfBits, extract_append_hi, extract_append_lo]

@[simp] theorem fmtBBits_fmtBOfBits (b) : fmtBBits (fmtBOfBits b) = b := by
  simp [fmtBBits, fmtBOfBits, append_extract]

@[simp] theorem fmtBOfBits_fmtBBits (f) : fmtBOfBits (fmtBBits f) = f := by
  simp [fmtBBits, fmtBOfBits, extract_append_hi, extract_append_lo]

@[simp] theorem fmtJBits_fmtJOfBits (b) : fmtJBits (fmtJOfBits b) = b := by
  simp [fmtJBits, fmtJOfBits, append_extract]

@[simp] theorem fmtJOfBits_fmtJBits (f) : fmtJOfBits (fmtJBits f) = f := by
  simp [fmtJBits, fmtJOfBits, extract_append_hi, extract_append_lo]

@[simp] theorem fmtKBits_fmtKOfBits (b) : fmtKBits (fmtKOfBits b) = b := by
  simp [fmtKBits, fmtKOfBits, append_extract]

@[simp] theorem fmtKOfBits_fmtKBits (f) : fmtKOfBits (fmtKBits f) = f := by
  simp [fmtKBits, fmtKOfBits, extract_append_hi, extract_append_lo]

@[simp] theorem fmtGBits_fmtGOfBits (b) : fmtGBits (fmtGOfBits b) = b := by
  simp [fmtGBits, fmtGOfBits, append_extract]

@[simp] theorem fmtGOfBits_fmtGBits (f) : fmtGOfBits (fmtGBits f) = f := by
  simp [fmtGBits, fmtGOfBits, extract_append_hi, extract_append_lo]

@[simp] theorem fmtPBits_fmtPOfBits (b) : fmtPBits (fmtPOfBits b) = b := by
  simp [fmtPBits, fmtPOfBits, append_extract]

@[simp] theorem fmtPOfBits_fmtPBits (f) : fmtPOfBits (fmtPBits f) = f := by
  simp [fmtPBits, fmtPOfBits, extract_append_hi, extract_append_lo]

@[simp] theorem fmtLBits_fmtLOfBits (b) : fmtLBits (fmtLOfBits b) = b := by
  simp [fmtLBits, fmtLOfBits, append_extract]

@[simp] theorem fmtLOfBits_fmtLBits (f) : fmtLOfBits (fmtLBits f) = f := by
  simp [fmtLBits, fmtLOfBits, extract_append_hi, extract_append_lo]

@[simp] theorem fmtXBits_fmtXOfBits (b) : fmtXBits (fmtXOfBits b) = b := by
  simp [fmtXBits, fmtXOfBits, append_extract]

@[simp] theorem fmtXOfBits_fmtXBits (f) : fmtXOfBits (fmtXBits f) = f := by
  simp [fmtXBits, fmtXOfBits, extract_append_hi, extract_append_lo]

@[simp] theorem fmtFBits_fmtFOfBits (b) : fmtFBits (fmtFOfBits b) = b := by
  simp [fmtFBits, fmtFOfBits, append_extract]

@[simp] theorem fmtFOfBits_fmtFBits (f) : fmtFOfBits (fmtFBits f) = f := by
  simp [fmtFBits, fmtFOfBits, extract_append_hi, extract_append_lo]

@[simp] theorem fmtCBits_fmtCOfBits (b) : fmtCBits (fmtCOfBits b) = b := by
  simp [fmtCBits, fmtCOfBits, append_extract]

@[simp] theorem fmtCOfBits_fmtCBits (f) : fmtCOfBits (fmtCBits f) = f := by
  simp [fmtCBits, fmtCOfBits, extract_append_hi, extract_append_lo]

@[simp] theorem fmtVopBits_fmtVopOfBits (b) : fmtVopBits (fmtVopOfBits b) = b := by
  simp [fmtVopBits, fmtVopOfBits, append_extract]

@[simp] theorem fmtVopOfBits_fmtVopBits (f) : fmtVopOfBits (fmtVopBits f) = f := by
  simp [fmtVopBits, fmtVopOfBits, extract_append_hi, extract_append_lo]

@[simp] theorem fmtVfmaBits_fmtVfmaOfBits (b) : fmtVfmaBits (fmtVfmaOfBits b) = b := by
  simp [fmtVfmaBits, fmtVfmaOfBits, append_extract]

@[simp] theorem fmtVfmaOfBits_fmtVfmaBits (f) : fmtVfmaOfBits (fmtVfmaBits f) = f := by
  simp [fmtVfmaBits, fmtVfmaOfBits, extract_append_hi, extract_append_lo]

@[simp] theorem fmtVcmpBits_fmtVcmpOfBits (b) : fmtVcmpBits (fmtVcmpOfBits b) = b := by
  simp [fmtVcmpBits, fmtVcmpOfBits, append_extract]

@[simp] theorem fmtVcmpOfBits_fmtVcmpBits (f) : fmtVcmpOfBits (fmtVcmpBits f) = f := by
  simp [fmtVcmpBits, fmtVcmpOfBits, extract_append_hi, extract_append_lo]

@[simp] theorem fmtVpermBits_fmtVpermOfBits (b) : fmtVpermBits (fmtVpermOfBits b) = b := by
  simp [fmtVpermBits, fmtVpermOfBits, append_extract]

@[simp] theorem fmtVpermOfBits_fmtVpermBits (f) : fmtVpermOfBits (fmtVpermBits f) = f := by
  simp [fmtVpermBits, fmtVpermOfBits, extract_append_hi, extract_append_lo]

@[simp] theorem fmtVmacBits_fmtVmacOfBits (b) : fmtVmacBits (fmtVmacOfBits b) = b := by
  simp [fmtVmacBits, fmtVmacOfBits, append_extract]

@[simp] theorem fmtVmacOfBits_fmtVmacBits (f) : fmtVmacOfBits (fmtVmacBits f) = f := by
  simp [fmtVmacBits, fmtVmacOfBits, extract_append_hi, extract_append_lo]

@[simp] theorem fmtVredBits_fmtVredOfBits (b) : fmtVredBits (fmtVredOfBits b) = b := by
  simp [fmtVredBits, fmtVredOfBits, append_extract]

@[simp] theorem fmtVredOfBits_fmtVredBits (f) : fmtVredOfBits (fmtVredBits f) = f := by
  simp [fmtVredBits, fmtVredOfBits, extract_append_hi, extract_append_lo]

@[simp] theorem fmtVcvtBits_fmtVcvtOfBits (b) : fmtVcvtBits (fmtVcvtOfBits b) = b := by
  simp [fmtVcvtBits, fmtVcvtOfBits, append_extract]

@[simp] theorem fmtVcvtOfBits_fmtVcvtBits (f) : fmtVcvtOfBits (fmtVcvtBits f) = f := by
  simp [fmtVcvtBits, fmtVcvtOfBits, extract_append_hi, extract_append_lo]

@[simp] theorem fmtVlsBits_fmtVlsOfBits (b) : fmtVlsBits (fmtVlsOfBits b) = b := by
  simp [fmtVlsBits, fmtVlsOfBits, append_extract]

@[simp] theorem fmtVlsOfBits_fmtVlsBits (f) : fmtVlsOfBits (fmtVlsBits f) = f := by
  simp [fmtVlsBits, fmtVlsOfBits, extract_append_hi, extract_append_lo]

@[simp] theorem fmtVmvBits_fmtVmvOfBits (b) : fmtVmvBits (fmtVmvOfBits b) = b := by
  simp [fmtVmvBits, fmtVmvOfBits, append_extract]

@[simp] theorem fmtVmvOfBits_fmtVmvBits (f) : fmtVmvOfBits (fmtVmvBits f) = f := by
  simp [fmtVmvBits, fmtVmvOfBits, extract_append_hi, extract_append_lo]

@[simp] theorem fmtVtrBits_fmtVtrOfBits (b) : fmtVtrBits (fmtVtrOfBits b) = b := by
  simp [fmtVtrBits, fmtVtrOfBits, append_extract]

@[simp] theorem fmtVtrOfBits_fmtVtrBits (f) : fmtVtrOfBits (fmtVtrBits f) = f := by
  simp [fmtVtrBits, fmtVtrOfBits, extract_append_hi, extract_append_lo]

@[simp] theorem fmtVmaskBits_fmtVmaskOfBits (b) : fmtVmaskBits (fmtVmaskOfBits b) = b := by
  simp [fmtVmaskBits, fmtVmaskOfBits, append_extract]

@[simp] theorem fmtVmaskOfBits_fmtVmaskBits (f) : fmtVmaskOfBits (fmtVmaskBits f) = f := by
  simp [fmtVmaskBits, fmtVmaskOfBits, extract_append_hi, extract_append_lo]

@[simp] theorem fmtTcfgBits_fmtTcfgOfBits (b) : fmtTcfgBits (fmtTcfgOfBits b) = b := by
  simp [fmtTcfgBits, fmtTcfgOfBits, append_extract]

@[simp] theorem fmtTcfgOfBits_fmtTcfgBits (f) : fmtTcfgOfBits (fmtTcfgBits f) = f := by
  simp [fmtTcfgBits, fmtTcfgOfBits, extract_append_hi, extract_append_lo]

@[simp] theorem fmtTlsBits_fmtTlsOfBits (b) : fmtTlsBits (fmtTlsOfBits b) = b := by
  simp [fmtTlsBits, fmtTlsOfBits, append_extract]

@[simp] theorem fmtTlsOfBits_fmtTlsBits (f) : fmtTlsOfBits (fmtTlsBits f) = f := by
  simp [fmtTlsBits, fmtTlsOfBits, extract_append_hi, extract_append_lo]

@[simp] theorem fmtTldxBits_fmtTldxOfBits (b) : fmtTldxBits (fmtTldxOfBits b) = b := by
  simp [fmtTldxBits, fmtTldxOfBits, append_extract]

@[simp] theorem fmtTldxOfBits_fmtTldxBits (f) : fmtTldxOfBits (fmtTldxBits f) = f := by
  simp [fmtTldxBits, fmtTldxOfBits, extract_append_hi, extract_append_lo]

@[simp] theorem fmtTzeroBits_fmtTzeroOfBits (b) : fmtTzeroBits (fmtTzeroOfBits b) = b := by
  simp [fmtTzeroBits, fmtTzeroOfBits, append_extract]

@[simp] theorem fmtTzeroOfBits_fmtTzeroBits (f) : fmtTzeroOfBits (fmtTzeroBits f) = f := by
  simp [fmtTzeroBits, fmtTzeroOfBits, extract_append_hi, extract_append_lo]

@[simp] theorem fmtMmaBits_fmtMmaOfBits (b) : fmtMmaBits (fmtMmaOfBits b) = b := by
  simp [fmtMmaBits, fmtMmaOfBits, append_extract]

@[simp] theorem fmtMmaOfBits_fmtMmaBits (f) : fmtMmaOfBits (fmtMmaBits f) = f := by
  simp [fmtMmaBits, fmtMmaOfBits, extract_append_hi, extract_append_lo]

@[simp] theorem fmtTokenBits_fmtTokenOfBits (b) : fmtTokenBits (fmtTokenOfBits b) = b := by
  simp [fmtTokenBits, fmtTokenOfBits, append_extract]

@[simp] theorem fmtTokenOfBits_fmtTokenBits (f) : fmtTokenOfBits (fmtTokenBits f) = f := by
  simp [fmtTokenBits, fmtTokenOfBits, extract_append_hi, extract_append_lo]

@[simp] theorem fmtDmaqBits_fmtDmaqOfBits (b) : fmtDmaqBits (fmtDmaqOfBits b) = b := by
  simp [fmtDmaqBits, fmtDmaqOfBits, append_extract]

@[simp] theorem fmtDmaqOfBits_fmtDmaqBits (f) : fmtDmaqOfBits (fmtDmaqBits f) = f := by
  simp [fmtDmaqBits, fmtDmaqOfBits, extract_append_hi, extract_append_lo]

end Sys2Proof
end

