-- ==== Sys2Proof/Proofs/WordsRoundTrip.lean ====
section
/-!
SUPPORT. Words and instructions: an opcode before 25 bits, whose lower or upper end some rows fix.
-/
namespace Sys2Proof

@[simp] theorem opcode_opWord (c : BitVec 7) (r : BitVec 25) : (opWord c r).extractLsb' 25 7 = c := by
  simp [opWord, extract_append_hi]

@[simp] theorem rest_opWord (c : BitVec 7) (r : BitVec 25) : (opWord c r).extractLsb' 0 25 = r := by
  simp [opWord, extract_append_lo]

theorem opWord_opcode_rest (w : BitVec 32) : opWord (w.extractLsb' 25 7) (w.extractLsb' 0 25) = w := by
  simp [opWord, append_extract]

/-- Bits whose lower end is a number that a row fixes. -/
theorem append_low {m k : Nat} (n : Nat) (b : BitVec (n + m)) (h : (b.extractLsb' 0 m).toNat = k) :
    b.extractLsb' m n ++ BitVec.ofNat m k = b := by
  rw [← h, BitVec.ofNat_toNat, BitVec.setWidth_eq, append_extract b m 0 (Nat.zero_add m).symm, BitVec.extractLsb'_eq_self]

/-- Bits whose uppermost bit a row fixes. -/
theorem bit_append {v : BitVec 1} (b : BitVec 25) (h : b.extractLsb' 24 1 = v) : v ++ b.extractLsb' 0 24 = b := by
  rw [← h, append_extract b 24 0 rfl, BitVec.extractLsb'_eq_self]

theorem top_of_true {b : BitVec 25} (h : b.getLsbD 24 = true) : b.extractLsb' 24 1 = 1#1 := by
  ext i hi
  simpa [Nat.lt_one_iff.1 hi] using h

theorem top_of_false {b : BitVec 25} (h : ¬ b.getLsbD 24 = true) : b.extractLsb' 24 1 = 0#1 := by
  ext i hi
  simpa [Nat.lt_one_iff.1 hi] using h

theorem getElem_append_top (v : BitVec 1) (r : BitVec 24) : (v ++ r)[24] = v[0] := by
  rw [BitVec.getElem_append, dif_neg (by decide)]

/-! ### From a word to its instruction and back -/

theorem wordOf_jrOfBits {x : Site} {b : BitVec 25} {i : Instr} (h : jrOfBits x b = some i) : wordOf i = some (opWord 0x1B b) := by
  have hfunc {k : Nat} (e : (b.extractLsb' 0 3).toNat = k) : fmtKBits (fmtKOfBits (b.extractLsb' 3 22)) ++ BitVec.ofNat 3 k = b := by
    rw [fmtKBits_fmtKOfBits]
    exact append_low (m := 3) 22 b e
  unfold jrOfBits at h
  split at h <;> cases h <;> exact congrArg (fun b => some (opWord 0x1B b)) (hfunc ‹_›)

theorem wordOf_sysOfBits {x : Site} {b : BitVec 25} {i : Instr} (h : sysOfBits x b = some i) : wordOf i = some (opWord 0x20 b) := by
  have hfunc {k : Nat} (e : (b.extractLsb' 0 10).toNat = k) : fmtXBits (fmtXOfBits (b.extractLsb' 10 15)) ++ BitVec.ofNat 10 k = b := by
    rw [fmtXBits_fmtXOfBits]
    exact append_low (m := 10) 15 b e
  unfold sysOfBits at h
  split at h <;> cases h <;> exact congrArg (fun b => some (opWord 0x20 b)) (hfunc ‹_›)

theorem wordOf_chanOfBits {x : Site} {b : BitVec 25} {i : Instr} (h : chanOfBits x b = some i) : wordOf i = some (opWord 0x28 b) := by
  have hfunc {k : Nat} (e : (b.extractLsb' 0 3).toNat = k) : fmtCBits (fmtCOfBits (b.extractLsb' 3 22)) ++ BitVec.ofNat 3 k = b := by
    rw [fmtCBits_fmtCOfBits]
    exact append_low (m := 3) 22 b e
  have hlt : (b.extractLsb' 0 3).toNat < 8 := BitVec.isLt _
  unfold chanOfBits at h
  split at h
  case h_8 =>
    cases h
    exact congrArg (fun b => some (opWord 0x28 b)) (hfunc (k := 7) (by simp only [imp_false] at *; omega))
  all_goals
    cases h
    exact congrArg (fun b => some (opWord 0x28 b)) (hfunc ‹_›)

theorem wordOf_tcfgOfBits {x : Site} {b : BitVec 25} {i : Instr} (h : tcfgOfBits x b = some i) : wordOf i = some (opWord 0x60 b) := by
  have hminor {k : Nat} (e : (b.extractLsb' 0 2).toNat = k) : fmtTcfgBits (fmtTcfgOfBits (b.extractLsb' 2 23)) ++ BitVec.ofNat 2 k = b := by
    rw [fmtTcfgBits_fmtTcfgOfBits]
    exact append_low (m := 2) 23 b e
  have hlt : (b.extractLsb' 0 2).toNat < 4 := BitVec.isLt _
  unfold tcfgOfBits at h
  split at h
  case h_4 =>
    cases h
    exact congrArg (fun b => some (opWord 0x60 b)) (hminor (k := 3) (by simp only [imp_false] at *; omega))
  all_goals
    cases h
    exact congrArg (fun b => some (opWord 0x60 b)) (hminor ‹_›)

/-- Two instructions of one opcode, told apart by the uppermost bit of the rest. -/
theorem wordOf_ite {k : BitVec 7} {b : BitVec 25} {i p q : Instr} {r : BitVec 24} (h : (if b.getLsbD 24 then some p else some q) = some i)
    (hr : r = b.extractLsb' 0 24) (hp : wordOf p = some (opWord k (1#1 ++ r))) (hq : wordOf q = some (opWord k (0#1 ++ r))) :
    wordOf i = some (opWord k b) := by
  subst hr
  split at h <;> obtain rfl := Option.some.inj h
  · next hb => rw [hp, bit_append b (top_of_true hb)]
  · next hb => rw [hq, bit_append b (top_of_false hb)]

theorem wordOf_of_ofWord {x : Site} {w : BitVec 32} {i : Instr} (h : ofWord x w = some i) : wordOf i = some w := by
  obtain ⟨c, b, rfl⟩ : ∃ c b, w = opWord c b := ⟨_, _, (opWord_opcode_rest w).symm⟩
  have hc {k : Nat} (e : c.toNat = k) : BitVec.ofNat 7 k = c := by rw [← e, BitVec.ofNat_toNat, BitVec.setWidth_eq]
  simp only [ofWord, opcode_opWord, rest_opWord] at h
  split at h
  case h_16 e => exact hc e ▸ wordOf_jrOfBits h
  case h_20 e => exact hc e ▸ wordOf_sysOfBits h
  case h_21 e => exact hc e ▸ wordOf_ite h (fmtFBits_fmtFOfBits _) rfl rfl
  case h_22 e => exact hc e ▸ wordOf_chanOfBits h
  case h_31 e => exact hc e ▸ wordOf_ite h (fmtVlsBits_fmtVlsOfBits _) rfl rfl
  case h_32 e => exact hc e ▸ wordOf_ite h (fmtVmvBits_fmtVmvOfBits _) rfl rfl
  case h_35 e => exact hc e ▸ wordOf_tcfgOfBits h
  case h_36 e => exact hc e ▸ wordOf_ite h (fmtTlsBits_fmtTlsOfBits _) rfl rfl
  case h_42 => cases h
  all_goals
    obtain rfl := Option.some.inj h
    simp [wordOf, hc ‹_›]

theorem ofWord_of_wordOf {i : Instr} {w : BitVec 32} (h : wordOf i = some w) : ∃ x, ofWord x w = some i := by
  cases i with
  | op | addi | andi | ori | xori | slti | sltiu | shi | lui | fop | ld | st | br | jmp | call | jmpr | callr | ret | xret | retg
    | gate | rep | repL | crd | cwr | cswap | cadd | signal | waitAny | waitAll | park | setpri | lseg | sseg | rdcyc | rdcych |
    settmr | trdZero | trdSat | trdNan | tclr | qdisc | rsrd | rswr | rdver | rdflt | brk | fence | publish | wrch | wrchb | close
    | recv | rfree | sumparm | arrive | waitb | vop | vfma | vcmp | vperm | vmac | vaddac | vred | vcvt | vtr | vld | vst | vmvf |
    vmvt | vmask | tshr | tld | tst | tldx | tzero | mma | token | dmaq =>
    rename_i x f
    obtain rfl := Option.some.inj h
    exact ⟨x, by simp [ofWord, jrOfBits, sysOfBits, chanOfBits, tcfgOfBits, extract_append_hi, extract_append_lo, getElem_append_top]⟩
  | tcfg x form f =>
    obtain rfl := Option.some.inj h
    exact ⟨x, by cases form <;> simp [ofWord, tcfgOfBits, tcfgMinor, extract_append_hi, extract_append_lo]⟩
  | _ => cases h

end Sys2Proof

open Sys2Proof

/-- Settles O7: a word is an opcode before 25 bits, which the fields of its format fill, with a function code of the row where it has one. -/
theorem wordsRoundTrip : Obligations.WordsRoundTrip := by
  unfold Obligations.WordsRoundTrip
  exact ⟨fun _ _ _ => wordOf_of_ofWord, fun _ _ => ofWord_of_wordOf⟩

end

