-- ==== Sys2Proof/Proofs/CoreQueues.lean ====
section
/-!
SUPPORT. The queues of a core: entries go in with what they capture, a token at the head completes, and QDISC takes out what is at fault
(R94, R133, R145, R167 to R171).
-/
namespace Sys2Proof.Machine

/-! ### A core with a queue replaced -/

@[simp] theorem Core.queue_setQueue (k : Core) (q : Nat) (v : Queue) : (k.setQueue q v).queue q = v :=
  match q with
  | 0 | 1 | _ + 2 => rfl

@[simp] theorem Core.setQueue_setQueue (k : Core) (q : Nat) (v w : Queue) : (k.setQueue q v).setQueue q w = k.setQueue q w :=
  match q with
  | 0 | 1 | _ + 2 => rfl

@[simp] theorem Core.threads_setQueue (k : Core) (q : Nat) (v : Queue) : (k.setQueue q v).threads = k.threads :=
  match q with
  | 0 | 1 | _ + 2 => rfl

@[simp] theorem Core.thread_setQueue (k : Core) (q : Nat) (v : Queue) (n : Fin 4) : (k.setQueue q v).thread n = k.thread n := by
  rw [Core.thread, Core.threads_setQueue, Core.thread]

@[simp] theorem Core.bare_setQueue (k : Core) (q : Nat) (v : Queue) : (k.setQueue q v).bare = k.bare.setQueue q v :=
  match q with
  | 0 | 1 | _ + 2 => rfl

theorem Core.queue_setThread (k : Core) (n : Fin 4) (t : Thread) (q : Nat) : (k.setThread n t).queue q = k.queue q :=
  match q with
  | 0 | 1 | _ + 2 => rfl

theorem Core.queue_issued (n : Fin 4) (k : Core) (q : Nat) : (Core.issued n k).queue q = k.queue q :=
  match q with
  | 0 | 1 | _ + 2 => rfl

theorem State.sameOutside_setCore (s : State) (c : CoreId) (k : Core) : s.sameOutside (s.setCore c k) c :=
  s.sameOutside_modCore c fun _ => k

theorem State.queue_retire (s : State) (x : Site) (q : Nat) : ((s.retire x).core x.core).queue q = (s.core x.core).queue q := by
  simp only [State.retire, State.issued, State.modThread, State.setThread, State.core_modCore_self]
  rw [Core.queue_issued, Core.queue_setThread]

/-- An instruction has ended whose effect is one queue of its core. -/
theorem State.ends_setQueue (s : State) (x : Site) (q : Nat) (v : Queue) :
    s.ends x id (fun k => k.setQueue q .empty) ((s.setCore x.core ((s.core x.core).setQueue q v)).retire x) ∧
      (((s.setCore x.core ((s.core x.core).setQueue q v)).retire x).core x.core).queue q = v := by
  have hthread (n : Fin 4) : (s.setCore x.core ((s.core x.core).setQueue q v)).thread ⟨x.core, n⟩ = s.thread ⟨x.core, n⟩ := by
    simp [State.thread]
  refine ⟨State.ends_retire (s.sameOutside_setCore x.core _) ?_ (fun n _ => hthread n) (hthread x.thread), ?_⟩
  · simp
  · rw [State.queue_retire, State.core_setCore_self, Core.queue_setQueue]

/-! ### Entries go in -/

/-- What issue captures is what goes into the queue (R94, R133, R168). -/
theorem exec_of_captures {s : State} {x : Site} {i : Instr} {vals : List Word} {segs : List SegImage}
    (h : captures (s.thread x) i = some (x, vals, segs)) : ∃ v g, exec i s = s.queueIn x i v g ∧ v s = vals ∧ g s = segs := by
  cases i with
  | vperm y f =>
    cases h
    have hfunc : (f.func = 6 ∨ f.func = 7 ∨ f.func = 8 ∨ f.func = 9) ↔ (6 ≤ f.func.toNat ∧ f.func.toNat ≤ 9) := by
      simp only [← BitVec.toNat_inj]
      constructor
      · rintro (h | h | h | h) <;> rw [h] <;> decide
      · intro h
        simp only [BitVec.reduceToNat]
        omega
    exact ⟨_, _, rfl, if_congr hfunc rfl rfl, rfl⟩
  | vop | vfma | vcmp | vmac | vaddac | vred | vcvt | vtr | vld | vst | vmvf | vmvt | vmask | tcfg | tshr | tld | tst | tldx | tzero | mma
    | token | dmaq =>
    cases h
    exact ⟨_, _, rfl, rfl, rfl⟩
  | _ => cases h

theorem leads_queueIn {s : State} {x : Site} {i : Instr} (h : s.ready x i = true) {v : State → List Word} {g : State → List SegImage}
    {P : State → Prop} (hp : P ((s.enqueue x i (v s) (g s)).apply s x i)) : Leads (s.queueIn x i v g) P :=
  leads_settled (State.run_ready h _) hp

theorem State.enqueue_free {s : State} {x : Site} {i : Instr} {vals : List Word} {segs : List SegImage}
    (h : ((s.core x.core).queue (queueOf i)).entries.length < queueCap (queueOf i)) :
    s.enqueue x i vals segs = .done (s.setCore x.core ((s.core x.core).setQueue (queueOf i)
      { (s.core x.core).queue (queueOf i) with entries := ((s.core x.core).queue (queueOf i)).entries ++ [s.entryOf x i vals segs] })) :=
  if_neg (Nat.not_le.2 h)

theorem State.enqueue_full {s : State} {x : Site} {i : Instr} {vals : List Word} {segs : List SegImage}
    (h : queueCap (queueOf i) ≤ ((s.core x.core).queue (queueOf i)).entries.length) :
    s.enqueue x i vals segs = .wait (.queue (Fin.ofNat 3 (queueOf i))) := if_pos h

/-! ### A token -/

/-- Nothing stops an entry of a queue that has no stop, unless a tile move that issued before it does (R145). -/
theorem Queue.stops_eq_false {o : Queue} {e : QEntry} (h : o.stop = none) (hm : ∀ m, o.byMove = some m → e.seq ≤ m.seq) :
    o.stops e = false := by
  rw [Queue.stops, h]
  cases hb : o.byMove with
  | none => rfl
  | some m => simpa using hm m hb

theorem State.completeToken_eq {s : State} {c : CoreId} {q : Nat} {e : QEntry} {l : List QEntry} {y : Site} {f : FmtToken}
    (he : ((s.core c).queue q).entries = e :: l) (hi : e.instr = .token y f) (hs : ((s.core c).queue q).stops e = false)
    (hw : s.writesHeld c (queueObs q) e.seq = false) :
    s.completeToken c q = (s.modCore c fun k => k.popQ q).setEvent ⟨c, e.thread⟩ f.evbit.toNat := by
  simp [State.completeToken, he, hi, hs, hw]

theorem Core.popQ_setThread_bare (k : Core) (q : Nat) (n : Fin 4) (t : Thread) :
    ({ ((k.popQ q).setThread n t).setQueue q .empty with threads := [] } : Core) = { k.setQueue q .empty with threads := [] } :=
  match q with
  | 0 | 1 | _ + 2 => rfl

theorem State.onlyCore_popQ_setEvent (s : State) (c : CoreId) (q : Nat) (n : Fin 4) (b : Nat) :
    s.onlyCore c (fun k => { k.setQueue q .empty with threads := [] }) ((s.modCore c fun k => k.popQ q).setEvent ⟨c, n⟩ b) := by
  refine ⟨State.sameOutside_trans (State.sameOutside_modCore s c _) (State.sameOutside_modCore _ c _), ?_⟩
  simp only [State.setEvent, State.modThread, State.setThread, State.core_modCore_self]
  exact Core.popQ_setThread_bare _ q n _

theorem State.thread_popQ_setEvent (s : State) (c : CoreId) (q : Nat) (n m : Fin 4) (b : Nat) :
    ((s.modCore c fun k => k.popQ q).setEvent ⟨c, n⟩ b).thread ⟨c, m⟩ =
      if m = n then { s.thread ⟨c, m⟩ with ev := (s.thread ⟨c, m⟩).ev ||| BitVec.ofNat 32 (2 ^ b) } else s.thread ⟨c, m⟩ := by
  have hpop (m : Fin 4) : (s.modCore c fun k => k.popQ q).thread ⟨c, m⟩ = s.thread ⟨c, m⟩ := by simp [State.thread, Core.popQ]
  split
  · next h =>
    subst h
    rw [State.setEvent, State.thread_modThread_self, hpop]
    rfl
  · next h => rw [State.setEvent, State.thread_modThread_ne _ _ fun he => h (congrArg Site.thread he), hpop]

theorem State.queue_popQ_setEvent (s : State) (c : CoreId) (q : Nat) (n : Fin 4) (b : Nat) :
    (((s.modCore c fun k => k.popQ q).setEvent ⟨c, n⟩ b).core c).queue q =
      { (s.core c).queue q with entries := ((s.core c).queue q).entries.tail } := by
  simp only [State.setEvent, State.modThread, State.setThread, State.core_modCore_self, Core.queue_setThread]
  exact Core.queue_setQueue _ _ _

/-! ### Discard -/

theorem leads_qdisc {s : State} {x : Site} {f : FmtX} (h : s.ready x (.qdisc x f) = true) {P : State → Prop}
    (hp : P ((s.discard x.core (f.n.toNat % 4) (f.n.getLsbD 2)).retire x)) : Leads (exec (.qdisc x f) s) P :=
  leads_settled (State.run_ready h _) hp

/-- Writes are no longer awaited in any hall, whatever becomes of a core. -/
theorem State.unawait_setCore (s : State) (c d : CoreId) (k : Core) (obs seq : Nat) :
    (s.setCore d k).unawait c obs seq = (s.unawait c obs seq).setCore d k := by
  unfold State.unawait
  exact List.foldl_hom (fun t : State => t.setCore d k) fun _ _ => rfl

theorem State.discard_stop {s : State} {c : CoreId} {q : Nat} {all : Bool} {e : QStop} (h : ((s.core c).queue q).stop = some e) :
    s.discard c q all = (s.unawait c (queueObs q) e.seq).setCore c (((s.unawait c (queueObs q) e.seq).core c).setQueue q
      { (s.core c).queue q with
        entries := ((s.core c).queue q).entries.filter fun a => if all then decide (a.seq < e.seq) else decide (a.seq ≠ e.seq) }) := by
  simp only [State.discard, h, State.unawait_setCore, Core.removeQ, discard_kept, State.core_unawait]

theorem State.discard_none {s : State} {c : CoreId} {q : Nat} {all : Bool} (h : ((s.core c).queue q).stop = none)
    (hm : ((s.core c).queue q).byMove = none) : s.discard c q all = s := by
  simp only [State.discard, h, hm]

theorem queueObs_eq (q : Nat) : queueObs q = if q = 0 then 2 else if q = 1 then 1 else 3 := by
  unfold queueObs
  split <;> simp_all

theorem queueObs_fin : ∀ q : Fin 3, queueObs q.val = if q = 0 then 2 else if q = 1 then 1 else 3 := by decide

/-- The discard of a tile move, on the matrix queue. -/
theorem State.discard_move {s : State} {c : CoreId} {all : Bool} {e : QStop} (h : (s.core c).mq.stop = none)
    (hm : (s.core c).mq.byMove = some e) : s.discard c 0 all = s.setCore c { s.core c with
      vq := { (s.core c).vq with entries := (s.core c).vq.entries.filter fun a => decide (a.seq ≠ e.seq) }
      mq := if all then { (s.core c).mq with entries := (s.core c).mq.entries.filter fun a => decide (a.seq ≤ e.seq) } else (s.core c).mq } := by
  have hset : s.discard c 0 all = s.setCore c ((s.discard c 0 all).core c) := by
    simp only [State.discard, Core.queue, h, hm, State.core_setCore_self]
  rw [hset, State.core_discard, Core.discarded]
  simp only [Core.queue, h, hm]

theorem State.steps_retire_id (s : State) (x : Site) : s.steps x id (s.retire x) := by
  refine ⟨State.onlyThread_issued (State.onlyThread_modThread s x _), ?_⟩
  rw [State.retire, State.thread_issued, State.thread_modThread_self]
  rfl

end Sys2Proof.Machine

open Sys2Proof Sys2Proof.Machine

/-- Settles O21: an entry goes in by a write of its queue, a token at the head is popped and sets its bit, and a discard filters. -/
theorem queuesOfACore : Obligations.QueuesOfACore := by
  unfold Obligations.QueuesOfACore
  refine ⟨fun s x i vals segs q l h hh hcap hq hl hready => ?_, fun s => ⟨?token, fun x f q l hready hq hl => ?_⟩⟩
  · subst hh hl hq
    obtain ⟨v, g, hexec, rfl, rfl⟩ := exec_of_captures hcap
    rw [hexec]
    refine ⟨fun hfree => leads_queueIn hready ?_, fun hfull => leads_queueIn hready ?_⟩
    · rw [State.enqueue_free hfree]
      exact State.ends_setQueue s x _ _
    · rw [State.enqueue_full hfull]
      exact ⟨State.onlyThread_modThread s x _, State.thread_modThread_self s x _⟩
  case token =>
    intro c q e l y f o hrun ho he hstop hmove hi hheld
    subst ho
    rw [← queueObs_fin] at hheld
    refine leads_does hrun ?_
    rw [State.completeToken_eq he hi (Queue.stops_eq_false hstop hmove) hheld]
    refine ⟨s.onlyCore_popQ_setEvent c q e.thread _, ?_, fun n => s.thread_popQ_setEvent c q e.thread n _⟩
    rw [State.queue_popQ_setEvent, he, List.tail_cons]
  · subst hq hl
    refine ⟨fun hs hm => leads_qdisc hready ?_, fun e hs => leads_qdisc hready ?_, fun e hs hm h0 => leads_qdisc hready ?_⟩
    · rw [State.discard_none hs hm]
      exact s.steps_retire_id x
    · rw [State.discard_stop hs, ← queueObs_eq]
      exact State.ends_setQueue _ x _ _
    · rw [h0] at hs hm ⊢
      rw [State.discard_move hs hm]
      refine ⟨State.ends_retire (s.sameOutside_setCore x.core _) ?_ (fun n _ => ?_) ?_, ?_, ?_⟩
      · simp [Core.bare]
      · simp [State.thread, Core.thread]
      · simp [State.thread, Core.thread]
      · exact (State.queue_retire _ x 1).trans (by simp [Core.queue])
      · exact (State.queue_retire _ x 0).trans (by simp [Core.queue])

end

