-- ==== Sys2Proof/Proofs/TileRuns.lean ====
section
/-!
SUPPORT. An instruction that runs on the tiles of the idle engine of a quiet core (R83 to R103, R144): what its command leaves as it was,
and what a row of a tile holds after rows have been written.
-/
namespace Sys2Proof.Machine

/-! ### Tiles and what is kept of them -/

/-- Core `k` with the tiles of `l`: rows, shapes, and the cached and latched copies. -/
def Core.withTiles (k l : Core) : Core :=
  { k with tile := l.tile, tshape := l.tshape, opcA := l.opcA, opcB := l.opcB, latchA := l.latchA, latchB := l.latchB }

theorem Core.popQ_withTiles (k l : Core) (q : Nat) : (k.withTiles l).popQ q = (k.popQ q).withTiles l :=
  match q with
  | 0 | 1 | _ + 2 => rfl

theorem Core.bare_popQ (k : Core) (q : Nat) : (k.popQ q).bare = k.bare.popQ q :=
  match q with
  | 0 | 1 | _ + 2 => rfl

theorem Core.withTiles_setQueue (k : Core) (q : Nat) (v : Queue) : k.withTiles (k.setQueue q v) = k :=
  match q with
  | 0 | 1 | _ + 2 => rfl

theorem Core.queue_bare (k : Core) (q : Nat) : k.bare.queue q = k.queue q :=
  match q with
  | 0 | 1 | _ + 2 => rfl

theorem Core.setQueue_self (k : Core) (q : Nat) : k.setQueue q (k.queue q) = k :=
  match q with
  | 0 | 1 | _ + 2 => rfl

/-! ### The instruction that runs -/

/-- The issuing core while its instruction runs: beside the queue and the threads as it was. -/
theorem State.bare_entered (s : State) (x : Site) (i : Instr) (vals : List Word) (segs : List SegImage) :
    ((s.entered x i vals segs).core x.core).bare = (s.core x.core).bare.setQueue (queueOf i) { (s.core x.core).queue (queueOf i) with
      entries := ((s.core x.core).queue (queueOf i)).entries ++ [s.entryOf x i vals segs] } := by
  rw [State.core_entered, ← Core.bare_setQueue]
  rfl

theorem Core.withTiles_bare (k l : Core) : k.withTiles l.bare = k.withTiles l := rfl

/-- The tiles are as they were when the instruction was issued. -/
theorem State.tiles_entered (s : State) (x : Site) (i : Instr) (vals : List Word) (segs : List SegImage) :
    (s.core x.core).withTiles ((s.entered x i vals segs).core x.core) = s.core x.core := by
  have hbare := congrArg (s.core x.core).withTiles (s.bare_entered x i vals segs)
  rw [Core.withTiles_bare, ← Core.bare_setQueue, Core.withTiles_bare, Core.withTiles_setQueue] at hbare
  exact hbare

theorem Core.shape_of_withTiles {k l : Core} (h : k.withTiles l = k) : l.shape = k.shape := by
  have hs := congrArg Core.shape h
  exact hs

theorem Core.tileRow_of_withTiles {k l : Core} (h : k.withTiles l = k) : l.tileRow = k.tileRow := by
  have hr := congrArg Core.tileRow h
  exact hr

theorem Core.tshape_of_withTiles {k l : Core} (h : k.withTiles l = k) : l.tshape = k.tshape := by
  have hs := congrArg Core.tshape h
  exact hs

theorem Core.tile_of_withTiles {k l : Core} (h : k.withTiles l = k) : l.tile = k.tile := by
  have ht := congrArg Core.tile h
  exact ht

/-- An entry that went into an empty queue is popped: the queue is as it was. -/
theorem State.popQ_entered {s : State} {x : Site} {i : Instr} (he : ((s.core x.core).queue (queueOf i)).entries = [])
    (vals : List Word) (segs : List SegImage) : ((s.entered x i vals segs).core x.core).bare.popQ (queueOf i) = (s.core x.core).bare := by
  have hq : (s.core x.core).queue (queueOf i) = { (s.core x.core).queue (queueOf i) with entries := [] } := by rw [← he]
  rw [State.bare_entered, Core.popQ, Core.queue_setQueue, Core.setQueue_setQueue, he, List.nil_append, List.tail_cons, ← hq,
    ← Core.queue_bare, Core.setQueue_self]

/-- What an instruction that ran at once on tiles leaves in `u`, `t` being the state in which its run ended: outside the core nothing
differs but what `o` leaves out, and in the core nothing but tiles and threads. -/
structure State.Ran (o : State → State) (s : State) (x : Site) (t u : State) : Prop where
  run : { u with cores := [] } = { t with cores := [] }
  outer : o { u with cores := [] } = o { s with cores := [] }
  other : ∀ d, d ≠ x.core → u.core d = s.core d
  core : (u.core x.core).bare = (s.core x.core).bare.withTiles (t.core x.core)
  thread : ∀ n, u.thread ⟨x.core, n⟩ = t.thread ⟨x.core, n⟩

/-- The state in which a run on tiles ended, seen from the one in which it began. -/
structure State.RunsTo (o : State → State) (s t : State) (c : CoreId) : Prop where
  outer : o { t with cores := [] } = o { s with cores := [] }
  other : ∀ d, d ≠ c → t.core d = s.core d
  core : (t.core c).bare = (s.core c).bare.withTiles (t.core c)
  rests : s.quietOver c → t.quietOver c

theorem Core.quiet_of_tiles {k l m : Core} (h : l.bare = k.bare.withTiles m) : l.quiet = k.quiet := by
  have hq := congrArg Core.quiet h
  exact hq

/-- The entry has left its queue: the module is quiet, and the run is all that happened. -/
theorem State.ran_popQ {o : State → State} {s t : State} {x : Site} {i : Instr} (hq : s.quiet = true)
    (he : ((s.core x.core).queue (queueOf i)).entries = []) {vals : List Word} {segs : List SegImage}
    (ht : (s.entered x i vals segs).RunsTo o t x.core) :
    (t.modCore x.core fun k => k.popQ (queueOf i)).quiet = true ∧ State.Ran o s x t (t.modCore x.core fun k => k.popQ (queueOf i)) := by
  have hin := s.sameOutside_entered x i vals segs
  have hbare : ((t.core x.core).popQ (queueOf i)).bare = (s.core x.core).bare.withTiles (t.core x.core) := by
    rw [Core.bare_popQ, ht.core, Core.popQ_withTiles, State.popQ_entered he]
  refine ⟨ht.rests (State.quietOver_entered hq x i _ _) _ ((Core.quiet_of_tiles hbare).trans (State.quiet_core hq x.core)), rfl, ?_,
    fun d hd => ?_, ?_, ?_⟩
  · exact ht.outer.trans (congrArg o hin.1)
  · rw [State.core_modCore, if_neg hd, ht.other d hd, hin.2 d hd]
  · rw [State.core_modCore_self, hbare]
  · intro n
    simp only [State.thread, State.core_modCore_self, Core.thread_popQ]

/-- A matrix instruction issued into an idle matrix engine runs at once (R93, R167). -/
theorem State.answers_matrix {o : State → State} {s : State} {x : Site} {i : Instr} (h : s.ready x i = true) (hq : s.quiet = true)
    (hs : (s.core x.core).mq.stop = none) (hm : (s.core x.core).mq.byMove = none) (hi : queueOf i = 0) (hn : ∀ y f, i ≠ .mma y f)
    (vals : State → List Word) (segs : State → List SegImage) {t : State}
    (hrun : (s.entered x i (vals s) (segs s)).runMatrix x.core (s.entryOf x i (vals s) (segs s)) = .done t)
    (ht : (s.entered x i (vals s) (segs s)).RunsTo o t x.core) : Answers (s.queueIn x i vals segs) (State.Ran o s x t) := by
  obtain ⟨hme, -⟩ := (Core.quiet_iff _).1 (State.quiet_core hq x.core)
  have hran := State.ran_popQ hq (by rw [hi]; exact hme) ht
  rw [hi] at hran
  exact ⟨_, State.queueIn_matrix h hq hs hm hi hn vals segs hrun hran.1, hran.2⟩

/-- A move to a tile issued into an idle vector engine runs at once (R133, R144). -/
theorem State.answers_move {o : State → State} {s : State} {x : Site} {i : Instr} (h : s.ready x i = true) (hq : s.quiet = true)
    (hs : (s.core x.core).vq.stop = none) (hi : queueOf i = 1) (vals : State → List Word) (segs : State → List SegImage) {t : State}
    (hrun : (s.entered x i (vals s) (segs s)).runVector x.core (s.entryOf x i (vals s) (segs s)) = .done t)
    (ht : (s.entered x i (vals s) (segs s)).RunsTo o t x.core) : Answers (s.queueIn x i vals segs) (State.Ran o s x t) := by
  obtain ⟨-, hve, -⟩ := (Core.quiet_iff _).1 (State.quiet_core hq x.core)
  have hran := State.ran_popQ hq (by rw [hi]; exact hve) ht
  rw [hi] at hran
  exact ⟨_, State.queueIn_vector h hq hs hi vals segs hrun hran.1, hran.2⟩

/-! ### Rows written -/

/-- The state without the live words of the control pages. -/
def State.exceptLive (s : State) : State := { s with live := [] }

/-- Nothing differs but rows of tiles of core `c`, with the copies of them, and live words of the control pages. -/
structure State.WritesRows (s t : State) (c : CoreId) : Prop where
  outer : { t with cores := [] }.exceptLive = { s with cores := [] }.exceptLive
  other : ∀ d, d ≠ c → t.core d = s.core d
  core : t.core c = { s.core c with
    tile := (t.core c).tile, opcA := (t.core c).opcA, opcB := (t.core c).opcB, latchA := (t.core c).latchA, latchB := (t.core c).latchB }
  rests : s.quietOver c → t.quietOver c

namespace State.WritesRows

variable {s t u : State} {c : CoreId}

theorem refl (s : State) (c : CoreId) : s.WritesRows s c := ⟨rfl, fun _ _ => rfl, rfl, id⟩

theorem trans (h : s.WritesRows t c) (k : t.WritesRows u c) : s.WritesRows u c := by
  refine ⟨k.outer.trans h.outer, fun d hd => (k.other d hd).trans (h.other d hd), ?_, fun hs => k.rests (h.rests hs)⟩
  rw [k.core, h.core]

theorem of_liveOnly (h : s.liveOnly t) : s.WritesRows t c := by
  refine ⟨?_, fun d _ => State.core_liveOnly h d, ?_, fun hs => State.quietOver_liveOnly hs h⟩
  · rw [h]
    rfl
  · rw [State.core_liveOnly h]

theorem foldl {α : Type} {f : State → α → State} (hf : ∀ (s : State) (a : α), s.WritesRows (f s a) c) (l : List α) (s : State) :
    s.WritesRows (l.foldl f s) c := by
  induction l generalizing s with
  | nil => exact refl s c
  | cons a l ih => exact (hf s a).trans (ih _)

theorem tshape (h : s.WritesRows t c) : (t.core c).tshape = (s.core c).tshape := by rw [h.core]

theorem shape (h : s.WritesRows t c) : (t.core c).shape = (s.core c).shape := by rw [h.core]; rfl

theorem thread (h : s.WritesRows t c) (n : Fin 4) : t.thread ⟨c, n⟩ = s.thread ⟨c, n⟩ := by
  unfold State.thread
  rw [h.core]
  rfl

theorem runsTo (h : s.WritesRows t c) : s.RunsTo State.exceptLive t c := by
  refine ⟨h.outer, h.other, ?_, h.rests⟩
  rw [Core.withTiles, h.tshape]
  exact congrArg Core.bare h.core

end State.WritesRows

theorem State.liveOnly_count64 (s : State) (p o n : Nat) : s.liveOnly (s.count64 p o n) := rfl

theorem State.writesRows_putRow (s : State) (c : CoreId) (t r n v : Nat) : s.WritesRows (s.putRow c t r n v) c := by
  have hmod : s.WritesRows (s.modCore c fun k => k.putRow t r n v) c := by
    refine ⟨rfl, fun d hd => ?_, ?_, fun h => State.quietOver_setCore h _⟩
    · rw [State.core_modCore, if_neg hd]
    · rw [State.core_modCore_self]
      rfl
  exact hmod.trans (.of_liveOnly (State.liveOnly_count64 _ _ _ _))

/-! ### What a row holds -/

/-- Row `r` of tile `n` of a core, as a number. -/
def State.rowAt (s : State) (c : CoreId) (n r : Nat) : Nat := ((s.core c).tileRow n r).toNat

theorem State.rowAt_liveOnly {s t : State} (h : s.liveOnly t) (c : CoreId) (n r : Nat) : t.rowAt c n r = s.rowAt c n r := by
  rw [State.rowAt, State.core_liveOnly h, State.rowAt]

/-- A number of which the part below `m` is replaced stays below a multiple of `m`. -/
theorem replaced_lt {old d m v : Nat} (ho : old < d * m) (hm : 0 < m) : old / m * m + v % m < d * m :=
  calc old / m * m + v % m
      < old / m * m + m := Nat.add_lt_add_left (Nat.mod_lt _ hm) _
    _ = (old / m + 1) * m := by rw [Nat.add_mul, Nat.one_mul]
    _ ≤ d * m := Nat.mul_le_mul_right _ ((Nat.div_lt_iff_lt_mul hm).2 ho)

/-- A row of which the first bytes are replaced still is a row. -/
theorem toNat_replaced {w : Nat} (old : BitVec w) {n : Nat} (v : Nat) (hn : 8 * n ≤ w) :
    (BitVec.ofNat w (old.toNat / 2 ^ (8 * n) * 2 ^ (8 * n) + v % 2 ^ (8 * n))).toNat =
      old.toNat / 2 ^ (8 * n) * 2 ^ (8 * n) + v % 2 ^ (8 * n) := by
  have hpow : 2 ^ w = 2 ^ (w - 8 * n) * 2 ^ (8 * n) := by rw [← pow_add, Nat.sub_add_cancel hn]
  have ho := old.isLt
  rw [BitVec.toNat_ofNat, Nat.mod_eq_of_lt]
  rw [hpow] at ho ⊢
  exact replaced_lt ho (Nat.two_pow_pos _)

/-- A row after one row is written (R83). -/
theorem State.rowAt_putRow (s : State) (c : CoreId) {t r n v t' r' : Nat} (hn : n ≤ 128) (hr : r < 32) (hr' : r' < 32) :
    (s.putRow c t r n v).rowAt c t' r' = if t' = t ∧ r' = r then
      s.rowAt c t' r' / 2 ^ (8 * n) * 2 ^ (8 * n) + v % 2 ^ (8 * n) else s.rowAt c t' r' := by
  have hkey : t' * 32 + r' = t * 32 + r ↔ t' = t ∧ r' = r := by omega
  rw [State.putRow, State.rowAt_liveOnly (State.liveOnly_count64 _ _ _ _), State.rowAt, State.core_modCore_self, Core.putRow]
  simp only [Core.tileRow, SMap.get_set, hkey]
  split
  · next h =>
    obtain ⟨rfl, rfl⟩ := h
    exact toNat_replaced _ v (by omega)
  · rfl

/-- Of what is observed of a state that goes through a list, steps that hit it change it alike, and the change done again changes nothing
more. -/
theorem foldl_observed {α β : Type} (inv : State → Prop) (obs : State → β) (f : State → α → State) (hit : α → Prop) [DecidablePred hit]
    (g : β → β) (hg : ∀ b, g (g b) = g b) (hinv : ∀ s a, inv s → inv (f s a)) {l : List α}
    (hf : ∀ s, ∀ a ∈ l, inv s → obs (f s a) = if hit a then g (obs s) else obs s) (s : State) (hs : inv s) :
    obs (l.foldl f s) = if ∃ a ∈ l, hit a then g (obs s) else obs s := by
  induction l generalizing s with
  | nil => simp
  | cons a l ih =>
    rw [List.foldl_cons, ih (fun s b hb => hf s b (List.mem_cons_of_mem a hb)) _ (hinv s a hs), hf s a List.mem_cons_self hs]
    by_cases ha : hit a <;> by_cases hl : ∃ b ∈ l, hit b <;> simp [ha, hl, hg]

/-- Bytes cleared twice are cleared. -/
theorem cleared_cleared (m b : Nat) : b / m * m / m * m = b / m * m := by
  rcases Nat.eq_zero_or_pos m with rfl | hm
  · simp
  · rw [Nat.mul_div_cancel _ hm]

/-! ### Shapes -/

/-- A property of all entries of a table and of the default: what is read under a key has it. -/
theorem SMap.all_get {α : Type} (p : Nat × α → Bool) (m : SMap α) (k : Nat) (d : α) (hm : m.all p = true) (hd : p (k, d) = true) :
    p (k, SMap.get m k d) = true := by
  induction m with
  | nil => exact hd
  | cons q l ih =>
    obtain ⟨j, v⟩ := q
    simp only [List.all_cons, Bool.and_eq_true] at hm
    rw [SMap.get, SMap.find?]
    split
    · next h => exact h ▸ hm.1
    · exact ih hm.2

/-- Every tile has a shape that TCFG admits. -/
theorem Core.tcfgCode_shape {k : Core} (h : k.shapesOk = true) (n : Nat) : tcfgCode n (k.shape n) = none := by
  have hzero : tcfgCode n 0 = none := by simp [tcfgCode, fieldOf, bitsOf, tsRows]
  have hall : k.tshape.all (fun p => (tcfgCode p.1 p.2).isNone) = true :=
    List.all_eq_true.2 fun p hp => (Bool.and_eq_true_iff.1 (List.all_eq_true.1 h p hp)).2
  exact Option.isNone_iff_eq_none.1 (SMap.all_get (fun p => (tcfgCode p.1 p.2).isNone) k.tshape n 0 hall
    (Option.isNone_iff_eq_none.2 hzero))

/-- What R86 asks of the shape of a configured tile. -/
theorem tcfgCode_none {t : Nat} {w : Word} (h : tcfgCode t w = none) (hr : tsRows w ≠ 0) :
    tsRows w ≤ 32 ∧ 16 ≤ tsBpr w ∧ tsBpr w ≤ 128 ∧ fmtValid (tsFmt w) = true ∧
      (tsFmt w = 4 ∨ tsFmt w = 5 → tsBpr w = 48 ∨ tsBpr w = 96) ∧ (tsScaled w = true → tsStile w ≠ t) := by
  simp only [tcfgCode, hr, if_false, tsBpr] at h ⊢
  split_ifs at h with h1 h2 h3 h4 h5 h6 h7 h8
  refine ⟨Nat.not_lt.1 h2, by omega, by omega, by simpa using h4, fun hf => by omega, fun hs => by simpa [hs] using h7⟩

end Sys2Proof.Machine
end

