-- ==== Sys2Proof/Proofs/TileOperations.lean ====
section
/-!
SUPPORT. TCFG, TSHR, TZERO and the moves between tiles and vector registers (R86, R88, R89, R103, R144): the run of each, and what its
command leaves. This settles O26.
-/
namespace Sys2Proof.Machine

/-! ### What the command shows of its run -/

namespace State.Ran

variable {o : State → State} {s t u : State} {x : Site}

theorem tshape (h : State.Ran o s x t u) : (u.core x.core).tshape = (t.core x.core).tshape := by
  have hs := congrArg Core.tshape h.core
  exact hs

theorem shape (h : State.Ran o s x t u) : (u.core x.core).shape = (t.core x.core).shape := by
  have hs := congrArg Core.shape h.core
  exact hs

theorem tile (h : State.Ran o s x t u) : (u.core x.core).tile = (t.core x.core).tile := by
  have hs := congrArg Core.tile h.core
  exact hs

theorem tileRow (h : State.Ran o s x t u) (n r : Nat) : ((u.core x.core).tileRow n r).toNat = t.rowAt x.core n r := by
  have hs := congrArg (fun k : Core => (k.tileRow n r).toNat) h.core
  exact hs

/-- The thread has become `g`: `v` is what the command leaves, with what its run changed outside the core put back, and `p` leaves out
what its run changed of the core. -/
theorem turns (h : State.Ran o s x t u) {g : Thread} {p : Core → Core} {v : State}
    (hn : ∀ n, n ≠ x.thread → t.thread ⟨x.core, n⟩ = s.thread ⟨x.core, n⟩) (hx : t.thread x = g)
    (hp : p ((s.core x.core).bare.withTiles (t.core x.core)) = p (s.core x.core).bare)
    (hcores : v.cores = u.cores) (hv : ({ v with cores := [] } : State) = { s with cores := [] }) : s.turns x p g v := by
  have hcore (d : CoreId) : v.core d = u.core d := by rw [State.core, hcores, State.core]
  have hthread (n : Fin 4) : v.thread ⟨x.core, n⟩ = t.thread ⟨x.core, n⟩ := by
    rw [State.thread, hcore]
    exact h.thread n
  refine ⟨⟨hv, fun d hd => (hcore d).trans (h.other d hd)⟩, ?_, fun n hne => (hthread n).trans (hn n hne), (hthread x.thread).trans hx⟩
  rw [hcore, h.core, hp]

/-- The instruction ends when its run changed no thread. -/
theorem ends (h : State.Ran o s x t u) {i : Instr} {vals : List Word} {segs : List SegImage} {p : Core → Core} {v : State}
    (ht : ∀ n, t.thread ⟨x.core, n⟩ = (s.entered x i vals segs).thread ⟨x.core, n⟩)
    (hp : p ((s.core x.core).bare.withTiles (t.core x.core)) = p (s.core x.core).bare)
    (hcores : v.cores = u.cores) (hv : ({ v with cores := [] } : State) = { s with cores := [] }) : s.ends x id p v :=
  h.turns (fun n hn => by rw [ht, State.thread_entered, if_neg hn])
    ((ht x.thread).trans (by rw [State.thread_entered, if_pos rfl]; rfl)) hp hcores hv

end State.Ran

/-- Of a core all but its tiles. -/
def Core.exceptTiles (k : Core) : Core := { k with tile := [], tshape := [], opcA := [], opcB := [], latchA := none, latchB := none }

theorem Core.withTiles_setThread (k l : Core) (n : Fin 4) (t : Thread) : k.withTiles (l.setThread n t) = k.withTiles l := rfl

theorem Core.bare_withTiles (k l : Core) : k.bare.withTiles l = (k.withTiles l).bare := rfl

theorem Core.exceptTiles_withTiles (k l : Core) : (k.withTiles l).exceptTiles = k.exceptTiles := rfl

theorem State.thread_modCore_of_threads (s : State) (c : CoreId) {f : Core → Core} (hf : ∀ k, (f k).threads = k.threads) (n : Fin 4) :
    (s.modCore c f).thread ⟨c, n⟩ = s.thread ⟨c, n⟩ := by
  rw [State.thread, State.core_modCore_self, Core.thread, hf]
  rfl

/-- Live words that are as they were need not be put back. -/
theorem State.with_live_self {s u : State} (h : u.live = s.live) : ({ u with live := s.live } : State) = u := by rw [← h]

/-! ### Shapes -/

/-- A core of which a tile has taken a shape (R86, R91). -/
def Core.configured (k : Core) (t : Nat) (w : Word) : Core :=
  { k with
    tshape := SMap.set k.tshape t 0 (if tsRows w = 0 then 0 else w)
    opcA := k.opcA.filter (fun i => i / 32 ≠ t)
    opcB := k.opcB.filter (fun i => i / 32 ≠ t)
    latchA := k.keepLatch t k.latchA
    latchB := k.keepLatch t k.latchB }

theorem State.runTcfg_eq {s : State} {c : CoreId} {t : Nat} {w : Word} (h : tcfgCode t w = none) :
    s.runTcfg c t w = .done (s.modCore c fun k => k.configured t w) := by
  rw [State.runTcfg, h]
  rfl

theorem Core.shape_configured (k : Core) (t : Nat) (w : Word) (n : Nat) :
    (k.configured t w).shape n = if n = t then (if tsRows w = 0 then 0 else w) else k.shape n := SMap.get_set _ _ _ _ _

theorem Core.tile_configured (k : Core) (t : Nat) (w : Word) : (k.configured t w).tile = k.tile := rfl

theorem State.runsTo_configured (s : State) (c : CoreId) (t : Nat) (w : Word) : s.RunsTo id (s.modCore c fun k => k.configured t w) c := by
  refine ⟨rfl, fun d hd => by rw [State.core_modCore, if_neg hd], ?_, fun h => State.quietOver_setCore h _⟩
  rw [State.core_modCore_self]
  rfl

/-- What TCFG captures (R88). -/
def State.tcfgVals (s : State) (x : Site) (form : TcfgForm) (f : FmtTcfg) : List Word :=
  if form = .reg then [s.reg x (f.rows.extractLsb' 1 5)] else []

theorem State.tcfg_answers {s : State} {x : Site} {form : TcfgForm} {f : FmtTcfg} (h : s.ready x (.tcfg x form f) = true) (hq : s.quiet = true)
    (hs : (s.core x.core).mq.stop = none) (hm : (s.core x.core).mq.byMove = none) {w : Word}
    (himage : (s.entryOf x (.tcfg x form f) (s.tcfgVals x form f) []).tcfgImage form f = w) (hcode : tcfgCode f.tile.toNat w = none) :
    Answers (exec (.tcfg x form f) s) fun t => s.ends x id Core.exceptTiles t ∧ (t.core x.core).tile = (s.core x.core).tile ∧
      ∀ n, (t.core x.core).shape n = if n = f.tile.toNat then (if tsRows w = 0 then 0 else w) else (s.core x.core).shape n := by
  have htiles := s.tiles_entered x (.tcfg x form f) (s.tcfgVals x form f) []
  have hrun : (s.entered x (.tcfg x form f) (s.tcfgVals x form f) []).runMatrix x.core
      (s.entryOf x (.tcfg x form f) (s.tcfgVals x form f) []) = .done ((s.entered x (.tcfg x form f) (s.tcfgVals x form f) []).modCore x.core
        fun k => k.configured f.tile.toNat w) := by
    rw [← State.runTcfg_eq hcode, ← himage]
    rfl
  generalize he : s.entered x (.tcfg x form f) (s.tcfgVals x form f) [] = e at htiles hrun
  obtain ⟨u, hu, hran⟩ := State.answers_matrix h hq hs hm rfl (fun _ _ => Instr.noConfusion) (fun s => s.tcfgVals x form f) (fun _ => [])
    (he ▸ hrun) (he ▸ State.runsTo_configured e x.core _ _)
  refine ⟨u, hu, hran.ends (State.thread_modCore_of_threads _ _ fun _ => rfl) (Core.exceptTiles_withTiles _ _) rfl
    hran.outer, ?_, fun n => ?_⟩
  · rw [hran.tile, he, State.core_modCore_self, Core.tile_configured, Core.tile_of_withTiles htiles]
  · rw [hran.shape, he, State.core_modCore_self, Core.shape_configured, Core.shape_of_withTiles htiles]

/-- The shape that TCFG writes: its fields, or the register that it captured (R88). -/
theorem State.tcfgImage_entryOf {s : State} {x : Site} {form : TcfgForm} {f : FmtTcfg} (h : s.ready x (.tcfg x form f) = true) {v : Word}
    (himm : form = .imm → v = BitVec.ofNat 32 (f.rows.toNat + f.bpr.toNat * 2 ^ 6 + f.fmt.toNat * 2 ^ 10 + f.scaled.toNat * 2 ^ 14 +
      f.stile.toNat * 2 ^ 15))
    (hreg : form = .reg → v = s.reg x (f.rows.extractLsb' 1 5)) :
    (s.entryOf x (.tcfg x form f) (s.tcfgVals x form f) []).tcfgImage form f = v := by
  cases form with
  | reg => exact (hreg rfl).symm
  | imm =>
    have hscaled : ∀ b : BitVec 1, b2n (decide (b = 1)) = b.toNat := by decide
    rw [QEntry.tcfgImage, himm rfl, if_neg (by decide), tshapeWord, hscaled]
    rfl
  | reserved => exact absurd h (by simp [State.ready, trapOf, tcfgTrap])

theorem State.runsTo_setReg (s : State) (x : Site) (r : BitVec 5) (v : Word) : s.RunsTo id (s.setReg x r v) x.core := by
  refine ⟨rfl, fun d hd => by rw [State.setReg, State.modThread, State.setThread, State.core_modCore, if_neg hd], ?_,
    fun h => State.quietOver_setCore h _⟩
  rw [State.setReg, State.modThread, State.setThread, State.core_modCore_self]
  rfl

theorem State.tshr_answers {s : State} {x : Site} {f : FmtTcfg} (h : s.ready x (.tshr x f) = true) (hq : s.quiet = true)
    (hs : (s.core x.core).mq.stop = none) (hm : (s.core x.core).mq.byMove = none) : Answers (exec (.tshr x f) s)
      (s.turns x id ((s.thread x).retire.setReg (f.rows.extractLsb' 1 5) ((s.core x.core).shape f.tile.toNat))) := by
  have htiles := s.tiles_entered x (.tshr x f) [] []
  have hthread := s.thread_entered x (.tshr x f) [] []
  have hrun : (s.entered x (.tshr x f) [] []).runMatrix x.core (s.entryOf x (.tshr x f) [] []) = .done ((s.entered x (.tshr x f) [] []).setReg x
      (f.rows.extractLsb' 1 5) (((s.entered x (.tshr x f) [] []).core x.core).shape f.tile.toNat)) := rfl
  rw [Core.shape_of_withTiles htiles] at hrun
  obtain ⟨u, hu, hran⟩ := State.answers_matrix h hq hs hm rfl (fun _ _ => Instr.noConfusion) (fun _ => []) (fun _ => []) hrun
    (State.runsTo_setReg _ _ _ _)
  refine ⟨u, hu, hran.turns (fun n hn => ?_) ?_ ?_ rfl hran.outer⟩
  · rw [State.setReg, State.thread_modThread_ne _ _ fun he => hn (congrArg Site.thread he), hthread, if_neg hn]
  · rw [State.setReg, State.thread_modThread_self]
    have hx : (s.entered x (.tshr x f) [] []).thread x = (s.thread x).retire := (hthread x.thread).trans (if_pos rfl)
    rw [hx]
  · rw [State.setReg, State.modThread, State.setThread, State.core_modCore_self, Core.withTiles_setThread, Core.bare_withTiles, htiles]

/-! ### Rows -/

/-- An instruction whose run writes rows of tiles ends with those rows (R83, R103, R144). -/
theorem State.Ran.ends_rows {s t u : State} {x : Site} {i : Instr} {vals : List Word} {segs : List SegImage}
    (h : State.Ran State.exceptLive s x t u) (ht : (s.entered x i vals segs).WritesRows t x.core) {p : Core → Core}
    (hp : ∀ k l : Core, l.tshape = k.tshape → p (k.withTiles l) = p k) : s.ends x id p { u with live := s.live } ∧
      (u.core x.core).tshape = (s.core x.core).tshape := by
  have hshape := ht.tshape.trans (Core.tshape_of_withTiles (s.tiles_entered x i vals segs))
  exact ⟨h.ends ht.thread (hp _ _ hshape) rfl (State.outer_with_live h.outer), h.tshape.trans hshape⟩

/-- Row `r` of tile `n` while the instruction runs, before its run. -/
theorem State.rowAt_entered (s : State) (x : Site) (i : Instr) (vals : List Word) (segs : List SegImage) (n r : Nat) :
    (s.entered x i vals segs).rowAt x.core n r = s.rowAt x.core n r := by
  rw [State.rowAt, Core.tileRow_of_withTiles (s.tiles_entered x i vals segs), State.rowAt]

/-- The rows of a tile cleared. -/
def State.clearTile (s : State) (c : CoreId) (w : Word) (t : Nat) : State :=
  (List.range (tsRows w)).foldl (fun s r => s.putRow c t r (tsBpr w) 0) s

theorem State.writesRows_clearTile (s : State) (c : CoreId) (w : Word) (t : Nat) : s.WritesRows (s.clearTile c w t) c :=
  State.WritesRows.foldl (fun s r => s.writesRows_putRow c t r _ 0) _ s

theorem State.rowAt_clearTile (s : State) (c : CoreId) {w : Word} (t : Nat) {n r : Nat} (hrows : tsRows w ≤ 32) (hbpr : tsBpr w ≤ 128)
    (hr : r < 32) : (s.clearTile c w t).rowAt c n r = if n = t ∧ r < tsRows w then
      s.rowAt c n r / 2 ^ (8 * tsBpr w) * 2 ^ (8 * tsBpr w) else s.rowAt c n r := by
  refine (foldl_observed (fun _ => True) (State.rowAt · c n r) _ (fun a => n = t ∧ r = a)
    (fun b => b / 2 ^ (8 * tsBpr w) * 2 ^ (8 * tsBpr w)) (cleared_cleared _) (fun _ _ _ => trivial) (fun s a ha _ => ?_) s trivial).trans
    (if_congr ?_ rfl rfl)
  · exact State.rowAt_putRow s c hbpr (Nat.lt_of_lt_of_le (List.mem_range.1 ha) hrows) hr
  · simp [and_comm]

theorem State.runTzero_eq {s : State} {c : CoreId} {f : FmtTzero}
    (h : ∀ n, n < 16 → f.mask.getLsbD n = true → tsRows ((s.core c).shape n) ≠ 0) :
    s.runTzero c f = .done (((List.range 16).filter fun t => f.mask.getLsbD t).foldl (fun u t => u.clearTile c ((s.core c).shape t) t) s) := by
  have hnone : (((List.range 16).filter fun t => f.mask.getLsbD t).find? fun t => tsRows ((s.core c).shape t) = 0) = none := by
    simpa using h
  rw [State.runTzero, hnone]
  rfl

theorem State.rowAt_clearTiles (s : State) (c : CoreId) {k : Core} (hk : k.shapesOk = true) (l : List Nat)
    (hl : ∀ t ∈ l, tsRows (k.shape t) ≠ 0) {n r : Nat} (hr : r < 32) :
    (l.foldl (fun u t => u.clearTile c (k.shape t) t) s).rowAt c n r = if n ∈ l ∧ r < tsRows (k.shape n) then
      s.rowAt c n r / 2 ^ (8 * tsBpr (k.shape n)) * 2 ^ (8 * tsBpr (k.shape n)) else s.rowAt c n r := by
  refine (foldl_observed (fun _ => True) (State.rowAt · c n r) _ (fun t => n = t ∧ r < tsRows (k.shape n))
    (fun b => b / 2 ^ (8 * tsBpr (k.shape n)) * 2 ^ (8 * tsBpr (k.shape n))) (cleared_cleared _) (fun _ _ _ => trivial)
    (fun s t ht _ => ?_) s trivial).trans (if_congr ?_ rfl rfl)
  · obtain ⟨hrows, -, hbpr, -⟩ := tcfgCode_none (Core.tcfgCode_shape hk t) (hl t ht)
    rw [State.rowAt_clearTile s c t hrows hbpr hr]
    by_cases hn : n = t
    · rw [hn]
    · simp [hn]
  · simp

theorem State.tzero_answers {s : State} {x : Site} {f : FmtTzero} (h : s.ready x (.tzero x f) = true) (hq : s.quiet = true)
    (hs : (s.core x.core).mq.stop = none) (hm : (s.core x.core).mq.byMove = none) (hk : (s.core x.core).shapesOk = true)
    (hall : ∀ n, n < 16 → f.mask.getLsbD n = true → tsRows ((s.core x.core).shape n) ≠ 0) :
    Answers (exec (.tzero x f) s) fun t => s.ends x id Core.exceptTiles { t with live := s.live } ∧
      (t.core x.core).tshape = (s.core x.core).tshape ∧
      ∀ n r, n < 16 → r < 32 → ((t.core x.core).tileRow n r).toNat =
        if f.mask.getLsbD n = true ∧ r < tsRows ((s.core x.core).shape n) then
          ((s.core x.core).tileRow n r).toNat / 2 ^ (8 * tsBpr ((s.core x.core).shape n)) * 2 ^ (8 * tsBpr ((s.core x.core).shape n))
        else ((s.core x.core).tileRow n r).toNat := by
  have hshape := Core.shape_of_withTiles (s.tiles_entered x (.tzero x f) [] [])
  have hrun := State.runTzero_eq (s := s.entered x (.tzero x f) [] []) (c := x.core) (f := f) (by rw [hshape]; exact hall)
  rw [hshape] at hrun
  have hrows : (s.entered x (.tzero x f) [] []).WritesRows _ x.core := State.WritesRows.foldl
    (fun u t => u.writesRows_clearTile x.core ((s.core x.core).shape t) t) ((List.range 16).filter fun t => f.mask.getLsbD t) _
  obtain ⟨u, hu, hran⟩ := State.answers_matrix h hq hs hm rfl (fun _ _ => Instr.noConfusion) (fun _ => []) (fun _ => []) hrun hrows.runsTo
  obtain ⟨hends, htshape⟩ := hran.ends_rows hrows (p := Core.exceptTiles) fun _ _ _ => rfl
  refine ⟨u, hu, hends, htshape, fun n r hn hr => ?_⟩
  rw [hran.tileRow, State.rowAt_clearTiles _ _ hk _ (fun t ht => ?_) hr, State.rowAt_entered]
  · simp only [List.mem_filter, List.mem_range, hn, true_and]
    rfl
  · obtain ⟨hlt, hmask⟩ := List.mem_filter.1 ht
    exact hall t (List.mem_range.1 hlt) hmask

/-! ### Moves -/

theorem toNat_ofNat_mod {w : Nat} (b : BitVec w) (m : Nat) : (BitVec.ofNat w (b.toNat % m)).toNat = b.toNat % m := by
  rw [BitVec.toNat_ofNat, Nat.mod_eq_of_lt (Nat.lt_of_le_of_lt (Nat.mod_le _ _) b.isLt)]

theorem State.vmvf_answers {s : State} {x : Site} {f : FmtVmv} (h : s.ready x (.vmvf x f) = true) (hq : s.quiet = true)
    (hs : (s.core x.core).vq.stop = none) (hrows : tsRows ((s.core x.core).shape f.tile.toNat) ≠ 0)
    (hrow : f.row.toNat < tsRows ((s.core x.core).shape f.tile.toNat)) :
    Answers (exec (.vmvf x f) s) fun t => s.ends x id (fun k => { k with vreg := [] }) t ∧ ∀ n, (t.core x.core).vr n =
      if n = f.vr.toNat then ((s.core x.core).tileRow f.tile.toNat f.row.toNat).toNat %
        2 ^ (8 * tsBpr ((s.core x.core).shape f.tile.toNat)) else (s.core x.core).vr n := by
  have htiles := s.tiles_entered x (.vmvf x f) [] []
  have hrun : (s.entered x (.vmvf x f) [] []).runVmv x.core false f = .done ((s.entered x (.vmvf x f) [] []).setV x.core f.vr.toNat
      (((s.core x.core).tileRow f.tile.toNat f.row.toNat).toNat % 2 ^ (8 * tsBpr ((s.core x.core).shape f.tile.toNat)))) := by
    simp [State.runVmv, Core.shape_of_withTiles htiles, Core.tileRow_of_withTiles htiles, hrows, Nat.not_le.2 hrow]
  obtain ⟨u, hu, hlive, hends, hothers, hvr⟩ :=
    State.answers_setV h hq hs rfl (vals := fun _ => []) (segs := fun _ => []) hrun (State.liveOnly_refl _)
  rw [State.with_live_self (hlive.trans ((State.live_setV _ _ _ _).trans (State.live_entered s x _ _ _)))] at hends
  refine ⟨u, hu, hends, fun n => ?_⟩
  split
  · next hn =>
    rw [hn, hvr]
    exact toNat_ofNat_mod _ _
  · next hn => exact hothers n hn

theorem State.vmvt_answers {s : State} {x : Site} {f : FmtVmv} (h : s.ready x (.vmvt x f) = true) (hq : s.quiet = true)
    (hs : (s.core x.core).vq.stop = none) (hk : (s.core x.core).shapesOk = true)
    (hrows : tsRows ((s.core x.core).shape f.tile.toNat) ≠ 0) (hrow : f.row.toNat < tsRows ((s.core x.core).shape f.tile.toNat)) :
    Answers (exec (.vmvt x f) s) fun t => s.ends x id Core.exceptTiles { t with live := s.live } ∧
      (t.core x.core).tshape = (s.core x.core).tshape ∧
      ∀ n r, n < 16 → r < 32 → ((t.core x.core).tileRow n r).toNat = if n = f.tile.toNat ∧ r = f.row.toNat then
        ((s.core x.core).tileRow n r).toNat / 2 ^ (8 * tsBpr ((s.core x.core).shape f.tile.toNat)) *
            2 ^ (8 * tsBpr ((s.core x.core).shape f.tile.toNat)) +
          (s.core x.core).vr f.vr.toNat % 2 ^ (8 * tsBpr ((s.core x.core).shape f.tile.toNat))
        else ((s.core x.core).tileRow n r).toNat := by
  have hvr := State.vr_entered (s := s) (x := x) (i := .vmvt x f) rfl [] []
  obtain ⟨hle, -, hbpr, -⟩ := tcfgCode_none (Core.tcfgCode_shape hk f.tile.toNat) hrows
  have hrun : (s.entered x (.vmvt x f) [] []).runVmv x.core true f = .done ((s.entered x (.vmvt x f) [] []).putRow x.core f.tile.toNat
      f.row.toNat (tsBpr ((s.core x.core).shape f.tile.toNat)) ((s.core x.core).vr f.vr.toNat)) := by
    simp [State.runVmv, Core.shape_of_withTiles (s.tiles_entered x (.vmvt x f) [] []), hvr, hrows, Nat.not_le.2 hrow]
  have hwrites := (s.entered x (.vmvt x f) [] []).writesRows_putRow x.core f.tile.toNat f.row.toNat
    (tsBpr ((s.core x.core).shape f.tile.toNat)) ((s.core x.core).vr f.vr.toNat)
  obtain ⟨u, hu, hran⟩ := State.answers_move h hq hs rfl (fun _ => []) (fun _ => []) hrun hwrites.runsTo
  obtain ⟨hends, htshape⟩ := hran.ends_rows hwrites (p := Core.exceptTiles) fun _ _ _ => rfl
  refine ⟨u, hu, hends, htshape, fun n r _ hr => ?_⟩
  rw [hran.tileRow, State.rowAt_putRow _ _ hbpr (Nat.lt_of_lt_of_le hrow hle) hr, State.rowAt_entered]
  rfl

end Sys2Proof.Machine

open Sys2Proof Sys2Proof.Machine

/-- Settles O26: each instruction runs at once, and its run writes a shape, a register, the rows that it clears or the row that it moves. -/
theorem tileOperations : Obligations.TileOperations := by
  unfold Obligations.TileOperations
  intro s x k hk hq hs hm hv hshapes
  subst hk
  refine ⟨fun form f v h himm hreg hcode => ?_, fun f h => ?_, fun f h hall => ?_, fun f hrows hrow => ⟨fun h => ?_, fun h => ?_⟩⟩
  · exact State.tcfg_answers h hq hs hm (State.tcfgImage_entryOf h himm hreg) hcode
  · exact State.tshr_answers h hq hs hm
  · exact State.tzero_answers h hq hs hm hshapes hall
  · exact State.vmvf_answers h hq hv hrows hrow
  · exact State.vmvt_answers h hq hv hshapes hrows hrow

end

