-- ==== Sys2Proof/Proofs/BytePlaces.lean ====
section
/-!
SUPPORT. Bytes of memory (R30, R242 to R244, R354, R362): the bank functions send the lines of a window to places of their own, so that
a byte that is written is read back, and every other byte is as it was.
-/
namespace Sys2Proof.Machine

/-! ### Bank functions -/

/-- A line number of which the low `k` bits are changed by a key that the bits above choose. -/
def bankedLine (k : Nat) (key : Nat → Nat) (l : Nat) : Nat := l / 2 ^ k * 2 ^ k + (l % 2 ^ k ^^^ key (l / 2 ^ k))

section
variable {k : Nat} {key : Nat → Nat} (hkey : ∀ u, key u < 2 ^ k)
include hkey

theorem bankedLine_div (l : Nat) : bankedLine k key l / 2 ^ k = l / 2 ^ k := by
  have hpos := Nat.two_pow_pos k
  have hlt := Nat.xor_lt_two_pow (Nat.mod_lt l hpos) (hkey (l / 2 ^ k))
  rw [bankedLine, Nat.add_comm, Nat.add_mul_div_right _ _ hpos, Nat.div_eq_of_lt hlt, Nat.zero_add]

theorem bankedLine_mod (l : Nat) : bankedLine k key l % 2 ^ k = l % 2 ^ k ^^^ key (l / 2 ^ k) := by
  have hlt := Nat.xor_lt_two_pow (Nat.mod_lt l (Nat.two_pow_pos k)) (hkey (l / 2 ^ k))
  rw [bankedLine, Nat.add_comm, Nat.add_mul_mod_self_right, Nat.mod_eq_of_lt hlt]

theorem bankedLine_inj {l m : Nat} (h : bankedLine k key l = bankedLine k key m) : l = m := by
  have hdiv : l / 2 ^ k = m / 2 ^ k := by rw [← bankedLine_div hkey, h, bankedLine_div hkey]
  have hmod : l % 2 ^ k = m % 2 ^ k := by
    have hx := congrArg (· % 2 ^ k) h
    simp only [bankedLine_mod hkey, hdiv] at hx
    exact Nat.xor_left_injective.eq_iff.1 hx
  rw [← Nat.div_add_mod l (2 ^ k), hdiv, hmod, Nat.div_add_mod]

end

theorem bitsOf_lt (v lo w : Nat) : bitsOf v lo w < 2 ^ w := Nat.mod_lt _ (Nat.two_pow_pos w)

/-- What of the line and the salt is added to the low bits of a gallery line (R243). -/
def galleryKey (salt u : Nat) : Nat :=
  let v := ((BitVec.ofNat 16 u).rotateLeft (salt % 16)).toNat
  (bitsOf v 0 6).xor ((bitsOf v 6 6).xor (bitsOf v 12 4)) ^^^ bitsOf salt 4 6

/-- What of the line and the salt is added to the low bits of a chamber line (R243). -/
def chamberKey (salt u : Nat) : Nat :=
  let r := bitsOf salt 12 4
  let v := ((BitVec.ofNat 10 u).rotateLeft (if 10 ≤ r then r - 10 else r)).toNat
  (bitsOf v 0 4).xor ((bitsOf v 4 4).xor (bitsOf v 8 2)) ^^^ bitsOf salt 8 4

theorem galleryKey_lt (salt u : Nat) : galleryKey salt u < 2 ^ 6 :=
  Nat.xor_lt_two_pow (Nat.xor_lt_two_pow (bitsOf_lt _ _ _) (Nat.xor_lt_two_pow (bitsOf_lt _ _ _)
    (Nat.lt_trans (bitsOf_lt _ _ _) (by decide)))) (bitsOf_lt _ _ _)

theorem chamberKey_lt (salt u : Nat) : chamberKey salt u < 2 ^ 4 :=
  Nat.xor_lt_two_pow (Nat.xor_lt_two_pow (bitsOf_lt _ _ _) (Nat.xor_lt_two_pow (bitsOf_lt _ _ _)
    (Nat.lt_trans (bitsOf_lt _ _ _) (by decide)))) (bitsOf_lt _ _ _)

theorem galleryPlace_eq (o salt : Nat) : galleryPlace o salt = bankedLine 6 (galleryKey salt) (o / 64) * 64 + o % 64 := by
  simp only [galleryPlace, bankedLine, galleryBank, galleryKey, bitsOf, Nat.pow_zero, Nat.div_one]
  rfl

theorem chamberPlace_eq (o salt : Nat) : chamberPlace o salt = bankedLine 4 (chamberKey salt) (o / 64) * 64 + o % 64 := by
  simp only [chamberPlace, bankedLine, chamberBank, chamberKey, bitsOf, Nat.pow_zero, Nat.div_one]
  rfl

theorem galleryPlace_inj {o p salt : Nat} (h : galleryPlace o salt = galleryPlace p salt) : o = p := by
  rw [galleryPlace_eq, galleryPlace_eq] at h
  have hline : bankedLine 6 (galleryKey salt) (o / 64) = bankedLine 6 (galleryKey salt) (p / 64) := by omega
  have := bankedLine_inj (galleryKey_lt salt) hline
  omega

theorem chamberPlace_inj {o p salt : Nat} (h : chamberPlace o salt = chamberPlace p salt) : o = p := by
  rw [chamberPlace_eq, chamberPlace_eq] at h
  have hline : bankedLine 4 (chamberKey salt) (o / 64) = bankedLine 4 (chamberKey salt) (p / 64) := by omega
  have := bankedLine_inj (chamberKey_lt salt) hline
  omega

theorem galleryPlace_lt {o : Nat} (salt : Nat) (ho : o < 0xC000000) : galleryPlace o salt < 0xC000000 := by
  have hdiv := bankedLine_div (galleryKey_lt salt) (o / 64)
  rw [galleryPlace_eq]
  omega

theorem chamberPlace_lt {o : Nat} (salt : Nat) (ho : o < 0x100000) : chamberPlace o salt < 0x100000 := by
  have hdiv := bankedLine_div (chamberKey_lt salt) (o / 64)
  rw [chamberPlace_eq]
  omega

/-! ### Places of bytes -/

/-- An address of chamber or gallery memory. -/
def isBanked (a : Nat) : Prop := (∃ h o, winOf a = .gallery h o) ∨ ∃ c o, winOf a = .chamber c o

theorem winOf_gallery_iff {a : Nat} {h : HallId} {o : Nat} : winOf a = .gallery h o ↔ o < 0xC000000 ∧ a = galleryBase h + o := by
  refine ⟨fun hw => ?_, fun ⟨ho, ha⟩ => ha ▸ winOf_gallery h ho⟩
  rcases exists_of_winOf_ne_nothing (a := a) (by simp [hw]) with ⟨g, p, hp, rfl⟩ | ⟨p, hp, rfl⟩ | ⟨g, p, hp, rfl⟩ | ⟨c, p, hp, rfl⟩ | ⟨p, hp, rfl⟩
  · simp [winOf_near g hp] at hw
  · simp [winOf_cxl hp] at hw
  · obtain ⟨rfl, rfl⟩ := Win.gallery.inj ((winOf_gallery g hp).symm.trans hw)
    exact ⟨hp, rfl⟩
  · simp [winOf_chamber c hp] at hw
  · simp [winOf_control hp] at hw

theorem winOf_chamber_iff {a : Nat} {c : CoreId} {o : Nat} : winOf a = .chamber c o ↔ o < 0x100000 ∧ a = chamberBase c + o := by
  refine ⟨fun hw => ?_, fun ⟨ho, ha⟩ => ha ▸ winOf_chamber c ho⟩
  rcases exists_of_winOf_ne_nothing (a := a) (by simp [hw]) with ⟨g, p, hp, rfl⟩ | ⟨p, hp, rfl⟩ | ⟨g, p, hp, rfl⟩ | ⟨d, p, hp, rfl⟩ | ⟨p, hp, rfl⟩
  · simp [winOf_near g hp] at hw
  · simp [winOf_cxl hp] at hw
  · simp [winOf_gallery g hp] at hw
  · obtain ⟨rfl, rfl⟩ := Win.chamber.inj ((winOf_chamber d hp).symm.trans hw)
    exact ⟨hp, rfl⟩
  · simp [winOf_control hp] at hw

/-- Different addresses of chamber and gallery memory have different places. -/
theorem State.placeOf_inj (s : State) {a b : Nat} (ha : isBanked a) (hb : isBanked b)
    (h : s.placeOf (winOf a) = s.placeOf (winOf b)) : a = b := by
  have gallery (g : HallId) (o : Nat) (ho : o < 0xC000000) := galleryPlace_lt (s.salt g) ho
  have chamber (c : CoreId) (o : Nat) (ho : o < 0x100000) := chamberPlace_lt (s.salt c.hall) ho
  rcases ha with ⟨g, o, hw⟩ | ⟨c, o, hw⟩ <;> rcases hb with ⟨g', o', hw'⟩ | ⟨c', o', hw'⟩ <;>
    rw [hw, hw'] at h <;> simp only [State.placeOf, galleryBase, chamberBase] at h
  · obtain ⟨ho, rfl⟩ := winOf_gallery_iff.1 hw
    obtain ⟨ho', rfl⟩ := winOf_gallery_iff.1 hw'
    have hp := gallery g o ho
    have hp' := gallery g' o' ho'
    have hg : g = g' := Fin.ext (by omega)
    subst hg
    rw [galleryPlace_inj (by omega : galleryPlace o (s.salt g) = galleryPlace o' (s.salt g))]
  · have hp := gallery g o (winOf_gallery_iff.1 hw).1
    have hg := g.isLt
    omega
  · have hp := gallery g' o' (winOf_gallery_iff.1 hw').1
    have hg := g'.isLt
    omega
  · obtain ⟨ho, rfl⟩ := winOf_chamber_iff.1 hw
    obtain ⟨ho', rfl⟩ := winOf_chamber_iff.1 hw'
    have hp := chamber c o ho
    have hp' := chamber c' o' ho'
    have hc : c = c' := Fin.ext (by omega)
    subst hc
    rw [chamberPlace_inj (by omega : chamberPlace o (s.salt c.hall) = chamberPlace o' (s.salt c.hall))]

/-! ### A byte written -/

theorem SMap.find?_set_ne {α : Type} [DecidableEq α] (m : SMap α) {k j : Nat} (d v : α) (h : j ≠ k) :
    SMap.find? (SMap.set m k d v) j = SMap.find? m j := by
  unfold SMap.set
  split
  · rw [SMap.find?_erase, if_neg h]
  · rw [SMap.find?_put, if_neg h]

/-- There is memory at an address. -/
def State.hasByte (s : State) (a : Nat) : Prop :=
  match winOf a with
  | .cxl t => (s.cxlDecode t).isSome = true
  | .control _ => False
  | .nothing => False
  | _ => True

theorem State.byteAt_of_banked (s : State) {a : Nat} (h : isBanked a) : s.byteAt a = (cellAt s.mem (s.placeOf (winOf a))).getD 0 := by
  rcases h with ⟨h, o, hw⟩ | ⟨c, o, hw⟩
  · rw [State.byteAt_of_gallery s hw, hw]
  · rw [State.byteAt_of_chamber s hw, hw]

theorem State.setByte_of_banked (s : State) {a : Nat} (h : isBanked a) (b : Byte) :
    s.setByte a b = { s with mem := cellSet0 s.mem (s.placeOf (winOf a)) b } := by
  rcases h with ⟨h, o, hw⟩ | ⟨c, o, hw⟩ <;> simp only [State.setByte, hw]

/-- What an address outside chamber and gallery memory reads does not lie there. -/
theorem State.byteAt_withMem (s : State) {a : Nat} (h : ¬isBanked a) (m : List Host.Cell) :
    ({ s with mem := m } : State).byteAt a = s.byteAt a := by
  cases hw : winOf a with
  | gallery g o => exact absurd (.inl ⟨g, o, hw⟩) h
  | chamber c o => exact absurd (.inr ⟨c, o, hw⟩) h
  | cxl t =>
    simp only [State.byteAt, hw]
    rfl
  | near | control | nothing => simp only [State.byteAt, hw]

theorem State.byteAt_setByte_banked (s : State) {a : Nat} (h : isBanked a) (b : Byte) (c : Nat) :
    (s.setByte a b).byteAt c = if c = a then b else s.byteAt c := by
  rw [State.setByte_of_banked s h]
  by_cases hc : isBanked c
  · rw [State.byteAt_of_banked _ hc, State.byteAt_of_banked s hc]
    have hplace : ({ s with mem := cellSet0 s.mem (s.placeOf (winOf a)) b } : State).placeOf = s.placeOf := rfl
    rw [hplace, cellAt_set0]
    exact if_congr ⟨s.placeOf_inj hc h, fun he => by rw [he]⟩ rfl rfl
  · rw [State.byteAt_withMem s hc, if_neg (show c ≠ a from fun he => hc (he ▸ h))]

theorem State.byteAt_setByte_near (s : State) {a : Nat} {h : HallId} {o : Nat} (hw : winOf a = .near h o) (b : Byte) (c : Nat) :
    (s.setByte a b).byteAt c = if c = a then b else s.byteAt c := by
  have hne (hc : ∀ g p, winOf c ≠ .near g p) : c ≠ a := fun he => hc h o (he ▸ hw)
  cases hwc : winOf c with
  | near g p =>
    simp only [State.setByte, hw, State.byteAt, hwc]
    by_cases hca : c = a
    · subst hca
      obtain ⟨rfl, -⟩ := Win.near.inj (hw.symm.trans hwc)
      by_cases hz : SMap.get s.nearZero h.val false = true
      · simp only [hz, if_true, cellAt_set0]
      · simp only [hz, Bool.false_eq_true, if_false, cellAt_put, if_true, Option.getD_some]
    · rw [if_neg hca]
      congr 1
      split
      · exact SMap.find?_set_ne _ _ _ hca
      · rw [cellAt_put, if_neg hca]
  | cxl t =>
    rw [if_neg (hne (by simp [hwc]))]
    simp only [State.setByte, hw, State.byteAt, hwc]
    rfl
  | gallery | chamber =>
    rw [if_neg (hne (by simp [hwc]))]
    simp only [State.setByte, hw, State.byteAt, hwc]
    rfl
  | control | nothing =>
    rw [if_neg (hne (by simp [hwc]))]
    simp only [State.byteAt, hwc]

theorem State.byteAt_setByte_cxl (s : State) {a t : Nat} (hw : winOf a = .cxl t) (ht : (s.cxlDecode t).isSome = true) (b : Byte) (c : Nat) :
    (s.setByte a b).byteAt c = if c = a then b else s.byteAt c := by
  have hne (hc : ∀ p, winOf c ≠ .cxl p) : c ≠ a := fun he => hc t (he ▸ hw)
  have hset : s.setByte a b = { s with cxl := cellPut s.cxl a b } := by simp only [State.setByte, hw, ht, if_true]
  rw [hset]
  cases hwc : winOf c with
  | cxl p =>
    have hdecode : ({ s with cxl := cellPut s.cxl a b } : State).cxlDecode p = s.cxlDecode p := rfl
    simp only [State.byteAt, hwc, hdecode, cellAt_put]
    by_cases hca : c = a
    · subst hca
      obtain rfl := Win.cxl.inj (hw.symm.trans hwc)
      obtain ⟨⟨d, g, e⟩, hd⟩ := Option.isSome_iff_exists.1 ht
      simp [hd]
    · simp only [hca, if_false]
  | gallery | chamber =>
    rw [if_neg (hne (by simp [hwc]))]
    simp only [State.byteAt, hwc]
    rfl
  | near | control | nothing =>
    rw [if_neg (hne (by simp [hwc]))]
    simp only [State.byteAt, hwc]

/-- A byte that is written is read back, and every other byte is as it was. -/
theorem State.byteAt_setByte {s : State} {a : Nat} (h : s.hasByte a) (b : Byte) (c : Nat) :
    (s.setByte a b).byteAt c = if c = a then b else s.byteAt c := by
  cases hw : winOf a with
  | near g o => exact s.byteAt_setByte_near hw b c
  | cxl t => exact s.byteAt_setByte_cxl hw (by simpa only [State.hasByte, hw] using h) b c
  | gallery g o => exact s.byteAt_setByte_banked (.inl ⟨g, o, hw⟩) b c
  | chamber d o => exact s.byteAt_setByte_banked (.inr ⟨d, o, hw⟩) b c
  | control o => exact absurd h (by simp [State.hasByte, hw])
  | nothing => exact absurd h (by simp [State.hasByte, hw])

/-- The state without what writes of memory change: bytes, poison, what a tier has lost, and counters. -/
def State.exceptMemory (s : State) : State := { s with live := [], mem := [], near := [], cxl := [], poison := [], cxlLost := [] }

theorem State.exceptMemory_setByte (s : State) (a : Nat) (b : Byte) : (s.setByte a b).exceptMemory = s.exceptMemory := by
  unfold State.setByte
  repeat' split
  all_goals rfl

theorem State.exceptMemory_setBytes (s : State) (a : Nat) (d : List Byte) : (s.setBytes a d).exceptMemory = s.exceptMemory := by
  induction d generalizing s a with
  | nil => rfl
  | cons b d ih => rw [State.setBytes, ih, State.exceptMemory_setByte]

theorem State.cxlDecode_exceptMemory (s : State) (t : Nat) : s.exceptMemory.cxlDecode t = s.cxlDecode t := rfl

theorem State.hasByte_congr {s t : State} (h : t.exceptMemory = s.exceptMemory) {a : Nat} (ha : s.hasByte a) : t.hasByte a := by
  unfold State.hasByte at ha ⊢
  simp only [← State.cxlDecode_exceptMemory t, h]
  exact ha

/-- Bytes that are written from an address are read back, and every other byte is as it was. -/
theorem State.byteAt_setBytes {s : State} {a : Nat} {d : List Byte} (h : ∀ j, j < d.length → s.hasByte (a + j)) (c : Nat) :
    (s.setBytes a d).byteAt c = if a ≤ c ∧ c < a + d.length then d.getD (c - a) 0 else s.byteAt c := by
  induction d generalizing s a with
  | nil => rw [State.setBytes, if_neg (fun hc => by simpa using Nat.lt_of_le_of_lt hc.1 hc.2)]
  | cons b d ih =>
    have hrest (j : Nat) (hj : j < d.length) : (s.setByte a b).hasByte (a + 1 + j) := by
      refine State.hasByte_congr (s.exceptMemory_setByte a b) ?_
      rw [Nat.add_assoc, Nat.add_comm 1]
      exact h (j + 1) (by simpa using hj)
    rw [State.setBytes, ih hrest, State.byteAt_setByte (a := a) (h 0 (by simp)) b c]
    rcases Nat.lt_trichotomy c a with hlt | rfl | hgt
    · rw [if_neg (by omega), if_neg (by omega), if_neg (by omega)]
    · rw [if_neg (by omega), if_pos rfl, if_pos (by simp), Nat.sub_self, List.getD_cons_zero]
    · rw [if_neg (by omega : c ≠ a), show c - a = c - (a + 1) + 1 by omega, List.getD_cons_succ, List.length_cons]
      exact if_congr (by omega) rfl rfl

/-! ### Bytes read -/

theorem State.bytesAt_add (s : State) (a m n : Nat) : s.bytesAt a (m + n) = s.bytesAt a m ++ s.bytesAt (a + m) n := by
  induction m generalizing a with
  | zero => simp [State.bytesAt]
  | succ m ih => rw [Nat.add_right_comm, State.bytesAt, State.bytesAt, ih, List.cons_append, Nat.add_assoc a 1, Nat.add_comm 1]

theorem State.bytesAt_congr {s t : State} (h : ∀ a, t.byteAt a = s.byteAt a) (a n : Nat) : t.bytesAt a n = s.bytesAt a n := by
  induction n generalizing a with
  | zero => rfl
  | succ n ih => rw [State.bytesAt, State.bytesAt, h, ih]

end Sys2Proof.Machine
end

