-- ==== Sys2Proof/Proofs/LineAccess.lean ====
section
/-!
SUPPORT. Reads and writes of memory that the memories take at once (R24, R31, R249, R252, R260, R349, R353, R364, R447): an access counts
in words on which no other access depends, a read delivers the bytes as they are, and a write changes the bytes that it names.
-/
namespace Sys2Proof.Machine

/-! ### Words on which accesses depend -/

/-- A live word on which it depends where a byte lies and which agents reach it: the partition layout (R24), the scrub states (R428), the
salts (R242) and the states of the tier's links (R364). -/
def PlaceWord (p o : Nat) : Prop :=
  (p = 0 ∧ o = 0x800) ∨ (p = 0xA ∧ 0x800 ≤ o ∧ o < 0x900) ∨ (p % 256 = 0 ∧ 0x100 ≤ p ∧ p < 0x900 ∧ o = 0x8A0) ∨
    ((p = 0x30 ∨ p = 0x34) ∧ 0x800 ≤ o ∧ o < 0x810)

/-- Nothing on which accesses depend differs, but for the bytes, poison and what a tier has lost. -/
structure State.SamePlaces (s t : State) : Prop where
  frame : t.exceptMemory = s.exceptMemory
  word : ∀ p o, PlaceWord p o → t.liveWord p o = s.liveWord p o

theorem State.eq_of_frame {β : Type} {s t : State} (f : State → β) (hf : ∀ r : State, f r.exceptMemory = f r)
    (h : t.exceptMemory = s.exceptMemory) : f t = f s := by rw [← hf t, h, hf s]

namespace State.SamePlaces

variable {s t u : State}

theorem refl (s : State) : s.SamePlaces s := ⟨rfl, fun _ _ _ => rfl⟩

theorem trans (h : s.SamePlaces t) (k : t.SamePlaces u) : s.SamePlaces u :=
  ⟨k.frame.trans h.frame, fun p o ho => (k.word p o ho).trans (h.word p o ho)⟩

theorem hall (h : s.SamePlaces t) (g : HallId) : t.hall g = s.hall g := State.eq_of_frame (fun r => r.hall g) (fun _ => rfl) h.frame

theorem core (h : s.SamePlaces t) (c : CoreId) : t.core c = s.core c := State.eq_of_frame (fun r => r.core c) (fun _ => rfl) h.frame

theorem salt (h : s.SamePlaces t) (g : HallId) : t.salt g = s.salt g := by
  have hg := g.isLt
  rw [State.salt, State.field, h.word _ _ (by unfold PlaceWord hallPage; omega)]
  rfl

theorem cxlDecode (h : s.SamePlaces t) (o : Nat) : t.cxlDecode o = s.cxlDecode o := State.eq_of_frame (fun r => r.cxlDecode o) (fun _ => rfl) h.frame

theorem linkState (h : s.SamePlaces t) {g : Nat} (hg : g < 8) : t.linkState g = s.linkState g := by
  rw [State.linkState, State.field, h.word _ _ (by unfold PlaceWord; omega)]
  rfl

theorem samePart (h : s.SamePlaces t) (a b : HallId) : t.samePart a b = s.samePart a b := by
  rw [State.samePart, State.partLive, State.field, h.word _ _ (.inl ⟨rfl, rfl⟩)]
  rfl

theorem scrubFailed (h : s.SamePlaces t) (g : HallId) : t.scrubFailed g = s.scrubFailed g := by
  have hg := g.isLt
  rw [State.scrubFailed, State.field, h.word _ _ (by unfold PlaceWord; omega)]
  rfl

theorem placeOf (h : s.SamePlaces t) : t.placeOf = s.placeOf := by
  funext w
  cases w <;> simp only [State.placeOf, h.salt]

theorem lineKey (h : s.SamePlaces t) (a : Nat) : t.lineKey a = s.lineKey a := by
  simp only [State.lineKey, h.placeOf]

theorem decoderHas (h : s.SamePlaces t) (d : Nat) (g : HallId) : t.decoderHas d g = s.decoderHas d g :=
  State.eq_of_frame (fun r => r.decoderHas d g) (fun _ => rfl) h.frame

theorem reaches (h : s.SamePlaces t) (a : Agent) (b : Nat) : t.reaches a b = s.reaches a b := by
  simp only [State.reaches, h.samePart, h.scrubFailed, h.cxlDecode, h.decoderHas]

theorem backs (h : s.SamePlaces t) (a : Agent) (b : Nat) : t.backs a b = s.backs a b := by rw [State.backs, h.reaches, State.backs]

theorem wouldHold (h : s.SamePlaces t) (a : Agent) (b : Nat) : t.wouldHold a b = s.wouldHold a b := by
  simp only [State.wouldHold, State.protectedAt, State.behindHeld, h.hall, h.salt]

end State.SamePlaces

/-- A decoder's target is one of the eight links (R362). -/
theorem State.cxlDecode_lt {s : State} {o d g e : Nat} (h : s.cxlDecode o = some (d, g, e)) : g < 8 := by
  obtain ⟨n, -, hn⟩ := List.exists_of_findSome?_eq_some h
  dsimp only at hn
  split at hn
  · obtain ⟨-, rfl, -⟩ := Prod.mk.injEq .. ▸ Option.some.inj hn
    exact Nat.mod_lt _ (by decide)
  · exact absurd hn (by simp)

/-! ### Counts -/

/-- A live word at an offset of its page on which accesses do not depend. -/
theorem State.SamePlaces.setLive {s t : State} (h : s.SamePlaces t) {q r : Nat} (v : Word)
    (hq : ∀ p o, PlaceWord p o → widx p o ≠ widx q r) : s.SamePlaces (t.setLive q r v) :=
  h.trans ⟨rfl, fun p o ho => t.liveWord_setLive_ne v (hq p o ho)⟩

theorem State.SamePlaces.count64 {s t : State} (h : s.SamePlaces t) {q r n : Nat}
    (hq : ∀ p o, PlaceWord p o → widx p o ≠ widx q r ∧ widx p o ≠ widx q (r + 4)) : s.SamePlaces (t.count64 q r n) :=
  (h.setLive _ fun p o ho => (hq p o ho).1).setLive _ fun p o ho => (hq p o ho).2

theorem nearRouter_lt (a : Agent) (o : Nat) : nearRouter a o < 6 := by
  unfold nearRouter
  split
  · unfold CoreId.column
    omega
  · omega

theorem State.samePlaces_countLine (s : State) (a : Agent) (b : Nat) (w : Bool) : s.SamePlaces (s.countLine a b w) := by
  have hrefl := State.SamePlaces.refl s
  unfold State.countLine
  split
  · refine hrefl.count64 fun p o ho => ?_
    unfold PlaceWord at ho
    unfold widx corePage
    omega
  · next h o hw =>
    have hbank : galleryBank (o / 64) (s.salt h) < 64 := by
      have := galleryKey_lt (s.salt h) (o / 64 / 64)
      exact Nat.xor_lt_two_pow (n := 6) (bitsOf_lt _ _ _) this
    have hh := h.isLt
    refine hrefl.count64 fun p o ho => ?_
    unfold PlaceWord at ho
    unfold widx hallPage
    omega
  · next h o hw =>
    have hrouter := nearRouter_lt a o
    have hh := h.isLt
    refine ((hrefl.count64 fun p o ho => ?_).count64 fun p o ho => ?_).count64 fun p o ho => ?_ <;> unfold PlaceWord at ho
    · split <;> unfold widx hallPage <;> omega
    all_goals
      unfold widx hallPage
      omega
  · split
    · refine ((hrefl.count64 fun p o ho => ?_).count64 fun p o ho => ?_).count64 fun p o ho => ?_ <;> unfold PlaceWord at ho
      · split <;> unfold widx <;> omega
      all_goals
        split <;>
        · unfold widx hallPage
          omega
    · exact hrefl
  · exact hrefl

theorem State.liveOnly_count64_trans {s t : State} (h : s.liveOnly t) (p o n : Nat) : s.liveOnly (t.count64 p o n) :=
  State.liveOnly_trans h (State.liveOnly_count64 t p o n)

theorem State.liveOnly_countLine (s : State) (a : Agent) (b : Nat) (w : Bool) : s.liveOnly (s.countLine a b w) := by
  unfold State.countLine
  split
  · exact State.liveOnly_count64 _ _ _ _
  · exact State.liveOnly_count64 _ _ _ _
  · exact State.liveOnly_count64_trans (State.liveOnly_count64_trans (State.liveOnly_count64 _ _ _ _) _ _ _) _ _ _
  · split
    · exact State.liveOnly_count64_trans (State.liveOnly_count64_trans (State.liveOnly_count64 _ _ _ _) _ _ _) _ _ _
    · exact State.liveOnly_refl s
  · exact State.liveOnly_refl s

/-! ### Lines of an access -/

theorem mem_linePieces {k a n : Nat} {p : Nat × Nat} (hp : p ∈ linePieces k a n) : a ≤ p.1 ∧ p.1 + p.2 ≤ a + n ∧ 0 < p.2 := by
  induction k generalizing a n with
  | zero => exact absurd hp (by simp [linePieces])
  | succ k ih =>
    rw [linePieces] at hp
    split at hp
    · exact absurd hp (by simp)
    · rcases List.mem_cons.1 hp with rfl | hp
      · dsimp only
        omega
      · have := ih hp
        omega

/-- A line of an access begins at one of its bytes. -/
theorem mem_pieces {a n : Nat} {p : Nat × Nat} (hp : p ∈ pieces a n) : ∃ j, j < n ∧ p.1 = a + j := by
  have := mem_linePieces hp
  exact ⟨p.1 - a, by omega, by omega⟩

/-- The lines of an access are all its bytes. -/
theorem State.flatMap_linePieces (s : State) {k a n : Nat} (h : n = 0 ∨ a % 64 + n ≤ 64 * k) :
    (linePieces k a n).flatMap (fun p => s.bytesAt p.1 p.2) = s.bytesAt a n := by
  induction k generalizing a n with
  | zero =>
    obtain rfl : n = 0 := by omega
    rfl
  | succ k ih =>
    rw [linePieces]
    split
    · next hn =>
      subst hn
      rfl
    · have hn : n = min n (64 - a % 64) + (n - min n (64 - a % 64)) := by omega
      rw [List.flatMap_cons, ih (by omega), ← State.bytesAt_add, ← hn]

theorem pieces_fuel (a n : Nat) : n = 0 ∨ a % 64 + n ≤ 64 * (n / 64 + 2) := by omega

theorem pieces_one (a : Nat) : pieces a 1 = [(a, 1)] := by
  have hmin : min 1 (64 - a % 64) = 1 := by omega
  simp [pieces, linePieces, hmin]

/-! ### Reads -/

/-- Nothing differs but counters of accesses. -/
structure State.Counted (s t : State) : Prop where
  live : s.liveOnly t
  places : s.SamePlaces t

namespace State.Counted

variable {s t u : State}

theorem refl (s : State) : s.Counted s := ⟨State.liveOnly_refl s, .refl s⟩

theorem trans (h : s.Counted t) (k : t.Counted u) : s.Counted u := ⟨State.liveOnly_trans h.live k.live, h.places.trans k.places⟩

theorem poisoned (h : s.Counted t) (b : Nat) : t.poisoned b = s.poisoned b := by
  have hp : t.poison = s.poison := by rw [h.live]
  have hl : t.cxlLost = s.cxlLost := by rw [h.live]
  have hlost : t.cxlLostAt b = s.cxlLostAt b := by
    unfold State.cxlLostAt
    split
    · rw [h.places.cxlDecode]
      split
      · next hd => rw [h.places.linkState (State.cxlDecode_lt hd), hl]
      · rfl
    · rfl
  rw [State.poisoned, hp, h.places.lineKey, hlost, State.poisoned]

theorem byteAt (h : s.Counted t) (b : Nat) : t.byteAt b = s.byteAt b := by
  have hm : t.mem = s.mem := by rw [h.live]
  have hn : t.near = s.near := by rw [h.live]
  have hx : t.cxl = s.cxl := by rw [h.live]
  have hz : t.nearZero = s.nearZero := by rw [h.live]
  have hg : t.nearGen = s.nearGen := by rw [h.live]
  have hc : t.cxlGen = s.cxlGen := by rw [h.live]
  simp only [State.byteAt, hm, hn, hx, hz, hg, hc, h.places.cxlDecode, h.places.placeOf]

end State.Counted

/-- A byte that an agent reads from memory, without poison (R24, R249). -/
def State.readsAt (s : State) (a : Agent) (b : Nat) : Prop := s.backs a b = true ∧ s.poisoned b = false

theorem State.readsAt_of_takesRead {s : State} {a : Agent} {b : Nat} (h : s.takesRead a b 1) : s.readsAt a b := by
  obtain ⟨hback, -, hpoison⟩ := h
  rw [State.allBack, pieces_one] at hback
  exact ⟨by simpa using hback, hpoison⟩

theorem State.Counted.readsAt {s t : State} (h : s.Counted t) {a : Agent} {b : Nat} (hb : s.readsAt a b) : t.readsAt a b :=
  ⟨(h.places.backs a b).trans hb.1, (h.poisoned b).trans hb.2⟩

theorem State.counted_readLine {s : State} {a : Agent} {b : Nat} (h : s.poisoned b = false) : s.Counted (s.readLine a b) := by
  have hcount : s.Counted (s.countLine a b false) := ⟨s.liveOnly_countLine a b false, s.samePlaces_countLine a b false⟩
  unfold State.readLine
  split
  · split
    · rw [h]
      exact hcount
    · exact hcount
  · exact hcount

theorem State.counted_readLines (a : Agent) (l : List (Nat × Nat)) {s : State} (h : ∀ p ∈ l, s.poisoned p.1 = false) :
    s.Counted (l.foldl (fun s p => s.readLine a p.1) s) := by
  induction l generalizing s with
  | nil => exact .refl s
  | cons p l ih =>
    have hp := State.counted_readLine (a := a) (h p List.mem_cons_self)
    exact hp.trans (ih fun q hq => (hp.poisoned q.1).trans (h q (List.mem_cons_of_mem p hq)))

/-- A read whose bytes are all read from memory delivers them, and counts. -/
theorem State.memRead_eq {s : State} {a : Agent} {b n : Nat} (h : ∀ j, j < n → s.readsAt a (b + j)) :
    ∃ t, s.memRead a b n = ⟨t, s.bytesAt b n, false⟩ ∧ s.Counted t := by
  have hline (p : Nat × Nat) (hp : p ∈ pieces b n) : s.readsAt a p.1 := by
    obtain ⟨j, hj, hpj⟩ := mem_pieces hp
    exact hpj ▸ h j hj
  have hfilter : (pieces b n).filter (fun p => s.backs a p.1) = pieces b n := List.filter_eq_self.2 fun p hp => (hline p hp).1
  have herr : (pieces b n).find? (fun p => !((pieces b n).foldl (fun s p => s.readLine a p.1) s).backs a p.1) = none := by
    have hc := State.counted_readLines a (pieces b n) fun p hp => (hline p hp).2
    refine List.find?_eq_none.2 fun p hp => ?_
    rw [hc.places.backs, (hline p hp).1]
    decide
  have hdata : (pieces b n).flatMap (s.lineData a) = s.bytesAt b n := by
    rw [← s.flatMap_linePieces (pieces_fuel b n)]
    exact List.flatMap_congr fun p hp => if_pos (hline p hp).1
  have hpoison : (pieces b n).any (fun p => s.poisoned p.1) = false :=
    List.any_eq_false.2 fun p hp => by rw [(hline p hp).2]; decide
  refine ⟨_, ?_, State.counted_readLines a (pieces b n) fun p hp => (hline p hp).2⟩
  simp only [State.memRead, hfilter, hdata, hpoison, State.lineErrors, herr]

/-- What a control page takes is no read of memory (R41). -/
theorem control_of_bytes {s : State} {a : Agent} {b n : Nat} (h : ∀ j, j < n → s.backs a (b + j) = true) :
    (isControl b && ctlShape b n) = false := by
  rcases Nat.eq_zero_or_pos n with rfl | hn
  · simp [ctlShape]
  · have := h 0 hn
    simp only [State.backs, Nat.add_zero, Bool.and_eq_true, Bool.not_eq_true'] at this
    rw [this.2, Bool.false_and]

theorem State.busRead_eq {s : State} {x : Site} {b n : Nat} (h : ∀ j, j < n → s.readsAt (.core x) (b + j)) :
    ∃ t, s.busRead x b n = ⟨t, s.bytesAt b n, false⟩ ∧ s.Counted t := by
  rw [State.busRead, State.agentRead, control_of_bytes fun j hj => (h j hj).1]
  exact State.memRead_eq h

/-! ### Writes -/

/-- The bytes `d` are written from address `b`: besides, nothing on which accesses depend differs, and no more is poisoned. -/
structure State.Wrote (s t : State) (b : Nat) (d : List Byte) : Prop where
  places : s.SamePlaces t
  poisoned : ∀ c, s.poisoned c = false → t.poisoned c = false
  byteAt : ∀ c, t.byteAt c = if b ≤ c ∧ c < b + d.length then d.getD (c - b) 0 else s.byteAt c

/-- A byte that an agent writes to memory, which performs the write at once; no tier returns poison for its burst (R24, R356, R363). -/
structure State.writesAt (s : State) (a : Agent) (b : Nat) : Prop where
  backs : s.backs a b = true
  free : s.wouldHold a b = false
  link : ∀ o d g e, winOf b = .cxl o → s.cxlDecode o = some (d, g, e) → s.linkState g = 2
  clean : s.tierClean b

theorem State.writesAt_of_takesWrite {s : State} {a : Agent} {b : Nat} (h : s.takesWrite a b 1) (hc : s.tierClean b) : s.writesAt a b := by
  obtain ⟨hback, -, hprot, hbehind, hlink⟩ := h
  rw [State.allBack, pieces_one] at hback
  exact ⟨by simpa using hback, by rw [State.wouldHold, hprot, hbehind]; rfl, hlink, hc⟩

theorem State.Wrote.writesAt {s t : State} {b c : Nat} {d : List Byte} (h : s.Wrote t b d) {a : Agent} (hc : s.writesAt a c) :
    t.writesAt a c := by
  refine ⟨(h.places.backs a c).trans hc.backs, (h.places.wouldHold a c).trans hc.free, fun o e g f hw hd => ?_,
    fun o hw => h.poisoned c (hc.clean o hw)⟩
  rw [h.places.cxlDecode] at hd
  rw [h.places.linkState (State.cxlDecode_lt hd)]
  exact hc.link o e g f hw hd

theorem State.hasByte_of_backs {s : State} {a : Agent} {b : Nat} (h : s.backs a b = true) : s.hasByte b := by
  rw [State.backs, Bool.and_eq_true, State.reaches, isControl] at h
  unfold State.hasByte
  split
  · next t hw =>
    rw [hw] at h
    obtain ⟨h, -⟩ := h
    dsimp only at h
    split at h
    · next hd => rw [hd]; rfl
    · exact absurd h (by decide)
  · next hw =>
    rw [hw] at h
    exact absurd h.2 Bool.false_ne_true
  · next hw =>
    rw [hw] at h
    exact absurd h.1 Bool.false_ne_true
  · trivial

theorem State.Wrote.trans {s t u : State} {b n : Nat} {d e : List Byte} (h : s.Wrote t b d) (hn : d.length = n) (k : t.Wrote u (b + n) e) :
    s.Wrote u b (d ++ e) := by
  subst hn
  refine ⟨h.places.trans k.places, fun c hc => k.poisoned c (h.poisoned c hc), fun c => ?_⟩
  rw [k.byteAt, h.byteAt, List.length_append]
  by_cases h1 : b ≤ c ∧ c < b + d.length
  · rw [if_neg (by omega), if_pos h1, if_pos (by omega), List.getD_append _ _ _ _ (by omega)]
  · by_cases h2 : b + d.length ≤ c ∧ c < b + d.length + e.length
    · rw [if_pos h2, if_pos (by omega), List.getD_append_right _ _ _ _ (by omega), Nat.sub_sub]
    · rw [if_neg h2, if_neg h1, if_neg (by omega)]

theorem State.wrote_nil (s : State) (b : Nat) : s.Wrote s b [] :=
  ⟨.refl s, fun _ => id, fun c => by rw [if_neg (by rw [List.length_nil]; omega)]⟩

theorem State.Counted.wrote {s t u : State} (h : s.Counted t) {b : Nat} {d : List Byte} (k : t.Wrote u b d) : s.Wrote u b d :=
  ⟨h.places.trans k.places, fun c hc => k.poisoned c ((h.poisoned c).trans hc), fun c => by rw [k.byteAt, h.byteAt]⟩

theorem State.live_setBytes (s : State) (b : Nat) (d : List Byte) :
    (s.setBytes b d).live = s.live ∧ (s.setBytes b d).poison = s.poison ∧ (s.setBytes b d).cxlLost = s.cxlLost := by
  induction d generalizing s b with
  | nil => exact ⟨rfl, rfl, rfl⟩
  | cons v d ih =>
    have hbyte : (s.setByte b v).live = s.live ∧ (s.setByte b v).poison = s.poison ∧ (s.setByte b v).cxlLost = s.cxlLost := by
      unfold State.setByte
      repeat' split
      all_goals exact ⟨rfl, rfl, rfl⟩
    obtain ⟨hl, hp, hc⟩ := ih (s.setByte b v) (b + 1)
    exact ⟨hl.trans hbyte.1, hp.trans hbyte.2.1, hc.trans hbyte.2.2⟩

/-- Fewer poisoned lines and no more lost bursts: no more is poisoned. -/
theorem State.poisoned_of_less {s t : State} (h : s.SamePlaces t)
    (hp : ∀ k, SMap.get s.poison k false = false → SMap.get t.poison k false = false)
    (hl : ∀ c, s.cxlLostAt c = false → t.cxlLostAt c = false) (c : Nat) (hc : s.poisoned c = false) : t.poisoned c = false := by
  simp only [State.poisoned, Bool.or_eq_false_iff] at hc ⊢
  rw [h.lineKey]
  exact ⟨hp _ hc.1, hl c hc.2⟩

/-- What a tier has lost does not grow when a burst is added to those written again (R364). -/
theorem State.cxlLostAt_of_more {s t : State} (h : s.SamePlaces t) {k : Nat}
    (hl : ∀ n, SMap.get t.cxlLost n none = SMap.get s.cxlLost n none ∨
      ∃ l, SMap.get s.cxlLost n none = some l ∧ SMap.get t.cxlLost n none = some (l ++ [k])) (c : Nat)
    (hc : s.cxlLostAt c = false) : t.cxlLostAt c = false := by
  unfold State.cxlLostAt at hc ⊢
  cases hw : winOf c with
  | cxl o =>
    simp only [hw] at hc ⊢
    rw [h.cxlDecode]
    cases hd : s.cxlDecode o with
    | none => rfl
    | some q =>
      obtain ⟨d, g, e⟩ := q
      simp only [hd] at hc ⊢
      rw [h.linkState (State.cxlDecode_lt hd)]
      rcases hl g with he | ⟨l, hs, ht⟩
      · rw [he]
        exact hc
      · simp only [hs, Bool.or_eq_false_iff, Bool.not_eq_false'] at hc
        simp [ht, hc.1, List.contains_iff_mem.1 hc.2]
  | _ => rfl

theorem SMap.get_set_false {m : SMap Bool} (k : Nat) {n : Nat} (h : SMap.get m n false = false) :
    SMap.get (SMap.set m k false false) n false = false := by
  rw [SMap.get_set]
  split
  · rfl
  · exact h

theorem State.wrote_setBytes {s : State} {b : Nat} {d : List Byte} (h : ∀ j, j < d.length → s.hasByte (b + j)) :
    s.Wrote (s.setBytes b d) b d := by
  obtain ⟨hlive, hpoison, hlost⟩ := s.live_setBytes b d
  have hplaces : s.SamePlaces (s.setBytes b d) := ⟨s.exceptMemory_setBytes b d, fun p o _ => by rw [State.liveWord, hlive, State.liveWord]⟩
  refine ⟨hplaces, State.poisoned_of_less hplaces (fun k hk => hpoison ▸ hk) fun c hc => ?_, State.byteAt_setBytes h⟩
  exact State.cxlLostAt_of_more hplaces (k := 0) (fun n => .inl (by rw [hlost])) c hc

/-- A line that is written is no longer poisoned (R249, R353). -/
theorem State.Wrote.clear {s t : State} {b : Nat} {d : List Byte} (h : s.Wrote t b d) (k : Nat) :
    s.Wrote { t with poison := SMap.set t.poison k false false } b d := by
  have hplaces : t.SamePlaces { t with poison := SMap.set t.poison k false false } := ⟨rfl, fun _ _ _ => rfl⟩
  refine ⟨h.places.trans hplaces, fun c hc => ?_, fun c => (h.byteAt c)⟩
  exact State.poisoned_of_less hplaces (fun n hn => SMap.get_set_false k hn)
    (fun c => State.cxlLostAt_of_more hplaces (k := 0) (fun n => .inl rfl) c) c (h.poisoned c hc)

/-- A burst that is written on a link that is up again is no longer lost (R364). -/
theorem State.Wrote.found {s t : State} {b : Nat} {d : List Byte} (h : s.Wrote t b d) {g k : Nat} {l : List Nat}
    (hl : SMap.get t.cxlLost g none = some l) :
    s.Wrote { t with cxlLost := SMap.set t.cxlLost g none (some (l ++ [k])) } b d := by
  have hplaces : t.SamePlaces { t with cxlLost := SMap.set t.cxlLost g none (some (l ++ [k])) } := ⟨rfl, fun _ _ _ => rfl⟩
  refine ⟨h.places.trans hplaces, fun c hc => ?_, fun c => (h.byteAt c)⟩
  refine State.poisoned_of_less hplaces (fun n hn => hn) (fun c => State.cxlLostAt_of_more hplaces (k := k) (fun n => ?_) c) c (h.poisoned c hc)
  rw [SMap.get_set]
  split
  · next hn => exact .inr ⟨l, hn ▸ hl, rfl⟩
  · exact .inl rfl

/-- A write within a line that the memory performs at once. -/
theorem State.wrote_performLine {s : State} {a : Agent} {b : Nat} {d : List Byte} (hd : 0 < d.length)
    (h : ∀ j, j < d.length → s.writesAt a (b + j)) : s.Wrote (s.performLine a b d) b d := by
  have hcount : s.Counted (s.countLine a b true) := ⟨s.liveOnly_countLine a b true, s.samePlaces_countLine a b true⟩
  have hset : s.Wrote ((s.countLine a b true).setBytes b d) b d := hcount.wrote (State.wrote_setBytes fun j hj =>
    State.hasByte_congr hcount.places.frame (State.hasByte_of_backs (h j hj).backs))
  have hfirst := h 0 hd
  rw [Nat.add_zero] at hfirst
  unfold State.performLine
  simp only [if_true]
  split
  · next o hw =>
    rw [hcount.places.cxlDecode]
    split
    · next hnone =>
      have hbyte := State.hasByte_of_backs hfirst.backs
      simp only [State.hasByte, hw, hnone] at hbyte
      exact absurd hbyte (by simp)
    · next e g f hsome =>
      have hclean : ¬(d.length < 64 ∧ (s.countLine a b true).poisoned b = true) := by
        rw [hcount.poisoned, hfirst.clean o hw]
        simp
      rw [if_neg (by rw [hcount.places.linkState (State.cxlDecode_lt hsome)]; simp [hfirst.link o e g f hw hsome]), if_neg hclean]
      split
      · split
        · next l hl => exact (hset.clear _).found hl
        · exact hset.clear _
      · exact hset
  · split
    · exact hset.clear _
    · exact hset

theorem State.wrote_writePieces {a : Agent} {g : WriteTag} {k b : Nat} {d : List Byte} {s : State} (hk : d.length = 0 ∨ b % 64 + d.length ≤ 64 * k)
    (h : ∀ j, j < d.length → s.writesAt a (b + j)) : s.Wrote (s.writePieces a g (linePieces k b d.length) d) b d := by
  induction k generalizing s b d with
  | zero =>
    obtain rfl : d = [] := List.eq_nil_of_length_eq_zero (by omega)
    exact s.wrote_nil b
  | succ k ih =>
    rw [linePieces]
    split
    · next hn =>
      obtain rfl := List.eq_nil_of_length_eq_zero hn
      exact s.wrote_nil b
    · next hn =>
      generalize hm : min d.length (64 - b % 64) = m
      have htake : (d.take m).length = m := by rw [List.length_take]; omega
      have hfirst := h 0 (by omega)
      rw [Nat.add_zero] at hfirst
      have hline : s.Wrote (s.performLine a b (d.take m)) b (d.take m) :=
        State.wrote_performLine (by omega) fun j hj => h j (by omega)
      have hdrop : (d.drop m).length = d.length - m := List.length_drop
      have hrest := ih (s := s.performLine a b (d.take m)) (b := b + m) (d := d.drop m) (by omega) fun j hj => by
        rw [Nat.add_assoc]
        exact hline.writesAt (h (m + j) (by omega))
      rw [hdrop] at hrest
      have hall := hline.trans htake hrest
      rw [List.take_append_drop] at hall
      simpa only [State.writePieces, hfirst.backs, if_true, State.writeLine, hfirst.free, Bool.false_eq_true, if_false] using hall

/-- A write whose bytes are all written to memory at once writes them. -/
theorem State.wrote_memWrite {s : State} {a : Agent} {b : Nat} {d : List Byte} (g : WriteTag) (h : ∀ j, j < d.length → s.writesAt a (b + j)) :
    s.Wrote (s.memWrite a b d g) b d := by
  have hw : s.Wrote (s.writePieces a g (pieces b d.length) d) b d := State.wrote_writePieces (pieces_fuel b d.length) h
  have herr : (pieces b d.length).find? (fun p => !(s.writePieces a g (pieces b d.length) d).backs a p.1) = none := by
    refine List.find?_eq_none.2 fun p hp => ?_
    obtain ⟨j, hj, hpj⟩ := mem_pieces hp
    rw [hpj, hw.places.backs, (h j hj).backs]
    decide
  rw [State.memWrite, State.lineErrors, herr]
  exact hw

theorem State.wrote_entryWrite {s : State} {c : CoreId} {e : QEntry} {o b : Nat} {d : List Byte}
    (h : ∀ j, j < d.length → s.writesAt (.core ⟨c, e.thread⟩) (b + j)) : s.Wrote (s.entryWrite c e o b d) b d := by
  rw [State.entryWrite, State.agentWrite, control_of_bytes fun j hj => (h j hj).backs]
  exact State.wrote_memWrite _ h

end Sys2Proof.Machine
end

