-- ==== Sys2Proof/Proofs/TileRows.lean ====
section
/-!
SUPPORT. Rows of a transfer written into a tile (R83, R98, R99, R102): the elements and scales that the rows then hold, and the rows that
stay as they were.
-/
namespace Sys2Proof.Machine

/-! ### The first bytes of a row -/

/-- A row of which the first `n` bytes are replaced by those of `v`. -/
def withLow (n old v : Nat) : Nat := old / 2 ^ (8 * n) * 2 ^ (8 * n) + v % 2 ^ (8 * n)

theorem bitElem_withLow {w i n : Nat} (old v : Nat) (h : w * i + w ≤ 8 * n) : bitElem w (withLow n old v) i = bitElem w v i := by
  apply Nat.eq_of_testBit_eq
  intro j
  rw [testBit_bitElem, testBit_bitElem, withLow, Nat.mul_comm, Nat.testBit_two_pow_mul_add _ (Nat.mod_lt _ (Nat.two_pow_pos _)),
    Nat.testBit_mod_two_pow]
  by_cases hj : j < w
  · simp [show w * i + j < 8 * n by omega]
  · simp [hj]

theorem withLow_zero (n old : Nat) : withLow n old 0 = old / 2 ^ (8 * n) * 2 ^ (8 * n) := by rw [withLow, Nat.zero_mod, Nat.add_zero]

/-- The elements of a shape lie in the bytes of its rows (R85). -/
theorem elem_le_bpr {w : Word} {i : Nat} (hi : i < tsElems w) : fmtWidth (tsFmt w) * i + fmtWidth (tsFmt w) ≤ 8 * tsBpr w := by
  have hlane := Nat.mul_le_mul_left (fmtWidth (tsFmt w)) (Nat.succ_le_of_lt hi)
  have hall := Nat.mul_div_le (tsBpr w * 8) (fmtWidth (tsFmt w))
  rw [Nat.mul_succ] at hlane
  rw [tsElems] at hlane
  omega

theorem length_scaleRow (f k : Nat) (l : List Num) : (scaleRow f k l).1.length ≤ k := by
  induction k generalizing l with
  | zero => exact Nat.le_refl 0
  | succ k ih =>
    cases l with
    | nil => exact Nat.zero_le _
    | cons v l => exact Nat.succ_le_succ (ih _)

/-- Scales are chosen for a block-scaled tile alone, at most 16 of them for a row (R99). -/
theorem rowIn_scales {w : Word} {m : Nat} {encs l : List Nat} (h : (rowIn w m encs).scales = some l) :
    tsScaled w = true ∧ l.length ≤ 16 := by
  unfold rowIn at h
  dsimp only at h
  split at h
  · exact absurd h (by simp)
  · split at h
    · next hs => exact ⟨hs, Option.some.inj h ▸ length_scaleRow _ 16 _⟩
    · exact absurd h (by simp)

/-! ### Rows written -/

/-- A row after the first bytes of one row are written (R83). -/
theorem State.rowAt_putRow_withLow (s : State) (c : CoreId) {t r n v t' r' : Nat} (hn : n ≤ 128) (hr : r < 32) (hr' : r' < 32) :
    (s.putRow c t r n v).rowAt c t' r' = if t' = t ∧ r' = r then withLow n (s.rowAt c t' r') v else s.rowAt c t' r' :=
  s.rowAt_putRow c hn hr hr'

theorem State.writesRows_writeRowIn (s : State) (c : CoreId) (t r : Nat) (w : Word) (v : RowIn) : s.WritesRows (s.writeRowIn c t r w v) c := by
  unfold State.writeRowIn
  dsimp only
  split
  · exact (s.writesRows_putRow c t r _ _).trans (State.writesRows_putRow _ _ _ _ _ _)
  · exact s.writesRows_putRow c t r _ _

theorem State.writesRows_fillRows (s : State) (c : CoreId) (t : Nat) (w : Word) (m : Nat) (src : List (Nat × List Nat)) :
    s.WritesRows (s.fillRows c t w m src).1 c := by
  induction src generalizing s with
  | nil => exact .refl s c
  | cons p src ih => exact (s.writesRows_writeRowIn c t p.1 w _).trans (ih _)

section
variable {c : CoreId} {t : Nat} {w : Word} {m : Nat} (hshape : tcfgCode t w = none) (hconf : tsRows w ≠ 0)
include hshape hconf

/-- A row of a tile is written: what becomes of a row of any tile. -/
theorem State.rowAt_writeRowIn (s : State) {r n r' : Nat} (encs : List Nat) (hr : r < 32) (hr' : r' < 32) :
    (s.writeRowIn c t r w (rowIn w m encs)).rowAt c n r' =
      if n = t ∧ r' = r then withLow (tsBpr w) (s.rowAt c n r') (packElems (fmtWidth (tsFmt w)) (rowIn w m encs).encs)
      else (rowIn w m encs).scales.elim (s.rowAt c n r') fun l =>
        if n = tsStile w ∧ r' = r then withLow l.length (s.rowAt c n r') (packElems 8 l) else s.rowAt c n r' := by
  obtain ⟨-, -, hbpr, -, -, hstile⟩ := tcfgCode_none hshape hconf
  unfold State.writeRowIn
  cases hl : (rowIn w m encs).scales with
  | none => exact s.rowAt_putRow_withLow c hbpr hr hr'
  | some l =>
    obtain ⟨hscaled, hlen⟩ := rowIn_scales hl
    have hne := hstile hscaled
    simp only [Option.elim_some]
    rw [State.rowAt_putRow_withLow _ c (by omega) hr hr', State.rowAt_putRow_withLow s c hbpr hr hr']
    by_cases h1 : n = t ∧ r' = r
    · rw [if_neg (fun h => hne (h.1.symm.trans h1.1)), if_pos h1, if_pos h1]
    · rw [if_neg h1, if_neg h1]

/-- Rows of a number that is not among those written are as they were. -/
theorem State.rowAt_fillRows_of_not_mem (s : State) {src : List (Nat × List Nat)} (hsrc : ∀ p ∈ src, p.1 < 32) {n r : Nat} (hr : r < 32)
    (hnot : ∀ encs, (r, encs) ∉ src) : (s.fillRows c t w m src).1.rowAt c n r = s.rowAt c n r := by
  induction src generalizing s with
  | nil => rfl
  | cons p src ih =>
    have hne : r ≠ p.1 := fun h => hnot p.2 (by rw [h]; exact List.mem_cons_self)
    rw [State.fillRows, ih _ (fun q hq => hsrc q (List.mem_cons_of_mem p hq)) fun encs he => hnot encs (List.mem_cons_of_mem p he),
      State.rowAt_writeRowIn hshape hconf s _ (hsrc p List.mem_cons_self) hr, if_neg fun h => hne h.2]
    cases (rowIn w m p.2).scales with
    | none => rfl
    | some l => exact if_neg fun h => hne h.2

/-- Rows of a tile that is neither the one loaded nor its scale tile are as they were. -/
theorem State.rowAt_fillRows_other (s : State) {src : List (Nat × List Nat)} (hsrc : ∀ p ∈ src, p.1 < 32) {n r : Nat} (hr : r < 32)
    (hn : n ≠ t) (hscale : tsScaled w = true → n ≠ tsStile w) : (s.fillRows c t w m src).1.rowAt c n r = s.rowAt c n r := by
  induction src generalizing s with
  | nil => rfl
  | cons p src ih =>
    rw [State.fillRows, ih _ fun q hq => hsrc q (List.mem_cons_of_mem p hq),
      State.rowAt_writeRowIn hshape hconf s _ (hsrc p List.mem_cons_self) hr, if_neg fun h => hn h.1]
    cases hl : (rowIn w m p.2).scales with
    | none => rfl
    | some l => exact if_neg fun h => hscale (rowIn_scales hl).1 h.1

/-- A row that is written holds its elements, and the row of the scale tile the scales that were chosen. -/
theorem State.rowAt_fillRows_of_mem (s : State) {src : List (Nat × List Nat)} (hsrc : ∀ p ∈ src, p.1 < 32) (hnd : (src.map Prod.fst).Nodup)
    {r : Nat} {encs : List Nat} (hmem : (r, encs) ∈ src) :
    (∃ old, (s.fillRows c t w m src).1.rowAt c t r = withLow (tsBpr w) old (packElems (fmtWidth (tsFmt w)) (rowIn w m encs).encs)) ∧
      ∀ l, (rowIn w m encs).scales = some l → ∃ old, (s.fillRows c t w m src).1.rowAt c (tsStile w) r = withLow l.length old (packElems 8 l) := by
  induction src generalizing s with
  | nil => exact absurd hmem (by simp)
  | cons p src ih =>
    have htail (q : Nat × List Nat) (hq : q ∈ src) : q.1 < 32 := hsrc q (List.mem_cons_of_mem p hq)
    rw [List.map_cons, List.nodup_cons] at hnd
    rcases List.mem_cons.1 hmem with rfl | hmem
    · have hr := hsrc (r, encs) List.mem_cons_self
      have hnot (l : List Nat) : (r, l) ∉ src := fun h => hnd.1 (List.mem_map.2 ⟨_, h, rfl⟩)
      refine ⟨⟨s.rowAt c t r, ?_⟩, fun l hl => ⟨s.rowAt c (tsStile w) r, ?_⟩⟩
      · rw [State.fillRows, State.rowAt_fillRows_of_not_mem hshape hconf _ htail hr hnot, State.rowAt_writeRowIn hshape hconf s _ hr hr,
          if_pos ⟨rfl, rfl⟩]
      · obtain ⟨-, -, -, -, -, hstile⟩ := tcfgCode_none hshape hconf
        rw [State.fillRows, State.rowAt_fillRows_of_not_mem hshape hconf _ htail hr hnot, State.rowAt_writeRowIn hshape hconf s _ hr hr,
          if_neg fun h => hstile (rowIn_scales hl).1 h.1, hl]
        exact if_pos ⟨rfl, rfl⟩
    · exact ih _ htail hnd.2 hmem

end

/-! ### Rows masked off -/

theorem State.writesRows_zeroTileRow (s : State) (c : CoreId) (t r : Nat) (w : Word) : s.WritesRows (s.zeroTileRow c t r w) c := by
  unfold State.zeroTileRow
  dsimp only
  split
  · exact (s.writesRows_putRow c t r _ _).trans (State.writesRows_putRow _ _ _ _ _ _)
  · exact s.writesRows_putRow c t r _ _

/-- Rows that a transfer clears: a tile's, and of a block-scaled tile its scale tile's with the bytes of their own shape (R102). -/
theorem State.rowAt_zeroTileRows (s : State) {c : CoreId} {t : Nat} {w g : Word} (hshape : tcfgCode t w = none) (hconf : tsRows w ≠ 0)
    (hg : tsScaled w = true → (s.core c).shape (tsStile w) = g ∧ tsBpr g ≤ 128) {l : List Nat} (hl : ∀ r ∈ l, r < 32) {n r : Nat} (hr : r < 32) :
    (l.foldl (fun s r => s.zeroTileRow c t r w) s).rowAt c n r =
      if r ∈ l ∧ (n = t ∨ (tsScaled w = true ∧ n = tsStile w)) then withLow (if n = t then tsBpr w else tsBpr g) (s.rowAt c n r) 0
      else s.rowAt c n r := by
  obtain ⟨-, -, hbpr, -, -, hstile⟩ := tcfgCode_none hshape hconf
  refine (foldl_observed (fun u => tsScaled w = true → (u.core c).shape (tsStile w) = g) (State.rowAt · c n r) _
    (fun r' => r = r' ∧ (n = t ∨ (tsScaled w = true ∧ n = tsStile w))) (fun b => withLow (if n = t then tsBpr w else tsBpr g) b 0)
    (fun b => ?_) (fun u r' hu hs => ?_) (fun u r' hr' hu => ?_) s fun hs => (hg hs).1).trans (if_congr ?_ rfl rfl)
  · simp only [withLow_zero, cleared_cleared]
  · rw [(u.writesRows_zeroTileRow c t r' w).shape]
    exact hu hs
  · unfold State.zeroTileRow
    dsimp only
    split
    · next hs =>
      obtain ⟨-, hgb⟩ := hg hs
      rw [(u.writesRows_putRow c t r' (tsBpr w) 0).shape, hu hs, State.rowAt_putRow_withLow _ c hgb (hl r' hr') hr,
        State.rowAt_putRow_withLow u c hbpr (hl r' hr') hr]
      by_cases hn : n = t
      · have hne : t ≠ tsStile w := fun h => hstile hs h.symm
        simp only [hn, hne, false_and, if_false, true_and, true_or, and_true, if_true]
      · simp only [hn, hs, false_and, if_false, true_and, false_or, and_comm]
    · next hs =>
      rw [State.rowAt_putRow_withLow u c hbpr (hl r' hr') hr]
      by_cases hn : n = t
      · simp only [hn, true_and, true_or, and_true, if_true]
      · simp [hn, hs]
  · simp

end Sys2Proof.Machine
end

