-- ==== Sys2Proof/Proofs/TileLoads.lean ====
section
/-!
SUPPORT. TLD and TLDX in an idle matrix engine (R95 to R102): what each reads when no row faults or waits, and what its command leaves.
-/
namespace Sys2Proof.Machine

/-! ### The state in which the instruction runs -/

/-- What does not look at cores is the same of two states that differ in one core alone. -/
theorem State.eq_of_sameOutside {β : Type} (f : State → β) (hf : ∀ r : State, f { r with cores := [] } = f r) {s t : State} {c : CoreId}
    (h : s.sameOutside t c) : f t = f s := by rw [← hf t, h.1, hf]

theorem State.takesRead_sameOutside {s t : State} {c : CoreId} (h : s.sameOutside t c) (a : Agent) (b n : Nat) :
    t.takesRead a b n = s.takesRead a b n := State.eq_of_sameOutside (fun r => r.takesRead a b n) (fun _ => rfl) h

theorem State.takesLines_cores (s : State) (a : Agent) (more : List Nat) (l : List (Nat × Nat)) :
    ({ s with cores := [] } : State).takesLines a more l = s.takesLines a more l := by
  induction l generalizing more with
  | nil => rfl
  | cons p l ih =>
    simp only [State.takesLines, ih]
    rfl

theorem State.takesWrite_sameOutside {s t : State} {c : CoreId} (h : s.sameOutside t c) (a : Agent) (b n : Nat) :
    t.takesWrite a b n = s.takesWrite a b n := by
  refine State.eq_of_sameOutside (fun r => r.takesWrite a b n) (fun r => ?_) h
  simp only [State.takesWrite, State.writeStalls, State.writesStall, State.takesLines_cores]
  rfl

theorem State.tierClean_sameOutside {s t : State} {c : CoreId} (h : s.sameOutside t c) (b : Nat) :
    t.tierClean b = s.tierClean b := State.eq_of_sameOutside (fun r => r.tierClean b) (fun _ => rfl) h

theorem State.byteAt_sameOutside {s t : State} {c : CoreId} (h : s.sameOutside t c) (b : Nat) :
    t.byteAt b = s.byteAt b := State.eq_of_sameOutside (fun r => r.byteAt b) (fun _ => rfl) h

/-! ### Rows that no memory holds back -/

/-- A read waits at no memory when none of its bytes does. -/
theorem State.readStalls_of_bytes {s : State} {a : Agent} {b n : Nat} (h : ∀ j, j < n → s.readStalls a (b + j) 1 = false) :
    s.readStalls a b n = false := by
  refine List.any_eq_false.2 fun p hp => ?_
  obtain ⟨j, hj, hpj⟩ := mem_pieces hp
  have := h j hj
  rw [State.readStalls, pieces_one, List.any_cons, List.any_nil, Bool.or_false] at this
  rw [hpj, this]
  exact Bool.false_ne_true

/-- A write of one byte that waits at no memory and is not held. -/
theorem State.takesLines_of_byte {s : State} {a : Agent} {b : Nat} (h : s.takesWrite a b 1) :
    s.wouldHold a b = false ∧ s.takesLines a [] [(b, 1)] = true := by
  obtain ⟨-, hstall, hprot, hbehind, -⟩ := h
  rw [State.writeStalls, State.writesStall, List.flatMap_cons, List.flatMap_nil, pieces_one] at hstall
  exact ⟨by rw [State.wouldHold, hprot, hbehind]; rfl, by simpa using hstall⟩

/-- Lines none of which waits or is held are taken together. -/
theorem State.takesLines_of_each {s : State} {a : Agent} {l : List (Nat × Nat)} (h : ∀ p ∈ l, s.takesWrite a p.1 1) :
    s.takesLines a [] l = true := by
  induction l with
  | nil => rfl
  | cons p l ih =>
    obtain ⟨hfree, hp⟩ := State.takesLines_of_byte (h p List.mem_cons_self)
    have hrest := ih fun q hq => h q (List.mem_cons_of_mem p hq)
    rw [State.takesLines] at hp ⊢
    rw [hfree]
    split at hp
    · next hr =>
      rw [if_pos hr]
      simp only [State.takesLines, Bool.and_true] at hp
      simp [hp, hrest]
    · next hr =>
      rw [if_neg hr]
      exact hrest

/-- Writes made together wait at no memory when each of their bytes is taken. -/
theorem State.writesStall_of_bytes {s : State} {a : Agent} {l : List (Nat × Nat)}
    (h : ∀ p ∈ l, ∀ j, j < p.2 → s.takesWrite a (p.1 + j) 1) : s.writesStall a l = false := by
  rw [State.writesStall, State.takesLines_of_each fun p hp => ?_]
  · rfl
  · obtain ⟨q, hq, hpq⟩ := List.mem_flatMap.1 hp
    obtain ⟨j, hj, hpj⟩ := mem_pieces hpq
    exact hpj ▸ h q hq j hj

theorem State.rowsStall_read {s : State} {x : Site} {y : Transfer} {rows : List Nat} (hy : y.right = .read)
    (h : ∀ r ∈ rows, ∀ j, j < y.len → s.takesRead (.core x) (y.addr r + j) 1) : s.rowsStall x y rows = false := by
  rw [State.rowsStall, hy]
  refine List.any_eq_false.2 fun r hr => ?_
  rw [State.readStalls_of_bytes fun j hj => (h r (List.mem_filter.1 hr).1 j hj).2.1]
  exact Bool.false_ne_true

theorem State.rowsStall_write {s : State} {x : Site} {y : Transfer} {rows : List Nat} (hy : y.right = .write)
    (h : ∀ r ∈ rows, ∀ j, j < y.len → s.takesWrite (.core x) (y.addr r + j) 1) : s.rowsStall x y rows = false := by
  rw [State.rowsStall, hy]
  refine State.writesStall_of_bytes fun p hp j hj => ?_
  obtain ⟨r, hr, rfl⟩ := List.mem_map.1 hp
  exact h r (List.mem_filter.1 hr).1 j hj

/-- The rows of a transfer that no check stops and no poison meets are read as they are (R96, R97). -/
theorem State.readRows_eq {s : State} {x : Site} {y : Transfer} {t : Nat} {tr : Bool} {rows : List Nat}
    (hcheck : ∀ r ∈ rows, y.rowCause r = none) (h : ∀ r ∈ rows, ∀ j, j < y.len → s.readsAt (.core x) (y.addr r + j)) :
    ∃ u, s.readRows x y t tr rows = ⟨u, rows.map fun r => (r, s.bytesAt (y.addr r) y.len), none⟩ ∧ s.Counted u := by
  induction rows generalizing s with
  | nil => exact ⟨s, rfl, .refl s⟩
  | cons r rows ih =>
    obtain ⟨u, hread, hu⟩ := State.busRead_eq (h r List.mem_cons_self)
    obtain ⟨v, hrest, hv⟩ := ih (s := u) (fun q hq => hcheck q (List.mem_cons_of_mem r hq))
      fun q hq j hj => hu.readsAt (h q (List.mem_cons_of_mem r hq) j hj)
    refine ⟨v, ?_, hu.trans hv⟩
    have hbytes (q : Nat) : u.bytesAt (y.addr q) y.len = s.bytesAt (y.addr q) y.len := State.bytesAt_congr hu.byteAt _ _
    simp only [State.readRows, hcheck r List.mem_cons_self, hread, hrest, hbytes, Bool.false_eq_true, if_false, List.map_cons]

/-! ### TLD and TLDX -/

/-- What the rows of a tile hold after a transfer into it: `src` lists the rows that it wrote with their elements in the memory's format
`m`, and `zeroed` says which other rows it cleared (R96 to R102). -/
structure State.Filled (s : State) (x : Site) (tile m : Nat) (w : Word) (src : List (Nat × List Nat)) (zeroed : Nat → Bool)
    (row : Nat → Nat → Nat) : Prop where
  elems : ∀ r encs, (r, encs) ∈ src → ∃ v, v = rowIn w m encs ∧
    (∀ i, i < tsElems w → bitElem (fmtWidth (tsFmt w)) (row tile r) i = v.encs.getD i 0 % 2 ^ fmtWidth (tsFmt w)) ∧
    ∀ l, v.scales = some l → ∀ i, i < l.length → bitElem 8 (row (tsStile w) r) i = l.getD i 0 % 2 ^ 8
  cleared : ∀ r, r < 32 → (∀ encs, (r, encs) ∉ src) → zeroed r = true →
    row tile r = s.rowAt x.core tile r / 2 ^ (8 * tsBpr w) * 2 ^ (8 * tsBpr w) ∧
      (tsScaled w = true → row (tsStile w) r = s.rowAt x.core (tsStile w) r / 2 ^ (8 * tsBpr ((s.core x.core).shape (tsStile w))) *
        2 ^ (8 * tsBpr ((s.core x.core).shape (tsStile w))))
  kept : ∀ r, r < 32 → (∀ encs, (r, encs) ∉ src) → zeroed r = false → row tile r = s.rowAt x.core tile r
  others : ∀ n r, n < 16 → r < 32 → n ≠ tile → (tsScaled w = true → n ≠ tsStile w) → row n r = s.rowAt x.core n r

/-- A tile that a transfer may use is configured, and so is its scale tile (R90). -/
theorem Core.transferFault_none {k : Core} {t m : Nat} {tr : Bool} (h : k.transferFault t m tr = none) :
    tsRows (k.shape t) ≠ 0 ∧ (tsScaled (k.shape t) = true → tsRows (k.shape (tsStile (k.shape t))) ≠ 0) := by
  have huse : k.useFault t = none := by
    rw [Core.transferFault] at h
    split at h
    · exact absurd h (by simp)
    · next hu => exact hu
  rw [Core.useFault] at huse
  split_ifs at huse with hrows hscale
  refine ⟨hrows, fun hs => ?_⟩
  simp only [hs, Bool.true_and, Bool.not_eq_true, Bool.not_eq_false', Core.scaleOk, Bool.and_eq_true, bne_iff_ne] at hscale
  exact hscale.2

theorem Core.transferFault_of_withTiles {k l : Core} (h : k.withTiles l = k) (t m : Nat) (tr : Bool) :
    l.transferFault t m tr = k.transferFault t m tr := by
  have hf := congrArg (fun r : Core => r.transferFault t m tr) h
  exact hf

/-- Rows written and then rows cleared, from a state whose tiles are those before the instruction. -/
theorem State.filled_fillRows {s u : State} {x : Site} {tile m : Nat} {w : Word} {src : List (Nat × List Nat)} {zl : List Nat}
    (hk : (s.core x.core).shapesOk = true) (hw : w = (s.core x.core).shape tile) (hconf : tsRows w ≠ 0)
    (hscale : tsScaled w = true → tsRows ((s.core x.core).shape (tsStile w)) ≠ 0)
    (hu : (s.core x.core).withTiles (u.core x.core) = s.core x.core)
    (hsrc : ∀ p ∈ src, p.1 < 32) (hnd : (src.map Prod.fst).Nodup) (hz : ∀ r ∈ zl, r < 32 ∧ ∀ encs, (r, encs) ∉ src) :
    s.Filled x tile m w src (fun r => decide (r ∈ zl))
      ((zl.foldl (fun s r => s.zeroTileRow x.core tile r w) (u.fillRows x.core tile w m src).1).rowAt x.core) := by
  have hshape : tcfgCode tile w = none := hw ▸ Core.tcfgCode_shape hk tile
  have hold (n r : Nat) : u.rowAt x.core n r = s.rowAt x.core n r := by rw [State.rowAt, Core.tileRow_of_withTiles hu, State.rowAt]
  obtain ⟨hrows, -, -, -, -, hstile⟩ := tcfgCode_none hshape hconf
  have hzero (n r : Nat) (hr : r < 32) := State.rowAt_zeroTileRows (u.fillRows x.core tile w m src).1 (c := x.core) (l := zl) (n := n) hshape hconf
    (g := (s.core x.core).shape (tsStile w)) (fun hs => by
      obtain ⟨-, -, hbpr, -⟩ := tcfgCode_none (Core.tcfgCode_shape hk _) (hscale hs)
      rw [(u.writesRows_fillRows x.core tile w m src).shape, Core.shape_of_withTiles hu]
      exact ⟨rfl, hbpr⟩) (fun r hr => (hz r hr).1) hr
  have hnot {r : Nat} (hr : r < 32) (hr' : ∀ encs, (r, encs) ∉ src) (n : Nat) :
      (u.fillRows x.core tile w m src).1.rowAt x.core n r = s.rowAt x.core n r := by
    rw [State.rowAt_fillRows_of_not_mem hshape hconf u hsrc hr hr', hold]
  refine ⟨fun r encs hmem => ⟨_, rfl, ?_⟩, fun r hr hr' hzr => ?_, fun r hr hr' hzr => ?_, fun n r hn hr hne hst => ?_⟩
  · have hr := hsrc _ hmem
    have hzl : r ∉ zl := fun h => (hz r h).2 encs hmem
    obtain ⟨⟨old, htile⟩, hscales⟩ := State.rowAt_fillRows_of_mem (c := x.core) (m := m) hshape hconf u hsrc hnd hmem
    refine ⟨fun i hi => ?_, fun l hl i hi => ?_⟩
    · rw [hzero _ _ hr, if_neg fun h => hzl h.1, htile, bitElem_withLow _ _ (elem_le_bpr hi), bitElem_packElems]
    · obtain ⟨old', hs⟩ := hscales l hl
      rw [hzero _ _ hr, if_neg fun h => hzl h.1, hs, bitElem_withLow _ _ (by omega), bitElem_packElems]
  · have hzl : r ∈ zl := of_decide_eq_true hzr
    refine ⟨?_, fun hs => ?_⟩
    · rw [hzero _ _ hr, if_pos ⟨hzl, .inl rfl⟩, if_pos rfl, hnot hr hr', withLow_zero]
    · rw [hzero _ _ hr, if_pos ⟨hzl, .inr ⟨hs, rfl⟩⟩, if_neg (hstile hs), hnot hr hr', withLow_zero]
  · rw [hzero _ _ hr, if_neg fun h => of_decide_eq_false hzr h.1, hnot hr hr']
  · rw [hzero _ _ hr, if_neg fun h => h.2.elim hne fun hs => hst hs.1 hs.2, State.rowAt_fillRows_other hshape hconf u hsrc hr hne hst, hold]

/-- Of a core all but the rows of its tiles and the copies of them. -/
def Core.exceptRows (k : Core) : Core := { k with tile := [], opcA := [], opcB := [], latchA := none, latchB := none }

theorem Core.exceptRows_withTiles (k l : Core) (h : l.tshape = k.tshape) : (k.withTiles l).exceptRows = k.exceptRows := by
  rw [Core.withTiles, h]
  rfl

/-- A matrix instruction whose run writes rows of tiles ends with those rows. -/
theorem State.answers_rows {s : State} {x : Site} {i : Instr} (h : s.ready x i = true) (hq : s.quiet = true)
    (hs : (s.core x.core).mq.stop = none) (hm : (s.core x.core).mq.byMove = none) (hi : queueOf i = 0) (hn : ∀ y f, i ≠ .mma y f)
    (vals : State → List Word) (segs : State → List SegImage) {t : State}
    (hrun : (s.entered x i (vals s) (segs s)).runMatrix x.core (s.entryOf x i (vals s) (segs s)) = .done t)
    (ht : (s.entered x i (vals s) (segs s)).WritesRows t x.core) {P : (Nat → Nat → Nat) → Prop} (hp : P (t.rowAt x.core)) :
    Answers (s.queueIn x i vals segs) fun u => s.ends x id Core.exceptRows { u with live := s.live } ∧
      P fun n r => ((u.core x.core).tileRow n r).toNat := by
  obtain ⟨u, hu, hran⟩ := State.answers_matrix h hq hs hm hi hn vals segs hrun ht.runsTo
  have hrows : (fun n r => ((u.core x.core).tileRow n r).toNat) = t.rowAt x.core := funext fun n => funext fun r => hran.tileRow n r
  exact ⟨u, hu, (hran.ends_rows ht Core.exceptRows_withTiles).1, hrows ▸ hp⟩

/-- The rows of memory of TLD and TST (R96). -/
def QEntry.transfer (q : QEntry) (right : Right) (len : Nat) : Transfer :=
  { seg := q.segs.headD 0, ring := q.ring.toNat, right := right
    off := fun k => ((q.vals.getD 0 0).toNat : Int) + (k : Int) * (q.vals.getD 1 0).toInt
    len := len }

/-- The elements of a memory row, and the number of memory rows, of a transfer of a tile with shape `w` (R96, R100). -/
def tlsElems (f : FmtTls) (w : Word) : Nat := if f.t = 1 then tsRows w else tsElems w
def tlsRows (f : FmtTls) (w : Word) : Nat := if f.t = 1 then tsElems w else tsRows w

/-- The rows that a load writes into its tile, from the elements of the rows of memory (R100). -/
def tlsTileRows (f : FmtTls) (w : Word) (cols : List (Nat × List Nat)) : List (Nat × List Nat) :=
  if f.t = 1 then (List.range (tsRows w)).map fun r => (r, cols.map fun q => q.2.getD r 0) else cols

theorem State.runTld_eq {e u : State} {c : CoreId} {q : QEntry} {f : FmtTls} {w : Word} {data : List (Nat × List Byte)}
    (hw : w = (e.core c).shape f.tile.toNat) (hfault : (e.core c).transferFault f.tile.toNat f.mfmt.toNat (f.t = 1) = none)
    (hstall : e.rowsStall ⟨c, q.thread⟩ (q.transfer .read (tlsElems f w * fmtWidth f.mfmt.toNat / 8)) (List.range (tlsRows f w)) = false)
    (hread : e.readRows ⟨c, q.thread⟩ (q.transfer .read (tlsElems f w * fmtWidth f.mfmt.toNat / 8)) f.tile.toNat (f.t = 1)
      (List.range (tlsRows f w)) = ⟨u, data, none⟩) :
    let filled := u.fillRows c f.tile.toNat w f.mfmt.toNat
      (tlsTileRows f w (data.map fun p => (p.1, memEncs f.mfmt.toNat (tlsElems f w) p.2)))
    e.runTld c q f = .done (filled.1.tally (.core c) f.tally.toNat (tsFmt w) filled.2) := by
  subst hw
  unfold State.runTld
  dsimp only
  rw [hfault]
  unfold QEntry.transfer tlsElems tlsRows at hstall hread
  simp only [hstall, hread]
  rfl

theorem Transfer.rowCause_of_segCheck {y : Transfer} {r : Nat} (h : segCheck y.seg y.ring y.right (y.off r) y.len 16 = none) :
    y.rowCause r = none := by rw [Transfer.rowCause, h, Option.map_none]

/-- Every memory row of a transfer passes its checks, and each of its bytes is taken by its memory. -/
def Transfer.passes (y : Transfer) (rows : List Nat) (takes : Nat → Prop) : Prop :=
  ∀ r ∈ rows, y.rowCause r = none ∧ ∀ j, j < y.len → takes (y.addr r + j)

/-- The rows of a load that passes are read, and the reading counts. -/
theorem State.readRows_of_passes {s e : State} {x : Site} {y : Transfer} {rows : List Nat} (he : s.sameOutside e x.core)
    (hy : y.right = .read) (h : y.passes rows fun b => s.takesRead (.core x) b 1) (t : Nat) (tr : Bool) :
    e.rowsStall x y rows = false ∧
      ∃ u, e.readRows x y t tr rows = ⟨u, rows.map fun r => (r, s.bytesAt (y.addr r) y.len), none⟩ ∧ e.Counted u := by
  have htakes (r : Nat) (hr : r ∈ rows) (j : Nat) (hj : j < y.len) : e.takesRead (.core x) (y.addr r + j) 1 := by
    rw [State.takesRead_sameOutside he]
    exact (h r hr).2 j hj
  obtain ⟨u, hread, hu⟩ := State.readRows_eq (t := t) (tr := tr) (fun r hr => (h r hr).1)
    fun r hr j hj => State.readsAt_of_takesRead (htakes r hr j hj)
  refine ⟨State.rowsStall_read hy htakes, u, ?_, hu⟩
  simpa only [State.bytesAt_congr (State.byteAt_sameOutside he)] using hread

theorem map_fst_tlsTileRows (f : FmtTls) (w : Word) (g : Nat → List Nat) :
    (tlsTileRows f w ((List.range (tlsRows f w)).map fun r => (r, g r))).map Prod.fst = List.range (tsRows w) := by
  unfold tlsTileRows tlsRows
  split
  · rw [List.map_map]
    exact List.map_id _
  · rw [List.map_map]
    exact List.map_id _

/-- A load that has read its rows from state `u`, filled them, cleared those of `zl` and tallied. -/
theorem State.answers_load {s : State} {x : Site} {i : Instr} (h : s.ready x i = true) (hq : s.quiet = true)
    (hs : (s.core x.core).mq.stop = none) (hm : (s.core x.core).mq.byMove = none) (hk : (s.core x.core).shapesOk = true)
    (hi : queueOf i = 0) (hn : ∀ y f, i ≠ .mma y f) (vals : State → List Word) (segs : State → List SegImage) {u z : State} {tile m : Nat}
    {w : Word} {tr : Bool} {src : List (Nat × List Nat)} {zl : List Nat} (hw : w = (s.core x.core).shape tile)
    (hfault : (s.core x.core).transferFault tile m tr = none) (hsrc : ∀ p ∈ src, p.1 < tsRows w) (hnd : (src.map Prod.fst).Nodup)
    (hz : ∀ r ∈ zl, r < tsRows w ∧ ∀ encs, (r, encs) ∉ src) (hu : (s.entered x i (vals s) (segs s)).Counted u)
    (hlive : (zl.foldl (fun s r => s.zeroTileRow x.core tile r w) (u.fillRows x.core tile w m src).1).liveOnly z)
    (hrun : (s.entered x i (vals s) (segs s)).runMatrix x.core (s.entryOf x i (vals s) (segs s)) = .done z) :
    Answers (s.queueIn x i vals segs) fun t => s.ends x id Core.exceptRows { t with live := s.live } ∧
      s.Filled x tile m w src (fun r => decide (r ∈ zl)) fun n r => ((t.core x.core).tileRow n r).toNat := by
  obtain ⟨hconf, hscale⟩ := Core.transferFault_none hfault
  rw [← hw] at hconf hscale
  have hshape : tcfgCode tile w = none := hw ▸ Core.tcfgCode_shape hk tile
  obtain ⟨hrows, -⟩ := tcfgCode_none hshape hconf
  have htiles : (s.core x.core).withTiles (u.core x.core) = s.core x.core := by
    rw [State.core_liveOnly hu.live]
    exact s.tiles_entered x i (vals s) (segs s)
  have hfilled := State.filled_fillRows (m := m) hk hw hconf hscale htiles (fun p hp => Nat.lt_of_lt_of_le (hsrc p hp) hrows) hnd
    (fun r hr => ⟨Nat.lt_of_lt_of_le (hz r hr).1 hrows, (hz r hr).2⟩)
  refine State.answers_rows h hq hs hm hi hn vals segs hrun ?_ (P := s.Filled x tile m w src fun r => decide (r ∈ zl)) ?_
  · exact (State.WritesRows.of_liveOnly hu.live).trans ((u.writesRows_fillRows x.core tile w m src).trans
      ((State.WritesRows.foldl (fun s r => s.writesRows_zeroTileRow x.core tile r w) zl _).trans (.of_liveOnly hlive)))
  · rw [show z.rowAt x.core = _ from funext fun n => funext fun r => State.rowAt_liveOnly hlive x.core n r]
    exact hfilled

/-- A load of whole rows, or of columns (R96, R100). -/
theorem State.tld_answers {s : State} {x : Site} {f : FmtTls} {w : Word} {y : Transfer} (h : s.ready x (.tld x f) = true) (hq : s.quiet = true)
    (hs : (s.core x.core).mq.stop = none) (hm : (s.core x.core).mq.byMove = none) (hk : (s.core x.core).shapesOk = true)
    (hw : w = (s.core x.core).shape f.tile.toNat)
    (hfault : (s.core x.core).transferFault f.tile.toNat f.mfmt.toNat (f.t = 1) = none)
    (hy : y = (s.entryOf x (.tld x f) (s.pairVals x f) [s.segOf x f.seg]).transfer .read (tlsElems f w * fmtWidth f.mfmt.toNat / 8))
    (hpass : y.passes (List.range (tlsRows f w)) fun b => s.takesRead (.core x) b 1) :
    Answers (exec (.tld x f) s) fun t => s.ends x id Core.exceptRows { t with live := s.live } ∧
      s.Filled x f.tile.toNat f.mfmt.toNat w (tlsTileRows f w ((List.range (tlsRows f w)).map fun r =>
        (r, memEncs f.mfmt.toNat (tlsElems f w) (s.bytesAt (y.addr r) y.len)))) (fun r => decide (r ∈ ([] : List Nat)))
        fun n r => ((t.core x.core).tileRow n r).toNat := by
  subst hy
  have htiles := s.tiles_entered x (.tld x f) (s.pairVals x f) [s.segOf x f.seg]
  obtain ⟨hstall, u, hread, hu⟩ := State.readRows_of_passes (s.sameOutside_entered x (.tld x f) (s.pairVals x f) [s.segOf x f.seg]) rfl hpass
    f.tile.toNat (f.t = 1)
  have hrun := State.runTld_eq (f := f) (hw.trans (by rw [Core.shape_of_withTiles htiles]))
    ((Core.transferFault_of_withTiles htiles _ _ _).trans hfault) hstall hread
  simp only [List.map_map, Function.comp_def] at hrun
  refine State.answers_load h hq hs hm hk rfl (fun _ _ => Instr.noConfusion) (fun s => s.pairVals x f) (fun s => [s.segOf x f.seg]) hw hfault
    (fun p hp => ?_) ?_ (fun r hr => absurd hr (by simp)) hu (State.liveOnly_tally _ _ _ _ _) hrun
  · have hkey := List.mem_map_of_mem (f := Prod.fst) hp
    rw [map_fst_tlsTileRows] at hkey
    exact List.mem_range.1 hkey
  · rw [map_fst_tlsTileRows]
    exact List.nodup_range

/-! ### Gathers -/

/-- Whether the mask of a gather has a row active (R101). -/
def Core.gathers (k : Core) (f : FmtTldx) (r : Nat) : Bool := f.masken = 0 || (SMap.get k.mreg f.mreg.toNat 0).getLsbD r

/-- The rows of memory of TLDX: row `r` at the offset in lane `r` of its vector register (R101). -/
def QEntry.gather (q : QEntry) (k : Core) (f : FmtTldx) (len : Nat) : Transfer :=
  { seg := q.segs.headD 0, ring := q.ring.toNat, right := .read
    off := fun r => (bitElem 32 (SMap.get k.vreg f.vreg.toNat 0).toNat r : Int), len := len }

/-- The rows that a gather clears: with ZM 1 those masked off (R102). -/
def Core.clearedRows (k : Core) (f : FmtTldx) (w : Word) : List Nat :=
  if f.zm = 1 then (List.range (tsRows w)).filter fun r => !k.gathers f r && decide (r < 32) else []

theorem Core.vectors_of_bare {k l : Core} {q : Nat} {v : Queue} (h : l.bare = k.bare.setQueue q v) : l.mreg = k.mreg ∧ l.vreg = k.vreg := by
  have hset : (k.bare.setQueue q v).mreg = k.mreg ∧ (k.bare.setQueue q v).vreg = k.vreg :=
    match q with
    | 0 | 1 | _ + 2 => ⟨rfl, rfl⟩
  rw [← h] at hset
  exact hset

/-- Mask and lanes of a gather are as they were when it was issued. -/
theorem State.gather_entered (s : State) (x : Site) (i : Instr) (vals : List Word) (segs : List SegImage) :
    ((s.entered x i vals segs).core x.core).gathers = (s.core x.core).gathers ∧
      (∀ (q : QEntry) f n, q.gather ((s.entered x i vals segs).core x.core) f n = q.gather (s.core x.core) f n) ∧
      ((s.entered x i vals segs).core x.core).clearedRows = (s.core x.core).clearedRows := by
  obtain ⟨hmreg, hvreg⟩ := Core.vectors_of_bare (s.bare_entered x i vals segs)
  have hgathers : ((s.entered x i vals segs).core x.core).gathers = (s.core x.core).gathers := by
    funext f r
    rw [Core.gathers, hmreg, Core.gathers]
  refine ⟨hgathers, fun q f n => by rw [QEntry.gather, hvreg, QEntry.gather], ?_⟩
  funext f w
  rw [Core.clearedRows, hgathers, Core.clearedRows]

theorem State.runTldx_eq {e u : State} {c : CoreId} {q : QEntry} {f : FmtTldx} {w : Word} {data : List (Nat × List Byte)}
    (hw : w = (e.core c).shape f.tile.toNat) (hfault : (e.core c).transferFault f.tile.toNat f.mfmt.toNat false = none)
    (hstall : e.rowsStall ⟨c, q.thread⟩ (q.gather (e.core c) f (tsElems w * fmtWidth f.mfmt.toNat / 8))
      ((List.range (tsRows w)).filter ((e.core c).gathers f)) = false)
    (hread : e.readRows ⟨c, q.thread⟩ (q.gather (e.core c) f (tsElems w * fmtWidth f.mfmt.toNat / 8)) f.tile.toNat false
      ((List.range (tsRows w)).filter ((e.core c).gathers f)) = ⟨u, data, none⟩) :
    let filled := u.fillRows c f.tile.toNat w f.mfmt.toNat (data.map fun p => (p.1, memEncs f.mfmt.toNat (tsElems w) p.2))
    e.runTldx c q f = .done ((((e.core c).clearedRows f w).foldl (fun s r => s.zeroTileRow c f.tile.toNat r w) filled.1).tally (.core c)
      f.tally.toNat (tsFmt w) filled.2) := by
  subst hw
  unfold State.runTldx
  dsimp only
  rw [hfault]
  unfold QEntry.gather Core.gathers at hstall hread
  simp only [hstall, hread, Bool.false_eq_true, if_false]
  unfold Core.clearedRows Core.gathers
  by_cases hz : f.zm = 1
  · rw [if_pos hz, if_pos hz]
  · rw [if_neg hz, if_neg hz, List.foldl_nil]

/-- A gather (R101, R102). -/
theorem State.tldx_answers {s : State} {x : Site} {f : FmtTldx} {w : Word} {y : Transfer} (h : s.ready x (.tldx x f) = true) (hq : s.quiet = true)
    (hs : (s.core x.core).mq.stop = none) (hm : (s.core x.core).mq.byMove = none) (hk : (s.core x.core).shapesOk = true)
    (hw : w = (s.core x.core).shape f.tile.toNat) (hfault : (s.core x.core).transferFault f.tile.toNat f.mfmt.toNat false = none)
    (hy : y = (s.entryOf x (.tldx x f) [] [s.segOf x f.seg]).gather (s.core x.core) f (tsElems w * fmtWidth f.mfmt.toNat / 8))
    (hpass : y.passes ((List.range (tsRows w)).filter ((s.core x.core).gathers f)) fun b => s.takesRead (.core x) b 1) :
    Answers (exec (.tldx x f) s) fun t => s.ends x id Core.exceptRows { t with live := s.live } ∧
      s.Filled x f.tile.toNat f.mfmt.toNat w (((List.range (tsRows w)).filter ((s.core x.core).gathers f)).map fun r =>
        (r, memEncs f.mfmt.toNat (tsElems w) (s.bytesAt (y.addr r) y.len))) (fun r => decide (r ∈ (s.core x.core).clearedRows f w))
        fun n r => ((t.core x.core).tileRow n r).toNat := by
  subst hy
  have htiles := s.tiles_entered x (.tldx x f) [] [s.segOf x f.seg]
  have hgather := State.gather_entered s x (.tldx x f) [] [s.segOf x f.seg]
  obtain ⟨hstall, u, hread, hu⟩ := State.readRows_of_passes (s.sameOutside_entered x (.tldx x f) [] [s.segOf x f.seg]) rfl hpass
    f.tile.toNat false
  obtain ⟨hactive, hlanes, hcleared⟩ := hgather
  rw [← hactive, ← hlanes] at hstall hread
  have hrun := State.runTldx_eq (f := f) (hw.trans (by rw [Core.shape_of_withTiles htiles]))
    ((Core.transferFault_of_withTiles htiles _ _ _).trans hfault) hstall hread
  simp only [List.map_map, Function.comp_def, hactive, hlanes, hcleared] at hrun
  refine State.answers_load h hq hs hm hk rfl (fun _ _ => Instr.noConfusion) (fun _ => []) (fun s => [s.segOf x f.seg]) hw hfault
    (fun p hp => ?_) ?_ (fun r hr => ?_) hu (State.liveOnly_tally _ _ _ _ _) hrun
  · obtain ⟨r, hr, rfl⟩ := List.mem_map.1 hp
    exact List.mem_range.1 (List.mem_filter.1 hr).1
  · rw [List.map_map]
    exact (List.map_id _).symm ▸ List.nodup_range.filter _
  · unfold Core.clearedRows at hr
    split at hr
    · obtain ⟨hrange, hoff⟩ := List.mem_filter.1 hr
      simp only [Bool.and_eq_true, Bool.not_eq_true', decide_eq_true_eq] at hoff
      refine ⟨List.mem_range.1 hrange, fun encs hmem => ?_⟩
      obtain ⟨q, hq, he⟩ := List.mem_map.1 hmem
      have hqr : q = r := congrArg Prod.fst he
      have := (List.mem_filter.1 hq).2
      rw [hqr, hoff.1] at this
      exact absurd this (by decide)
    · exact absurd hr (by simp)

end Sys2Proof.Machine
end

