-- ==== Sys2Proof/Proofs/TileStores.lean ====
section
/-!
SUPPORT. TST in an idle matrix engine (R95 to R100): the rows that it delivers, and what its command leaves of memory. This settles O27.
-/
namespace Sys2Proof.Machine

/-! ### Rows stored -/

theorem State.samePlaces_tallyAdd (s : State) (c : CoreId) {slot : Nat} (cls n : Nat) (hs : slot < 16) :
    s.SamePlaces (s.tallyAdd (.core c) slot cls n) := by
  have hbase : tallyBase (.core c) = (corePage c 2, 0x800) := rfl
  unfold State.tallyAdd
  simp only [hbase]
  split
  · exact .refl s
  · refine (State.SamePlaces.refl s).setLive _ fun p o ho => ?_
    unfold PlaceWord at ho
    unfold widx corePage
    split <;> omega

theorem State.samePlaces_tally (s : State) (c : CoreId) {slot : Nat} (f : Nat) (es : List Elem) (hs : slot < 16) :
    s.SamePlaces (s.tally (.core c) slot f es) := by
  unfold State.tally
  split
  · exact .refl s
  · exact ((s.samePlaces_tallyAdd c _ _ hs).trans (State.samePlaces_tallyAdd _ c _ _ hs)).trans (State.samePlaces_tallyAdd _ c _ _ hs)

/-- A memory row with its bytes covers an address. -/
def Transfer.covers (y : Transfer) (p : Nat × List Byte) (b : Nat) : Prop := y.addr p.1 ≤ b ∧ b < y.addr p.1 + p.2.length

theorem State.storeRows_append (s : State) (c : CoreId) (q : QEntry) (y : Transfer) (l m : List (Nat × List Byte)) :
    s.storeRows c q y (l ++ m) = (s.storeRows c q y l).storeRows c q y m := by
  induction l generalizing s with
  | nil => rfl
  | cons p l ih => exact ih _

/-- Rows whose bytes are all taken are stored: nothing on which accesses depend differs, what could be written still can, and no byte
outside the rows differs. -/
theorem State.storeRows_frame {s : State} {c : CoreId} {q : QEntry} {y : Transfer} {l : List (Nat × List Byte)}
    (h : ∀ p ∈ l, ∀ j, j < p.2.length → s.writesAt (.core ⟨c, q.thread⟩) (y.addr p.1 + j)) :
    s.SamePlaces (s.storeRows c q y l) ∧ (∀ a b, s.writesAt a b → (s.storeRows c q y l).writesAt a b) ∧
      ∀ b, (∀ p ∈ l, ¬y.covers p b) → (s.storeRows c q y l).byteAt b = s.byteAt b := by
  induction l generalizing s with
  | nil => exact ⟨.refl s, fun _ _ => id, fun _ _ => rfl⟩
  | cons p l ih =>
    have hrow := State.wrote_entryWrite (o := 2) (h p List.mem_cons_self)
    obtain ⟨hplaces, hwrites, hbytes⟩ := ih fun r hr j hj => hrow.writesAt (h r (List.mem_cons_of_mem p hr) j hj)
    refine ⟨hrow.places.trans hplaces, fun a b hb => hwrites a b (hrow.writesAt hb), fun b hb => ?_⟩
    exact (hbytes b fun r hr => hb r (List.mem_cons_of_mem p hr)).trans
      ((hrow.byteAt b).trans (if_neg (hb p List.mem_cons_self)))

/-- Of the rows that cover an address the last gives it its byte. -/
theorem State.byteAt_storeRows {s : State} {c : CoreId} {q : QEntry} {y : Transfer} {pre post : List (Nat × List Byte)} {p : Nat × List Byte}
    (h : ∀ r ∈ pre ++ p :: post, ∀ j, j < r.2.length → s.writesAt (.core ⟨c, q.thread⟩) (y.addr r.1 + j)) {b : Nat}
    (hb : y.covers p b) (hpost : ∀ r ∈ post, ¬y.covers r b) :
    (s.storeRows c q y (pre ++ p :: post)).byteAt b = p.2.getD (b - y.addr p.1) 0 := by
  obtain ⟨-, hwrites, -⟩ := State.storeRows_frame (c := c) (q := q) (y := y) (l := pre) fun r hr =>
    h r (List.mem_append_left _ hr)
  have hrow := State.wrote_entryWrite (s := s.storeRows c q y pre) (o := 2) (c := c) (e := q) (b := y.addr p.1) (d := p.2) fun j hj =>
    hwrites _ _ (h p (by simp) j hj)
  obtain ⟨-, -, hbytes⟩ := State.storeRows_frame (c := c) (q := q) (y := y) (l := post) fun r hr j hj =>
    hrow.writesAt (hwrites _ _ (h r (by simp [hr]) j hj))
  rw [State.storeRows_append, State.storeRows, hbytes b hpost, hrow.byteAt]
  exact if_pos hb

/-! ### The rows that a store delivers -/

theorem map_getD_range {α : Type} {l : List α} {n : Nat} (h : l.length = n) (d : α) : (List.range n).map (fun i => l.getD i d) = l := by
  subst h
  refine List.ext_getElem (by simp) fun i h1 h2 => ?_
  simp [h2]

theorem zip_map_self {α β : Type} (l : List α) (g : α → β) : l.zip (l.map g) = l.map fun a => (a, g a) := by
  induction l with
  | nil => rfl
  | cons a l ih => rw [List.map_cons, List.zip_cons_cons, ih, List.map_cons]

theorem length_rowOut (k : Core) (t r m : Nat) : (rowOut k t r m).length = tsElems (k.shape t) := by
  have hencs : (k.rowEncs t r).length = tsElems (k.shape t) := by simp [Core.rowEncs, bitElems]
  unfold rowOut
  dsimp only
  split_ifs
  · rw [List.length_map, hencs]
  · rw [List.length_map, Core.rowNums, List.length_map, List.length_zipIdx, hencs]
  · rw [List.length_map, hencs]

theorem length_natBytes (n v : Nat) : (natBytes n v).length = n := by
  induction n generalizing v with
  | zero => rfl
  | succ n ih => rw [natBytes, List.length_cons, ih]

/-- Element `i` of memory row `r` of a store: of the tile's row, or of its column (R98, R100). -/
def tstElem (k : Core) (f : FmtTls) (r i : Nat) : Elem :=
  if f.t = 1 then (rowOut k f.tile.toNat i f.mfmt.toNat).getD r (Elem.ofBits 0)
  else (rowOut k f.tile.toNat r f.mfmt.toNat).getD i (Elem.ofBits 0)

/-- The bytes of memory row `r` of a store. -/
def tstBytes (k : Core) (f : FmtTls) (w : Word) (r : Nat) : List Byte :=
  natBytes (tlsElems f w * fmtWidth f.mfmt.toNat / 8)
    (packElems (fmtWidth f.mfmt.toNat) ((List.range (tlsElems f w)).map fun i => (tstElem k f r i).bits))

theorem tstElem_rows (k : Core) (f : FmtTls) :
    (if f.t = 1 then (List.range (tlsRows f (k.shape f.tile.toNat))).map fun i =>
      ((List.range (tsRows (k.shape f.tile.toNat))).map fun r => rowOut k f.tile.toNat r f.mfmt.toNat).map fun l => l.getD i (Elem.ofBits 0)
    else (List.range (tsRows (k.shape f.tile.toNat))).map fun r => rowOut k f.tile.toNat r f.mfmt.toNat) =
      (List.range (tlsRows f (k.shape f.tile.toNat))).map fun r => (List.range (tlsElems f (k.shape f.tile.toNat))).map (tstElem k f r) := by
  unfold tlsRows tlsElems tstElem
  by_cases ht : f.t = 1
  · simp only [ht, if_true, List.map_map]
    rfl
  · simp only [ht, if_false]
    exact List.map_congr_left fun r _ => (map_getD_range (length_rowOut k _ r _) _).symm

/-- What a store of a tile leaves whose memory rows deliver the elements `l`. -/
def State.tstStored (e : State) (c : CoreId) (q : QEntry) (f : FmtTls) (w : Word) (l : List (List Elem)) : State :=
  (e.storeRows c q (q.transfer .write (tlsElems f w * fmtWidth f.mfmt.toNat / 8)) ((List.range (tlsRows f w)).zip (l.map fun l =>
    natBytes (tlsElems f w * fmtWidth f.mfmt.toNat / 8) (packElems (fmtWidth f.mfmt.toNat) (l.map Elem.bits))))).tally (.core c) f.tally.toNat
    f.mfmt.toNat l.flatten

/-- The elements of the memory rows of a store. -/
def tstElems (k : Core) (f : FmtTls) (w : Word) : List (List Elem) :=
  (List.range (tlsRows f w)).map fun r => (List.range (tlsElems f w)).map (tstElem k f r)

theorem State.tstStored_tstElems (e : State) (c : CoreId) (q : QEntry) (f : FmtTls) (w : Word) (k : Core) :
    e.tstStored c q f w (tstElems k f w) =
      (e.storeRows c q (q.transfer .write (tlsElems f w * fmtWidth f.mfmt.toNat / 8)) ((List.range (tlsRows f w)).map fun r =>
        (r, tstBytes k f w r))).tally (.core c) f.tally.toNat f.mfmt.toNat (tstElems k f w).flatten := by
  rw [State.tstStored]
  congr 2
  rw [tstElems, List.map_map, zip_map_self]
  exact List.map_congr_left fun r _ => by simp only [Function.comp_apply, tstBytes, List.map_map, Function.comp_def]

theorem State.runTst_eq {e : State} {c : CoreId} {q : QEntry} {f : FmtTls} {w : Word}
    (hw : w = (e.core c).shape f.tile.toNat) (hfault : (e.core c).transferFault f.tile.toNat f.mfmt.toNat (f.t = 1) = none)
    (hstall : e.rowsStall ⟨c, q.thread⟩ (q.transfer .write (tlsElems f w * fmtWidth f.mfmt.toNat / 8)) (List.range (tlsRows f w)) = false)
    (hcheck : ∀ r ∈ List.range (tlsRows f w), (q.transfer .write (tlsElems f w * fmtWidth f.mfmt.toNat / 8)).rowCause r = none) :
    e.runTst c q f = .done (e.tstStored c q f w (tstElems (e.core c) f w)) := by
  subst hw
  have hfind : (List.range (tlsRows f ((e.core c).shape f.tile.toNat))).find? (fun r =>
      ((q.transfer .write (tlsElems f ((e.core c).shape f.tile.toNat) * fmtWidth f.mfmt.toNat / 8)).rowCause r).isSome) = none :=
    List.find?_eq_none.2 fun r hr => by rw [hcheck r hr]; decide
  rw [tstElems, ← tstElem_rows]
  unfold State.runTst
  dsimp only
  rw [hfault]
  refine (if_neg fun hc => Bool.false_ne_true (hstall.symm.trans hc)).trans ?_
  split
  · next b hb => exact absurd (hfind.symm.trans hb) (by simp)
  · rfl

/-- A run that writes memory alone, seen from the state in which it began. -/
theorem State.SamePlaces.runsTo {e t : State} (h : e.SamePlaces t) (c : CoreId) : e.RunsTo State.exceptMemory t c := by
  have hcore (d : CoreId) := h.core d
  refine ⟨?_, fun d _ => hcore d, ?_, fun hq k hk => ?_⟩
  · exact congrArg (fun r : State => { r with cores := [] }) h.frame
  · rw [hcore]
    rfl
  · rw [State.eq_of_frame (fun r => (r.setCore c k).quiet) (fun _ => rfl) h.frame]
    exact hq k hk

theorem tstBytes_of_withTiles {k l : Core} (h : k.withTiles l = k) (f : FmtTls) (w : Word) : tstBytes l f w = tstBytes k f w := by
  have hb := congrArg (fun r : Core => tstBytes r f w) h
  exact hb

/-- The bytes of memory are those that the run left. -/
theorem State.Ran.byteAt {o : State → State} {s t u : State} {x : Site} (h : State.Ran o s x t u) (b : Nat) : u.byteAt b = t.byteAt b := by
  have hcores (r : State) : ({ r with cores := [] } : State).byteAt b = r.byteAt b := rfl
  rw [← hcores u, h.run, hcores t]

/-- The numbers after one of a range are those above it. -/
theorem range_split {n r : Nat} (h : r < n) :
    ∃ pre post, List.range n = pre ++ r :: post ∧ ∀ q ∈ post, r < q ∧ q < n := by
  obtain ⟨pre, post, hsplit⟩ := List.append_of_mem (List.mem_range.2 h)
  refine ⟨pre, post, hsplit, fun q hq => ⟨?_, ?_⟩⟩
  · have hsorted := List.pairwise_lt_range (n := n)
    rw [hsplit, List.pairwise_append, List.pairwise_cons] at hsorted
    exact hsorted.2.1.1 q hq
  · exact List.mem_range.1 (hsplit ▸ by simp [hq])

/-- Rows of one length whose bytes are all taken are stored in order: of those that cover an address the last gives it its byte. -/
theorem State.byteAt_storeRange {s : State} {c : CoreId} {q : QEntry} {y : Transfer} {n : Nat} {d : Nat → List Byte}
    (hd : ∀ r, (d r).length = y.len) (h : ∀ r ∈ List.range n, ∀ j, j < y.len → s.writesAt (.core ⟨c, q.thread⟩) (y.addr r + j)) :
    let t := s.storeRows c q y ((List.range n).map fun r => (r, d r))
    s.SamePlaces t ∧
      (∀ r b, r < n → y.addr r ≤ b → b < y.addr r + y.len →
        (∀ q, r < q → q < n → ¬(y.addr q ≤ b ∧ b < y.addr q + y.len)) → t.byteAt b = (d r).getD (b - y.addr r) 0) ∧
      ∀ b, (∀ r, r < n → ¬(y.addr r ≤ b ∧ b < y.addr r + y.len)) → t.byteAt b = s.byteAt b := by
  have hall (p : Nat × List Byte) (hp : p ∈ (List.range n).map fun r => (r, d r)) (j : Nat) (hj : j < p.2.length) :
      s.writesAt (.core ⟨c, q.thread⟩) (y.addr p.1 + j) := by
    obtain ⟨r, hr, rfl⟩ := List.mem_map.1 hp
    exact h r hr j (hd r ▸ hj)
  have hcovers (r b : Nat) : y.covers (r, d r) b ↔ y.addr r ≤ b ∧ b < y.addr r + y.len := by rw [Transfer.covers, hd]
  obtain ⟨hplaces, -, hkept⟩ := State.storeRows_frame hall
  refine ⟨hplaces, fun r b hr hlo hhi hlast => ?_, fun b hb => hkept b fun p hp => ?_⟩
  · obtain ⟨pre, post, hsplit, hpost⟩ := range_split hr
    rw [hsplit, List.map_append, List.map_cons] at hall ⊢
    refine State.byteAt_storeRows hall ((hcovers r b).2 ⟨hlo, hhi⟩) fun p hp => ?_
    obtain ⟨q, hq, rfl⟩ := List.mem_map.1 hp
    rw [hcovers]
    exact hlast q (hpost q hq).1 (hpost q hq).2
  · obtain ⟨r, hr, rfl⟩ := List.mem_map.1 hp
    rw [hcovers]
    exact hb r (List.mem_range.1 hr)

/-- A store of whole rows, or of columns (R96, R100). -/
theorem State.tst_answers {s : State} {x : Site} {f : FmtTls} {w : Word} {y : Transfer} (h : s.ready x (.tst x f) = true) (hq : s.quiet = true)
    (hs : (s.core x.core).mq.stop = none) (hm : (s.core x.core).mq.byMove = none) (hw : w = (s.core x.core).shape f.tile.toNat)
    (hfault : (s.core x.core).transferFault f.tile.toNat f.mfmt.toNat (f.t = 1) = none)
    (hy : y = (s.entryOf x (.tst x f) (s.pairVals x f) [s.segOf x f.seg]).transfer .write (tlsElems f w * fmtWidth f.mfmt.toNat / 8))
    (hpass : y.passes (List.range (tlsRows f w)) fun b => s.takesWrite (.core x) b 1 ∧ s.tierClean b) :
    Answers (exec (.tst x f) s) fun t =>
      s.steps x id { t with live := s.live, mem := s.mem, near := s.near, cxl := s.cxl, poison := s.poison, cxlLost := s.cxlLost } ∧
      (∀ r b, r < tlsRows f w → y.addr r ≤ b → b < y.addr r + y.len →
        (∀ q, r < q → q < tlsRows f w → ¬(y.addr q ≤ b ∧ b < y.addr q + y.len)) →
        t.byteAt b = (tstBytes (s.core x.core) f w r).getD (b - y.addr r) 0) ∧
      ∀ b, (∀ r, r < tlsRows f w → ¬(y.addr r ≤ b ∧ b < y.addr r + y.len)) → t.byteAt b = s.byteAt b := by
  have htiles := s.tiles_entered x (.tst x f) (s.pairVals x f) [s.segOf x f.seg]
  have hout := s.sameOutside_entered x (.tst x f) (s.pairVals x f) [s.segOf x f.seg]
  have htakes : ∀ r ∈ List.range (tlsRows f w), ∀ j, j < y.len →
      (s.entered x (.tst x f) (s.pairVals x f) [s.segOf x f.seg]).takesWrite (.core x) (y.addr r + j) 1 ∧
        (s.entered x (.tst x f) (s.pairVals x f) [s.segOf x f.seg]).tierClean (y.addr r + j) := fun r hr j hj => by
    rw [State.takesWrite_sameOutside hout, State.tierClean_sameOutside hout]
    exact (hpass r hr).2 j hj
  have hlen : y.len = tlsElems f w * fmtWidth f.mfmt.toNat / 8 := by rw [hy]; rfl
  have hrun := State.runTst_eq (f := f) (hw.trans (by rw [Core.shape_of_withTiles htiles]))
    ((Core.transferFault_of_withTiles htiles _ _ _).trans hfault)
    (by rw [← hy]; exact State.rowsStall_write (by rw [hy]; rfl) fun r hr j hj => (htakes r hr j hj).1)
    (fun r hr => by rw [← hy]; exact (hpass r hr).1)
  rw [State.tstStored_tstElems, tstBytes_of_withTiles htiles, ← hy] at hrun
  obtain ⟨hplaces, hbytes, hkept⟩ := State.byteAt_storeRange (c := x.core)
    (q := s.entryOf x (.tst x f) (s.pairVals x f) [s.segOf x f.seg]) (y := y) (d := tstBytes (s.core x.core) f w)
    (fun r => (length_natBytes _ _).trans hlen.symm)
    fun r hr j hj => State.writesAt_of_takesWrite (htakes r hr j hj).1 (htakes r hr j hj).2
  have hcounted (t : State) (es : List Elem) : t.Counted (t.tally (.core x.core) f.tally.toNat f.mfmt.toNat es) :=
    ⟨t.liveOnly_tally _ _ _ _, t.samePlaces_tally _ _ _ f.tally.isLt⟩
  have hall (es : List Elem) := hplaces.trans (hcounted _ es).places
  obtain ⟨u, hu, hran⟩ := State.answers_matrix h hq hs hm rfl (fun _ _ => Instr.noConfusion) (fun s => s.pairVals x f)
    (fun s => [s.segOf x f.seg]) hrun ((hall _).runsTo x.core)
  have hbyte (b : Nat) := (hran.byteAt b).trans ((hcounted _ _).byteAt b)
  refine ⟨u, hu, ?_, fun r b hr hlo hhi hlast => ?_, fun b hb => ?_⟩
  · obtain ⟨hsame, hbare, hothers, hthread⟩ := hran.ends (p := id)
      (v := { u with live := s.live, mem := s.mem, near := s.near, cxl := s.cxl, poison := s.poison, cxlLost := s.cxlLost })
      (fun n => by rw [State.thread, (hall _).core, State.thread]) (by rw [(hall _).core, Core.bare_withTiles, htiles]) rfl
      (congrArg (fun r : State => { r with
        live := s.live, mem := s.mem, near := s.near, cxl := s.cxl, poison := s.poison, cxlLost := s.cxlLost }) hran.outer)
    exact ⟨⟨hsame, hbare, hothers⟩, hthread⟩
  · rw [hbyte, hbytes r b hr hlo hhi hlast]
  · rw [hbyte, hkept b hb, State.byteAt_sameOutside hout]

/-! ### The statement's terms -/

/-- The rows of a load: those of memory, or its columns (R100). -/
theorem tlsTileRows_map (f : FmtTls) (w : Word) {g encs : Nat → List Nat} (h : ∀ r, r < tlsRows f w → g r = encs r) :
    tlsTileRows f w ((List.range (tlsRows f w)).map fun r => (r, g r)) =
      (List.range (tsRows w)).map fun r => (r, if f.t = 1 then (List.range (tlsRows f w)).map (fun i => (encs i).getD r 0) else encs r) := by
  have hcols : ((List.range (tlsRows f w)).map fun r => (r, g r)) = (List.range (tlsRows f w)).map fun r => (r, encs r) :=
    List.map_congr_left fun r hr => by rw [h r (List.mem_range.1 hr)]
  rw [hcols, tlsTileRows]
  by_cases ht : f.t = 1
  · simp only [ht, if_true, List.map_map]
    rfl
  · simp only [ht, if_false, tlsRows]

theorem zeroed_nil : (fun r : Nat => decide (r ∈ ([] : List Nat))) = fun _ => false :=
  funext fun _ => decide_eq_false List.not_mem_nil

theorem Core.decide_mem_clearedRows (k : Core) (f : FmtTldx) {w : Word} (hw : tsRows w ≤ 32) :
    (fun r => decide (r ∈ k.clearedRows f w)) = fun r => decide (r < tsRows w) && !k.gathers f r && f.zm == 1 := by
  funext r
  unfold Core.clearedRows
  by_cases hz : f.zm = 1
  · by_cases hr : r < tsRows w
    · simp [hz, hr, show r < 32 by omega]
    · simp [hz, hr]
  · have hbeq : (f.zm == 1) = false := beq_eq_false_iff_ne.2 hz
    rw [if_neg hz, hbeq, Bool.and_false]
    exact decide_eq_false List.not_mem_nil

end Sys2Proof.Machine

open Sys2Proof Sys2Proof.Machine

/-- Settles O27: the rows of a load are read as they are and fill the tile, and a store writes its rows in order. -/
theorem tileLoadsAndStores : Obligations.TileLoadsAndStores := by
  unfold Obligations.TileLoadsAndStores
  refine ⟨fun s x k h hh hk hq hs hm hshapes => ⟨fun f w m n count a encs d hready hw hmf hfault hd hn hcount hrows hencs => ?tld,
    fun f w m n a d on hready hw hmf hfault hd hn hon hrows => ?tldx⟩,
    fun s x f k h w m n count len a d out hh hk hq hs hm hshapes hready hw hmf hfault hd hn hcount hlen hrows hout => ?tst⟩
  case tld =>
    subst hh hk hd hn hcount hmf
    obtain ⟨t, ht, hends, hfilled⟩ := State.tld_answers hready hq hs hm hshapes hw hfault rfl fun r hr => by
      obtain ⟨o, rfl, ha, hseg, hbytes⟩ := hrows r (List.mem_range.1 hr)
      exact ⟨Transfer.rowCause_of_segCheck hseg, fun j hj => by rw [ha] at hbytes; exact hbytes j hj⟩
    rw [tlsTileRows_map f w (encs := encs) fun r hr => ?_, zeroed_nil] at hfilled
    · exact ⟨t, ht, hends, hfilled.elems, hfilled.cleared, hfilled.kept, hfilled.others⟩
    · obtain ⟨o, rfl, ha, -, -⟩ := hrows r hr
      rw [hencs, ha]
      rfl
  case tldx =>
    subst hh hk hd hn hmf
    obtain ⟨hconf, -⟩ := Core.transferFault_none hfault
    obtain ⟨hle, -⟩ := tcfgCode_none (Core.tcfgCode_shape hshapes f.tile.toNat) hconf
    have hgathers : (s.core x.core).gathers f = on := funext fun r => (hon r).symm
    obtain ⟨t, ht, hends, hfilled⟩ := State.tldx_answers hready hq hs hm hshapes hw hfault rfl fun r hr => by
      rw [hgathers] at hr
      obtain ⟨hrange, hact⟩ := List.mem_filter.1 hr
      obtain ⟨o, rfl, ha, hseg, hbytes⟩ := hrows r (List.mem_range.1 hrange) hact
      exact ⟨Transfer.rowCause_of_segCheck hseg, fun j hj => by rw [ha] at hbytes; exact hbytes j hj⟩
    rw [Core.decide_mem_clearedRows _ _ (hw ▸ hle), hgathers, List.map_congr_left fun r hr => ?_] at hfilled
    · exact ⟨t, ht, hends, hfilled.elems, hfilled.cleared, hfilled.kept, hfilled.others⟩
    · obtain ⟨hrange, hact⟩ := List.mem_filter.1 hr
      obtain ⟨o, rfl, ha, -, -⟩ := hrows r (List.mem_range.1 hrange) hact
      rw [ha]
      rfl
  case tst =>
    subst hh hk hd hn hcount hlen hmf
    have haddr (r : Nat) (hr : r < tlsRows f w) : ((s.entryOf x (.tst x f) (s.pairVals x f) [s.segOf x f.seg]).transfer .write
        (tlsElems f w * fmtWidth f.mfmt.toNat / 8)).addr r = a r := by
      obtain ⟨o, rfl, ha, -, -⟩ := hrows r hr
      exact ha.symm
    obtain ⟨t, ht, hsteps, hbytes, hkept⟩ := State.tst_answers hready hq hs hm hw hfault rfl fun r hr => by
      obtain ⟨o, rfl, ha, hseg, hbytes⟩ := hrows r (List.mem_range.1 hr)
      exact ⟨Transfer.rowCause_of_segCheck hseg, fun j hj => by rw [ha] at hbytes; exact hbytes j hj⟩
    refine ⟨t, ht, hsteps, fun r j hr hj hlast => ?_, fun b hb => hkept b fun r hr => ?_⟩
    · have helems : out = tstElem (s.core x.core) f := funext fun r => funext fun i => hout r i
      have hbyte := hbytes r (a r + j) hr (by rw [haddr r hr]; exact Nat.le_add_right _ _)
        (by rw [haddr r hr]; exact Nat.add_lt_add_left hj _) fun q hlt hq => by rw [haddr q hq]; exact hlast q hlt hq
      rw [haddr r hr, Nat.add_sub_cancel_left] at hbyte
      rw [hbyte, helems]
      rfl
    · rw [haddr r hr]
      exact hb r hr

end

