-- ==== Sys2Proof/Proofs/MatrixUnit.lean ====
section
/-!
SUPPORT. The matrix unit (R111 to R114, R123, R126 to R128): what a commit writes into C and counts, what a unit's admission makes of its
core, and the slot of a group, which admits each listed core once. This settles O28.
-/
namespace Sys2Proof.Machine

/-! ### Live words that agree -/

theorem SMap.find?_set {α : Type} [DecidableEq α] (m : SMap α) (k j : Nat) (d v : α) :
    SMap.find? (SMap.set m k d v) j = if j = k then if v = d then none else some v else SMap.find? m j := by
  unfold SMap.set
  split
  · exact SMap.find?_erase m k j
  · exact SMap.find?_put m k j v

/-- The live words of two states whose indices lie in a set are the same. -/
def State.agreeOn (I : Nat → Prop) (s t : State) : Prop := ∀ i, I i → SMap.find? t.live i = SMap.find? s.live i

/-- The indices of the words of a page. -/
def onPage (p i : Nat) : Prop := i / 1024 = p

theorem onPage_widx {p q o : Nat} (ho : o < 4096) : onPage q (widx p o) ↔ p = q := by
  unfold onPage widx
  omega

namespace State.agreeOn

variable {I : Nat → Prop} {s t u : State}

theorem refl (s : State) : s.agreeOn I s := fun _ _ => rfl

theorem trans (h : s.agreeOn I t) (k : t.agreeOn I u) : s.agreeOn I u := fun i hi => (k i hi).trans (h i hi)

theorem liveWord (h : s.agreeOn I t) {p o : Nat} (hi : I (widx p o)) : t.liveWord p o = s.liveWord p o := by
  rw [State.liveWord, SMap.get, h _ hi, State.liveWord, SMap.get]

/-- A word outside the set is written. -/
theorem setLive_other (s : State) {p o : Nat} (v : Word) (hp : ¬I (widx p o)) : s.agreeOn I (s.setLive p o v) :=
  fun i hi => SMap.find?_set_ne s.live _ v fun he : i = widx p o => hp (he ▸ hi)

/-- The same word is written in both states. -/
theorem setLive (h : s.agreeOn I t) (p o : Nat) (v : Word) : (s.setLive p o v).agreeOn I (t.setLive p o v) := by
  intro i hi
  simp only [State.setLive, SMap.find?_set, h i hi]

theorem foldl {α : Type} {f : State → α → State} (hf : ∀ (s : State) (a : α), s.agreeOn I (f s a)) (l : List α) (s : State) :
    s.agreeOn I (l.foldl f s) := by
  induction l generalizing s with
  | nil => exact refl s
  | cons a l ih => exact (hf s a).trans (ih _)

/-! ### Tallies -/

theorem tallyAdd_other (s : State) {c : CoreId} {slot : Nat} (cls n : Nat) (hs : slot < 16)
    (hp : ∀ o, o < 4096 → ¬I (widx (corePage c 2) o)) : s.agreeOn I (s.tallyAdd (.core c) slot cls n) := by
  simp only [State.tallyAdd, tallyBase]
  split
  · exact refl s
  · exact setLive_other s _ (hp _ (by split <;> omega))

/-- A core's tally leaves all words but those of the page of its counters. -/
theorem tally_other (s : State) {c : CoreId} {slot : Nat} (f : Nat) (es : List Elem) (hs : slot < 16)
    (hp : ∀ o, o < 4096 → ¬I (widx (corePage c 2) o)) : s.agreeOn I (s.tally (.core c) slot f es) := by
  unfold State.tally
  split
  · exact refl s
  · exact ((tallyAdd_other s _ _ hs hp).trans (tallyAdd_other _ _ _ hs hp)).trans (tallyAdd_other _ _ _ hs hp)

theorem tallyAdd {c : CoreId} (h : s.agreeOn (onPage (corePage c 2)) t) {slot : Nat} (cls n : Nat) (hs : slot < 16) :
    (s.tallyAdd (.core c) slot cls n).agreeOn (onPage (corePage c 2)) (t.tallyAdd (.core c) slot cls n) := by
  simp only [State.tallyAdd, tallyBase]
  split
  · exact h
  · rw [State.countSat, State.countSat, h.liveWord ((onPage_widx (by split <;> omega)).2 rfl)]
    exact h.setLive _ _ _

/-- What a core's tally counts depends on the page of its counters alone. -/
theorem tally {c : CoreId} (h : s.agreeOn (onPage (corePage c 2)) t) {slot : Nat} (f : Nat) (es : List Elem) (hs : slot < 16) :
    (s.tally (.core c) slot f es).agreeOn (onPage (corePage c 2)) (t.tally (.core c) slot f es) := by
  unfold State.tally
  split
  · exact h
  · exact ((h.tallyAdd _ _ hs).tallyAdd _ _ hs).tallyAdd _ _ hs

/-- A row is written outside the words that count it (R92). -/
theorem putRow_other (s : State) {c : CoreId} (t r n v : Nat) (hlo : ¬I (widx (corePage c 0) 0x8D8))
    (hhi : ¬I (widx (corePage c 0) 0x8DC)) : s.agreeOn I (s.putRow c t r n v) := by
  unfold State.putRow State.count64 State.setLive64
  exact (setLive_other (s.modCore c fun k => k.putRow t r n v) _ hlo).trans (setLive_other _ _ hhi)

end State.agreeOn

/-! ### The rows of C -/

/-- Element (i, j) of C after an MMA on core `k` (R111 to R113). -/
def Core.mmaNew (k : Core) (f : FmtMma) (seed : BitVec 64) (ident ctr i j : Nat) : Elem :=
  mmaElem (tsFmt (k.shape f.ct.toNat)) (f.rm = 1) f.shift.toNat (dripBits seed ident ctr (i * 32 + j))
    ((k.rowEncs f.ct.toNat i).getD j 0) (k.rowNums f.at_.toNat i) (k.rowNums f.bt.toNat j)

theorem mmaRows_eq (k : Core) (f : FmtMma) (seed : BitVec 64) (ident ctr : Nat) : mmaRows k f seed ident ctr =
    (List.range (tsRows (k.shape f.ct.toNat))).map fun i =>
      (List.range (tsElems (k.shape f.ct.toNat))).map (k.mmaNew f seed ident ctr i) := by
  have hlen (i : Nat) : (k.rowEncs f.ct.toNat i).length = tsElems (k.shape f.ct.toNat) := by simp [Core.rowEncs, bitElems]
  unfold mmaRows
  refine List.map_congr_left fun i _ => List.ext_getElem (by simp [hlen]) fun j h1 h2 => ?_
  have hj : j < (k.rowEncs f.ct.toNat i).length := by simpa [hlen] using h2
  simp [Core.mmaNew, List.getD_eq_getElem?_getD, hj]

/-- Rows of 16-bit elements are written into a tile, from its first row on. -/
def State.putRows (s : State) (c : CoreId) (t n : Nat) (l : List (List Elem)) : State :=
  l.zipIdx.foldl (fun s p => s.putRow c t p.2 n (packElems 16 (p.1.map Elem.bits))) s

theorem State.writesRows_putRows (s : State) (c : CoreId) (t n : Nat) (l : List (List Elem)) : s.WritesRows (s.putRows c t n l) c :=
  .foldl (fun s _ => s.writesRows_putRow c t _ n _) _ s

theorem State.agreeOn_putRows {I : Nat → Prop} (s : State) {c : CoreId} (t n : Nat) (l : List (List Elem))
    (hlo : ¬I (widx (corePage c 0) 0x8D8)) (hhi : ¬I (widx (corePage c 0) 0x8DC)) : s.agreeOn I (s.putRows c t n l) :=
  .foldl (fun s _ => .putRow_other s t _ n _ hlo hhi) _ s

theorem withLow_withLow (n old v : Nat) : withLow n (withLow n old v) v = withLow n old v := by
  have hpos := Nat.two_pow_pos (8 * n)
  have hdiv : withLow n old v / 2 ^ (8 * n) = old / 2 ^ (8 * n) := by
    rw [withLow, Nat.mul_comm, Nat.mul_add_div hpos, Nat.div_eq_of_lt (Nat.mod_lt _ hpos), Nat.add_zero]
  rw [withLow, hdiv, withLow]

/-- What a row of any tile holds after rows have been written into one (R83). -/
theorem State.rowAt_putRows (s : State) (c : CoreId) {t n : Nat} {l : List (List Elem)} (hl : l.length ≤ 32) (hn : l ≠ [] → n ≤ 128)
    (t' : Nat) {r : Nat} (hr : r < 32) : (s.putRows c t n l).rowAt c t' r =
      if t' = t ∧ r < l.length then withLow n (s.rowAt c t' r) (packElems 16 ((l.getD r []).map Elem.bits)) else s.rowAt c t' r := by
  refine (foldl_observed (fun _ => True) (State.rowAt · c t' r) _ (fun p => t' = t ∧ r = p.2)
    (fun b => withLow n b (packElems 16 ((l.getD r []).map Elem.bits))) (fun b => withLow_withLow n b _) (fun _ _ _ => trivial)
    (fun u p hp _ => ?_) s trivial).trans (if_congr ?_ rfl rfl)
  · obtain ⟨row, i⟩ := p
    have hget : l[i]? = some row := List.mem_zipIdx_iff_getElem?.1 hp
    obtain ⟨hi, -⟩ := List.getElem?_eq_some_iff.1 hget
    rw [u.rowAt_putRow_withLow c (hn (List.ne_nil_of_length_pos (by omega))) (by omega) hr]
    split
    · next h => rw [h.2, List.getD_eq_getElem?_getD, hget, Option.getD_some]
    · rfl
  · constructor
    · rintro ⟨⟨row, i⟩, hp, ht, rfl⟩
      exact ⟨ht, (List.getElem?_eq_some_iff.1 (List.mem_zipIdx_iff_getElem?.1 hp)).1⟩
    · rintro ⟨ht, hlt⟩
      exact ⟨(l[r], r), List.mem_zipIdx_iff_getElem?.2 (List.getElem?_eq_getElem hlt), ht, rfl⟩

/-! ### Commit -/

/-- The drip counter of a core's matrix unit (R73). -/
def State.mtxDrip (s : State) (c : CoreId) : Nat := (s.liveWord (corePage c 0) 0x880).toNat

/-- The words in which a commit counts its elements, and with RM 0 the drip counter (R72, R114). -/
def State.mmaCounts (s : State) (c : CoreId) (f : FmtMma) (fmt ctr : Nat) (es : List Elem) : State :=
  let u := s.tally (.core c) f.tally.toNat fmt es
  if f.rm = 0 then u.setLive (corePage c 0) 0x880 (BitVec.ofNat 32 (ctr + 1)) else u

theorem State.liveOnly_mmaCounts (s : State) (c : CoreId) (f : FmtMma) (fmt ctr : Nat) (es : List Elem) :
    s.liveOnly (s.mmaCounts c f fmt ctr es) := by
  simp only [State.mmaCounts]
  split
  · exact State.liveOnly_setLive (s.liveOnly_tally _ _ _ _) _ _ _
  · exact s.liveOnly_tally _ _ _ _

theorem State.liveWord_mmaCounts_drip {s : State} {c : CoreId} {ctr : Nat} (h : s.mtxDrip c = ctr) (f : FmtMma) (fmt : Nat) (es : List Elem) :
    (s.mmaCounts c f fmt ctr es).liveWord (corePage c 0) 0x880 =
      if f.rm = 0 then BitVec.ofNat 32 (ctr + 1) else BitVec.ofNat 32 ctr := by
  simp only [State.mmaCounts]
  split
  · exact State.liveWord_setLive_self _ _ _ _
  · have htally := State.agreeOn.tally_other (I := (· = widx (corePage c 0) 0x880)) s (c := c) fmt es f.tally.isLt fun o ho => by
      unfold widx corePage
      omega
    rw [htally.liveWord rfl, ← h, State.mtxDrip, BitVec.ofNat_toNat, BitVec.setWidth_eq]

/-- The counters of a commit stand where the tally has counted from the same words of their page. -/
theorem State.agreeOn_mmaCounts {s t : State} {c : CoreId} (h : s.agreeOn (onPage (corePage c 2)) t) (f : FmtMma) (fmt ctr : Nat)
    (es : List Elem) : (s.tally (.core c) f.tally.toNat fmt es).agreeOn (onPage (corePage c 2)) (t.mmaCounts c f fmt ctr es) := by
  have htally := h.tally fmt es f.tally.isLt
  simp only [State.mmaCounts]
  split
  · refine htally.trans (.setLive_other _ _ fun hp => ?_)
    rw [onPage_widx (by decide)] at hp
    unfold corePage at hp
    omega
  · exact htally

/-- What an MMA writes into C. -/
def State.mmaOut (s : State) (c : CoreId) (f : FmtMma) : List (List Elem) :=
  mmaRows (s.core c) f (s.seed c.hall) (identMatrix c.val) (s.mtxDrip c)

/-- The state after C is written and counted. -/
def State.mmaWritten (s : State) (c : CoreId) (f : FmtMma) : State :=
  (s.putRows c f.ct.toNat (tsBpr ((s.core c).shape f.ct.toNat)) (s.mmaOut c f)).mmaCounts c f
    (tsFmt ((s.core c).shape f.ct.toNat)) (s.mtxDrip c) (s.mmaOut c f).flatten

theorem State.writesRows_mmaWritten (s : State) (c : CoreId) (f : FmtMma) : s.WritesRows (s.mmaWritten c f) c :=
  (s.writesRows_putRows c _ _ _).trans (.of_liveOnly (State.liveOnly_mmaCounts _ _ _ _ _ _))

theorem State.hall_of_writesRows {s t : State} {c : CoreId} (h : s.WritesRows t c) (g : HallId) : t.hall g = s.hall g := by
  have hhall := congrArg (fun u : State => u.hall g) h.outer
  exact hhall

theorem State.commitMma_eq (s : State) (c : CoreId) (f : FmtMma) : s.commitMma c f =
    (s.mmaWritten c f).modCore c fun k => { k with mtxAt := (s.hall c.hall).cycles } := by
  have hhall := State.hall_of_writesRows ((s.writesRows_putRows c f.ct.toNat (tsBpr ((s.core c).shape f.ct.toNat)) (s.mmaOut c f)).trans
    (.of_liveOnly (State.liveOnly_tally _ (.core c) f.tally.toNat (tsFmt ((s.core c).shape f.ct.toNat)) (s.mmaOut c f).flatten))) c.hall
  rw [← hhall]
  simp only [State.mmaWritten, State.mmaCounts]
  unfold State.commitMma
  dsimp only
  split <;> rfl

/-- A core without what a commit changes in it. -/
def Core.noCommit (k : Core) : Core :=
  { k with tile := [], opcA := [], opcB := [], latchA := none, latchB := none, mtxAt := 0, mq := .empty }

section
variable {s : State} {c : CoreId} {e : QEntry} {l : List QEntry} {y : Site} {f : FmtMma}
  (he : (s.core c).mq.entries = e :: l) (hi : e.instr = .mma y f) (hp : e.phase = .underWay)
include he hi hp

theorem State.commitOldest_eq : s.commitOldest c = (s.commitMma c f).modCore c fun k => k.popQ 0 := by
  simp [State.commitOldest, he, hi, hp]

/-- The committing core: rows written, the time noted, the queue moved up. -/
theorem State.core_commitOldest : (s.commitOldest c).core c = { (s.mmaWritten c f).core c with
      mtxAt := (s.hall c.hall).cycles, mq := { (s.core c).mq with entries := l } } := by
  have hmq : ((s.mmaWritten c f).core c).mq = (s.core c).mq := by rw [(s.writesRows_mmaWritten c f).core]
  rw [State.commitOldest_eq he hi hp, State.core_modCore_self, State.commitMma_eq, State.core_modCore_self]
  simp [Core.popQ, Core.setQueue, Core.queue, hmq, he]

theorem State.tileRow_commitOldest (n r : Nat) : (((s.commitOldest c).core c).tileRow n r).toNat = (s.mmaWritten c f).rowAt c n r := by
  rw [State.core_commitOldest he hi hp]
  rfl

theorem State.liveWord_commitOldest (p o : Nat) : (s.commitOldest c).liveWord p o = (s.mmaWritten c f).liveWord p o := by
  rw [State.commitOldest_eq he hi hp, State.commitMma_eq, State.liveWord_modCore, State.liveWord_modCore]

theorem State.onlyCore_commitOldest : s.onlyCore c Core.noCommit { s.commitOldest c with live := s.live } := by
  have hw := s.writesRows_mmaWritten c f
  refine ⟨⟨?_, fun d hd => ?_⟩, ?_⟩
  · rw [State.commitOldest_eq he hi hp, State.commitMma_eq]
    exact congrArg (fun u : State => { u with live := s.live }) hw.outer
  · change (s.commitOldest c).core d = s.core d
    rw [State.commitOldest_eq he hi hp, State.commitMma_eq, State.core_modCore, if_neg hd, State.core_modCore, if_neg hd, hw.other d hd]
  · change ((s.commitOldest c).core c).noCommit = _
    rw [State.core_commitOldest he hi hp, hw.core]
    rfl

end

/-- The words of the page of a core's tallies do not count rows written (R92). -/
theorem State.agreeOn_tallyPage_putRows (s : State) (c : CoreId) (t n : Nat) (l : List (List Elem)) :
    s.agreeOn (onPage (corePage c 2)) (s.putRows c t n l) := by
  have hpage : corePage c 0 ≠ corePage c 2 := by simp [corePage]
  exact s.agreeOn_putRows t n l (fun h => hpage ((onPage_widx (by decide)).1 h)) fun h => hpage ((onPage_widx (by decide)).1 h)

theorem State.mtxDrip_putRows (s : State) (c : CoreId) (t n : Nat) (l : List (List Elem)) : (s.putRows c t n l).mtxDrip c = s.mtxDrip c := by
  have hdrip := s.agreeOn_putRows (I := (· = widx (corePage c 0) 0x880)) (c := c) t n l (by unfold widx; omega) (by unfold widx; omega)
  rw [State.mtxDrip, hdrip.liveWord rfl, State.mtxDrip]

/-- The drip counter after the commit (R72). -/
theorem State.liveWord_mmaWritten_drip (s : State) (c : CoreId) (f : FmtMma) : (s.mmaWritten c f).liveWord (corePage c 0) 0x880 =
    if f.rm = 0 then BitVec.ofNat 32 (s.mtxDrip c + 1) else BitVec.ofNat 32 (s.mtxDrip c) :=
  State.liveWord_mmaCounts_drip (s.mtxDrip_putRows c _ _ _) f _ _

/-- The page of the tallies after the commit (R76, R114). -/
theorem State.liveWord_mmaWritten_tally (s : State) (c : CoreId) (f : FmtMma) {o : Nat} (ho : o < 4096) :
    (s.mmaWritten c f).liveWord (corePage c 2) o = (s.tally (.core c) f.tally.toNat (tsFmt ((s.core c).shape f.ct.toNat))
      (s.mmaOut c f).flatten).liveWord (corePage c 2) o :=
  (State.agreeOn_mmaCounts (s.agreeOn_tallyPage_putRows c _ _ _) f _ _ _).liveWord ((onPage_widx ho).2 rfl)

theorem State.flatten_mmaOut (s : State) (c : CoreId) (f : FmtMma) : (s.mmaOut c f).flatten =
    (List.range (tsRows ((s.core c).shape f.ct.toNat))).flatMap fun i => (List.range (tsElems ((s.core c).shape f.ct.toNat))).map
      ((s.core c).mmaNew f (s.seed c.hall) c.val (s.mtxDrip c) i) := by
  rw [State.mmaOut, mmaRows_eq, List.flatMap_def]
  rfl

/-- A row after the commit: its elements are the sums, and rows that are not of C are as they were (R83, R114). -/
theorem State.rowAt_mmaWritten {s : State} {c : CoreId} (hk : (s.core c).shapesOk = true) (f : FmtMma) (n : Nat) {r : Nat} (hr : r < 32) :
    (s.mmaWritten c f).rowAt c n r = if n = f.ct.toNat ∧ r < tsRows ((s.core c).shape f.ct.toNat) then
      withLow (tsBpr ((s.core c).shape f.ct.toNat)) (s.rowAt c n r) (packElems 16 (((s.mmaOut c f).getD r []).map Elem.bits))
      else s.rowAt c n r := by
  have hlen : (s.mmaOut c f).length = tsRows ((s.core c).shape f.ct.toNat) := by simp [State.mmaOut, mmaRows]
  have hshape := tcfgCode_none (Core.tcfgCode_shape hk f.ct.toNat)
  rw [State.mmaWritten, State.rowAt_liveOnly (State.liveOnly_mmaCounts _ _ _ _ _ _), State.rowAt_putRows s c ?_ ?_ n hr, hlen]
  · rw [hlen]
    by_cases h0 : tsRows ((s.core c).shape f.ct.toNat) = 0
    · omega
    · exact (hshape h0).1
  · intro hne
    obtain ⟨-, -, hbpr, -⟩ := hshape fun h0 => hne (List.eq_nil_of_length_eq_zero (hlen.trans h0))
    exact hbpr

/-- An element of C after the commit. -/
theorem State.bitElem_mmaWritten {s : State} {c : CoreId} (hk : (s.core c).shapesOk = true) {f : FmtMma}
    (h16 : fmtWidth (tsFmt ((s.core c).shape f.ct.toNat)) = 16) {i j : Nat} (hi : i < tsRows ((s.core c).shape f.ct.toNat))
    (hj : j < tsElems ((s.core c).shape f.ct.toNat)) : bitElem 16 ((s.mmaWritten c f).rowAt c f.ct.toNat i) j =
      ((s.core c).mmaNew f (s.seed c.hall) c.val (s.mtxDrip c) i j).bits % 2 ^ 16 := by
  obtain ⟨hrows, -⟩ := tcfgCode_none (Core.tcfgCode_shape hk f.ct.toNat) (by omega)
  have hfit := elem_le_bpr hj
  rw [h16] at hfit
  rw [State.rowAt_mmaWritten hk f _ (by omega), if_pos ⟨rfl, hi⟩, bitElem_withLow _ _ hfit, bitElem_packElems, State.mmaOut, mmaRows_eq]
  simp [List.getD_eq_getElem?_getD, hi, hj, identMatrix]

/-! ### Rest -/

theorem Core.rests_of_idle {k : Core} {now : Nat} (hidle : ∀ e ∈ k.mq.entries, e.phase ≠ .underWay) (h : k.mtxAt + 2048 ≤ now) :
    k.rests now = true := by
  have hany : k.mq.entries.any (fun e => decide (e.phase = .underWay)) = false := by simpa using hidle
  simp [Core.rests, hany, h]

theorem Core.rests_of_early {k : Core} {now : Nat} (h : now < k.mtxAt + 2048) (hr : k.resting = false) : k.rests now = false := by
  simp [Core.rests, hr, h]

/-! ### Admission -/

/-- A core whose matrix unit has read the rows of an MMA's operands (R91, R126). -/
def Core.operandsRead (k : Core) (f : FmtMma) : Core :=
  { k with
    opcA := (portReads k.latchA k.opcA f.at_.toNat (tsRows (k.shape f.at_.toNat))).2.2
    opcB := (portReads k.latchB k.opcB f.bt.toNat (tsRows (k.shape f.bt.toNat))).2.2
    latchA := some ⟨f.at_.toNat, tsRows (k.shape f.at_.toNat)⟩
    latchB := some ⟨f.bt.toNat, tsRows (k.shape f.bt.toNat)⟩ }

theorem State.core_readOperands (s : State) (c d : CoreId) (f : FmtMma) :
    (s.readOperands c f).core d = if d = c then (s.core c).operandsRead f else s.core d := by
  unfold State.readOperands Core.operandsRead
  dsimp only
  rw [State.core_liveOnly (State.liveOnly_count64 _ _ _ _), State.core_liveOnly (State.liveOnly_count64 _ _ _ _),
    State.core_liveOnly (State.liveOnly_count64 _ _ _ _), State.core_setCore]

theorem State.core_startMma (s : State) (c d : CoreId) (n : Nat) (f : FmtMma) :
    (s.startMma c n f).core d = if d = c then ((s.core c).operandsRead f).setPhase n .underWay else s.core d := by
  rw [State.startMma, State.core_modCore, State.core_readOperands, if_pos rfl, State.core_readOperands]
  split <;> rfl

/-- A core whose MMA at a place in its queue has been admitted (R127). -/
def Core.granted (k : Core) (n : Nat) (f : FmtMma) : Core := (({ k with resting := false } : Core).operandsRead f).setPhase n .underWay

theorem State.core_grant_ne (s : State) {c d : CoreId} (h : d ≠ c) : (s.grant c).core d = s.core d := by
  unfold State.grant
  split
  · rfl
  · split
    · rfl
    · split
      · rw [State.core_startMma, if_neg h, State.core_modCore, if_neg h]
        rfl
      · rfl

/-- A unit whose queue has stopped is not admitted (R106). -/
theorem State.grant_of_stop {s : State} {c : CoreId} (h : (s.core c).mq.stop.isSome = true) : s.grant c = s := by
  have hnone : (s.core c).mq.entries.findIdx? (s.core c).admits = none :=
    List.findIdx?_eq_none_iff.2 fun e _ => by simp [Core.admits, Queue.stops, h]
  simp only [State.grant, hnone]

/-- The oldest MMA that is held and not stopped is the one that is admitted. -/
theorem Core.findIdx_admits {k : Core} {pre post : List QEntry} {e : QEntry} {n : Nat} (he : k.mq.entries = pre ++ e :: post)
    (hpre : ∀ q ∈ pre, q.heldSince = none) (hp : e.phase = .held n) (hs : k.mq.stop = none)
    (hm : ∀ m, k.mq.byMove = some m → e.seq ≤ m.seq) : k.mq.entries.findIdx? k.admits = some pre.length := by
  have hnone : pre.findIdx? k.admits = none := List.findIdx?_eq_none_iff.2 fun q hq => by simp [Core.admits, hpre q hq]
  have hadm : k.admits e = true := by simp [Core.admits, QEntry.heldSince, hp, Queue.stops_eq_false hs hm]
  simp [he, List.findIdx?_append, hnone, List.findIdx?_cons, hadm]

theorem State.core_grant_self {s : State} {c : CoreId} {pre post : List QEntry} {e : QEntry} {y : Site} {f : FmtMma} {n : Nat}
    (he : (s.core c).mq.entries = pre ++ e :: post) (hpre : ∀ q ∈ pre, q.heldSince = none) (hp : e.phase = .held n)
    (hi : e.instr = .mma y f) (hs : (s.core c).mq.stop = none) (hm : ∀ m, (s.core c).mq.byMove = some m → e.seq ≤ m.seq) :
    (s.grant c).core c = (s.core c).granted pre.length f := by
  have hget : (s.core c).mq.entries[pre.length]? = some e := by simp [he]
  simp only [State.grant, Core.findIdx_admits he hpre hp hs hm, hget, hi]
  rw [State.core_startMma, if_pos rfl, State.core_modCore_self]
  rfl

theorem Core.mq_granted {k : Core} {pre post : List QEntry} {e : QEntry} (he : k.mq.entries = pre ++ e :: post) (f : FmtMma) :
    (k.granted pre.length f).mq = { k.mq with entries := pre ++ { e with phase := .underWay } :: post } := by
  simp [Core.granted, Core.setPhase, Core.operandsRead, he, List.modify_eq_take_cons_drop]

/-! ### The slot of a group -/

/-- Steps for one core after another, each of which changes its own core alone: a core that is not among them is as it was. -/
theorem State.core_foldl_not_mem {f : State → CoreId → State} (hf : ∀ s c d, d ≠ c → (f s c).core d = s.core d) {l : List CoreId}
    {d : CoreId} (hd : d ∉ l) (s : State) : (l.foldl f s).core d = s.core d := by
  induction l generalizing s with
  | nil => rfl
  | cons a l ih =>
    obtain ⟨hne, hl⟩ := not_or.1 (List.mem_cons.not.1 hd)
    rw [List.foldl_cons, ih hl, hf s a d hne]

/-- And a core that is among them once has taken its step from what it was. -/
theorem State.core_foldl_mem {f : State → CoreId → State} (hf : ∀ s c d, d ≠ c → (f s c).core d = s.core d) {l : List CoreId}
    (hl : l.Nodup) {d : CoreId} (hd : d ∈ l) (s : State) :
    ∃ u : State, u.core d = s.core d ∧ (l.foldl f s).core d = (f u d).core d := by
  induction l generalizing s with
  | nil => exact absurd hd List.not_mem_nil
  | cons a l ih =>
    obtain ⟨ha, hl⟩ := List.nodup_cons.1 hl
    rw [List.foldl_cons]
    by_cases hda : d = a
    · subst hda
      exact ⟨s, rfl, State.core_foldl_not_mem hf ha _⟩
    · obtain ⟨u, hu, hfold⟩ := ih hl ((List.mem_cons.1 hd).resolve_left hda) (f s a)
      exact ⟨u, hu.trans (hf s a d hda), hfold⟩

/-- The cores that a slot serves. -/
def State.slotCores (s : State) (g : Fin 12) : List CoreId := s.listedCores.filter fun c => c.index % 12 == g.val

theorem State.mem_slotCores {s : State} {g : Fin 12} {c : CoreId} : c ∈ s.slotCores g ↔ c ∈ s.listedCores ∧ c.index % 12 = g.val := by
  simp [State.slotCores]

theorem State.groupSlot_eq {s : State} {g : Fin 12} {w : Nat} (hw : s.window = some w) (ht : (s.hall 0).cycles = w + 64 * g.val) :
    s.groupSlot g = (s.slotCores g).foldl State.grant s := by
  simp [State.groupSlot, hw, ht, State.slotCores]

/-- The slot leaves the cores of other groups. -/
theorem State.core_slot_other (s : State) {g : Fin 12} {d : CoreId} (hd : d.index % 12 ≠ g.val) :
    ((s.slotCores g).foldl State.grant s).core d = s.core d :=
  State.core_foldl_not_mem (fun s _ _ h => s.core_grant_ne h) (fun h => hd (State.mem_slotCores.1 h).2) s

/-- A core of the group is admitted, if it is, from what it was. -/
theorem State.core_slot_mem {s : State} (hok : s.coresOk) {g : Fin 12} {d : CoreId} (hd : d ∈ s.slotCores g) :
    ∃ u : State, u.core d = s.core d ∧ ((s.slotCores g).foldl State.grant s).core d = (u.grant d).core d :=
  State.core_foldl_mem (fun s _ _ h => s.core_grant_ne h) (hok.1.filter _) hd s

theorem State.core_slot_of_stop {s : State} (hok : s.coresOk) (g : Fin 12) {d : CoreId} (hd : (s.core d).mq.stop.isSome = true) :
    ((s.slotCores g).foldl State.grant s).core d = s.core d := by
  by_cases hmem : d ∈ s.slotCores g
  · obtain ⟨u, hu, hslot⟩ := State.core_slot_mem hok hmem
    rw [hslot, State.grant_of_stop (by rw [hu]; exact hd), hu]
  · exact State.core_foldl_not_mem (fun s _ _ h => s.core_grant_ne h) hmem s

/-- A core whose queue holds an entry is listed. -/
theorem State.mem_listedCores_of_entries {s : State} {c : CoreId} (h : (s.core c).mq.entries ≠ []) : c ∈ s.listedCores :=
  State.mem_listedCores fun hz => h (by rw [hz]; rfl)

/-- The slot admits the oldest held MMA of each core of its group whose queue has not stopped ahead of it. -/
theorem State.core_slot_held {s : State} (hok : s.coresOk) {g : Fin 12} {c : CoreId} (hc : c.index % 12 = g.val)
    {pre post : List QEntry} {e : QEntry} {y : Site} {f : FmtMma} {n : Nat}
    (he : (s.core c).mq.entries = pre ++ e :: post) (hpre : ∀ q ∈ pre, q.heldSince = none) (hp : e.phase = .held n)
    (hi : e.instr = .mma y f) (hs : (s.core c).mq.stop = none) (hm : ∀ m, (s.core c).mq.byMove = some m → e.seq ≤ m.seq) :
    ((s.slotCores g).foldl State.grant s).core c = (s.core c).granted pre.length f := by
  have hlisted : c ∈ s.listedCores := State.mem_listedCores_of_entries (by simp [he])
  obtain ⟨u, hu, hslot⟩ := State.core_slot_mem hok (State.mem_slotCores.2 ⟨hlisted, hc⟩)
  rw [← hu] at he hs hm ⊢
  rw [hslot, State.core_grant_self he hpre hp hi hs hm]

end Sys2Proof.Machine

open Sys2Proof Sys2Proof.Machine

/-- Settles O28: a commit writes rows and counts, rest and the window are set when due, and a slot admits each core of its group once. -/
theorem matrixUnit : Obligations.MatrixUnit := by
  unfold Obligations.MatrixUnit
  refine fun s hrun => ⟨fun c k e l y f w ctr hk hshapes he hi hp hw h16 hctr => ?commit,
    fun c hidle => ⟨fun hdue => ?rest, fun hearly hr => ?early⟩,
    fun hwaits hshut => ?window, fun g w hw ht hok => ?slot⟩
  case commit =>
    subst hk hw hctr
    intro new
    refine leads_does hrun ⟨State.onlyCore_commitOldest he hi hp, ?_, ?_, fun i j hir hjr => ?_, fun n i _ hi32 hout => ?_, ?_, fun o ho => ?_⟩
    · rw [State.core_commitOldest he hi hp]
    · rw [State.core_commitOldest he hi hp]
    · rw [State.tileRow_commitOldest he hi hp]
      exact State.bitElem_mmaWritten hshapes h16 hir hjr
    · refine BitVec.eq_of_toNat_eq ?_
      rw [State.tileRow_commitOldest he hi hp, State.rowAt_mmaWritten hshapes f n hi32, if_neg hout]
      rfl
    · rw [State.liveWord_commitOldest he hi hp]
      exact s.liveWord_mmaWritten_drip c f
    · rw [State.liveWord_commitOldest he hi hp, State.liveWord_mmaWritten_tally s c f ho, State.flatten_mmaOut]
      rfl
  case rest =>
    refine leads_does hrun ?_
    rw [State.comeToRest, if_pos (Core.rests_of_idle hidle hdue), State.core_modCore_self]
    exact ⟨⟨State.sameOutside_modCore s c _, by rw [State.core_modCore_self]⟩, rfl⟩
  case early =>
    refine leads_does hrun ?_
    rw [State.comeToRest, Core.rests_of_early hearly hr, if_neg Bool.false_ne_true]
  case window =>
    refine leads_does hrun ?_
    cases hwin : s.window with
    | none => simp [State.openWindow, hwin, hwaits]
    | some w => simp [State.openWindow, hwin, hwaits, hshut w hwin]
  case slot =>
    refine leads_does hrun ?_
    rw [State.groupSlot_eq hw ht]
    refine ⟨fun d hd => s.core_slot_other hd, fun d hd => State.core_slot_of_stop hok g hd,
      fun c k pre post e y f n hc hk he hpre hp hi hs hm => ?_⟩
    subst hk
    rw [State.core_slot_held hok hc he hpre hp hi hs hm]
    exact ⟨rfl, Core.mq_granted he f, rfl, rfl⟩

end

