-- ==== Sys2Proof/Proofs/VectorArithmetic.lean ====
section
/-!
SUPPORT. VOP, VFMA, VPERM and VTR in an idle vector engine (R132, R135, R136, R138, R142): the lanes that the run of each writes, and
what they hold. This settles O22.
-/
namespace Sys2Proof.Machine

/-! ### Runs that write lanes, and runs that write a scalar register -/

/-- The lanes `i` of register `vd` with `on i` have taken `new i`, the other lanes are as they were, and nothing else of the core but the
issuing thread differs (R132). -/
def State.takesLanes (s : State) (x : Site) (vd : BitVec 4) (w : Nat) (on : Nat → Bool) (new : Nat → Nat) (t : State) : Prop :=
  s.ends x id (fun k => { k with vreg := [] }) t ∧ (∀ n, n ≠ vd.toNat → (t.core x.core).vr n = (s.core x.core).vr n) ∧
    ∀ i, i < 1024 / w → bitElem w ((t.core x.core).vr vd.toNat) i =
      if on i then new i % 2 ^ w else bitElem w ((s.core x.core).vr vd.toNat) i

/-- A register of which the lanes with `on i` take `new i` (R132). -/
def laneWrite (w old : Nat) (on : Nat → Bool) (new : Nat → Nat) : Nat := laneMap w old fun i => if on i then some (new i) else none

theorem bitElem_laneWrite (w old : Nat) (on : Nat → Bool) (new : Nat → Nat) {i : Nat} (hi : i < 1024 / w) :
    bitElem w (laneWrite w old on new) i = if on i then new i % 2 ^ w else bitElem w old i := by
  rw [laneWrite, bitElem_laneMap w old _ hi]
  split
  · rfl
  · exact bitElem_mod_self w old i

/-- A value that is cut to its lane may be cut before. -/
theorem State.takesLanes_mod {s t : State} {x : Site} {vd : BitVec 4} {w : Nat} {on : Nat → Bool} {new : Nat → Nat}
    (h : s.takesLanes x vd w on (fun i => new i % 2 ^ w) t) : s.takesLanes x vd w on new t := by
  obtain ⟨hends, hothers, hlanes⟩ := h
  exact ⟨hends, hothers, fun i hi => by rw [hlanes i hi, Nat.mod_mod]⟩

section
variable {s : State} {x : Site} {i : Instr} (h : s.ready x i = true) (hq : s.quiet = true) (hs : (s.core x.core).vq.stop = none)
  (hi : queueOf i = 1) {vals : State → List Word} {segs : State → List SegImage}
include h hq hs hi

/-- A vector instruction whose run writes lanes of one register. -/
theorem State.answers_lanes {vd : BitVec 4} {w : Nat} {on : Nat → Bool} {new : Nat → Nat}
    (hrun : (s.entered x i (vals s) (segs s)).runVector x.core (s.entryOf x i (vals s) (segs s)) =
      .done ((s.entered x i (vals s) (segs s)).setV x.core vd.toNat (laneWrite w ((s.core x.core).vr vd.toNat) on new))) :
    Answers (s.queueIn x i vals segs) (s.takesLanes x vd w on new) := by
  obtain ⟨u, hu, hlive, hends, hothers, hvd⟩ := State.answers_setV h hq hs hi hrun (State.liveOnly_refl _)
  rw [State.with_live_self (hlive.trans ((State.live_setV _ _ _ _).trans (State.live_entered s x i _ _)))] at hends
  refine ⟨u, hu, hends, hothers, fun j hj => ?_⟩
  rw [hvd, bitElem_register w _ hj, bitElem_laneWrite w _ on new hj]

/-- A vector instruction whose run writes a scalar register of its thread. -/
theorem State.answers_vector_setReg {r : BitVec 5} {v : Word}
    (hrun : (s.entered x i (vals s) (segs s)).runVector x.core (s.entryOf x i (vals s) (segs s)) =
      .done ((s.entered x i (vals s) (segs s)).setReg x r v)) :
    Answers (s.queueIn x i vals segs) (s.turns x id ((s.thread x).retire.setReg r v)) := by
  have htiles := s.tiles_entered x i (vals s) (segs s)
  have hthread := s.thread_entered x i (vals s) (segs s)
  obtain ⟨u, hu, hran⟩ := State.answers_move h hq hs hi vals segs hrun (State.runsTo_setReg _ _ _ _)
  refine ⟨u, hu, hran.turns (fun n hn => ?_) ?_ ?_ rfl hran.outer⟩
  · rw [State.setReg, State.thread_modThread_ne _ _ fun he => hn (congrArg Site.thread he), hthread, if_neg hn]
  · rw [State.setReg, State.thread_modThread_self]
    have hx : (s.entered x i (vals s) (segs s)).thread x = (s.thread x).retire := (hthread x.thread).trans (if_pos rfl)
    rw [hx]
  · rw [State.setReg, State.modThread, State.setThread, State.core_modCore_self, Core.withTiles_setThread, Core.bare_withTiles, htiles]

end

theorem Core.mr_of_bare {k l : Core} {q : Queue} (h : l.bare = { k.bare with vq := q }) : l.mr = k.mr := by
  funext n
  have hm := congrArg (fun b : Core => b.mr n) h
  exact hm

/-- The mask registers are as they were when the instruction was issued. -/
theorem State.mr_entered {s : State} {x : Site} {i : Instr} (hi : queueOf i = 1) (vals : List Word) (segs : List SegImage) :
    ((s.entered x i vals segs).core x.core).mr = (s.core x.core).mr := Core.mr_of_bare (State.core_entered_vector hi vals segs)

/-! ### VOP -/

/-- The arithmetic shift of a word, by a count that may exceed its width, as a number. -/
theorem toNat_sshiftRight_eq {w : Nat} (a : BitVec w) (n : Nat) : (a.sshiftRight n).toNat =
    if a.msb then a.toNat / 2 ^ min n w + (2 ^ w - 2 ^ (w - min n w)) else a.toNat / 2 ^ min n w := by
  have ha := a.isLt
  have hshift (v : Nat) (hv : v < 2 ^ w) : v >>> n = v / 2 ^ min n w := by
    rw [Nat.shiftRight_eq_div_pow]
    rcases Nat.le_total n w with hn | hn
    · rw [Nat.min_eq_left hn]
    · rw [Nat.min_eq_right hn, Nat.div_eq_of_lt hv, Nat.div_eq_of_lt (Nat.lt_of_lt_of_le hv (Nat.pow_le_pow_right (by decide) hn))]
  have hpow : 2 ^ w = 2 ^ min n w * 2 ^ (w - min n w) := by rw [← Nat.pow_add, Nat.add_sub_cancel' (Nat.min_le_right n w)]
  rw [BitVec.toNat_sshiftRight, hshift _ ha, hshift _ (by omega)]
  split
  · have hq : a.toNat / 2 ^ min n w < 2 ^ (w - min n w) := Nat.div_lt_of_lt_mul (hpow ▸ ha)
    have hle : 2 ^ (w - min n w) ≤ 2 ^ w := Nat.pow_le_pow_right (by decide) (Nat.sub_le _ _)
    have hcompl : (2 ^ w - 1 - a.toNat) / 2 ^ min n w = 2 ^ (w - min n w) - (a.toNat / 2 ^ min n w + 1) := by
      rw [← Nat.mul_sub_div _ _ _ (hpow ▸ ha), ← hpow, Nat.sub_sub, Nat.add_comm 1]
    rw [hcompl]
    generalize 2 ^ w = m at *
    generalize 2 ^ (w - min n w) = p at *
    generalize a.toNat / 2 ^ min n w = q at *
    omega
  · rfl

theorem msb_ofNat_eq_signBit (f : Nat) {a : Nat} (ha : a < 2 ^ fmtWidth f) : (BitVec.ofNat (fmtWidth f) a).msb = signBit f a := by
  rw [BitVec.msb_eq_getLsbD_last, BitVec.getLsbD_ofNat, Nat.testBit_eq_decide_div_mod_eq, signBit]
  by_cases hw : fmtWidth f = 0
  · rw [hw] at ha ⊢
    obtain rfl : a = 0 := by omega
    rfl
  · simp [show fmtWidth f - 1 < fmtWidth f by omega]
    rfl

/-- VOP's function 13 is the arithmetic shift (R135). -/
theorem vopElem_sra (f : Nat) {a : Nat} (b : Nat) (ha : a < 2 ^ fmtWidth f) :
    vopElem 13 f a b = ((BitVec.ofNat (fmtWidth f) a).sshiftRight b).toNat := by
  rw [toNat_sshiftRight_eq, msb_ofNat_eq_signBit f ha, BitVec.toNat_ofNat, Nat.mod_eq_of_lt ha]
  rfl

theorem State.runVop_eq (e : State) (c : CoreId) (f : FmtVop) : e.runVop c f =
    .done (e.setV c f.vd.toNat (laneWrite (fmtWidth f.fmt.toNat) ((e.core c).vr f.vd.toNat) ((e.core c).active f.mask) fun i =>
      vopElem f.func.toNat f.fmt.toNat (bitElem (fmtWidth f.fmt.toNat) ((e.core c).vr f.va.toNat) i)
        (bitElem (fmtWidth f.fmt.toNat) ((e.core c).vr f.vb.toNat) i))) := rfl

theorem State.vop_answers {s : State} {x : Site} {f : FmtVop} (h : s.ready x (.vop x f) = true) (hq : s.quiet = true)
    (hs : (s.core x.core).vq.stop = none) : Answers (exec (.vop x f) s)
      (s.takesLanes x f.vd (fmtWidth f.fmt.toNat) ((s.core x.core).active f.mask) fun i => vopElem f.func.toNat f.fmt.toNat
        (bitElem (fmtWidth f.fmt.toNat) ((s.core x.core).vr f.va.toNat) i)
        (bitElem (fmtWidth f.fmt.toNat) ((s.core x.core).vr f.vb.toNat) i)) := by
  have hi : queueOf (.vop x f) = 1 := rfl
  refine State.answers_lanes h hq hs hi (vals := fun _ => []) (segs := fun _ => []) ((State.runVop_eq _ _ f).trans ?_)
  rw [State.vr_entered hi, State.active_entered hi]

/-- No field of a ready VOP is reserved: its function is one of the fifteen (R133, R135). -/
theorem State.vop_func {s : State} {x : Site} {f : FmtVop} (h : s.ready x (.vop x f) = true) : f.func.toNat ≤ 14 := by
  have htrap := reservedIf_none (State.ready_trap h)
  simp only [Bool.or_eq_false_iff, decide_eq_false_iff_not, Nat.not_lt] at htrap
  obtain ⟨⟨⟨⟨⟨hfunc, -⟩, -⟩, -⟩, -⟩, -⟩ := htrap
  exact hfunc

/-! ### VFMA and VTR -/

theorem State.runVfma_eq (e : State) (c : CoreId) (f : FmtVfma) : e.runVfma c f =
    .done (e.setV c f.vd.toNat (laneWrite 16 ((e.core c).vr f.vd.toNat) ((e.core c).active f.mask) fun i =>
      (roundNE f.fmt.toNat (Num.sum [((e.core c).accNum f.fmt.toNat f.va i).mul ((e.core c).accNum f.fmt.toNat f.vb i),
        (e.core c).accNum f.fmt.toNat f.vc i])).bits)) := rfl

theorem Core.accNum_congr {k l : Core} (h : l.vr = k.vr) : l.accNum = k.accNum := by
  funext g r i
  rw [Core.accNum, h, Core.accNum]

theorem State.vfma_answers {s : State} {x : Site} {f : FmtVfma} (h : s.ready x (.vfma x f) = true) (hq : s.quiet = true)
    (hs : (s.core x.core).vq.stop = none) : Answers (exec (.vfma x f) s)
      (s.takesLanes x f.vd 16 ((s.core x.core).active f.mask) fun i =>
        (roundNE f.fmt.toNat (Num.sum [((s.core x.core).accNum f.fmt.toNat f.va i).mul ((s.core x.core).accNum f.fmt.toNat f.vb i),
          (s.core x.core).accNum f.fmt.toNat f.vc i])).bits) := by
  have hi : queueOf (.vfma x f) = 1 := rfl
  have hvr := State.vr_entered (s := s) (x := x) hi [] []
  refine State.answers_lanes h hq hs hi (vals := fun _ => []) (segs := fun _ => []) ((State.runVfma_eq _ _ f).trans ?_)
  rw [hvr, State.active_entered hi, Core.accNum_congr hvr]

theorem State.runVtr_eq (e : State) (c : CoreId) (f : FmtVtr) : e.runVtr c f =
    .done (e.setV c f.vd.toNat (laneWrite 16 ((e.core c).vr f.vd.toNat) ((e.core c).active f.mask) fun i =>
      (vtrElem f.fn.toNat f.fmt.toNat (bitElem 16 ((e.core c).vr f.va.toNat) i)).bits)) := rfl

theorem State.vtr_answers {s : State} {x : Site} {f : FmtVtr} (h : s.ready x (.vtr x f) = true) (hq : s.quiet = true)
    (hs : (s.core x.core).vq.stop = none) : Answers (exec (.vtr x f) s)
      (s.takesLanes x f.vd 16 ((s.core x.core).active f.mask) fun i =>
        (vtrElem f.fn.toNat f.fmt.toNat (bitElem 16 ((s.core x.core).vr f.va.toNat) i)).bits) := by
  have hi : queueOf (.vtr x f) = 1 := rfl
  refine State.answers_lanes h hq hs hi (vals := fun _ => []) (segs := fun _ => []) ((State.runVtr_eq _ _ f).trans ?_)
  rw [State.vr_entered hi, State.active_entered hi]

/-! ### VPERM -/

/-- The width of the lanes that VPERM moves (R138). -/
def vpermWidth (f : FmtVperm) : Nat := if f.w = 0 then 16 else 8

/-- The lanes that VPERM writes: its selection writes them all (R138). -/
def Core.permutes (k : Core) (f : FmtVperm) (i : Nat) : Bool := decide (f.func = 0) || k.active f.mask i

/-- Lane `i` of VPERM's result, `sv` being its scalar (R138). -/
def Core.vpermResult (k : Core) (f : FmtVperm) (sv i : Nat) : Nat :=
  vpermLane f.func.toNat (1024 / vpermWidth f) (fun i => (k.mr (f.mask.toNat % 8)).getLsbD i) (bitElem (vpermWidth f) (k.vr f.va.toNat))
    (bitElem (vpermWidth f) (k.vr f.vb.toNat)) sv i

theorem Core.permutes_of_select (k : Core) {f : FmtVperm} (h : f.func = 0) : k.permutes f = fun _ => true := by
  funext i
  rw [Core.permutes, h]
  rfl

theorem Core.permutes_of_move (k : Core) {f : FmtVperm} (h : f.func ≠ 0) : k.permutes f = k.active f.mask := by
  funext i
  rw [Core.permutes, decide_eq_false h, Bool.false_or]

theorem half_of_odd {i : Nat} (h : ¬i % 2 = 0) : (i - 1) / 2 = i / 2 := by omega

/-- The low halves of two registers interleaved (R138). -/
theorem vpermLane_zipLow (n : Nat) (sel : Nat → Bool) (a b : Nat → Nat) (sv i : Nat) :
    vpermLane 2 n sel a b sv i = if i % 2 = 0 then a (i / 2) else b (i / 2) := by
  by_cases h : i % 2 = 0
  · simp only [vpermLane, h, if_true]
  · simp only [vpermLane, h, if_false, half_of_odd h]

/-- The high halves of two registers interleaved (R138). -/
theorem vpermLane_zipHigh (n : Nat) (sel : Nat → Bool) (a b : Nat → Nat) (sv i : Nat) :
    vpermLane 3 n sel a b sv i = if i % 2 = 0 then a (n / 2 + i / 2) else b (n / 2 + i / 2) := by
  by_cases h : i % 2 = 0
  · simp only [vpermLane, h, if_true]
  · simp only [vpermLane, h, if_false, half_of_odd h]

theorem State.runVperm_lanes (e : State) (c : CoreId) (q : QEntry) {f : FmtVperm} (h : f.func ≠ 9) : e.runVperm c q f =
    .done (e.setV c f.vd.toNat (laneWrite (vpermWidth f) ((e.core c).vr f.vd.toNat) ((e.core c).permutes f) fun i =>
      (e.core c).vpermResult f (q.vals.headD 0).toNat i % 2 ^ vpermWidth f)) := if_neg h

theorem State.runVperm_scalar (e : State) (c : CoreId) (q : QEntry) {f : FmtVperm} (h : f.func = 9) : e.runVperm c q f =
    .done (e.setReg ⟨c, q.thread⟩ (reg4 f.vd) (BitVec.ofNat 32 (bitElem (vpermWidth f) ((e.core c).vr f.va.toNat)
      ((q.vals.headD 0).toNat % (1024 / vpermWidth f))))) := if_pos h

/-- VPERM captures its scalar register for the functions that use it (R138). -/
theorem State.vpermVals_eq {s : State} {x : Site} {f : FmtVperm} (h : f.func = 6 ∨ f.func = 7 ∨ f.func = 8 ∨ f.func = 9) :
    s.vpermVals x f = [s.reg x (reg4 f.vb)] := if_pos h

theorem State.vperm_answers {s : State} {x : Site} {f : FmtVperm} (h : s.ready x (.vperm x f) = true) (hq : s.quiet = true)
    (hs : (s.core x.core).vq.stop = none) (hf : f.func ≠ 9) : Answers (exec (.vperm x f) s)
      (s.takesLanes x f.vd (vpermWidth f) ((s.core x.core).permutes f)
        ((s.core x.core).vpermResult f ((s.vpermVals x f).headD 0).toNat)) := by
  have hi : queueOf (.vperm x f) = 1 := rfl
  obtain ⟨t, ht, hlanes⟩ := State.answers_lanes h hq hs hi (vals := fun s => s.vpermVals x f) (segs := fun _ => [])
    (on := (s.core x.core).permutes f) (new := fun i => (s.core x.core).vpermResult f ((s.vpermVals x f).headD 0).toNat i % 2 ^ vpermWidth f)
    ((State.runVperm_lanes _ _ _ hf).trans (by
      unfold Core.permutes Core.vpermResult
      rw [State.vr_entered hi, State.active_entered hi, State.mr_entered hi]
      rfl))
  exact ⟨t, ht, State.takesLanes_mod hlanes⟩

/-- VPERM's function 9 gives a lane to a scalar register (R138). -/
theorem State.vperm_scalar_answers {s : State} {x : Site} {f : FmtVperm} (h : s.ready x (.vperm x f) = true) (hq : s.quiet = true)
    (hs : (s.core x.core).vq.stop = none) (hf : f.func = 9) : Answers (exec (.vperm x f) s)
      (s.turns x id ((s.thread x).retire.setReg (reg4 f.vd) (BitVec.ofNat 32 (bitElem (vpermWidth f) ((s.core x.core).vr f.va.toNat)
        ((s.reg x (reg4 f.vb)).toNat % (1024 / vpermWidth f)))))) := by
  have hi : queueOf (.vperm x f) = 1 := rfl
  refine State.answers_vector_setReg h hq hs hi (vals := fun s => s.vpermVals x f) (segs := fun _ => [])
    ((State.runVperm_scalar _ _ _ hf).trans ?_)
  rw [State.vr_entered hi, State.vpermVals_eq (by simp [hf])]
  rfl

/-- VPERM has ten functions (R133, R138). -/
theorem State.vperm_func {s : State} {x : Site} {f : FmtVperm} (h : s.ready x (.vperm x f) = true) : f.func.toNat ≤ 9 := by
  have htrap := reservedIf_none (State.ready_trap h)
  simp only [Bool.or_eq_false_iff, decide_eq_false_iff_not, Nat.not_lt] at htrap
  obtain ⟨⟨⟨⟨⟨hfunc, -⟩, -⟩, -⟩, -⟩, -⟩ := htrap
  exact hfunc

end Sys2Proof.Machine

open Sys2Proof Sys2Proof.Machine

/-- Settles O22: each instruction writes the lanes of one register that its run computes from the registers at its issue. -/
theorem vectorResults : Obligations.VectorResults := by
  unfold Obligations.VectorResults
  intro s x k hk hq hs
  subst hk
  refine ⟨fun f w fm a b hfm hw ha hb h => ?vop, fun f fm e hfm he h => ?vfma, fun f h => ?vtr, fun f w n sv a b hw hn ha hb hsv h => ?vperm⟩
  case vop =>
    subst hfm hw ha hb
    refine ⟨_, State.vop_answers h hq hs, fun i => ?_⟩
    have hfunc := State.vop_func h
    refine ⟨?_, ?_, ?_, ?_, ?_, ?_, ?_, ?_, ?_, ?_, ?_, ?shl, ?shr, ?sar, ?_, hfunc⟩ <;> intro hf <;> rw [hf]
    case sar => exact vopElem_sra _ _ (Nat.mod_lt _ (Nat.two_pow_pos _))
    case shl =>
      rw [Nat.shiftLeft_eq]
      rfl
    case shr =>
      rw [Nat.shiftRight_eq_div_pow]
      rfl
    all_goals rfl
  case vfma =>
    subst hfm
    have hnum : e = (s.core x.core).accNum f.fmt.toNat := funext fun r => funext fun i => he r i
    rw [hnum]
    exact State.vfma_answers h hq hs
  case vtr => exact State.vtr_answers h hq hs
  case vperm =>
    subst hw hn ha hb hsv
    refine ⟨fun hf => ?select, fun h0 h9 => ⟨(s.core x.core).vpermResult f ((s.vpermVals x f).headD 0).toNat, ?moves, fun i _ => ?lanes⟩,
      fun hf => State.vperm_scalar_answers h hq hs hf, State.vperm_func h⟩
    case select =>
      have hlanes := State.vperm_answers h hq hs (by simp [hf])
      rw [Core.permutes_of_select _ hf] at hlanes
      unfold Core.vpermResult at hlanes
      rw [hf] at hlanes
      exact hlanes
    case moves =>
      rw [← Core.permutes_of_move _ h0]
      exact State.vperm_answers h hq hs h9
    case lanes =>
      have hscalar (hf : f.func = 6 ∨ f.func = 7 ∨ f.func = 8) : (s.vpermVals x f).headD 0 = s.reg x (reg4 f.vb) := by
        rw [State.vpermVals_eq (by tauto)]
        rfl
      refine ⟨?_, ?zipLow, ?zipHigh, ?_, ?_, ?rotate, ?spread, ?scalar⟩ <;> intro hf <;> rw [Core.vpermResult, hf]
      case zipLow => exact vpermLane_zipLow _ _ _ _ _ _
      case zipHigh => exact vpermLane_zipHigh _ _ _ _ _ _
      case rotate | spread | scalar =>
        rw [hscalar (by simp [hf])]
        rfl
      all_goals rfl
end

