-- ==== Sys2Proof/Proofs/MaskRegisters.lean ====
section
/-!
SUPPORT. VCMP and VMASK in an idle vector engine (R137, R146): the mask register that the run of each writes, bit by bit, or the scalar
register that it gives. This settles O24.
-/
namespace Sys2Proof.Machine

/-! ### Runs that write a mask register -/

theorem State.mr_setM (s : State) (c : CoreId) (m n : Nat) (v : BitVec 128) :
    ((s.setM c m v).core c).mr n = if n = m then v else (s.core c).mr n := by
  rw [State.setM, State.core_modCore_self]
  exact SMap.get_set _ _ _ _ _

theorem State.thread_setM (s : State) (c : CoreId) (m : Nat) (v : BitVec 128) (n : Fin 4) :
    (s.setM c m v).thread ⟨c, n⟩ = s.thread ⟨c, n⟩ :=
  State.thread_modCore_of_threads s c (f := fun k => { k with mreg := SMap.set k.mreg m 0 v }) (fun _ => rfl) n

theorem State.quietOver_setM {s : State} {c : CoreId} (h : s.quietOver c) (m : Nat) (v : BitVec 128) : (s.setM c m v).quietOver c :=
  State.quietOver_setCore h _

/-- Mask registers do not enter into whether a core is quiet. -/
theorem Core.quiet_of_mreg {k l : Core} {M : SMap (BitVec 128)} (h : l.bare = { k.bare with mreg := M }) : l.quiet = k.quiet := by
  have hq := congrArg Core.quiet h
  exact hq

/-- Mask register `md` has taken the bits `bit`, and nothing else of the core but the issuing thread differs (R131). -/
def State.takesMask (s : State) (x : Site) (md : BitVec 3) (bit : Nat → Bool) (t : State) : Prop :=
  s.ends x id (fun k => { k with mreg := [] }) t ∧ (∀ n, n ≠ md.toNat → (t.core x.core).mr n = (s.core x.core).mr n) ∧
    ∀ i, i < 128 → ((t.core x.core).mr md.toNat).getLsbD i = bit i

theorem Core.mr_popQ (k : Core) : (k.popQ 1).mr = k.mr := rfl

theorem Core.bare_popQ_mreg {k l : Core} (h : k.bare.popQ 1 = l) (M : SMap (BitVec 128)) :
    (({ k with mreg := M } : Core).popQ 1).bare = { l with mreg := M } := by
  subst h
  rfl

/-- The core after a mask register is written and the entry has left its queue. -/
theorem State.bare_popQ_setM {s : State} {x : Site} {i : Instr} (hi : queueOf i = 1) (hv : (s.core x.core).vq.entries = [])
    (vals : List Word) (segs : List SegImage) (m : Nat) (v : BitVec 128) :
    ((((s.entered x i vals segs).setM x.core m v).core x.core).popQ 1).bare =
      { (s.core x.core).bare with mreg := SMap.set ((s.entered x i vals segs).core x.core).mreg m 0 v } := by
  have hpop := State.popQ_entered (s := s) (x := x) (i := i) (by rw [hi]; exact hv) vals segs
  rw [hi] at hpop
  rw [State.setM, State.core_modCore_self]
  exact Core.bare_popQ_mreg hpop _

/-- What is left of a state in which the instruction was issued, once a mask register is written and the entry has left its queue. -/
theorem State.takesMask_popQ {s e : State} {x : Site} {md : BitVec 3} {v : BitVec 128} {bit : Nat → Bool} {M : SMap (BitVec 128)}
    (hin : s.sameOutside e x.core) (hmr : (e.core x.core).mr = (s.core x.core).mr)
    (hthread : ∀ n, e.thread ⟨x.core, n⟩ = if n = x.thread then (s.thread x).retire else s.thread ⟨x.core, n⟩)
    (hbare : (((e.setM x.core md.toNat v).core x.core).popQ 1).bare = { (s.core x.core).bare with mreg := M })
    (hbit : ∀ j, j < 128 → v.getLsbD j = bit j) :
    s.takesMask x md bit ((e.setM x.core md.toNat v).modCore x.core fun k => k.popQ 1) := by
  have hpopped (n : Nat) : (((e.setM x.core md.toNat v).modCore x.core fun k => k.popQ 1).core x.core).mr n =
      if n = md.toNat then v else (s.core x.core).mr n := by
    rw [State.core_modCore_self, Core.mr_popQ, State.mr_setM, hmr]
  have hkept (n : Fin 4) : ((e.setM x.core md.toNat v).modCore x.core fun k => k.popQ 1).thread ⟨x.core, n⟩ = e.thread ⟨x.core, n⟩ := by
    rw [State.thread, State.core_modCore_self, Core.thread_popQ, ← State.thread_setM e x.core md.toNat v]
    rfl
  refine ⟨⟨?_, ?_, fun n hn => ?_, ?_⟩, fun n hn => ?_, fun j hj => ?_⟩
  · exact State.sameOutside_trans (State.sameOutside_trans hin (State.sameOutside_modCore _ _ _)) (State.sameOutside_modCore _ _ _)
  · rw [State.core_modCore_self, hbare]
  · rw [hkept, hthread, if_neg hn]
  · exact (hkept x.thread).trans (by rw [hthread, if_pos rfl]; rfl)
  · rw [hpopped, if_neg hn]
  · rw [hpopped, if_pos rfl, hbit j hj]

/-- A vector instruction whose run writes a mask register. -/
theorem State.answers_setM {s : State} {x : Site} {i : Instr} (h : s.ready x i = true) (hq : s.quiet = true)
    (hs : (s.core x.core).vq.stop = none) (hi : queueOf i = 1) {vals : State → List Word} {segs : State → List SegImage} {md : BitVec 3}
    {v : BitVec 128} {bit : Nat → Bool} (hrun : (s.entered x i (vals s) (segs s)).runVector x.core (s.entryOf x i (vals s) (segs s)) =
      .done ((s.entered x i (vals s) (segs s)).setM x.core md.toNat v)) (hbit : ∀ j, j < 128 → v.getLsbD j = bit j) :
    Answers (s.queueIn x i vals segs) (s.takesMask x md bit) := by
  obtain ⟨-, hv, -⟩ := (Core.quiet_iff _).1 (State.quiet_core hq x.core)
  have hbare := State.bare_popQ_setM hi hv (vals s) (segs s) md.toNat v
  refine ⟨_, State.queueIn_vector h hq hs hi vals segs hrun ?_,
    State.takesMask_popQ (s.sameOutside_entered x i _ _) (State.mr_entered hi _ _) (s.thread_entered x i _ _) hbare hbit⟩
  rw [State.modCore]
  exact State.quietOver_setM (State.quietOver_entered hq x i _ _) _ _ _ ((Core.quiet_of_mreg hbare).trans (State.quiet_core hq x.core))

/-! ### Bits of a mask -/

theorem bitElem_one (v i : Nat) : bitElem 1 v i = b2n (v.testBit i) := by
  rw [bitElem, Nat.one_mul, Nat.testBit_eq_decide_div_mod_eq]
  rcases Nat.mod_two_eq_zero_or_one (v / 2 ^ i) with h | h <;> simp [h, b2n]

theorem b2n_mod_two : ∀ b : Bool, b2n b % 2 ^ 1 = b2n b := by decide

theorem b2n_inj : ∀ {a b : Bool}, b2n a = b2n b → a = b := by decide

/-- A mask register that is packed from its bits. -/
theorem getLsbD_packed (bit : Nat → Bool) {i : Nat} (hi : i < 128) :
    (BitVec.ofNat 128 (packElems 1 ((List.range 128).map fun i => b2n (bit i)))).getLsbD i = bit i := by
  have helem := bitElem_packElems 1 ((List.range 128).map fun i => b2n (bit i)) i
  rw [getD_map_range hi, b2n_mod_two, bitElem_one] at helem
  rw [BitVec.getLsbD_ofNat, b2n_inj helem]
  simp [hi]

theorem foldl_b2n {α : Type} (p : α → Bool) (l : List α) (n : Nat) : (l.map fun a => b2n (p a)).foldl (· + ·) n = n + l.countP p := by
  induction l generalizing n with
  | nil => rfl
  | cons a l ih =>
    rw [List.map_cons, List.foldl_cons, ih, List.countP_cons]
    cases p a
    · simp [b2n]
    · simp [b2n, Nat.add_assoc, Nat.add_comm 1]

/-! ### VCMP -/

/-- Bit `i` of VCMP's mask register (R137). -/
def Core.vcmpBit (k : Core) (f : FmtVcmp) (i : Nat) : Bool :=
  let w := fmtWidth f.fmt.toNat
  let old := k.mr f.md.toNat
  if i < lanesOf w && k.active f.mask i then
    let t := vcmpTest f.cond.toNat f.fmt.toNat (bitElem w (k.vr f.va.toNat) i) (bitElem w (k.vr f.vb.toNat) i)
    match f.mop.toNat with | 0 => t | 1 => old.getLsbD i && t | _ => old.getLsbD i || t
  else old.getLsbD i

/-- A bit of a lane that is active and of the view takes the test as MOP says, the others are kept (R137). -/
theorem Core.vcmpBit_eq (k : Core) (f : FmtVcmp) {w : Nat} (hw : w = fmtWidth f.fmt.toNat) {test : Nat → Bool}
    (htest : ∀ i, test i = vcmpTest f.cond.toNat f.fmt.toNat (bitElem w (k.vr f.va.toNat) i) (bitElem w (k.vr f.vb.toNat) i)) (i : Nat) :
    k.vcmpBit f i = if i < 1024 / w ∧ k.active f.mask i = true then
      (if f.mop = 0 then test i else if f.mop = 1 then (k.mr f.md.toNat).getLsbD i && test i else (k.mr f.md.toNat).getLsbD i || test i)
      else (k.mr f.md.toNat).getLsbD i := by
  subst hw
  have hmop : ∀ m : BitVec 2, m = 0 ∨ m = 1 ∨ m = 2 ∨ m = 3 := by decide
  by_cases hon : i < 1024 / fmtWidth f.fmt.toNat ∧ k.active f.mask i = true
  · rcases hmop f.mop with hm | hm | hm | hm <;> simp [Core.vcmpBit, lanesOf, htest, hon, hm]
  · rw [if_neg hon]
    exact if_neg fun h => hon ((Bool.and_eq_true_iff.1 h).imp_left of_decide_eq_true)

theorem State.runVcmp_eq (e : State) (c : CoreId) (f : FmtVcmp) : e.runVcmp c f =
    .done (e.setM c f.md.toNat (BitVec.ofNat 128 (packElems 1 ((List.range 128).map fun i => b2n ((e.core c).vcmpBit f i))))) := rfl

theorem State.vcmp_answers {s : State} {x : Site} {f : FmtVcmp} (h : s.ready x (.vcmp x f) = true) (hq : s.quiet = true)
    (hs : (s.core x.core).vq.stop = none) : Answers (exec (.vcmp x f) s) (s.takesMask x f.md ((s.core x.core).vcmpBit f)) := by
  have hi : queueOf (.vcmp x f) = 1 := rfl
  have hbit : ((s.entered x (.vcmp x f) [] []).core x.core).vcmpBit f = (s.core x.core).vcmpBit f := by
    funext i
    rw [Core.vcmpBit, State.vr_entered hi, State.mr_entered hi, State.active_entered hi, Core.vcmpBit]
  have hrun := State.runVcmp_eq (s.entered x (.vcmp x f) [] []) x.core f
  rw [hbit] at hrun
  exact State.answers_setM h hq hs hi (vals := fun _ => []) (segs := fun _ => []) hrun fun j hj => getLsbD_packed _ hj

/-! ### VMASK -/

/-- The mask register that VMASK's functions other than 6 and 8 make, `sv` being the captured scalar (R146). -/
def Core.vmaskResult (k : Core) (f : FmtVmask) (sv : Word) : BitVec 128 :=
  match f.mfunc.toNat with
  | 0 => k.mr f.ma.toNat &&& k.mr f.mb.toNat
  | 1 => k.mr f.ma.toNat ||| k.mr f.mb.toNat
  | 2 => k.mr f.ma.toNat ^^^ k.mr f.mb.toNat
  | 3 => k.mr f.ma.toNat &&& ~~~k.mr f.mb.toNat
  | 4 => ~~~k.mr f.ma.toNat
  | 5 => BitVec.ofNat 128 (2 ^ min sv.toNat 128 - 1)
  | _ => BitVec.ofNat 128 (setBits (k.mr f.md.toNat).toNat (32 * f.word.toNat) 32 sv.toNat)

theorem State.runVmask_mask (e : State) (c : CoreId) (q : QEntry) {f : FmtVmask} (h : f.mfunc.toNat < 6 ∨ f.mfunc.toNat = 7) :
    e.runVmask c q f = .done (e.setM c f.md.toNat ((e.core c).vmaskResult f (q.vals.headD 0))) := by
  obtain h | h | h | h | h | h | h : f.mfunc.toNat = 0 ∨ f.mfunc.toNat = 1 ∨ f.mfunc.toNat = 2 ∨ f.mfunc.toNat = 3 ∨ f.mfunc.toNat = 4 ∨
    f.mfunc.toNat = 5 ∨ f.mfunc.toNat = 7 := by omega
  all_goals simp only [State.runVmask, Core.vmaskResult, h]

/-- The scalar that VMASK captures, or zero for a function without one (R146). -/
def State.vmaskScalar (s : State) (x : Site) (f : FmtVmask) : Word := (s.vmaskVals x f).headD 0

theorem State.vmaskScalar_eq {s : State} {x : Site} {f : FmtVmask} (h : f.mfunc = 5 ∨ f.mfunc = 7) : s.vmaskScalar x f = s.reg x f.sn := by
  rw [State.vmaskScalar, State.vmaskVals, if_pos h]
  rfl

section
variable {s : State} {x : Site} {f : FmtVmask} (h : s.ready x (.vmask x f) = true) (hq : s.quiet = true)
  (hs : (s.core x.core).vq.stop = none)
include h hq hs

/-- VMASK writes a mask register. -/
theorem State.vmask_answers (hf : f.mfunc.toNat < 6 ∨ f.mfunc.toNat = 7) {bit : Nat → Bool}
    (hbit : ∀ i, i < 128 → ((s.core x.core).vmaskResult f (s.vmaskScalar x f)).getLsbD i = bit i) :
    Answers (exec (.vmask x f) s) (s.takesMask x f.md bit) := by
  have hi : queueOf (.vmask x f) = 1 := rfl
  refine State.answers_setM h hq hs hi (vals := fun s => s.vmaskVals x f) (segs := fun _ => []) ((State.runVmask_mask _ _ _ hf).trans ?_) hbit
  unfold Core.vmaskResult
  rw [State.mr_entered hi]
  rfl

/-- VMASK counts the bits of a mask register (R146). -/
theorem State.vmask_count_answers (hf : f.mfunc = 6) : Answers (exec (.vmask x f) s) (s.turns x id ((s.thread x).retire.setReg f.sn
    (BitVec.ofNat 32 ((List.range 128).countP fun i => ((s.core x.core).mr f.ma.toNat).getLsbD i)))) := by
  have hi : queueOf (.vmask x f) = 1 := rfl
  have hcount (a : BitVec 128) : (bitElems 1 128 a.toNat).foldl (· + ·) 0 = (List.range 128).countP fun i => a.getLsbD i := by
    rw [bitElems, List.map_congr_left fun i _ => bitElem_one a.toNat i, foldl_b2n, Nat.zero_add]
    rfl
  refine State.answers_vector_setReg h hq hs hi (vals := fun s => s.vmaskVals x f) (segs := fun _ => []) ?_
  rw [← hcount, ← State.mr_entered (s := s) (x := x) hi (s.vmaskVals x f) []]
  change State.runVmask _ _ _ _ = _
  rw [State.runVmask, hf]
  rfl

/-- VMASK reads a word of a mask register (R146). -/
theorem State.vmask_word_answers (hf : f.mfunc = 8) : Answers (exec (.vmask x f) s) (s.turns x id ((s.thread x).retire.setReg f.sn
    (BitVec.ofNat 32 (((s.core x.core).mr f.ma.toNat).extractLsb' (32 * f.word.toNat) 32).toNat))) := by
  have hi : queueOf (.vmask x f) = 1 := rfl
  refine State.answers_vector_setReg h hq hs hi (vals := fun s => s.vmaskVals x f) (segs := fun _ => []) ?_
  rw [BitVec.extractLsb'_toNat, Nat.shiftRight_eq_div_pow, ← State.mr_entered (s := s) (x := x) hi (s.vmaskVals x f) []]
  change State.runVmask _ _ _ _ = _
  rw [State.runVmask, hf]
  rfl

end

/-- VMASK has nine functions (R133, R146). -/
theorem State.vmask_func {s : State} {x : Site} {f : FmtVmask} (h : s.ready x (.vmask x f) = true) : f.mfunc.toNat ≤ 8 := by
  have htrap := reservedIf_none (State.ready_trap h)
  simp only [Bool.or_eq_false_iff, decide_eq_false_iff_not, Nat.not_lt] at htrap
  obtain ⟨⟨⟨⟨⟨⟨⟨hfunc, -⟩, -⟩, -⟩, -⟩, -⟩, -⟩, -⟩ := htrap
  exact hfunc

/-- A word of a mask register replaced (R146). -/
theorem getLsbD_setWord (m : BitVec 128) (word : BitVec 2) (v : Word) {i : Nat} (hi : i < 128) :
    (BitVec.ofNat 128 (setBits m.toNat (32 * word.toNat) 32 v.toNat)).getLsbD i =
      if i / 32 = word.toNat then v.getLsbD (i % 32) else m.getLsbD i := by
  rw [BitVec.getLsbD_ofNat, testBit_setBits, decide_eq_true hi, Bool.true_and]
  refine ite_congr (propext (by omega)) (fun hword => ?_) fun _ => rfl
  rw [← hword, show i - 32 * (i / 32) = i % 32 by omega]
  rfl

/-- The lowest bits of a mask register set (R146). -/
theorem getLsbD_lowBits (n : Nat) {i : Nat} (hi : i < 128) : (BitVec.ofNat 128 (2 ^ min n 128 - 1)).getLsbD i = decide (i < n) := by
  rw [BitVec.getLsbD_ofNat, Nat.testBit_two_pow_sub_one, decide_eq_true hi, Bool.true_and]
  exact decide_eq_decide.2 (by omega)

end Sys2Proof.Machine

open Sys2Proof Sys2Proof.Machine

/-- Settles O24: each instruction by the bits of the mask register that its run writes, or by the scalar register that it gives. -/
theorem maskResults : Obligations.MaskResults := by
  unfold Obligations.MaskResults
  intro s x k hk hq hs
  subst hk
  refine ⟨fun f w test old h hw htest hold => ?vcmp, fun f a b v h ha hb hv => ?vmask⟩
  case vcmp =>
    obtain rfl : old = _ := funext hold
    have hanswers := State.vcmp_answers h hq hs
    rw [show (s.core x.core).vcmpBit f = _ from funext (Core.vcmpBit_eq _ f hw htest)] at hanswers
    exact hanswers
  case vmask =>
    obtain rfl : a = _ := funext ha
    obtain rfl : b = _ := funext hb
    subst hv
    have hscalar (hf : f.mfunc = 5 ∨ f.mfunc = 7) := State.vmaskScalar_eq (s := s) (x := x) hf
    refine ⟨fun hf => ?and, fun hf => ?or, fun hf => ?xor, fun hf => ?andNot, fun hf => ?not, fun hf => ?low,
      fun hf => State.vmask_count_answers h hq hs hf, fun hf => ?word, fun hf => State.vmask_word_answers h hq hs hf, State.vmask_func h⟩
    all_goals
      refine State.vmask_answers h hq hs (by simp [hf]) fun i hi => ?_
      rw [Core.vmaskResult, hf]
    case and => exact BitVec.getLsbD_and
    case or => exact BitVec.getLsbD_or
    case xor => exact BitVec.getLsbD_xor
    case andNot => simp [hi]
    case not => simp [hi]
    case low =>
      rw [hscalar (.inl hf)]
      exact getLsbD_lowBits _ hi
    case word =>
      rw [hscalar (.inr hf)]
      exact getLsbD_setWord _ _ _ hi
end

