-- ==== Sys2Proof/Proofs/SameLine.lean ====
section
/-!
SUPPORT. Addresses of one 64-byte line (R30, R249, R260, R362): they lie in one window, so that an agent reaches both or neither, and a
line that is read or written at once is so at each of its bytes.
-/
namespace Sys2Proof.Machine

/-! ### Windows and decoders -/

/-- Two places of one line of one window. -/
inductive Win.SameLine : Win → Win → Prop
  | near (h : HallId) {o p : Nat} (hline : o / 64 = p / 64) : SameLine (.near h o) (.near h p)
  | cxl {o p : Nat} (hline : o / 64 = p / 64) : SameLine (.cxl o) (.cxl p)
  | gallery (h : HallId) {o p : Nat} (hline : o / 64 = p / 64) : SameLine (.gallery h o) (.gallery h p)
  | chamber (c : CoreId) {o p : Nat} (hline : o / 64 = p / 64) : SameLine (.chamber c o) (.chamber c p)
  | control {o p : Nat} (hline : o / 64 = p / 64) : SameLine (.control o) (.control p)
  | nothing : SameLine .nothing .nothing

theorem Win.SameLine.symm {v w : Win} (h : v.SameLine w) : w.SameLine v := by
  cases h with
  | near h hline => exact .near h hline.symm
  | cxl hline => exact .cxl hline.symm
  | gallery h hline => exact .gallery h hline.symm
  | chamber c hline => exact .chamber c hline.symm
  | control hline => exact .control hline.symm
  | nothing => exact .nothing

/-- Windows begin and end between lines (R30). -/
theorem winOf_sameLine_of_ne {a b : Nat} (h : a / 64 = b / 64) (ha : winOf a ≠ .nothing) : (winOf a).SameLine (winOf b) := by
  rcases exists_of_winOf_ne_nothing ha with ⟨g, o, ho, rfl⟩ | ⟨o, ho, rfl⟩ | ⟨g, o, ho, rfl⟩ | ⟨c, o, ho, rfl⟩ | ⟨o, ho, rfl⟩
  · have hb : b = nearBase g + (b - nearBase g) := by unfold nearBase at *; omega
    rw [winOf_near g ho, hb, winOf_near g (by unfold nearBase at *; omega)]
    exact .near g (by unfold nearBase at *; omega)
  · have hb : b = 0x100000000000 + (b - 0x100000000000) := by omega
    rw [winOf_cxl ho, hb, winOf_cxl (by omega)]
    exact .cxl (by omega)
  · have hb : b = galleryBase g + (b - galleryBase g) := by unfold galleryBase at *; omega
    rw [winOf_gallery g ho, hb, winOf_gallery g (by unfold galleryBase at *; omega)]
    exact .gallery g (by unfold galleryBase at *; omega)
  · have hb : b = chamberBase c + (b - chamberBase c) := by unfold chamberBase at *; omega
    rw [winOf_chamber c ho, hb, winOf_chamber c (by unfold chamberBase at *; omega)]
    exact .chamber c (by unfold chamberBase at *; omega)
  · have hb : b = controlBase + (b - controlBase) := by unfold controlBase at *; omega
    rw [winOf_control ho, hb, winOf_control (by unfold controlBase at *; omega)]
    exact .control (by unfold controlBase at *; omega)

/-- Addresses of one line lie in one window, or both in none. -/
theorem winOf_sameLine {a b : Nat} (h : a / 64 = b / 64) : (winOf a).SameLine (winOf b) := by
  by_cases ha : winOf a = .nothing
  · by_cases hb : winOf b = .nothing
    · rw [ha, hb]
      exact .nothing
    · exact (winOf_sameLine_of_ne h.symm hb).symm
  · exact winOf_sameLine_of_ne h ha

/-- A decoder's range holds whole lines: those of one line have one decoder and one target (R362). -/
theorem State.cxlDecode_sameLine (s : State) {o p : Nat} (h : o / 64 = p / 64) :
    (s.cxlDecode p).map (fun q => (q.1, q.2.1)) = (s.cxlDecode o).map fun q => (q.1, q.2.1) := by
  unfold State.cxlDecode
  rw [List.map_findSome?, List.map_findSome?]
  congr 1
  funext d
  dsimp only [Function.comp_apply]
  generalize fieldOf (s.applWord 0x31 (0x100 + 16 * d)) 0 16 = lo
  generalize fieldOf (s.applWord 0x31 (0x100 + 16 * d)) 16 16 = size
  have hrange : (size ≠ 0 ∧ lo * 2 ^ 28 ≤ p ∧ p < lo * 2 ^ 28 + size * 2 ^ 28) ↔
      (size ≠ 0 ∧ lo * 2 ^ 28 ≤ o ∧ o < lo * 2 ^ 28 + size * 2 ^ 28) := by omega
  have hgranule : (p - lo * 2 ^ 28) / 4096 = (o - lo * 2 ^ 28) / 4096 := by omega
  by_cases hin : size ≠ 0 ∧ lo * 2 ^ 28 ≤ o ∧ o < lo * 2 ^ 28 + size * 2 ^ 28
  · rw [if_pos hin, if_pos (hrange.2 hin), hgranule]
    rfl
  · rw [if_neg hin, if_neg (mt hrange.1 hin)]

/-- A line of the tier has a decoder at each of its bytes, or at none. -/
theorem State.cxlDecode_line (s : State) {o p : Nat} (h : o / 64 = p / 64) :
    (s.cxlDecode o = none ∧ s.cxlDecode p = none) ∨ ∃ d g e e', s.cxlDecode o = some (d, g, e) ∧ s.cxlDecode p = some (d, g, e') := by
  have hmap := s.cxlDecode_sameLine h
  cases ho : s.cxlDecode o with
  | none =>
    rw [ho, Option.map_none, Option.map_eq_none_iff] at hmap
    exact .inl ⟨rfl, hmap⟩
  | some q =>
    obtain ⟨d, g, e⟩ := q
    rw [ho, Option.map_some] at hmap
    obtain ⟨⟨d', g', e'⟩, hp, heq⟩ := Option.map_eq_some_iff.1 hmap
    obtain ⟨rfl, rfl⟩ := Prod.mk.inj heq
    exact .inr ⟨d', g', e, e', rfl, hp⟩

/-! ### What holds of a line -/

section
variable {b c : Nat} (h : b / 64 = c / 64)
include h

theorem winOf_cxl_sameLine {o : Nat} (ho : winOf c = .cxl o) : ∃ p, winOf b = .cxl p ∧ p / 64 = o / 64 := by
  have hw := winOf_sameLine h
  rw [ho] at hw
  generalize winOf b = v at hw ⊢
  cases hw with
  | cxl hline => exact ⟨_, rfl, hline⟩

theorem State.reaches_sameLine (s : State) (a : Agent) : s.reaches a c = s.reaches a b := by
  have hw := winOf_sameLine h
  unfold State.reaches
  generalize winOf b = v at hw ⊢
  generalize winOf c = w at hw ⊢
  cases hw with
  | cxl hline =>
    obtain ⟨ho, hp⟩ | ⟨d, g, e, e', ho, hp⟩ := s.cxlDecode_line hline
    · simp only [ho, hp]
    · simp only [ho, hp]
  | _ => rfl

theorem isControl_sameLine : isControl c = isControl b := by
  have hw := winOf_sameLine h
  unfold isControl
  generalize winOf b = v at hw ⊢
  generalize winOf c = w at hw ⊢
  cases hw <;> rfl

theorem State.backs_sameLine (s : State) (a : Agent) : s.backs a c = s.backs a b := by
  rw [State.backs, s.reaches_sameLine h, isControl_sameLine h, State.backs]

theorem State.wouldHold_sameLine (s : State) (a : Agent) : s.wouldHold a c = s.wouldHold a b := by
  have hw := winOf_sameLine h
  unfold State.wouldHold State.protectedAt State.behindHeld
  generalize winOf b = v at hw ⊢
  generalize winOf c = w at hw ⊢
  cases hw with
  | @near g o p hline =>
    have hpage : p / 0x10000 = o / 0x10000 := by omega
    simp only [hpage, h]
  | @gallery g o p hline =>
    have hpage : p / 0x1000 = o / 0x1000 := by omega
    simp only [hpage, hline, h]
  | _ => rfl

theorem State.lineKey_sameLine (s : State) : s.lineKey c = s.lineKey b := by
  have hw := winOf_sameLine h
  unfold State.lineKey
  generalize winOf b = v at hw ⊢
  generalize winOf c = w at hw ⊢
  cases hw with
  | gallery g hline =>
    simp only [State.placeOf, galleryPlace_eq, hline, galleryBase]
    omega
  | chamber d hline =>
    simp only [State.placeOf, chamberPlace_eq, hline, chamberBase]
    omega
  | _ => exact h.symm

theorem State.cxlLostAt_sameLine (s : State) : s.cxlLostAt c = s.cxlLostAt b := by
  have hw := winOf_sameLine h
  unfold State.cxlLostAt
  generalize winOf b = v at hw ⊢
  generalize winOf c = w at hw ⊢
  cases hw with
  | cxl hline =>
    obtain ⟨ho, hp⟩ | ⟨d, g, e, e', ho, hp⟩ := s.cxlDecode_line hline
    · simp only [ho, hp]
    · simp only [ho, hp, h]
  | _ => rfl

theorem State.poisoned_sameLine (s : State) : s.poisoned c = s.poisoned b := by
  rw [State.poisoned, s.lineKey_sameLine h, s.cxlLostAt_sameLine h, State.poisoned]

/-- A line that is read without poison is so at each of its bytes. -/
theorem State.readsAt_sameLine {s : State} {a : Agent} (hb : s.readsAt a b) : s.readsAt a c :=
  ⟨(s.backs_sameLine h a).trans hb.1, (s.poisoned_sameLine h).trans hb.2⟩

/-- A line that is written at once is so at each of its bytes. -/
theorem State.writesAt_sameLine {s : State} {a : Agent} (hb : s.writesAt a b) : s.writesAt a c := by
  refine ⟨(s.backs_sameLine h a).trans hb.backs, (s.wouldHold_sameLine h a).trans hb.free, fun o d g e ho hd => ?_, fun o ho => ?_⟩
  · obtain ⟨p, hp, hline⟩ := winOf_cxl_sameLine h ho
    obtain ⟨-, hnone⟩ | ⟨d', g', e', e'', hsome, hsome'⟩ := s.cxlDecode_line hline
    · exact absurd (hnone.symm.trans hd) (by simp)
    · obtain ⟨rfl, rfl, rfl⟩ : d' = d ∧ g' = g ∧ e'' = e := by simpa using hsome'.symm.trans hd
      exact hb.link p d' g' e' hp hsome
  · obtain ⟨p, hp, -⟩ := winOf_cxl_sameLine h ho
    exact (s.poisoned_sameLine h).trans (hb.clean p hp)

end

end Sys2Proof.Machine
end

