-- ==== Sys2Proof/Proofs/VectorLoads.lean ====
section
/-!
SUPPORT. VLD in an idle vector engine (R143): its active lanes are read line by line, each from its own place.
-/
namespace Sys2Proof.Machine

/-! ### Bytes of numbers -/

theorem bytesNat_append (l m : List Byte) : bytesNat (l ++ m) = bytesNat l + 256 ^ l.length * bytesNat m := by
  induction l with
  | nil => simp [bytesNat]
  | cons b l ih =>
    rw [List.cons_append, bytesNat, bytesNat, ih, List.length_cons, pow_succ]
    ring

theorem bytesNat_lt (l : List Byte) : bytesNat l < 256 ^ l.length := by
  induction l with
  | nil => simp [bytesNat]
  | cons b l ih =>
    have hb := b.isLt
    rw [bytesNat, List.length_cons, Nat.pow_succ]
    omega

theorem State.length_bytesAt (s : State) (a n : Nat) : (s.bytesAt a n).length = n := by
  induction n generalizing a with
  | zero => rfl
  | succ n ih => rw [State.bytesAt, List.length_cons, ih]

theorem two_pow_bytes (n : Nat) : 2 ^ (8 * n) = 256 ^ n := by rw [Nat.pow_mul]

/-- An element of bytes that are read is the number that its own bytes make. -/
theorem State.bitElem_bytesAt (s : State) (a : Nat) {wb k n : Nat} (h : k * wb + wb ≤ n) :
    bitElem (8 * wb) (bytesNat (s.bytesAt a n)) k = bytesNat (s.bytesAt (a + k * wb) wb) := by
  obtain ⟨m, rfl⟩ := Nat.exists_eq_add_of_le h
  have hpos (j : Nat) : 0 < 256 ^ j := Nat.pow_pos (by decide)
  have hlow := bytesNat_lt (s.bytesAt a (k * wb))
  have hmid := bytesNat_lt (s.bytesAt (a + k * wb) wb)
  rw [State.length_bytesAt] at hlow hmid
  rw [State.bytesAt_add, State.bytesAt_add, List.append_assoc, bytesNat_append, bytesNat_append, State.length_bytesAt, State.length_bytesAt,
    bitElem, Nat.mul_assoc, two_pow_bytes, two_pow_bytes, Nat.mul_comm wb k, Nat.add_mul_div_left _ _ (hpos _), Nat.div_eq_of_lt hlow,
    Nat.zero_add, Nat.add_mul_mod_self_left, Nat.mod_eq_of_lt hmid]

/-! ### Lanes by line -/

/-- The lanes of a list lie on one line, each `wb` bytes from `base` on (R260). -/
def OneLine (base wb : Nat) (g : List Nat) : Prop :=
  ∃ i t, g = i :: t ∧ ∀ j ∈ t, (base + j * wb) / 64 = (base + i * wb) / 64

theorem flatten_lanesByLine (base wb : Nat) (l : List Nat) : (lanesByLine base wb l).flatten = l := by
  induction l with
  | nil => rfl
  | cons i l ih =>
    unfold lanesByLine
    split
    · next h =>
      rw [h, List.flatten_nil] at ih
      subst ih
      rfl
    · next j g r h =>
      rw [h] at ih
      split
      · rw [← ih]
        rfl
      · rw [← ih]
        rfl
    · next r h =>
      rw [h] at ih
      rw [← ih]
      rfl

theorem oneLine_of_mem_lanesByLine {base wb : Nat} {l g : List Nat} (hg : g ∈ lanesByLine base wb l) : OneLine base wb g := by
  induction l generalizing g with
  | nil => exact absurd hg List.not_mem_nil
  | cons i l ih =>
    have hsingle : OneLine base wb [i] := ⟨i, [], rfl, fun j hj => absurd hj List.not_mem_nil⟩
    unfold lanesByLine at hg
    split at hg
    · rwa [List.mem_singleton.1 hg]
    · next j t r h =>
      rw [h] at ih
      split at hg
      · next hline =>
        rcases List.mem_cons.1 hg with rfl | hg
        · obtain ⟨j', t', he, ht⟩ := ih List.mem_cons_self
          obtain ⟨rfl, rfl⟩ := List.cons.inj he
          refine ⟨i, j :: t, rfl, fun m hm => ?_⟩
          rcases List.mem_cons.1 hm with rfl | hm
          · exact hline.symm
          · exact (ht m hm).trans hline.symm
        · exact ih (List.mem_cons_of_mem _ hg)
      · rcases List.mem_cons.1 hg with rfl | hg
        · exact hsingle
        · exact ih hg
    · next r h =>
      rw [h] at ih
      rcases List.mem_cons.1 hg with rfl | hg
      · exact hsingle
      · exact ih (List.mem_cons_of_mem _ hg)

/-- Rising lanes of one line, whose places are aligned: the access that spans them stays on it. -/
theorem OneLine.span {base wb i j k : Nat} {g : List Nat} (h : OneLine base wb g) (hwb : wb = 1 ∨ wb = 2) (hi : i ∈ g) (hj : j ∈ g)
    (hij : i ≤ j) (halign : (base + i * wb) % wb = 0) (hk : k < (j - i + 1) * wb) : (base + i * wb) / 64 = (base + i * wb + k) / 64 := by
  obtain ⟨m, t, rfl, ht⟩ := h
  have hline (n : Nat) (hn : n ∈ m :: t) : (base + n * wb) / 64 = (base + m * wb) / 64 := by
    rcases List.mem_cons.1 hn with rfl | hn
    · rfl
    · exact ht n hn
  have hsame := (hline i hi).trans (hline j hj).symm
  rcases hwb with rfl | rfl <;> omega

/-- The first and the last of rising lanes bound them. -/
theorem rising_bounds {i : Nat} {t : List Nat} (h : (i :: t).Pairwise (· < ·)) (d : Nat) :
    (i :: t).getLastD d ∈ i :: t ∧ ∀ j ∈ i :: t, i ≤ j ∧ j ≤ (i :: t).getLastD d := by
  induction t generalizing i with
  | nil => simp
  | cons k t ih =>
    obtain ⟨hi, ht⟩ := List.pairwise_cons.1 h
    obtain ⟨hmem, hbound⟩ := ih ht
    refine ⟨List.mem_cons_of_mem i hmem, fun j hj => ?_⟩
    rcases List.mem_cons.1 hj with rfl | hj
    · exact ⟨Nat.le_refl _, Nat.le_of_lt (hi _ hmem)⟩
    · exact ⟨Nat.le_of_lt (hi j hj), (hbound j hj).2⟩

/-! ### Lines read -/

section
variable {x : Site} {base wb : Nat} (hwb : wb = 1 ∨ wb = 2)
include hwb

/-- The lanes of a line are read in one access. -/
theorem State.readLanes_eq {s : State} {g : List Nat} (hg : OneLine base wb g) (hrise : g.Pairwise (· < ·))
    (hlanes : ∀ i ∈ g, (base + i * wb) % wb = 0 ∧ s.readsAt (.core x) (base + i * wb)) :
    ∃ u, s.readLanes x base wb g = (u, g.map fun i => (i, bytesNat (s.bytesAt (base + i * wb) wb)), false) ∧ s.Counted u := by
  have hspan := hg
  obtain ⟨lo, t, rfl, -⟩ := hg
  obtain ⟨hlast, hbound⟩ := rising_bounds hrise 0
  obtain ⟨hle, -⟩ := hbound _ hlast
  obtain ⟨halign, hreads⟩ := hlanes lo List.mem_cons_self
  obtain ⟨u, hread, hu⟩ := State.busRead_eq (x := x) (b := base + lo * wb) (n := ((lo :: t).getLastD 0 - lo + 1) * wb) fun k hk =>
    State.readsAt_sameLine (hspan.span hwb List.mem_cons_self hlast hle halign hk) hreads
  refine ⟨u, ?_, hu⟩
  unfold State.readLanes
  simp only [List.headD_cons, hread]
  refine congrArg (fun l => (u, l, false)) (List.map_congr_left fun i hi => ?_)
  obtain ⟨hlo, hhi⟩ := hbound i hi
  have hfit : (i - lo) * wb + wb ≤ ((lo :: t).getLastD 0 - lo + 1) * wb := by
    rw [← Nat.succ_mul]
    exact Nat.mul_le_mul_right _ (by omega)
  have hplace : base + lo * wb + (i - lo) * wb = base + i * wb := by rw [Nat.add_assoc, ← Nat.add_mul, Nat.add_sub_cancel' hlo]
  rw [State.bitElem_bytesAt _ _ hfit, hplace]

/-- The lines of a load that no poison meets are read in order. -/
theorem State.readLineLanes_eq {s : State} {gs : List (List Nat)} (hgs : ∀ g ∈ gs, OneLine base wb g ∧ g.Pairwise (· < ·))
    (hlanes : ∀ i ∈ gs.flatten, (base + i * wb) % wb = 0 ∧ s.readsAt (.core x) (base + i * wb)) :
    ∃ u, s.readLineLanes x base wb gs = (u, gs.flatten.map fun i => (i, bytesNat (s.bytesAt (base + i * wb) wb)), none) ∧ s.Counted u := by
  induction gs generalizing s with
  | nil => exact ⟨s, rfl, .refl s⟩
  | cons g gs ih =>
    obtain ⟨hline, hrise⟩ := hgs g List.mem_cons_self
    rw [List.flatten_cons] at hlanes
    obtain ⟨u, hread, hu⟩ := State.readLanes_eq hwb (x := x) hline hrise fun i hi => hlanes i (List.mem_append_left _ hi)
    obtain ⟨v, hrest, hv⟩ := ih (s := u) (fun g hg => hgs g (List.mem_cons_of_mem _ hg)) fun i hi =>
      (hlanes i (List.mem_append_right _ hi)).imp_right hu.readsAt
    refine ⟨v, ?_, hu.trans hv⟩
    have hbytes (i : Nat) : u.bytesAt (base + i * wb) wb = s.bytesAt (base + i * wb) wb := State.bytesAt_congr hu.byteAt _ _
    simp only [State.readLineLanes, hread, hrest, hbytes, Bool.false_eq_true, if_false, List.flatten_cons, List.map_append]

end

/-! ### VLD -/

/-- The active lanes of VLD and VST (R143). -/
def Core.vlsLanes (k : Core) (f : FmtVls) : List Nat := (List.range (lanesOf (fmtWidth f.fmt.toNat))).filter (k.active f.mask)

theorem Core.vlsLanes_congr {k l : Core} (h : l.active = k.active) (f : FmtVls) : l.vlsLanes f = k.vlsLanes f := by
  rw [Core.vlsLanes, h, Core.vlsLanes]

theorem Core.rising_vlsLanes (k : Core) (f : FmtVls) : (k.vlsLanes f).Pairwise (· < ·) := List.pairwise_lt_range.filter _

/-- The address of lane 0 of an entry of VLD or VST (R143). -/
def QEntry.vlsBase (q : QEntry) : Nat := segBase (q.segs.headD 0) + (q.vals.headD 0).toNat

/-- The check of the access from lane `i` to lane `j` of an entry of VLD or VST (R143, R192). -/
def QEntry.vlsCheck (q : QEntry) (right : Right) (wb i j : Nat) : Option Nat :=
  segCheck (q.segs.headD 0) q.ring.toNat right (((q.vals.headD 0).toNat + i * wb : Nat) : Int) ((j - i + 1) * wb) wb

/-- What is checked is aligned (R192). -/
theorem segCheck_align {d : SegImage} {ring o n align : Nat} {right : Right} (h : segCheck d ring right (o : Int) n align = none) :
    (segBase d + o) % align = 0 := by
  unfold segCheck at h
  split_ifs at h with h1 h2 h3 h4 h5
  simpa using h5

theorem QEntry.vlsCheck_align {q : QEntry} {right : Right} {wb i j : Nat} (h : q.vlsCheck right wb i j = none) :
    (q.vlsBase + i * wb) % wb = 0 := by
  rw [QEntry.vlsBase, Nat.add_assoc]
  exact segCheck_align h

theorem State.runVls_none {e : State} {c : CoreId} {q : QEntry} {st : Bool} {f : FmtVls} (h : (e.core c).vlsLanes f = []) :
    e.runVls c q st f = .done e := by
  unfold Core.vlsLanes at h
  unfold State.runVls
  simp only [h]

theorem State.runVld_eq {e u : State} {c : CoreId} {q : QEntry} {f : FmtVls} {wb lo : Nat} {t : List Nat} {l : List (Nat × Nat)}
    (hwb : wb = fmtWidth f.fmt.toNat / 8) (hact : (e.core c).vlsLanes f = lo :: t)
    (hcheck : q.vlsCheck .read wb lo ((lo :: t).getLastD lo) = none)
    (hstall : ∀ g ∈ lanesByLine q.vlsBase wb (lo :: t), e.readStalls (.core ⟨c, q.thread⟩) (q.vlsBase + g.headD 0 * wb) wb = false)
    (hread : e.readLineLanes ⟨c, q.thread⟩ q.vlsBase wb (lanesByLine q.vlsBase wb (lo :: t)) = (u, l, none)) :
    e.runVls c q false f = .done (u.setV c f.vr.toNat
      (laneMap (fmtWidth f.fmt.toNat) ((e.core c).vr f.vr.toNat) fun i => SMap.find? l i)) := by
  subst hwb
  have hnone : ((lanesByLine q.vlsBase (fmtWidth f.fmt.toNat / 8) (lo :: t)).any fun g =>
      e.readStalls (.core ⟨c, q.thread⟩) (q.vlsBase + g.headD 0 * (fmtWidth f.fmt.toNat / 8)) (fmtWidth f.fmt.toNat / 8)) = false :=
    List.any_eq_false.2 fun g hg => by rw [hstall g hg]; exact Bool.false_ne_true
  unfold Core.vlsLanes at hact
  unfold QEntry.vlsCheck at hcheck
  unfold QEntry.vlsBase at hnone hread
  unfold State.runVls
  simp only [hact, hcheck, hnone, hread, Bool.false_eq_true, if_false]

theorem SMap.find?_map_self {α : Type} (l : List Nat) (g : Nat → α) (i : Nat) :
    SMap.find? (l.map fun j => (j, g j)) i = if i ∈ l then some (g i) else none := by
  induction l with
  | nil => rfl
  | cons j l ih =>
    rw [List.map_cons, SMap.find?, ih]
    by_cases hij : i = j
    · simp [hij]
    · simp [hij]

/-- VLD and VST name a format of one or two bytes (R133, R143). -/
theorem vls_width {load : Bool} {f : FmtVls} (h : vlsTrap load f = none) :
    fmtWidth f.fmt.toNat = 8 * (fmtWidth f.fmt.toNat / 8) ∧ (fmtWidth f.fmt.toNat / 8 = 1 ∨ fmtWidth f.fmt.toNat / 8 = 2) := by
  have hwidth := reservedIf_none h
  simp only [Bool.or_eq_false_iff, Bool.not_eq_false', Bool.or_eq_true, beq_iff_eq] at hwidth
  obtain ⟨⟨⟨hw, -⟩, -⟩, -⟩ := hwidth
  omega

/-- The first line of an access that reaches memory whole does. -/
theorem State.backs_of_allBack {s : State} {a : Agent} {b n : Nat} (hn : 0 < n) (h : s.allBack a b n = true) : s.backs a b = true := by
  rw [State.allBack, pieces, linePieces, if_neg (by omega), List.all_cons, Bool.and_eq_true] at h
  exact h.1

/-- The run of VLD with active lanes all of which are read now: they take the numbers that their bytes make (R143). -/
theorem State.runVld_reads {e : State} {c : CoreId} {q : QEntry} {f : FmtVls} {wb : Nat} (hwb : wb = fmtWidth f.fmt.toNat / 8)
    (hwb12 : wb = 1 ∨ wb = 2) (hsome : (e.core c).vlsLanes f ≠ [])
    (hcheck : ∀ i j, i ∈ (e.core c).vlsLanes f → j ∈ (e.core c).vlsLanes f → i ≤ j → q.vlsCheck .read wb i j = none)
    (hreads : ∀ i ∈ (e.core c).vlsLanes f, e.takesRead (.core ⟨c, q.thread⟩) (q.vlsBase + i * wb) wb) :
    ∃ u, e.runVls c q false f = .done (u.setV c f.vr.toNat (laneWrite (fmtWidth f.fmt.toNat) ((e.core c).vr f.vr.toNat)
      (fun i => decide (i ∈ (e.core c).vlsLanes f)) fun i => bytesNat (e.bytesAt (q.vlsBase + i * wb) wb))) ∧ e.Counted u := by
  have hrise := (e.core c).rising_vlsLanes f
  obtain ⟨lo, l, hon⟩ := List.exists_cons_of_ne_nil hsome
  rw [hon] at hcheck hreads hrise ⊢
  have hlanes (i : Nat) (hi : i ∈ lo :: l) : (q.vlsBase + i * wb) % wb = 0 ∧ e.readsAt (.core ⟨c, q.thread⟩) (q.vlsBase + i * wb) := by
    obtain ⟨hback, -, hpoison⟩ := hreads i hi
    exact ⟨QEntry.vlsCheck_align (hcheck i i hi hi (Nat.le_refl i)), State.backs_of_allBack (n := wb) (by omega) hback, hpoison⟩
  have hlines (g : List Nat) (hg : g ∈ lanesByLine q.vlsBase wb (lo :: l)) : OneLine q.vlsBase wb g ∧ g.Pairwise (· < ·) := by
    refine ⟨oneLine_of_mem_lanesByLine hg, hrise.sublist ?_⟩
    rw [← flatten_lanesByLine q.vlsBase wb (lo :: l)]
    exact List.sublist_flatten_of_mem hg
  have hstall (g : List Nat) (hg : g ∈ lanesByLine q.vlsBase wb (lo :: l)) :
      e.readStalls (.core ⟨c, q.thread⟩) (q.vlsBase + g.headD 0 * wb) wb = false := by
    obtain ⟨⟨i, t, rfl, -⟩, -⟩ := hlines g hg
    have hmem : i ∈ lo :: l := by
      rw [← flatten_lanesByLine q.vlsBase wb (lo :: l)]
      exact List.mem_flatten_of_mem hg List.mem_cons_self
    obtain ⟨-, hfree, -⟩ := hreads i hmem
    exact hfree
  obtain ⟨hlast, hbound⟩ := rising_bounds hrise lo
  obtain ⟨u, hread, hu⟩ := State.readLineLanes_eq hwb12 hlines (by rwa [flatten_lanesByLine])
  rw [flatten_lanesByLine] at hread
  refine ⟨u, (State.runVld_eq hwb hon (hcheck lo _ List.mem_cons_self hlast (hbound _ hlast).1) hstall hread).trans ?_, hu⟩
  simp only [laneWrite, SMap.find?_map_self, decide_eq_true_eq]

/-- A register written in a state that differs in counters alone. -/
theorem State.liveOnly_setV {s u : State} (h : s.liveOnly u) (c : CoreId) (n v : Nat) : (s.setV c n v).liveOnly (u.setV c n v) := by
  unfold State.liveOnly at h ⊢
  rw [h]
  rfl

section
variable {s : State} {x : Site} {f : FmtVls} (h : s.ready x (.vld x f) = true) (hq : s.quiet = true)
  (hs : (s.core x.core).vq.stop = none)
include h hq hs

/-- Without an active lane VLD does nothing (R143). -/
theorem State.vld_none_answers (hno : (s.core x.core).vlsLanes f = []) : Answers (exec (.vld x f) s) fun t =>
    s.ends x id (fun k => { k with vreg := [] }) { t with live := s.live } ∧ (t.core x.core).vr = (s.core x.core).vr := by
  have hi : queueOf (.vld x f) = 1 := rfl
  obtain ⟨u, hu, -, hends, hbare⟩ := State.answers_vector h hq hs hi (fun s => [s.reg x (reg4 f.sn)]) (fun s => [s.segOf x f.seg])
    (State.runVls_none ((Core.vlsLanes_congr (State.active_entered hi _ _) f).trans hno)) (State.WritesV.refl _ _)
  exact ⟨u, hu, hends, (Core.vr_of_vreg hbare).trans (State.vr_entered hi _ _)⟩

/-- VLD loads each active lane from its place (R143). -/
theorem State.vld_answers {q : QEntry} {wb : Nat} (hentry : q = s.entryOf x (.vld x f) [s.reg x (reg4 f.sn)] [s.segOf x f.seg])
    (hwb : wb = fmtWidth f.fmt.toNat / 8)
    (hcheck : ∀ i j, i ∈ (s.core x.core).vlsLanes f → j ∈ (s.core x.core).vlsLanes f → i ≤ j → q.vlsCheck .read wb i j = none)
    (hreads : ∀ i ∈ (s.core x.core).vlsLanes f, s.takesRead (.core x) (q.vlsBase + i * wb) wb) :
    Answers (exec (.vld x f) s) fun t => s.ends x id (fun k => { k with vreg := [] }) { t with live := s.live } ∧
      (∀ n, n ≠ f.vr.toNat → (t.core x.core).vr n = (s.core x.core).vr n) ∧
      ∀ i, i < 1024 / fmtWidth f.fmt.toNat → bitElem (fmtWidth f.fmt.toNat) ((t.core x.core).vr f.vr.toNat) i =
        if i ∈ (s.core x.core).vlsLanes f then bytesNat (s.bytesAt (q.vlsBase + i * wb) wb)
        else bitElem (fmtWidth f.fmt.toNat) ((s.core x.core).vr f.vr.toNat) i := by
  by_cases hsome : (s.core x.core).vlsLanes f = []
  · obtain ⟨t, ht, hends, hkept⟩ := State.vld_none_answers h hq hs hsome
    exact ⟨t, ht, hends, fun n _ => by rw [hkept], fun i _ => by rw [hkept, hsome, if_neg List.not_mem_nil]⟩
  have hi : queueOf (.vld x f) = 1 := rfl
  obtain ⟨hw, hwb12⟩ := vls_width (State.ready_trap h)
  rw [← hwb] at hw hwb12
  have hactive := Core.vlsLanes_congr (State.active_entered (s := s) (x := x) hi [s.reg x (reg4 f.sn)] [s.segOf x f.seg]) f
  have hin := s.sameOutside_entered x (.vld x f) [s.reg x (reg4 f.sn)] [s.segOf x f.seg]
  have hvr := State.vr_entered (s := s) (x := x) hi [s.reg x (reg4 f.sn)] [s.segOf x f.seg]
  obtain ⟨u, hrun, hu⟩ := State.runVld_reads (e := s.entered x (.vld x f) [s.reg x (reg4 f.sn)] [s.segOf x f.seg]) (c := x.core) (q := q)
    hwb hwb12 (by rwa [hactive]) (by rwa [hactive]) fun i hil => by
      rw [State.takesRead_sameOutside hin, show (⟨x.core, q.thread⟩ : Site) = x by rw [hentry]; rfl]
      exact hreads i (hactive ▸ hil)
  rw [hvr, hactive, hentry] at hrun
  obtain ⟨t, ht, -, hends, hothers, hvd⟩ := State.answers_setV h hq hs hi (vals := fun s => [s.reg x (reg4 f.sn)])
    (segs := fun s => [s.segOf x f.seg]) hrun (State.liveOnly_setV hu.live _ _ _)
  refine ⟨t, ht, hends, hothers, fun i hil => ?_⟩
  have hlt := bytesNat_lt (s.bytesAt (q.vlsBase + i * wb) wb)
  rw [State.length_bytesAt, ← two_pow_bytes, ← hw] at hlt
  rw [hvd, bitElem_register _ _ hil, bitElem_laneWrite _ _ _ _ hil, ← hentry, State.bytesAt_congr (State.byteAt_sameOutside hin),
    Nat.mod_eq_of_lt hlt]
  simp only [decide_eq_true_eq]

end

end Sys2Proof.Machine
end

