-- ==== Sys2Proof/Proofs/VectorStores.lean ====
section
/-!
SUPPORT. VST in an idle vector engine (R143, R260, R261): the runs of active lanes of each line are stored as one access, each byte at its
place. This settles O25.
-/
namespace Sys2Proof.Machine

/-! ### Runs of lanes -/

theorem flatten_laneRuns (l : List Nat) : (laneRuns l).flatten = l := by
  induction l with
  | nil => rfl
  | cons i l ih =>
    unfold laneRuns
    split
    · next h =>
      rw [h, List.flatten_nil] at ih
      subst ih
      rfl
    · next j g r h =>
      rw [h] at ih
      split
      · rw [← ih]
        rfl
      · rw [← ih]
        rfl
    · next r h =>
      rw [h] at ih
      rw [← ih]
      rfl

/-- A run is lanes without a gap. -/
theorem range_of_mem_laneRuns {l r : List Nat} (hr : r ∈ laneRuns l) : ∃ i n, r = List.range' i (n + 1) := by
  induction l generalizing r with
  | nil => exact absurd hr List.not_mem_nil
  | cons i l ih =>
    unfold laneRuns at hr
    split at hr
    · exact ⟨i, 0, List.mem_singleton.1 hr⟩
    · next j t rs h =>
      rw [h] at ih
      split at hr
      · next hnext =>
        rcases List.mem_cons.1 hr with rfl | hr
        · obtain ⟨i', n, hrange⟩ := ih List.mem_cons_self
          rw [List.range'_succ] at hrange
          obtain ⟨rfl, rfl⟩ := List.cons.inj hrange
          exact ⟨i, n + 1, by rw [List.range'_succ, List.range'_succ, hnext]⟩
        · exact ih (List.mem_cons_of_mem _ hr)
      · rcases List.mem_cons.1 hr with rfl | hr
        · exact ⟨i, 0, rfl⟩
        · exact ih hr
    · next rs h =>
      rw [h] at ih
      rcases List.mem_cons.1 hr with rfl | hr
      · exact ⟨i, 0, rfl⟩
      · exact ih (List.mem_cons_of_mem _ hr)

/-! ### Bytes of lanes -/

/-- A byte of an element is a byte of the register. -/
theorem bitElem_bitElem {m n j : Nat} (hj : j < n) (v i : Nat) : bitElem m (bitElem (m * n) v i) j = bitElem m v (i * n + j) := by
  refine Nat.eq_of_testBit_eq fun k => ?_
  rw [testBit_bitElem, testBit_bitElem, testBit_bitElem]
  by_cases hk : k < m
  · have hfit : m * j + m ≤ m * n := by
      rw [← Nat.mul_succ]
      exact Nat.mul_le_mul_left m hj
    have hplace : m * n * i + (m * j + k) = m * (i * n + j) + k := by ring
    rw [decide_eq_true hk, decide_eq_true (show m * j + k < m * n by omega), hplace, Bool.true_and]
  · simp [hk]

/-- A byte of lanes that lie one behind the other is a byte of the register. -/
theorem bitElem_packRange {wb n j : Nat} (hj : j < n * wb) (v i : Nat) :
    bitElem 8 (packElems (8 * wb) ((List.range' i n).map (bitElem (8 * wb) v))) j = bitElem 8 v (i * wb + j) := by
  have hwb : 0 < wb := Nat.pos_of_ne_zero fun h => by simp [h] at hj
  have hlane : j / wb < n := (Nat.div_lt_iff_lt_mul hwb).2 hj
  have hmod := Nat.mod_lt j hwb
  have hget : ((List.range' i n).map (bitElem (8 * wb) v)).getD (j / wb) 0 = bitElem (8 * wb) v (i + j / wb) := by
    simp [List.getD_eq_getElem?_getD, hlane]
  have helem := bitElem_packElems (8 * wb) ((List.range' i n).map (bitElem (8 * wb) v)) (j / wb)
  rw [hget, bitElem_mod_self] at helem
  have hbyte (row m : Nat) : bitElem 8 row (m * wb + j % wb) = bitElem 8 (bitElem (8 * wb) row m) (j % wb) :=
    (bitElem_bitElem hmod row m).symm
  have hj' : j = j / wb * wb + j % wb := by rw [Nat.mul_comm]; exact (Nat.div_add_mod j wb).symm
  have hplace : i * wb + j = (i + j / wb) * wb + j % wb := by
    rw [Nat.add_mul, Nat.add_assoc, ← hj']
  rw [hplace, hbyte, ← helem, ← hbyte, ← hj']

theorem bitElem_byte_succ (v j : Nat) : bitElem 8 v (j + 1) = bitElem 8 (v / 256) j := by
  rw [Nat.add_comm]
  exact (bitElem_div 8 v 1 j).symm

theorem ofNat_byte_zero (v : Nat) : BitVec.ofNat 8 (bitElem 8 v 0) = BitVec.ofNat 8 v := by
  rw [bitElem, Nat.mul_zero, Nat.pow_zero, Nat.div_one]
  exact BitVec.eq_of_toNat_eq (by simp)

theorem getD_natBytes {n j : Nat} (hj : j < n) (v : Nat) : (natBytes n v).getD j 0 = BitVec.ofNat 8 (bitElem 8 v j) := by
  induction n generalizing j v with
  | zero => exact absurd hj (Nat.not_lt_zero j)
  | succ n ih =>
    rw [natBytes]
    cases j with
    | zero => rw [List.getD_cons_zero, ofNat_byte_zero]
    | succ j => rw [List.getD_cons_succ, ih (by omega), bitElem_byte_succ]

/-- Bytes that are those of a number. -/
theorem State.bytesAt_eq_natBytes {s : State} {a n v : Nat} (h : ∀ j, j < n → s.byteAt (a + j) = BitVec.ofNat 8 (bitElem 8 v j)) :
    s.bytesAt a n = natBytes n v := by
  induction n generalizing a v with
  | zero => rfl
  | succ n ih =>
    have hfirst := h 0 (Nat.succ_pos n)
    rw [Nat.add_zero, ofNat_byte_zero] at hfirst
    have hrest := ih (a := a + 1) (v := v / 256) fun j hj => by
      rw [Nat.add_assoc, Nat.add_comm 1, h (j + 1) (by omega), bitElem_byte_succ]
    rw [State.bytesAt, natBytes, hfirst, hrest]

/-! ### Runs stored -/

/-- A further run of bytes of an access to a line is written like its first, but not counted (R260). -/
theorem State.wrote_performLine_further {s : State} {a : Agent} {b : Nat} {d : List Byte} (hd : 0 < d.length)
    (h : ∀ j, j < d.length → s.writesAt a (b + j)) : s.Wrote (s.performLine a b d false) b d := by
  have hset : s.Wrote (s.setBytes b d) b d := State.wrote_setBytes fun j hj => State.hasByte_of_backs (h j hj).backs
  have hfirst := h 0 hd
  rw [Nat.add_zero] at hfirst
  unfold State.performLine
  simp only [Bool.false_eq_true, if_false]
  split
  · next o hw =>
    split
    · next hnone =>
      have hbyte := State.hasByte_of_backs hfirst.backs
      simp only [State.hasByte, hw, hnone] at hbyte
      exact absurd hbyte (by simp)
    · next e g f hsome =>
      have hclean : ¬(d.length < 64 ∧ s.poisoned b = true) := by simp [hfirst.clean o hw]
      rw [if_neg (not_not.2 (hfirst.link o e g f hw hsome)), if_neg hclean]
      split
      · split
        · next l hl => exact (hset.clear _).found hl
        · exact hset.clear _
      · exact hset
  · split
    · exact hset.clear _
    · exact hset

/-- An address lies in the place of one of the lanes `l`, each of `wb` bytes from `base` on. -/
def laneCovers (base wb : Nat) (l : List Nat) (b : Nat) : Prop := ∃ i ∈ l, base + i * wb ≤ b ∧ b < base + i * wb + wb

theorem laneCovers_append {base wb b : Nat} {l m : List Nat} :
    laneCovers base wb (l ++ m) b ↔ laneCovers base wb l b ∨ laneCovers base wb m b := by
  simp only [laneCovers, List.mem_append, or_and_right, exists_or]

/-- The places of a run lie one behind the other. -/
theorem laneCovers_range {base wb i n b : Nat} (hwb : wb = 1 ∨ wb = 2) :
    laneCovers base wb (List.range' i n) b ↔ base + i * wb ≤ b ∧ b < base + i * wb + n * wb := by
  constructor
  · rintro ⟨j, hj, hlo, hhi⟩
    obtain ⟨hij, hjn⟩ := List.mem_range'_1.1 hj
    rcases hwb with rfl | rfl <;> omega
  · rintro ⟨hlo, hhi⟩
    refine ⟨(b - base) / wb, List.mem_range'_1.2 ?_, ?_⟩ <;> rcases hwb with rfl | rfl <;> omega

/-- The lanes `l` of a register, each of `wb` bytes, stand at their places from `base` on, and every other byte is as it was; nothing else
differs on which accesses depend, and what could be written still can. -/
structure State.LanesStored (s t : State) (base wb v : Nat) (l : List Nat) : Prop where
  places : s.SamePlaces t
  writes : ∀ a b, s.writesAt a b → t.writesAt a b
  stored : ∀ b, laneCovers base wb l b → t.byteAt b = BitVec.ofNat 8 (bitElem 8 v (b - base))
  kept : ∀ b, ¬laneCovers base wb l b → t.byteAt b = s.byteAt b

namespace State.LanesStored

variable {s t u : State} {base wb v : Nat} {l m : List Nat}

theorem refl (s : State) (base wb v : Nat) : s.LanesStored s base wb v [] :=
  ⟨.refl s, fun _ _ => id, fun _ hb => by simp [laneCovers] at hb, fun _ _ => rfl⟩

theorem trans (h : s.LanesStored t base wb v l) (k : t.LanesStored u base wb v m) : s.LanesStored u base wb v (l ++ m) := by
  refine ⟨h.places.trans k.places, fun a b hb => k.writes a b (h.writes a b hb), fun b hb => ?_, fun b hb => ?_⟩
  · by_cases hm : laneCovers base wb m b
    · exact k.stored b hm
    · rw [k.kept b hm, h.stored b ((laneCovers_append.1 hb).resolve_right hm)]
  · obtain ⟨hl, hm⟩ := not_or.1 (laneCovers_append.not.1 hb)
    rw [k.kept b hm, h.kept b hl]

/-- A run is stored by the write of its bytes. -/
theorem of_wrote {i n : Nat} (hwb : wb = 1 ∨ wb = 2)
    (h : s.Wrote t (base + i * wb) (natBytes (n * wb) (packElems (8 * wb) ((List.range' i n).map (bitElem (8 * wb) v))))) :
    s.LanesStored t base wb v (List.range' i n) := by
  refine ⟨h.places, fun a b hb => h.writesAt hb, fun b hb => ?_, fun b hb => ?_⟩
  · obtain ⟨hlo, hhi⟩ := (laneCovers_range hwb).1 hb
    rw [h.byteAt, length_natBytes, if_pos ⟨hlo, hhi⟩, getD_natBytes (by omega), bitElem_packRange (by omega)]
    congr 2
    omega
  · rw [h.byteAt, length_natBytes, if_neg (mt (laneCovers_range hwb).2 hb)]

/-- Counting stores no lane. -/
theorem of_counted (base wb v : Nat) (h : t.Counted u) : t.LanesStored u base wb v [] :=
  ⟨h.places, fun _ _ hb => (h.wrote (State.wrote_nil u 0)).writesAt hb, fun _ hb => by simp [laneCovers] at hb, fun b _ => h.byteAt b⟩

/-- A lane that is stored is read back at its place. -/
theorem bytesAt (h : s.LanesStored t base wb v l) {i : Nat} (hi : i ∈ l) :
    t.bytesAt (base + i * wb) wb = natBytes wb (bitElem (8 * wb) v i) := by
  refine State.bytesAt_eq_natBytes fun j hj => ?_
  rw [h.stored _ ⟨i, hi, by omega, by omega⟩, bitElem_bitElem hj, Nat.add_assoc, Nat.add_sub_cancel_left]

end State.LanesStored

section
variable {c : CoreId} {q : QEntry} {base wb v : Nat} (hwb : wb = 1 ∨ wb = 2)
include hwb

/-- The bytes of a run are stored as its memory takes them, be it the first run of its line or a further one (R260). -/
theorem State.storeRuns_run (s : State) (first : Bool) (r : List Nat) (rs : List (List Nat)) {i n : Nat} (hr : r = List.range' i (n + 1))
    (hw : ∀ j, j < r.length * wb → s.writesAt (.core ⟨c, q.thread⟩) (base + i * wb + j)) :
    ∃ t, s.storeRuns c q base wb v first (r :: rs) = t.storeRuns c q base wb v false rs ∧ s.LanesStored t base wb v r := by
  have hhead : r.headD 0 = i := by rw [hr]; rfl
  have hlen : r.length = n + 1 := by rw [hr, List.length_range']
  rw [hlen] at hw
  rw [State.storeRuns, hhead, hlen]
  refine ⟨_, rfl, ?_⟩
  subst hr
  have hbytes := length_natBytes ((n + 1) * wb) (packElems (8 * wb) ((List.range' i (n + 1)).map (bitElem (8 * wb) v)))
  rw [← hbytes] at hw
  refine State.LanesStored.of_wrote hwb ?_
  split
  · exact State.wrote_entryWrite hw
  · have hpos : 0 < (n + 1) * wb := by rcases hwb with rfl | rfl <;> omega
    have hfree := (hw 0 (by omega)).free
    rw [Nat.add_zero] at hfree
    rw [State.writeLine, hfree]
    exact State.wrote_performLine_further (by omega) hw

/-- The runs of a line are stored one after the other. -/
theorem State.lanesStored_storeRuns {s : State} (first : Bool) {rs : List (List Nat)} (hrs : ∀ r ∈ rs, ∃ i n, r = List.range' i (n + 1))
    (hw : ∀ b, laneCovers base wb rs.flatten b → s.writesAt (.core ⟨c, q.thread⟩) b) :
    s.LanesStored (s.storeRuns c q base wb v first rs) base wb v rs.flatten := by
  induction rs generalizing s first with
  | nil => exact .refl s base wb v
  | cons r rs ih =>
    obtain ⟨i, n, hr⟩ := hrs r List.mem_cons_self
    rw [List.flatten_cons] at hw ⊢
    have hrun (j : Nat) (hj : j < r.length * wb) : s.writesAt (.core ⟨c, q.thread⟩) (base + i * wb + j) := by
      refine hw _ (laneCovers_append.2 (.inl ?_))
      rw [hr, List.length_range'] at hj
      rw [hr, laneCovers_range hwb]
      omega
    obtain ⟨t, ht, hstored⟩ := s.storeRuns_run hwb (v := v) first r rs hr hrun
    rw [ht]
    exact hstored.trans (ih false (fun r hr => hrs r (List.mem_cons_of_mem _ hr)) fun b hb =>
      hstored.writes _ _ (hw b (laneCovers_append.2 (.inr hb))))

/-- The lines of a store are written in order. -/
theorem State.lanesStored_lines {s : State} {gs : List (List Nat)}
    (hw : ∀ b, laneCovers base wb gs.flatten b → s.writesAt (.core ⟨c, q.thread⟩) b) :
    s.LanesStored (gs.foldl (fun s g => s.storeRuns c q base wb v true (laneRuns g)) s) base wb v gs.flatten := by
  induction gs generalizing s with
  | nil => exact .refl s base wb v
  | cons g gs ih =>
    rw [List.flatten_cons] at hw ⊢
    have hline := State.lanesStored_storeRuns (c := c) (q := q) (v := v) hwb (s := s) true (rs := laneRuns g)
      (fun r => range_of_mem_laneRuns) (by
        rw [flatten_laneRuns]
        exact fun b hb => hw b (laneCovers_append.2 (.inl hb)))
    rw [flatten_laneRuns] at hline
    exact hline.trans (ih fun b hb => hline.writes _ _ (hw b (laneCovers_append.2 (.inr hb))))

end

/-! ### VST -/

/-- An access within a line is one piece (R260). -/
theorem pieces_of_line {b n : Nat} (hn : 0 < n) (h : b / 64 = (b + (n - 1)) / 64) : pieces b n = [(b, n)] := by
  have hmin : min n (64 - b % 64) = n := by omega
  simp [pieces, linePieces, hmin, Nat.ne_of_gt hn]

/-- What a memory takes of an access it takes of its first byte. -/
theorem State.takesWrite_byte {s : State} {a : Agent} {b n : Nat} (hn : 0 < n) (h : s.takesWrite a b n) : s.takesWrite a b 1 := by
  obtain ⟨hback, hstall, hprot, hbehind, hlink⟩ := h
  have hreach := State.backs_of_allBack hn hback
  refine ⟨by rw [State.allBack, pieces_one, List.all_cons, hreach]; rfl, ?_, hprot, hbehind, hlink⟩
  have hfirst : (s.reaches a b && !isControl b) = true := hreach
  obtain ⟨hreaches, -⟩ := Bool.and_eq_true_iff.1 hfirst
  rw [State.writeStalls, State.writesStall, Bool.not_eq_false', List.flatMap_cons, pieces, linePieces, if_neg (by omega)] at hstall
  rw [State.writeStalls, State.writesStall, Bool.not_eq_false', List.flatMap_cons, List.flatMap_nil, pieces_one]
  simp only [List.cons_append, State.takesLines, hreaches, if_true, Bool.and_eq_true] at hstall ⊢
  exact ⟨hstall.1, rfl⟩

/-- Each byte of a lane whose place is aligned is written at once when the lane is. -/
theorem State.writesAt_lanes {s : State} {a : Agent} {base wb : Nat} {l : List Nat} (hwb : wb = 1 ∨ wb = 2)
    (halign : ∀ i ∈ l, (base + i * wb) % wb = 0)
    (htakes : ∀ i ∈ l, s.takesWrite a (base + i * wb) wb ∧ s.tierClean (base + i * wb)) (b : Nat) (hb : laneCovers base wb l b) :
    s.writesAt a b := by
  obtain ⟨i, hi, hlo, hhi⟩ := hb
  obtain ⟨hw, hclean⟩ := htakes i hi
  have hplace := halign i hi
  have hline : (base + i * wb) / 64 = b / 64 := by rcases hwb with rfl | rfl <;> omega
  exact State.writesAt_sameLine hline (State.writesAt_of_takesWrite (State.takesWrite_byte (by omega) hw) hclean)

/-- The runs of the lines of a store wait at no memory when its lanes do not. -/
theorem State.runsStall {s : State} {a : Agent} {base wb : Nat} {gs : List (List Nat)} (hwb : wb = 1 ∨ wb = 2)
    (hgs : ∀ g ∈ gs, OneLine base wb g) (halign : ∀ i ∈ gs.flatten, (base + i * wb) % wb = 0)
    (htakes : ∀ i ∈ gs.flatten, s.takesWrite a (base + i * wb) wb) :
    s.writesStall a (gs.flatMap fun g => (laneRuns g).map fun r => (base + r.headD 0 * wb, r.length * wb)) = false := by
  rw [State.writesStall, State.takesLines_of_each fun p hp => ?_]
  · rfl
  · obtain ⟨run, hrun, hp⟩ := List.mem_flatMap.1 hp
    obtain ⟨g, hg, hrun⟩ := List.mem_flatMap.1 hrun
    obtain ⟨r, hr, rfl⟩ := List.mem_map.1 hrun
    obtain ⟨i, n, rfl⟩ := range_of_mem_laneRuns hr
    have hmem (j : Nat) (hj : j ∈ List.range' i (n + 1)) : j ∈ g := by
      rw [← flatten_laneRuns g]
      exact List.mem_flatten_of_mem hr hj
    have hfirst := hmem i (List.mem_range'_1.2 (by omega))
    have hlast := hmem (i + n) (List.mem_range'_1.2 (by omega))
    have hi := List.mem_flatten_of_mem hg hfirst
    have hpos : 0 < (n + 1) * wb := by rcases hwb with rfl | rfl <;> omega
    have hline := (hgs g hg).span hwb hfirst hlast (Nat.le_add_right i n) (halign i hi) (k := (n + 1) * wb - 1)
      (by rw [Nat.add_sub_cancel_left]; omega)
    have hhead : (List.range' i (n + 1)).headD 0 = i := rfl
    rw [hhead, List.length_range', pieces_of_line hpos hline, List.mem_singleton] at hp
    subst hp
    exact State.takesWrite_byte (by omega) (htakes i hi)

theorem State.runVst_eq {e : State} {c : CoreId} {q : QEntry} {f : FmtVls} {wb lo : Nat} {t : List Nat}
    (hwb : wb = fmtWidth f.fmt.toNat / 8) (hact : (e.core c).vlsLanes f = lo :: t)
    (hcheck : q.vlsCheck .write wb lo ((lo :: t).getLastD lo) = none)
    (hstall : e.writesStall (.core ⟨c, q.thread⟩) ((lanesByLine q.vlsBase wb (lo :: t)).flatMap fun g =>
      (laneRuns g).map fun r => (q.vlsBase + r.headD 0 * wb, r.length * wb)) = false) :
    e.runVls c q true f = .done (((lanesByLine q.vlsBase wb (lo :: t)).foldl
      (fun s g => s.storeRuns c q q.vlsBase wb ((e.core c).vr f.vr.toNat) true (laneRuns g)) e).tally (.core c) f.tally.toNat f.fmt.toNat
      ((lo :: t).map fun i => Elem.ofBits (bitElem (fmtWidth f.fmt.toNat) ((e.core c).vr f.vr.toNat) i))) := by
  subst hwb
  unfold Core.vlsLanes at hact
  unfold QEntry.vlsCheck at hcheck
  unfold QEntry.vlsBase at hstall
  unfold State.runVls
  simp only [hact, hcheck, hstall, if_true, Bool.false_eq_true, if_false]
  rfl

/-- The run of VST whose lanes are all written now: they stand at their places (R143). -/
theorem State.runVst_stores {e : State} {c : CoreId} {q : QEntry} {f : FmtVls} {wb : Nat} (hwb : wb = fmtWidth f.fmt.toNat / 8)
    (hwb12 : wb = 1 ∨ wb = 2)
    (hcheck : ∀ i j, i ∈ (e.core c).vlsLanes f → j ∈ (e.core c).vlsLanes f → i ≤ j → q.vlsCheck .write wb i j = none)
    (htakes : ∀ i ∈ (e.core c).vlsLanes f,
      e.takesWrite (.core ⟨c, q.thread⟩) (q.vlsBase + i * wb) wb ∧ e.tierClean (q.vlsBase + i * wb)) :
    ∃ t, e.runVls c q true f = .done t ∧ e.LanesStored t q.vlsBase wb ((e.core c).vr f.vr.toNat) ((e.core c).vlsLanes f) := by
  have hrise := (e.core c).rising_vlsLanes f
  cases hon : (e.core c).vlsLanes f with
  | nil => exact ⟨e, State.runVls_none hon, .refl e _ _ _⟩
  | cons lo l =>
    rw [hon] at hcheck htakes hrise
    have halign (i : Nat) (hi : i ∈ lo :: l) : (q.vlsBase + i * wb) % wb = 0 :=
      QEntry.vlsCheck_align (hcheck i i hi hi (Nat.le_refl i))
    have hflat := flatten_lanesByLine q.vlsBase wb (lo :: l)
    obtain ⟨hlast, hbound⟩ := rising_bounds hrise lo
    have hstall := State.runsStall (gs := lanesByLine q.vlsBase wb (lo :: l)) hwb12 (fun g => oneLine_of_mem_lanesByLine) (by rwa [hflat])
      (by rw [hflat]; exact fun i hi => (htakes i hi).1)
    have hstored := State.lanesStored_lines (s := e) (c := c) (q := q) (v := (e.core c).vr f.vr.toNat)
      (gs := lanesByLine q.vlsBase wb (lo :: l)) hwb12 (by rw [hflat]; exact State.writesAt_lanes hwb12 halign htakes)
    rw [hflat] at hstored
    have hall := hstored.trans (.of_counted _ _ _ ⟨State.liveOnly_tally _ (.core c) f.tally.toNat f.fmt.toNat
      ((lo :: l).map fun i => Elem.ofBits (bitElem (fmtWidth f.fmt.toNat) ((e.core c).vr f.vr.toNat) i)),
      State.samePlaces_tally _ _ _ _ f.tally.isLt⟩)
    rw [List.append_nil] at hall
    exact ⟨_, State.runVst_eq hwb hon (hcheck lo _ List.mem_cons_self hlast (hbound _ hlast).1) hstall, hall⟩

/-- A vector instruction whose run writes memory alone (R133). -/
theorem State.answers_places {s : State} {x : Site} {i : Instr} (h : s.ready x i = true) (hq : s.quiet = true)
    (hs : (s.core x.core).vq.stop = none) (hi : queueOf i = 1) {vals : State → List Word} {segs : State → List SegImage} {t : State}
    (hrun : (s.entered x i (vals s) (segs s)).runVector x.core (s.entryOf x i (vals s) (segs s)) = .done t)
    (ht : (s.entered x i (vals s) (segs s)).SamePlaces t) : Answers (s.queueIn x i vals segs) fun u =>
      s.steps x id { u with live := s.live, mem := s.mem, near := s.near, cxl := s.cxl, poison := s.poison, cxlLost := s.cxlLost } ∧
        ∀ b, u.byteAt b = t.byteAt b := by
  obtain ⟨u, hu, hran⟩ := State.answers_move h hq hs hi vals segs hrun (ht.runsTo x.core)
  obtain ⟨hsame, hbare, hothers, hthread⟩ := hran.ends (p := id)
    (v := { u with live := s.live, mem := s.mem, near := s.near, cxl := s.cxl, poison := s.poison, cxlLost := s.cxlLost })
    (fun n => by rw [State.thread, ht.core, State.thread])
    (by rw [ht.core, Core.bare_withTiles, s.tiles_entered x i (vals s) (segs s)]) rfl
    (congrArg (fun r : State => { r with
      live := s.live, mem := s.mem, near := s.near, cxl := s.cxl, poison := s.poison, cxlLost := s.cxlLost }) hran.outer)
  exact ⟨u, hu, ⟨⟨hsame, hbare, hothers⟩, hthread⟩, hran.byteAt⟩

/-- VST stores each active lane at its place (R143). -/
theorem State.vst_answers {s : State} {x : Site} {f : FmtVls} (h : s.ready x (.vst x f) = true) (hq : s.quiet = true)
    (hs : (s.core x.core).vq.stop = none) {q : QEntry} {wb : Nat}
    (hentry : q = s.entryOf x (.vst x f) [s.reg x (reg4 f.sn)] [s.segOf x f.seg]) (hwb : wb = fmtWidth f.fmt.toNat / 8)
    (hcheck : ∀ i j, i ∈ (s.core x.core).vlsLanes f → j ∈ (s.core x.core).vlsLanes f → i ≤ j → q.vlsCheck .write wb i j = none)
    (htakes : ∀ i ∈ (s.core x.core).vlsLanes f, s.takesWrite (.core x) (q.vlsBase + i * wb) wb ∧ s.tierClean (q.vlsBase + i * wb)) :
    Answers (exec (.vst x f) s) fun t =>
      s.steps x id { t with live := s.live, mem := s.mem, near := s.near, cxl := s.cxl, poison := s.poison, cxlLost := s.cxlLost } ∧
      (∀ i ∈ (s.core x.core).vlsLanes f, t.bytesAt (q.vlsBase + i * wb) wb =
        natBytes wb (bitElem (fmtWidth f.fmt.toNat) ((s.core x.core).vr f.vr.toNat) i)) ∧
      ∀ b, ¬laneCovers q.vlsBase wb ((s.core x.core).vlsLanes f) b → t.byteAt b = s.byteAt b := by
  have hi : queueOf (.vst x f) = 1 := rfl
  obtain ⟨hw, hwb12⟩ := vls_width (State.ready_trap h)
  rw [← hwb] at hw hwb12
  have hactive := Core.vlsLanes_congr (State.active_entered (s := s) (x := x) hi [s.reg x (reg4 f.sn)] [s.segOf x f.seg]) f
  have hin := s.sameOutside_entered x (.vst x f) [s.reg x (reg4 f.sn)] [s.segOf x f.seg]
  have hvr := State.vr_entered (s := s) (x := x) hi [s.reg x (reg4 f.sn)] [s.segOf x f.seg]
  obtain ⟨u, hrun, hstored⟩ := State.runVst_stores (e := s.entered x (.vst x f) [s.reg x (reg4 f.sn)] [s.segOf x f.seg]) (c := x.core)
    (q := q) hwb hwb12 (by rwa [hactive]) fun i hil => by
      rw [State.takesWrite_sameOutside hin, State.tierClean_sameOutside hin,
        show (⟨x.core, q.thread⟩ : Site) = x by rw [hentry]; rfl]
      exact htakes i (hactive ▸ hil)
  rw [hvr, hactive] at hstored
  rw [hentry] at hrun
  obtain ⟨t, ht, hsteps, hbyte⟩ := State.answers_places h hq hs hi (vals := fun s => [s.reg x (reg4 f.sn)])
    (segs := fun s => [s.segOf x f.seg]) hrun hstored.places
  refine ⟨t, ht, hsteps, fun i hil => ?_, fun b hb => ?_⟩
  · rw [State.bytesAt_congr hbyte, hstored.bytesAt hil, ← hw]
  · rw [hbyte, hstored.kept b hb, State.byteAt_sameOutside hin]

end Sys2Proof.Machine

open Sys2Proof Sys2Proof.Machine

/-- Settles O25: VLD reads the lines of its active lanes in order, and VST writes their runs, each byte of a lane at its place. -/
theorem vectorMemory : Obligations.VectorMemory := by
  unfold Obligations.VectorMemory
  intro s x f k w wb base d on hk hq hs hw hwb hd hbase hon checks
  obtain rfl : on = (s.core x.core).vlsLanes f := by rw [hon, hk, hw, Core.vlsLanes, lanesOf]
  have hchecks (right : Right) (instr : Instr) (hc : checks right) (i j : Nat) (hi : i ∈ (s.core x.core).vlsLanes f)
      (hj : j ∈ (s.core x.core).vlsLanes f) (hij : i ≤ j) :
      (s.entryOf x instr [s.reg x (reg4 f.sn)] [s.segOf x f.seg]).vlsCheck right wb i j = none := by
    have hcheck := hc i j hi hj hij
    rw [hd] at hcheck
    exact hcheck
  have hplace (instr : Instr) : (s.entryOf x instr [s.reg x (reg4 f.sn)] [s.segOf x f.seg]).vlsBase = base := by
    rw [hbase, hd]
    rfl
  subst hk hw
  refine ⟨fun h hc hreads => ?load, fun h hc htakes => ?store⟩
  case load =>
    obtain ⟨t, ht, hends, hothers, hlanes⟩ := State.vld_answers h hq hs rfl hwb (hchecks _ _ hc) (by rwa [hplace])
    rw [hplace] at hlanes
    exact ⟨t, ht, hends, hothers, hlanes⟩
  case store =>
    obtain ⟨t, ht, hsteps, hbytes, hkept⟩ := State.vst_answers h hq hs rfl hwb (hchecks _ _ hc) (by rwa [hplace])
    rw [hplace] at hbytes hkept
    refine ⟨t, ht, hsteps, hbytes, fun b hb => hkept b ?_⟩
    rintro ⟨i, hi, hcover⟩
    exact hb i hi hcover
end

