-- ==== Sys2Proof/Proofs/ThreadControls.lean ====
section
/-!
SUPPORT. Instructions on events and threads (R152, R162, R164, R165, R200): each changes one thread of its core, or leaves its own waiting.
This settles O13 and O14.
-/
namespace Sys2Proof.Machine

/-- A ready thread's instruction whose whole effect is that its thread changes by `g`. -/
theorem State.steps_done {s u : State} {x : Site} {i : Instr} (h : s.ready x i = true) {f : State → Res} (hf : f s = .done u)
    {g : Thread → Thread} (hu : s.onlyThread u x) (hg : u.thread x = g (s.thread x)) : Answers (s.run x i f) (s.steps x g) := by
  refine ⟨_, State.run_ready h f, ?_⟩
  rw [hf]
  refine ⟨State.onlyThread_issued (State.onlyThread_trans hu (State.onlyThread_modThread u x _)), ?_⟩
  rw [Res.apply, State.retire, State.thread_issued, State.thread_modThread_self, hg]

/-- A ready thread's instruction that is not performed: its thread waits (R169). -/
theorem State.waits_run {s : State} {x : Site} {i : Instr} (h : s.ready x i = true) {f : State → Res} {w : WaitFor} (hf : f s = .wait w) :
    Answers (s.run x i f) fun t => s.onlyThread t x ∧ t.thread x = { s.thread x with wait := some w } := by
  refine ⟨_, State.run_ready h f, ?_⟩
  rw [hf]
  exact ⟨State.onlyThread_modThread s x _, State.thread_modThread_self s x _⟩

/-- An instruction that changes one thread of its core by `g`, and then goes on. -/
theorem State.answers_modThread {s : State} {x y : Site} {i : Instr} (h : s.ready x i = true) (hy : y.core = x.core) (g : Thread → Thread)
    {f : State → Res} (hf : f s = .done (s.modThread y g)) :
    Answers (s.run x i f) fun t => s.sameOutside t x.core ∧ (s.core x.core).sameBut (t.core x.core) ∧ ∀ n : Fin 4,
      t.thread ⟨x.core, n⟩ =
        let k := if n = y.thread then g (s.thread ⟨x.core, n⟩) else s.thread ⟨x.core, n⟩
        if n = x.thread then k.retire else k := by
  have hmod := State.onlyThread_modThread s y g
  have hretire := State.onlyThread_issued (State.onlyThread_modThread (s.modThread y g) x Thread.retire)
  obtain ⟨houter, hcore, hothers⟩ := hmod
  obtain ⟨kouter, kcore, kothers⟩ := hretire
  rw [hy] at houter hcore hothers
  have hthread (n : Fin 4) : (s.modThread y g).thread ⟨x.core, n⟩ =
      if n = y.thread then g (s.thread ⟨x.core, n⟩) else s.thread ⟨x.core, n⟩ := by
    split
    next hn =>
      obtain rfl : y = ⟨x.core, n⟩ := by rw [← hy, hn]
      exact State.thread_modThread_self s _ g
    next hn => exact hothers n hn
  refine ⟨_, State.run_ready h f, ?_⟩
  rw [hf]
  refine ⟨State.sameOutside_trans houter kouter, kcore.trans hcore, fun n => ?_⟩
  dsimp only
  split
  next hn =>
    subst hn
    rw [← hthread]
    exact (State.thread_issued _ x x).trans (State.thread_modThread_self _ x _)
  next hn => exact (kothers n hn).trans (hthread n)

end Sys2Proof.Machine

open Sys2Proof Sys2Proof.Machine

/-- Settles O13: SIGNAL changes one thread of its core, the one that its number names, and then goes on. -/
theorem signal : Obligations.Signal := by
  unfold Obligations.Signal
  intro s x f hr
  have hbound : f.n.toNat < 4 := sysBad_bound (reservedIf_none (State.ready_trap hr))
  have hname (n : Fin 4) : n = Fin.ofNat 4 f.n.toNat ↔ n.val = f.n.toNat := by
    rw [Fin.ext_iff, Fin.val_ofNat, Nat.mod_eq_of_lt hbound]
  have hrun : Answers (exec (.signal x f) s) _ := State.answers_modThread hr (y := ⟨x.core, Fin.ofNat 4 f.n.toNat⟩) rfl
    (fun h => { h with ev := h.ev ||| s.reg x f.ra }) rfl
  obtain ⟨t, ht, houter, hcore, hthread⟩ := hrun
  refine ⟨t, ht, houter, hcore, fun n => (hthread n).trans ?_⟩
  simp only [hname]

/-- Settles O14: each instruction changes its own thread alone, and a WAIT whose condition does not hold leaves it waiting. -/
theorem waitsAndThreadControls : Obligations.WaitsAndThreadControls := by
  unfold Obligations.WaitsAndThreadControls
  refine ⟨fun s x f => ⟨fun hr => ⟨fun hev => ?anyTakes, fun hev => ?anyWaits⟩, fun hr => ⟨fun hev => ?allTakes, fun hev => ?allWaits⟩⟩,
    fun s x f => ⟨?park, ?setpri, ?rdcyc, ?rdcych, ?settmr, ?rdver, ?rdflt⟩⟩
  case anyTakes => exact State.steps_run hr _ (if_neg fun h => hev.elim h.1 fun hne => hne h.2)
  case anyWaits => exact State.waits_run hr (if_pos hev)
  case allTakes => exact State.steps_run hr _ (if_pos hev)
  case allWaits => exact State.waits_run hr (if_neg hev)
  all_goals intro hr
  case park => exact State.steps_run hr _ rfl
  case setpri => exact State.steps_run hr _ rfl
  case rdcyc =>
    refine State.steps_done hr (u := (s.modThread x fun h => { h with cycLatch := w32 (s.cycleOf x.core / 2 ^ 32) }).setReg x f.rd
      (w32 (s.cycleOf x.core))) ?_ ?_ ?_
    · rfl
    · exact State.onlyThread_trans (State.onlyThread_modThread s x _) (State.onlyThread_modThread _ x _)
    · rw [State.setReg, State.thread_modThread_self, State.thread_modThread_self]
      rfl
  case rdcych => exact State.steps_run hr _ rfl
  case settmr => exact State.steps_run hr _ rfl
  case rdver => exact State.steps_run hr _ rfl
  case rdflt => exact State.steps_run hr _ rfl
end

