-- ==== Sys2Proof/Proofs/RootClock.lean ====
section
/-!
SUPPORT. A period of the root clock (R179, R462 to R465, R470, R473, R478): the core clocks of the halls, the bad-air detectors, and the
counters of the slower clocks, which lie apart from the power state and from the residencies of R478. This settles O2.
-/
namespace Sys2Proof.Machine

/-! ### Counters of the clocks -/

/-- The number of the word of the power state (R477), or of one of a residency (R478). -/
def clockWord (i : Nat) : Prop := i = widx 2 0x800 ∨ (widx 3 0x880 ≤ i ∧ i < widx 3 0x8C0)

/-- Nothing differs but live words other than those of `keep`. -/
structure State.CountsOff (keep : Nat → Prop) (s t : State) : Prop where
  live : s.liveOnly t
  word : ∀ p o, keep (widx p o) → t.liveWord p o = s.liveWord p o

namespace State.CountsOff

variable {keep : Nat → Prop}

theorem refl (s : State) : State.CountsOff keep s s := ⟨State.liveOnly_refl s, fun _ _ _ => rfl⟩

theorem trans {s t u : State} (h : State.CountsOff keep s t) (k : State.CountsOff keep t u) : State.CountsOff keep s u :=
  ⟨State.liveOnly_trans h.live k.live, fun p o ho => (k.word p o ho).trans (h.word p o ho)⟩

theorem foldl {α : Type} {f : State → α → State} {l : List α} (hf : ∀ a ∈ l, ∀ s : State, State.CountsOff keep s (f s a)) (s : State) :
    State.CountsOff keep s (l.foldl f s) := by
  induction l generalizing s with
  | nil => exact refl s
  | cons a l ih => exact (hf a (by simp) s).trans (ih (fun b hb => hf b (by simp [hb])) _)

theorem ite {c : Prop} [Decidable c] {s a b : State} (ha : State.CountsOff keep s a) (hb : State.CountsOff keep s b) :
    State.CountsOff keep s (if c then a else b) := by split <;> assumption

theorem setLive (s : State) {p o : Nat} (v : Word) (h : ¬keep (widx p o)) : State.CountsOff keep s (s.setLive p o v) :=
  ⟨State.liveOnly_setLive (State.liveOnly_refl s) p o v, fun _ _ hk => s.liveWord_setLive_ne v fun he => h (he ▸ hk)⟩

theorem setLive64 (s : State) {p o : Nat} (n : Nat) (h : ¬keep (widx p o)) (h' : ¬keep (widx p (o + 4))) :
    State.CountsOff keep s (s.setLive64 p o n) := (setLive s _ h).trans (setLive _ _ h')

theorem counts64 (s : State) {p o : Nat} (n : Nat) (h : ¬keep (widx p o)) (h' : ¬keep (widx p (o + 4))) :
    State.CountsOff keep s (s.counts64 p o n) := ite (refl s) (setLive64 s _ h h')

end State.CountsOff

/-- The pages after those of power and clocks hold none of these words. -/
theorem not_clockWord_of_page {p : Nat} (hp : 4 ≤ p) (o : Nat) : ¬clockWord (widx p o) := by
  unfold clockWord widx
  omega

theorem State.CountsOff.counts64_page (s : State) {p : Nat} (hp : 4 ≤ p) (o n : Nat) : State.CountsOff clockWord s (s.counts64 p o n) :=
  .counts64 s n (not_clockWord_of_page hp o) (not_clockWord_of_page hp _)

theorem le_hallPage (h : HallId) (k : Nat) : 4 ≤ hallPage h k := by
  unfold hallPage
  omega

theorem le_enginePage (h : HallId) (n : Nat) : 4 ≤ enginePage h n := by
  unfold enginePage
  split <;> exact le_hallPage h _

theorem le_portPage (p : PortId) : 4 ≤ portPage p := by
  unfold portPage
  omega

theorem State.countsOff_meshClock (s : State) (n : Nat) : State.CountsOff clockWord s (s.meshClock n) := by
  have hheld (s : State) := State.CountsOff.foldl (l := List.finRange 8) (fun h _ s => .ite (c := (s.hall h).nearHeld.isEmpty = true) (.refl s)
    (.counts64_page s (le_hallPage h 1) 0x848 n)) s
  have hwaits (s : State) := State.CountsOff.foldl (l := List.finRange 8) (fun h _ s => .foldl (l := s.ejWaits h) (fun k _ s =>
    .counts64_page s (le_hallPage h (0x90 + k)) 0x818 n) s) s
  have hstarved (s : State) := State.CountsOff.foldl (l := List.finRange 12) (fun p _ s => .ite (c := s.portUp p = true)
    (.foldl (l := (s.port p).starved) (fun c _ s => .counts64_page s (le_portPage p) (0x848 + 8 * c) n) s) (.refl s)) s
  exact (hheld s).trans ((hwaits _).trans (hstarved _))

theorem State.countsOff_engClock (s : State) (n : Nat) : State.CountsOff clockWord s (s.engClock n) :=
  .foldl (fun _ _ s => .foldl (fun e _ s => .ite (.counts64_page s (le_enginePage _ e.val) 0x840 n) (.refl s)) s) s

theorem State.countsOff_progClocks (s : State) (n : Nat) :
    State.CountsOff clockWord s ((List.finRange 8).foldl (fun s h => s.progClock h n) s) :=
  .foldl (fun h _ s => .ite (.setLive s _ (not_clockWord_of_page (le_hallPage h 0x84) _)) (.refl s)) s

/-! ### Control cycles -/

theorem State.live64_lt (s : State) (p o : Nat) : s.live64 p o < 2 ^ 64 := by
  have hlow := (s.liveWord p o).isLt
  have hhigh := (s.liveWord p (o + 4)).isLt
  unfold State.live64
  omega

/-- A 64-bit counter counts modulo 2 ^ 64 (R42). -/
theorem State.live64_counts64 (s : State) (p o n : Nat) : (s.counts64 p o n).live64 p o = (s.live64 p o + n) % 2 ^ 64 := by
  unfold State.counts64
  split
  next hn => rw [hn, Nat.add_zero, Nat.mod_eq_of_lt (s.live64_lt p o)]
  next =>
    have hne : widx p o ≠ widx p (o + 4) := by unfold widx; omega
    rw [State.count64, State.setLive64]
    generalize s.live64 p o + n = m
    rw [State.live64, State.liveWord_setLive_self, State.liveWord_setLive_ne _ _ hne, State.liveWord_setLive_self]
    simp only [w32, BitVec.toNat_ofNat]
    omega

theorem State.CountsOff.live64 {keep : Nat → Prop} {s t : State} (h : State.CountsOff keep s t) {p o : Nat} (hlow : keep (widx p o))
    (hhigh : keep (widx p (o + 4))) : t.live64 p o = s.live64 p o := by
  rw [State.live64, h.word _ _ hlow, h.word _ _ hhigh, State.live64]

theorem clockWord_powerState : clockWord (widx 2 0x800) := .inl rfl

theorem clockWord_residency {n : Nat} (hn : n < 8) : clockWord (widx 3 (0x880 + 8 * n)) ∧ clockWord (widx 3 (0x880 + 8 * n + 4)) := by
  unfold clockWord widx
  omega

theorem State.powerState_lt (s : State) : s.powerState < 8 := Nat.mod_lt _ (by decide)

theorem State.CountsOff.powerState {keep : Nat → Prop} {s t : State} (h : State.CountsOff keep s t) (hk : keep (widx 2 0x800)) :
    t.powerState = s.powerState := by rw [State.powerState, State.field, h.word _ _ hk]; rfl

/-- Counters of the throttling reasons (R476). -/
theorem State.countsOff_throttled (s : State) (n : Nat) : State.CountsOff clockWord s ([0, 1, 2, 3, 4].foldl (fun s r =>
    if s.throttled r then s.setLive64 3 (0x808 + 16 * r) (min (2 ^ 48 - 1) (s.live64 3 (0x808 + 16 * r) + n)) else s) s) := by
  refine .foldl (fun r hr s => .ite (.setLive64 s _ ?_ ?_) (.refl s)) s <;>
  · have hle : ∀ r ∈ [0, 1, 2, 3, 4], r ≤ 4 := by decide
    have := hle r hr
    unfold clockWord widx
    omega

/-- Control cycles count in the residency of the state in force (R478). -/
theorem State.live64_ctlClock (s : State) (n : Nat) :
    (s.ctlClock n).live64 3 (0x880 + 8 * s.powerState) = (s.live64 3 (0x880 + 8 * s.powerState) + n) % 2 ^ 64 := by
  have hprog := s.countsOff_progClocks n
  obtain ⟨hlow, hhigh⟩ := clockWord_residency s.powerState_lt
  unfold State.ctlClock
  rw [(State.countsOff_throttled _ n).live64 hlow hhigh, hprog.powerState clockWord_powerState, State.live64_counts64, hprog.live64 hlow hhigh]

/-- Control cycles count, and do not change the power state. -/
theorem State.countsOff_ctlClock (s : State) (n : Nat) : State.CountsOff (· = widx 2 0x800) s (s.ctlClock n) := by
  have weaken {s t : State} (h : State.CountsOff clockWord s t) : State.CountsOff (· = widx 2 0x800) s t :=
    ⟨h.live, fun p o ho => h.word p o (.inl ho)⟩
  have hresidency (s : State) : State.CountsOff (· = widx 2 0x800) s (s.counts64 3 (0x880 + 8 * s.powerState) n) := by
    refine .counts64 s n ?_ ?_ <;>
    · unfold widx
      omega
  exact (weaken (s.countsOff_progClocks n)).trans ((hresidency _).trans (weaken (State.countsOff_throttled _ n)))

/-! ### Bad-air detectors -/

/-- A core without the count of its bad-air detector. -/
def Core.exceptAir (k : Core) : Core := { k with airCount := 0 }

theorem Core.exceptAir_airStep (k : Core) (n : Nat) : (k.airStep n).exceptAir = k.exceptAir := by
  unfold Core.airStep
  split
  · rfl
  · split <;> rfl

/-- A table of rising keys of which entries are changed or dropped: what `F` sees of it is as it was. -/
theorem SMap.get_filterMap {α β : Type} (F : α → β) {f : Nat × α → Option (Nat × α)} {d : α}
    (hsome : ∀ p q, f p = some q → q.1 = p.1 ∧ F q.2 = F p.2) (hnone : ∀ p, f p = none → F p.2 = F d) {lo : Nat} (m : SMap α)
    (h : risingFrom lo m = true) (k : Nat) : F (SMap.get (m.filterMap f) k d) = F (SMap.get m k d) := by
  induction m generalizing lo with
  | nil => rfl
  | cons p m ih =>
    obtain ⟨a, b⟩ := p
    simp only [risingFrom, Bool.and_eq_true, decide_eq_true_eq] at h
    have ih := ih h.2
    rw [List.filterMap_cons]
    split
    next hf =>
      rw [ih]
      by_cases hk : k = a
      · subst hk
        simp only [SMap.get, SMap.find?, SMap.find?_eq_none_of_rising m h.2 (Nat.lt_succ_self k), if_true, Option.getD_none, Option.getD_some]
        exact (hnone _ hf).symm
      · simp only [SMap.get, SMap.find?, hk, if_false]
    next q hf =>
      obtain ⟨c, v⟩ := q
      obtain ⟨hkey, hval⟩ := hsome _ _ hf
      obtain rfl : c = a := hkey
      by_cases hk : k = c
      · simpa only [SMap.get, SMap.find?, hk, if_true, Option.getD_some] using hval
      · simpa only [SMap.get, SMap.find?, hk, if_false] using ih

theorem exceptAir_get_airHall (h : HallId) (n : Nat) {m : SMap Core} (hm : risingFrom 0 m = true) (k : Nat) :
    (SMap.get (airHall h n m) k Core.zero).exceptAir = (SMap.get m k Core.zero).exceptAir := by
  unfold airHall
  split
  · rfl
  · refine SMap.get_filterMap Core.exceptAir (fun p q hf => ?_) (fun p hf => ?_) m hm k
    · split at hf
      · split at hf
        · exact absurd hf nofun
        · exact Option.some.inj hf ▸ ⟨rfl, Core.exceptAir_airStep _ n⟩
      · exact Option.some.inj hf ▸ ⟨rfl, rfl⟩
    · split at hf
      · split at hf
        next hzero => rw [← Core.exceptAir_airStep _ n, hzero]
        next => exact absurd hf nofun
      · exact absurd hf nofun

/-! ### The core clocks -/

/-- Nothing differs but the halls' clocks, the bad-air detectors' counts, and live words other than those of `keep`. -/
structure State.Clocked (keep : Nat → Prop) (s t : State) : Prop where
  rest : { t with live := [], cores := [], halls := [] } = { s with live := [], cores := [], halls := [] }
  word : ∀ p o, keep (widx p o) → t.liveWord p o = s.liveWord p o
  cores : risingFrom 0 s.cores = true → risingFrom 0 t.cores = true ∧ ∀ c, (t.core c).exceptAir = (s.core c).exceptAir

namespace State.Clocked

variable {keep : Nat → Prop}

theorem refl (s : State) : State.Clocked keep s s := ⟨rfl, fun _ _ _ => rfl, fun h => ⟨h, fun _ => rfl⟩⟩

theorem trans {s t u : State} (h : State.Clocked keep s t) (k : State.Clocked keep t u) : State.Clocked keep s u :=
  ⟨k.rest.trans h.rest, fun p o ho => (k.word p o ho).trans (h.word p o ho), fun hr =>
    ⟨(k.cores (h.cores hr).1).1, fun c => ((k.cores (h.cores hr).1).2 c).trans ((h.cores hr).2 c)⟩⟩

theorem foldl {α : Type} {f : State → α → State} (hf : ∀ (s : State) (a : α), State.Clocked keep s (f s a)) (l : List α) (s : State) :
    State.Clocked keep s (l.foldl f s) := by
  induction l generalizing s with
  | nil => exact refl s
  | cons a l ih => exact (hf s a).trans (ih _)

theorem powerState {s t : State} (h : State.Clocked keep s t) (hk : keep (widx 2 0x800)) : t.powerState = s.powerState := by
  rw [State.powerState, State.field, h.word _ _ hk]
  rfl

end State.Clocked

theorem State.CountsOff.clocked {keep : Nat → Prop} {s t : State} (h : State.CountsOff keep s t) : State.Clocked keep s t := by
  refine ⟨?_, h.word, fun hr => ⟨?_, fun c => by rw [State.core_liveOnly h.live]⟩⟩
  · rw [h.live]
  · rw [h.live]
    exact hr

theorem State.clocked_setHall (keep : Nat → Prop) (s : State) (h : HallId) (v : Hall) : State.Clocked keep s (s.setHall h v) :=
  ⟨rfl, fun _ _ _ => rfl, fun hr => ⟨hr, fun _ => rfl⟩⟩

theorem State.clocked_airHall (keep : Nat → Prop) (s : State) (h : HallId) (n : Nat) :
    State.Clocked keep s { s with cores := airHall h n s.cores } :=
  ⟨rfl, fun _ _ _ => rfl, fun hr => ⟨risingFrom_airHall h n _ hr, fun c => exceptAir_get_airHall h n hr c.val⟩⟩

theorem not_clockWord_stretch (h : HallId) : ¬clockWord (widx 3 (0x900 + 16 * h.val)) ∧ ¬clockWord (widx 3 (0x900 + 16 * h.val + 4)) ∧
    ¬clockWord (widx 3 (0x908 + 16 * h.val)) ∧ ¬clockWord (widx 3 (0x908 + 16 * h.val + 4)) := by
  unfold clockWord widx
  omega

theorem State.clocked_coreClock (s : State) (h : HallId) (n : Nat) : State.Clocked clockWord s (s.coreClock h n) := by
  obtain ⟨h1, h2, h3, h4⟩ := not_clockWord_stretch h
  have hevents (t : State) (k : Nat) : State.Clocked clockWord t (t.counts64 3 (0x900 + 16 * h.val) k) :=
    (State.CountsOff.counts64 t k h1 h2).clocked
  have hcycles (t : State) (k : Nat) : State.Clocked clockWord t (t.counts64 3 (0x908 + 16 * h.val) k) :=
    (State.CountsOff.counts64 t k h3 h4).clocked
  exact (s.clocked_setHall _ h _).trans ((hevents _ _).trans ((hcycles _ _).trans (State.clocked_airHall _ _ h _)))

theorem State.hall_counts64 (s : State) (p o n : Nat) (g : HallId) : (s.counts64 p o n).hall g = s.hall g := by
  unfold State.counts64
  split <;> rfl

theorem State.hall_coreClock (s : State) (h : HallId) (n : Nat) (g : HallId) :
    (s.coreClock h n).hall g = if g = h then ((s.hall h).clock (coreDiv s.powerState) n).1 else s.hall g :=
  ((State.hall_counts64 _ _ _ _ g).trans (State.hall_counts64 _ _ _ _ g)).trans (s.hall_setHall h g _)

/-- The clock of each hall of a list passes once. -/
theorem State.hall_coreClocks {l : List HallId} (hl : l.Nodup) (s : State) (n : Nat) (g : HallId) :
    (l.foldl (fun s h => s.coreClock h n) s).hall g =
      if g ∈ l then ((s.hall g).clock (coreDiv s.powerState) n).1 else s.hall g := by
  induction l generalizing s with
  | nil => rfl
  | cons h l ih =>
    obtain ⟨hnot, hl⟩ := List.nodup_cons.1 hl
    rw [List.foldl_cons, ih hl, State.hall_coreClock, (s.clocked_coreClock h n).powerState clockWord_powerState]
    by_cases hg : g = h
    · subst hg
      simp only [hnot, if_false, List.mem_cons_self, if_true]
    · simp only [hg, if_false, List.mem_cons, false_or]

/-- One period in a core cycle that goes on. -/
theorem Hall.clock_within {v : Hall} (d : Nat) (h : v.corePhase + 1 < v.coreLen) :
    (v.clock d 1).1 = { v with corePhase := v.corePhase + 1 } := by
  rw [Hall.clock, if_pos h]

/-- One period that ends a core cycle, with no stretched cycle to begin. -/
theorem Hall.clock_end {v : Hall} (d : Nat) (h : v.corePhase + 1 = v.coreLen) (hs : v.stretch = 0) :
    (v.clock d 1).1 = { v with corePhase := 0, coreLen := d, stretched := false, cycles := v.cycles + 1 } := by
  simp [Hall.clock, h, hs]

/-- One period that ends a core cycle, after which a stretched one begins. -/
theorem Hall.clock_stretch {v : Hall} (d : Nat) (h : v.corePhase + 1 = v.coreLen) (hs : 0 < v.stretch) :
    (v.clock d 1).1 = { v with corePhase := 0, coreLen := 2 * d, stretched := true, cycles := v.cycles + 1, stretch := v.stretch - 1 } := by
  simp [Hall.clock, h, hs]

/-- The dividers of the power states (R464). -/
theorem coreDiv_eq (n : Nat) :
    coreDiv n = if n = 0 then 8 else if n = 1 then 10 else if n = 2 then 12 else if n = 3 then 16 else 32 := by
  unfold coreDiv
  split
  case h_5 h0 h1 h2 h3 => rw [if_neg h0, if_neg h1, if_neg h2, if_neg h3]
  all_goals rfl

/-! ### Periods -/

/-- The cycles of a clock of `d` root periods that end in `n` periods. -/
def State.cyclesIn (s : State) (n d : Nat) : Nat := (s.rootTick + n) / d - s.rootTick / d

/-- Periods of the root clock but for what its control cycles count. -/
def State.fastClocks (s : State) (n : Nat) : State :=
  let t := (List.finRange 8).foldl (fun s h => s.coreClock h n) (s.after n)
  let t := if s.cyclesIn n 6 = 0 then t else t.meshClock (s.cyclesIn n 6)
  if s.cyclesIn n 10 = 0 then t else t.engClock (s.cyclesIn n 10)

theorem State.pass_eq (s : State) (n : Nat) :
    s.pass n = if s.cyclesIn n 40 = 0 then s.fastClocks n else (s.fastClocks n).ctlClock (s.cyclesIn n 40) := rfl

/-- What the mesh and the engines count in some periods. -/
theorem State.countsOff_fastClocks (s : State) (n : Nat) :
    State.CountsOff clockWord ((List.finRange 8).foldl (fun s h => s.coreClock h n) (s.after n)) (s.fastClocks n) :=
  (State.CountsOff.ite (.refl _) (State.countsOff_meshClock _ _)).trans (.ite (.refl _) (State.countsOff_engClock _ _))

theorem State.clocked_fastClocks (s : State) (n : Nat) : State.Clocked clockWord (s.after n) (s.fastClocks n) :=
  (State.Clocked.foldl (fun s h => s.clocked_coreClock h n) _ _).trans (s.countsOff_fastClocks n).clocked

/-- What control cycles count in some periods. -/
theorem State.countsOff_pass (s : State) (n : Nat) : State.CountsOff (· = widx 2 0x800) (s.fastClocks n) (s.pass n) := by
  rw [State.pass_eq]
  exact .ite (.refl _) (State.countsOff_ctlClock _ _)

/-- Periods with one state in force: no core, memory or page differs but for clocks, detectors and counters. -/
theorem State.clocked_pass (s : State) (n : Nat) : State.Clocked (· = widx 2 0x800) (s.after n) (s.pass n) := by
  have hfast := s.clocked_fastClocks n
  exact State.Clocked.trans ⟨hfast.rest, fun p o ho => hfast.word p o (.inl ho), hfast.cores⟩ (s.countsOff_pass n).clocked

theorem State.powerState_pass (s : State) (n : Nat) : (s.pass n).powerState = s.powerState := (s.clocked_pass n).powerState rfl

theorem State.hall_pass (s : State) (n : Nat) (g : HallId) : (s.pass n).hall g = ((s.hall g).clock (coreDiv s.powerState) n).1 := by
  rw [State.hall_liveOnly (s.countsOff_pass n).live, State.hall_liveOnly (s.countsOff_fastClocks n).live,
    State.hall_coreClocks (List.nodup_finRange 8), if_pos (List.mem_finRange g)]
  rfl

/-- The residency of the state in force counts the control cycles of some periods (R478). -/
theorem State.live64_pass (s : State) (n : Nat) :
    (s.pass n).live64 3 (0x880 + 8 * s.powerState) = (s.live64 3 (0x880 + 8 * s.powerState) + s.cyclesIn n 40) % 2 ^ 64 := by
  have hfast := s.clocked_fastClocks n
  obtain ⟨hlow, hhigh⟩ := clockWord_residency s.powerState_lt
  have hkept : (s.fastClocks n).live64 3 (0x880 + 8 * s.powerState) = s.live64 3 (0x880 + 8 * s.powerState) := by
    rw [State.live64, hfast.word _ _ hlow, hfast.word _ _ hhigh]
    rfl
  have hstate : (s.fastClocks n).powerState = s.powerState := hfast.powerState clockWord_powerState
  rw [State.pass_eq]
  split
  next hc => rw [hkept, hc, Nat.add_zero, Nat.mod_eq_of_lt (s.live64_lt _ _)]
  next =>
    have hcount := (s.fastClocks n).live64_ctlClock (s.cyclesIn n 40)
    rwa [hstate, hkept] at hcount

theorem State.cyclesIn_one (s : State) : s.cyclesIn 1 40 = if (s.rootTick + 1) % 40 = 0 then 1 else 0 := by
  unfold State.cyclesIn
  split <;> omega

/-! ### The power state -/

/-- The ceilings are fields of the word of the power state (R477). -/
theorem State.slowest_congr {s t : State} (h : t.liveWord 2 0x800 = s.liveWord 2 0x800) : t.slowest = s.slowest := by
  simp only [State.slowest, State.ceiling, State.field, h]

theorem State.slowest_lt (s : State) : s.slowest < 8 := by
  have hlt (r : Nat) : s.ceiling r < 8 := Nat.mod_lt _ (by decide)
  simp only [State.slowest, List.foldl_cons, List.foldl_nil, Nat.max_lt]
  exact ⟨⟨⟨⟨⟨by decide, hlt 0⟩, hlt 1⟩, hlt 2⟩, hlt 3⟩, hlt 4⟩

theorem State.powerState_follow (s : State) : s.follow.powerState = s.slowest := by
  have hlt := s.slowest_lt
  have hword := (s.liveWord 2 0x800).isLt
  rw [State.follow, State.powerState, State.field, State.setField, State.liveWord_setLive_ne _ _ (by decide), State.setField,
    State.liveWord_setLive_self]
  simp only [fieldOf, w32, setBits, bitsOf, BitVec.toNat_ofNat]
  omega

/-- The divider changes to that of the slowest ceiling. -/
theorem State.powerState_powerChange (s : State) : s.powerChange.powerState = s.slowest := by
  have hcounts : State.CountsOff (· = widx 2 0x800) s.follow s.powerChange := by
    refine .foldl (fun r hr t => .ite (.setLive t _ ?_) (.refl t)) _
    unfold widx
    omega
  rw [hcounts.powerState rfl, State.powerState_follow]

/-- A period of the root clock in which no ceiling comes into force. -/
theorem State.tick_eq_pass {s : State} (hr : s.running = true) (h : s.slowest = s.powerState ∨ s.rootTick + 1 < s.alertAt + 8400) :
    s.tick = s.pass 1 := by
  simp only [State.tick, State.advance, hr, Bool.not_true, Bool.false_eq_true, if_false]
  exact if_pos h

/-- A period of the root clock in which a current alert's ceiling comes into force (R470). -/
theorem State.powerState_tick_alert {s : State} (hr : s.running = true) (h : s.slowest ≠ s.powerState)
    (ha : s.alertAt + 8400 ≤ s.rootTick + 1) : s.tick.powerState = s.slowest := by
  have hnot : ¬(s.slowest = s.powerState ∨ s.rootTick + 1 < s.alertAt + 210 * 40) := by omega
  simp only [State.tick, State.advance, hr, Bool.not_true, Bool.false_eq_true, if_false, if_neg hnot]
  rw [State.powerState_pass, State.powerState_powerChange]
  exact State.slowest_congr ((s.clocked_pass _).word 2 0x800 rfl)

theorem step_idle {s : State} (h : s.pending = []) : step s = .next s.tick := by
  unfold step
  rw [h]

end Sys2Proof.Machine

open Sys2Proof Sys2Proof.Machine

/-- Settles O2: the clock of each hall passes once, the residency of the state in force counts, and all else is kept but clocks,
detectors and counters. -/
theorem idleTick : Obligations.IdleTick := by
  unfold Obligations.IdleTick
  intro s hp hrise
  rw [step_idle hp]
  refine ⟨fun hr => ?stopped, fun hr hs ha => ?alert, fun hr hs => ?period⟩
  case stopped =>
    simp only [State.tick, State.advance, hr, Bool.not_false, if_true]
  case alert =>
    exact ⟨_, rfl, (State.KeepsCommits.advance hr 1).rootTick, State.powerState_tick_alert hr hs ha⟩
  case period =>
    have hpass := s.clocked_pass 1
    have hcore := (hpass.cores hrise).2
    rw [State.tick_eq_pass hr hs]
    have hrest {β : Type} (f : State → β) (hf : ∀ r : State, f { r with live := [], cores := [], halls := [] } = f r) :
        f (s.pass 1) = f (s.after 1) := by rw [← hf, hpass.rest, hf]
    refine ⟨_, rfl, hrest State.rootTick fun _ => rfl, (hrest State.pending fun _ => rfl).trans hp, hrest State.mem fun _ => rfl,
      hrest State.near fun _ => rfl, hrest State.cxl fun _ => rfl, hrest State.poison fun _ => rfl, hrest State.staged fun _ => rfl,
      hrest State.applied fun _ => rfl, hrest State.out fun _ => rfl, hcore, fun h => ?halls, ?residency⟩
    case halls =>
      have hdiv := coreDiv_eq s.powerState
      dsimp only
      rw [State.hall_pass]
      rw [State.powerState] at hdiv ⊢
      rw [← hdiv]
      exact ⟨fun hin => Hall.clock_within _ hin, fun hend hno => Hall.clock_end _ hend hno, fun hend hst => Hall.clock_stretch _ hend hst⟩
    case residency =>
      have hcount := s.live64_pass 1
      rwa [State.cyclesIn_one] at hcount
end

