-- ==== Sys2Proof/Proofs/ErrorReports.lean ====
section
/-!
SUPPORT. What the record of an error leaves as it was, whatever page it is of (R38, R40, R228, R363): registers of errors and of notices,
interrupts pending in threads, and what the module sends. Nothing on which accesses to memory depend is among them.
-/
namespace Sys2Proof.Machine

/-- Nothing differs but interrupts pending, what the module has sent, the error sequence, and live words on which no access depends. -/
structure State.Reported (s t : State) : Prop where
  cores : s.sameCores t
  word : ∀ p o, PlaceWord p o → t.liveWord p o = s.liveWord p o
  rest : { t with cores := [], live := [], out := [], errSeq := 0 } = { s with cores := [], live := [], out := [], errSeq := 0 }

/-- A word on which accesses depend lies in a page, and not in a function page. -/
theorem PlaceWord.place {p o : Nat} (h : PlaceWord p o) : o < 4096 ∧ noFunPage p := by
  unfold PlaceWord at h
  omega

/-- An offset of a page at which no word lies on which accesses depend. -/
abbrev offPlace (q r : Nat) : Prop := r < 0x800 ∨ q ≠ 0xA ∧ 0x810 ≤ r ∧ r < 4096 ∧ r / 4 ≠ 0x228

theorem PlaceWord.widx_ne {p o q r : Nat} (h : PlaceWord p o) (hr : offPlace q r) : widx p o ≠ widx q r := by
  unfold PlaceWord at h
  unfold widx
  omega

theorem State.Notified.reported {s t : State} (h : s.Notified t) : s.Reported t :=
  ⟨h.cores, fun p o hw => h.word p o hw.place.1 hw.place.2, congrArg (fun r : State => { r with errSeq := 0 }) h.rest⟩

namespace State.Reported

theorem refl (s : State) : s.Reported s := ⟨s.sameCores_refl, fun _ _ _ => rfl, rfl⟩

theorem trans {s t u : State} (h : s.Reported t) (k : t.Reported u) : s.Reported u :=
  ⟨State.sameCores_trans h.cores k.cores, fun p o hw => (k.word p o hw).trans (h.word p o hw), k.rest.trans h.rest⟩

theorem foldl {α : Type} {f : State → α → State} (hf : ∀ (s : State) (a : α), s.Reported (f s a)) (l : List α) (s : State) :
    s.Reported (l.foldl f s) := by
  induction l generalizing s with
  | nil => exact refl s
  | cons a l ih => exact (hf s a).trans (ih _)

theorem ite {c : Prop} [Decidable c] {s a b : State} (ha : s.Reported a) (hb : s.Reported b) : s.Reported (if c then a else b) := by
  split <;> assumption

theorem setLive (s : State) (q : Nat) {r : Nat} (v : Word) (hr : offPlace q r) : s.Reported (s.setLive q r v) :=
  ⟨State.sameCores_of_cores rfl, fun _ _ hw => s.liveWord_setLive_ne v (hw.widx_ne hr), rfl⟩

theorem mirror (s : State) (b : Nat) (h : HallId) : s.Reported (s.mirror b h) :=
  setLive s _ _ (.inr ⟨by unfold hallPage; omega, by decide, by decide, by decide⟩)

theorem raiseMsix (s : State) : s.Reported (s.raiseMsix 0 6) := (State.Notified.raiseMsix s (by decide) 6).reported

/-- The notice of an error of any page (R228). -/
theorem notice (s : State) (p b : Nat) : s.Reported (s.notice p b) := by
  have hhall (s : State) (h : HallId) : s.Reported (s.hallNotice h) := (State.Notified.hallNotice s h).reported
  have hmirrors (n : Nat) (l : List HallId) (s : State) : s.Reported (l.foldl (fun s h => (s.mirror n h).hallNotice h) s) :=
    foldl (fun s h => (mirror s n h).trans (hhall _ h)) l s
  unfold State.notice
  split
  · exact hhall s _
  · split
    · exact (hmirrors _ _ s).trans (raiseMsix _)
    · exact (hmirrors _ _ s).trans (raiseMsix _)
    · exact ite (raiseMsix s) (hhall s _)
    · exact raiseMsix s

/-- An error recorded in any page (R38, R39). -/
theorem recordErr (s : State) (p b : Nat) (inj : Bool) : s.Reported (s.recordErr p b inj) := by
  have hseq (n : BitVec 16) : s.Reported { s with errSeq := n } := ⟨State.sameCores_of_cores rfl, fun _ _ _ => rfl, rfl⟩
  have hfirst (t : State) (v : Word) : t.Reported (t.setLive (firstPage p) 0x01C v) := setLive t _ v (.inl (by decide))
  have hbit (t : State) (v : Word) : t.Reported (t.setLive (firstPage p) 0x010 v) := setLive t _ v (.inl (by decide))
  unfold State.recordErr
  dsimp only
  refine ite ?_ (trans ?_ (notice _ _ _)) <;>
    exact trans (ite ((hseq _).trans (hfirst _ _)) (hseq _)) (hbit _ _)

/-- Poison that a CXL port returns (R363). -/
theorem tierPoison (s : State) (p : Nat) : s.Reported (s.tierPoison p) := by
  have hcount : s.Reported (s.countSat (0x30 + 4 * p) 0x850 1) :=
    setLive s _ _ (.inr ⟨by omega, by decide, by decide, by decide⟩)
  exact hcount.trans (recordErr _ _ _ _)

/-- An access error in a page of those in which it is recorded (R40). -/
theorem recordAccessIn (s : State) {q : Nat} (h : errPage q) (a : Agent) (addr : Nat) (w v : Bool) :
    s.Reported (s.recordAccessIn q a addr w v) := by
  have hq : q ≠ 0xA := by
    rcases h with rfl | ⟨g, rfl⟩
    · decide
    · unfold hallPage
      omega
  have hword {r : Nat} (hr : r = 0x840 ∨ r = 0x844 ∨ r = 0x848) (t : State) (v : Word) : t.Reported (t.setLive q r v) :=
    setLive t q v (.inr ⟨hq, by omega, by omega, by omega⟩)
  exact (ite ((hword (.inl rfl) _ _).trans ((hword (.inr (.inl rfl)) _ _).trans (hword (.inr (.inr rfl)) _ _))) (refl s)).trans
    (recordErr _ _ _ _)

/-- An access error (R31, R40). -/
theorem accessError (s : State) (a : Agent) (addr : Nat) (w v : Bool) : s.Reported (s.accessError a addr w v) := by
  have h0 := recordAccessIn s errPage_zero a addr w v
  unfold State.accessError
  split
  next h _ => exact h0.trans (recordAccessIn _ (errPage_hallPage h) a addr w v)
  next => exact h0

end State.Reported

/-! ### Cores under accesses -/

theorem State.sameCores_liveOnly {s t : State} (h : s.liveOnly t) : s.sameCores t := State.sameCores_of_cores (by rw [h])

theorem State.sameCores_exceptMemory {s t : State} (h : t.exceptMemory = s.exceptMemory) : s.sameCores t := by
  have hcores := congrArg State.cores h
  exact State.sameCores_of_cores hcores

theorem State.sameCores_foldl {α : Type} {f : State → α → State} (hf : ∀ (s : State) (a : α), s.sameCores (f s a)) (l : List α)
    (s : State) : s.sameCores (l.foldl f s) := by
  induction l generalizing s with
  | nil => exact s.sameCores_refl
  | cons a l ih => exact State.sameCores_trans (hf s a) (ih _)

/-- The DMA queue of a core does not belong to its threads. -/
theorem State.dq_sameCores {s t : State} (h : s.sameCores t) (c : CoreId) : (t.core c).dq = (s.core c).dq := by
  have hdq := congrArg Core.dq (h c).1
  exact hdq

theorem State.sameCores_lineErrors (s : State) (a : Agent) (addr n : Nat) (w : Bool) : s.sameCores (s.lineErrors a addr n w) := by
  unfold State.lineErrors
  split
  · exact (State.Reported.accessError s a _ w false).cores
  · exact s.sameCores_refl

theorem State.sameCores_readLine (s : State) (a : Agent) (addr : Nat) : s.sameCores (s.readLine a addr) := by
  have hcount := State.sameCores_liveOnly (s.liveOnly_countLine a addr false)
  unfold State.readLine
  split
  · split
    · split
      · exact State.sameCores_trans hcount (State.Reported.tierPoison _ _).cores
      · exact hcount
    · exact hcount
  · exact hcount

theorem State.sameCores_memRead (s : State) (a : Agent) (addr n : Nat) : s.sameCores (s.memRead a addr n).st := by
  have hlines (l : List (Nat × Nat)) : s.sameCores (l.foldl (fun s p => s.readLine a p.1) s) :=
    State.sameCores_foldl (f := fun (s : State) (p : Nat × Nat) => s.readLine a p.1) (fun s p => s.sameCores_readLine a p.1) l s
  unfold State.memRead
  exact State.sameCores_trans (hlines _) (State.sameCores_lineErrors _ a addr n false)

theorem State.sameCores_ctlError (s : State) (a : Agent) (o : Nat) (w : Bool) : s.sameCores (s.ctlError a o w) :=
  (State.Reported.accessError s a _ w false).cores

theorem State.sameCores_readReg (s : State) (a : Agent) (p o : Nat) (r : RegRow) (hi : Bool) : s.sameCores (s.readReg a p o r hi).st := by
  have hsame {t : State} (h : t.cores = s.cores) : s.sameCores t := State.sameCores_of_cores h
  unfold State.readReg
  split_ifs <;> exact hsame rfl

theorem State.sameCores_readWord (s : State) (a : Agent) (o : Nat) : s.sameCores (s.readWord a o).st := by
  have herr := s.sameCores_ctlError a o false
  unfold State.readWord
  dsimp only
  split
  · exact herr
  · split
    · exact herr
    · split_ifs
      · exact s.sameCores_refl
      · exact herr
      · exact s.sameCores_refl
      · exact herr
      · exact s.sameCores_refl
      · split
        · exact s.sameCores_readReg a _ _ _ _
        · exact herr

theorem State.sameCores_ctlReadWord (s : State) (a : Agent) (o : Nat) : s.sameCores (s.ctlReadWord a o).st := by
  unfold State.ctlReadWord
  cases s.reach a (o / 4096) (o % 4096) with
  | all => exact s.sameCores_readWord a o
  | readOnly => exact s.sameCores_readWord a o
  | refused => exact s.sameCores_ctlError a o false
  | busy => exact s.sameCores_refl
  | unsupported => exact s.sameCores_refl
  | dropped => exact s.sameCores_refl

theorem State.sameCores_agentRead (s : State) (a : Agent) (addr n : Nat) : s.sameCores (s.agentRead a addr n).st := by
  unfold State.agentRead
  split
  · split
    · exact s.sameCores_ctlReadWord a _
    · exact State.sameCores_trans (s.sameCores_ctlReadWord a _) (State.sameCores_ctlReadWord _ a _)
  · exact s.sameCores_memRead a addr n

/-- A read by a thread leaves every core as it is, but for interrupts pending. -/
theorem State.sameCores_busRead (s : State) (x : Site) (addr n : Nat) : s.sameCores (s.busRead x addr n).st :=
  s.sameCores_agentRead (.core x) addr n

theorem State.sameCores_holdWrite (s : State) (a : Agent) (addr : Nat) (d : List Byte) (g : WriteTag) (first : Bool) :
    s.sameCores (s.holdWrite a addr d g first) := by
  have hhall (h : HallId) (f : Hall → Hall) : s.sameCores (s.modHall h f) := State.sameCores_of_cores rfl
  have hcount (t : State) (p o n : Nat) : t.sameCores (t.count64 p o n) := State.sameCores_liveOnly (t.liveOnly_count64 p o n)
  unfold State.holdWrite
  dsimp only
  split
  · split
    · exact State.sameCores_trans (hhall _ _) (State.sameCores_trans (hcount _ _ _ _) (State.Reported.recordErr _ _ _ _).cores)
    · exact State.sameCores_trans (hhall _ _) (hcount _ _ _ _)
  · exact State.sameCores_trans (hhall _ _) (hcount _ _ _ _)
  · exact s.sameCores_refl

theorem State.sameCores_setBytes (s : State) (addr : Nat) (d : List Byte) : s.sameCores (s.setBytes addr d) :=
  State.sameCores_exceptMemory (s.exceptMemory_setBytes addr d)

theorem State.sameCores_performLine (s : State) (a : Agent) (addr : Nat) (d : List Byte) (first : Bool) :
    s.sameCores (s.performLine a addr d first) := by
  have hcount : s.sameCores (if first then s.countLine a addr true else s) :=
    ite_both (State.sameCores_liveOnly (s.liveOnly_countLine a addr true)) s.sameCores_refl
  have hset {t : State} (h : s.sameCores t) : s.sameCores (t.setBytes addr d) := State.sameCores_trans h (t.sameCores_setBytes addr d)
  have hkept {t u : State} (h : s.sameCores t) (hu : u.cores = t.cores) : s.sameCores u :=
    State.sameCores_trans h (State.sameCores_of_cores hu)
  unfold State.performLine
  dsimp only
  generalize (if first then s.countLine a addr true else s) = t at hcount ⊢
  split
  · split
    · exact hcount
    · next target _ _ =>
      have hdata : s.sameCores ((if d.length < 64 ∧ t.poisoned addr = true then t.tierPoison (target / 4) else t).setBytes addr d) :=
        hset (ite_both (State.sameCores_trans hcount (State.Reported.tierPoison _ _).cores) hcount)
      refine ite_both hcount (ite_both ?_ hdata)
      split
      · exact hkept hdata rfl
      · exact hkept hdata rfl
  · exact ite_both (hkept (hset hcount) rfl) (hset hcount)

theorem State.sameCores_writePieces (s : State) (a : Agent) (g : WriteTag) (ps : List (Nat × Nat)) (d : List Byte) :
    s.sameCores (s.writePieces a g ps d) := by
  induction ps generalizing s d with
  | nil => exact s.sameCores_refl
  | cons p ps ih =>
    exact State.sameCores_trans (ite_both (ite_both (s.sameCores_holdWrite a _ _ g true) (s.sameCores_performLine a _ _ true))
      s.sameCores_refl) (ih _ _)

theorem State.sameCores_memWrite (s : State) (a : Agent) (addr : Nat) (d : List Byte) (g : WriteTag) :
    s.sameCores (s.memWrite a addr d g) :=
  State.sameCores_trans (s.sameCores_writePieces a g _ d) (State.sameCores_lineErrors _ a addr d.length true)

/-- A write for an entry of a core's queue leaves every core as it is, but for interrupts pending. -/
theorem State.sameCores_entryWrite (s : State) (c : CoreId) (e : QEntry) (o addr : Nat) (d : List Byte) :
    s.sameCores (s.entryWrite c e o addr d) := by
  unfold State.entryWrite State.agentWrite
  exact ite_both (State.sameCores_of_cores rfl) (s.sameCores_memWrite _ addr d _)

end Sys2Proof.Machine
end

