-- ==== Sys2Proof/Proofs/StoredBytes.lean ====
section
/-!
SUPPORT. Writes of memory that the memories take at once, also where a CXL port returns poison for the burst that it reads (R24, R249, R349,
R356, R363, R364): the bytes that are named change, and no other.
-/
namespace Sys2Proof.Machine

/-- The state without what the record of an error changes beside live words. -/
def State.exceptError (s : State) : State := { s with cores := [], out := [], errSeq := 0 }

/-- The bytes `d` are written from address `b`, and errors may be reported: besides, nothing on which accesses depend differs. -/
def State.Stored (s t : State) (b : Nat) (d : List Byte) : Prop := s.exceptError.Wrote t.exceptError b d

theorem State.Reported.counted {s t : State} (h : s.Reported t) : s.exceptError.Counted t.exceptError := by
  have hlive : s.exceptError.liveOnly t.exceptError := by
    have hrest := congrArg (fun r : State => { r with live := t.live }) h.rest
    exact hrest
  exact ⟨hlive, ⟨congrArg (fun r : State => { r with mem := [], near := [], cxl := [], poison := [], cxlLost := [] }) h.rest, h.word⟩⟩

theorem State.SamePlaces.exceptError {s t : State} (h : s.SamePlaces t) : s.exceptError.SamePlaces t.exceptError :=
  ⟨congrArg State.exceptError h.frame, h.word⟩

theorem State.Counted.exceptError {s t : State} (h : s.Counted t) : s.exceptError.Counted t.exceptError :=
  ⟨congrArg State.exceptError h.live, h.places.exceptError⟩

theorem State.Wrote.stored {s t : State} {b : Nat} {d : List Byte} (h : s.Wrote t b d) : s.Stored t b d :=
  ⟨h.places.exceptError, h.poisoned, h.byteAt⟩

theorem State.Stored.byteAt {s t : State} {b : Nat} {d : List Byte} (h : s.Stored t b d) (c : Nat) :
    t.byteAt c = if b ≤ c ∧ c < b + d.length then d.getD (c - b) 0 else s.byteAt c := State.Wrote.byteAt h c

theorem State.stored_nil (s : State) (b : Nat) : s.Stored s b [] := s.exceptError.wrote_nil b

/-- A byte that an agent writes to memory, which performs the write at once (R24, R31, R349, R356, R364). -/
structure State.storesAt (s : State) (a : Agent) (b : Nat) : Prop where
  backs : s.backs a b = true
  free : s.wouldHold a b = false
  link : ∀ o d g e, winOf b = .cxl o → s.cxlDecode o = some (d, g, e) → s.linkState g = 2

theorem State.storesAt_of_takesWrite {s : State} {a : Agent} {b : Nat} (h : s.takesWrite a b 1) : s.storesAt a b := by
  obtain ⟨hback, -, hprot, hbehind, hlink⟩ := h
  rw [State.allBack, pieces_one] at hback
  exact ⟨by simpa using hback, by rw [State.wouldHold, hprot, hbehind]; rfl, hlink⟩

theorem State.SamePlaces.storesAt {s t : State} (h : s.exceptError.SamePlaces t.exceptError) {a : Agent} {c : Nat} (hc : s.storesAt a c) :
    t.storesAt a c := by
  refine ⟨(h.backs a c).trans hc.backs, (h.wouldHold a c).trans hc.free, fun o d g e hw hd => ?_⟩
  have hs : s.cxlDecode o = some (d, g, e) := (h.cxlDecode o).symm.trans hd
  exact (h.linkState (State.cxlDecode_lt hs)).trans (hc.link o d g e hw hs)

/-- A write within a line that the memory performs at once. -/
theorem State.stored_performLine {s : State} {a : Agent} {b : Nat} {d : List Byte} (hd : 0 < d.length)
    (h : ∀ j, j < d.length → s.storesAt a (b + j)) : s.Stored (s.performLine a b d) b d := by
  have hcount : s.Counted (s.countLine a b true) := ⟨s.liveOnly_countLine a b true, s.samePlaces_countLine a b true⟩
  have hset {t : State} (ht : s.exceptError.Counted t.exceptError) : s.Stored (t.setBytes b d) b d :=
    ht.wrote (State.wrote_setBytes fun j hj =>
      State.hasByte_of_backs ((ht.places.storesAt (h j hj)).backs)).stored
  have hfirst := h 0 hd
  rw [Nat.add_zero] at hfirst
  unfold State.performLine
  simp only [if_true]
  split
  · next o hw =>
    rw [hcount.places.cxlDecode]
    split
    · next hnone =>
      have hbyte := State.hasByte_of_backs hfirst.backs
      simp only [State.hasByte, hw, hnone] at hbyte
      exact absurd hbyte (by simp)
    · next e g f hsome =>
      have hup : ¬(s.countLine a b true).linkState g ≠ 2 := by
        rw [hcount.places.linkState (State.cxlDecode_lt hsome)]
        simp [hfirst.link o e g f hw hsome]
      have hburst : s.Stored ((if d.length < 64 ∧ (s.countLine a b true).poisoned b = true then (s.countLine a b true).tierPoison (g / 4)
          else s.countLine a b true).setBytes b d) b d := by
        split
        · exact hset (hcount.exceptError.trans (State.Reported.tierPoison _ _).counted)
        · exact hset hcount.exceptError
      rw [if_neg hup]
      split
      · split
        · next l hl => exact (hburst.clear _).found hl
        · exact hburst.clear _
      · exact hburst
  · split
    · exact (hset hcount.exceptError).clear _
    · exact hset hcount.exceptError

theorem State.stored_writePieces {a : Agent} {g : WriteTag} {k b : Nat} {d : List Byte} {s : State}
    (hk : d.length = 0 ∨ b % 64 + d.length ≤ 64 * k) (h : ∀ j, j < d.length → s.storesAt a (b + j)) :
    s.Stored (s.writePieces a g (linePieces k b d.length) d) b d := by
  induction k generalizing s b d with
  | zero =>
    obtain rfl : d = [] := List.eq_nil_of_length_eq_zero (by omega)
    exact s.stored_nil b
  | succ k ih =>
    rw [linePieces]
    split
    next hn =>
      obtain rfl := List.eq_nil_of_length_eq_zero hn
      exact s.stored_nil b
    next hn =>
      generalize hm : min d.length (64 - b % 64) = m
      have htake : (d.take m).length = m := by rw [List.length_take]; omega
      have hdrop : (d.drop m).length = d.length - m := List.length_drop
      have hfirst := h 0 (by omega)
      rw [Nat.add_zero] at hfirst
      have hline : s.Stored (s.performLine a b (d.take m)) b (d.take m) :=
        State.stored_performLine (by omega) fun j hj => h j (by omega)
      have hrest := ih (s := s.performLine a b (d.take m)) (b := b + m) (d := d.drop m) (by omega) fun j hj => by
        rw [Nat.add_assoc]
        exact hline.places.storesAt (h (m + j) (by omega))
      have hall : s.Stored _ b (d.take m ++ d.drop m) := State.Wrote.trans hline htake hrest
      rw [List.take_append_drop, hdrop] at hall
      simpa only [State.writePieces, hfirst.backs, if_true, State.writeLine, hfirst.free, Bool.false_eq_true, if_false] using hall

/-- A write for an entry of a core's queue whose bytes are all written to memory at once. -/
theorem State.stored_entryWrite {s : State} {c : CoreId} {e : QEntry} {o b : Nat} {d : List Byte}
    (h : ∀ j, j < d.length → s.storesAt (.core ⟨c, e.thread⟩) (b + j)) : s.Stored (s.entryWrite c e o b d) b d := by
  have hw (g : WriteTag) : s.Stored (s.writePieces (.core ⟨c, e.thread⟩) g (pieces b d.length) d) b d :=
    State.stored_writePieces (pieces_fuel b d.length) h
  have herr (g : WriteTag) :
      (pieces b d.length).find? (fun p => !(s.writePieces (.core ⟨c, e.thread⟩) g (pieces b d.length) d).backs (.core ⟨c, e.thread⟩) p.1) =
        none := by
    refine List.find?_eq_none.2 fun p hp => ?_
    obtain ⟨j, hj, hpj⟩ := mem_pieces hp
    rw [hpj, ((hw g).places.storesAt (h j hj)).backs]
    decide
  rw [State.entryWrite, State.agentWrite, control_of_bytes fun j hj => (h j hj).backs, if_neg Bool.false_ne_true, State.memWrite,
    State.lineErrors, herr]
  exact hw _

end Sys2Proof.Machine
end

