-- ==== Sys2Proof/Proofs/CoreDmaEngine.lean ====
section
/-!
SUPPORT. The core DMA engine (R172 to R176, R256): how a descriptor starts, what becomes of it once its rows are moved, and the bytes that
one row moves. This settles O29.
-/
namespace Sys2Proof.Machine

/-! ### Rows leave the cores as they are -/

theorem State.sameCores_readDmaDesc {s t : State} {c : CoreId} {e : QEntry} {d : List Byte} (h : s.readDmaDesc c e = (t, .ok d)) :
    s.sameCores t := by
  unfold State.readDmaDesc at h
  dsimp only at h
  split at h
  · exact absurd (congrArg Prod.snd h) nofun
  · split at h
    · exact absurd (congrArg Prod.snd h) nofun
    · obtain ⟨rfl, -⟩ := Prod.mk.inj h
      exact s.sameCores_busRead _ _ _

theorem State.sameCores_readDmaRow (s : State) (x : Site) (addr : Nat) (ps : List (Nat × Nat)) :
    s.sameCores (s.readDmaRow x addr ps).1 := by
  induction ps generalizing s with
  | nil => exact s.sameCores_refl
  | cons p ps ih =>
    have hread := s.sameCores_busRead x (addr + p.1) p.2
    unfold State.readDmaRow
    dsimp only
    split
    · exact hread
    · exact State.sameCores_trans hread (ih _)

theorem State.sameCores_writeDmaRow (s : State) (c : CoreId) (e : QEntry) (addr : Nat) (ps : List ((Nat × Nat) × List Byte)) :
    s.sameCores (s.writeDmaRow c e addr ps) := by
  induction ps generalizing s with
  | nil => exact s.sameCores_refl
  | cons p ps ih => exact State.sameCores_trans (s.sameCores_entryWrite c e 3 (addr + p.1.1) p.2) (ih _)

theorem State.sameCores_dmaRow (s : State) (c : CoreId) (e : QEntry) (d : DmaDesc) (k b : Nat) : s.sameCores (s.dmaRow c e d k b).1 := by
  unfold State.dmaRow
  split
  · exact s.sameCores_refl
  · refine State.sameCores_trans ?_ (State.sameCores_writeDmaRow _ c e _ _)
    split
    · exact s.sameCores_readDmaRow _ _ _
    · exact s.sameCores_refl

theorem State.sameCores_dmaRows (s : State) (c : CoreId) (e : QEntry) (d : DmaDesc) (n k b : Nat) :
    s.sameCores (s.dmaRows c e d n k b).1 := by
  induction n generalizing s k b with
  | zero => exact s.sameCores_refl
  | succ n ih =>
    have hrow := s.sameCores_dmaRow c e d k b
    rw [State.dmaRows]
    split
    next hr =>
      rw [hr] at hrow
      exact hrow
    next hr =>
      rw [hr] at hrow
      exact State.sameCores_trans hrow (ih _ _ _)

theorem State.sameCores_of_dmaRows {s t : State} {c : CoreId} {e : QEntry} {d : DmaDesc} {n k b : Nat}
    (h : s.dmaRows c e d n k b = (t, none)) : s.sameCores t := by
  have hrows := s.sameCores_dmaRows c e d n k b
  rwa [h] at hrows

/-! ### The start of a descriptor -/

/-- A descriptor that has been read, now or before a fault, starts once no fence holds it (R172, R174). -/
theorem State.startDma_eq {s s1 : State} {c : CoreId} {e : QEntry} {l : List QEntry} {y : Site} {f : FmtDmaq} {d : List Byte}
    (hdq : (s.core c).dq = ⟨e :: l, none, none⟩) (hi : e.instr = .dmaq y f) (hp : e.phase = .waiting) (hf : s.fenced c 3 e.seq = false)
    (hread : e.desc = [] ∧ s.readStalls (.core ⟨c, e.thread⟩) (segBase (e.segs.getD 0 0) + (e.vals.headD 0).toNat) 32 = false ∧
      s.readDmaDesc c e = (s1, .ok d) ∨ e.desc = d ∧ d ≠ [] ∧ s1 = s) :
    s.startDma c = s1.beginDma c { e with desc := d } := by
  have hopen : ¬(e.phase ≠ .waiting ∨ s.fenced c 3 e.seq = true) := by simp [hp, hf]
  unfold State.startDma
  simp only [hdq, if_neg hopen]
  split
  next =>
    rcases hread with ⟨hnew, hstall, hok⟩ | ⟨rfl, hne, rfl⟩
    · rw [hnew, hstall, hok]
      rfl
    · exact if_pos (by simp [hne])
  next hother => exact absurd hi (hother y f)

/-- A descriptor without a reserved value is under way (R172). -/
theorem State.onlyCore_beginDma {s : State} {c : CoreId} {e f : QEntry} {l : List QEntry} (hdq : (s.core c).dq = ⟨f :: l, none, none⟩)
    (hd : (dmaDescOf e.desc).reserved = false) :
    s.onlyCore c (fun k => { k with dq := .empty }) (s.beginDma c e) ∧
      ((s.beginDma c e).core c).dq = ⟨{ e with phase := .underWay } :: l, none, none⟩ := by
  rw [State.beginDma, hd, if_neg Bool.false_ne_true]
  refine ⟨⟨State.sameOutside_modCore s c _, ?_⟩, ?_⟩ <;> simp [Core.setDmaHead, hdq]

theorem State.liveWord_writeDfault (s : State) (c : CoreId) (e : QEntry) (f : DmaFault) :
    (s.writeDfault c e f).liveWord (corePage c 0) 0x930 =
      BitVec.ofNat 32 (f.cause + f.which * 2 ^ 3 + e.thread.val * 2 ^ 5 + f.row * 2 ^ 16) := by
  have hne {o : Nat} (ho : o = 0x934 ∨ o = 0x938 ∨ o = 0x93C) : widx (corePage c 0) 0x930 ≠ widx (corePage c 0) o := by
    unfold widx
    omega
  rw [State.writeDfault, State.liveWord_setLive_ne _ _ (hne (.inr (.inr rfl))), State.liveWord_setLive_ne _ _ (hne (.inr (.inl rfl))),
    State.liveWord_setLive_ne _ _ (hne (.inl rfl)), State.liveWord_setLive_self]
  rfl

/-- A reserved value stops the queue at its descriptor, with cause 6 (R172, R175). -/
theorem State.beginDma_reserved {s : State} {c : CoreId} {e f : QEntry} {l : List QEntry} (hdq : (s.core c).dq = ⟨f :: l, none, none⟩)
    (hp : e.phase = .waiting) (hd : (dmaDescOf e.desc).reserved = true) :
    (s.beginDma c e).liveWord (corePage c 0) 0x930 = BitVec.ofNat 32 (6 + e.thread.val * 2 ^ 5) ∧
      ((s.beginDma c e).core c).dq =
        ⟨{ e with row := 0, byte := 0 } :: l, some ⟨e.thread, 0, false, e.seq⟩, none⟩ := by
  have hcore (f : DmaFault) : (s.writeDfault c e f).core c = s.core c := by simp only [State.writeDfault, State.core_setLive]
  unfold State.beginDma
  rw [hd, if_pos rfl, State.stopDma]
  constructor
  · rw [State.liveWord_modCore, State.liveWord_writeDfault]
    simp
  · simp [hcore, hdq, hp, DmaFault.vector]

/-! ### The end of a descriptor -/

/-- The DMA queue of a core has the entries `l` left. -/
def State.leaveDma (s : State) (c : CoreId) (l : List QEntry) : State := s.modCore c fun k => { k with dq := { k.dq with entries := l } }

/-- The event bit that a descriptor names is set in its thread, if it names one (R173). -/
def State.signalDma (s : State) (c : CoreId) (n : Fin 4) (ev : Option Nat) : State := ev.elim s (s.setEvent ⟨c, n⟩)

theorem State.thread_leaveDma (s : State) (c : CoreId) (l : List QEntry) (n : Fin 4) :
    (s.leaveDma c l).thread ⟨c, n⟩ = s.thread ⟨c, n⟩ := by
  rw [State.thread, State.leaveDma, State.core_modCore_self]
  rfl

theorem State.onlyCore_signalDma (s : State) (c : CoreId) (n : Fin 4) (ev : Option Nat) :
    s.onlyCore c (fun k => { k with threads := [] }) (s.signalDma c n ev) := by
  cases ev with
  | none => exact ⟨⟨rfl, fun _ _ => rfl⟩, rfl⟩
  | some b =>
    rw [State.signalDma, Option.elim_some]
    refine ⟨(s.onlyThread_modThread ⟨c, n⟩ _).1, ?_⟩
    rw [State.setEvent, State.modThread, State.setThread, State.core_modCore_self]
    rfl

theorem State.thread_signalDma (s : State) (c : CoreId) (m : Fin 4) (ev : Option Nat) (n : Fin 4) :
    (s.signalDma c m ev).thread ⟨c, n⟩ = ev.elim (s.thread ⟨c, n⟩) fun b =>
      if n = m then { s.thread ⟨c, n⟩ with ev := (s.thread ⟨c, n⟩).ev ||| BitVec.ofNat 32 (2 ^ b) } else s.thread ⟨c, n⟩ := by
  cases ev with
  | none => rfl
  | some b =>
    rw [State.signalDma, Option.elim_some, Option.elim_some, State.setEvent]
    split
    next hn =>
      subst hn
      exact State.thread_modThread_self s _ _
    next hn => exact State.thread_modThread_ne s _ fun h => hn (congrArg Site.thread h)

section
variable {s s1 : State} {c : CoreId} {e : QEntry} {l : List QEntry} {d : DmaDesc}
  (hdq : (s.core c).dq = ⟨e :: l, none, none⟩) (hp : e.phase = .underWay) (hd : d = dmaDescOf e.desc) (hstall : s.dmaStalls c e d = false)
  (hrows : s.dmaRows c e d (if d.rowLen = 0 then 0 else d.rows - e.row) e.row e.byte = (s1, none))
include hdq hp hd hstall hrows

/-- A descriptor of which a memory holds a write stays, its rows moved (R256). -/
theorem State.completeDma_held (hheld : s1.writesHeld c 3 (e.seq + 1) = true) :
    s.completeDma c = s1.modCore c fun k => k.setDmaHead { e with row := d.rows, byte := 0 } := by
  subst hd
  simp [State.completeDma, hdq, hp, hstall, hrows, hheld]

/-- A descriptor of which no memory holds a write is gone, and its event bit is set (R173). -/
theorem State.completeDma_done (hheld : s1.writesHeld c 3 (e.seq + 1) = false) :
    s.completeDma c = (s1.leaveDma c l).signalDma c e.thread d.ev := by
  subst hd
  cases hev : (dmaDescOf e.desc).ev <;>
    simp [State.completeDma, State.leaveDma, State.signalDma, hdq, hp, hstall, hrows, hheld, hev]

/-- The end of a descriptor writes nothing outside its core. -/
theorem State.sameOutside_completeDma : s1.sameOutside (s.completeDma c) c := by
  cases hheld : s1.writesHeld c 3 (e.seq + 1) with
  | true =>
    rw [State.completeDma_held hdq hp hd hstall hrows hheld]
    exact State.sameOutside_modCore s1 c _
  | false =>
    rw [State.completeDma_done hdq hp hd hstall hrows hheld]
    exact State.sameOutside_trans (State.sameOutside_modCore s1 c _) (State.onlyCore_signalDma _ c _ _).1

end

/-! ### The bytes of a row -/

/-- Bytes of a row by their places in it. -/
def dmaBytes (D : Nat → Byte) (b n : Nat) : List Byte := (List.range n).map fun i => D (b + i)

theorem length_dmaBytes (D : Nat → Byte) (b n : Nat) : (dmaBytes D b n).length = n := by simp [dmaBytes]

theorem dmaBytes_add (D : Nat → Byte) (b m n : Nat) : dmaBytes D b (m + n) = dmaBytes D b m ++ dmaBytes D (b + m) n := by
  simp only [dmaBytes, List.range_add, List.map_append, List.map_map, Function.comp_def, Nat.add_assoc]

theorem State.bytesAt_eq_dmaBytes (s : State) (a b n : Nat) : s.bytesAt (a + b) n = dmaBytes (fun j => s.byteAt (a + j)) b n := by
  induction n generalizing b with
  | zero => rfl
  | succ n ih =>
    rw [State.bytesAt, Nat.add_assoc, ih, Nat.add_comm n 1, dmaBytes_add]
    rfl

theorem fillBytes_eq_dmaBytes (v b n : Nat) : fillBytes v b n = dmaBytes (fun j => BitVec.ofNat 8 (v / 2 ^ (8 * (j % 4)))) b n := by
  refine List.map_congr_left fun i _ => BitVec.eq_of_toNat_eq ?_
  simp [bitsOf]

/-- A piece of a row lies in the row. -/
theorem mem_dmaPieces {addr n : Nat} {p : Nat × Nat} (h : p ∈ dmaPieces addr n 0) : p.1 + p.2 ≤ n := by
  obtain ⟨q, hq, rfl⟩ := List.mem_map.1 h
  have hbound := mem_linePieces hq
  dsimp only
  omega

/-- The pieces of a row are read as they are (R176). -/
theorem State.readDmaRow_eq {s : State} {x : Site} {a n : Nat} {ps : List (Nat × Nat)} (hps : ∀ p ∈ ps, p.1 + p.2 ≤ n)
    (h : ∀ j, j < n → s.readsAt (.core x) (a + j)) :
    ∃ t, s.readDmaRow x a ps = (t, ps.map fun p => dmaBytes (fun j => s.byteAt (a + j)) p.1 p.2, none) ∧ s.Counted t := by
  induction ps generalizing s with
  | nil => exact ⟨s, rfl, .refl s⟩
  | cons p ps ih =>
    have hp := hps p List.mem_cons_self
    obtain ⟨t, hread, ht⟩ := State.busRead_eq (s := s) (x := x) (b := a + p.1) (n := p.2) fun j hj => by
      rw [Nat.add_assoc]
      exact h (p.1 + j) (by omega)
    obtain ⟨u, hrest, hu⟩ := ih (s := t) (fun q hq => hps q (List.mem_cons_of_mem p hq)) fun j hj => ht.readsAt (h j hj)
    refine ⟨u, ?_, ht.trans hu⟩
    simp only [State.readDmaRow, hread, hrest, ht.byteAt, Bool.false_eq_true, if_false, List.map_cons, State.bytesAt_eq_dmaBytes]

/-- The pieces of a row are written in order, each byte at its place (R176). -/
theorem State.stored_writeDmaRow {s : State} {c : CoreId} {e : QEntry} {addr k m n : Nat} (D : Nat → Byte)
    (hk : n = 0 ∨ (addr + m) % 64 + n ≤ 64 * k) (h : ∀ j, j < n → s.storesAt (.core ⟨c, e.thread⟩) (addr + m + j)) :
    s.Stored (s.writeDmaRow c e addr (((linePieces k (addr + m) n).map fun p => (p.1 - addr, p.2)).map fun p => (p, dmaBytes D p.1 p.2)))
      (addr + m) (dmaBytes D m n) := by
  induction k generalizing s m n with
  | zero =>
    obtain rfl : n = 0 := by omega
    exact s.stored_nil _
  | succ k ih =>
    rw [linePieces]
    split
    next hn =>
      subst hn
      exact s.stored_nil _
    next hn =>
      generalize hq : min n (64 - (addr + m) % 64) = q
      have hlen := length_dmaBytes D m q
      have hfirst : s.Stored (s.entryWrite c e 3 (addr + m) (dmaBytes D m q)) (addr + m) (dmaBytes D m q) :=
        State.stored_entryWrite fun j hj => h j (by omega)
      have hrest := ih (s := s.entryWrite c e 3 (addr + m) (dmaBytes D m q)) (m := m + q) (n := n - q) (by omega) fun j hj => by
        refine hfirst.places.storesAt ?_
        rw [← Nat.add_assoc addr, Nat.add_assoc]
        exact h (q + j) (by omega)
      rw [← Nat.add_assoc addr] at hrest
      have hall : s.Stored _ (addr + m) (dmaBytes D m q ++ dmaBytes D (m + q) (n - q)) := State.Wrote.trans hfirst hlen hrest
      rw [← dmaBytes_add, show q + (n - q) = n by omega] at hall
      simpa only [List.map_cons, State.writeDmaRow, Nat.add_sub_cancel_left] using hall

/-- Where the first row of a descriptor goes. -/
def QEntry.dmaDst (e : QEntry) (d : DmaDesc) : Nat := segBase (e.segs.getD 2 0) + d.dst

/-- Where the first row of a descriptor comes from. -/
def QEntry.dmaSrc (e : QEntry) (d : DmaDesc) : Nat := segBase (e.segs.getD 1 0) + d.src

/-- The pieces of the first row of a descriptor, read from its source or filled (R172, R176). -/
def State.firstPieces (s : State) (c : CoreId) (e : QEntry) (d : DmaDesc) : State × List (List Byte) × Option Nat :=
  let ps := dmaPieces (e.dmaDst d) d.rowLen 0
  if d.op = 0 then s.readDmaRow ⟨c, e.thread⟩ (e.dmaSrc d) ps else (s, ps.map fun p => fillBytes d.fill p.1 p.2, none)

/-- The pieces of the first row have been had from memory or the pattern, and hold the bytes `D` of the row. -/
def State.hasPieces (s : State) (c : CoreId) (e : QEntry) (d : DmaDesc) (D : Nat → Byte) : Prop :=
  ∃ t, s.firstPieces c e d = (t, (dmaPieces (e.dmaDst d) d.rowLen 0).map fun p => dmaBytes D p.1 p.2, none) ∧ s.Counted t

theorem State.hasPieces_fill (s : State) (c : CoreId) (e : QEntry) {d : DmaDesc} (h : d.op ≠ 0) :
    s.hasPieces c e d fun j => BitVec.ofNat 8 (d.fill / 2 ^ (8 * (j % 4))) := by
  refine ⟨s, ?_, .refl s⟩
  simp only [State.firstPieces, if_neg h, fillBytes_eq_dmaBytes]

theorem State.hasPieces_copy {s : State} {c : CoreId} {e : QEntry} {d : DmaDesc} (h : d.op = 0)
    (hreads : ∀ j, j < d.rowLen → s.readsAt (.core ⟨c, e.thread⟩) (e.dmaSrc d + j)) :
    s.hasPieces c e d fun j => s.byteAt (e.dmaSrc d + j) := by
  obtain ⟨t, hread, ht⟩ := State.readDmaRow_eq (ps := dmaPieces (e.dmaDst d) d.rowLen 0) (fun p hp => mem_dmaPieces hp) hreads
  exact ⟨t, (if_pos h).trans hread, ht⟩

/-- The first row of a descriptor from its beginning. -/
theorem State.stored_dmaRow {s : State} {c : CoreId} {e : QEntry} {d : DmaDesc} {D : Nat → Byte} (hcheck : dmaRowCheck e d 0 0 = none)
    (hpieces : s.hasPieces c e d D) (h : ∀ j, j < d.rowLen → s.storesAt (.core ⟨c, e.thread⟩) (e.dmaDst d + j)) :
    ∃ u, s.dmaRow c e d 0 0 = (u, none) ∧ s.Stored u (e.dmaDst d) (dmaBytes D 0 d.rowLen) := by
  obtain ⟨t, hsrc, ht⟩ := hpieces
  have hoff : (d.srcOff 0).toNat = d.src ∧ (d.dstOff 0).toNat = d.dst := by simp [DmaDesc.srcOff, DmaDesc.dstOff]
  have hwrite := State.stored_writeDmaRow (s := t) (c := c) (e := e) (addr := e.dmaDst d) (m := 0) D
    (pieces_fuel _ d.rowLen) fun j hj => ht.exceptError.places.storesAt (h j hj)
  refine ⟨_, ?_, ht.exceptError.wrote hwrite⟩
  unfold State.firstPieces QEntry.dmaDst QEntry.dmaSrc at hsrc
  unfold State.dmaRow
  rw [hcheck]
  simp only [hoff.1, hoff.2, hsrc, zip_map_self, Option.map_none]
  rfl

/-- A descriptor of one row, not begun, moves it: besides its bytes memory is as it was. -/
theorem State.stores_completeDma {s : State} {c : CoreId} {e : QEntry} {l : List QEntry} {d : DmaDesc} {D : Nat → Byte}
    (hdq : (s.core c).dq = ⟨e :: l, none, none⟩) (hp : e.phase = .underWay) (hd : d = dmaDescOf e.desc)
    (hone : d.rows = 1 ∧ e.row = 0 ∧ e.byte = 0 ∧ d.rowLen ≠ 0) (hstall : s.dmaStalls c e d = false) (hcheck : dmaRowCheck e d 0 0 = none)
    (hpieces : s.hasPieces c e d D) (h : ∀ j, j < d.rowLen → s.takesWrite (.core ⟨c, e.thread⟩) (e.dmaDst d + j) 1) :
    s.stores (s.completeDma c) (e.dmaDst d) (dmaBytes D 0 d.rowLen) := by
  obtain ⟨hrows, hrow, hbyte, hlen⟩ := hone
  obtain ⟨u, hrun, hstored⟩ := State.stored_dmaRow hcheck hpieces fun j hj => State.storesAt_of_takesWrite (h j hj)
  have hmoved : s.dmaRows c e d (if d.rowLen = 0 then 0 else d.rows - e.row) e.row e.byte = (u, none) := by
    simp [hlen, hrows, hrow, hbyte, State.dmaRows, hrun]
  intro b
  rw [State.byteAt_sameOutside (State.sameOutside_completeDma hdq hp hd hstall hmoved), hstored.byteAt]

end Sys2Proof.Machine

open Sys2Proof Sys2Proof.Machine

/-- Settles O29: a descriptor that has been read starts, or stops at a reserved value; the end of its rows leaves their memory as it is and
the queue without it, unless a memory holds a write of it; and the pieces of a row put its bytes in their places. -/
theorem coreDmaEngine : Obligations.CoreDmaEngine := by
  unfold Obligations.CoreDmaEngine
  intro s c e l hr hdq
  refine ⟨fun y f s1 d hi hp hf hread => ?start, fun d s1 hp hd hstall hrows => ?finish,
    fun d a b hp hd hone hrow hbyte hlen hstall hcheck ha hb htakes => ?bytes⟩
  case start =>
    have hbegin := State.startDma_eq hdq hi hp hf hread
    have hdq1 : (s1.core c).dq = ⟨e :: l, none, none⟩ := by
      rcases hread with ⟨-, -, hok⟩ | ⟨-, -, rfl⟩
      · exact (State.dq_sameCores (State.sameCores_readDmaDesc hok) c).trans hdq
      · exact hdq
    refine ⟨fun hvalid => leads_does hr ?_, fun hreserved => leads_does hr ?_⟩
    · rw [hbegin]
      exact State.onlyCore_beginDma (e := { e with desc := d }) hdq1 hvalid
    · rw [hbegin]
      exact State.beginDma_reserved (e := { e with desc := d }) hdq1 hp hreserved
  case finish =>
    have hdq1 := (State.dq_sameCores (State.sameCores_of_dmaRows hrows) c).trans hdq
    refine ⟨fun hheld => leads_does hr ?_, fun hheld => leads_does hr ?_⟩
    · rw [State.completeDma_held hdq hp hd hstall hrows hheld]
      refine ⟨⟨State.sameOutside_modCore s1 c _, ?_⟩, ?_⟩ <;> simp [Core.setDmaHead, hdq1]
    · rw [State.completeDma_done hdq hp hd hstall hrows hheld]
      obtain ⟨houter, hcore⟩ := (s1.leaveDma c l).onlyCore_signalDma c e.thread d.ev
      have hqueue := congrArg Core.dq hcore
      have hrest := congrArg (fun k : Core => { k with dq := .empty }) hcore
      refine ⟨⟨State.sameOutside_trans (State.sameOutside_modCore s1 c _) houter, hrest.trans ?_⟩, hqueue.trans ?_, fun n => ?_⟩
      · simp [State.leaveDma]
      · simp [State.leaveDma, hdq1]
      · rw [State.thread_signalDma, State.thread_leaveDma]
        cases d.ev <;> rfl
  case bytes =>
    subst ha hb
    have hmoves {D : Nat → Byte} (hpieces : s.hasPieces c e d D) :=
      State.stores_completeDma hdq hp hd ⟨hone, hrow, hbyte, hlen⟩ hstall hcheck hpieces htakes
    refine ⟨fun hop => leads_does hr ?fill, fun hop hreads _ => leads_does hr ?copy⟩
    case fill =>
      have hfill := hmoves (s.hasPieces_fill c e (by omega))
      simpa only [dmaBytes, Nat.zero_add, QEntry.dmaDst] using hfill
    case copy =>
      have hcopy := hmoves (State.hasPieces_copy hop fun j hj => State.readsAt_of_takesRead (hreads j hj))
      rwa [← State.bytesAt_eq_dmaBytes] at hcopy
end
